-- ==== Sys2Proof/Word.lean ====
section
/-! DEFINITION. Machine words of the Shaoth S40 (spec 00 R6, R7): the names of the widths the manual uses. -/

namespace Sys2Proof

/-- A byte (R7). -/
abbrev Byte := BitVec 8

/-- A dword (R7): the width of the scalar and index files, of addresses and of system registers. -/
abbrev Word := BitVec 64

/-- A vector register, a door entry or a line of memory: 64 bytes (R7, R98, R211). -/
abbrev Line := BitVec 512

/-- Number of bytes of a bundle (R40). -/
abbrev bundleBytes : Nat := 32

/-- Number of bytes of a line (R7). -/
abbrev lineBytes : Nat := 64

end Sys2Proof
end

