-- ==== Sys2Proof/Config.lean ====
section
/-! DEFINITION. What the manual leaves open: free values without a body, which no proof can see (logs 2, 8, 9). -/

namespace Sys2Proof

/-- A free choice among finitely many alternatives, drawn by a plain counter of State. Nothing constrains it.
Used where the manual calls a value unpredictable among a stated set (R11); the machine reduces it to that set. -/
opaque Config.freeChoice : Nat → Nat

/-- The ECDSA signature over bytes under the fused device identity key (R439): r in the low half, s in the high half. -/
opaque Config.signature : List Byte → BitVec 768

/-- Whether a firmware image passes the checks of boot stage 0x02 (R425): digest, signature, key hash, rollback. -/
opaque Config.firmwareGood : List Byte → Bool

/-- The fused key under which blobs of key material are wrapped (R437). -/
opaque Config.wrappingKey : BitVec 256

/-- What a byte of a granule reads as once the key slot that the granule names has been reassigned (R445): by the number of
the reassignment and the byte's key. -/
opaque Config.reassignedByte : Nat → Nat → Byte

/-- The length of a partition's hub request ring, from 64 to 4,096 entries: 2^(6 + n mod 7) (R430). -/
opaque Config.ringSize : Nat → Nat

end Sys2Proof
end

