-- ==== Sys2Proof/Syntax.lean ====
section
/-! DEFINITION. The instructions: one constructor of Instr for each row of spec/opcode_table.json. Syllables carry
the fields of their form (02 R46, R50, R51, R54); micro-operations those of R57 and R59; an event row, which is a
whole act of an agent, carries what names the act. -/

namespace Sys2Proof

/-- Element types (Table 2.7). -/
inductive ElemType where
  | f32 | bf16 | f16 | e4m3 | e5m2 | e2m1 | i8 | i16 | i32 | i64 | se4m3 | se5m2 | se2m1
  deriving DecidableEq, Repr

/-- Condition codes of CMP, CMPI, XCMP and VICMP (R48). -/
inductive Cond where
  | eq | ne | lt | ge | ltu | geu | le | gt
  deriving DecidableEq, Repr

/-- Conditions of VCMPF (Table 2.8). -/
inductive FCond where
  | eq | ne | lt | le | gt | ge | un | ord
  deriving DecidableEq, Repr

/-- Rounding modes (Table 3.2). -/
inductive RMode where
  | rne | rtz | rdn | rup | rna | stoch | dyn
  deriving DecidableEq, Repr

/-- Operations of VRED, VSCAN and of collectives (Tables 2.8, 15.7). -/
inductive RedOp where
  | add | min | max
  deriving DecidableEq, Repr

/-- Operations of VSHUF (R162). -/
inductive ShufOp where
  | lo | hi | even | odd | rev
  deriving DecidableEq, Repr

/-- System registers (Table 2.4). -/
inductive SysReg where
  | status | tcause | tpc | tval | tbase | rpc | rrb | lc | ec | olane | vcur | clk | gtime
  | partid | tileid | taskid | split | flags | pwb
  deriving DecidableEq, Repr

/-! ## Forms of the S syllable (R46); rp is bit 31 (R42), g the guard (R43) -/

/-- A syllable with a guard only: EXIT, TRET, SYNCF. -/
structure SG where
  rp : Bool
  g : BitVec 4
  deriving DecidableEq, Repr

/-- Register form: d, a, b. -/
structure SR where
  rp : Bool
  g : BitVec 4
  d : BitVec 6
  a : BitVec 6
  b : BitVec 6
  deriving DecidableEq, Repr

/-- Register form with one source. -/
structure SU where
  rp : Bool
  g : BitVec 4
  d : BitVec 6
  a : BitVec 6
  deriving DecidableEq, Repr

/-- Register form with a source and no destination: SLEEP, WAITG. -/
structure SA where
  rp : Bool
  g : BitVec 4
  a : BitVec 6
  deriving DecidableEq, Repr

/-- Immediate form, and memory form: d, a, a signed 9-bit immediate or offset. -/
structure SI where
  rp : Bool
  g : BitVec 4
  d : BitVec 6
  a : BitVec 6
  imm : BitVec 9
  deriving DecidableEq, Repr

/-- Shift by an immediate count (R119). -/
structure SSh where
  rp : Bool
  g : BitVec 4
  d : BitVec 6
  a : BitVec 6
  cnt : BitVec 6
  deriving DecidableEq, Repr

/-- Long form: d and a 15-bit immediate. -/
structure SL where
  rp : Bool
  g : BitVec 4
  d : BitVec 6
  imm : BitVec 15
  deriving DecidableEq, Repr

/-- Jump form: a signed displacement in bundles. -/
structure SJ where
  rp : Bool
  g : BitVec 4
  disp : BitVec 21
  deriving DecidableEq, Repr

/-- CMP: condition, predicate, two sources (R121). -/
structure SCmp where
  rp : Bool
  g : BitVec 4
  p : BitVec 4
  a : BitVec 6
  b : BitVec 6
  c : Cond
  deriving DecidableEq, Repr

/-- CMPI: the two low bits of the condition, predicate, source, immediate (R121). -/
structure SCmpi where
  rp : Bool
  g : BitVec 4
  c : BitVec 2
  p : BitVec 4
  a : BitVec 6
  imm : BitVec 9
  deriving DecidableEq, Repr

/-- PLOG: predicates d, a, b; a source that the operation does not read is zero (R122). -/
structure SPl where
  rp : Bool
  g : BitVec 4
  d : BitVec 4
  a : BitVec 4
  b : BitVec 4
  deriving DecidableEq, Repr

/-- MFS and MTS: a scalar register and a system register (R123). -/
structure SSys where
  rp : Bool
  g : BitVec 4
  d : BitVec 6
  n : SysReg
  deriving DecidableEq, Repr

/-- TRAP: an unsigned number. -/
structure STrap where
  rp : Bool
  g : BitVec 4
  n : BitVec 9
  deriving DecidableEq, Repr

/-- JOINM: a marker-queue mask. -/
structure SJoin where
  rp : Bool
  g : BitVec 4
  m : BitVec 15
  deriving DecidableEq, Repr

/-- EMPTY: a base register and an offset. -/
structure SEmp where
  rp : Bool
  g : BitVec 4
  a : BitVec 6
  off : BitVec 9
  deriving DecidableEq, Repr

/-! ## Forms of the X syllable (R50) -/

structure XR where
  g : BitVec 4
  d : BitVec 5
  a : BitVec 5
  b : BitVec 5
  deriving DecidableEq, Repr

structure XU where
  g : BitVec 4
  d : BitVec 5
  a : BitVec 5
  deriving DecidableEq, Repr

structure XI where
  g : BitVec 4
  d : BitVec 5
  a : BitVec 5
  imm : BitVec 8
  deriving DecidableEq, Repr

structure XN where
  g : BitVec 4
  d : BitVec 5
  a : BitVec 5
  n : BitVec 6
  deriving DecidableEq, Repr

structure XLea where
  g : BitVec 4
  d : BitVec 5
  a : BitVec 5
  b : BitVec 5
  n : BitVec 3
  deriving DecidableEq, Repr

structure XCmp where
  g : BitVec 4
  p : BitVec 4
  a : BitVec 5
  b : BitVec 5
  c : Cond
  deriving DecidableEq, Repr

/-- CADV: pair names the cursors x(2 pair) and x(2 pair + 1) (R148). -/
structure XCadv where
  g : BitVec 4
  pair : BitVec 4
  a : BitVec 5
  b : BitVec 5
  p : BitVec 4
  deriving DecidableEq, Repr

structure XClamp where
  g : BitVec 4
  d : BitVec 5
  a : BitVec 5
  b : BitVec 5
  imm : BitVec 8
  deriving DecidableEq, Repr

structure XLd where
  g : BitVec 4
  d : BitVec 5
  a : BitVec 5
  off : BitVec 7
  deriving DecidableEq, Repr

/-- XBSTEP: pair names the bounds x(2 pair) and x(2 pair + 1) (R150). -/
structure XBst where
  g : BitVec 4
  pair : BitVec 4
  a : BitVec 5
  b : BitVec 5
  deriving DecidableEq, Repr

/-! ## The V syllable (R51), the C syllable (R54) and the micro-operations (R57, R59) -/

/-- The fields of a V syllable but its opcode; a field that the opcode gives as zero is zero (WellFormed). -/
structure VF where
  ty : BitVec 4
  mask : BitVec 4
  d : BitVec 9
  a : BitVec 9
  b : BitVec 9
  c : BitVec 9
  rm : BitVec 3
  sat : Bool
  g : BitVec 4
  sub : BitVec 4
  deriving DecidableEq, Repr

/-- The fields of a C syllable but its opcode (Table 2.9). -/
structure CF where
  g : BitVec 4
  lane : BitVec 8
  door : BitVec 6
  base : BitVec 6
  pblk : BitVec 6
  prom : BitVec 6
  ty : BitVec 4
  space : BitVec 4
  q : BitVec 4
  flags : BitVec 8
  imm : BitVec 64
  deriving DecidableEq, Repr

/-- The fields of an A or M micro-operation (R57). -/
structure AM where
  op : BitVec 8
  ty : BitVec 4
  d : BitVec 5
  a : BitVec 5
  b : BitVec 5
  c : BitVec 5
  deriving DecidableEq, Repr

/-- The fields of a T micro-operation but its opcode (R59). -/
structure TF where
  d : BitVec 5
  a : BitVec 5
  b : BitVec 5
  p : BitVec 12
  deriving DecidableEq, Repr

/-! ## Operands of the event rows -/

/-- A resident context: tile id and context number 0-3 (R4, R112). -/
structure CtxId where
  tile : Nat
  num : Nat
  deriving DecidableEq, Repr

/-- Privilege of a hub software agent (R424). -/
inductive Priv where
  | partitionManager | debugger | ordinary
  deriving DecidableEq, Repr

/-- A hub register that HUB_REGISTER_WRITE reaches: every hub register without a row of its own (R424). -/
inductive HubReg where
  | pctl (p : Nat)          -- fields other than EN (R428)
  | proot (p : Nat)
  | psave (p : Nat)
  | psplit (p : Nat)
  | route (n : Nat)         -- management controller (R391)
  | keymap (g : Nat)
  | limit                   -- Naesk (R435)
  | baddr (tile n : Nat) | bact (tile n : Nat) | bctl (tile n : Nat)
  | waddr (tile n : Nat) | wact (tile n : Nat) | wctl (tile n : Nat)
  | sampcfg (tile : Nat)
  | trcfg
  | trbank
  deriving DecidableEq, Repr

/-- A packet on the wire (R389, R393): the 32 bytes of its envelope, byte 0 lowest, and its 64 data bytes. -/
structure Wire where
  env : BitVec 256
  data : BitVec 512
  deriving DecidableEq, Repr

/-- Packet operations of the envelope (Table 15.4). -/
inductive PacketOp where
  | write | bankop | version | coll | ack
  deriving DecidableEq, Repr

/-- The fields of a packet (R393). good says that its CHECK holds and its OP is not reserved. -/
structure Packet where
  op : PacketOp
  first : Bool
  last : Bool
  nf : Bool
  poison : Bool
  sub : Nat
  ty : BitVec 4
  len : Nat
  src : Nat
  gsid : BitVec 16
  seq : BitVec 32
  daddr : Word
  data : Line
  good : Bool
  deriving DecidableEq, Repr

/-- What an acknowledgement reports beside the number it covers (R396). -/
inductive AckStatus where
  | ok
  | fault (code : Nat) (seq : BitVec 32)
  | poison (origin : BitVec 32)
  | version (status slot version : Nat)
  /-- No acknowledgement: the destination refused the packet of that number (R394, log 31). -/
  | refused (why : Nat)
  deriving DecidableEq, Repr

/-- An ACK packet on the wire, with what it reports (R396, log 31). -/
structure WireAck where
  wire : Wire
  status : AckStatus
  deriving DecidableEq, Repr

/-- An acknowledgement (R396): stream, highest committed number, what was met. -/
structure Ack where
  dest : Nat
  gsid : BitVec 16
  upto : BitVec 32
  status : AckStatus
  deriving DecidableEq, Repr

/-- An access of an application core through the hub aperture, or of a peer at the Hall (R388, R431). -/
inductive HubAccess where
  | read (size : Nat)
  | write (size : Nat) (v : Line)
  | atomic (op : Nat) (size : Nat) (v : Word)
  deriving DecidableEq, Repr

/-- The answer of an application core to a WALK request (Table 17.4). -/
inductive WalkAnswer where
  | frame (e : Word)
  | notPresent | malformed | access
  deriving DecidableEq, Repr

/-- Outcome of one run of the boot stages: the stage that fails, if one does, with the units that the self-test finds failed
(R425, R426). -/
structure BootRun where
  fails : Option (BitVec 8)
  units : List Nat
  ports : List Nat
  deriving DecidableEq, Repr

/-! ## The instructions -/

inductive Instr where
  -- S slot (Table 2.3)
  | sNop (rp : Bool)
  | add (f : SR)
  | sub (f : SR)
  | and (f : SR)
  | or (f : SR)
  | xor (f : SR)
  | andn (f : SR)
  | min (f : SR)
  | max (f : SR)
  | minu (f : SR)
  | maxu (f : SR)
  | shl (f : SR)
  | shr (f : SR)
  | sar (f : SR)
  | ror (f : SR)
  | clz (f : SU)
  | ctz (f : SU)
  | mul (f : SR)
  | mulh (f : SR)
  | mulhu (f : SR)
  | div (f : SR)
  | divu (f : SR)
  | rem (f : SR)
  | remu (f : SR)
  | popc (f : SU)
  | addi (f : SI)
  | andi (f : SI)
  | ori (f : SI)
  | xori (f : SI)
  | shli (f : SSh)
  | shri (f : SSh)
  | sari (f : SSh)
  | movi (f : SL)
  | movhi (f : SL)
  | cmp (f : SCmp)
  | cmpiCond03 (f : SCmpi)
  | cmpiCond47 (f : SCmpi)
  | plogAnd (f : SPl)
  | plogOr (f : SPl)
  | plogXor (f : SPl)
  | plogAndn (f : SPl)
  | plogNot (f : SPl)
  | plogMov (f : SPl)
  | plogSet (f : SPl)
  | plogClr (f : SPl)
  | ldb (f : SI)
  | ldbu (f : SI)
  | ldh (f : SI)
  | ldhu (f : SI)
  | ldw (f : SI)
  | ldwu (f : SI)
  | ldd (f : SI)
  | lds (f : SI)
  | ldp (f : SI)
  | stb (f : SI)
  | sth (f : SI)
  | stw (f : SI)
  | std (f : SI)
  | stf (f : SI)
  | empty (f : SEmp)
  | aadd (f : SR)
  | amin (f : SR)
  | amax (f : SR)
  | aand (f : SR)
  | aor (f : SR)
  | axor (f : SR)
  | aswap (f : SR)
  | atas (f : SU)
  | acas (f : SR)
  | afadd (f : SR)
  | br (f : SJ)
  | brl (f : SJ)
  | bri (f : SU)
  | loop (f : SL)
  | brtop (f : SJ)
  | exit (f : SG)
  | trap (f : STrap)
  | tret (f : SG)
  | sleep (f : SA)
  | waitg (f : SA)
  | waitgL (f : SA)
  | joinm (f : SJoin)
  | mfs (f : SSys)
  | mts (f : SSys)
  | syncfC (f : SG)
  | syncfI (f : SG)
  | syncfCi (f : SG)
  -- X slot (Table 2.5)
  | xNop
  | xadd (f : XR)
  | xsub (f : XR)
  | xaddi (f : XI)
  | xshl (f : XN)
  | xshr (f : XN)
  | xand (f : XR)
  | xmul (f : XR)
  | xlea (f : XLea)
  | xmin (f : XR)
  | xmax (f : XR)
  | xcmp (f : XCmp)
  | cadv (f : XCadv)
  | xpopc (f : XU)
  | xctz (f : XU)
  | xbitSet (f : XN)
  | xbitClr (f : XN)
  | xbitFlip (f : XN)
  | xbitExt (f : XN)
  | xmovs (f : XU)
  | xtos (f : XU)
  | xclamp (f : XClamp)
  | xwrap (f : XR)
  | xbstepW (f : XBst)
  | xbstepD (f : XBst)
  | xldW (f : XLd)
  | xldD (f : XLd)
  -- V slot (Table 2.8)
  | vNop
  | vadd (f : VF)
  | vsub (f : VF)
  | vmul (f : VF)
  | vfma (f : VF)
  | vfms (f : VF)
  | vfnma (f : VF)
  | vmin (f : VF)
  | vmax (f : VF)
  | vabs (f : VF)
  | vneg (f : VF)
  | vcpys (f : VF)
  | vrcp (f : VF)
  | vrsq (f : VF)
  | vsqrt (f : VF)
  | vexp2 (f : VF)
  | vlog2 (f : VF)
  | vcmpf (f : VF)
  | vclass (f : VF)
  | viadd (f : VF)
  | visub (f : VF)
  | vimul (f : VF)
  | vimulh (f : VF)
  | vand (f : VF)
  | vor (f : VF)
  | vxor (f : VF)
  | vshl (f : VF)
  | vshr (f : VF)
  | vsar (f : VF)
  | vimin (f : VF)
  | vimax (f : VF)
  | vicmp (f : VF)
  | vpopc (f : VF)
  | vsel (f : VF)
  | vmov (f : VF)
  | vbcast (f : VF)
  | vextr (f : VF)
  | vins (f : VF)
  | vperm (f : VF)
  | vshuf (f : VF)
  | vcvt (f : VF)
  | vpackb (f : VF)
  | vunpkb (f : VF)
  | vdot8 (f : VF)
  | vred (f : VF)
  | vscan (f : VF)
  | vld (f : VF)
  | vst (f : VF)
  | vlds (f : VF)
  | vstf (f : VF)
  | vget (f : VF)
  | vput (f : VF)
  | mand (f : VF)
  | mor (f : VF)
  | mxor (f : VF)
  | mnot (f : VF)
  | mpopc (f : VF)
  | mfirst (f : VF)
  -- C slot (Table 2.10)
  | cNop
  | saff (f : CF)
  | saffw (f : CF)
  | sind (f : CF)
  | sindw (f : CF)
  | srec (f : CF)
  | sconst (f : CF)
  | sfill (f : CF)
  | smcast (f : CF)
  | sremw (f : CF)
  | srema (f : CF)
  | scirc (f : CF)
  | scopy (f : CF)
  | scopyc (f : CF)
  | sarm (f : CF)
  | sdisarm (f : CF)
  | spost (f : CF)
  | gath (f : CF)
  | scat (f : CF)
  | greplay (f : CF)
  | sbar (f : CF)
  | smark (f : CF)
  | sord (f : CF)
  | scfg (f : CF)
  | srunGo (f : CF)
  | srunBack (f : CF)
  | sstop (f : CF)
  | swload (f : CF)
  | smm (f : CF)
  | sarmg (f : CF)
  | spub (f : CF)
  | svsw (f : CF)
  | svstage (f : CF)
  | scoll (f : CF)
  | sslot (f : CF)
  | konst (f : CF)
  | csysShootdown (f : CF)
  | csysReplay (f : CF)
  | csysPantry (f : CF)
  -- T, A and M micro-operations (Tables 2.11, 2.12)
  | tNop
  | move (f : TF)
  | join (f : TF)
  | fork (f : TF)
  | steer (f : TF)
  | selp (f : TF)
  | acc (f : TF)
  | ctr (f : TF)
  | turn (f : TF)
  | edld (f : TF)
  | edst (f : TF)
  | edatm (f : TF)
  | src (f : TF)
  | sink (f : TF)
  | cnt (f : TF)
  | mergeArr (f : TF)
  | mergeAlt (f : TF)
  | drop (f : TF)
  | peElementwiseA (f : AM)
  | peElementwiseM (f : AM)
  | peDotStep (f : AM)
  -- events: whole acts of the agents (spec/95)
  | registerWriteLands (k : CtxId) (i : Nat)
  | interlockedValueLands (k : CtxId) (i : Nat)
  | bankReply (k : CtxId) (i : Nat)
  | trapEntry (k : CtxId)
  | handlerFiringStart (tile : Nat)
  | haltedContextResume (k : CtxId) (addr : Word)
  | haltedTaskEnd (k : CtxId)
  | firingStart (tile : Nat)
  | budget (k : CtxId)
  | pcSample (tile : Nat)
  | bankAccessPerformed (k : CtxId) (i : Nat)
  | atomicPerformed (k : CtxId) (i : Nat)
  | deferredReadAnswered (k : CtxId) (i : Nat)
  | deferredReadEntry (k : CtxId) (i : Nat)
  | bankRemap (bank : Nat) (owner : Option Nat)
  | bankShutterOpen (bank : Nat)
  | patrolScrub (line : Nat)
  | commandQueueAccept (tile i : Nat)
  | streamAccept (tile slot : Nat)
  | doorBinding (tile slot : Nat)
  | streamServiceTurn (tile slot : Nat)
  | streamComplete (tile slot : Nat)
  | recordWrite (k : CtxId) (q : Nat)
  | ringHeadReread (k : CtxId) (q : Nat)
  | copyAccept (engine : Nat)
  | copyTransfer (engine i : Nat)
  | circuitEntryMove (tile slot : Nat)
  | templateFiring (k : CtxId) (t : Nat)
  | postPlaced (tile i : Nat)
  | creditGrant (src dst lb : Nat)
  | gatherBatchEnd (tile slot : Nat)
  | sordAccept (tile i : Nat)
  | orderTokenOpen (k : CtxId) (door : Nat)
  | markerReachesHead (k : CtxId) (i : Nat)
  | sbarSatisfied (k : CtxId) (i : Nat)
  | graphNodeArm (k : CtxId)
  | scfgComplete (k : CtxId) (h : Nat)
  | pageMove (k : CtxId) (h py px : Nat)
  | peFiring (k : CtxId) (h row col : Nat)
  | loopBufferFill (k : CtxId) (h row col : Nat)
  | edgeElementReply (k : CtxId) (h i : Nat)
  | edgeFaultFreeze (k : CtxId) (h i : Nat)
  | sectionQuiescent (k : CtxId) (h : Nat)
  | sectionStopped (k : CtxId) (h : Nat)
  | peSwitch (k : CtxId) (h row col : Nat)
  | regionSilent (k : CtxId) (h : Nat)
  | weightLoadComplete (tile slot : Nat)
  | rowAdmission (k : CtxId) (h : Nat)
  | outputEntryPush (k : CtxId) (h j : Nat)
  | smmRetire (k : CtxId) (h : Nat)
  | currentGrant
  | grantLowering
  | launchIntake (p q : Nat)
  | dispatcherPass (p : Nat)
  | effectivePriorityRaise (l : Nat)
  | taskPlacement (k : CtxId)
  | taskStart (k : CtxId)
  | taskEnd (k : CtxId)
  | launchEnd (l : Nat)
  | softPreemption (l : Nat)
  | hardPreemption (k : CtxId)
  | preemptionDrainEnd (k : CtxId)
  | contextRestore (k : CtxId)
  | pageWalkComplete (tile i : Nat)
  | divertedElementServed (tile i : Nat)
  | periodicRewalk (tile i : Nat)
  | unresolvable (tile i : Nat)
  | shootdownComplete (tile i : Nat)
  | spubPublish (set : Nat)
  | versionSwitch (p launch n : Nat)
  | slotFree (set slot : Nat)
  | packetArrival (w : Wire)
  | ackArrival (a : WireAck)
  | ackTimer (i : Nat)
  | refusedPacketResend (i : Nat)
  | unackedPacketResend (i : Nat)
  | orderwin (i : Nat)
  | streamEntryReclaim (i : Nat)
  | portDown (port : Nat)
  | portUp (port : Nat)
  | ptpSyncMessage (offset : BitVec 32)
  | syncTimeout
  | timeSlotStart (p : Nat)
  | collectiveStartTime (tile slot : Nat)
  | collectiveChunk (tile slot : Nat)
  | peerReadRequest (p : Nat) (addr : Word) (a : HubAccess)
  | powerOnReset (r : BootRun)
  | firmwareUpload (image : List Byte) (r : BootRun)
  | statusQuery
  | linkRetryFailure (link : Nat)
  | partitionEnable (pr : Priv) (p : Nat)
  | partitionDisable (pr : Priv) (p : Nat)
  | hregWrite (pr : Priv) (p n : Nat) (v : Word)
  | lqWrite (pr : Priv) (p n : Nat) (v : Word)
  | wsetWrite (pr : Priv) (n : Nat) (v : Word)
  | kownWrite (pr : Priv) (n : Nat) (v : Word)
  | hubRegisterWrite (pr : Priv) (r : HubReg) (v : Word)
  | keyLoad (n : Nat) (blob : List Byte)
  | attestationRequest (nonce : BitVec 384)
  | apertureAccess (addr : Nat) (a : HubAccess)
  | walkAnswer (req : Nat) (a : WalkAnswer)
  | faultAnswer (req : Nat) (retry : Bool)
  | spillAnswer (req : Nat) (buf : Option Nat)
  | saveAnswer (req image : Nat) (claim : List Nat)
  | dispatchAnswer (req : Nat) (tiles : Option (List Nat))
  | pageallocAnswer (req py px : Nat) (moves : List (Nat × Nat × Nat))
  | slewClk (n : Nat)
  | traceRingDrain (n : Nat)
  deriving DecidableEq, Repr

end Sys2Proof
end

