-- ==== Sys2Proof/Decode.lean ====
section
/-! DEFINITION. Decoding of syllables and micro-operations, total on any bits, and the encoder (spec 02 R40 to R63).
A word that is no legal encoding is rejected with the lowest bit number of its offending field (R63): of several
illegal fields the one with the highest bits, so each list of checks below runs from the highest field down. -/

namespace Sys2Proof

/-- Bits [lo + n - 1 : lo] of a word (R6). -/
def fld (w lo n : Nat) : BitVec n := BitVec.ofNat n (w / 2 ^ lo)

/-- The same field as a number. -/
def fldNat (w lo n : Nat) : Nat := w / 2 ^ lo % 2 ^ n

/-- Whether bits [lo + n - 1 : lo] hold a non-zero value. -/
def nz (w lo n : Nat) : Bool := fldNat w lo n != 0

/-- The lowest bit of the first offending field of a list of checks (R63). -/
def firstBad : List (Bool × Nat) → Option Nat
  | [] => none
  | (bad, lo) :: r => if bad then some lo else firstBad r

/-- The instruction, unless a check fails. -/
def checked (bad : List (Bool × Nat)) (i : Instr) : Except Nat Instr :=
  match firstBad bad with
  | some lo => .error lo
  | none => .ok i

/-- Condition codes (R48). -/
def Cond.ofCode : Nat → Cond
  | 0 => .eq | 1 => .ne | 2 => .lt | 3 => .ge | 4 => .ltu | 5 => .geu | 6 => .le | _ => .gt

def Cond.code : Cond → Nat
  | .eq => 0 | .ne => 1 | .lt => 2 | .ge => 3 | .ltu => 4 | .geu => 5 | .le => 6 | .gt => 7

/-- System register numbers (Table 2.4). -/
def SysReg.code : SysReg → Nat
  | .status => 0 | .tcause => 1 | .tpc => 2 | .tval => 3 | .tbase => 4 | .rpc => 5 | .rrb => 6 | .lc => 7
  | .ec => 8 | .olane => 9 | .vcur => 10 | .clk => 11 | .gtime => 12 | .partid => 13 | .tileid => 14
  | .taskid => 15 | .split => 16 | .flags => 17 | .pwb => 18

def SysReg.ofCode? : Nat → Option SysReg
  | 0 => some .status | 1 => some .tcause | 2 => some .tpc | 3 => some .tval | 4 => some .tbase | 5 => some .rpc
  | 6 => some .rrb | 7 => some .lc | 8 => some .ec | 9 => some .olane | 10 => some .vcur | 11 => some .clk
  | 12 => some .gtime | 13 => some .partid | 14 => some .tileid | 15 => some .taskid | 16 => some .split
  | 17 => some .flags | 18 => some .pwb | _ => none

/-! ## S syllable -/

/-- The register forms of one major opcode, by minor (Table 2.3); a minor without an instruction is reserved. -/
def decodeSReg (w : Nat) (rp : Bool) (g : BitVec 4) (d a b : BitVec 6) : Except Nat Instr :=
  match fldNat w 21 6, fldNat w 0 3 with
  | 1, 0 => .ok (.add ⟨rp, g, d, a, b⟩)
  | 1, 1 => .ok (.sub ⟨rp, g, d, a, b⟩)
  | 1, 2 => .ok (.and ⟨rp, g, d, a, b⟩)
  | 1, 3 => .ok (.or ⟨rp, g, d, a, b⟩)
  | 1, 4 => .ok (.xor ⟨rp, g, d, a, b⟩)
  | 1, 5 => .ok (.andn ⟨rp, g, d, a, b⟩)
  | 1, 6 => .ok (.min ⟨rp, g, d, a, b⟩)
  | 1, 7 => .ok (.max ⟨rp, g, d, a, b⟩)
  | 2, 0 => .ok (.minu ⟨rp, g, d, a, b⟩)
  | 2, 1 => .ok (.maxu ⟨rp, g, d, a, b⟩)
  | 2, 2 => .ok (.shl ⟨rp, g, d, a, b⟩)
  | 2, 3 => .ok (.shr ⟨rp, g, d, a, b⟩)
  | 2, 4 => .ok (.sar ⟨rp, g, d, a, b⟩)
  | 2, 5 => .ok (.ror ⟨rp, g, d, a, b⟩)
  | 2, 6 => checked [(nz w 3 6, 3)] (.clz ⟨rp, g, d, a⟩)
  | 2, 7 => checked [(nz w 3 6, 3)] (.ctz ⟨rp, g, d, a⟩)
  | 3, 0 => .ok (.mul ⟨rp, g, d, a, b⟩)
  | 3, 1 => .ok (.mulh ⟨rp, g, d, a, b⟩)
  | 3, 2 => .ok (.mulhu ⟨rp, g, d, a, b⟩)
  | 3, 3 => .ok (.div ⟨rp, g, d, a, b⟩)
  | 3, 4 => .ok (.divu ⟨rp, g, d, a, b⟩)
  | 3, 5 => .ok (.rem ⟨rp, g, d, a, b⟩)
  | 3, 6 => .ok (.remu ⟨rp, g, d, a, b⟩)
  | 3, 7 => checked [(nz w 3 6, 3)] (.popc ⟨rp, g, d, a⟩)
  | 32, 0 => .ok (.aadd ⟨rp, g, d, a, b⟩)
  | 32, 1 => .ok (.amin ⟨rp, g, d, a, b⟩)
  | 32, 2 => .ok (.amax ⟨rp, g, d, a, b⟩)
  | 32, 3 => .ok (.aand ⟨rp, g, d, a, b⟩)
  | 32, 4 => .ok (.aor ⟨rp, g, d, a, b⟩)
  | 32, 5 => .ok (.axor ⟨rp, g, d, a, b⟩)
  | 32, 6 => .ok (.aswap ⟨rp, g, d, a, b⟩)
  | 32, 7 => checked [(nz w 3 6, 3)] (.atas ⟨rp, g, d, a⟩)
  | 33, 0 => .ok (.acas ⟨rp, g, d, a, b⟩)
  | 34, 0 => .ok (.afadd ⟨rp, g, d, a, b⟩)
  | 37, 0 => checked [(nz w 3 6, 3)] (.bri ⟨rp, g, d, a⟩)
  | 37, _ => checked [(nz w 3 6, 3), (true, 0)] (.sNop rp)
  | _, _ => .error 0

/-- The S syllable (R46, R47). -/
def decodeS (w : Nat) : Except Nat Instr :=
  let rp := nz w 31 1
  let g : BitVec 4 := fld w 27 4
  let d : BitVec 6 := fld w 15 6
  let a : BitVec 6 := fld w 9 6
  let b : BitVec 6 := fld w 3 6
  let imm9 : BitVec 9 := fld w 0 9
  let imm15 : BitVec 15 := fld w 0 15
  let disp : BitVec 21 := fld w 0 21
  let minor := fldNat w 0 3
  match fldNat w 21 6 with
  | 0 => checked [(nz w 27 4, 27), (nz w 0 21, 0)] (.sNop rp)
  | 1 | 2 | 3 | 32 | 33 | 34 | 37 => decodeSReg w rp g d a b
  | 4 => .ok (.addi ⟨rp, g, d, a, imm9⟩)
  | 5 => .ok (.andi ⟨rp, g, d, a, imm9⟩)
  | 6 => .ok (.ori ⟨rp, g, d, a, imm9⟩)
  | 7 => .ok (.xori ⟨rp, g, d, a, imm9⟩)
  | 8 => checked [(nz w 6 3, 6)] (.shli ⟨rp, g, d, a, fld w 0 6⟩)
  | 9 => checked [(nz w 6 3, 6)] (.shri ⟨rp, g, d, a, fld w 0 6⟩)
  | 10 => checked [(nz w 6 3, 6)] (.sari ⟨rp, g, d, a, fld w 0 6⟩)
  | 11 => .ok (.movi ⟨rp, g, d, imm15⟩)
  | 12 => .ok (.movhi ⟨rp, g, d, imm15⟩)
  | 13 => checked [(nz w 19 2, 19)] (.cmp ⟨rp, g, fld w 15 4, a, b, Cond.ofCode minor⟩)
  | 14 => .ok (.cmpiCond03 ⟨rp, g, fld w 19 2, fld w 15 4, a, imm9⟩)
  | 15 => .ok (.cmpiCond47 ⟨rp, g, fld w 19 2, fld w 15 4, a, imm9⟩)
  | 16 =>
    let pl : SPl := ⟨rp, g, fld w 15 4, fld w 9 4, fld w 3 4⟩
    let up : List (Bool × Nat) := [(nz w 19 2, 19), (nz w 13 2, 13)]
    match minor with
    | 0 => checked (up ++ [(nz w 7 2, 7)]) (.plogAnd pl)
    | 1 => checked (up ++ [(nz w 7 2, 7)]) (.plogOr pl)
    | 2 => checked (up ++ [(nz w 7 2, 7)]) (.plogXor pl)
    | 3 => checked (up ++ [(nz w 7 2, 7)]) (.plogAndn pl)
    | 4 => checked (up ++ [(nz w 7 2, 7), (nz w 3 4, 3)]) (.plogNot pl)
    | 5 => checked (up ++ [(nz w 7 2, 7), (nz w 3 4, 3)]) (.plogMov pl)
    | 6 => checked (up ++ [(nz w 9 4, 9), (nz w 7 2, 7), (nz w 3 4, 3)]) (.plogSet pl)
    | _ => checked (up ++ [(nz w 9 4, 9), (nz w 7 2, 7), (nz w 3 4, 3)]) (.plogClr pl)
  | 17 => .ok (.ldb ⟨rp, g, d, a, imm9⟩)
  | 18 => .ok (.ldbu ⟨rp, g, d, a, imm9⟩)
  | 19 => .ok (.ldh ⟨rp, g, d, a, imm9⟩)
  | 20 => .ok (.ldhu ⟨rp, g, d, a, imm9⟩)
  | 21 => .ok (.ldw ⟨rp, g, d, a, imm9⟩)
  | 22 => .ok (.ldwu ⟨rp, g, d, a, imm9⟩)
  | 23 => .ok (.ldd ⟨rp, g, d, a, imm9⟩)
  | 24 => .ok (.lds ⟨rp, g, d, a, imm9⟩)
  | 25 => .ok (.ldp ⟨rp, g, d, a, imm9⟩)
  | 26 => .ok (.stb ⟨rp, g, d, a, imm9⟩)
  | 27 => .ok (.sth ⟨rp, g, d, a, imm9⟩)
  | 28 => .ok (.stw ⟨rp, g, d, a, imm9⟩)
  | 29 => .ok (.std ⟨rp, g, d, a, imm9⟩)
  | 30 => .ok (.stf ⟨rp, g, d, a, imm9⟩)
  | 31 => checked [(nz w 15 6, 15)] (.empty ⟨rp, g, a, imm9⟩)
  | 35 => .ok (.br ⟨rp, g, disp⟩)
  | 36 => .ok (.brl ⟨rp, g, disp⟩)
  | 39 => .ok (.brtop ⟨rp, g, disp⟩)
  | 38 => checked [(!nz w 0 15, 0)] (.loop ⟨rp, g, d, imm15⟩)
  | 40 => checked [(nz w 0 21, 0)] (.exit ⟨rp, g⟩)
  | 41 => checked [(nz w 15 6, 15), (nz w 9 6, 9)] (.trap ⟨rp, g, imm9⟩)
  | 42 => checked [(nz w 0 21, 0)] (.tret ⟨rp, g⟩)
  | 43 => checked [(nz w 15 6, 15), (nz w 3 6, 3), (minor != 0, 0)] (.sleep ⟨rp, g, a⟩)
  | 44 => checked [(nz w 15 6, 15), (nz w 3 6, 3), (decide (1 < minor), 0)]
      (if minor = 0 then .waitg ⟨rp, g, a⟩ else .waitgL ⟨rp, g, a⟩)
  | 45 => checked [(nz w 15 6, 15)] (.joinm ⟨rp, g, imm15⟩)
  | 46 =>
    match SysReg.ofCode? (fldNat w 0 12) with
    | some n => checked [(nz w 12 3, 12)] (.mfs ⟨rp, g, d, n⟩)
    | none => checked [(nz w 12 3, 12), (true, 0)] (.sNop rp)
  | 47 =>
    match SysReg.ofCode? (fldNat w 0 12) with
    | some n => checked [(nz w 12 3, 12)] (.mts ⟨rp, g, d, n⟩)
    | none => checked [(nz w 12 3, 12), (true, 0)] (.sNop rp)
  | 48 =>
    let z : List (Bool × Nat) := [(nz w 15 6, 15), (nz w 9 6, 9), (nz w 3 6, 3)]
    match minor with
    | 1 => checked z (.syncfC ⟨rp, g⟩)
    | 2 => checked z (.syncfI ⟨rp, g⟩)
    | 3 => checked z (.syncfCi ⟨rp, g⟩)
    | _ => checked (z ++ [(true, 0)]) (.sNop rp)
  | _ => .error 21

/-- The bits of an S syllable above its form's fields: RP, guard, major opcode (R46). -/
def encHead (rp : Bool) (g : BitVec 4) (major : Nat) : Nat := rp.toNat * 2 ^ 31 + g.toNat * 2 ^ 27 + major * 2 ^ 21

/-- Register form (Table 2.2). -/
def encR (f : SR) (major minor : Nat) : Nat :=
  encHead f.rp f.g major + f.d.toNat * 2 ^ 15 + f.a.toNat * 2 ^ 9 + f.b.toNat * 2 ^ 3 + minor

/-- Register form with one source. -/
def encU (f : SU) (major minor : Nat) : Nat :=
  encHead f.rp f.g major + f.d.toNat * 2 ^ 15 + f.a.toNat * 2 ^ 9 + minor

/-- Immediate and memory forms. -/
def encI (f : SI) (major : Nat) : Nat :=
  encHead f.rp f.g major + f.d.toNat * 2 ^ 15 + f.a.toNat * 2 ^ 9 + f.imm.toNat

def encSh (f : SSh) (major : Nat) : Nat :=
  encHead f.rp f.g major + f.d.toNat * 2 ^ 15 + f.a.toNat * 2 ^ 9 + f.cnt.toNat

/-- Long form. -/
def encL (f : SL) (major : Nat) : Nat := encHead f.rp f.g major + f.d.toNat * 2 ^ 15 + f.imm.toNat

/-- Jump form. -/
def encJ (f : SJ) (major : Nat) : Nat := encHead f.rp f.g major + f.disp.toNat

def encCmp (f : SCmp) : Nat :=
  encHead f.rp f.g 13 + f.p.toNat * 2 ^ 15 + f.a.toNat * 2 ^ 9 + f.b.toNat * 2 ^ 3 + f.c.code

def encCmpi (f : SCmpi) (major : Nat) : Nat :=
  encHead f.rp f.g major + f.c.toNat * 2 ^ 19 + f.p.toNat * 2 ^ 15 + f.a.toNat * 2 ^ 9 + f.imm.toNat

def encPl (f : SPl) (minor : Nat) : Nat :=
  encHead f.rp f.g 16 + f.d.toNat * 2 ^ 15 + f.a.toNat * 2 ^ 9 + f.b.toNat * 2 ^ 3 + minor

def encEmp (f : SEmp) : Nat := encHead f.rp f.g 31 + f.a.toNat * 2 ^ 9 + f.off.toNat

def encA (f : SA) (major minor : Nat) : Nat := encHead f.rp f.g major + f.a.toNat * 2 ^ 9 + minor

def encG (f : SG) (major minor : Nat) : Nat := encHead f.rp f.g major + minor

def encTrap (f : STrap) : Nat := encHead f.rp f.g 41 + f.n.toNat

def encJoinm (f : SJoin) : Nat := encHead f.rp f.g 45 + f.m.toNat

def encSys (f : SSys) (major : Nat) : Nat := encHead f.rp f.g major + f.d.toNat * 2 ^ 15 + f.n.code

/-- The word of an S syllable; none for an instruction of another slot. -/
def encodeS : Instr → Option Nat
  | .sNop rp => some (rp.toNat * 2 ^ 31)
  | .add f => some (encR f 1 0)
  | .sub f => some (encR f 1 1)
  | .and f => some (encR f 1 2)
  | .or f => some (encR f 1 3)
  | .xor f => some (encR f 1 4)
  | .andn f => some (encR f 1 5)
  | .min f => some (encR f 1 6)
  | .max f => some (encR f 1 7)
  | .minu f => some (encR f 2 0)
  | .maxu f => some (encR f 2 1)
  | .shl f => some (encR f 2 2)
  | .shr f => some (encR f 2 3)
  | .sar f => some (encR f 2 4)
  | .ror f => some (encR f 2 5)
  | .clz f => some (encU f 2 6)
  | .ctz f => some (encU f 2 7)
  | .mul f => some (encR f 3 0)
  | .mulh f => some (encR f 3 1)
  | .mulhu f => some (encR f 3 2)
  | .div f => some (encR f 3 3)
  | .divu f => some (encR f 3 4)
  | .rem f => some (encR f 3 5)
  | .remu f => some (encR f 3 6)
  | .popc f => some (encU f 3 7)
  | .aadd f => some (encR f 32 0)
  | .amin f => some (encR f 32 1)
  | .amax f => some (encR f 32 2)
  | .aand f => some (encR f 32 3)
  | .aor f => some (encR f 32 4)
  | .axor f => some (encR f 32 5)
  | .aswap f => some (encR f 32 6)
  | .atas f => some (encU f 32 7)
  | .acas f => some (encR f 33 0)
  | .afadd f => some (encR f 34 0)
  | .bri f => some (encU f 37 0)
  | .addi f => some (encI f 4)
  | .andi f => some (encI f 5)
  | .ori f => some (encI f 6)
  | .xori f => some (encI f 7)
  | .shli f => some (encSh f 8)
  | .shri f => some (encSh f 9)
  | .sari f => some (encSh f 10)
  | .movi f => some (encL f 11)
  | .movhi f => some (encL f 12)
  | .cmp f => some (encCmp f)
  | .cmpiCond03 f => some (encCmpi f 14)
  | .cmpiCond47 f => some (encCmpi f 15)
  | .plogAnd f => some (encPl f 0)
  | .plogOr f => some (encPl f 1)
  | .plogXor f => some (encPl f 2)
  | .plogAndn f => some (encPl f 3)
  | .plogNot f => some (encPl f 4)
  | .plogMov f => some (encPl f 5)
  | .plogSet f => some (encPl f 6)
  | .plogClr f => some (encPl f 7)
  | .ldb f => some (encI f 17)
  | .ldbu f => some (encI f 18)
  | .ldh f => some (encI f 19)
  | .ldhu f => some (encI f 20)
  | .ldw f => some (encI f 21)
  | .ldwu f => some (encI f 22)
  | .ldd f => some (encI f 23)
  | .lds f => some (encI f 24)
  | .ldp f => some (encI f 25)
  | .stb f => some (encI f 26)
  | .sth f => some (encI f 27)
  | .stw f => some (encI f 28)
  | .std f => some (encI f 29)
  | .stf f => some (encI f 30)
  | .empty f => some (encEmp f)
  | .br f => some (encJ f 35)
  | .brl f => some (encJ f 36)
  | .brtop f => some (encJ f 39)
  | .loop f => some (encL f 38)
  | .exit f => some (encG f 40 0)
  | .trap f => some (encTrap f)
  | .tret f => some (encG f 42 0)
  | .sleep f => some (encA f 43 0)
  | .waitg f => some (encA f 44 0)
  | .waitgL f => some (encA f 44 1)
  | .joinm f => some (encJoinm f)
  | .mfs f => some (encSys f 46)
  | .mts f => some (encSys f 47)
  | .syncfC f => some (encG f 48 1)
  | .syncfI f => some (encG f 48 2)
  | .syncfCi f => some (encG f 48 3)
  | _ => none

/-! ## X syllable -/

/-- The X syllable (R50, Table 2.5). -/
def decodeX (w : Nat) : Except Nat Instr :=
  let g : BitVec 4 := fld w 28 4
  let d : BitVec 5 := fld w 18 5
  let a : BitVec 5 := fld w 13 5
  let b : BitVec 5 := fld w 8 5
  let imm : BitVec 8 := fld w 0 8
  let z8 : List (Bool × Nat) := [(nz w 0 8, 0)]
  let zb : List (Bool × Nat) := [(nz w 8 5, 8)]
  let zn : List (Bool × Nat) := [(nz w 8 5, 8), (nz w 6 2, 6)]
  match fldNat w 23 5 with
  | 0 => checked [(nz w 28 4, 28), (nz w 18 5, 18), (nz w 13 5, 13), (nz w 8 5, 8), (nz w 0 8, 0)] .xNop
  | 1 => checked z8 (.xadd ⟨g, d, a, b⟩)
  | 2 => checked z8 (.xsub ⟨g, d, a, b⟩)
  | 6 => checked z8 (.xand ⟨g, d, a, b⟩)
  | 7 => checked z8 (.xmul ⟨g, d, a, b⟩)
  | 9 => checked z8 (.xmin ⟨g, d, a, b⟩)
  | 10 => checked z8 (.xmax ⟨g, d, a, b⟩)
  | 19 => checked z8 (.xwrap ⟨g, d, a, b⟩)
  | 3 => checked zb (.xaddi ⟨g, d, a, imm⟩)
  | 4 => checked zn (.xshl ⟨g, d, a, fld w 0 6⟩)
  | 5 => checked zn (.xshr ⟨g, d, a, fld w 0 6⟩)
  | 8 => checked [(nz w 3 5, 3)] (.xlea ⟨g, d, a, b, fld w 0 3⟩)
  | 11 => checked [(nz w 22 1, 22), (nz w 3 5, 3)] (.xcmp ⟨g, fld w 18 4, a, b, Cond.ofCode (fldNat w 0 3)⟩)
  | 12 => checked [(nz w 18 1 || !nz w 19 4, 18), (nz w 4 4, 4)] (.cadv ⟨g, fld w 19 4, a, b, fld w 0 4⟩)
  | 13 => checked (zb ++ z8) (.xpopc ⟨g, d, a⟩)
  | 14 => checked (zb ++ z8) (.xctz ⟨g, d, a⟩)
  | 16 => checked (zb ++ z8) (.xmovs ⟨g, d, a⟩)
  | 17 => checked (zb ++ z8) (.xtos ⟨g, d, a⟩)
  | 15 =>
    match fldNat w 6 2 with
    | 0 => checked zb (.xbitSet ⟨g, d, a, fld w 0 6⟩)
    | 1 => checked zb (.xbitClr ⟨g, d, a, fld w 0 6⟩)
    | 2 => checked zb (.xbitFlip ⟨g, d, a, fld w 0 6⟩)
    | _ => checked zb (.xbitExt ⟨g, d, a, fld w 0 6⟩)
  | 18 => .ok (.xclamp ⟨g, d, a, b, imm⟩)
  | 20 => checked [(nz w 18 1 || !nz w 19 4, 18), (nz w 2 6, 2), (decide (fldNat w 0 2 < 2), 0)]
      (if fldNat w 0 2 = 2 then .xbstepW ⟨g, fld w 19 4, a, b⟩ else .xbstepD ⟨g, fld w 19 4, a, b⟩)
  | 21 => checked zb (if nz w 7 1 then .xldD ⟨g, d, a, fld w 0 7⟩ else .xldW ⟨g, d, a, fld w 0 7⟩)
  | _ => .error 23

/-- Guard and opcode of an X syllable (R50). -/
def encXHead (g : BitVec 4) (op : Nat) : Nat := g.toNat * 2 ^ 28 + op * 2 ^ 23

/-- Three-operand X form. -/
def encXR (f : XR) (op : Nat) : Nat := encXHead f.g op + f.d.toNat * 2 ^ 18 + f.a.toNat * 2 ^ 13 + f.b.toNat * 2 ^ 8

def encXU (f : XU) (op : Nat) : Nat := encXHead f.g op + f.d.toNat * 2 ^ 18 + f.a.toNat * 2 ^ 13

/-- X form with a 6-bit count or bit number and, for XBIT, a sub-operation above it. -/
def encXN (f : XN) (op sub : Nat) : Nat :=
  encXHead f.g op + f.d.toNat * 2 ^ 18 + f.a.toNat * 2 ^ 13 + sub * 2 ^ 6 + f.n.toNat

def encXLd (f : XLd) (size : Nat) : Nat :=
  encXHead f.g 21 + f.d.toNat * 2 ^ 18 + f.a.toNat * 2 ^ 13 + size * 2 ^ 7 + f.off.toNat

def encXBst (f : XBst) (size : Nat) : Nat :=
  encXHead f.g 20 + f.pair.toNat * 2 ^ 19 + f.a.toNat * 2 ^ 13 + f.b.toNat * 2 ^ 8 + size

def encXaddi (f : XI) : Nat :=
  encXHead f.g 3 + f.d.toNat * 2 ^ 18 + f.a.toNat * 2 ^ 13 + f.imm.toNat

def encXlea (f : XLea) : Nat :=
  encXHead f.g 8 + f.d.toNat * 2 ^ 18 + f.a.toNat * 2 ^ 13 + f.b.toNat * 2 ^ 8 + f.n.toNat

def encXcmp (f : XCmp) : Nat :=
  encXHead f.g 11 + f.p.toNat * 2 ^ 18 + f.a.toNat * 2 ^ 13 + f.b.toNat * 2 ^ 8 + f.c.code

def encCadv (f : XCadv) : Nat :=
  encXHead f.g 12 + f.pair.toNat * 2 ^ 19 + f.a.toNat * 2 ^ 13 + f.b.toNat * 2 ^ 8 + f.p.toNat

def encXclamp (f : XClamp) : Nat :=
  encXHead f.g 18 + f.d.toNat * 2 ^ 18 + f.a.toNat * 2 ^ 13 + f.b.toNat * 2 ^ 8 + f.imm.toNat

/-- The word of an X syllable; none for an instruction of another slot. -/
def encodeX : Instr → Option Nat
  | .xNop => some 0
  | .xadd f => some (encXR f 1)
  | .xsub f => some (encXR f 2)
  | .xand f => some (encXR f 6)
  | .xmul f => some (encXR f 7)
  | .xmin f => some (encXR f 9)
  | .xmax f => some (encXR f 10)
  | .xwrap f => some (encXR f 19)
  | .xaddi f => some (encXaddi f)
  | .xshl f => some (encXN f 4 0)
  | .xshr f => some (encXN f 5 0)
  | .xlea f => some (encXlea f)
  | .xcmp f => some (encXcmp f)
  | .cadv f => some (encCadv f)
  | .xpopc f => some (encXU f 13)
  | .xctz f => some (encXU f 14)
  | .xmovs f => some (encXU f 16)
  | .xtos f => some (encXU f 17)
  | .xbitSet f => some (encXN f 15 0)
  | .xbitClr f => some (encXN f 15 1)
  | .xbitFlip f => some (encXN f 15 2)
  | .xbitExt f => some (encXN f 15 3)
  | .xclamp f => some (encXclamp f)
  | .xbstepW f => some (encXBst f 2)
  | .xbstepD f => some (encXBst f 3)
  | .xldW f => some (encXLd f 0)
  | .xldD f => some (encXLd f 1)
  | _ => none

/-! ## Legality of the fields of V, C, T, A and M words

Each list runs from the highest field down and pairs "illegal" with the lowest bit of the field (R63, Table 2.14). -/

/-- Lanes of a vector register for a type code (Table 2.7). -/
def typeLanes (ty : Nat) : Nat :=
  match ty with
  | 0 | 8 => 16
  | 1 | 2 | 7 => 32
  | 5 | 12 => 128
  | 9 => 8
  | _ => 64

/-- Type sets of R53. -/
inductive TypeSet where
  | float | int | any | scaled | dot | red | none
  deriving DecidableEq, Repr

def TypeSet.has (s : TypeSet) (ty : Nat) : Bool :=
  match s with
  | .float => decide (ty ≤ 2)
  | .int => decide (6 ≤ ty ∧ ty ≤ 9)
  | .any => decide (ty ≤ 12)
  | .scaled => decide (10 ≤ ty ∧ ty ≤ 12)
  | .dot => decide (ty = 3 ∨ ty = 4 ∨ ty = 6 ∨ ty = 10 ∨ ty = 11)
  | .red => decide (ty ≤ 2 ∨ (6 ≤ ty ∧ ty ≤ 9))
  | .none => decide (ty = 0)

/-- What a 9-bit register field of a V syllable names (R51, R53). -/
inductive VField where
  | v | s | m | doorIn | doorOut | zero | lane | line
  deriving DecidableEq, Repr

def VField.bad (k : VField) (ty x : Nat) : Bool :=
  match k with
  | .v => decide (384 ≤ x)
  | .s => decide (64 ≤ x)
  | .m => decide (16 ≤ x)
  | .doorIn => decide (32 ≤ x)
  | .doorOut => decide (x < 32 ∨ 48 ≤ x)
  | .zero => decide (x ≠ 0)
  | .lane => decide (typeLanes ty ≤ x)
  | .line => false

/-- One row of Table 2.8: types, the fields d a b c, largest sub-operation, rm and sat used, mask field used. -/
structure VRow where
  ts : TypeSet
  d : VField
  a : VField
  b : VField
  c : VField
  subMax : Nat
  rm : Bool
  sat : Bool
  mask : Bool
  deriving DecidableEq, Repr

/-- The row of Table 2.8 of a V-slot instruction; of another instruction, a row that admits the zero word. -/
def vRow : Instr → VRow
  | .vadd _ | .vsub _ | .vmul _ => ⟨.float, .v, .v, .v, .zero, 0, true, false, true⟩
  | .vfma _ | .vfms _ | .vfnma _ => ⟨.float, .v, .v, .v, .v, 0, true, false, true⟩
  | .vmin _ | .vmax _ | .vcpys _ => ⟨.float, .v, .v, .v, .zero, 0, false, false, true⟩
  | .vabs _ | .vneg _ | .vclass _ => ⟨.float, .v, .v, .zero, .zero, 0, false, false, true⟩
  | .vrcp _ | .vrsq _ | .vsqrt _ | .vexp2 _ | .vlog2 _ => ⟨.float, .v, .v, .zero, .zero, 0, true, false, true⟩
  | .vcmpf _ => ⟨.float, .m, .v, .v, .zero, 7, false, false, true⟩
  | .viadd _ | .visub _ => ⟨.int, .v, .v, .v, .zero, 1, false, true, true⟩
  | .vimul _ | .vand _ | .vor _ | .vxor _ | .vshl _ | .vshr _ | .vsar _ =>
    ⟨.int, .v, .v, .v, .zero, 0, false, false, true⟩
  | .vimulh _ | .vimin _ | .vimax _ => ⟨.int, .v, .v, .v, .zero, 1, false, false, true⟩
  | .vicmp _ => ⟨.int, .m, .v, .v, .zero, 7, false, false, true⟩
  | .vpopc _ => ⟨.int, .v, .v, .zero, .zero, 0, false, false, true⟩
  | .vsel _ | .vperm _ => ⟨.any, .v, .v, .v, .zero, 0, false, false, true⟩
  | .vmov _ => ⟨.any, .v, .v, .zero, .zero, 0, false, false, true⟩
  | .vbcast _ => ⟨.any, .v, .s, .zero, .zero, 0, false, false, true⟩
  | .vextr _ => ⟨.any, .s, .v, .zero, .lane, 0, false, false, false⟩
  | .vins _ => ⟨.any, .v, .s, .zero, .lane, 0, false, false, true⟩
  | .vshuf _ => ⟨.any, .v, .v, .v, .zero, 4, false, false, true⟩
  | .vcvt _ => ⟨.any, .v, .v, .zero, .zero, 12, true, true, true⟩
  | .vpackb _ => ⟨.scaled, .v, .v, .v, .zero, 0, true, true, true⟩
  | .vunpkb _ => ⟨.scaled, .v, .v, .v, .zero, 0, false, false, true⟩
  | .vdot8 _ => ⟨.dot, .v, .v, .v, .v, 0, true, false, true⟩
  | .vred f | .vscan f => ⟨.red, .v, .v, .zero, .zero, 2, decide (f.ty.toNat ≤ 2 ∧ f.sub = 0), false, true⟩
  | .vld _ | .vst _ | .vlds _ | .vstf _ => ⟨.any, .v, .s, .zero, .line, 0, false, false, true⟩
  | .vget _ => ⟨.any, .v, .doorOut, .zero, .zero, 0, false, false, true⟩
  | .vput _ => ⟨.any, .doorIn, .v, .zero, .zero, 0, false, false, true⟩
  | .mand _ | .mor _ | .mxor _ => ⟨.none, .m, .m, .m, .zero, 0, false, false, false⟩
  | .mnot _ => ⟨.none, .m, .m, .zero, .zero, 0, false, false, false⟩
  | .mpopc _ | .mfirst _ => ⟨.none, .s, .m, .zero, .zero, 0, false, false, false⟩
  | _ => ⟨.none, .zero, .zero, .zero, .zero, 0, false, false, false⟩

/-- The checks of a V syllable (R51 to R53, Table 2.14). -/
def vChecks (i : Instr) (f : VF) : List (Bool × Nat) :=
  let r := vRow i
  let ty := f.ty.toNat
  [(!r.ts.has ty, 52), (!r.mask && f.mask != 0, 48), (r.d.bad ty f.d.toNat, 39), (r.a.bad ty f.a.toNat, 30),
   (r.b.bad ty f.b.toNat, 21), (r.c.bad ty f.c.toNat, 12), (f.rm == 7 || (!r.rm && f.rm != 0), 9),
   (!r.sat && f.sat, 8), (decide (r.subMax < f.sub.toNat), 0)]

/-- What the door field of a C syllable may name (R55). -/
inductive DoorUse where
  | unused | inOnly | outOnly | inOrNone | outOrNone | inOut | any
  deriving DecidableEq, Repr

def DoorUse.bad (k : DoorUse) (x : Nat) : Bool :=
  match k with
  | .unused => decide (x ≠ 0)
  | .inOnly => decide (32 ≤ x)
  | .outOnly => decide (x < 32 ∨ 48 ≤ x)
  | .inOrNone => decide (32 ≤ x ∧ x ≠ 63)
  | .outOrNone => decide (x < 32 ∨ (48 ≤ x ∧ x ≠ 63))
  | .inOut => decide (48 ≤ x)
  | .any => decide (48 ≤ x ∧ x ≠ 63)

/-- One row of Table 2.10: which of the fields L B P W T S Q are marked, the use of the door field, the flag bits and
the immediate bits that the command's chapter describes. -/
structure CRow where
  l : Bool
  door : DoorUse
  b : Bool
  p : Bool
  w : Bool
  t : Bool
  s : Bool
  q : Bool
  fmask : Nat
  imask : Nat
  deriving DecidableEq, Repr

def allImm : Nat := 2 ^ 64 - 1

/-- The row of Table 2.10 of a C-slot instruction; of another instruction, a row that admits the zero word. -/
def cRow : Instr → CRow
  | .saff _ => ⟨true, .inOnly, true, true, true, true, true, true, 0, allImm⟩
  | .sind _ => ⟨true, .inOnly, true, true, true, true, true, true, 0x10, allImm⟩
  | .saffw _ => ⟨true, .outOnly, true, true, true, true, true, true, 0x01, allImm⟩
  | .sindw _ => ⟨true, .outOnly, true, true, true, true, true, true, 0x11, allImm⟩
  | .srec _ => ⟨false, .inOnly, false, true, true, true, false, true, 0, 0x3F⟩
  | .sconst _ => ⟨false, .inOnly, false, true, true, true, false, true, 0, allImm⟩
  | .sfill _ => ⟨true, .unused, true, true, true, true, true, true, 0, allImm⟩
  | .smcast _ => ⟨true, .inOnly, true, true, true, true, true, true, 0, allImm⟩
  | .sremw _ => ⟨true, .outOnly, true, true, true, true, true, true, 0x01, allImm⟩
  | .srema _ => ⟨true, .outOnly, true, true, true, true, true, true, 0x70, allImm⟩
  | .scirc _ => ⟨true, .inOut, true, true, false, false, false, true, 0, 0x7⟩
  | .scopy _ => ⟨true, .unused, true, true, true, false, true, true, 0, allImm⟩
  | .scopyc _ => ⟨true, .unused, true, true, true, false, true, true, 0x3E, allImm⟩
  | .sarm _ => ⟨false, .unused, false, true, false, false, false, true, 0, 0xF0F⟩
  | .sdisarm _ => ⟨false, .unused, false, false, false, false, false, true, 0, 0xF00⟩
  | .spost _ => ⟨true, .unused, true, false, false, false, false, true, 0, 0x7F0F⟩
  | .gath _ => ⟨true, .inOrNone, true, true, true, true, true, true, 0, allImm⟩
  | .scat _ => ⟨true, .outOrNone, true, true, true, true, true, true, 0, allImm⟩
  | .greplay _ => ⟨true, .unused, true, true, true, false, false, true, 0, allImm⟩
  | .sbar _ => ⟨false, .unused, false, false, false, false, false, false, 0, 2 ^ 48 - 1⟩
  | .smark _ => ⟨true, .unused, false, false, false, false, false, false, 0, 0x7FFF⟩
  | .sord _ => ⟨true, .outOnly, false, false, false, false, false, false, 0, 0⟩
  | .scfg _ => ⟨false, .unused, true, false, true, false, true, true, 0x01, 0xF⟩
  | .srunGo _ | .srunBack _ => ⟨false, .unused, false, false, false, false, false, false, 0, 0x10F⟩
  | .sstop _ => ⟨false, .unused, false, false, false, false, false, true, 0, 0xF⟩
  | .swload _ => ⟨true, .unused, true, true, true, true, true, true, 0x07, 0xF⟩
  | .smm _ => ⟨false, .unused, false, true, true, true, false, true, 0x01, (2 ^ 32 - 1) * 2 ^ 32 + 0xF⟩
  | .sarmg _ => ⟨false, .unused, false, false, false, false, false, true, 0, (2 ^ 32 - 1) * 2 ^ 32 + 0xFFFF⟩
  | .spub _ => ⟨true, .unused, false, false, false, false, false, true, 0, 0x33F⟩
  | .svsw _ => ⟨false, .unused, false, false, false, false, false, true, 0, allImm⟩
  | .svstage _ => ⟨true, .unused, false, false, false, false, false, true, 0, 0x3F⟩
  | .scoll _ => ⟨true, .any, true, true, true, true, true, true, 0x03, allImm⟩
  | .sslot _ => ⟨false, .unused, true, false, false, false, true, true, 0, 0x7FF⟩
  | .konst _ => ⟨false, .unused, true, false, false, false, false, false, 0, allImm⟩
  | .csysShootdown _ => ⟨false, .unused, true, true, false, false, false, true, 0x01, 0xFF⟩
  | .csysReplay _ => ⟨false, .unused, false, true, false, false, false, true, 0x01, 0xFF⟩
  | .csysPantry _ => ⟨false, .unused, false, true, false, false, false, true, 0, 0xFF⟩
  | _ => ⟨false, .unused, false, false, false, false, false, false, 0, 0⟩

/-- Whether a value has a bit outside a mask. -/
def outside (x mask : Nat) : Bool := Nat.land x mask != x

/-- Types of the commands that admit fewer than codes 0-12: SWLOAD (R260), SMM (R265), and SREMA, whose operation
fixes them (R231). -/
def cTypeBad (i : Instr) (f : CF) : Bool :=
  let ty := f.ty.toNat
  match i with
  | .swload _ => decide (ty = 0 ∨ (7 ≤ ty ∧ ty ≤ 9) ∨ 13 ≤ ty)
  | .smm _ => decide (ty = 5 ∨ 9 ≤ ty)
  | .srema _ => if f.flags.toNat / 16 % 8 = 6 then decide (ty ≠ 0)
      else if f.flags.toNat / 16 % 8 = 7 then decide (13 ≤ ty) else decide (ty ≠ 8 ∧ ty ≠ 9)
  | _ => decide (13 ≤ ty)

/-- The illegal fields of an immediate, the highest first (Table 2.10, R56). Where the tables of the chapters split or merge
the reserved bits of the immediate and the flags (CSYS, SSLOT), TVAL names the lowest bit of the field of Table 2.9, 0 or 64:
the model's choice (log 24). -/
def cImmChecks (i : Instr) (f : CF) : List (Bool × Nat) :=
  let imm := f.imm.toNat
  match i with
  | .srec _ => [(outside imm 0x3F, 0), (decide (imm % 64 < 32 ∨ 48 ≤ imm % 64), 0)]
  | .smm _ => [(decide (imm / 2 ^ 32 = 0), 32), (outside imm (cRow i).imask, 0)]
  | .svsw _ => [(decide (imm = 0), 0)]
  | .sslot _ => [(outside imm 0x7FF, 0), (decide (imm % 2 ^ 11 = 0), 0)]
  | .csysShootdown _ => [(outside imm 0xFF, 0), (decide (imm % 256 ≠ 0), 0)]
  | .srunGo _ | .srunBack _ => [(outside imm 0x10F, 0)]
  | _ => [(outside imm (cRow i).imask, 0)]

/-- The checks of a C syllable (R54 to R56, Table 2.14). -/
def cChecks (i : Instr) (f : CF) : List (Bool × Nat) :=
  let r := cRow i
  let sp := f.space.toNat
  let srema := match i with
    | .srema _ => decide (f.flags.toNat / 16 % 8 = 7)
    | _ => false
  [(!r.l && f.lane != 0, 108), (r.door.bad f.door.toNat, 102), (!r.b && f.base != 0, 96),
   ((if r.p then f.pblk == 0 else f.pblk != 0), 90), (!r.w && f.prom != 0, 84),
   ((if r.t then cTypeBad i f else f.ty != 0), 80),
   ((if r.s then decide (sp = 3 ∨ 5 ≤ sp ∧ sp ≠ 8) else f.space != 0), 76),
   ((if r.q then decide (9 ≤ f.q.toNat) else f.q != 0), 72), (outside f.flags.toNat r.fmask, 64), (srema, 68)]
    ++ cImmChecks i f

/-- Whether an operand code of a micro-operation is reserved (R58). -/
def opcodeBad (x : Nat) : Bool := decide (27 ≤ x)

/-- Whether an operand code may not stand as a destination: reserved, or a constant (R58). -/
def destBad (x : Nat) : Bool := decide (27 ≤ x ∨ x = 24 ∨ x = 25)

/-- The checks of a T micro-operation (R59, R62, Table 7.5). -/
def tChecks (i : Instr) (f : TF) : List (Bool × Nat) :=
  let d := f.d.toNat
  let a := f.a.toNat
  let b := f.b.toNat
  let p := f.p.toNat
  let dd := (destBad d, 22)
  let aa := (opcodeBad a, 17)
  let b0 := (decide (b ≠ 0), 12)
  match i with
  | .move _ => [dd, aa, b0, (decide (p ≠ 0), 0)]
  | .join _ => [dd, aa, (opcodeBad b, 12), (decide (p % 4 ≠ 0), 0)]
  | .fork _ => [dd, aa, (destBad b, 12), (decide (p ≠ 0), 0)]
  | .steer _ => [dd, aa, (opcodeBad b, 12), (destBad (p / 128), 7), (decide (p % 128 ≠ 0), 0)]
  | .selp _ => [dd, aa, (opcodeBad b, 12), (opcodeBad (p / 128), 7), (decide (p % 128 ≠ 0), 0)]
  | .acc _ | .cnt _ => [dd, aa, b0, (decide (p = 0), 0)]
  | .ctr _ => [dd, (decide (a ≠ 0), 17), b0, (decide (p = 0), 0)]
  | .turn _ => [dd, aa, (opcodeBad b, 12), (decide (2 ≤ p), 0)]
  | .edld _ => [dd, aa, b0, (decide (p / 1024 = 3), 10), (decide (p % 16 ≠ 0), 0)]
  | .edst _ => [dd, aa, (opcodeBad b, 12), (decide (p / 1024 = 3), 10), (decide (p % 16 ≠ 0), 0)]
  | .edatm _ => [dd, aa, (opcodeBad b, 12), (decide (2 ≤ p / 1024 ∨ (p % 16 = 6 ∧ p / 1024 ≠ 0)), 10),
      (decide (8 ≤ p % 16), 0)]
  | .src _ => [dd, aa, b0, (decide (16 ≤ p), 0)]
  | .sink _ => [(decide (d ≠ 0), 22), aa, b0, (decide (64 ≤ p), 0)]
  | .mergeArr _ | .mergeAlt _ => [dd, aa, (opcodeBad b, 12), (decide (2 ≤ p), 0)]
  | .drop _ => [(decide (d ≠ 0), 22), aa, b0, (decide (p ≠ 0), 0)]
  | _ => [(decide (d ≠ 0), 22), (decide (a ≠ 0), 17), b0, (decide (p ≠ 0), 0)]

/-- Legal opcodes of an A or M micro-operation with their type sets (Table 2.11, R53). -/
def amTypes (isM : Bool) (op : Nat) : Option TypeSet :=
  if isM then
    match op with
    | 0x03 | 0x04 | 0x05 | 0x06 => some .float
    | 0x22 | 0x23 => some .int
    | 0x4A => some .any
    | _ => none
  else
    match op with
    | 0x01 | 0x02 | 0x07 | 0x08 | 0x09 | 0x0A | 0x0B | 0x11 | 0x12 => some .float
    | 0x20 | 0x21 | 0x24 | 0x25 | 0x26 | 0x27 | 0x28 | 0x29 | 0x2A | 0x2B | 0x2C | 0x2D => some .int
    | 0x40 | 0x41 | 0x47 => some .any
    | _ => none

/-- Types of the dot step (R58). -/
def dotStepType (ty : Nat) : Bool :=
  decide (ty = 3 ∨ ty = 4 ∨ ty = 6 ∨ ty = 5 ∨ ty = 10 ∨ ty = 11 ∨ ty = 12 ∨ ty = 1 ∨ ty = 2)

/-- Whether the b field of an A or M opcode names a second source. -/
def amUsesB (op : Nat) : Bool := decide (op ≠ 0x09 ∧ op ≠ 0x0A ∧ op ≠ 0x12 ∧ op ≠ 0x2D ∧ op ≠ 0x41 ∧ op ≠ 0x47)

/-- Whether the c field of an A or M opcode names an operand (R57, R58). -/
def amUsesC (op : Nat) : Bool := decide ((0x04 ≤ op ∧ op ≤ 0x06) ∨ op = 0x40 ∨ op = 0x4A)

/-- The largest sub-operation of an A or M opcode whose c field is no operand (R57). -/
def amSubMax (op : Nat) : Nat :=
  match op with
  | 0x11 | 0x2C => 7
  | 0x20 | 0x21 | 0x23 | 0x2A | 0x2B => 1
  | 0x47 => 12
  | _ => 0

/-- The checks of an A (isM false) or M micro-operation (R57, R58, R62). -/
def amChecks (isM : Bool) (f : AM) : List (Bool × Nat) :=
  let op := f.op.toNat
  let ty := f.ty.toNat
  let tyBad := match amTypes isM op with
    | some ts => if op = 0x4A then !dotStepType ty else !ts.has ty
    | none => false
  [((amTypes isM op).isNone, 24), (tyBad, 20), (destBad f.d.toNat, 15), (opcodeBad f.a.toNat, 10),
   ((if amUsesB op then opcodeBad f.b.toNat else f.b != 0), 5),
   ((if amUsesC op then opcodeBad f.c.toNat else decide (amSubMax op < f.c.toNat)), 0)]

/-! ## V syllable -/

/-- The opcode of a V-slot instruction (Table 2.8); none for an instruction of another slot. -/
def vOpcode : Instr → Option (Nat × VF)
  | .vadd f => some (1, f)
  | .vsub f => some (2, f)
  | .vmul f => some (3, f)
  | .vfma f => some (4, f)
  | .vfms f => some (5, f)
  | .vfnma f => some (6, f)
  | .vmin f => some (7, f)
  | .vmax f => some (8, f)
  | .vabs f => some (9, f)
  | .vneg f => some (10, f)
  | .vcpys f => some (11, f)
  | .vrcp f => some (12, f)
  | .vrsq f => some (13, f)
  | .vsqrt f => some (14, f)
  | .vexp2 f => some (15, f)
  | .vlog2 f => some (16, f)
  | .vcmpf f => some (17, f)
  | .vclass f => some (18, f)
  | .viadd f => some (32, f)
  | .visub f => some (33, f)
  | .vimul f => some (34, f)
  | .vimulh f => some (35, f)
  | .vand f => some (36, f)
  | .vor f => some (37, f)
  | .vxor f => some (38, f)
  | .vshl f => some (39, f)
  | .vshr f => some (40, f)
  | .vsar f => some (41, f)
  | .vimin f => some (42, f)
  | .vimax f => some (43, f)
  | .vicmp f => some (44, f)
  | .vpopc f => some (45, f)
  | .vsel f => some (64, f)
  | .vmov f => some (65, f)
  | .vbcast f => some (66, f)
  | .vextr f => some (67, f)
  | .vins f => some (68, f)
  | .vperm f => some (69, f)
  | .vshuf f => some (70, f)
  | .vcvt f => some (71, f)
  | .vpackb f => some (72, f)
  | .vunpkb f => some (73, f)
  | .vdot8 f => some (74, f)
  | .vred f => some (75, f)
  | .vscan f => some (76, f)
  | .vld f => some (96, f)
  | .vst f => some (97, f)
  | .vlds f => some (98, f)
  | .vstf f => some (99, f)
  | .vget f => some (100, f)
  | .vput f => some (101, f)
  | .mand f => some (112, f)
  | .mor f => some (113, f)
  | .mxor f => some (114, f)
  | .mnot f => some (115, f)
  | .mpopc f => some (116, f)
  | .mfirst f => some (117, f)
  | _ => none

/-- The V-slot instruction of an opcode (Table 2.8). -/
def vInstr? (op : Nat) (f : VF) : Option Instr :=
  match op with
  | 1 => some (.vadd f)
  | 2 => some (.vsub f)
  | 3 => some (.vmul f)
  | 4 => some (.vfma f)
  | 5 => some (.vfms f)
  | 6 => some (.vfnma f)
  | 7 => some (.vmin f)
  | 8 => some (.vmax f)
  | 9 => some (.vabs f)
  | 10 => some (.vneg f)
  | 11 => some (.vcpys f)
  | 12 => some (.vrcp f)
  | 13 => some (.vrsq f)
  | 14 => some (.vsqrt f)
  | 15 => some (.vexp2 f)
  | 16 => some (.vlog2 f)
  | 17 => some (.vcmpf f)
  | 18 => some (.vclass f)
  | 32 => some (.viadd f)
  | 33 => some (.visub f)
  | 34 => some (.vimul f)
  | 35 => some (.vimulh f)
  | 36 => some (.vand f)
  | 37 => some (.vor f)
  | 38 => some (.vxor f)
  | 39 => some (.vshl f)
  | 40 => some (.vshr f)
  | 41 => some (.vsar f)
  | 42 => some (.vimin f)
  | 43 => some (.vimax f)
  | 44 => some (.vicmp f)
  | 45 => some (.vpopc f)
  | 64 => some (.vsel f)
  | 65 => some (.vmov f)
  | 66 => some (.vbcast f)
  | 67 => some (.vextr f)
  | 68 => some (.vins f)
  | 69 => some (.vperm f)
  | 70 => some (.vshuf f)
  | 71 => some (.vcvt f)
  | 72 => some (.vpackb f)
  | 73 => some (.vunpkb f)
  | 74 => some (.vdot8 f)
  | 75 => some (.vred f)
  | 76 => some (.vscan f)
  | 96 => some (.vld f)
  | 97 => some (.vst f)
  | 98 => some (.vlds f)
  | 99 => some (.vstf f)
  | 100 => some (.vget f)
  | 101 => some (.vput f)
  | 112 => some (.mand f)
  | 113 => some (.mor f)
  | 114 => some (.mxor f)
  | 115 => some (.mnot f)
  | 116 => some (.mpopc f)
  | 117 => some (.mfirst f)
  | _ => none

/-- The V syllable (R51 to R53). -/
def decodeV (w : Nat) : Except Nat Instr :=
  let f : VF := ⟨fld w 52 4, fld w 48 4, fld w 39 9, fld w 30 9, fld w 21 9, fld w 12 9, fld w 9 3, nz w 8 1,
    fld w 4 4, fld w 0 4⟩
  match fldNat w 56 8 with
  | 0 => checked [(nz w 52 4, 52), (nz w 48 4, 48), (nz w 39 9, 39), (nz w 30 9, 30), (nz w 21 9, 21),
      (nz w 12 9, 12), (nz w 9 3, 9), (nz w 8 1, 8), (nz w 4 4, 4), (nz w 0 4, 0)] .vNop
  | op =>
    match vInstr? op f with
    | some i => checked (vChecks i f) i
    | none => .error 56

/-- The word of a V syllable; none for an instruction of another slot. -/
def encodeV : Instr → Option Nat
  | .vNop => some 0
  | i => (vOpcode i).map fun (op, f) =>
    op * 2 ^ 56 + f.ty.toNat * 2 ^ 52 + f.mask.toNat * 2 ^ 48 + f.d.toNat * 2 ^ 39 + f.a.toNat * 2 ^ 30
      + f.b.toNat * 2 ^ 21 + f.c.toNat * 2 ^ 12 + f.rm.toNat * 2 ^ 9 + f.sat.toNat * 2 ^ 8 + f.g.toNat * 2 ^ 4
      + f.sub.toNat

/-! ## C syllable -/

/-- The opcode of a C-slot instruction (Table 2.10); none for an instruction of another slot. -/
def cOpcode : Instr → Option (Nat × CF)
  | .saff f => some (1, f)
  | .saffw f => some (2, f)
  | .sind f => some (3, f)
  | .sindw f => some (4, f)
  | .srec f => some (5, f)
  | .sconst f => some (6, f)
  | .sfill f => some (7, f)
  | .smcast f => some (8, f)
  | .sremw f => some (9, f)
  | .srema f => some (10, f)
  | .scirc f => some (11, f)
  | .scopy f => some (16, f)
  | .scopyc f => some (17, f)
  | .sarm f => some (18, f)
  | .sdisarm f => some (19, f)
  | .spost f => some (20, f)
  | .gath f => some (24, f)
  | .scat f => some (25, f)
  | .greplay f => some (26, f)
  | .sbar f => some (32, f)
  | .smark f => some (33, f)
  | .sord f => some (34, f)
  | .scfg f => some (40, f)
  | .sstop f => some (42, f)
  | .swload f => some (43, f)
  | .smm f => some (44, f)
  | .sarmg f => some (45, f)
  | .spub f => some (48, f)
  | .svsw f => some (49, f)
  | .svstage f => some (50, f)
  | .scoll f => some (56, f)
  | .sslot f => some (57, f)
  | .konst f => some (62, f)
  | .srunGo f | .srunBack f => some (41, f)
  | .csysShootdown f | .csysReplay f | .csysPantry f => some (63, f)
  | _ => none

/-- The C-slot instruction of an opcode (Table 2.10); SRUN is told by immediate bit 8, CSYS by its function. -/
def cInstr? (op : Nat) (f : CF) : Option Instr :=
  match op with
  | 1 => some (.saff f)
  | 2 => some (.saffw f)
  | 3 => some (.sind f)
  | 4 => some (.sindw f)
  | 5 => some (.srec f)
  | 6 => some (.sconst f)
  | 7 => some (.sfill f)
  | 8 => some (.smcast f)
  | 9 => some (.sremw f)
  | 10 => some (.srema f)
  | 11 => some (.scirc f)
  | 16 => some (.scopy f)
  | 17 => some (.scopyc f)
  | 18 => some (.sarm f)
  | 19 => some (.sdisarm f)
  | 20 => some (.spost f)
  | 24 => some (.gath f)
  | 25 => some (.scat f)
  | 26 => some (.greplay f)
  | 32 => some (.sbar f)
  | 33 => some (.smark f)
  | 34 => some (.sord f)
  | 40 => some (.scfg f)
  | 42 => some (.sstop f)
  | 43 => some (.swload f)
  | 44 => some (.smm f)
  | 45 => some (.sarmg f)
  | 48 => some (.spub f)
  | 49 => some (.svsw f)
  | 50 => some (.svstage f)
  | 56 => some (.scoll f)
  | 57 => some (.sslot f)
  | 62 => some (.konst f)
  | 41 => some (if f.imm.toNat / 2 ^ 8 % 2 = 1 then .srunBack f else .srunGo f)
  | 63 => some (if f.imm.toNat % 256 = 1 then .csysReplay f else if f.imm.toNat % 256 = 2 then .csysPantry f else .csysShootdown f)
  | _ => none

/-- The C syllable (R54 to R56). -/
def decodeC (w : Nat) : Except Nat Instr :=
  let f : CF := ⟨fld w 116 4, fld w 108 8, fld w 102 6, fld w 96 6, fld w 90 6, fld w 84 6, fld w 80 4, fld w 76 4,
    fld w 72 4, fld w 64 8, fld w 0 64⟩
  match fldNat w 120 8 with
  | 0 => checked [(nz w 116 4, 116), (nz w 108 8, 108), (nz w 102 6, 102), (nz w 96 6, 96), (nz w 90 6, 90),
      (nz w 84 6, 84), (nz w 80 4, 80), (nz w 76 4, 76), (nz w 72 4, 72), (nz w 64 8, 64), (nz w 0 64, 0)] .cNop
  | op =>
    match cInstr? op f with
    | some i => checked (cChecks i f) i
    | none => .error 120

/-- The word of a C syllable; none for an instruction of another slot. -/
def encodeC : Instr → Option Nat
  | .cNop => some 0
  | i => (cOpcode i).map fun (op, f) =>
    op * 2 ^ 120 + f.g.toNat * 2 ^ 116 + f.lane.toNat * 2 ^ 108 + f.door.toNat * 2 ^ 102 + f.base.toNat * 2 ^ 96
      + f.pblk.toNat * 2 ^ 90 + f.prom.toNat * 2 ^ 84 + f.ty.toNat * 2 ^ 80 + f.space.toNat * 2 ^ 76
      + f.q.toNat * 2 ^ 72 + f.flags.toNat * 2 ^ 64 + f.imm.toNat

/-! ## Micro-operations of a PE entry -/

/-- The opcode of a T micro-operation (Table 2.12); none for another instruction. -/
def tOpcode : Instr → Option (Nat × TF)
  | .move f => some (1, f)
  | .join f => some (2, f)
  | .fork f => some (3, f)
  | .steer f => some (4, f)
  | .selp f => some (5, f)
  | .acc f => some (6, f)
  | .ctr f => some (7, f)
  | .turn f => some (8, f)
  | .edld f => some (9, f)
  | .edst f => some (10, f)
  | .edatm f => some (11, f)
  | .src f => some (12, f)
  | .sink f => some (13, f)
  | .cnt f => some (14, f)
  | .drop f => some (16, f)
  | .mergeArr f | .mergeAlt f => some (15, f)
  | _ => none

/-- The T micro-operation of an opcode; MERGE is told by parameter bit 0. -/
def tInstr? (op : Nat) (f : TF) : Option Instr :=
  match op with
  | 1 => some (.move f)
  | 2 => some (.join f)
  | 3 => some (.fork f)
  | 4 => some (.steer f)
  | 5 => some (.selp f)
  | 6 => some (.acc f)
  | 7 => some (.ctr f)
  | 8 => some (.turn f)
  | 9 => some (.edld f)
  | 10 => some (.edst f)
  | 11 => some (.edatm f)
  | 12 => some (.src f)
  | 13 => some (.sink f)
  | 14 => some (.cnt f)
  | 16 => some (.drop f)
  | 15 => some (if f.p.toNat % 2 = 1 then .mergeAlt f else .mergeArr f)
  | _ => none

/-- The T micro-operation (R59): its fields must hold what Table 2.12 gives (R62). -/
def decodeT (w : Nat) : Except Nat Instr :=
  let f : TF := ⟨fld w 22 5, fld w 17 5, fld w 12 5, fld w 0 12⟩
  match fldNat w 27 5 with
  | 0 => checked [(nz w 22 5, 22), (nz w 17 5, 17), (nz w 12 5, 12), (nz w 0 12, 0)] .tNop
  | op =>
    match tInstr? op f with
    | some i => checked (tChecks i f) i
    | none => .error 27

/-- The word of a T micro-operation; none for another instruction. -/
def encodeT : Instr → Option Nat
  | .tNop => some 0
  | i => (tOpcode i).map fun (op, f) =>
    op * 2 ^ 27 + f.d.toNat * 2 ^ 22 + f.a.toNat * 2 ^ 17 + f.b.toNat * 2 ^ 12 + f.p.toNat

/-- An A (isM false) or M micro-operation (R57); an all-zero one is a NOP and gives none. -/
def decodeAM (isM : Bool) (w : Nat) : Except Nat (Option Instr) :=
  let f : AM := ⟨fld w 24 8, fld w 20 4, fld w 15 5, fld w 10 5, fld w 5 5, fld w 0 5⟩
  if w = 0 then .ok none
  else match firstBad (amChecks isM f) with
    | some lo => .error lo
    | none => .ok (some (if f.op = 0x4A then .peDotStep f else if isM then .peElementwiseM f else .peElementwiseA f))

/-- The word of an A or M micro-operation; none for another instruction. -/
def encodeAM : Instr → Option Nat
  | .peElementwiseA f | .peElementwiseM f | .peDotStep f =>
    some (f.op.toNat * 2 ^ 24 + f.ty.toNat * 2 ^ 20 + f.d.toNat * 2 ^ 15 + f.a.toNat * 2 ^ 10 + f.b.toNat * 2 ^ 5 + f.c.toNat)
  | _ => none

/-! ## Words of the opcode table -/

/-- Width in bits and word of an instruction, or none for an event, which has no encoding. -/
def encode (i : Instr) : Option (Nat × Nat) :=
  match encodeS i with
  | some w => some (32, w)
  | none =>
    match encodeX i with
    | some w => some (32, w)
    | none =>
      match encodeV i with
      | some w => some (64, w)
      | none =>
        match encodeC i with
        | some w => some (128, w)
        | none =>
          match encodeT i with
          | some w => some (32, w)
          | none => (encodeAM i).map fun w => (32, w)

/-- The instruction a decoder accepts, if it does. -/
def okInstr (r : Except Nat Instr) : Option Instr :=
  match r with
  | .ok i => some i
  | .error _ => none

/-- A word of the opcode table. The slot that holds a word fixes its format (R41) and the table numbers words without
their slot, so a 32-bit word is read as an S syllable, else as an X syllable, else as a T, A or M micro-operation; a
word of 64 bits is a V syllable and one of 128 bits a C syllable. -/
def decodeTableWord (nbits w : Nat) : Option Instr :=
  if nbits ≤ 32 then
    (okInstr (decodeS w)).or ((okInstr (decodeX w)).or ((okInstr (decodeT w)).or
      (match decodeAM false w with
       | .ok i => i
       | .error _ => match decodeAM true w with
         | .ok i => i
         | .error _ => none)))
  else if nbits ≤ 64 then okInstr (decodeV w)
  else okInstr (decodeC w)

/-! ## The bundle -/

/-- The four syllables of a bundle, as words (Table 2.1). -/
structure BundleWords where
  s : Nat
  x : Nat
  v : Nat
  c : Nat
  deriving DecidableEq, Repr

/-- Little-endian value of bytes, byte 0 first (R6). -/
def leBytes : List Byte → Nat
  | [] => 0
  | b :: r => b.toNat + 256 * leBytes r

/-- The low n bytes of a value, byte 0 first (R6). -/
def toBytes (n v : Nat) : List Byte :=
  match n with
  | 0 => []
  | n + 1 => BitVec.ofNat 8 v :: toBytes n (v / 256)

/-- Syllables at the byte offsets of Table 2.1. -/
def bundleWords (bytes : List Byte) : BundleWords :=
  ⟨leBytes (bytes.take 4), leBytes ((bytes.drop 4).take 4), leBytes ((bytes.drop 8).take 8),
   leBytes ((bytes.drop 16).take 16)⟩

/-- The four decoded syllables of a bundle. -/
structure Bundle where
  s : Instr
  x : Instr
  v : Instr
  c : Instr
  deriving DecidableEq, Repr

/-- The file of a destination name (R44). -/
inductive DestFile where
  | s | x | v | q | m
  deriving DecidableEq, Repr

/-- A destination of a syllable: file, logical number, lowest bit of its field (R44, R63). -/
structure Dest where
  file : DestFile
  num : Nat
  lo : Nat
  deriving DecidableEq, Repr

def destS (n lo : Nat) : List Dest := [⟨.s, n, lo⟩]

/-- The named and implicit destinations of a syllable (R44, R142, R147). -/
def dests (i : Instr) : List Dest :=
  match i with
  | .add f | .sub f | .and f | .or f | .xor f | .andn f | .min f | .max f | .minu f | .maxu f | .shl f | .shr f
  | .sar f | .ror f | .mul f | .mulh f | .mulhu f | .div f | .divu f | .rem f | .remu f | .aadd f | .amin f | .amax f
  | .aand f | .aor f | .axor f | .aswap f | .acas f | .afadd f => destS f.d.toNat 15
  | .clz f | .ctz f | .popc f | .atas f | .bri f => destS f.d.toNat 15
  | .addi f | .andi f | .ori f | .xori f | .ldb f | .ldbu f | .ldh f | .ldhu f | .ldw f | .ldwu f | .ldd f | .lds f
  | .ldp f => destS f.d.toNat 15
  | .shli f | .shri f | .sari f => destS f.d.toNat 15
  | .movi f | .movhi f => destS f.d.toNat 15
  | .mfs f => destS f.d.toNat 15
  | .brl _ => destS 62 0
  | .cmp f => [⟨.q, f.p.toNat, 15⟩]
  | .cmpiCond03 f | .cmpiCond47 f => [⟨.q, f.p.toNat, 15⟩]
  | .plogAnd f | .plogOr f | .plogXor f | .plogAndn f | .plogNot f | .plogMov f | .plogSet f | .plogClr f =>
    [⟨.q, f.d.toNat, 15⟩]
  | .xadd f | .xsub f | .xand f | .xmul f | .xmin f | .xmax f | .xwrap f => [⟨.x, f.d.toNat, 18⟩]
  | .xaddi f => [⟨.x, f.d.toNat, 18⟩]
  | .xshl f | .xshr f | .xbitSet f | .xbitClr f | .xbitFlip f | .xbitExt f => [⟨.x, f.d.toNat, 18⟩]
  | .xlea f => [⟨.x, f.d.toNat, 18⟩]
  | .xpopc f | .xctz f | .xmovs f => [⟨.x, f.d.toNat, 18⟩]
  | .xtos f => destS f.d.toNat 18
  | .xcmp f => [⟨.q, f.p.toNat, 18⟩]
  | .xclamp f => [⟨.x, f.d.toNat, 18⟩]
  | .xldW f | .xldD f => [⟨.x, f.d.toNat, 18⟩]
  | .cadv f => [⟨.x, 2 * f.pair.toNat, 18⟩, ⟨.x, 2 * f.pair.toNat + 1, 18⟩, ⟨.q, f.p.toNat, 0⟩]
  | .xbstepW f | .xbstepD f => [⟨.x, 2 * f.pair.toNat, 18⟩, ⟨.x, 2 * f.pair.toNat + 1, 18⟩]
  | .konst f => destS f.base.toNat 96
  | i =>
    match vOpcode i with
    | some (op, f) =>
      match (vRow i).d with
      | .v => if op = 97 ∨ op = 99 then [] else [⟨.v, f.d.toNat, 39⟩]
      | .m => [⟨.m, f.d.toNat, 39⟩]
      | .s => destS f.d.toNat 39
      | .doorIn | .doorOut | .zero | .lane | .line => []
    | none =>
      match cOpcode i with
      | some (_, f) => if (cRow i).w && f.prom != 0 then destS f.prom.toNat 84 else []
      | none => []

/-- Whether a destination discards its write, which R44 does not count. -/
def Dest.fixed (d : Dest) : Bool :=
  match d.file with
  | .v => false
  | _ => d.num == 0

/-- The field of the first destination, the highest field first, that an earlier syllable names too (R44). -/
def duplicate (seen ds : List Dest) : Option Nat :=
  (ds.find? fun d => !d.fixed && seen.any fun e => e.file == d.file && e.num == d.num).map (·.lo)

/-- TVAL of an illegal bundle: slot number and lowest bit of the offending field (R63). -/
def illegalTval (slot lo : Nat) : Nat := slot + 4 * lo

/-- One syllable of a bundle after those whose destinations are seen. -/
def checkSyllable (slot : Nat) (r : Except Nat Instr) (seen : List Dest) : Except Nat (Instr × List Dest) :=
  match r with
  | .error lo => .error (illegalTval slot lo)
  | .ok i =>
    match duplicate seen (dests i) with
    | some lo => .error (illegalTval slot lo)
    | none => .ok (i, seen ++ dests i)

/-- Decoding of a bundle: the four syllables, or the TVAL of ILLEGAL (R44, R63). -/
def decodeBundle (w : BundleWords) : Except Nat Bundle := do
  let (i0, d0) ← checkSyllable 0 (decodeS w.s) []
  let (i1, d1) ← checkSyllable 1 (decodeX w.x) d0
  let (i2, d2) ← checkSyllable 2 (decodeV w.v) d1
  let (i3, _) ← checkSyllable 3 (decodeC w.c) d2
  return ⟨i0, i1, i2, i3⟩

/-- RP of an S syllable (R42). -/
def restartPoint (w : BundleWords) : Bool := nz w.s 31 1

end Sys2Proof
end

