-- ==== Sys2Proof/Machine/Num.lean ====
section
/-! DEFINITION. Number formats, rounding and exact arithmetic (spec 03). A finite value is a sign and an exact
dyadic m x 2^e; a result that is no dyadic carries enough bits and a sticky mark. Every rounding is roundTo. -/

namespace Sys2Proof.Machine

/-- Sticky flag bits in FLAGS order (Table 3.6): NX, UF, OF, DZ, NV from bit 0. -/
abbrev FlagBits := BitVec 5

def flagNX : FlagBits := 1
def flagUF : FlagBits := 2
def flagOF : FlagBits := 4
def flagDZ : FlagBits := 8
def flagNV : FlagBits := 16

/-- A floating-point format (Table 3.1). inf: it has infinities; nan: it has NaNs. -/
structure Fmt where
  eb : Nat
  fb : Nat
  bias : Nat
  inf : Bool
  nan : Bool
  /-- The largest finite value is maxM x 2^maxE. -/
  maxM : Nat
  maxE : Int
  /-- The canonical NaN pattern. -/
  qnan : Nat
  deriving DecidableEq, Repr

def fmtF32 : Fmt := ⟨8, 23, 127, true, true, 2 ^ 24 - 1, 104, 0x7FC00000⟩
def fmtBF16 : Fmt := ⟨8, 7, 127, true, true, 2 ^ 8 - 1, 120, 0x7FC0⟩
def fmtF16 : Fmt := ⟨5, 10, 15, true, true, 2 ^ 11 - 1, 5, 0x7E00⟩
def fmtE4M3 : Fmt := ⟨4, 3, 7, false, true, 14, 5, 0x7F⟩
def fmtE5M2 : Fmt := ⟨5, 2, 15, true, true, 7, 13, 0x7E⟩
def fmtE2M1 : Fmt := ⟨2, 1, 1, false, false, 3, 1, 0⟩

/-- Width of an encoding in bits. -/
def Fmt.width (f : Fmt) : Nat := 1 + f.eb + f.fb

/-- Sign bit of an encoding. -/
def Fmt.signBit (f : Fmt) : Nat := 2 ^ (f.eb + f.fb)

/-- Least exponent of a normal value. -/
def Fmt.emin (f : Fmt) : Int := 1 - (f.bias : Int)

/-- Pattern of an infinity without its sign. -/
def Fmt.infBits (f : Fmt) : Nat := (2 ^ f.eb - 1) * 2 ^ f.fb

/-- Pattern of the largest finite magnitude. -/
def Fmt.maxBits (f : Fmt) : Nat := if f.inf then f.infBits - 1 else if f.nan then f.signBit - 2 else f.signBit - 1

/-- The value of an encoding (R69). A finite value is (-1)^neg x m x 2^e. -/
inductive FVal where
  | nan (signalling : Bool)
  | inf (neg : Bool)
  | fin (neg : Bool) (m : Nat) (e : Int)
  deriving DecidableEq, Repr

/-- The value that a pattern encodes (R69). -/
def Fmt.decode (f : Fmt) (w : Nat) : FVal :=
  let neg := w / f.signBit % 2 == 1
  let ef := w / 2 ^ f.fb % 2 ^ f.eb
  let fr := w % 2 ^ f.fb
  if f.inf && ef == 2 ^ f.eb - 1 then
    if fr = 0 then .inf neg else .nan (fr / 2 ^ (f.fb - 1) == 0)
  else if !f.inf && f.nan && ef == 2 ^ f.eb - 1 && fr == 2 ^ f.fb - 1 then .nan false
  else if ef = 0 then .fin neg fr (f.emin - f.fb)
  else .fin neg (2 ^ f.fb + fr) ((ef : Int) - f.bias - f.fb)

/-- Mix32 (R78). -/
def mix32 (seed lane ctr : BitVec 32) : BitVec 32 :=
  let h := seed ^^^ (lane * 0x9E3779B9#32) ^^^ (ctr * 0x85EBCA6B#32)
  let h := h ^^^ (h >>> 16)
  let h := h * 0x7FEB352D#32
  let h := h ^^^ (h >>> 15)
  let h := h * 0x846CA68B#32
  h ^^^ (h >>> 16)

/-- An exact real to be rounded: magnitude m x 2^e, or strictly between that and (m + 1) x 2^e when sticky. -/
structure Exact where
  neg : Bool
  m : Nat
  e : Int
  sticky : Bool
  deriving DecidableEq, Repr

/-- Number of bits of a value, at most fuel. -/
def bitLenAux : Nat → Nat → Nat
  | 0, _ => 0
  | fuel + 1, m => if m = 0 then 0 else 1 + bitLenAux fuel (m / 2)

/-- Number of bits of a value: 0 for 0, else one more than the number of its highest one bit. -/
def bitLen (m : Nat) : Nat := if m = 0 then 0 else m.log2 + 1

/-- One of the two neighbours of a magnitude on the grid 2^q (R75): the lower neighbour's multiple, whether it is
exact, and whether the mode selects the upper one (Table 3.2, R77). -/
def pick (x : Exact) (q : Int) (rm : RMode) (rnd : BitVec 32) : Nat × Bool × Bool :=
  let sh := (q - x.e).toNat
  let up := (x.e - q).toNat
  let k := x.m * 2 ^ up / 2 ^ sh
  let rem := x.m * 2 ^ up % 2 ^ sh
  let inexact := rem != 0 || x.sticky
  let half := decide (2 * rem > 2 ^ sh) || (decide (2 * rem = 2 ^ sh) && x.sticky)
  let tie := decide (2 * rem = 2 ^ sh) && !x.sticky
  let sel := match rm with
    | .rne | .dyn => half || (tie && k % 2 == 1)
    | .rtz => false
    | .rdn => x.neg && inexact
    | .rup => !x.neg && inexact
    | .rna => half || tie
    | .stoch => decide (rnd.toNat < rem * 2 ^ 32 / 2 ^ sh)
  (k, !inexact, sel)

/-- The result on overflow (R76, Table 3.3). -/
def Fmt.overflow (f : Fmt) (neg : Bool) (rm : RMode) (sat : Bool) : Nat :=
  let s := if neg then f.signBit else 0
  let toMax := sat || (match rm with
    | .rtz => true
    | .rdn => !neg
    | .rup => neg
    | _ => false)
  if toMax || !f.nan then s + f.maxBits
  else if f.inf then s + f.infBits
  else f.qnan

/-- Whether k x 2^q exceeds the largest finite value. -/
def Fmt.exceeds (f : Fmt) (k : Nat) (q : Int) : Bool :=
  decide (f.maxM * 2 ^ (f.maxE - q).toNat < k * 2 ^ (q - f.maxE).toNat)

/-- RoundTo (R75, R76) with the flags of R85: pattern and flags. -/
def Fmt.roundTo (f : Fmt) (x : Exact) (rm : RMode) (sat : Bool) (rnd : BitVec 32) : Nat × FlagBits :=
  let s := if x.neg then f.signBit else 0
  if x.m = 0 && !x.sticky then (s, 0)
  else
    let top := x.e + (bitLen x.m : Int) - 1
    let q := (if top < f.emin then f.emin else top) - f.fb
    let (k, exact, sel) := pick x q rm rnd
    let k' := if sel then k + 1 else k
    if exact && !f.exceeds k q then (s + ((q - (f.emin - f.fb)).toNat * 2 ^ f.fb + k), 0)
    else if f.exceeds k' q then (f.overflow x.neg rm sat, flagOF ||| flagNX)
    else
      let (ku, _, selu) := pick x (top - f.fb) rm rnd
      let ku' := if selu then ku + 1 else ku
      -- the magnitude rounded with an unbounded exponent lies below the smallest normal
      let tiny := decide (top < f.emin) && decide (ku' * 2 ^ (top - f.emin + 1).toNat < 2 ^ (f.fb + 1) * 2 ^ (f.emin - 1 - top).toNat)
      let uf := if tiny && k' != 0 then flagUF else 0
      (s + ((q - (f.emin - f.fb)).toNat * 2 ^ f.fb + k'), flagNX ||| uf)

/-- How one rounding is made: the resolved mode, the sat bit and the random value of R77. -/
structure Rnd where
  rm : RMode
  sat : Bool
  rnd : BitVec 32
  deriving DecidableEq, Repr

def Fmt.round (f : Fmt) (x : Exact) (r : Rnd) : Nat × FlagBits := f.roundTo x r.rm r.sat r.rnd

/-- The canonical NaN with the flag of a signalling operand or an invalid operation. -/
def Fmt.nanWith (f : Fmt) (nv : Bool) : Nat × FlagBits := (f.qnan, if nv then flagNV else 0)

def FVal.signalling : FVal → Bool
  | .nan s => s
  | _ => false

def FVal.isNan : FVal → Bool
  | .nan _ => true
  | _ => false

def FVal.negate : FVal → FVal
  | .nan s => .nan s
  | .inf n => .inf (!n)
  | .fin n m e => .fin (!n) m e

/-- A signed multiple of a power of two. -/
structure Dyadic where
  z : Int
  e : Int
  deriving DecidableEq, Repr

/-- The two mantissas over the lower exponent of two dyadics. -/
def Dyadic.add (a b : Dyadic) : Dyadic :=
  if a.z = 0 then b
  else if b.z = 0 then a
  else
    let e := if a.e < b.e then a.e else b.e
    ⟨a.z * 2 ^ (a.e - e).toNat + b.z * 2 ^ (b.e - e).toNat, e⟩

def Dyadic.neg (d : Dyadic) : Bool := decide (d.z < 0)

def toDyadic (neg : Bool) (m : Nat) (e : Int) : Dyadic := ⟨if neg then -(m : Int) else m, e⟩

/-- An exact sum of two finite values, with the sign rule of R75 for a zero sum. -/
def exactSum (n1 : Bool) (m1 : Nat) (e1 : Int) (n2 : Bool) (m2 : Nat) (e2 : Int) (rm : RMode) : Exact :=
  let d := (toDyadic n1 m1 e1).add (toDyadic n2 m2 e2)
  if d.z = 0 then ⟨if n1 = n2 then n1 else decide (rm = .rdn), 0, 0, false⟩
  else ⟨d.neg, d.z.natAbs, d.e, false⟩

/-- Addition of two values (R82). -/
def Fmt.add (f : Fmt) (a b : FVal) (r : Rnd) : Nat × FlagBits :=
  match a, b with
  | .nan s, y => f.nanWith (s || y.signalling)
  | _, .nan s => f.nanWith s
  | .inf n, .inf n' => if n = n' then ((if n then f.signBit else 0) + f.infBits, 0) else f.nanWith true
  | .inf n, .fin _ _ _ => ((if n then f.signBit else 0) + f.infBits, 0)
  | .fin _ _ _, .inf n => ((if n then f.signBit else 0) + f.infBits, 0)
  | .fin n m e, .fin n' m' e' => f.round (exactSum n m e n' m' e' r.rm) r

/-- The exact product of two values; none for 0 x Inf. -/
def exactMul (a b : FVal) : Option FVal :=
  match a, b with
  | .nan s, y => some (.nan (s || y.signalling))
  | _, .nan s => some (.nan s)
  | .inf n, .inf n' => some (.inf (n != n'))
  | .inf n, .fin n' m _ => if m = 0 then none else some (.inf (n != n'))
  | .fin n m _, .inf n' => if m = 0 then none else some (.inf (n != n'))
  | .fin n m e, .fin n' m' e' => some (.fin (n != n') (m * m') (e + e'))

/-- Multiplication (R82). -/
def Fmt.mul (f : Fmt) (a b : FVal) (r : Rnd) : Nat × FlagBits :=
  match exactMul a b with
  | none => f.nanWith true
  | some (.nan s) => f.nanWith s
  | some (.inf n) => ((if n then f.signBit else 0) + f.infBits, 0)
  | some (.fin n m e) => f.round ⟨n, m, e, false⟩ r

/-- The fused operation a x b + c, rounded once (R82): 0 x Inf raises NV even with c NaN. -/
def Fmt.fma (f : Fmt) (a b c : FVal) (r : Rnd) : Nat × FlagBits :=
  match exactMul a b with
  | none => f.nanWith true
  | some (.nan s) => f.nanWith (s || c.signalling)
  | some p => f.add p c r

/-- Minimum and maximum (R82): minimumNumber and maximumNumber. x and y are the patterns of a and b. -/
def FVal.less (a b : FVal) : Bool :=
  match a, b with
  | .nan _, _ => false
  | _, .nan _ => false
  | .inf n, .inf n' => n && !n'
  | .inf n, .fin _ _ _ => n
  | .fin _ _ _, .inf n => !n
  | .fin n m e, .fin n' m' e' => ((toDyadic n m e).add (toDyadic (!n') m' e')).neg

/-- Equality of values (R82: -0 equals +0). -/
def FVal.equal (a b : FVal) : Bool :=
  match a, b with
  | .nan _, _ => false
  | _, .nan _ => false
  | .inf n, .inf n' => n == n'
  | .inf _, .fin _ _ _ => false
  | .fin _ _ _, .inf _ => false
  | .fin n m e, .fin n' m' e' => ((toDyadic n m e).add (toDyadic (!n') m' e')).z == 0

def FVal.isNeg : FVal → Bool
  | .nan _ => false
  | .inf n => n
  | .fin n _ _ => n

/-- Whether a orders below b for VMIN and VMAX: -0 orders below +0 (R82). -/
def FVal.before (a b : FVal) : Bool := a.less b || (a.equal b && a.isNeg && !b.isNeg)

def Fmt.minMax (f : Fmt) (isMax : Bool) (x y : Nat) : Nat × FlagBits :=
  let a := f.decode x
  let b := f.decode y
  let nv := if a.signalling || b.signalling then flagNV else 0
  if a.isNan && b.isNan then (f.qnan, nv)
  else if a.isNan then (y, nv)
  else if b.isNan then (x, nv)
  else (if (b.before a) != isMax then y else x, nv)

/-- The comparisons of VCMPF (R82). -/
def FVal.compare (c : FCond) (a b : FVal) : Bool × FlagBits :=
  let un := a.isNan || b.isNan
  let sig := if a.signalling || b.signalling then flagNV else 0
  let any := if un then flagNV else 0
  match c with
  | .eq => (a.equal b, sig)
  | .ne => (!a.equal b, sig)
  | .lt => (a.less b, any)
  | .le => (a.less b || a.equal b, any)
  | .gt => (b.less a, any)
  | .ge => (b.less a || a.equal b, any)
  | .un => (un, sig)
  | .ord => (!un, sig)

/-! ## Special functions (R94, Table 3.7) -/

/-- Integer square root by digits: fuel is the number of result bits. -/
def isqrtAux : Nat → Nat → Nat → Nat
  | 0, _, r => r
  | n + 1, m, r =>
    let t := r + 2 ^ n
    isqrtAux n m (if t * t ≤ m then t else r)

/-- Floor of the square root. -/
def isqrt (m : Nat) : Nat := isqrtAux (bitLen m / 2 + 1) m 0

/-- VRCP. -/
def Fmt.rcp (f : Fmt) (a : FVal) (r : Rnd) : Nat × FlagBits :=
  match a with
  | .nan s => f.nanWith s
  | .inf n => (if n then f.signBit else 0, 0)
  | .fin n m e =>
    if m = 0 then ((if n then f.signBit else 0) + f.infBits, flagDZ)
    else f.round ⟨n, 2 ^ 160 / m, -e - 160, 2 ^ 160 % m != 0⟩ r

/-- VRSQ: 1 / sqrt(m 2^e), with e made even. -/
def Fmt.rsq (f : Fmt) (a : FVal) (r : Rnd) : Nat × FlagBits :=
  match a with
  | .nan s => f.nanWith s
  | .inf n => if n then f.nanWith true else (0, 0)
  | .fin n m e =>
    if m = 0 then ((if n then f.signBit else 0) + f.infBits, flagDZ)
    else if n then f.nanWith true
    else
      let m' := if e % 2 = 0 then m else 2 * m
      let e' := if e % 2 = 0 then e else e - 1
      let t := 2 ^ 320 / m'
      let q := isqrt t
      f.round ⟨false, q, -(e' / 2) - 160, q * q * m' != 2 ^ 320⟩ r

/-- VSQRT. -/
def Fmt.sqrt (f : Fmt) (a : FVal) (r : Rnd) : Nat × FlagBits :=
  match a with
  | .nan s => f.nanWith s
  | .inf n => if n then f.nanWith true else (f.infBits, 0)
  | .fin n m e =>
    if m = 0 then (if n then f.signBit else 0, 0)
    else if n then f.nanWith true
    else
      let m' := (if e % 2 = 0 then m else 2 * m) * 2 ^ 256
      let e' := (if e % 2 = 0 then e else e - 1) - 256
      let q := isqrt m'
      f.round ⟨false, q, e' / 2, q * q != m'⟩ r

/-- Working precision of the exponential and the logarithm, in bits (log 10). -/
def workBits : Nat := 384

/-- floor(ln 2 x 2^384). -/
def ln2Work : Nat := 27311389503436327984859642001965014295881604093268141717219425985154158335678826923825841039545353940567474963094288

/-- Terms of the exponential series of y / 2^384, from term k on: t is the term y^k / k!. -/
def expSeries : Nat → Nat → Nat → Nat → Nat
  | 0, _, _, acc => acc
  | n + 1, k, y, acc =>
    -- acc is Horner's value of the terms above k
    expSeries n (k - 1) y (2 ^ workBits + y * acc / (k * 2 ^ workBits))

/-- 2^(fr / 2^384) x 2^384 for 0 < fr < 2^384. -/
def exp2Frac (fr : Nat) : Nat := expSeries 90 90 (fr * ln2Work / 2 ^ workBits) (2 ^ workBits)

/-- VEXP2. -/
def Fmt.exp2 (f : Fmt) (a : FVal) (r : Rnd) : Nat × FlagBits :=
  match a with
  | .nan s => f.nanWith s
  | .inf n => if n then (0, 0) else (f.infBits, 0)
  | .fin n m e =>
    if m = 0 then f.round ⟨false, 1, 0, false⟩ r
    else if 11 < e + bitLen m then
      -- magnitude at least 2^11: beyond every format
      f.round ⟨false, 1, if n then -2000 else 2000, true⟩ r
    else
      -- x = z / 2^384
      let z : Int := (if n then -(m : Int) else m) * 2 ^ (e + workBits).toNat
      let i := z / 2 ^ workBits
      let fr := (z % 2 ^ workBits).toNat
      if fr = 0 then f.round ⟨false, 1, i, false⟩ r
      else f.round ⟨false, exp2Frac fr / 2 ^ 256, i - 128, true⟩ r

/-- Binary digits of log2 of t / 2^384, 1 <= t / 2^384 < 2, appended to acc. -/
def log2Digits : Nat → Nat → Nat → Nat
  | 0, _, acc => acc
  | n + 1, t, acc =>
    let s := t * t / 2 ^ workBits
    if 2 ^ (workBits + 1) ≤ s then log2Digits n (s / 2) (2 * acc + 1) else log2Digits n s (2 * acc)

/-- VLOG2. -/
def Fmt.log2 (f : Fmt) (a : FVal) (r : Rnd) : Nat × FlagBits :=
  match a with
  | .nan s => f.nanWith s
  | .inf n => if n then f.nanWith true else (f.infBits, 0)
  | .fin n m e =>
    if m = 0 then (f.signBit + f.infBits, flagDZ)
    else if n then f.nanWith true
    else
      let top := e + (bitLen m : Int) - 1
      if m = 2 ^ (bitLen m - 1) then f.round ⟨decide (top < 0), top.natAbs, 0, false⟩ r
      else
        let fr := log2Digits 128 (m * 2 ^ (workBits + 1 - bitLen m)) 0
        let z : Int := top * 2 ^ 128 + fr
        if z < 0 then f.round ⟨true, z.natAbs - 1, -128, true⟩ r
        else f.round ⟨false, z.toNat, -128, true⟩ r

/-! ## Element types -/

def ElemType.bits : ElemType → Nat
  | .f32 | .i32 => 32
  | .bf16 | .f16 | .i16 => 16
  | .e4m3 | .e5m2 | .i8 | .se4m3 | .se5m2 => 8
  | .e2m1 | .se2m1 => 4
  | .i64 => 64

/-- The element type of a code (Table 2.7); codes 13-15, which no legal syllable holds, read as I64. -/
def elemOfCode (c : Nat) : ElemType :=
  match c with
  | 0 => .f32 | 1 => .bf16 | 2 => .f16 | 3 => .e4m3 | 4 => .e5m2 | 5 => .e2m1 | 6 => .i8 | 7 => .i16 | 8 => .i32
  | 10 => .se4m3 | 11 => .se5m2 | 12 => .se2m1 | _ => .i64

/-- The format of a float or block-scaled element; none for an integer. -/
def ElemType.fmt? : ElemType → Option Fmt
  | .f32 => some fmtF32
  | .bf16 => some fmtBF16
  | .f16 => some fmtF16
  | .e4m3 | .se4m3 => some fmtE4M3
  | .e5m2 | .se5m2 => some fmtE5M2
  | .e2m1 | .se2m1 => some fmtE2M1
  | .i8 | .i16 | .i32 | .i64 => none

def ElemType.scaled : ElemType → Bool
  | .se4m3 | .se5m2 | .se2m1 => true
  | _ => false

/-- Signed reading of a w-bit pattern. -/
def sintOf (w x : Nat) : Int := if x % 2 ^ w < 2 ^ (w - 1) then (x % 2 ^ w : Nat) else ((x % 2 ^ w : Nat) : Int) - 2 ^ w

/-- Low w bits of an integer. -/
def wrapInt (w : Nat) (z : Int) : Nat := (z % 2 ^ w).toNat

/-- Clamp to the signed range of w bits. -/
def clampInt (w : Nat) (z : Int) : Int :=
  if z < -(2 ^ (w - 1)) then -(2 ^ (w - 1)) else if 2 ^ (w - 1) - 1 < z then 2 ^ (w - 1) - 1 else z

/-- Clamp to the unsigned range of w bits. -/
def clampNat (w : Nat) (z : Int) : Int := if z < 0 then 0 else if 2 ^ w - 1 < z then 2 ^ w - 1 else z

/-! ## Conversions (R83, Table 3.5) -/

/-- The value of an element by its own format; an integer is exact. -/
def elemVal (t : ElemType) (x : Nat) : FVal :=
  match ElemType.fmt? t with
  | some f => f.decode x
  | none => let z := sintOf (ElemType.bits t) x; .fin (decide (z < 0)) z.natAbs 0

/-- Rounding a finite value to an integer in a mode: the integer and whether it is exact. -/
def roundToInt (n : Bool) (m : Nat) (e : Int) (r : Rnd) : Int × Bool :=
  let (k, exact, sel) := pick ⟨n, m, e, false⟩ 0 r.rm r.rnd
  let k' : Nat := if sel && !exact then k + 1 else k
  (if n then -(k' : Int) else k', exact)

/-- Conversion to a float format (float to float, integer to float). -/
def convToFloat (f : Fmt) (v : FVal) (r : Rnd) : Nat × FlagBits :=
  match v with
  | .nan s => if f.nan then f.nanWith s else (0, flagNV)
  | .inf n =>
    let s := if n then f.signBit else 0
    if f.inf then (s + f.infBits, 0)
    else if f.nan && !r.sat then (f.qnan, flagNV)
    else (s + f.maxBits, flagNV)
  | .fin n m e => f.round ⟨n, m, e, false⟩ r

/-- Conversion of a float value to a w-bit integer. -/
def convToInt (w : Nat) (v : FVal) (r : Rnd) : Nat × FlagBits :=
  match v with
  | .nan _ => (0, flagNV)
  | .inf n => (wrapInt w (if n then -(2 ^ (w - 1)) else 2 ^ (w - 1) - 1), flagNV)
  | .fin n m e =>
    let (z, exact) := roundToInt n m e r
    if clampInt w z = z then (wrapInt w z, if exact then 0 else flagNX) else (wrapInt w (clampInt w z), flagNV)

/-- VCVT and every conversion made by engines and PEs. -/
def convert (src dst : ElemType) (x : Nat) (r : Rnd) : Nat × FlagBits :=
  match ElemType.fmt? dst, ElemType.fmt? src with
  | some f, _ => convToFloat f (elemVal src x) r
  | none, some _ => convToInt (ElemType.bits dst) (elemVal src x) r
  | none, none =>
    let z := sintOf (ElemType.bits src) x
    (wrapInt (ElemType.bits dst) (if r.sat then clampInt (ElemType.bits dst) z else z), 0)

/-! ## Block scales and the dot-product step (R72, R73, R88, R89) -/

/-- The value of a 10-bit scale (R72). -/
def scaleVal (sc : Nat) : FVal :=
  let e := sc / 4 % 256
  if e = 0 then .fin false 0 0
  else if e = 255 then .nan false
  else .fin false (4 + sc % 4) ((e : Int) - 129)

/-- The scale of an element that has none. -/
def unitScale : FVal := .fin false 1 0

def FVal.isZero : FVal → Bool
  | .fin _ m _ => m == 0
  | _ => false

/-- An element times its scale (R73). An infinite element under its own zero scale is NaN by R73; that it raises no NV is
the model's reading, since no product of the group is then 0 x Inf (log 40). -/
def scaledVal (v sc : FVal) : FVal :=
  match v, sc with
  | .nan s, _ => .nan s
  | _, .nan _ => .nan false
  | .inf n, .fin _ m _ => if m = 0 then .nan false else .inf n
  | .inf n, .inf _ => .inf n
  | .fin n m e, .fin _ m' e' => .fin n (m * m') (e + e')
  | .fin n _ _, .inf _ => .inf n

/-- The sum of a group of products so far. -/
structure DotSum where
  sum : Dyadic
  nan : Bool
  nv : Bool
  posInf : Bool
  negInf : Bool
  deriving DecidableEq, Repr

def DotSum.zero : DotSum := ⟨⟨0, 0⟩, false, false, false, false⟩

/-- An operand of a product: an element and its scale. -/
abbrev Scaled := FVal × FVal

/-- One product of the group: of the elements first, then of their scales (R88). A 0 x Inf product, and infinite products
of both signs, count beside a NaN scale too (R89). -/
def DotSum.step (s : DotSum) (a b : Scaled) : DotSum :=
  let bare := exactMul a.1 b.1
  let full := exactMul (scaledVal a.1 a.2) (scaledVal b.1 b.2)
  let nv := s.nv || a.1.signalling || b.1.signalling || bare.isNone || full.isNone
  let live := !a.2.isZero && !b.2.isZero
  let (pos, neg) : Bool × Bool := match bare with
    | some (.inf n) => (live && !n, live && n)
    | _ => (false, false)
  let s := { s with nv, posInf := s.posInf || pos, negInf := s.negInf || neg }
  match full with
  | none | some (.nan _) => { s with nan := true }
  | some (.inf _) => s
  | some (.fin n m e) => { s with sum := s.sum.add (toDyadic n m e) }

def dotSum (ps : List (Scaled × Scaled)) : DotSum := ps.foldl (fun s p => s.step p.1 p.2) DotSum.zero

/-- The dot-product step on float products: RoundTo(p + S, F32) (R88, R89). p is an F32 pattern. -/
def dotStepFloat (ps : List (Scaled × Scaled)) (p : Nat) (r : Rnd) : Nat × FlagBits :=
  let s := dotSum ps
  let nv := if s.nv || (s.posInf && s.negInf) then flagNV else 0
  if s.nan || (s.posInf && s.negInf) then
    let (w, fl) := fmtF32.nanWith (fmtF32.decode p).signalling
    (w, fl ||| nv)
  else if s.posInf || s.negInf then
    let (w, fl) := fmtF32.add (fmtF32.decode p) (.inf s.negInf) r
    (w, fl ||| nv)
  else if s.sum.z = 0 then (p, nv)
  else
    let (w, fl) := fmtF32.add (fmtF32.decode p) (.fin s.sum.neg s.sum.z.natAbs s.sum.e) r
    (w, fl ||| nv)

/-- The dot-product step on I8 products: the exact sum added to an I32 partial (R89). -/
def dotStepInt (ps : List (Int × Int)) (p : Nat) (sat : Bool) : Nat :=
  let z := sintOf 32 p + (ps.map fun q => q.1 * q.2).foldl (· + ·) 0
  wrapInt 32 (if sat then clampInt 32 z else z)

/-- The rounding mode of code 0-6 with DYN resolved by STATUS.RM (R74): 6 and 7 there select RNE. -/
def rmOfCode (code statusRm : Nat) : RMode :=
  let base (c : Nat) : RMode := match c with
    | 1 => .rtz | 2 => .rdn | 3 => .rup | 4 => .rna | 5 => .stoch | _ => .rne
  if code = 6 then base statusRm else base code

end Sys2Proof.Machine
end

