-- ==== Sys2Proof/Machine/State.lean ====
section
/-! DEFINITION. The state of one package, as plain data: everything the spec gives the machine (INVENTORY.md,
"## State", lists each piece with its rule and its reset value), then the model's own agenda, staged bundle, staged
micro-operation and free counter (logs 1, 2, 6). -/

namespace Sys2Proof.Machine

/-- A finite map from numbers: keys strictly rising, no entry equal to the value that an unlisted key has. -/
abbrev NMap (α : Type) := List (Nat × α)

/-! ## The control core (spec 04, 05, 06) -/

/-- A physical register of one of the five files (Table 4.2). -/
inductive Reg where
  | s (n : Nat) | x (n : Nat) | v (n : Nat) | q (n : Nat) | m (n : Nat)
  deriving DecidableEq, Repr

/-- The register files of a context; an unlisted register holds zero (R98). Poison marks carry their origin (R216). -/
structure Files where
  s : NMap Word := []
  x : NMap Word := []
  v : NMap Line := []
  q : NMap Bool := []
  m : NMap Word := []
  poison : List (Reg × BitVec 32) := []
  deriving DecidableEq, Repr

/-- A register write in flight: value and written bits, and the clk by which it has landed (R103, R104). A register
narrower than a line holds its value in the low bits. -/
structure PendW where
  reg : Reg
  val : Line
  mask : Line
  due : Nat
  /-- It was made in row 0 of the PE array, by a V syllable (R152). -/
  row0 : Bool := false
  deriving DecidableEq, Repr

/-- Registers that an interlocked instruction or a promise will write (R105, R142). -/
structure Claim where
  id : Nat
  regs : List Reg
  deriving DecidableEq, Repr

/-- A value that has been fixed and lands in interlocked registers no earlier than a clk (R105, R142, R171). -/
structure Landing where
  id : Nat
  regs : List (Reg × Line × Line)
  poison : BitVec 32
  earliest : Nat
  /-- Landings of one order land in the order of the list: a door's VGETs (R171); 0 for none. -/
  order : Nat
  /-- A VGET behind an ordering token: the accesses of bundles later than this one wait for it (R322). -/
  acquire : Option Nat := none
  deriving DecidableEq, Repr

/-- Trap causes of Table 14.1. -/
inductive Cause where
  | illegal | priv | align | access | page | once | param | poison | promise | skew | brk | watch | deadlock
  | slotbusy | orderwin | replayx | budget | soft
  deriving DecidableEq, Repr

/-- A trap decided (R365). -/
structure Trap where
  cause : Cause
  async : Bool
  tval : Word
  pc : Word
  deriving DecidableEq, Repr

/-- Operations of a bank's arithmetic unit (Table 10.6). -/
inductive BankOp where
  | add | min | max | and | or | xor | swap | tas | cas | fadd
  deriving DecidableEq, Repr

/-- What an access of the control core does when its bank serves it (R298, R299, R149, R150, R169). -/
inductive AccKind where
  /-- S-slot or X-slot load of size bytes; signed: sign-extended; sync: LDS. -/
  | load (dst : Reg) (size : Nat) (signed sync : Bool)
  /-- VLD, or VLDS with sync: destination, bits of the lanes to write. -/
  | vload (dst : Reg) (mask : Line) (sync : Bool)
  /-- Scalar or vector store: data, bits stored, full-setting or not. -/
  | store (data : Line) (mask : Line) (full : Bool)
  /-- EMPTY. -/
  | empty
  | atomic (op : BankOp) (size : Nat) (dst : Reg) (b comparand : Word)
  /-- XBSTEP: size, the two bounds, mid, and the second address. -/
  | bstep (size : Nat) (lo hi : Reg) (mid : Word) (eb : Word)
  deriving DecidableEq, Repr

/-- An access that an S, X or V syllable issued and that no bank has performed yet (R298, R308, R309). -/
structure CoreAcc where
  /-- Place in the context's issue order (R309). -/
  seq : Nat
  /-- The bundle that issued it. -/
  bundle : Nat
  slot : Nat
  issued : Nat
  addr : Word
  size : Nat
  lane : BitVec 8
  kind : AccKind
  /-- A read that later accesses wait for (R322). -/
  acquire : Bool
  /-- It holds an entry of the deferred-read store of every bank where it waits (R295). -/
  deferred : Bool
  /-- Words read so far: key and value. A write that sets a word FULL releases the reads that wait for it (R294). -/
  got : List (Nat × Word) := []
  /-- A store that its bank has accepted, and holds until it is performed (R293). -/
  held : Bool := false
  /-- Clk since which it waits at its port for an entry of the bank's deferred-read store (R295). -/
  fullSince : Option Nat := none
  /-- A write whose effective scope is TILE or DIE that has left the request port of its tile, or stands in the die-edge
  queue of its bank: its place among those that did (R310). -/
  left : Option Nat := none
  /-- The banks in whose deferred-read stores it holds an entry: XBSTEP may wait at two (R295). -/
  entries : List Nat := []
  deriving DecidableEq, Repr

/-- What fetch may still return for a sector of tile memory that was written (R45): the bytes that it held before a write of
a store, or of a command, by context and place, until the record of that command is written (R124). -/
structure Stale where
  key : Nat
  bytes : List Byte
  writer : Option (CtxId × Nat) := none
  deriving DecidableEq, Repr

/-- A command of the C slot with what it read at issue (R54, R96). prom is the physical promise register. -/
structure Command where
  ctx : CtxId
  seq : Nat
  op : Instr
  f : CF
  base : Word
  pblk : Word
  prom : Option Nat
  rm : RMode
  /-- View epoch of the context at issue (R335). -/
  epoch : Nat
  /-- The stream slot it claimed (R218). -/
  slot : Option Nat := none
  /-- Under epoch 0: the view of each set at issue, slot plus one; the staging slot of each set at issue (R335). -/
  view : NMap Nat := []
  staging : NMap Nat := []
  deriving DecidableEq, Repr

/-- Conditions of Table 4.1, as PC sampling tells them apart (Table 17.7): doorEmpty, an interlock on the destination of a
VGET, and doorFull, VPUT's, belong to the first row; sleep, time, join and grant are the last row. -/
inductive Hold where
  | interlock | doorEmpty | row0 | slotShare | queueFull | syncf | decision | sleep | time | join | doorFull | grant
  deriving DecidableEq, Repr

/-- One of the writes of a bundle (R107). Registers are physical, mapped at issue (R104). -/
inductive BWrite where
  /-- A register write with its exposed latency. -/
  | reg (r : Reg) (val mask : Line) (lat : Nat)
  /-- The same of a scalar register that a V syllable writes: row 0 is in use until it has landed (R152). -/
  | rowReg (r : Reg) (val mask : Line) (lat : Nat)
  /-- MTS. -/
  | sys (n : SysReg) (v : Word)
  /-- Flags of the V syllable, and its SCNT advance. -/
  | flags (f : FlagBits) (scnt : Bool)
  | pwb (bits : BitVec 8)
  | access (a : CoreAcc)
  | command (c : Command)
  /-- RPC := pc (R137). -/
  | rpc (pc : Word)
  /-- A taken transfer, with the clks before its target issues (R128). -/
  | jump (target : Word) (delay : Nat)
  | frame (start stop : Word) (act : Bool)
  | lc (v : Word)
  | ec (v : Word)
  | rotate
  /-- The stage predicate of BRTOP, written after every other write (R136). -/
  | stage (b : Bool)
  | exit
  | tret
  | vget (door : Nat) (dst : Reg) (mask : Line)
  | vput (door : Nat) (data : Line)
  | syncf (instr config : Bool)
  deriving DecidableEq, Repr

/-- The bundle under issue: what its syllables wait for, trap for and will write (log 6). -/
structure Staged where
  pc : Word := 0
  holds : List Hold := []
  traps : List (Nat × Cause × Word) := []
  writes : List BWrite := []
  deriving DecidableEq, Repr

/-- A bundle whose trap decision waits for replies to its stores to ONCE regions (R108, R293): the stores with the
bank's answer, and the bundle's writes. -/
structure Undecided where
  pc : Word
  rp : Bool
  issued : Nat
  stores : List (CoreAcc × Option Bool)
  writes : List BWrite
  deriving DecidableEq, Repr

/-- The hidden loop frame (R131). -/
structure LoopFrame where
  start : Word := 0
  stop : Word := 0
  act : Bool := false
  deriving DecidableEq, Repr

/-- The system registers of a context (Table 4.6); STATUS is held as its fields ACT, HM and RM (Table 4.7). -/
structure SysRegs where
  act : BitVec 8 := 0xFF
  hm : Bool := false
  rm : BitVec 3 := 0
  tcause : BitVec 8 := 0
  tpc : Word := 0
  tval : Word := 0
  tbase : Word := 0
  rpc : Word := 0
  rrb : Word := 0
  lc : Word := 0
  ec : Word := 0
  olane : BitVec 8 := 0
  flags : Word := 0
  pwb : BitVec 8 := 0
  vcur : Word := 0x4000000000
  partid : BitVec 4 := 0
  taskid : Word := 0
  deriving DecidableEq, Repr

/-- What the built-in handling of a trap waits for (TBASE = 0, Table 14.1, R370, R372). -/
inductive BuiltIn where
  /-- PROMISE: until the bound command is complete, then RPC. -/
  | promise (cmd : Nat)
  /-- SKEW: until the servo is locked, then TPC. -/
  | skew
  /-- PAGE: until the page is served, then replay and TPC; whether its service has begun (R372). -/
  | page (addr : Word) (begun : Bool)
  deriving DecidableEq, Repr

/-! ## Doors (spec 08, 11) -/

/-- A door entry; poison is its origin, 0 for none (Table 8.1). -/
structure DoorEntry where
  data : Line
  band : BitVec 128
  poison : BitVec 32
  deriving DecidableEq, Repr

/-- What stands in a door: an entry, present since a clk, or an ordering token with what it waits for (R323). -/
inductive DoorItem where
  | entry (e : DoorEntry) (since : Nat)
  | token (lane : BitVec 8) (seq : Nat) (opened : Bool) (edges : List Nat)
  deriving DecidableEq, Repr

/-- A VGET that has claimed an entry of an output door and waits for it (R171, R173). -/
structure VgetClaim where
  id : Nat
  door : Nat
  dst : Reg
  mask : Line
  /-- The next bundles wait for it: its entry is the first behind an ordering token (R322). -/
  acquire : Bool
  seq : Nat
  bundle : Nat := 0
  /-- It found no entry, and an SORD of an earlier bundle for the door is not accepted yet: the token may come to stand before
  its entry (R322). -/
  maybe : Bool := false
  deriving DecidableEq, Repr

/-- A marker of the context in a marker queue, not yet at its head (R145, R324); edges are the writes of edge elements
that entered queue 13 before it. -/
structure Marker where
  queue : Nat
  lane : BitVec 8
  seq : Nat
  edges : List Nat := []
  /-- Clk at which the order unit pushed it. -/
  since : Nat := 0
  deriving DecidableEq, Repr

/-- Binding of a parameter window (R297). -/
structure ParamWin where
  bound : Bool := false
  size : Nat := 0
  hall : Nat := 0
  deriving DecidableEq, Repr

/-! ## Records and completion queues (spec 08) -/

/-- Status codes (Table 8.14). -/
inductive Status where
  | ok | rsvd | fault | poison | chkfail | busy | state | stopped | taken | badcfg | nopage | size | nolane | notask
  | slotbusy | cancelled | nopart | loopform | gangfit | predfail | badpb
  deriving DecidableEq, Repr

/-- The fields of a completion record but CTX and PHASE (Table 8.13). -/
structure Rec where
  status : Status
  kind : Nat
  sid : Nat
  fault : BitVec 32 := 0
  version : BitVec 32 := 0
  bytes : Nat := 0
  promised : Word := 0
  actual : Word := 0
  deriving DecidableEq, Repr

/-- An engine entry that a command keeps while its record waits (R250). -/
inductive EngEntry where
  | copy (engine : Nat) | config | post
  deriving DecidableEq, Repr

/-- A record that waits for its place in the ring, with the slot it frees, the command it completes, the engine entry that
the command keeps, and whether the full ring was reported (R220, R250, R254). -/
structure WaitRec where
  record : Rec
  slot : Option Nat
  seq : Option Nat
  entry : Option EngEntry := none
  delayed : Bool := false
  deriving DecidableEq, Repr

/-- A completion queue (R245): the address of its table entry, HEAD as last read, TAIL, records waiting. -/
structure CQueue where
  entry : Word := 0
  base : Word := 0
  log2 : Nat := 0
  head : Nat := 0
  tail : Nat := 0
  waiting : List WaitRec := []
  deriving DecidableEq, Repr

/-! ## Commands under way (spec 08, 09, 10, 15) -/

/-- States of a stream slot (Table 8.5). -/
inductive Phase where
  | queued | active | draining
  deriving DecidableEq, Repr

/-- What a page walk that an agent waits for has found (R348, R353). A walk under way was raised at a clk, in the mode that
SPLIT.WALK had then: host-assisted or not (R429); req: its request, once that is on the hub request ring. A fault names the
log2 of the bytes of the page that has it. -/
inductive WalkState where
  | waiting (va : Word) (write : Bool) (req : Option Nat) (host : Bool) (since : Nat)
  | fault (va : Word) (code : Nat) (log2 : Nat)
  deriving DecidableEq, Repr

/-- A read of an engine, an edge element, the hub or a peer that waits for presence (R294, R295): its address, size and
bank, the presence words it touches, whether it is one of a ONCE region. -/
structure Deferral where
  addr : Word
  size : Nat
  bank : Nat
  keys : List Nat
  once : Bool
  since : Nat
  /-- It holds an entry of its bank's deferred-read store; full: it found the store full, or others before it. -/
  held : Bool := false
  full : Bool := false
  /-- Words read so far: key and value. -/
  got : List (Nat × Word) := []
  /-- Its bank passed to another partition while it was deferred (R292). -/
  out : Bool := false
  deriving DecidableEq, Repr

/-- An element diverted into the fault spill queue (R355): element (for a copy its first byte), the address that it
reads, or writes, the address whose walk faulted, whether it writes, its data. -/
structure Diverted where
  n : Nat
  addr : Word
  va : Word
  write : Bool
  data : Nat
  size : Nat
  since : Nat
  /-- An element of SINDW whose index read was diverted; data is its value (R227). -/
  index : Bool := false
  /-- Its service waits for a walk, for presence, or for the version switch of a set. -/
  walk : Option WalkState := none
  defers : List Deferral := []
  heldFor : Option Nat := none
  seen : Option (Nat × NMap Nat × NMap Nat) := none
  deriving DecidableEq, Repr

/-- An element read and not yet delivered: its number, its value, its scale, its poison origin; ahead: it was read behind a
diverted element, and stands in the fault spill queue (R355). -/
structure Got where
  n : Nat
  val : Nat
  scale : Nat
  poison : BitVec 32
  ahead : Bool := false
  deriving DecidableEq, Repr

/-- An element of a gather or scatter batch whose address has been formed (R301): its number and address, whether its index
read faulted, the poison of that read, and its value or operand once read. -/
structure GElem where
  n : Nat
  addr : Word
  faulted : Bool
  poison : BitVec 32
  val : Nat := 0
  deriving DecidableEq, Repr

/-- What reading an address gave in a batch: bytes, poison origin, fault code (R302). -/
structure GRead where
  addr : Word
  val : Nat
  poison : BitVec 32
  code : Option Nat := none
  deriving DecidableEq, Repr

/-- A translation (R349): partition, first address, log2 of the size, and the frame with its rights, or the weight set
with its four frame words. -/
structure TEntry where
  part : Nat
  base : Nat
  log2 : Nat
  frame : Nat
  r : Bool
  w : Bool
  wset : Option Nat
  quad : List Word
  deriving DecidableEq, Repr

/-- A command that its engine has accepted, until its record is in the queue. -/
structure Run where
  cmd : Command
  phase : Phase := .queued
  /-- The parameter block as read (R222). -/
  blk : Line := 0
  promised : Word := 0
  /-- Codes of storage that its reads have met in error, to be corrected or reported (R432, R434). -/
  met : List Nat := []
  /-- Order of acceptance. -/
  stamp : Nat := 0
  /-- The next element, unit or byte to be issued, and the next to be delivered. -/
  pos : Nat := 0
  outp : Nat := 0
  got : List Got := []
  diverted : List Diverted := []
  /-- The door entry under assembly or under storage, with the number of its elements and its poison origin. -/
  part : Line := 0
  band : BitVec 128 := 0
  held : Bool := false
  /-- The data of the element under way was diverted; its scale is still to be written (R224). -/
  half : Bool := false
  walk : Option WalkState := none
  /-- The set for whose version switch the element under way waits (R335). -/
  heldFor : Option Nat := none
  /-- Template firings: epoch, view and staging slots in force when the access under way was presented, while it waits
  (R335). -/
  seen : Option (Nat × NMap Nat × NMap Nat) := none
  /-- Reads of the element under way that waited for presence (R294). -/
  defers : List Deferral := []
  /-- The translations that a copy keeps, of its current source page and of its current destination page (R349). -/
  srcPage : Option TEntry := none
  dstPage : Option TEntry := none
  /-- Lowest fault met, as code and element; first poison origin. -/
  fault : Option (Nat × Nat) := none
  poison : BitVec 32 := 0
  bytes : Nat := 0
  /-- Windows read beyond their bound (R225). -/
  pwb : BitVec 8 := 0
  /-- Copies: engine, copy in progress, addresses, check chain value; template and token of a firing. -/
  engine : Nat := 0
  running : Bool := false
  src : Word := 0
  dst : Word := 0
  chain : BitVec 32 := 0
  word : List Byte := []
  template : Option Nat := none
  token : Word := 0
  /-- Gathers: elements that faulted, and what each address read gave (R302, R303). -/
  marks : List Nat := []
  cache : List GRead := []
  /-- Gathers: the elements whose addresses are still to be formed, none before GREPLAY has read its bitmap; those whose
  values or operands are still to be read; those to be delivered or applied (R301, R304). -/
  todo : Option (List Nat) := some []
  addrs : List GElem := []
  vals : List GElem := []
  /-- Collectives: chunk, flag, results, flags, chunk from which the input is poisoned. -/
  nf : Bool := false
  results : List (Line × Bool × BitVec 32) := []
  flags : FlagBits := 0
  bad : BitVec 32 := 0
  /-- SWLOAD: bytes and scales read so far, low element first. SREMW: scales, the blocks of the next packet whose scale is
  written. -/
  weights : List Nat := []
  scales : List Nat := []
  wload : Bool := false
  /-- Remote commands: the last packet was built. -/
  sent : Bool := false
  deriving DecidableEq, Repr

/-! ## Letterboxes, templates, lanes (spec 08, 11) -/

/-- An armed template (R240): its letterbox, block, remaining count, firings, queue. -/
structure Tmpl where
  num : Nat
  lb : Nat
  blk : Line
  count : Nat
  fired : Nat := 0
  queue : Nat
  node : Option Nat := none
  deriving DecidableEq, Repr

/-- A lane table entry (Table 11.3) with the next sequence number to each peer (R317, R404). -/
structure Lane where
  gsid : BitVec 16 := 0
  bound : Bool := false
  att : Bool := false
  dpkg : Nat := 0
  scope : Nat := 2
  seqs : NMap Nat := []
  deriving DecidableEq, Repr

/-- An SBAR that is not satisfied: its place and the commands noted (R325). -/
structure Sbar where
  seq : Nat
  noted : List Nat
  mask : Nat := 0
  since : Nat := 0
  deriving DecidableEq, Repr

/-! ## Sections (spec 07, 09) -/

/-- Token kinds (Table 7.4). -/
inductive TokKind where
  | data | switch | poison
  deriving DecidableEq, Repr

structure Token where
  payload : BitVec 128 := 0
  side : BitVec 32 := 0
  kind : TokKind := .data
  tag : Nat := 0
  deriving DecidableEq, Repr

/-- A PE record (R61); the words of its entries in the order A, M, T. -/
structure PeRecord where
  row : Nat
  col : Nat
  k : Nat
  c0 : BitVec 32
  c1 : BitVec 32
  edges : List Nat
  entries : List (BitVec 32 × BitVec 32 × BitVec 32)
  deriving DecidableEq, Repr

/-- An edge descriptor (R61). -/
structure EdgeDesc where
  kind : Nat
  door : Nat
  lane : BitVec 8
  base : Word
  limit : Nat
  queue : Nat
  deriving DecidableEq, Repr

/-- A configuration image (R60). -/
structure Image where
  pr : Nat
  pc : Nat
  rm : RMode
  sat : Bool
  seed : BitVec 32
  recs : List PeRecord
  edges : List EdgeDesc
  size : Nat
  deriving DecidableEq, Repr

/-- A half of a TURN unit (R200): tokens in arrival order, sealed, tokens emitted, poison origin. -/
structure TurnHalf where
  elems : List Token := []
  sealed : Bool := false
  emitted : Nat := 0
  poison : BitVec 32 := 0
  deriving DecidableEq, Repr

/-- An access of an edge element that memory has not answered (R201), or that is frozen (R371). -/
structure EdgeAcc where
  seq : Nat
  row : Nat
  col : Nat
  desc : Nat
  /-- 0 EDLD, 1 EDST, 2 EDATM with its operation code. -/
  op : Nat
  sub : Nat
  size : Nat
  offset : Word
  data : Line
  /-- Destination operand code. -/
  dst : Nat
  tag : Nat
  frozen : Bool := false
  /-- Table 8.7 code at the freeze, failed replays, waiting for its event to be queued. -/
  code : Nat := 0
  fails : Nat := 0
  unreported : Bool := false
  walk : Option WalkState := none
  defer : Option Deferral := none
  /-- Epoch, view and staging slots in force when it was presented, while it waits (R335). -/
  seen : Option (Nat × NMap Nat × NMap Nat) := none
  /-- The set for whose version switch it waits (R335). -/
  heldFor : Option Nat := none
  /-- A replay under way: the CSYS command that waits for it; none of a command for the built-in handling (R372). -/
  replay : Option (Option Nat) := none
  /-- Performed: the tokens that it has still to deliver. -/
  out : Option (List Token) := none
  deriving DecidableEq, Repr

/-- The state of one PE of a section (R187): its record and copy, entry pointer, locals, accumulator, counters by
entry, firing count, and what it holds of multi-firing operations. -/
structure Pe where
  row : Nat
  col : Nat
  recNo : Nat
  copy : Nat
  tag : Nat
  ptr : Nat := 0
  locals : NMap Token := []
  acc : BitVec 32 := 0
  counts : NMap Nat := []
  firings : Nat := 0
  freeAt : Nat := 0
  /-- The tags whose records are in the loop buffer, with their entries; the tag whose record is on its way arrives at a
  clk (R186). -/
  loaded : List (Nat × Nat) := []
  fetching : Option (Nat × Nat) := none
  turns : List (Nat × TurnHalf × TurnHalf) := []
  /-- EDST.L entries under way: address token and data tokens gathered, by entry. -/
  lines : List (Nat × List Token) := []
  /-- Destinations that have had their switch token in this reconfiguration (R203, R204). -/
  marked : List Nat := []
  /-- Entries whose MERGE.ALT takes b next. -/
  alts : List Nat := []
  deriving DecidableEq, Repr

/-- A channel into a PE, or a half-gathered door entry of an edge slot. dir: 0 N, 1 E, 2 S, 3 W; 4 + i edge slot i. -/
structure Chan where
  row : Nat
  col : Nat
  dir : Nat
  /-- Tokens, oldest first, each with the clk from which it stands in the channel. -/
  toks : List (Nat × Token) := []
  /-- Closed by a mismatch; discard: its tokens up to the switch token are still to be discarded (R204). -/
  closed : Bool := false
  discard : Bool := false
  /-- Pantry extensions of the channel (R377). -/
  ext : Nat := 0
  deriving DecidableEq, Repr

/-- A weight bank (R257). -/
structure Bank where
  elems : List Nat := []
  scales : List Nat := []
  /-- Non-finite flags by block number and column. -/
  flags : List Bool := []
  valid : Bool := true
  poison : BitVec 32 := 0
  deriving DecidableEq, Repr

/-- A row of an SMM that was admitted: its clk, its results by column, and the poison origin of each. -/
structure SysRow where
  m : Nat
  clk : Nat
  outs : List Nat
  poison : List (BitVec 32)
  deriving DecidableEq, Repr

/-- An SMM that runs (R267): its command and block, the rows, what was pushed of each door, the last push. -/
structure Smm where
  cmd : Command
  blk : Line
  promised : Word := 0
  rows : Nat
  next : Nat := 0
  out : List SysRow := []
  /-- Entries pushed so far by output door. -/
  pushed : NMap Nat := []
  lastPush : Nat := 0
  flags : FlagBits := 0
  zeros : Nat := 0
  bytes : Nat := 0
  poison : BitVec 32 := 0
  cancelled : BitVec 32 := 0
  endless : Bool := false
  node : Option Nat := none
  deriving DecidableEq, Repr

/-- The systolic part of a section (spec 09). -/
structure Systolic where
  wtype : ElemType
  rm : RMode
  sat : Bool
  seed : BitVec 32
  banks : List Bank := []
  rowCtr : Nat := 0
  smm : Option Smm := none
  lastOp : Option (Command × Line) := none
  /-- Poison of the earlier SMMs on the handle, for BAR (R278). -/
  barPoison : BitVec 32 := 0
  deriving DecidableEq, Repr

/-- Section states (Table 7.2); a handle without a section is FREE. -/
inductive SecState where
  | loading | ready | running | stopping | stopped | ending
  deriving DecidableEq, Repr

/-- An image in the configuration cache (R185): its tag and size, the context that loaded it, the storage lines that it
was read from, and its place in the order of loading. -/
structure Cached where
  tag : Nat
  size : Nat
  owner : CtxId
  lines : List Nat
  loaded : Nat
  deriving DecidableEq, Repr

/-- An image that SCFG has read and accepted, until its section has it: the lines that it was read from, and its place in
the cache once it has one (R185, R205). -/
structure Incoming where
  image : Image
  lines : List Nat
  cached : Option Cached := none
  deriving DecidableEq, Repr

/-- A move of a section under way (R179): its new origin, whether its shutters were open, the clk at which they closed. -/
structure Move where
  org : Nat × Nat
  was : Bool
  since : Nat
  deriving DecidableEq, Repr

structure Section where
  handle : Nat
  st : SecState
  queue : Nat
  pr : Nat := 1
  pc : Nat := 1
  /-- Page origin, once placed. -/
  org : Option (Nat × Nat) := none
  age : Nat := 0
  tag : Nat := 0
  image : Option Image := none
  /-- Its image in the configuration cache (R185). -/
  cached : Option Cached := none
  /-- Reconfiguration in place: the old image and its tag, while PEs switch, and that image in the cache (R204). -/
  old : Option (Image × Nat) := none
  oldCached : Option Cached := none
  /-- The SCFG under way, which holds in word the bytes read, and the image that it has accepted (R205). -/
  loading : Option Run := none
  incoming : Option Incoming := none
  /-- The tag and the cache space that the image is read into (R185, R205). -/
  room : Option Cached := none
  /-- A move under way (R179). -/
  moving : Option Move := none
  /-- Armed count; none is unbounded. -/
  count : Option Nat := none
  tiles : Nat := 0
  taken : Bool := false
  opened : Bool := false
  /-- Clk at the end of which its count closed the shutters (R184). -/
  shutClk : Option Nat := none
  flags : FlagBits := 0
  poisons : Nat := 0
  poison : BitVec 32 := 0
  lastEvent : Nat := 0
  positions : NMap Nat := []
  pes : List Pe := []
  chans : List Chan := []
  edges : List EdgeAcc := []
  /-- Deal counters of replicated records: sets dealt (R196). -/
  dealt : NMap Nat := []
  grant : Nat := 0
  wants : Nat := 0
  credit : Nat := 0
  /-- A dataflow section's credit lets its PEs fire in this clk (R435). -/
  powered : Bool := false
  sys : Option Systolic := none
  node : Option Nat := none
  /-- Silent clks, and DEADLOCK raised in this episode (R376, R378). -/
  silence : Nat := 0
  deadlocked : Bool := false
  /-- An application core has declined to extend a buffer, and DEADLOCK is still to be raised (R364, R378). -/
  declined : Bool := false
  /-- Progress of the region as last looked at, and the clk of that (R376). -/
  mark : List Nat := []
  counted : Nat := 0
  /-- Pantry extensions: of doors, by door code, and of the fault spill queue; the SPILL request posted. -/
  extDoors : List Nat := []
  extSpill : Nat := 0
  spillReq : Option Nat := none
  /-- PAGEALLOC request posted; the origin that its answer gave, and the moves before it that are not done: context number,
  handle, origin (R180). -/
  pageReq : Option Nat := none
  hostOrg : Option (Nat × Nat) := none
  hostMoves : List (Nat × Nat × (Nat × Nat)) := []
  deriving DecidableEq, Repr

/-- A firing of a PE under way (log 6): what it reads, and what its micro-operations have staged. -/
structure Micro where
  k : CtxId := ⟨0, 0⟩
  h : Nat := 0
  /-- The PE as the micro-operations before left it. -/
  pe : Pe := { row := 0, col := 0, recNo := 0, copy := 0, tag := 0 }
  c0 : BitVec 32 := 0
  c1 : BitVec 32 := 0
  rm : RMode := .rne
  sat : Bool := false
  seed : BitVec 32 := 0
  descs : List EdgeDesc := []
  /-- Head tokens of the channel sources, by operand code; sources closed by a switch token. -/
  heads : List (Nat × Token) := []
  closed : List Nat := []
  /-- Channel destinations without room. -/
  full : List Nat := []
  /-- Channel writes staged: operand code and token; channel sources not consumed. -/
  sends : List (Nat × Token) := []
  keep : List Nat := []
  flags : FlagBits := 0
  accs : List EdgeAcc := []
  tiles : Nat := 0
  /-- Poison recorded: origin and queue. -/
  poisons : List (BitVec 32 × Nat) := []
  /-- Shutters whose position advances. -/
  shut : List Nat := []
  deriving DecidableEq, Repr

/-! ## Tasks (spec 01, 16) -/

/-- An input or output of an actor: kind 0 none, 1 door, 2 letterbox, 3 FIFO (Table 16.3). -/
structure ActPort where
  kind : Nat := 0
  num : Nat := 0
  amount : Nat := 0
  tile : Nat := 0
  deriving DecidableEq, Repr

/-- A graph node (Table 16.3) with what became of it. -/
structure GNode where
  num : Nat
  kind : Nat
  prio : Nat
  count : Nat
  deps : List Nat
  addr : Word
  handle : Nat
  otype : Nat
  arg : Word
  ins : List ActPort
  outs : List ActPort
  armed : Bool := false
  ended : Bool := false
  /-- Reached by the sequencer, behind the end of its predecessors (R278); its image was loaded once (log 15). -/
  waiting : Bool := false
  tried : Bool := false
  /-- It ended with POISON or CANCELLED-POISON: the origin (R278). -/
  poison : BitVec 32 := 0
  /-- Actors: actor number, firings since arming and in the task, count armed, clk since which it is ready. -/
  actor : Nat := 0
  fired : Nat := 0
  firings : Nat := 0
  since : Option Nat := none
  /-- Firings of actors of equal or higher priority on the tile that began since it became ready (R37). -/
  passed : Nat := 0
  deriving DecidableEq, Repr

/-- An actor FIFO (R417). -/
structure Fifo where
  off : Nat
  cap : Nat
  log2 : Nat
  head : Nat := 0
  tail : Nat := 0
  deriving DecidableEq, Repr

/-- Stages of a task (R415, R29, R30). -/
inductive TaskStage where
  | none | placed | ready | running | ended
  deriving DecidableEq, Repr

structure Task where
  stage : TaskStage := .none
  launch : Nat := 0
  index : List Nat := []
  /-- Offset of region 0 in tile memory (R415). -/
  base : Nat := 0
  nodes : List GNode := []
  fifos : List Fifo := []
  /-- Actor of the firing in progress. -/
  actor : Nat := 0
  /-- Waiting for an asynchronous event's handler firing (R369). -/
  switches : Nat := 0
  /-- SVSW accepted of this context, with the masks not yet taken (R340). -/
  arrivals : Nat := 0
  /-- Switches taken effect: for each, the view of every set (slot plus one), the first set, its VERSION. -/
  taken : List (NMap Nat × Nat × BitVec 32) := []
  /-- Halted task ended by the partition manager: its FAULT field (R366). -/
  endFault : Option (BitVec 32) := none
  restored : Nat := 0
  /-- Clk at which a hard pre-emption closed the context's sections (R381); the SAVE request posted (R382). -/
  draining : Option Nat := none
  saveReq : Option Nat := none
  deriving DecidableEq, Repr

/-! ## A context -/

/-- An asynchronous event of the event queue (R364). -/
structure AsyncEvent where
  cause : Cause
  tval : Word
  deriving DecidableEq, Repr

/-- An issued command that is not complete (R143, R313). -/
structure OpenCmd where
  seq : Nat
  lane : BitVec 8
  /-- It may still make memory accesses, or one of its packets is not acknowledged (R310). -/
  acc : Bool := true
  /-- The bundle that issued it. -/
  bundle : Nat := 0
  /-- Of a remote command: all its packets have left (R317). -/
  sent : Bool := false
  /-- It writes memory. -/
  writes : Bool := false
  deriving DecidableEq, Repr

/-- What stands before the first bundle of a firing, or of one that goes on: the scheduler has chosen it, and it waits for
R140; a new actor firing then loads its arguments (R32). -/
inductive Entry where
  /-- Nothing: its bundles issue. -/
  | done
  | resumed
  | handler
  | actor (args : List Word)
  deriving DecidableEq, Repr

structure Ctx where
  id : CtxId := ⟨0, 0⟩
  /-- The context is resident (R19). -/
  live : Bool := false
  files : Files := {}
  sys : SysRegs := {}
  pc : Word := 0
  /-- A firing is in progress (R33); hfiring: it is a handler firing (R369). -/
  firing : Bool := false
  hfiring : Bool := false
  entry : Entry := .done
  /-- Values that registers had at the ends of earlier firings of the task, of those that are unpredictable at entry (R32). -/
  past : List (Reg × Line) := []
  /-- Tokens that the firing in progress has posted, by tile × 16 + letterbox (R33). -/
  posted : NMap Nat := []
  frame : LoopFrame := {}
  inflight : List PendW := []
  claims : List Claim := []
  landings : List Landing := []
  accs : List CoreAcc := []
  vgets : List VgetClaim := []
  /-- Output doors whose next entry is the first behind an ordering token that the door has removed (R322). -/
  afterTok : List Nat := []
  /-- Next place in the issue order, and next bundle number (R309). -/
  seq : Nat := 1
  bundleNo : Nat := 1
  opens : List OpenCmd := []
  /-- Promise bindings: physical scalar register and command (R142). -/
  bindings : List (Nat × Nat) := []
  undecided : Option Undecided := none
  trap : Option Trap := none
  events : List AsyncEvent := []
  replay : Bool := false
  repAddr : Word := 0
  /-- Address of the bundle of the trap being handled (R370, R441). -/
  trapAddr : Word := 0
  repCnt : Nat := 0
  /-- Address whose breakpoints and watchpoints are suppressed once (R441). -/
  skip : Option Word := none
  halted : Option Cause := none
  /-- A firing to be resumed at an address, when no other runs on the tile (R366, R383). -/
  resume : Option Word := none
  builtin : Option BuiltIn := none
  /-- A page that the built-in handling serves without a firing (R369, R372): its address, whether its service has begun. -/
  aside : Option (Word × Bool) := none
  /-- The asynchronous event whose handler runs (R383). -/
  handling : Option AsyncEvent := none
  /-- Clk before which the next bundle does not issue (R125, R128, R140, R365, R368). -/
  notBefore : Nat := 0
  /-- SYNCF under way: stores issued before this place in the issue order are waited for; .I, .C (R124). -/
  syncf : Option (Nat × Bool × Bool) := none
  /-- Sectors written and not synchronised for fetch (R45). -/
  stale : List Stale := []
  /-- Lines that its stores have written since its last SYNCF.C (R124). -/
  dirty : List Nat := []
  /-- The condition that held the bundle in the last clk (R97), for PC sampling. -/
  stall : Option Hold := none
  budget : Nat := 0
  budgetCount : Nat := 0
  slice : Nat := 0
  slotShare : Nat := 0
  quota : Nat := 0
  quiet : Nat := 4096
  maxext : Nat := 4
  params : NMap ParamWin := []
  markers : List Marker := []
  doorsIn : NMap (List DoorItem) := []
  doorsOut : NMap (List DoorItem) := []
  runs : List Run := []
  cqs : NMap CQueue := []
  letters : NMap (List Word) := []
  /-- Letterbox entries granted as credits and not yet used (R239). -/
  granted : NMap Nat := []
  tmpls : List Tmpl := []
  chains : NMap (BitVec 32) := []
  lanes : NMap Lane := []
  sbars : List Sbar := []
  secs : List Section := []
  /-- Section commands that the configuration engine holds (R183), and system commands that wait. -/
  hwait : List Run := []
  waits : List Run := []
  task : Task := {}
  deriving DecidableEq, Repr

/-! ## A tile and the package -/

/-- A post that waits in the post engine (R239). -/
structure Post where
  cmd : Command
  deriving DecidableEq, Repr

/-- Credits that a tile holds for a letterbox of a context of another tile (R239). -/
structure Credit where
  dst : CtxId
  lb : Nat
  n : Nat
  owner : CtxId
  /-- The launch whose tasks they are: one at a time, resident or pre-empted, holds a context number (R239). -/
  launch : Nat
  deriving DecidableEq, Repr

/-- A parked region of a pre-empted context (R384). -/
structure Parked where
  reg : Nat
  word : Word
  launch : Nat
  since : Nat
  deriving DecidableEq, Repr

/-- The last sample of the PC sampler (R442). -/
structure Sample where
  clk : Nat := 0
  pc : Word := 0
  ctx : Nat := 0
  act : BitVec 8 := 0
  core : Nat := 0
  fabric : Nat := 0
  deriving DecidableEq, Repr

structure Tile where
  id : Nat := 0
  treg : NMap Word := []
  /-- Partition that last owned each 4 KiB of region storage, plus one; 0 for none (R287). -/
  lastOwner : NMap Nat := []
  queue : List Command := []
  /-- The stream engine: clk of its last service turn, the slots served in that clk, the slot at which its round goes on
  (R221). -/
  turnClk : Nat := 0
  turned : List Nat := []
  turnFrom : Nat := 0
  /-- Clk before which no firing of the tile starts (R140). -/
  firingFrom : Nat := 0
  /-- Clk at which page row 0 became usable (R152). -/
  row0From : Nat := 0
  /-- Sections hold pages of page row 0 (R152). -/
  row0Held : Bool := false
  baddr : NMap Word := []
  bact : NMap Word := []
  bctl : NMap Word := []
  waddr : NMap Word := []
  wact : NMap Word := []
  wctl : NMap Word := []
  l1 : List TEntry := []
  l2 : List TEntry := []
  posts : List Post := []
  credits : List Credit := []
  /-- Images in the configuration cache that no live section uses (R185). -/
  cached : List Cached := []
  parked : List Parked := []
  sampcfg : Word := 0
  sampleNo : Nat := 0
  sample : Sample := {}
  deriving DecidableEq, Repr

/-! ## Package services -/

/-- A version slot (Table 12.2); order is its place in the publication order. -/
structure WSlot where
  st : Nat := 0
  version : BitVec 32 := 0
  order : Nat := 0
  deriving DecidableEq, Repr

/-- A version operation waiting in the version engine (R333, R338). -/
structure VOp where
  run : Run
  lane : BitVec 8
  deriving DecidableEq, Repr

/-- An SVSW accepted (R340): the participant, its gang and partition, the number of its switch, its mask. -/
structure Arrival where
  k : CtxId
  launch : Nat
  part : Nat
  n : Nat
  mask : Word
  queue : Nat
  seq : Nat
  /-- Order of acceptance. -/
  stamp : Nat := 0
  deriving DecidableEq, Repr

/-- A request on a hub request ring (Table 17.4); its number is its sequence number, and while it stands there its ANSWER
word is EMPTY (R430). -/
structure HubReq where
  id : Nat
  kind : Nat
  part : Nat
  tile : Nat
  ctx : Nat
  args : List Word
  deriving DecidableEq, Repr

/-- An entry of the hub fault ring (R430), whose sequence number is its place in the list: kind 0 halt, 1 page, 2 refused
write, 3 queue entry, 4 launch, 5 uncorrectable error, 6 privilege. -/
structure HubFault where
  kind : Nat
  part : Nat
  tile : Nat
  ctx : Nat
  args : List Word
  deriving DecidableEq, Repr

/-- A page fault episode (R357): the page, from its first address and with the log2 of its bytes; of a page without a leaf,
the 64 KiB granule (log 16). -/
structure Episode where
  part : Nat
  base : Nat
  log2 : Nat
  tile : Nat
  since : Nat
  lastWalk : Nat
  /-- FAULT request posted (host-assisted). -/
  req : Option Nat := none
  deriving DecidableEq, Repr

/-- A walk that the home slice of a page has asked an application core for, on behalf of an agent that is no stream, copy or
edge element (R353): the page, the access, the request, the answer once it is there. -/
structure PageWalk where
  part : Nat
  page : Nat
  write : Bool
  req : Nat
  answer : Option WalkAnswer := none
  deriving DecidableEq, Repr

/-- An ingress stream entry (R394) with the commits that no ACK covers (R396). -/
structure Ingress where
  src : Nat
  gsid : BitVec 16
  next : BitVec 32
  held : List Packet := []
  uncovered : Nat := 0
  since : Nat := 0
  ackedAt : Nat := 0
  /-- Worst status met by the packets not yet acknowledged. -/
  report : AckStatus := .ok
  deriving DecidableEq, Repr

/-- An ACK packet that left for another package, or a refusal that its sender hears of (R395, R396, log 31). -/
structure SentAck where
  dpkg : Nat
  pkt : Packet
  status : AckStatus
  deriving DecidableEq, Repr

/-- A packet sent and not acknowledged (R396): its issuer, lane, command, element, clks of sending, the partition that sent
it (R401). -/
structure OutPkt where
  k : CtxId
  lane : Nat
  dpkg : Nat
  cmd : Nat
  elem : Nat
  pkt : Packet
  first : Nat
  sent : Nat
  plane : Option Nat
  refused : Option Nat := none
  late : Bool := false
  part : Nat := 0
  deriving DecidableEq, Repr

/-- A read of the hub aperture, of a peer, or of the dispatcher that waits at a bank (R292, R388, R413, R431): key, bytes,
whether it is a peer's, the launch queue whose next entry it reads (16 partition + queue / 8 of LQp,n). -/
structure HubRead where
  key : Nat
  n : Nat
  peer : Bool
  d : Deferral
  queue : Option Nat := none
  deriving DecidableEq, Repr

/-- A grant request of a section (R435). -/
structure GrantReq where
  k : CtxId
  h : Nat
  want : Nat
  deriving DecidableEq, Repr

/-- A slot-table entry (R402). -/
structure SlotEntry where
  len : Nat
  planes : Nat
  tag : Nat
  deriving DecidableEq, Repr

structure SlotTable where
  t0 : Word := 0
  entries : List SlotEntry := []
  deriving DecidableEq, Repr

/-- Stages of a launch (Table 16.2 DSTATE); preempted: a gang that waits for its restore. -/
inductive LaunchStage where
  | queued | running | finishing | ended
  deriving DecidableEq, Repr

/-- A launch that intake has taken (R413, R416). -/
structure Launch where
  id : Nat
  part : Nat
  queue : Nat
  addr : Word
  desc : List Byte
  stage : LaunchStage := .queued
  prio : Nat
  eff : Nat
  waitFrom : Nat
  order : Nat
  /-- Kinds and trip counts of the levels; log2 of the size and kind of each region; actors of a task. -/
  levels : List (Nat × Nat) := []
  regs : List (Nat × Nat) := []
  actors : Nat := 0
  wave : Nat := 0
  gang : List CtxId := []
  /-- Participants of the wave that have ended, each with its place in the order of acceptances (R340). -/
  ends : List (CtxId × Nat) := []
  residentFrom : Nat := 0
  wavesEnded : Nat := 0
  tasksEnded : Nat := 0
  status : Status := .ok
  fault : BitVec 32 := 0
  soft : Bool := false
  preempted : Bool := false
  req : Option Nat := none
  recordPath : Bool := true
  /-- The dispatcher has chosen the gang for hard pre-emption (R419). -/
  victim : Bool := false
  /-- Image and lane list that the tasks of its wave read (R415). -/
  kept : Option (List Byte × List Byte) := none
  /-- Gangs that were chosen for pre-emption for its sake since it was last placed (R423). -/
  took : Nat := 0
  /-- GTIME at its completion, and its place in the order of completions (R246, R249). -/
  endTime : Nat := 0
  endStamp : Nat := 0
  /-- Clk of the last restore (R385), and the save and restore times measured at the last pre-emption. -/
  restoredAt : Option Nat := none
  saveTime : Nat := 0
  restoreTime : Nat := 0
  deriving DecidableEq, Repr

/-- A pre-empted context (R381, R382): its save image and its regions. -/
structure Saved where
  ctx : Ctx
  image : Nat
  /-- Registers of its regions that were claimed: data and presence stand in the image (R384). -/
  claimed : List Nat := []
  treg : List (Nat × Word) := []
  /-- Its entries of the tile's command queue and post engine. -/
  queue : List Command := []
  posts : List Post := []
  deriving DecidableEq, Repr

/-- A change of owner of a bank under way, its shutter closed (R292): the new owner plus one, 0 for none. -/
structure Remap where
  bank : Nat
  owner : Nat
  deriving DecidableEq, Repr

/-- The hub, the links and the package-wide engines (spec 12, 13, 15, 16, 17). -/
structure Hub where
  bootstat : BitVec 8 := 0x01
  /-- The run of the boot stages that is under way (R425). -/
  booting : Option BootRun := none
  powered : Bool := true
  fuses : List (BitVec 8) := [4, 4, 4, 4, 4, 4, 4, 4]
  failed : List Nat := []
  /-- The firmware image accepted last. -/
  firmware : List Byte := []
  /-- The last answer to hub software: management port, security engine, aperture (R23, R426, R431, R439). -/
  reply : List Byte := []
  /-- The last aperture access raised an access fault in its hart (R431). -/
  hartFault : Bool := false
  pctl : NMap Word := []
  defined : NMap Bool := []
  proot : NMap Word := []
  psave : NMap Word := []
  lq : NMap Word := []
  launches : List Launch := []
  nextLaunch : Nat := 1
  lastPass : NMap Nat := []
  /-- TAIL of the ring that an LCQ entry names, by partition and entry address (R416). -/
  lcqTails : NMap Nat := []
  saved : List Saved := []
  slots : NMap SlotTable := []
  wset : NMap Word := []
  wslot : NMap WSlot := []
  nextOrder : Nat := 1
  views : NMap Nat := []
  vops : List VOp := []
  arrivals : List Arrival := []
  limit : Nat := 30000
  /-- LIMIT fell below the grants held, and the section grants are not lowered yet (R436). -/
  lowerDue : Bool := false
  grantReqs : List GrantReq := []
  reads : List HubRead := []
  keymap : NMap Word := []
  kown : NMap Word := []
  keys : NMap (BitVec 512) := []
  /-- How often a key slot that granules named was reassigned (R445). -/
  reassigned : Nat := 0
  requests : List HubReq := []
  nextReq : Nat := 1
  faults : List HubFault := []
  trcfg : BitVec 32 := 0
  trbank : BitVec 12 := 0
  trace : List (BitVec 256) := []
  drops : NMap Nat := []
  route : NMap Word := []
  /-- Index of this package in its pod. -/
  pkg : Nat := 0
  portDown : NMap Bool := []
  /-- Corrected errors, counted by storage unit; each count saturates at 32 bits (R434). -/
  corrected : NMap Nat := []
  ingress : List Ingress := []
  /-- Lines of reduction buffers: NF flag, and origin of a poisoned line, by key / 64 (R407, Table 15.5). -/
  nfLines : NMap Bool := []
  poisonLines : NMap (BitVec 32) := []
  outbox : List OutPkt := []
  /-- Packets and acknowledgements to this package that stay inside it (R390). -/
  local_ : List Packet := []
  acks : List Ack := []
  /-- What the ingress has sent to other packages, in order (R396). -/
  sentAcks : List SentAck := []
  episodes : List Episode := []
  walks : List PageWalk := []
  base : NMap (List TEntry) := []
  remaps : List Remap := []
  /-- Servo: locked once, slew, last offset, good messages in a row, clk of the last message, of the last slew. -/
  ever : Bool := false
  slew : BitVec 2 := 0
  offset : BitVec 32 := 0
  good : Nat := 0
  lastSync : Nat := 0
  lastSlew : Option Nat := none
  /-- Ticks by which GTIME advances in the next clk. -/
  advance : Nat := 1
  deriving DecidableEq, Repr

/-- Acts that the model's own order of acts places in the agenda (log 1), by the row of the opcode table each is; a write
that leaves the port of its tile and an access of a pre-empted context are acts of their banks. -/
inductive DueKind where
  | registerWriteLands | interlockedValueLands | bankReply | deferredReadEntry | deferredReadAnswered | atomicPerformed | bankAccessPerformed
  | accessLeaves | parkedAccess
  | trapEntry | handlerFiringStart | firingStart | commandQueueAccept | doorBinding | streamServiceTurn | streamComplete
  | recordWrite | ringHeadReread | copyAccept | copyTransfer | circuitEntryMove | templateFiring | postPlaced | creditGrant
  | gatherBatchEnd | sordAccept | orderTokenOpen | markerReachesHead | sbarSatisfied | graphNodeArm | scfgComplete
  | peFiring | loopBufferFill | pageMove | edgeElementReply | edgeFaultFreeze | sectionQuiescent | sectionStopped | peSwitch
  | regionSilent | weightLoadComplete | rowAdmission | outputEntryPush | smmRetire | currentGrant | grantLowering
  | launchIntake | dispatcherPass | effectivePriorityRaise | taskPlacement | taskStart | taskEnd | launchEnd
  | hardPreemption | preemptionDrainEnd | contextRestore | pageWalkComplete | divertedElementServed | periodicRewalk
  | unresolvable | shootdownComplete | spubPublish | versionSwitch | slotFree | packetArrival | ackArrival | ackTimer
  | refusedPacketResend | unackedPacketResend | orderwin | streamEntryReclaim | collectiveStartTime | collectiveChunk
  | bootStage | patrolScrub | timeSlotStart | bankShutterOpen | syncTimeout | slewClk | pcSample | traceRingDrain
  deriving DecidableEq, Repr

/-- One next act of the agents (log 1). -/
inductive Action where
  /-- A whole act of an agent. -/
  | event (i : Instr)
  /-- The firing of a context issues its next bundle. -/
  | issue (k : CtxId)
  /-- One clk passes. -/
  | tick
  /-- An act of the model's own order: its kind, a context (or a tile) and two numbers. -/
  | due (d : DueKind) (k : CtxId) (a b : Nat)
  deriving DecidableEq, Repr

structure State where
  clk : Nat := 0
  gtime : Nat := 0
  locked : Bool := false
  /-- The current context (log 1), and the other resident contexts. -/
  c : Ctx := {}
  others : List Ctx := []
  tiles : List Tile := []
  /-- Memory bytes: tile memories, Hall banks and the cellar, by key (log 4). -/
  mem : List Host.Cell := []
  /-- Presence words that are FULL, by key / 8 (R293). -/
  full : NMap Bool := []
  /-- Codes with an uncorrectable error, by the first key they cover / 8: a word, or a line of the cellar (R432). -/
  bad : NMap Bool := []
  /-- Codes whose uncorrectable error stands in the hub fault ring, likewise (R434). -/
  reported : NMap Bool := []
  /-- Codes with an error that they correct, likewise (R432). -/
  soft : NMap Bool := []
  bankOwner : NMap Nat := []
  /-- The port that last took an entry of a bank's deferred-read store, plus one, by bank (R295). -/
  lastPort : NMap Nat := []
  hreg : NMap Word := []
  split : NMap Word := []
  hub : Hub := {}
  /-- Order stamp of the next acceptance or placement. -/
  stamp : Nat := 1
  /-- The micro-operations under firing. -/
  micro : Option Micro := none
  /-- The bundle under issue. -/
  bundle : Staged := {}
  agenda : List Action := []
  /-- Draws made from the free values of Config (log 2). -/
  free : Nat := 0
  deriving DecidableEq, Repr

/-- Reasons for which the machine would stop. No instruction of the spec stops it. -/
inductive Fault where
  /-- Raised by no meaning: the spec gives every instruction an effect; safe. -/
  | none
  deriving DecidableEq, Repr

/-- Reasons for which a step has no meaning. -/
inductive Refusal where
  /-- An instruction whose meaning is not written; raised by its arm of exec only; safe. -/
  | notModelled (mnemonic : String)
  deriving DecidableEq, Repr

/-- The package right after reset (R425, INVENTORY.md). -/
def State.reset : State := { hub := { booting := some { fails := none, units := [], ports := [] } } }

end Sys2Proof.Machine
end

