-- ==== Sys2Proof/Machine/Operands.lean ====
section
/-! DEFINITION. Finite maps, and the operand forms of the control core: logical registers and their physical ones
(R100), reads, immediates, lanes and masks (R70, R155). -/

namespace Sys2Proof.Machine

/-! ## Canonical finite maps -/

/-- The value of a key; an unlisted key holds d. -/
def NMap.get {α : Type} (d : α) : NMap α → Nat → α
  | [], _ => d
  | (k, v) :: r, n => if k = n then v else NMap.get d r n

/-- Write a key: the keys stay rising and the value d is not listed. -/
def NMap.set {α : Type} [DecidableEq α] (d : α) : NMap α → Nat → α → NMap α
  | [], n, v => if v = d then [] else [(n, v)]
  | (k, w) :: r, n, v =>
    if n < k then (if v = d then (k, w) :: r else (n, v) :: (k, w) :: r)
    else if n = k then (if v = d then r else (n, v) :: r)
    else (k, w) :: NMap.set d r n v

/-- The canonical form: keys rise strictly above lo, and no entry holds d. -/
def NMap.wfFrom {α : Type} [DecidableEq α] (d : α) : Nat → NMap α → Bool
  | _, [] => true
  | lo, (k, v) :: r => decide (lo ≤ k) && decide (v ≠ d) && NMap.wfFrom d (k + 1) r

def NMap.wf {α : Type} [DecidableEq α] (d : α) (m : NMap α) : Bool := NMap.wfFrom d 0 m

/-! ## Register names -/

/-- Bits [lo + n - 1 : lo] of a dword as a number. -/
def wordField (w : Word) (lo n : Nat) : Nat := w.toNat / 2 ^ lo % 2 ^ n

/-- Sizes and bases of RRB (Table 4.8). -/
def rrbSrs (r : Word) : Nat := wordField r 0 6
def rrbSrb (r : Word) : Nat := wordField r 8 5
def rrbVrs (r : Word) : Nat := wordField r 16 9
def rrbVrb (r : Word) : Nat := wordField r 32 8
def rrbQrs (r : Word) : Nat := wordField r 40 4
def rrbQrb (r : Word) : Nat := wordField r 48 3

/-- RRB from its fields. -/
def rrbMake (srs srb vrs vrb qrs qrb : Nat) : Word :=
  BitVec.ofNat 64 (srs + srb * 2 ^ 8 + vrs * 2 ^ 16 + vrb * 2 ^ 32 + qrs * 2 ^ 40 + qrb * 2 ^ 48)

/-- A base modulo its size; 0 for size 0 (R101, R113). -/
def baseMod (b size : Nat) : Nat := if size = 0 then 0 else b % size

/-- The value that an MTS of RRB stores (R113): sizes at most 32, 256 and 8, bases in range. -/
def rrbStored (w : Word) : Word :=
  let srs := Nat.min (rrbSrs w) 32
  let vrs := Nat.min (rrbVrs w) 256
  let qrs := Nat.min (rrbQrs w) 8
  rrbMake srs (baseMod (rrbSrb w) srs) vrs (baseMod (rrbVrb w) vrs) qrs (baseMod (rrbQrb w) qrs)

/-- One rotation step (R101). -/
def rrbRotated (w : Word) : Word :=
  rrbMake (rrbSrs w) (baseMod (rrbSrb w + 1) (rrbSrs w)) (rrbVrs w) (baseMod (rrbVrb w + 1) (rrbVrs w)) (rrbQrs w)
    (baseMod (rrbQrb w + 1) (rrbQrs w))

/-- Mapping of a name in a rotating range that starts at lo (Table 4.3). -/
def rotName (lo size base n : Nat) : Nat := if lo ≤ n ∧ n < lo + size then lo + (n - lo + base) % size else n

/-- Physical registers of names under an RRB (R100). -/
def physS (rrb : Word) (n : Nat) : Reg := .s (rotName 32 (rrbSrs rrb) (rrbSrb rrb) n)
def physV (rrb : Word) (n : Nat) : Reg := .v (rotName 128 (rrbVrs rrb) (rrbVrb rrb) n)
def physQ (rrb : Word) (n : Nat) : Reg := .q (rotName 8 (rrbQrs rrb) (rrbQrb rrb) n)

/-! ## Register values -/

/-- Value of a physical register as a line; narrower registers in the low bits. The fixed registers read their
constants (R98). -/
def Files.read (f : Files) : Reg → Line
  | .s n => if n = 0 then 0 else (f.s.get 0 n).setWidth 512
  | .x n => if n = 0 then 0 else (f.x.get 0 n).setWidth 512
  | .v n => f.v.get 0 n
  | .q n => if n = 0 then 1 else if f.q.get false n then 1 else 0
  | .m n => if n = 0 then BitVec.ofNat 512 (2 ^ 64 - 1) else (f.m.get 0 n).setWidth 512

/-- Whether a register discards what is written to it (R99). -/
def Reg.fixed : Reg → Bool
  | .s n | .x n | .q n | .m n => n == 0
  | .v _ => false

/-- Put a value into a physical register; a fixed register discards it. -/
def Files.put (f : Files) (r : Reg) (v : Line) : Files :=
  if r.fixed then f
  else match r with
    | .s n => { f with s := f.s.set 0 n (v.setWidth 64) }
    | .x n => { f with x := f.x.set 0 n (v.setWidth 64) }
    | .v n => { f with v := f.v.set 0 n v }
    | .q n => { f with q := f.q.set false n (v.getLsbD 0) }
    | .m n => { f with m := f.m.set 0 n (v.setWidth 64) }

/-- The poison origin of a register, 0 for none (R216). -/
def Files.poisonOf (f : Files) (r : Reg) : BitVec 32 :=
  match f.poison.find? (fun p => p.1 == r) with
  | some p => p.2
  | none => 0

/-- Set or clear the poison mark of a register. -/
def Files.mark (f : Files) (r : Reg) (origin : BitVec 32) : Files :=
  let rest := f.poison.filter (fun p => p.1 != r)
  { f with poison := if origin = 0 || r.fixed then rest else (r, origin) :: rest }

/-- A write of some bits of a register, which clears or sets its mark (R216). -/
def Files.write (f : Files) (r : Reg) (val mask : Line) (origin : BitVec 32) : Files :=
  (f.put r ((f.read r &&& ~~~mask) ||| (val &&& mask))).mark r origin

/-- All bits of a line. -/
def allBits : Line := BitVec.allOnes 512

/-- A dword as a register value. -/
def wordVal (w : Word) : Line := w.setWidth 512

/-- A predicate as a register value. -/
def boolVal (b : Bool) : Line := if b then 1 else 0

/-! ## Reads of the current context (R96: through the mapping in force) -/

def State.regS (s : State) (n : BitVec 6) : Reg := physS s.c.sys.rrb n.toNat
def State.regX (_ : State) (n : BitVec 5) : Reg := .x n.toNat
def State.regV (s : State) (n : BitVec 9) : Reg := physV s.c.sys.rrb n.toNat
def State.regQ (s : State) (n : BitVec 4) : Reg := physQ s.c.sys.rrb n.toNat
def State.regM (_ : State) (n : Nat) : Reg := .m n

/-- Sreg(n). -/
def State.rdS (s : State) (n : BitVec 6) : Word := (s.c.files.read (s.regS n)).setWidth 64
/-- x(n). -/
def State.rdX (s : State) (n : BitVec 5) : Word := (s.c.files.read (s.regX n)).setWidth 64
/-- Vreg(n). -/
def State.rdV (s : State) (n : BitVec 9) : Line := s.c.files.read (s.regV n)
/-- Pred(n). -/
def State.rdQ (s : State) (n : BitVec 4) : Bool := (s.c.files.read (s.regQ n)).getLsbD 0
/-- Mask register n. -/
def State.rdM (s : State) (n : Nat) : Word := (s.c.files.read (.m n)).setWidth 64

/-- Sign-extended immediates (R46, R119, R120). -/
def imm9 (i : BitVec 9) : Word := i.signExtend 64
def imm15 (i : BitVec 15) : Word := i.signExtend 64
def disp21 (i : BitVec 21) : Word := i.signExtend 64 * 32

/-- A condition code between two dwords (R48, R121). -/
def Cond.holds (c : Cond) (a b : Word) : Bool :=
  match c with
  | .eq => a == b
  | .ne => a != b
  | .lt => a.slt b
  | .ge => !a.slt b
  | .ltu => a.ult b
  | .geu => !a.ult b
  | .le => !b.slt a
  | .gt => b.slt a

/-! ## Lanes -/

/-- Element i of width w of a line, as a number (R70). -/
def elem (w : Nat) (v : Line) (i : Nat) : Nat := v.toNat / 2 ^ (w * i) % 2 ^ w

/-- A line from its elements of width w, element 0 first. -/
def ofElems (w : Nat) : List Nat → Nat
  | [] => 0
  | e :: r => e % 2 ^ w + 2 ^ w * ofElems w r

/-- Lanes of a type in a line (Table 2.7). -/
def ElemType.lanes (t : ElemType) : Nat := 512 / ElemType.bits t

/-- The governing mask bit of lane i of a type with L lanes (R155). -/
def maskBit (m : Word) (lanes i : Nat) : Bool := if lanes = 128 then m.getLsbD (i / 2) else m.getLsbD i

/-- Half h of a line: bits [16h + 15 : 16h] (R154). -/
def half (v : Line) (h : Nat) : Nat := elem 16 v h

/-- The bits of the lanes for which f holds, lanes of width w counted from i. -/
def laneBits (w : Nat) (f : Nat → Bool) : Nat → Nat → Nat
  | _, 0 => 0
  | i, n + 1 => (if f i then 2 ^ w - 1 else 0) + 2 ^ w * laneBits w f (i + 1) n

/-- The bits of a line whose lanes of a type a mask governs as written. -/
def laneMask (t : ElemType) (m : Word) : Line :=
  BitVec.ofNat 512 (laneBits (ElemType.bits t) (maskBit m (ElemType.lanes t)) 0 (ElemType.lanes t))

end Sys2Proof.Machine
end

