-- ==== Sys2Proof/Machine/Flags.lean ====
section
/-! DEFINITION. The flag computations: FLAGS, its stochastic state, and STATUS as MFS reads it (Tables 3.6, 4.7). -/

namespace Sys2Proof.Machine

/-- SSEED and SCNT of FLAGS (Table 3.6). -/
def flagsSseed (f : Word) : BitVec 32 := (f >>> 32).setWidth 32
def flagsScnt (f : Word) : BitVec 32 := ((f >>> 8).setWidth 24).setWidth 32

/-- FLAGS as an MTS stores it: bits [7:5] read zero (Table 3.6). -/
def flagsStored (w : Word) : Word := w &&& 0xFFFFFFFFFFFFFF1F#64

/-- Flags ORed into FLAGS (R86). -/
def flagsRaise (w : Word) (f : FlagBits) : Word := w ||| f.setWidth 64

/-- SCNT advanced by one modulo 2^24 (R79). -/
def flagsAdvance (w : Word) : Word := (w &&& 0xFFFFFFFF000000FF#64) ||| ((((w >>> 8) + 1) &&& 0xFFFFFF#64) <<< 8)

/-- The contributions of a V syllable to FLAGS (R86). -/
def flagsContribute (w : Word) (f : FlagBits) (scnt : Bool) : Word :=
  if scnt then flagsAdvance (flagsRaise w f) else flagsRaise w f

/-- The random value of one rounding of a V syllable (R79). -/
def vRandom (flags : Word) (lane : Nat) : BitVec 32 :=
  mix32 (flagsSseed flags) (BitVec.ofNat 32 lane) (flagsScnt flags)

/-- STATUS from its fields (Table 4.7). -/
def statusWord (y : SysRegs) (num : Nat) : Word :=
  y.act.setWidth 64 <<< 24 ||| BitVec.ofNat 64 (num % 4) <<< 8 ||| (if y.hm then 16#64 else 0#64) ||| y.rm.setWidth 64

/-- The mode of a V syllable or command that resolves DYN from STATUS.RM before its bundle (R74, R117). -/
def State.mode (s : State) (code : Nat) : RMode := rmOfCode code s.c.sys.rm.toNat

end Sys2Proof.Machine
end

