-- ==== Sys2Proof/Machine/Ops.lean ====
section
/-! DEFINITION. The named operations: memory and presence, contexts and tiles, regions, the writes of a bundle and
their landing, taking a trap and returning from one, and the clk. -/

namespace Sys2Proof.Machine

/-! ## Memory (R285, R288, R293; keys: log 4) -/

/-- Key of a byte of tile memory, of a Hall bank, of the cellar. -/
def tileKey (tile off : Nat) : Nat := tile * 2 ^ 23 + off
def hallKey (bank off : Nat) : Nat := 2 ^ 30 + bank * 2 ^ 19 + off
def cellarKey (pa : Nat) : Nat := 2 ^ 40 + pa

/-- What a byte that nothing has written reads as (log 4). -/
def emptyByte : Byte := 0

def State.byte (s : State) (key : Nat) : Byte := NMap.get emptyByte s.mem key

def State.setByte (s : State) (key : Nat) (b : Byte) : State := { s with mem := NMap.set emptyByte s.mem key b }

/-- n bytes from a key up. -/
def State.bytesAt (s : State) (key : Nat) : Nat → List Byte
  | 0 => []
  | n + 1 => s.byte key :: s.bytesAt (key + 1) n

/-- Little-endian value of n bytes (R6). -/
def State.valueAt (s : State) (key n : Nat) : Nat := leBytes (s.bytesAt key n)

/-- Write bytes from a key up. -/
def memWrite (m : List Host.Cell) (key : Nat) : List Byte → List Host.Cell
  | [] => m
  | b :: r => memWrite (NMap.set emptyByte m key b) (key + 1) r

def State.writeBytes (s : State) (key : Nat) (bs : List Byte) : State := { s with mem := memWrite s.mem key bs }

/-- Write the n low bytes of a value. -/
def State.writeValue (s : State) (key n v : Nat) : State := s.writeBytes key (toBytes n v)

/-- The memory's canonical form. -/
def Memory.wf (m : List Host.Cell) : Bool := NMap.wf emptyByte m

/-- Whether the presence word that holds a key is FULL. -/
def State.isFull (s : State) (key : Nat) : Bool := NMap.get false s.full (key / 8)

def State.setFull (s : State) (key : Nat) (b : Bool) : State := { s with full := NMap.set false s.full (key / 8) b }

/-- Keys of the presence words that n bytes from a key touch. -/
def wordKeys (key n : Nat) : List Nat := (List.range ((key + n - 1) / 8 + 1 - key / 8)).map fun i => (key / 8 + i) * 8

def State.setFullAll (s : State) (keys : List Nat) (b : Bool) : State := keys.foldl (fun t k => t.setFull k b) s

/-- Bytes that one code of storage covers (Table 17.5): a line of the cellar, a presence word of tile memory and the Hall. -/
def codeSpan (key : Nat) : Nat := if 2 ^ 40 ≤ key then 64 else 8

/-- Keys of the codes that n bytes from a key touch. -/
def codeKeys (key n : Nat) : List Nat :=
  let w := codeSpan key
  (List.range ((key + n - 1) / w + 1 - key / w)).map fun i => (key / w + i) * w

/-- Whether a read of n bytes meets an uncorrectable error (R432). -/
def State.badRead (s : State) (key n : Nat) : Bool := (codeKeys key n).any fun k => NMap.get false s.bad (k / 8)

/-- Codes become valid again: what they cover was written anew. -/
def State.renewCodes (s : State) (ks : List Nat) : State :=
  { s with bad := ks.foldl (fun b k => NMap.set false b (k / 8) false) s.bad,
           soft := ks.foldl (fun b k => NMap.set false b (k / 8) false) s.soft,
           reported := ks.foldl (fun b k => NMap.set false b (k / 8) false) s.reported }

/-! ## Contexts and tiles -/

def State.ctx? (s : State) (k : CtxId) : Option Ctx :=
  if s.c.id = k then some s.c else s.others.find? (fun c => c.id == k)

/-- Apply a change to a context; an absent context is no context. -/
def State.onCtx (s : State) (k : CtxId) (f : Ctx → Ctx) : State :=
  if s.c.id = k then { s with c := f s.c }
  else { s with others := s.others.map fun c => if c.id = k then f c else c }

/-- Commands of one task: the places of a task in its issue order begin at a multiple of 2^40 of its own (log 6). -/
def sameTask (a b : Nat) : Bool := a / 2 ^ 40 == b / 2 ^ 40

/-- Whether a command of a context number, at a place of the issue order, is one of a context's task. -/
def Ctx.owns (c : Ctx) (k : CtxId) (seq : Nat) : Bool := c.id == k && sameTask seq c.seq

/-- The context whose task issued a command, resident or pre-empted (R381). -/
def State.owner (s : State) (k : CtxId) (seq : Nat) : Option Ctx :=
  if s.c.owns k seq then some s.c
  else match s.others.find? fun c => c.owns k seq with
    | some c => some c
    | none => (s.hub.saved.find? fun v => v.ctx.owns k seq).map (·.ctx)

/-- Apply a change to it. -/
def State.onOwner (s : State) (k : CtxId) (seq : Nat) (f : Ctx → Ctx) : State :=
  let g (c : Ctx) : Ctx := if c.owns k seq then f c else c
  { s with c := g s.c, others := s.others.map g, hub := { s.hub with saved := s.hub.saved.map fun v => { v with ctx := g v.ctx } } }

/-- Every context record, the current one first. -/
def State.ctxs (s : State) : List Ctx := s.c :: s.others

/-- The tile of an id; an absent record is the tile as reset leaves it. -/
def State.tile (s : State) (t : Nat) : Tile := (s.tiles.find? fun r => r.id == t).getD { id := t }

def setTileIn (r : Tile) : List Tile → List Tile
  | [] => [r]
  | t :: rest => if r.id < t.id then r :: t :: rest else if t.id = r.id then r :: rest else t :: setTileIn r rest

def State.setTile (s : State) (r : Tile) : State := { s with tiles := setTileIn r s.tiles }

def State.onTile (s : State) (t : Nat) (f : Tile → Tile) : State := s.setTile { f (s.tile t) with id := t }

/-- The current context's tile. -/
def State.myTile (s : State) : Tile := s.tile s.c.id.tile

/-! ## Free values (log 2) -/

/-- Draw a free choice among n alternatives. -/
def State.draw (s : State) (n : Nat) : Nat × State := (Config.freeChoice s.free % n, { s with free := s.free + 1 })

/-! ## Partitions -/

/-- Reset value of PCTLp: PANT = 3 (Table 17.2). -/
def pctlReset : Word := 0x60000000000

/-! ## Fault ring and trace (R430, R443, R444) -/

/-- An entry of the hub fault ring (R430). -/
def State.hubFault (s : State) (kind part tile ctx : Nat) (args : List Word) : State :=
  { s with hub := { s.hub with faults := s.hub.faults ++ [⟨kind, part, tile, ctx, args⟩] } }

/-- The unit that stores a key, in a report: a tile-memory bank, a Hall bank, or the stack of a cellar address (R285, R347,
log 21). -/
def unitOf (key : Nat) : Nat :=
  if key < 2 ^ 30 then key / 2 ^ 23 * 32 + key / 64 % 32 else if key < 2 ^ 40 then 2 ^ 16 + (key - 2 ^ 30) / 2 ^ 19
  else 2 ^ 17 + (key - 2 ^ 40) / 65536 % 16

/-- The address of a key inside its unit. -/
def addressIn (key : Nat) : Nat :=
  if key < 2 ^ 30 then key % 2 ^ 23 else if key < 2 ^ 40 then (key - 2 ^ 30) % 2 ^ 19 else key - 2 ^ 40

/-- Errors that their codes correct are corrected, each counted for its unit (R432, R434). -/
def State.correctCodes (s : State) (keys : List Nat) : State :=
  (keys.filter fun k => NMap.get false s.soft (k / 8)).foldl (fun s k =>
    let n := Nat.min (2 ^ 32 - 1) (NMap.get 0 s.hub.corrected (unitOf k) + 1)
    { s with soft := NMap.set false s.soft (k / 8) false, hub := { s.hub with corrected := NMap.set 0 s.hub.corrected (unitOf k) n } }) s

/-- An uncorrectable error that a read meets is reported with its unit and address, once (R434). -/
def State.reportErrors (s : State) (keys : List Nat) : State :=
  keys.foldl (fun s k =>
    if NMap.get false s.bad (k / 8) && !NMap.get false s.reported (k / 8) then
      { s with reported := NMap.set false s.reported (k / 8) true }.hubFault 5 0 0 0
        [BitVec.ofNat 64 (unitOf k), BitVec.ofNat 64 (addressIn k)]
    else s) s

/-- What a read of some codes does for the errors that it meets: in flight it corrects and counts what the codes correct, and
reports what they do not (R432, R434). -/
def State.noteErrors (s : State) (keys : List Nat) : State := (s.correctCodes keys).reportErrors keys

/-- Codes of a list that an error marks. -/
def State.flagged (s : State) (keys : List Nat) : List Nat :=
  keys.filter fun k => NMap.get false s.soft (k / 8) || (NMap.get false s.bad (k / 8) && !NMap.get false s.reported (k / 8))

/-- Number of records that the trace ring holds: 4 MiB of 32 bytes (R443). -/
def traceRingLen : Nat := 131072

/-- A field of a trace record: an address, a va or a time takes 8 bytes, any other 4 (R444). -/
inductive TField where
  | long (v : Nat) | word (v : Nat)
  deriving DecidableEq, Repr

/-- The fields one after the other, as bits from byte 12 up. -/
def packFields : List TField → Nat
  | [] => 0
  | .long v :: r => v % 2 ^ 64 + 2 ^ 64 * packFields r
  | .word v :: r => v % 2 ^ 32 + 2 ^ 32 * packFields r

/-- Bits that the fields take. -/
def fieldBits (l : List TField) : Nat := (l.map fun t => match t with
  | .long _ => 64
  | .word _ => 32).foldl (· + ·) 0

/-- A trace record (R443, R444): a class or partition outside the masks of TRCFG writes none; with the ring full it is
dropped and counted; fields beyond byte 31 stand in a record of class 0 behind it. -/
def State.traceAt (s : State) (cls code tile part ctx : Nat) (fields : List TField) : State :=
  if !s.hub.trcfg.getLsbD cls || !s.hub.trcfg.getLsbD (16 + part) then s
  else
    let one (c k f : Nat) : BitVec 256 :=
      BitVec.ofNat 256 (s.gtime + 2 ^ 64 * (c + 2 ^ 8 * (k + 2 ^ 8 * (tile + 2 ^ 8 * (part * 16 + ctx)))) + 2 ^ 96 * (f % 2 ^ 160))
    let f := packFields fields
    let lost := NMap.get 0 s.hub.drops cls
    let new := (if lost = 0 then [] else [one 12 0 lost]) ++ [one cls code f]
      ++ (if fieldBits fields ≤ 160 then [] else [one 0 code (f / 2 ^ 160)])
    if traceRingLen < s.hub.trace.length + new.length then
      { s with hub := { s.hub with drops := NMap.set 0 s.hub.drops cls (Nat.min (lost + 1) (2 ^ 32 - 1)) } }
    else { s with hub := { s.hub with trace := s.hub.trace ++ new, drops := NMap.set 0 s.hub.drops cls 0 } }

/-- A trace record of a context; CTX is its first field where the table says so. -/
def State.trc (s : State) (cls code : Nat) (c : Ctx) (fields : List TField) : State :=
  s.traceAt cls code c.id.tile c.sys.partid.toNat (c.id.num % 4) fields

/-- A trace record of a package agent. -/
def State.trcPkg (s : State) (cls code part : Nat) (fields : List TField) : State := s.traceAt cls code 0xFF part 0 fields

/-! ## Regions (R286, R289, R291, R297) -/

inductive RKind where
  | plain | sync | once
  deriving DecidableEq, Repr

def rkindOf (n : Nat) : RKind := if n = 1 then .sync else if n = 2 then .once else .plain

/-- The kind of the tile region of a context that holds an offset, if one does (Table 10.2). -/
def tregHolds (w : Word) (num off : Nat) : Bool :=
  wordField w 31 1 == 1 && wordField w 29 2 == num
    && decide (wordField w 0 11 * 4096 ≤ off) && decide (off < wordField w 0 11 * 4096 + 2 ^ wordField w 22 5)

def Tile.regionOf (t : Tile) (num off : Nat) : Option RKind :=
  (t.treg.find? fun p => tregHolds p.2 num off).map fun p => rkindOf (wordField p.2 27 2)

/-- Key of HREGp,n. -/
def hregKey (p n : Nat) : Nat := p * 64 + n

def hregHolds (w : Word) (a : Nat) : Bool :=
  wordField w 63 1 == 1 && decide (wordField w 16 16 * 4096 ≤ a)
    && decide (a < wordField w 16 16 * 4096 + 2 ^ wordField w 35 5)

/-- Bank and bank offset of a Hall address inside a region (R291). -/
def hallMap (w : Word) (a : Nat) : Nat × Nat :=
  let o := a - wordField w 16 16 * 4096
  let i := if wordField w 60 1 = 1 then 4096 else 64
  let nb := 2 ^ wordField w 56 4
  let unit := o / i
  (wordField w 47 9 + unit % nb, wordField w 40 7 * 4096 + unit / nb * i + o % i)

/-- The storage key and the kind of a Hall address of a partition. -/
def State.hallOf (s : State) (part a : Nat) : Option (Nat × RKind) :=
  (s.hreg.find? fun p => p.1 / 64 == part && hregHolds p.2 a).map fun p =>
    let (b, o) := hallMap p.2 a
    (hallKey b o, rkindOf (wordField p.2 61 2))

/-- Space of an address (R283). -/
def space (a : Word) : Nat := wordField a 60 4

/-- Whether the bits that Table 10.1 says must be zero are zero. -/
def zeroBitsOk (a : Word) : Bool :=
  match space a with
  | 0 => wordField a 57 3 == 0
  | 1 => wordField a 28 32 == 0
  | 2 => wordField a 23 37 == 0
  | 4 => wordField a 19 41 == 0
  | 8 => true
  | _ => false

/-- Where a byte of spaces 1, 2 and 4 lies for a context. -/
inductive Place where
  | stored (key : Nat) (kind : RKind)
  /-- A byte of a parameter window beyond its bound. -/
  | beyond
  deriving DecidableEq, Repr

/-- Whether a physical cellar address lies under a key slot of another partition (R438); ver is the weight set of a read
through a versioned leaf. -/
def State.keyDenied (s : State) (part pa : Nat) (ver : Option Nat) (write : Bool) : Bool :=
  let g := NMap.get 0 s.hub.keymap (pa / 2 ^ 30)
  let o := NMap.get 0 s.hub.kown (wordField g 0 11)
  if wordField g 63 1 = 0 || wordField o 63 1 = 0 || wordField o 0 4 = part then false
  else match ver with
    | none => true
    | some set =>
      let w := NMap.get 0 s.hub.wset set
      write || wordField w 59 4 != wordField o 0 4 || wordField w (43 + part) 1 == 0

/-- Key of an image of a partition's save area (R382). -/
def State.imageKey (s : State) (p image : Nat) : Nat :=
  cellarKey (wordField (NMap.get 0 s.hub.psave p) 0 48 + image * 2 ^ 24)

/-- Whether a saved record is that of a context, which while its accesses go on has a number of its own (withSaved). -/
def Saved.isOf (v : Saved) (c : Ctx) : Bool :=
  v.ctx.task.launch == c.task.launch && v.ctx.id.tile == c.id.tile && v.ctx.id.num == c.id.num % 4

/-- The storage of an offset of tile memory for a context, by its regions. Those of a pre-empted context are parked in
place, or claimed and then in its image, where its diverted elements and its accesses reach them (R323, R357, R384). -/
def State.tilePlace (s : State) (c : Ctx) (off : Nat) : Option (Nat × RKind) :=
  match s.hub.saved.find? fun v => v.isOf c with
  | none => ((s.tile c.id.tile).regionOf c.id.num off).map fun k => (tileKey c.id.tile off, k)
  | some v => (v.treg.find? fun r => tregHolds r.2 v.ctx.id.num off).map fun r =>
      (if v.claimed.contains r.1 then s.imageKey v.ctx.sys.partid.toNat v.image + 2 ^ 23 + off else tileKey c.id.tile off,
        rkindOf (wordField r.2 27 2))

/-- The storage of an address of a context: tile memory, Hall, or a parameter window; none outside every region. -/
def State.placeOf (s : State) (c : Ctx) (a : Word) : Option Place :=
  match space a with
  | 1 => (s.hallOf c.sys.partid.toNat (wordField a 0 28)).map fun r => .stored r.1 r.2
  | 2 => (s.tilePlace c (wordField a 0 23)).map fun r => .stored r.1 r.2
  | 4 =>
    let w := NMap.get {} c.params (wordField a 16 3)
    if !w.bound then none
    else if w.size ≤ wordField a 0 16 then some .beyond
    else (s.hallOf c.sys.partid.toNat (w.hall + wordField a 0 16)).map fun r => .stored r.1 .plain
  | _ => none

/-- Uses of memory by syllables, with the spaces that R284 gives them. -/
inductive Use where
  | load | store | atomic | xload
  deriving DecidableEq, Repr

def Use.spaceOk (u : Use) (sp : Nat) : Bool :=
  match u with
  | .load => sp == 1 || sp == 2 || sp == 4
  | .store => sp == 1 || sp == 2
  | .atomic => sp == 1
  | .xload => sp == 2

/-- The region check of an address: ACCESS outside the regions, PARAM for an unbound window (R298). -/
def State.regionCheck (s : State) (a : Word) : Option Cause :=
  if (s.placeOf s.c a).isSome then none else if space a = 4 then some .param else some .access

/-- Checks of an S-slot access: space, alignment, region (R298). -/
def State.checkS (s : State) (u : Use) (a : Word) (size : Nat) : Option Cause :=
  if !u.spaceOk (space a) || !zeroBitsOk a then some .access
  else if a.toNat % size ≠ 0 then some .align
  else s.regionCheck a

/-- Checks of an X-slot access: space, region, alignment (R149). -/
def State.checkX (s : State) (a : Word) (size : Nat) : Option Cause :=
  if !Use.xload.spaceOk (space a) || !zeroBitsOk a then some .access
  else if (s.placeOf s.c a).isNone then some .access
  else if a.toNat % size ≠ 0 then some .align
  else none

/-- Checks of a V-slot access (R169). -/
def State.checkV (s : State) (u : Use) (a : Word) : Option Cause :=
  if !Use.load.spaceOk (space a) then some .access
  else if a.toNat % 64 ≠ 0 then some .align
  else if !u.spaceOk (space a) || !zeroBitsOk a then some .access
  else s.regionCheck a

/-! ## Doors (R211, R237, R377) -/

/-- The number of entries of a door, ordering tokens included (R323). -/
def doorLen (d : List DoorItem) : Nat := d.length

/-- Door by its code: input 0 to 31, output 32 to 47. -/
def Ctx.door (c : Ctx) (code : Nat) : List DoorItem :=
  if code < 32 then NMap.get [] c.doorsIn code else NMap.get [] c.doorsOut (code - 32)

/-- Entries that a door holds at most: 16, and 512 more for each pantry extension. -/
def Ctx.doorCap (c : Ctx) (code : Nat) : Nat :=
  16 + 512 * ((c.secs.map fun x => x.extDoors.count code).foldl (· + ·) 0)

def Ctx.doorRoom (c : Ctx) (code : Nat) : Bool := decide (doorLen (c.door code) < c.doorCap code)

def Ctx.letterbox (c : Ctx) (lb : Nat) : List Word := NMap.get [] c.letters lb

/-- Entries of a letterbox neither occupied nor granted (R237, R239). -/
def Ctx.letterRoom (c : Ctx) (lb : Nat) : Nat := 64 - (c.letterbox lb).length - NMap.get 0 c.granted lb

/-- The context of a tile that holds a task of a launch (R230, R238). -/
def State.taskOn (s : State) (launch tile : Nat) : Option Ctx :=
  s.ctxs.find? fun c => c.live && c.id.tile == tile && c.task.launch == launch
    && (c.task.stage == .ready || c.task.stage == .running)

/-- The same, whether the context is resident or pre-empted (R230, R238, R264). -/
def State.taskIn (s : State) (launch tile : Nat) : Option CtxId :=
  match s.taskOn launch tile with
  | some c => some c.id
  | none => (s.hub.saved.find? fun v => v.ctx.id.tile == tile && v.ctx.task.launch == launch
      && (v.ctx.task.stage == .ready || v.ctx.task.stage == .running)).map (·.ctx.id)

/-- The section on a handle of a context. -/
def Ctx.sec? (c : Ctx) (h : Nat) : Option Section := c.secs.find? fun x => x.handle == h

/-- Contexts, resident and pre-empted. -/
def State.everyCtx (s : State) : List Ctx := s.ctxs ++ s.hub.saved.map (·.ctx)

/-- Credits of a tile for a letterbox of a task of a launch (R239). -/
def Tile.creditsFor (t : Tile) (launch : Nat) (dst : CtxId) (lb : Nat) : Nat :=
  match t.credits.find? fun x => x.launch == launch && x.dst == dst && x.lb == lb with
  | some x => x.n
  | none => 0

/-! ## Staging of a bundle (R96, R97, R107) -/

def State.holdAll (s : State) (hs : List Hold) : State := { s with bundle := { s.bundle with holds := s.bundle.holds ++ hs } }

def State.hold (s : State) (h : Hold) : State := s.holdAll [h]

def State.raise (s : State) (slot : Nat) (cause : Cause) (tval : Word) : State :=
  { s with bundle := { s.bundle with traps := s.bundle.traps ++ [(slot, cause, tval)] } }

def State.stage (s : State) (w : BWrite) : State :=
  { s with bundle := { s.bundle with writes := s.bundle.writes ++ [w] } }

/-- Stage a register write; a write to a fixed register is discarded (R99). -/
def State.stageReg (s : State) (r : Reg) (val mask : Line) (lat : Nat) : State :=
  if r.fixed then s else s.stage (.reg r val mask lat)

def State.putS (s : State) (n : BitVec 6) (w : Word) (lat : Nat) : State := s.stageReg (s.regS n) (wordVal w) allBits lat
def State.putX (s : State) (n : BitVec 5) (w : Word) (lat : Nat) : State := s.stageReg (s.regX n) (wordVal w) allBits lat
/-- A scalar register written by a V syllable (R152). -/
def State.putRowS (s : State) (n : BitVec 6) (w : Word) (lat : Nat) : State :=
  if (s.regS n).fixed then s else s.stage (.rowReg (s.regS n) (wordVal w) allBits lat)
def State.putQ (s : State) (n : BitVec 4) (b : Bool) (lat : Nat) : State := s.stageReg (s.regQ n) (boolVal b) allBits lat
def State.putM (s : State) (n : Nat) (w : Word) (lat : Nat) : State := s.stageReg (.m n) (wordVal w) allBits lat
def State.putV (s : State) (n : BitVec 9) (v mask : Line) (lat : Nat) : State := s.stageReg (s.regV n) v mask lat

/-- Whether a register is the destination of an interlocked instruction in flight (R105). -/
def Ctx.claimed (c : Ctx) (r : Reg) : Bool := c.claims.any fun k => k.regs.contains r

/-- The first poisoned register of a list, with its origin (R216). -/
def Files.firstPoison (f : Files) : List Reg → Option (BitVec 32)
  | [] => none
  | r :: rest => if f.poisonOf r = 0 then f.firstPoison rest else some (f.poisonOf r)

/-- The hold of the claimed registers of a list: that of a waiting VGET's destination, if one is among them, since code 6
of Table 17.7 is for the other cases of the row (R171). -/
def Ctx.holdOf (c : Ctx) (rs : List Reg) : Hold :=
  if c.claims.any fun k => c.vgets.any (fun g => g.id == k.id) && rs.any fun r => !r.fixed && k.regs.contains r then .doorEmpty
  else .interlock

/-- The first row of Table 4.1 for a list of registers. -/
def Ctx.rowOne (c : Ctx) (rs : List Reg) : List Hold :=
  if rs.any (fun r => !r.fixed && c.claimed r) then [c.holdOf rs] else []

/-- The conditions of Table 4.1 for a syllable: the first row for its guard and destinations; nothing further under a guard
that is false or still to come (R97); the row for its sources, and the further rows that hold it. -/
def State.syllableHolds (s : State) (g : BitVec 4) (srcs dsts : List Reg) (busy : List Hold) : List Hold :=
  s.c.rowOne (s.regQ g :: dsts)
    ++ (if (!(s.regQ g).fixed && s.c.claimed (s.regQ g)) || !s.rdQ g then [] else s.c.rowOne srcs ++ busy)

/-- What every guarded syllable does before its own effect: the conditions of Table 4.1, busy the rows behind the first
that hold it now; nothing further under a false guard (R43, R97); POISON for a marked source (R216). -/
def State.syllableIf (s : State) (slot : Nat) (g : BitVec 4) (srcs dsts : List Reg) (busy : List Hold)
    (body : State → State) : State :=
  match s.syllableHolds g srcs dsts busy with
  | h :: hs => s.holdAll (h :: hs)
  | [] =>
    if !s.rdQ g then s
    else match s.c.files.firstPoison srcs with
      | some o => s.raise slot .poison (o.setWidth 64)
      | none => body s

/-- A syllable to which only the first row of Table 4.1 applies. -/
def State.syllable (s : State) (slot : Nat) (g : BitVec 4) (srcs dsts : List Reg) (body : State → State) : State :=
  s.syllableIf slot g srcs dsts [] body

/-! ## The writes of a bundle (R107) -/

/-- One write lands. -/
def landOne (c : Ctx) (p : PendW) : Ctx := { c with files := c.files.write p.reg p.val p.mask 0 }

/-- The writes in flight that have landed by a clk, and the others. A write lands with a later landing write of its
register, so that the writes of one register land in issue order (R104). -/
def splitDue (now : Nat) : List PendW → List PendW × List PendW
  | [] => ([], [])
  | p :: r =>
    let (l, k) := splitDue now r
    if p.due ≤ now ∨ l.any (fun q => q.reg == p.reg) then (p :: l, k) else (l, p :: k)

/-- Land every write whose latency has passed (R103). -/
def Ctx.landDue (c : Ctx) (now : Nat) : Ctx :=
  let (l, k) := splitDue now c.inflight
  { l.foldl landOne c with inflight := k }

/-- The writes in flight to some registers land, in issue order, before a later value of those registers does (R104). -/
def Ctx.landEarlier (c : Ctx) (rs : List Reg) : Ctx :=
  { (c.inflight.filter fun p => rs.contains p.reg).foldl landOne c with inflight := c.inflight.filter fun p => !rs.contains p.reg }

/-- Land the write at a place of the list, after the earlier writes of its register (R104). -/
def Ctx.landAt (c : Ctx) (i : Nat) : Ctx :=
  match c.inflight[i]? with
  | none => c
  | some p =>
    let early := (c.inflight.take (i + 1)).filter fun q => q.reg == p.reg
    let stay := (c.inflight.take (i + 1)).filter fun q => q.reg != p.reg
    { early.foldl landOne c with inflight := stay ++ c.inflight.drop (i + 1) }

/-- A later write removes the promise binding of its register (R142). -/
def Ctx.unbind (c : Ctx) (r : Reg) : Ctx :=
  match r with
  | .s n => { c with bindings := c.bindings.filter fun b => b.1 != n }
  | _ => c

/-- A system-register write as Table 4.6 lets the mode make it. The read-only fields of STATUS ignore what is written to
them in both modes: R111 says so of task mode only, and no bundle of a handler could write STATUS otherwise (log 24). -/
def SysRegs.mts (y : SysRegs) (n : SysReg) (v : Word) : SysRegs :=
  match n with
  | .status => if y.hm then { y with rm := v.setWidth 3, hm := v.getLsbD 4 } else { y with rm := v.setWidth 3 }
  | .tcause => { y with tcause := v.setWidth 8 }
  | .tpc => { y with tpc := v }
  | .tval => { y with tval := v }
  | .tbase => { y with tbase := v &&& ~~~31#64 }
  | .rpc => { y with rpc := v }
  | .rrb => { y with rrb := rrbStored v }
  | .lc => { y with lc := v }
  | .ec => { y with ec := v }
  | .olane => { y with olane := v.setWidth 8 }
  | .flags => { y with flags := flagsStored v }
  | .pwb => { y with pwb := v.setWidth 8 }
  | .vcur | .clk | .gtime | .partid | .tileid | .taskid | .split => y

/-- Whether a mode may write a system register at all (Table 4.6). -/
def mtsAllowed (hm : Bool) (n : SysReg) : Bool :=
  match n with
  | .status | .rpc | .rrb | .lc | .ec | .olane | .flags | .pwb => true
  | .tcause | .tpc | .tval | .tbase => hm
  | .vcur | .clk | .gtime | .partid | .tileid | .taskid | .split => false

/-- A taken transfer (R127, R134): outside the loop body it ends the frame. -/
def Ctx.jumpTo (c : Ctx) (target : Word) : Ctx :=
  let inBody := c.frame.start.toNat ≤ target.toNat ∧ target.toNat ≤ c.frame.stop.toNat
  { c with pc := target, frame := if inBody then c.frame else { c.frame with act := false } }

/-- The next bundle of a bundle that makes no transfer: the hardware loop, else the following one (R127, R133). hm: it
issued in handler mode, where end-of-body detection is off (R134). -/
def Ctx.fallThrough (c : Ctx) (pc : Word) (hm : Bool) : Ctx :=
  if c.frame.act ∧ pc = c.frame.stop ∧ !hm then
    if 1 < c.sys.lc.toNat then { c with sys := { c.sys with lc := c.sys.lc - 1 }, pc := c.frame.start }
    else { c with sys := { c.sys with lc := 0 }, frame := { c.frame with act := false }, pc := c.frame.stop + 32 }
  else { c with pc := pc + 32 }

/-- The end of a firing (R139, R369). The scheduler's part is in the tile (R140). -/
def Ctx.endFiring (c : Ctx) : Ctx :=
  { c with firing := false, hfiring := false, entry := .done, frame := { c.frame with act := false }, handling := none,
           sys := { c.sys with act := 0xFF, hm := false } }

/-- Return from a trap (R368): task mode, and the bundle at TPC. A target equal to RPC is a restart (R370); a target
equal to the trapping bundle suppresses its breakpoints once (R441); a return from BUDGET restarts the count (R421).
In a handler firing a zero target ends the firing (R369). -/
def Ctx.trapReturn (c : Ctx) (now : Nat) : Ctx :=
  let target := c.sys.tpc &&& ~~~31#64
  if c.hfiring && target == 0 then c.endFiring
  else
    let c := { c with sys := { c.sys with hm := false }, pc := target, notBefore := now + 3, handling := none,
                      skip := if target = c.trapAddr then some target else c.skip,
                      budgetCount := if c.sys.tcause &&& 0x7F = 17 then 0 else c.budgetCount }
    if target = c.sys.rpc then { c with replay := true, repAddr := c.trapAddr } else c

/-! ## Taking a trap (R365, R366) -/

/-- Cause numbers of Table 14.1. -/
def Cause.num : Cause → Nat
  | .illegal => 1 | .priv => 2 | .align => 3 | .access => 4 | .page => 5 | .once => 6 | .param => 7 | .poison => 8
  | .promise => 9 | .skew => 10 | .brk => 11 | .watch => 12 | .deadlock => 13 | .slotbusy => 14 | .orderwin => 15
  | .replayx => 16 | .budget => 17 | .soft => 18

/-- Whether every register write of the context has landed, claims among them (R140). -/
def Ctx.allLanded (c : Ctx) : Bool := c.inflight.isEmpty && c.landings.isEmpty && c.claims.isEmpty

/-- Whether a read that holds a claim waits on another agent, so that trap entry does not wait for it (R173): a word that
it touches is EMPTY; a vector load touches the words of its masked lanes. -/
def State.waitsOnAgent (s : State) (c : Ctx) (a : CoreAcc) : Bool :=
  let empty (addr : Word) (n : Nat) : Bool :=
    match s.placeOf c addr with
    | some (.stored key .once) => (wordKeys key n).any fun k => !s.isFull k
    | some (.stored key .sync) => a.acquire && (wordKeys key n).any fun k => !s.isFull k
    | _ => false
  match a.kind with
  | .vload _ m _ => a.deferred || (List.range (a.size / 8)).any fun i => elem 64 m i != 0 && empty (a.addr + BitVec.ofNat 64 (8 * i)) 8
  | .load .. => a.deferred || empty a.addr a.size
  | .bstep _ _ _ _ eb => a.deferred || empty a.addr a.size || empty eb a.size
  | .store .. | .empty | .atomic .. => false

/-- Whether an access will write a register. -/
def AccKind.hasDest : AccKind → Bool
  | .load .. | .vload .. | .atomic .. | .bstep .. => true
  | .store .. | .empty => false

/-- Whether every register write in flight from earlier bundles has landed, but for the claims of R173: those of a VGET
whose entry has not arrived, and of a read that waits on another agent (R109). -/
def State.drained (s : State) (c : Ctx) : Bool :=
  c.inflight.isEmpty && c.landings.isEmpty
    && c.claims.all fun q => c.vgets.any (fun g => g.id == q.id) || c.accs.any fun a => a.seq == q.id && s.waitsOnAgent c a

/-- Halt (R366): issue stops, and the report goes on the hub fault ring; TCAUSE, TVAL and TPC keep their values. The
built-in handling of the trap that was being handled ends: the partition manager names the address to resume at. -/
def State.haltCtx (s : State) (k : CtxId) (t : Trap) : State :=
  match s.ctx? k with
  | none => s
  | some c =>
    let s := s.hubFault 0 c.sys.partid.toNat k.tile k.num [BitVec.ofNat 64 t.cause.num, t.tval, t.pc]
    let s := s.trc 8 1 c [.word k.num, .word t.cause.num, .word 0]
    s.onCtx k fun c => { c with halted := some t.cause, trap := none, builtin := none }

/-- What TBASE = 0 makes of a cause (Table 14.1): a wait, or none for a halt. -/
def builtInOf (c : Ctx) (t : Trap) : Option BuiltIn :=
  match t.cause with
  | .promise => some (.promise ((c.bindings.find? fun b => Reg.s b.1 == physS c.sys.rrb (t.tval.toNat % 64)).map (·.2) |>.getD 0))
  | .skew => some .skew
  | .page => some (.page t.tval false)
  | _ => none

/-- TakeTrap (R365), once in-flight writes have landed: handler mode at TBASE, the built-in handling, or a halt. A third
trap taken under the replay flag is escalated (R370). The budget of a handler firing halts (R421). -/
def State.takeTrap (s : State) (k : CtxId) (t : Trap) : State :=
  match s.ctx? k with
  | none => s
  | some c =>
    if c.sys.hm then s.haltCtx k t
    else if c.replay && c.repCnt + 1 == 3 then s.haltCtx k { t with cause := .replayx }
    else if t.cause = .replayx then s.haltCtx k t
    else
      let c' := { c with
        trap := none
        trapAddr := t.pc
        handling := if t.async then some ⟨t.cause, t.tval⟩ else none
        repCnt := if c.replay then c.repCnt + 1 else c.repCnt
        sys := { c.sys with tcause := BitVec.ofNat 8 ((if t.async then 128 else 0) + t.cause.num), tval := t.tval,
                            tpc := t.pc, hm := true } }
      let s := s.trc 8 0 c [.word k.num, .word c'.sys.tcause.toNat, .long t.pc.toNat, .long t.tval.toNat]
      if c.sys.tbase = 0 then
        match builtInOf c t with
        | some b => s.onCtx k fun _ => { c' with builtin := some b }
        | none => (s.onCtx k fun _ => c').haltCtx k t
      else s.onCtx k fun _ => { c' with pc := c.sys.tbase, notBefore := if c.trap.isSome then c.notBefore else s.clk + 4 }

end Sys2Proof.Machine
end

