-- ==== Sys2Proof/Machine/Issue.lean ====
section
/-! DEFINITION. Issue of a bundle: what stops it, fetch, the writes of a bundle, traps, and one clk (R96 to R109, R127,
R364, R421, R440, R441). Step.lean runs the four syllables between prepare and finish. -/

namespace Sys2Proof.Machine

/-! ## The commit of the writes of a bundle -/

/-- Registers that an access will write. -/
def AccKind.regs : AccKind → List Reg
  | .load d _ _ _ => [d]
  | .vload d _ _ => [d]
  | .atomic _ _ d _ _ => [d]
  | .bstep _ lo hi _ _ => [lo, hi]
  | .store .. | .empty => []

/-- An access takes its place in the issue order; its destinations become interlocked (R105, R309). -/
def Ctx.addAccess (c : Ctx) (a : CoreAcc) (now : Nat) : Ctx :=
  let a := { a with seq := c.seq, bundle := c.bundleNo, issued := now }
  let regs := a.kind.regs.filter fun r => !r.fixed
  let c := { c with accs := c.accs ++ [a], seq := c.seq + 1 }
  if a.kind.hasDest then { regs.foldl Ctx.unbind c with claims := c.claims ++ [⟨a.seq, regs⟩] } else c

/-- Stream slots of a tile in use (R218, R220): those of its queue, of accepted commands, of records that wait. -/
def State.slotsUsed (s : State) (t : Nat) : List Nat :=
  (s.tile t).queue.filterMap (·.slot)
    ++ (s.ctxs.filter fun c => c.id.tile == t).flatMap fun c =>
        c.runs.filterMap (·.cmd.slot) ++ c.cqs.flatMap fun q => q.2.waiting.filterMap (·.slot)

/-- The lowest-numbered free slot of a tile. -/
def State.freeSlot (s : State) (t : Nat) : Option Nat :=
  let used := s.slotsUsed t
  (List.range 48).find? fun i => !used.contains i

/-- Slots that a context holds. -/
def State.slotsHeld (s : State) (c : Ctx) : Nat :=
  ((s.tile c.id.tile).queue.filter fun m => m.ctx == c.id && m.slot.isSome).length
    + (c.runs.filter fun r => r.cmd.slot.isSome).length
    + (c.cqs.map fun q => (q.2.waiting.filter fun w => w.slot.isSome).length).foldl (· + ·) 0

/-- The views of a partition, by set (R335). -/
def State.viewOf (s : State) (p : Nat) : NMap Nat :=
  s.hub.views.filterMap fun v => if v.1 / 64 = p then some (v.1 % 64, v.2) else none

/-- The STAGING slot, plus one, of each set that a partition owns. -/
def State.stagingOf (s : State) (p : Nat) : NMap Nat :=
  s.hub.wslot.filterMap fun w =>
    if w.2.st = 1 ∧ wordField (NMap.get 0 s.hub.wset (w.1 / 4)) 59 4 = p then some (w.1 / 4, w.1 % 4 + 1) else none

/-- Whether a command makes memory accesses that its lane orders (R313); control reads (R468) are none. -/
def laneAccess : Instr → Bool
  | .saff _ | .saffw _ | .sind _ | .sindw _ | .sfill _ | .smcast _ | .sremw _ | .srema _ | .scirc _ | .scopy _
  | .scopyc _ | .gath _ | .scat _ | .greplay _ | .swload _ | .scoll _ => true
  | _ => false

/-- Whether it writes memory (R359): the accesses of the others are reads. -/
def laneWrites : Instr → Bool
  | .saffw _ | .sindw _ | .sfill _ | .sremw _ | .srema _ | .scopy _ | .scopyc _ | .gath _ | .scat _ | .greplay _ | .scoll _ => true
  | .scirc f => decide (32 ≤ f.door.toNat)
  | _ => false

/-- A command enters the tile's command queue with its slot and its views (R218, R219, R335); its promise register becomes interlocked and bound (R142). -/
def State.submit (s : State) (k : CtxId) (cmd : Command) : State :=
  match s.ctx? k with
  | none => s
  | some c =>
    let isSwitch := match cmd.op with
      | .svsw _ => true
      | _ => false
    let n := if isSwitch then c.task.switches + 1 else c.task.switches
    let posted := match cmd.op with
      | .spost f => let i := f.imm.toNat / 2 ^ 8 % 128 * 16 + f.imm.toNat % 16
        NMap.set 0 c.posted i (NMap.get 0 c.posted i + 1)
      | _ => c.posted
    let cmd := { cmd with ctx := k, seq := c.seq, slot := if cmd.slot.isSome then s.freeSlot k.tile else none,
                          epoch := n, view := s.viewOf c.sys.partid.toNat, staging := s.stagingOf c.sys.partid.toNat }
    let s := s.onTile k.tile fun t => { t with queue := t.queue ++ [cmd] }
    s.onCtx k fun c =>
      let c := { c with seq := c.seq + 1, posted := posted, opens := c.opens ++ [⟨cmd.seq, cmd.f.lane, laneAccess cmd.op, c.bundleNo, false, laneWrites cmd.op⟩],
                        task := { c.task with switches := n } }
      match cmd.prom with
      | none => c
      | some n => { c with claims := c.claims ++ [⟨cmd.seq, [.s n]⟩],
                           bindings := (n, cmd.seq) :: c.bindings.filter fun b => b.1 != n }

/-- Whether the next entry that a VGET claims is the first behind an ordering token: skip is the number of entries that
earlier claims take (R322). -/
def behindToken : List DoorItem → Nat → Bool → Bool
  | [], _, afterTok => afterTok
  | .token .. :: r, n, _ => behindToken r n true
  | .entry .. :: r, n, afterTok =>
    match n with
    | 0 => afterTok
    | n + 1 => behindToken r n false

def isEntry : DoorItem → Bool
  | .entry .. => true
  | .token .. => false

/-- Whether an SORD of a context for an output door waits in the command queue of its tile. -/
def State.sordWaits (s : State) (k : CtxId) (door : Nat) : Bool :=
  (s.tile k.tile).queue.any fun m => m.ctx == k && (match m.op with
    | .sord f => f.door.toNat == door + 32
    | _ => false)

/-- A VGET claims the oldest unclaimed entry of an output door (R171). sord: an SORD for the door waits to be accepted. -/
def Ctx.addVget (c : Ctx) (door : Nat) (dst : Reg) (mask : Line) (sord : Bool) : Ctx :=
  let earlier := (c.vgets.filter fun g => g.door == door).length
  let items := NMap.get [] c.doorsOut door
  let g : VgetClaim := ⟨c.seq, door, dst, mask, behindToken items earlier (c.afterTok.contains door),
    c.seq, c.bundleNo, sord && decide ((items.filter isEntry).length ≤ earlier)⟩
  { c with vgets := c.vgets ++ [g], claims := c.claims ++ [⟨c.seq, [dst]⟩], seq := c.seq + 1 }

/-- VPUT pushes an entry with a band of zeros (R172, R212). -/
def Ctx.pushIn (c : Ctx) (door : Nat) (e : DoorEntry) (now : Nat) : Ctx :=
  { c with doorsIn := NMap.set [] c.doorsIn door (NMap.get [] c.doorsIn door ++ [.entry e now]) }

/-- What the scheduler does at the end of an actor's firing (R33, R420): heads of its letterbox and FIFO inputs and tails
of its FIFO outputs advance; the actor's counts; after its last firing its node ends. -/
def Ctx.actorEnds (c : Ctx) : Ctx :=
  match c.task.nodes.find? fun n => n.kind == 0 && n.actor == c.task.actor with
  | none => c
  | some n =>
    let fifos := c.task.fifos.zipIdx.map fun (f, i) =>
      { f with head := f.head + ((n.ins.filter fun p => p.kind == 3 && p.num == i).map (·.amount)).foldl (· + ·) 0,
               tail := f.tail + ((n.outs.filter fun p => p.kind == 3 && p.num == i).map (·.amount)).foldl (· + ·) 0 }
    let letters := (n.ins.filter fun p => p.kind == 2).foldl (fun l p => NMap.set [] l p.num ((NMap.get [] l p.num).drop p.amount)) c.letters
    let n' := { n with fired := n.fired + 1, firings := n.firings + 1, since := none, ended := decide (n.count ≤ n.fired + 1) }
    { c with letters := letters,
             task := { c.task with fifos := fifos, nodes := c.task.nodes.map fun m => if m.num = n.num then n' else m } }

/-- n free dwords (log 2). -/
def State.drawWords (s : State) : Nat → List Word × State
  | 0 => ([], s)
  | n + 1 =>
    let (v, s) := s.draw (2 ^ 64)
    let (r, s) := s.drawWords n
    (BitVec.ofNat 64 v :: r, s)

/-- The tail of a letterbox output advances by its space at EXIT (R33). The tokens that the firing posted to it stand, or
will stand, in as many of those places; the others hold values that no rule gives, as far as the letterbox has entries,
or the tile credits, for them (log 26). -/
def State.fillOutput (s : State) (k : CtxId) (p : ActPort) : State :=
  match s.ctx? k with
  | none => s
  | some c =>
    match s.taskOn c.task.launch p.tile with
    | none => s
    | some d =>
      let near := p.tile == k.tile
      let room := if near then d.letterRoom p.num else (s.tile k.tile).creditsFor c.task.launch d.id p.num
      let n := Nat.min (p.amount - NMap.get 0 c.posted (p.tile * 16 + p.num)) room
      let (ws, s) := s.drawWords n
      let s := s.onCtx d.id fun d =>
        { d with letters := NMap.set [] d.letters p.num (d.letterbox p.num ++ ws),
                 granted := if near then d.granted else NMap.set 0 d.granted p.num (NMap.get 0 d.granted p.num - n) }
      if near then s
      else s.onTile k.tile fun t => { t with credits := t.credits.map fun x =>
        if x.launch = c.task.launch ∧ x.dst = d.id ∧ x.lb = p.num then { x with n := x.n - n } else x }

/-- The letterbox outputs of the actor whose firing ends. -/
def Ctx.letterOutputs (c : Ctx) : List ActPort :=
  match c.task.nodes.find? fun n => n.kind == 0 && n.actor == c.task.actor with
  | none => []
  | some n => n.outs.filter fun p => p.kind == 2

/-- The end of a firing: no bundle of the tile's next firing issues for 2 clk (R140). advance: an actor's EXIT. -/
def State.firingEnds (s : State) (k : CtxId) (n : Nat) (advance : Bool) : State :=
  match s.ctx? k with
  | none => s
  | some c =>
    let s := s.trc 10 3 c [.word k.num, .word (if c.hfiring then c.sys.act.toNat else c.task.actor), .long n]
    let s := if advance ∧ !c.hfiring then c.letterOutputs.foldl (fun s p => s.fillOutput k p) s else s
    (s.onTile k.tile fun t => { t with firingFrom := n + 2 }).onCtx k fun c =>
      (if advance ∧ !c.hfiring then c.actorEnds else c).endFiring

/-- One write of a bundle of context k that issued at clk n; the stage write is left to the end (R136). -/
def State.commitWrite (s : State) (k : CtxId) (n : Nat) (w : BWrite) : State :=
  match w with
  | .reg r val mask lat => s.onCtx k fun c => { c.unbind r with inflight := c.inflight ++ [⟨r, val, mask, n + lat, false⟩] }
  | .rowReg r val mask lat => s.onCtx k fun c => { c.unbind r with inflight := c.inflight ++ [⟨r, val, mask, n + lat, true⟩] }
  | .sys y v => s.onCtx k fun c => { c with sys := c.sys.mts y v }
  | .flags f sc => s.onCtx k fun c => { c with sys := { c.sys with flags := flagsContribute c.sys.flags f sc } }
  | .pwb b => s.onCtx k fun c => { c with sys := { c.sys with pwb := c.sys.pwb ||| b } }
  | .access a => s.onCtx k fun c => c.addAccess a n
  | .command cmd => s.submit k cmd
  | .rpc a => s.onCtx k fun c => { c with sys := { c.sys with rpc := a } }
  | .jump t d => s.onCtx k fun c => { c.jumpTo t with notBefore := n + d }
  | .frame a b act => s.onCtx k fun c => { c with frame := ⟨a, b, act⟩ }
  | .lc v => s.onCtx k fun c => { c with sys := { c.sys with lc := v } }
  | .ec v => s.onCtx k fun c => { c with sys := { c.sys with ec := v } }
  | .rotate => s.onCtx k fun c => { c with sys := { c.sys with rrb := rrbRotated c.sys.rrb } }
  | .stage _ => s
  | .exit => s.firingEnds k n true
  | .tret =>
    match s.ctx? k with
    | none => s
    | some c =>
      let s := s.trc 8 0 c [.word k.num, .word c.sys.tcause.toNat, .long c.sys.tpc.toNat, .long c.sys.tval.toNat]
      if c.hfiring ∧ wordField c.sys.tpc 5 59 = 0 then s.firingEnds k n false else s.onCtx k fun c => c.trapReturn n
  | .vget d r m => s.onCtx k fun c => c.addVget d r m (s.sordWaits k d)
  | .vput d v => s.onCtx k fun c => c.pushIn d ⟨v, 0, 0⟩ n
  | .syncf i cf => s.onCtx k fun c => { c with syncf := some (c.seq, i, cf), notBefore := n + 4 }

/-- Whether a bundle's writes choose its next bundle themselves (R127 rules 1 and 2, R368). -/
def BWrite.transfers : BWrite → Bool
  | .jump .. | .exit | .tret => true
  | _ => false

/-- Whether a write of a bundle follows those of its other syllables: the end of a firing, a return (R139, R368). -/
def BWrite.last : BWrite → Bool
  | .exit | .tret => true
  | _ => false

/-- The stage write of BRTOP, on the physical predicate under the new bases (R135, R136). -/
def Ctx.stageWrite (c : Ctx) (n : Nat) (w : BWrite) : Ctx :=
  match w with
  | .stage b =>
    let r := physQ c.sys.rrb (8 + Nat.max (rrbQrs c.sys.rrb) 1 - 1)
    { c with inflight := c.inflight ++ [⟨r, boolVal b, allBits, n + 1, false⟩] }
  | _ => c

/-- The replay ends when its bundle, or a restart point other than RPC, issues without trapping (R370). -/
def Ctx.replayEnds (c : Ctx) (pc : Word) (rp : Bool) : Ctx :=
  if c.replay && (pc == c.repAddr || (rp && pc != c.sys.rpc)) then { c with replay := false, repCnt := 0 } else c

/-- All the writes of a bundle at pc that issued at clk n without trapping (R107): RPC and the replay, the syllables'
writes in slot order, EXIT and TRET after the others, the hardware loop, then the stage predicate. -/
def State.commit (s : State) (k : CtxId) (n : Nat) (pc : Word) (rp : Bool) (ws : List BWrite) : State :=
  let hm := (s.ctx? k).any (·.sys.hm)
  let s := s.onCtx k fun c =>
    let c := { c.replayEnds pc rp with skip := if c.skip = some pc then none else c.skip }
    if rp then { c with sys := { c.sys with rpc := pc } } else c
  let s := (ws.filter (fun w => !w.last) ++ ws.filter BWrite.last).foldl (fun t w => t.commitWrite k n w) s
  s.onCtx k fun c =>
    let c := if ws.any BWrite.transfers then c else c.fallThrough pc hm
    let c := ws.foldl (fun c w => c.stageWrite n w) c
    { c with bundleNo := c.bundleNo + 1 }

/-! ## Decision of a bundle (R107 to R109) -/

/-- The stores of a bundle that go to ONCE regions (R293). -/
def State.onceStores (s : State) (c : Ctx) (ws : List BWrite) : List CoreAcc :=
  ws.filterMap fun w =>
    match w with
    | .access a =>
      match a.kind, s.placeOf c a.addr with
      | .store .., some (.stored _ .once) => some a
      | _, _ => none
    | _ => none

/-- The trap of a bundle: ILLEGAL, else the first trapping syllable in slot order (R109). -/
def firstTrap (ts : List (Nat × Cause × Word)) : Option (Nat × Cause × Word) :=
  match ts.find? (fun t => t.2.1 == .illegal) with
  | some t => some t
  | none => (List.range 4).findSome? fun i => ts.find? fun t => t.1 == i

/-- A trap is decided; it is entered at once when nothing is in flight, else when the last write has landed (R365). -/
def State.decideTrap (s : State) (k : CtxId) (t : Trap) : State :=
  match s.ctx? k with
  | none => s
  | some c => if s.drained c then s.takeTrap k t else s.onCtx k fun c => { c with trap := some t, notBefore := s.clk + 4 }

/-- Watchpoints (R441): whether unit n of a tile matches an access of a context. A store accesses the bytes that it writes. -/
def watchMatch (t : Tile) (c : Ctx) (task : Nat) (n : Nat) (a : CoreAcc) : Bool :=
  let w := NMap.get 0 t.wctl n
  let len := 2 ^ wordField w 53 3
  let lo := (NMap.get 0 t.waddr n).toNat / len * len
  let isW := match a.kind with
    | .store .. | .empty | .atomic .. => true
    | _ => false
  let isR := match a.kind with
    | .store .. | .empty => false
    | _ => true
  let used (i : Nat) : Bool := match a.kind with
    | .store _ m _ => elem 8 m i != 0
    | _ => true
  let meets (x : Word) : Bool := (List.range a.size).any fun i => used i && decide (lo ≤ x.toNat + i) && decide (x.toNat + i < lo + len)
  wordField w 63 1 == 1 && wordField w 32 4 == c.sys.partid.toNat && (wordField w 47 1 == 1 || wordField w 0 32 == task % 2 ^ 32)
    && !c.sys.hm && !c.hfiring && (NMap.get 0 t.wact n).getLsbD c.sys.act.toNat
    && ((wordField w 62 1 == 1 && isW) || (wordField w 61 1 == 1 && isR))
    && (meets a.addr || (match a.kind with
        | .bstep _ _ _ _ eb => meets eb
        | _ => false))

/-- Breakpoints (R441): the lowest unit that matches a bundle address. -/
def breakUnit (t : Tile) (c : Ctx) (pc : Word) : Option Nat :=
  (List.range 8).find? fun n =>
    let w := NMap.get 0 t.bctl n
    wordField w 63 1 == 1 && wordField w 32 4 == c.sys.partid.toNat
      && (wordField w 47 1 == 1 || wordField w 0 32 == c.sys.taskid.toNat % 2 ^ 32) && !c.sys.hm && !c.hfiring
      && (NMap.get 0 t.bact n).getLsbD c.sys.act.toNat
      && (NMap.get 0 t.baddr n >>> 5) == (pc >>> 5)

/-- The watchpoint traps of the staged accesses. -/
def State.watchTraps (s : State) (pc : Word) : List (Nat × Cause × Word) :=
  if s.c.skip = some pc then []
  else s.bundle.writes.filterMap fun w =>
    match w with
    | .access a =>
      ((List.range 8).find? fun n => watchMatch s.myTile s.c s.c.sys.taskid.toNat n a).map
        fun n => (a.slot, .watch, BitVec.ofNat 64 n)
    | _ => none

/-- Place of a hold in Table 4.1, whose first condition is the one reported (R97). Within the first row code 6 of Table
17.7 stands for the cases that are neither a VGET's nor a VPUT's; which of these two goes first is the model's, and that a
wait of the last row goes before the grant that the same row lists (log 36). -/
def Hold.rank : Hold → Nat
  | .doorEmpty => 0 | .doorFull => 1 | .interlock => 2 | .row0 => 3 | .slotShare => 4 | .queueFull => 5 | .syncf => 6
  | .decision => 7 | .sleep | .time | .join => 8 | .grant => 9

def firstHold (h : Hold) (hs : List Hold) : Hold := hs.foldl (fun a b => if b.rank < a.rank then b else a) h

/-- What comes of the bundle once its four syllables have read: it waits, traps, waits for a bank's reply, or makes all
its writes (R96, R107, R108). A bundle that waits takes no trap in that clk, SKEW of a WAITG.L beside another condition
of Table 4.1 among them: R144 does not say which goes first (log 24). -/
def State.finish (s : State) (rp : Bool) : State :=
  let b := { s.bundle with traps := s.bundle.traps ++ s.watchTraps s.bundle.pc }
  let k := s.c.id
  let s := { s with bundle := {} }
  match b.holds with
  | h :: hs => { s with c := { s.c with stall := some (firstHold h hs) } }
  | [] =>
    let s := { s with c := { s.c with stall := none } }
    match firstTrap b.traps with
    | some t => s.decideTrap k ⟨t.2.1, false, t.2.2, b.pc⟩
    | none =>
      match s.onceStores s.c b.writes with
      | [] => s.commit k s.clk b.pc rp b.writes
      | st => { s with c := { s.c with undecided := some ⟨b.pc, rp, s.clk, st.map (·, none), b.writes⟩ } }

/-! ## Before the bundle issues -/

/-- Bytes that a fetch from a key returns: those of memory, or for a sector written and not synchronised any of the
bytes it held since, as a free choice (R45). -/
def State.fetchBytes (s : State) (key : Nat) : List Byte × State :=
  let old := s.c.stale.filter fun p => p.key == key
  match old with
  | [] => (s.bytesAt key 32, s)
  | _ =>
    let (i, s) := s.draw (old.length + 1)
    match old[i]? with
    | some p => (p.bytes, s)
    | none => (s.bytesAt key 32, s)

/-- A bundle ready to run: its syllables and RP. -/
inductive Plan where
  /-- No bundle issues in this clk. -/
  | idle (s : State)
  | run (s : State) (b : Bundle) (rp : Bool)
  /-- The decision of the bundle before it is not made: t is the state that follows it if no trap comes, in which the next
  bundle reads for the conditions that hold it besides (R97). -/
  | look (s t : State) (b : Bundle)

def State.stalled (s : State) (h : Hold) : State := { s with c := { s.c with stall := some h } }

/-- SYNCF is complete: .I lets fetch see every store; .C drops from the configuration cache the images of the context
whose bytes its stores have changed, other than those of live sections (R124, R185). -/
def State.syncDone (s : State) (instr config : Bool) : State :=
  let k := s.c.id
  let changed (x : Cached) : Bool :=
    x.owner == k && s.c.dirty.any x.lines.contains
  let s := if config then s.onTile k.tile fun t => { t with cached := t.cached.filter fun x => !changed x } else s
  { s with c := { s.c with syncf := none, stale := if instr then [] else s.c.stale, dirty := if config then [] else s.c.dirty } }

/-- Whether an access is a store, an EMPTY or an atomic of the S or V slot. -/
def AccKind.stores : AccKind → Bool
  | .store .. | .empty | .atomic .. => true
  | _ => false

def AccKind.isAtomic : AccKind → Bool
  | .atomic .. => true
  | _ => false

/-- Whether the stores that a SYNCF waits for are complete (R124). -/
def Ctx.syncReady (c : Ctx) : Bool :=
  match c.syncf with
  | none => true
  | some (n, _, _) => c.accs.all fun a => !a.kind.stores || decide (n ≤ a.seq)

/-- Whether a section of a context of a tile waits for its first current grant (Table 4.1, R435; log 24). -/
def State.grantWait (s : State) (tile : Nat) : Bool :=
  s.ctxs.any fun c => c.live && c.id.tile == tile && c.secs.any fun x => x.wants != 0 && x.grant == 0

/-- The conditions of Table 4.1 that hold every syllable of the next bundle whatever it is: SYNCF, a decision that is not
made, a grant (R108, R124, R125). -/
def State.standing (s : State) : List Hold :=
  (if s.c.syncf.isSome && (!s.c.syncReady || decide (s.clk < s.c.notBefore)) then [.syncf] else [])
    ++ (if s.c.accs.any fun a => a.kind.isAtomic then [.decision] else [])
    ++ (if s.grantWait s.c.id.tile then [.grant] else [])

/-- Fetch and decoding of the bundle at pc (R40, R63), and its breakpoint (R441). Its syllables run beside the conditions
that hold it already, which the reason reported is chosen among; a bundle that is held takes no trap. -/
def State.fetch (s : State) : Plan :=
  let c := s.c
  let held := s.standing
  let sync (s : State) : State := match c.syncf with
    | some (_, i, cf) => if held.contains .syncf then s else s.syncDone i cf
    | none => s
  let s := sync s
  let pc := c.pc
  let trap (s : State) (t : Trap) : Plan := match held with
    | [] => .idle (s.decideTrap c.id t)
    | h :: hs => .idle (s.stalled (firstHold h hs))
  if space pc ≠ 2 ∨ !zeroBitsOk pc ∨ (s.myTile.regionOf c.id.num (wordField pc 0 23)).isNone then
    trap s ⟨.access, false, pc, pc⟩
  else
    let (bytes, s) := s.fetchBytes (tileKey c.id.tile (wordField pc 0 23))
    let w := bundleWords bytes
    match decodeBundle w with
    | .error tv => trap s ⟨.illegal, false, BitVec.ofNat 64 tv, pc⟩
    | .ok b =>
      match (if c.skip = some pc then none else breakUnit s.myTile c pc) with
      | some n => trap s ⟨.brk, false, BitVec.ofNat 64 n, pc⟩
      | none => .run { s with bundle := { pc := pc, holds := held } } b (restartPoint w)

/-- Whether the current context may issue at all: a firing in progress, not halted, no trap or reply awaited. The clks
after a SYNCF are a condition of Table 4.1 (R125), which State.standing looks at. -/
def Ctx.canIssue (c : Ctx) (now : Nat) : Bool :=
  c.live && c.firing && c.halted.isNone && c.resume.isNone && c.trap.isNone && c.undecided.isNone && c.builtin.isNone && c.task.draining.isNone
    && (decide (c.notBefore ≤ now) || c.syncf.isSome)

/-! ## The first bundle of a firing (R32, R140) -/

/-- The registers that are unpredictable at entry (R32). -/
def looseRegs : List Reg :=
  ((List.range 24).map fun i => Reg.s (8 + i)) ++ ((List.range 15).map fun i => Reg.q (1 + i)) ++ ((List.range 15).map fun i => Reg.m (1 + i))

/-- The values that those registers hold at the end of a firing are kept beside those of the earlier ones. -/
def Ctx.remember (c : Ctx) : Ctx :=
  { c with past := looseRegs.foldl (fun l r =>
      if c.files.read r = 0 ∨ (r, c.files.read r) ∈ l then l else l ++ [(r, c.files.read r)]) c.past }

/-- Each of some registers holds zero or the value that it had at the end of some earlier firing of the task, as a free
choice (R32). -/
def State.loosen (s : State) (k : CtxId) : List Reg → State
  | [] => s
  | r :: rest =>
    let vals : List Line := match s.ctx? k with
      | some c => 0 :: (c.past.filter fun p => p.1 == r).map (·.2)
      | none => [0]
    let (i, s) := s.draw vals.length
    (s.onCtx k fun c => if c.files.read r = vals.getD i 0 then c
      else { c with files := c.files.write r (vals.getD i 0) allBits 0 }).loosen k rest

/-- Whether the first bundle of a firing may issue: 2 clk after the last EXIT of the tile, with every write of an ended
firing landed, claims among them (R140, R173). The first bundle of a handler firing does not wait for the loads that trap
entry does not wait for either (R173, log 11). -/
def State.entryClear (s : State) (c : Ctx) : Bool :=
  let landed (d : Ctx) : Bool := if c.entry = .handler then s.drained d else d.allLanded
  decide ((s.tile c.id.tile).firingFrom ≤ s.clk)
    && s.ctxs.all fun d => !d.live || d.id.tile != c.id.tile
        || (if d.id = c.id then c.entry == .resumed || landed d else d.firing || landed d)

/-- The first bundle of a firing of the current context: a new actor firing finds its unpredictable registers and its
arguments (R32, Table 1.5). -/
def State.enter (s : State) : State :=
  match s.c.entry with
  | .done => s
  | .resumed => { s with c := { s.c with entry := .done } }
  | .handler => { s with c := { s.c.remember with entry := .done } }
  | .actor args =>
    let s : State := { s with c := { s.c.remember with entry := .done } }
    (s.loosen s.c.id looseRegs).onCtx s.c.id fun c =>
      { c with files := args.zipIdx.foldl (fun (f : Files) (v, i) => f.write (.s (1 + i)) (wordVal v) allBits 0) c.files }

/-- Whether the first bundle of a firing is still to come, in the mode in which the firing began. -/
def Ctx.atEntry (c : Ctx) : Bool := c.entry != .done && (c.entry == .handler || !c.sys.hm)

/-- The firing budget is reached (R421): BUDGET before the bundle at pc, or in a handler firing a halt. -/
def State.takeBudget (s : State) (k : CtxId) : State :=
  match s.ctx? k with
  | none => s
  | some c =>
    let t : Trap := ⟨.budget, false, BitVec.ofNat 64 c.budget, c.pc⟩
    let s := s.trc 10 4 c [.word k.num, .word c.task.actor, .long c.pc.toNat]
    if c.hfiring then s.haltCtx k t else s.decideTrap k t

/-- The next bundle while the decision of the last one is not made (R97, R108). -/
def State.lookAhead (s : State) (u : Undecided) : Plan :=
  let t := { s with c := { s.c with undecided := none } }
  let t := (t.commit t.c.id u.issued u.pc u.rp u.writes).onCtx t.c.id fun c => c.landDue t.clk
  let none_ := Plan.idle (s.stalled .decision)
  if !t.c.canIssue t.clk || t.c.atEntry then none_
  else match t.fetch with
    | .run t b _ => .look s t b
    | .idle _ | .look .. => none_

/-- What precedes the syllables of the next bundle of the current context: an asynchronous event or BUDGET is taken
first in task mode (R364, R421), before the bundle is decoded, so also where it is illegal (log 24); the first bundle of a
firing waits for R140; then fetch. -/
def State.prepare (s : State) : Plan :=
  let c := s.c
  if !c.canIssue s.clk then
    match c.undecided with
    | some u => if { c with undecided := none }.canIssue s.clk then s.lookAhead u else .idle s
    | none => .idle s
  else match (if c.sys.hm then [] else c.events) with
    | e :: rest =>
      if s.drained c then
        .idle ({ s with c := { c with events := rest } }.takeTrap c.id ⟨e.cause, true, e.tval, c.pc⟩)
      else .idle s
    | [] =>
      if !c.sys.hm && decide (c.budget ≤ c.budgetCount) then
        .idle (s.takeBudget c.id)
      else if c.atEntry then (if s.entryClear c then s.enter.fetch else .idle (s.stalled .interlock))
      else s.fetch

/-! ## Readiness of actors (R32) -/

/-- The entries of a door that stand before a closed ordering token, behind which every consumer finds the door empty
(R323). -/
def Ctx.entriesIn (c : Ctx) (code : Nat) : Nat :=
  (((c.door code).takeWhile fun d => match d with
    | .token _ _ false _ => false
    | _ => true).filter isEntry).length

/-- Whether an input holds its count; a letterbox on which a template is armed feeds no actor (R237). -/
def Ctx.inputReady (c : Ctx) (p : ActPort) : Bool :=
  match p.kind with
  | 1 => decide (p.amount ≤ c.entriesIn p.num)
  | 2 => !(c.tmpls.any fun t => t.lb == p.num) && decide (p.amount ≤ (c.letterbox p.num).length)
  | 3 => match c.task.fifos[p.num]? with
    | some q => decide (p.amount ≤ q.tail - q.head)
    | none => false
  | _ => true

/-- Whether an output has its space; for another tile's letterbox that is the credit the tile holds. -/
def State.outputReady (s : State) (c : Ctx) (p : ActPort) : Bool :=
  match p.kind with
  | 1 => decide (doorLen (c.door p.num) + p.amount ≤ c.doorCap p.num)
  | 2 =>
    match s.taskOn c.task.launch p.tile with
    | none => false
    | some d => if p.tile = c.id.tile then decide (p.amount ≤ d.letterRoom p.num)
        else decide (p.amount ≤ (s.tile c.id.tile).creditsFor c.task.launch d.id p.num)
  | 3 => match c.task.fifos[p.num]? with
    | some q => decide (q.tail - q.head + p.amount ≤ q.cap)
    | none => false
  | _ => true

/-- Whether a node is an actor that may fire (R32, R420). -/
def State.actorReady (s : State) (c : Ctx) (n : GNode) : Bool :=
  n.kind == 0 && n.armed && !n.ended && n.ins.all c.inputReady && n.outs.all (s.outputReady c)

/-- The clk since which each actor of a context is ready. -/
def State.refreshActors (s : State) (c : Ctx) : Ctx :=
  let one (n : GNode) : GNode :=
    if n.kind ≠ 0 then n
    else if !s.actorReady c n then { n with since := none, passed := 0 }
    else if n.since.isNone then { n with since := some s.clk } else n
  if !c.live || c.task.stage != .running then c else { c with task := { c.task with nodes := c.task.nodes.map one } }

/-! ## One clk -/

/-- The entry at the head of an output door goes to the oldest VGET that claims it; an open ordering token at the head
is removed (R171, R323). fuel bounds the items looked at. -/
def Ctx.serveDoor (c : Ctx) (door now : Nat) : Nat → Ctx
  | 0 => c
  | fuel + 1 =>
    match NMap.get [] c.doorsOut door with
    | .token _ _ true _ :: r =>
      Ctx.serveDoor { c with doorsOut := NMap.set [] c.doorsOut door r,
                             afterTok := if c.afterTok.contains door then c.afterTok else c.afterTok ++ [door] } door now fuel
    | .entry e since :: r =>
      match c.vgets.find? fun g => g.door == door with
      | none => c
      | some g =>
        let l : Landing := ⟨g.id, [(g.dst, if e.poison = 0 then e.data else 0, g.mask)], e.poison,
          Nat.max (since + 2) (now + 1), door + 1,
          if g.acquire || c.afterTok.contains door then some g.bundle else none⟩
        Ctx.serveDoor { c with doorsOut := NMap.set [] c.doorsOut door r,
                               vgets := c.vgets.filter (fun h => h.id != g.id), afterTok := c.afterTok.filter (· != door),
                               landings := c.landings ++ [l] } door now fuel
    | _ => c

/-- The VGETs of every output door with a claim or a token. -/
def Ctx.serveDoors (c : Ctx) (now : Nat) : Ctx :=
  c.doorsOut.foldl (fun c p => c.serveDoor p.1 now (p.2.length + 1)) c

/-- A section gathers credit by its grant: a systolic one up to one row (R273); a dataflow one up to what it wants, and in
a clk in which it has that much its PEs may fire and the credit is spent (R435). -/
def Section.gain (x : Section) : Section :=
  match x.sys with
  | some _ => { x with credit := Nat.min (x.credit + x.grant) ((208 * x.pr * x.pc + 11) / 12) }
  | none =>
    let full := decide (x.wants ≤ x.credit + x.grant)
    { x with powered := full, credit := if full then 0 else x.credit + x.grant }

/-- One clk of a context: due writes land, doors serve VGETs, credit gathers (R103, R171, R273). The budget of a firing
counts each clk of task mode while the context is resident: also while it waits to go on or is halted (R421). -/
def Ctx.tick (c : Ctx) (now : Nat) : Ctx :=
  let c := (c.landDue now).serveDoors now
  let c := { c with secs := c.secs.map Section.gain }
  if c.live && (c.firing || c.resume.isSome) && !c.sys.hm then { c with budgetCount := c.budgetCount + 1 } else c

/-- The open ordering tokens that the doors of a context have removed from their heads: door and lane. -/
def Ctx.tokensGone (before after : Ctx) : List (Nat × BitVec 8) :=
  before.doorsOut.flatMap fun d => d.2.filterMap fun i => match i with
    | .token l _ _ _ => if (NMap.get [] after.doorsOut d.1).contains i then none else some (d.1, l)
    | .entry .. => none

/-- The trace shows the tokens that were removed (R329). -/
def State.traceTokens (s : State) (before : Ctx) : State :=
  match s.ctx? before.id with
  | none => s
  | some c => (before.tokensGone c).foldl (fun s d => s.trc 5 0 c [.word c.id.num, .word (32 + d.1), .word d.2.toNat]) s

/-- CLK and GTIME advance, GTIME by what the servo chose, and every context (R115, R397). -/
def State.tick (s : State) : State :=
  let n := s.clk + 1
  let cs := s.ctxs.filter fun c => !c.doorsOut.isEmpty
  let s := { s with clk := n, gtime := (s.gtime + s.hub.advance) % 2 ^ 64, hub := { s.hub with advance := 1 },
                    c := s.c.tick n, others := s.others.map fun (d : Ctx) => d.tick n }
  let s := cs.foldl State.traceTokens s
  { s with c := s.refreshActors s.c, others := s.others.map s.refreshActors }

end Sys2Proof.Machine
end

