-- ==== Sys2Proof/Machine/Boot.lean ====
section
/-! DEFINITION. Making another context current, and a state whose next step runs a given word (log 13). -/

namespace Sys2Proof.Machine

/-- Make a context current; an absent context changes nothing. -/
def State.swapTo (s : State) (k : CtxId) : State :=
  if s.c.id = k then s
  else match s.others.find? fun c => c.id == k with
    | none => s
    | some c => { s with c := c, others := s.c :: s.others.filter fun d => d.id != k }

/-- A task of context 0 of tile 0 in a firing at the first byte of its region, a 4 KiB PLAIN region at offset 0. -/
def fetchCtx (c : Ctx) : Ctx :=
  { c with live := true, firing := true, pc := 0x2000000000000000, budget := 2 ^ 32 - 1, slotShare := 48, quota := 12 }

def fetchRegion : Word := 0x80000000 + 12 * 2 ^ 22

/-- Place a word in its slot of a bundle of NOPs at the program counter of a task loaded for it (log 13): 32-bit words
in the S slot if they decode there, else in the X slot; 64-bit words in the V slot; 128-bit words in the C slot. A
micro-operation is the next act, of a PE at its initial values. -/
def State.placeWord (s : State) (nbits w : Nat) : State :=
  let at4 := nbits ≤ 32 && (okInstr (decodeS w)).isNone && (okInstr (decodeX w)).isSome
  let off := if nbits ≤ 32 then (if at4 then 4 else 0) else if nbits ≤ 64 then 8 else 16
  let s := { s with c := fetchCtx s.c }.onTile 0 fun t => { t with treg := NMap.set 0 t.treg 0 fetchRegion }
  if nbits ≤ 32 ∧ (okInstr (decodeS w)).isNone ∧ (okInstr (decodeX w)).isNone then
    match decodeTableWord nbits w with
    | some i => { s with agenda := [.event i], micro := some {} }
    | none => s
  else s.writeValue (tileKey 0 off) (nbits / 8) w

end Sys2Proof.Machine
end

