-- ==== Sys2Proof/Machine/Scalar.lean ====
section
/-! DEFINITION. The S-slot register, immediate, compare, predicate and system-register instructions (R118 to R125). -/

namespace Sys2Proof.Machine

/-- What a meaning answers. -/
abbrev Out := Host.Outcome State Fault Refusal

/-- Register form: Sreg(d) := op(Sreg(a), Sreg(b)) with a latency (R118). -/
def State.alu (s : State) (f : SR) (lat : Nat) (op : Word → Word → Word) : State :=
  s.syllable 0 f.g [s.regS f.a, s.regS f.b] [s.regS f.d] fun s => s.putS f.d (op (s.rdS f.a) (s.rdS f.b)) lat

/-- Register form with one source (R118). -/
def State.alu1 (s : State) (f : SU) (lat : Nat) (op : Word → Word) : State :=
  s.syllable 0 f.g [s.regS f.a] [s.regS f.d] fun s => s.putS f.d (op (s.rdS f.a)) lat

/-- Immediate form (R119). -/
def State.aluImm (s : State) (f : SI) (op : Word → Word → Word) : State :=
  s.syllable 0 f.g [s.regS f.a] [s.regS f.d] fun s => s.putS f.d (op (s.rdS f.a) (imm9 f.imm)) 1

/-- Shift by an immediate count (R119). -/
def State.aluShift (s : State) (f : SSh) (op : Word → Nat → Word) : State :=
  s.syllable 0 f.g [s.regS f.a] [s.regS f.d] fun s => s.putS f.d (op (s.rdS f.a) f.cnt.toNat) 1

/-! ## Results of Table 4.9 -/

def minS (a b : Word) : Word := if a.slt b then a else b
def maxS (a b : Word) : Word := if a.slt b then b else a
def minU (a b : Word) : Word := if a.ult b then a else b
def maxU (a b : Word) : Word := if a.ult b then b else a

/-- The count of a shift by register: b<5:0> (R87, R118). -/
def shiftCount (b : Word) : Nat := b.toNat % 64

def shlW (a : Word) (n : Nat) : Word := a <<< n
def shrW (a : Word) (n : Nat) : Word := a >>> n
def sarW (a : Word) (n : Nat) : Word := a.sshiftRight n
def rorW (a : Word) (n : Nat) : Word := a.rotateRight n

/-- Count of zero bits above the highest one bit; 64 for zero. -/
def clzW (a : Word) : Word := BitVec.ofNat 64 (64 - bitLen a.toNat)

/-- Trailing zeros of the bits from i up, n bits left. -/
def trailing (w : Word) : Nat → Nat → Nat
  | _, 0 => 0
  | i, n + 1 => if w.getLsbD i then 0 else 1 + trailing w (i + 1) n

/-- Count of zero bits below the lowest one bit; 64 for zero. -/
def ctzW (a : Word) : Word := BitVec.ofNat 64 (trailing a 0 64)

/-- One bits among the n low bits of a number. -/
def onesOf (x : Nat) : Nat → Nat
  | 0 => 0
  | n + 1 => x % 2 + onesOf (x / 2) n

def popcW (a : Word) : Word := BitVec.ofNat 64 (onesOf a.toNat 64)

def mulhS (a b : Word) : Word := BitVec.ofInt 64 (a.toInt * b.toInt / 2 ^ 64)
def mulhU (a b : Word) : Word := BitVec.ofNat 64 (a.toNat * b.toNat / 2 ^ 64)

/-- Quotients and remainders with the edge cases of Table 3.8. -/
def divS (a b : Word) : Word := if b = 0 then BitVec.allOnes 64 else a.sdiv b
def divU (a b : Word) : Word := if b = 0 then BitVec.allOnes 64 else a.udiv b
def remS (a b : Word) : Word := if b = 0 then a else a.srem b
def remU (a b : Word) : Word := if b = 0 then a else a.umod b

/-! ## Register ALU operations (R118) -/

def execSNop (_rp : Bool) (s : State) : Out := .next s
def execAdd (f : SR) (s : State) : Out := .next (s.alu f 1 fun a b => a + b)
def execSub (f : SR) (s : State) : Out := .next (s.alu f 1 fun a b => a - b)
def execAnd (f : SR) (s : State) : Out := .next (s.alu f 1 fun a b => a &&& b)
def execOr (f : SR) (s : State) : Out := .next (s.alu f 1 fun a b => a ||| b)
def execXor (f : SR) (s : State) : Out := .next (s.alu f 1 fun a b => a ^^^ b)
def execAndn (f : SR) (s : State) : Out := .next (s.alu f 1 fun a b => a &&& ~~~b)
def execMin (f : SR) (s : State) : Out := .next (s.alu f 1 minS)
def execMax (f : SR) (s : State) : Out := .next (s.alu f 1 maxS)
def execMinu (f : SR) (s : State) : Out := .next (s.alu f 1 minU)
def execMaxu (f : SR) (s : State) : Out := .next (s.alu f 1 maxU)
def execShl (f : SR) (s : State) : Out := .next (s.alu f 1 fun a b => shlW a (shiftCount b))
def execShr (f : SR) (s : State) : Out := .next (s.alu f 1 fun a b => shrW a (shiftCount b))
def execSar (f : SR) (s : State) : Out := .next (s.alu f 1 fun a b => sarW a (shiftCount b))
def execRor (f : SR) (s : State) : Out := .next (s.alu f 1 fun a b => rorW a (shiftCount b))
def execClz (f : SU) (s : State) : Out := .next (s.alu1 f 1 clzW)
def execCtz (f : SU) (s : State) : Out := .next (s.alu1 f 1 ctzW)
def execMul (f : SR) (s : State) : Out := .next (s.alu f 3 fun a b => a * b)
def execMulh (f : SR) (s : State) : Out := .next (s.alu f 3 mulhS)
def execMulhu (f : SR) (s : State) : Out := .next (s.alu f 3 mulhU)
def execDiv (f : SR) (s : State) : Out := .next (s.alu f 16 divS)
def execDivu (f : SR) (s : State) : Out := .next (s.alu f 16 divU)
def execRem (f : SR) (s : State) : Out := .next (s.alu f 16 remS)
def execRemu (f : SR) (s : State) : Out := .next (s.alu f 16 remU)
def execPopc (f : SU) (s : State) : Out := .next (s.alu1 f 1 popcW)

/-! ## Immediates (R119, R120) -/

def execAddi (f : SI) (s : State) : Out := .next (s.aluImm f fun a b => a + b)
def execAndi (f : SI) (s : State) : Out := .next (s.aluImm f fun a b => a &&& b)
def execOri (f : SI) (s : State) : Out := .next (s.aluImm f fun a b => a ||| b)
def execXori (f : SI) (s : State) : Out := .next (s.aluImm f fun a b => a ^^^ b)
def execShli (f : SSh) (s : State) : Out := .next (s.aluShift f shlW)
def execShri (f : SSh) (s : State) : Out := .next (s.aluShift f shrW)
def execSari (f : SSh) (s : State) : Out := .next (s.aluShift f sarW)

def execMovi (f : SL) (s : State) : Out :=
  .next (s.syllable 0 f.g [] [s.regS f.d] fun s => s.putS f.d (imm15 f.imm) 1)

/-- MOVHI reads its destination as a source (R120). -/
def execMovhi (f : SL) (s : State) : Out :=
  .next (s.syllable 0 f.g [s.regS f.d] [s.regS f.d] fun s =>
    s.putS f.d (s.rdS f.d * 2 ^ 15 + f.imm.setWidth 64) 1)

/-! ## Compares and predicate logic (R121, R122) -/

def execCmp (f : SCmp) (s : State) : Out :=
  .next (s.syllable 0 f.g [s.regS f.a, s.regS f.b] [s.regQ f.p] fun s =>
    s.putQ f.p (Cond.holds f.c (s.rdS f.a) (s.rdS f.b)) 1)

/-- CMPI with the condition whose code is given (R48). -/
def State.cmpi (s : State) (f : SCmpi) (code : Nat) : State :=
  s.syllable 0 f.g [s.regS f.a] [s.regQ f.p] fun s =>
    s.putQ f.p (Cond.holds (Cond.ofCode code) (s.rdS f.a) (imm9 f.imm)) 1

def execCmpiCond03 (f : SCmpi) (s : State) : Out := .next (s.cmpi f f.c.toNat)
def execCmpiCond47 (f : SCmpi) (s : State) : Out := .next (s.cmpi f (4 + f.c.toNat))

/-- PLOG: Pred(d) := op(Pred(a), Pred(b)) (R122); srcs are the predicates that the operation reads. -/
def State.plog (s : State) (f : SPl) (srcs : List (BitVec 4)) (op : Bool → Bool → Bool) : State :=
  s.syllable 0 f.g (srcs.map s.regQ) [s.regQ f.d] fun s => s.putQ f.d (op (s.rdQ f.a) (s.rdQ f.b)) 1

def execPlogAnd (f : SPl) (s : State) : Out := .next (s.plog f [f.a, f.b] fun a b => a && b)
def execPlogOr (f : SPl) (s : State) : Out := .next (s.plog f [f.a, f.b] fun a b => a || b)
def execPlogXor (f : SPl) (s : State) : Out := .next (s.plog f [f.a, f.b] fun a b => a != b)
def execPlogAndn (f : SPl) (s : State) : Out := .next (s.plog f [f.a, f.b] fun a b => a && !b)
def execPlogNot (f : SPl) (s : State) : Out := .next (s.plog f [f.a] fun a _ => !a)
def execPlogMov (f : SPl) (s : State) : Out := .next (s.plog f [f.a] fun a _ => a)
def execPlogSet (f : SPl) (s : State) : Out := .next (s.plog f [] fun _ _ => true)
def execPlogClr (f : SPl) (s : State) : Out := .next (s.plog f [] fun _ _ => false)

/-! ## System registers (R111 to R117, R123) -/

/-- The value that MFS reads, bits beyond the width of Table 4.6 zero. -/
def State.sysRead (s : State) (n : SysReg) : Word :=
  let y := s.c.sys
  match n with
  | .status => statusWord y s.c.id.num
  | .tcause => y.tcause.setWidth 64
  | .tpc => y.tpc
  | .tval => y.tval
  | .tbase => y.tbase
  | .rpc => y.rpc
  | .rrb => y.rrb
  | .lc => y.lc
  | .ec => y.ec
  | .olane => y.olane.setWidth 64
  | .vcur => if s.c.task.taken.length < s.c.task.switches then y.vcur ||| 0x8000000000#64 else y.vcur
  | .clk => BitVec.ofNat 64 s.clk
  | .gtime => BitVec.ofNat 64 s.gtime
  | .partid => y.partid.setWidth 64
  | .tileid => BitVec.ofNat 64 s.c.id.tile
  | .taskid => y.taskid
  | .split => NMap.get 0 s.split y.partid.toNat
  | .flags => y.flags
  | .pwb => y.pwb.setWidth 64

def execMfs (f : SSys) (s : State) : Out :=
  .next (s.syllable 0 f.g [] [s.regS f.d] fun s => s.putS f.d (s.sysRead f.n) 1)

/-- MTS, or PRIV with the register number (R111). -/
def execMts (f : SSys) (s : State) : Out :=
  .next (s.syllable 0 f.g [s.regS f.d] [] fun s =>
    if mtsAllowed s.c.sys.hm f.n then s.stage (.sys f.n (s.rdS f.d)) else s.raise 0 .priv (BitVec.ofNat 64 f.n.code))

/-- SYNCF (R124, R125). -/
def State.sync (s : State) (f : SG) (instr config : Bool) : State :=
  s.syllable 0 f.g [] [] fun s => s.stage (.syncf instr config)

def execSyncfC (f : SG) (s : State) : Out := .next (s.sync f false true)
def execSyncfI (f : SG) (s : State) : Out := .next (s.sync f true false)
def execSyncfCi (f : SG) (s : State) : Out := .next (s.sync f true true)

end Sys2Proof.Machine
end

