-- ==== Sys2Proof/Machine/Control.lean ====
section
/-! DEFINITION. Control transfers, loops, firings' end, traps by program and waits (R127 to R145, R367, R368). -/

namespace Sys2Proof.Machine

/-- Address of the bundle under issue. -/
def State.bpc (s : State) : Word := s.bundle.pc

def execBr (f : SJ) (s : State) : Out :=
  .next (s.syllable 0 f.g [] [] fun s => s.stage (.jump (s.bpc + disp21 f.disp) 1))

/-- BRL links in s62 (R130). -/
def execBrl (f : SJ) (s : State) : Out :=
  .next (s.syllable 0 f.g [] [s.regS 62] fun s =>
    (s.putS 62 (s.bpc + 32) 1).stage (.jump (s.bpc + disp21 f.disp) 1))

/-- BRI: a misaligned target traps ALIGN; its target issues 3 clk later (R128, R129, R130). -/
def execBri (f : SU) (s : State) : Out :=
  .next (s.syllable 0 f.g [s.regS f.a] [s.regS f.d] fun s =>
    let target := s.rdS f.a
    if target.toNat % 32 ≠ 0 then s.raise 0 .align target
    else (s.putS f.d (s.bpc + 32) 1).stage (.jump target 3))

/-- LOOP (R132); PRIV in handler mode. -/
def execLoop (f : SL) (s : State) : Out :=
  .next (s.syllable 0 f.g [s.regS f.d] [] fun s =>
    if s.c.sys.hm then s.raise 0 .priv 0
    else
      let count := s.rdS f.d
      let start := s.bpc + 32
      let stop := s.bpc + f.imm.setWidth 64 * 32
      if count = 0 then ((s.stage (.lc 0)).stage (.frame start stop false)).stage (.jump (stop + 32) 1)
      else (s.stage (.lc count)).stage (.frame start stop true))

/-- BRTOP (R135, R136). -/
def execBrtop (f : SJ) (s : State) : Out :=
  .next (s.syllable 0 f.g [] [] fun s =>
    let lc := s.c.sys.lc
    let ec := s.c.sys.ec
    let taken := lc ≠ 0
    let enter := taken ∧ ec ≠ 0
    let s := if taken then s.stage (.lc (lc - 1)) else s
    let s := if enter then s.stage (.ec (ec - 1)) else s
    let s := (s.stage .rotate).stage (.stage (decide enter))
    if taken then s.stage (.jump (s.bpc + disp21 f.disp) 1) else s)

/-- EXIT ends the firing (R139); PRIV in handler mode. -/
def execExit (f : SG) (s : State) : Out :=
  .next (s.syllable 0 f.g [] [] fun s => if s.c.sys.hm then s.raise 0 .priv 0 else s.stage .exit)

/-- TRAP raises SOFT in either mode (R367). -/
def execTrap (f : STrap) (s : State) : Out :=
  .next (s.syllable 0 f.g [] [] fun s => s.raise 0 .soft (f.n.setWidth 64))

/-- TRET (R368); PRIV in task mode. -/
def execTret (f : SG) (s : State) : Out :=
  .next (s.syllable 0 f.g [] [] fun s => if s.c.sys.hm then s.stage .tret else s.raise 0 .priv 0)

/-- The command bound to a promise register, if it is not complete (R143). -/
def Ctx.openBinding (c : Ctx) (r : Reg) : Bool :=
  c.bindings.any fun b => Reg.s b.1 == r && c.opens.any fun o => o.seq == b.2

/-- SLEEP (R143). -/
def execSleep (f : SA) (s : State) : Out :=
  .next (s.syllable 0 f.g [s.regS f.a] [] fun s =>
    if s.gtime < (s.rdS f.a).toNat then s.hold .sleep
    else if s.c.openBinding (s.regS f.a) then
      if s.c.sys.hm then s.hold .sleep else s.raise 0 .promise (f.a.setWidth 64)
    else s)

/-- WAITG (R144). -/
def execWaitg (f : SA) (s : State) : Out :=
  .next (s.syllable 0 f.g [s.regS f.a] [] fun s => if s.gtime < (s.rdS f.a).toNat then s.hold .time else s)

/-- WAITG.L traps SKEW while the servo is not locked (R144). -/
def execWaitgL (f : SA) (s : State) : Out :=
  .next (s.syllable 0 f.g [s.regS f.a] [] fun s =>
    if !s.locked then s.raise 0 .skew (s.rdS f.a)
    else if s.gtime < (s.rdS f.a).toNat then s.hold .time
    else s)

/-- Whether an SMARK that the context issued, for a queue of a mask, waits in the command queue or has a marker that is
not at its head. -/
def State.markPending (s : State) (mask : BitVec 15) : Bool :=
  s.c.markers.any (fun m => mask.getLsbD m.queue)
    || s.myTile.queue.any fun m => m.ctx == s.c.id && (match m.op with
      | .smark f => f.imm.setWidth 15 &&& mask != 0
      | _ => false)

/-- JOINM waits for the markers of earlier bundles in the queues named (R145). -/
def execJoinm (f : SJoin) (s : State) : Out :=
  .next (s.syllable 0 f.g [] [] fun s => if s.markPending f.m then s.hold .join else s)

end Sys2Proof.Machine
end

