-- ==== Sys2Proof/Machine/Memory.lean ====
section
/-! DEFINITION. Loads, stores, EMPTY and Hall atomics of the S slot, and the acts of the banks on them: landing of
values, replies, accesses, deferred reads (R103 to R108, R170, R293 to R299, R308 to R313, R322). -/

namespace Sys2Proof.Machine

/-! ## Issue of scalar accesses (R298, R299) -/

/-- The bit of a parameter window whose read goes beyond its bound (R297); n bytes from an address, those with f. -/
def State.beyondBit (s : State) (ea : Word) (n : Nat) (f : Nat → Bool) : BitVec 8 :=
  let w := NMap.get {} s.c.params (wordField ea 16 3)
  if space ea = 4 ∧ (List.range n).any (fun i => f i && decide (w.size ≤ wordField ea 0 16 + i)) then
    1 <<< wordField ea 16 3
  else 0

def State.stagePwb (s : State) (b : BitVec 8) : State := if b = 0 then s else s.stage (.pwb b)

/-- Whether an address lies in a SYNC region of the current context. -/
def State.inSync (s : State) (ea : Word) : Bool :=
  match s.placeOf s.c ea with
  | some (.stored _ .sync) => true
  | _ => false

def State.load (s : State) (f : SI) (size : Nat) (signed sync : Bool) (eaOf : Word → Word) : State :=
  s.syllable 0 f.g [s.regS f.a] [s.regS f.d] fun s =>
    let ea := eaOf (s.rdS f.a + imm9 f.imm * BitVec.ofNat 64 size)
    match s.checkS .load ea size with
    | some c => s.raise 0 c ea
    | none =>
      (s.stagePwb (s.beyondBit ea size fun _ => true)).stage
        (.access ⟨0, 0, 0, 0, ea, size, 0, .load (s.regS f.d) size signed sync, sync && s.inSync ea, false, [], false, none, none, []⟩)

def execLdb (f : SI) (s : State) : Out := .next (s.load f 1 true false id)
def execLdbu (f : SI) (s : State) : Out := .next (s.load f 1 false false id)
def execLdh (f : SI) (s : State) : Out := .next (s.load f 2 true false id)
def execLdhu (f : SI) (s : State) : Out := .next (s.load f 2 false false id)
def execLdw (f : SI) (s : State) : Out := .next (s.load f 4 true false id)
def execLdwu (f : SI) (s : State) : Out := .next (s.load f 4 false false id)
def execLdd (f : SI) (s : State) : Out := .next (s.load f 8 false false id)
def execLds (f : SI) (s : State) : Out := .next (s.load f 8 false true id)

/-- LDP forces space 4 and keeps bits <18:0> (R298). -/
def paramAddr (a : Word) : Word := 0x4000000000000000 + a % 2 ^ 19

def execLdp (f : SI) (s : State) : Out := .next (s.load f 8 false false paramAddr)

/-- The n low bits of a line. -/
def lowBits (n : Nat) : Line := BitVec.ofNat 512 (2 ^ n - 1)

def State.store (s : State) (f : SI) (size : Nat) (full : Bool) : State :=
  s.syllable 0 f.g [s.regS f.d, s.regS f.a] [] fun s =>
    let ea := s.rdS f.a + imm9 f.imm * BitVec.ofNat 64 size
    match s.checkS .store ea size with
    | some c => s.raise 0 c ea
    | none =>
      s.stage (.access ⟨0, 0, 0, 0, ea, size, s.c.sys.olane,
        .store (wordVal (s.rdS f.d)) (lowBits (8 * size)) full, false, false, [], false, none, none, []⟩)

def execStb (f : SI) (s : State) : Out := .next (s.store f 1 false)
def execSth (f : SI) (s : State) : Out := .next (s.store f 2 false)
def execStw (f : SI) (s : State) : Out := .next (s.store f 4 false)
def execStd (f : SI) (s : State) : Out := .next (s.store f 8 false)
def execStf (f : SI) (s : State) : Out := .next (s.store f 8 true)

def execEmpty (f : SEmp) (s : State) : Out :=
  .next (s.syllable 0 f.g [s.regS f.a] [] fun s =>
    let ea := s.rdS f.a + imm9 f.off * 8
    match s.checkS .store ea 8 with
    | some c => s.raise 0 c ea
    | none => s.stage (.access ⟨0, 0, 0, 0, ea, 8, s.c.sys.olane, .empty, false, false, [], false, none, none, []⟩))

/-- The checks of an atomic (R299): space, alignment, region, ONCE. -/
def State.checkAtomic (s : State) (ea : Word) (size : Nat) : Option Cause :=
  match (if !Use.atomic.spaceOk (space ea) then some Cause.access
    else if ea.toNat % size ≠ 0 then some .align
    else s.checkS .atomic ea size) with
  | some c => some c
  | none =>
    match s.placeOf s.c ea with
    | some (.stored _ .once) => some .access
    | _ => none

/-- A Hall atomic (R299). srcs are the registers it reads beside its address; b and cmp its operand and comparand. -/
def State.atomic (s : State) (g : BitVec 4) (d a : BitVec 6) (srcs : List Reg) (op : BankOp) (size : Nat)
    (b cmp : State → Word) : State :=
  s.syllable 0 g (s.regS a :: srcs) [s.regS d] fun s =>
    let ea := s.rdS a
    match s.checkAtomic ea size with
    | some c => s.raise 0 c ea
    | none =>
      s.stage (.access ⟨0, 0, 0, 0, ea, size, s.c.sys.olane, .atomic op size (s.regS d) (b s) (cmp s), false, false, [], false, none, none, []⟩)

def State.atomicR (s : State) (f : SR) (op : BankOp) (size : Nat) : State :=
  s.atomic f.g f.d f.a [s.regS f.b] op size (fun s => s.rdS f.b) (fun _ => 0)

def execAadd (f : SR) (s : State) : Out := .next (s.atomicR f .add 8)
def execAmin (f : SR) (s : State) : Out := .next (s.atomicR f .min 8)
def execAmax (f : SR) (s : State) : Out := .next (s.atomicR f .max 8)
def execAand (f : SR) (s : State) : Out := .next (s.atomicR f .and 8)
def execAor (f : SR) (s : State) : Out := .next (s.atomicR f .or 8)
def execAxor (f : SR) (s : State) : Out := .next (s.atomicR f .xor 8)
def execAswap (f : SR) (s : State) : Out := .next (s.atomicR f .swap 8)
def execAtas (f : SU) (s : State) : Out :=
  .next (s.atomic f.g f.d f.a [] .tas 8 (fun _ => 0) (fun _ => 0))
/-- ACAS: the comparand is the destination register's old value; s0 gives 0 (R299). -/
def execAcas (f : SR) (s : State) : Out :=
  .next (s.atomic f.g f.d f.a [s.regS f.b, s.regS f.d] .cas 8 (fun s => s.rdS f.b) (fun s => s.rdS f.d))
def execAfadd (f : SR) (s : State) : Out := .next (s.atomicR f .fadd 4)

/-! ## The bank arithmetic unit (Table 10.6) -/

/-- The new value of a word w of size bytes with operand b and comparand c. -/
def BankOp.apply (op : BankOp) (size w b c : Nat) : Nat :=
  let n := 8 * size
  let b := b % 2 ^ n
  match op with
  | .add => (w + b) % 2 ^ n
  | .min => if sintOf n b < sintOf n w then b else w
  | .max => if sintOf n w < sintOf n b then b else w
  | .and => Nat.land w b
  | .or => Nat.lor w b
  | .xor => Nat.xor w b
  | .swap => b
  | .tas => 1
  | .cas => if w = c % 2 ^ n then b else w
  | .fadd => (fmtF32.add (fmtF32.decode w) (fmtF32.decode b) ⟨.rne, false, 0⟩).1

/-! ## Words that an access touches -/

/-- Whether byte i of a mask of bits is accessed. -/
def maskByte (m : Line) (i : Nat) : Bool := elem 8 m i != 0

/-- Byte offsets that an access touches, from its address. -/
def CoreAcc.bytes (a : CoreAcc) : List Nat :=
  match a.kind with
  | .vload _ m _ | .store _ m _ => (List.range a.size).filter (maskByte m)
  | _ => List.range a.size

/-- The addresses of an access: XBSTEP has two. -/
def CoreAcc.addrs (a : CoreAcc) : List Word :=
  match a.kind with
  | .bstep _ _ _ _ eb => [a.addr, eb]
  | _ => [a.addr]

/-- Whether storage is a Hall bank that a partition does not own: an access to it is out of partition (R18, R22). -/
def State.foreign (s : State) (part key : Nat) : Bool :=
  decide (2 ^ 30 ≤ key) && decide (key < 2 ^ 40) && NMap.get 0 s.bankOwner ((key - 2 ^ 30) / 2 ^ 19) != part + 1

/-- Whether storage is one of a claimed region in an image that lies under another partition's key slot: nothing is written
there (R438, R384). -/
def State.imageDenied (s : State) (c : Ctx) (key : Nat) : Bool :=
  decide (cellarKey 0 ≤ key) && s.keyDenied c.sys.partid.toNat (key - cellarKey 0) none true

/-- The stored presence words that an access touches, each with its region's kind. -/
def State.touched (s : State) (c : Ctx) (a : CoreAcc) : List (Nat × RKind) :=
  a.addrs.flatMap fun addr =>
    ((a.bytes.map fun i => i / 8).eraseDups).filterMap fun w =>
      match s.placeOf c (addr + BitVec.ofNat 64 (8 * w)) with
      | some (.stored key k) => if s.foreign c.sys.partid.toNat key then none else some (key / 8 * 8, k)
      | _ => none

/-- Words that a bank holds for stores of a context that it has accepted: those of a bundle not yet decided, and those
whose turn has not come (R293). -/
def State.wordsHeldFor (s : State) (c : Ctx) : List Nat :=
  (match c.undecided with
    | some u => u.stores.flatMap fun p => if p.2 = some true then (s.touched c p.1).map (·.1) else []
    | none => []) ++ (c.accs.filter (·.held)).flatMap fun a => (s.touched c a).map (·.1)

def State.heldWords (s : State) : List Nat := s.everyCtx.flatMap s.wordsHeldFor

/-! ## Order of the accesses of a context (R170, R313, R322) -/

/-- Whether two accesses touch a common byte. -/
def CoreAcc.overlaps (a b : CoreAcc) : Bool :=
  a.addrs.any fun x => b.addrs.any fun y =>
    decide (x.toNat < y.toNat + b.size) && decide (y.toNat < x.toNat + a.size)

/-- Whether later bundles wait for a read: an acquiring read, or one that waits at its port for an entry of a deferred-read
store, which will be one (R322). -/
def CoreAcc.acquires (a : CoreAcc) : Bool := a.acquire || a.fullSince.isSome

/-- Whether an earlier access b holds back a: a common byte, one lane in which b has not reached its scope, or an acquiring
read of an earlier bundle. -/
def CoreAcc.blocks (b a : CoreAcc) : Bool :=
  a.overlaps b || (a.lane != 0 && a.lane == b.lane && b.left.isNone) || (b.acquires && decide (b.bundle < a.bundle))

/-- Whether no acquiring VGET of a bundle before this one is still to land (R322). -/
def Ctx.vgetsLanded (c : Ctx) (bundle : Nat) : Bool :=
  c.vgets.all (fun g => !((g.acquire || g.maybe) && decide (g.bundle < bundle)))
    && c.landings.all fun l => match l.acquire with
      | some b => decide (bundle ≤ b)
      | none => true

/-- Whether the earlier accesses, commands and acquiring VGETs of the context let an access be presented. -/
def Ctx.mayPresent (c : Ctx) (a : CoreAcc) : Bool :=
  c.accs.all (fun b => !(decide (b.seq < a.seq) && b.blocks a))
    && c.opens.all (fun o => !(o.acc && a.lane != 0 && o.lane == a.lane && decide (o.seq < a.seq)))
    && c.vgetsLanded a.bundle

/-- Whether presence lets a read be served: SYNC words FULL for LDS and VLDS, ONCE words FULL or read already. -/
def State.presenceOk (s : State) (c : Ctx) (a : CoreAcc) : Bool :=
  let sync := match a.kind with
    | .load _ _ _ y => y
    | .vload _ _ y => y
    | _ => false
  (s.touched c a).all fun (k, kind) =>
    match kind with
    | .plain => true
    | .sync => !sync || s.isFull k || a.got.any fun g => g.1 == k
    | .once => s.isFull k || a.got.any fun g => g.1 == k

/-- The die of a tile. -/
def dieOf (tile : Nat) : Nat := tile / 64 * 4 + tile % 16 / 4

/-- The bank of a key: 32 banks a tile by bits [10:6], 512 Hall banks. -/
def bankOf (key : Nat) : Nat :=
  if key < 2 ^ 30 then key / 2 ^ 23 * 32 + key / 64 % 32 else 2 ^ 13 + (key - 2 ^ 30) / 2 ^ 19

/-- SCOPE of a lane of a context (Table 11.3). -/
def Ctx.laneScope (c : Ctx) (lane : BitVec 8) : Nat := (NMap.get {} c.lanes lane.toNat).scope

/-- Whether the requests of a tile for the bank of a key that left its port, and those of its die in the bank's die-edge
queue, have been served, so far as they stand before a place of that order; none stands behind all of them (R310). -/
def State.portClear (s : State) (tile key : Nat) (mine : Option Nat) : Bool :=
  s.everyCtx.all fun c => c.accs.all fun b =>
    match b.left with
    | none => true
    | some n => mine.any (fun m => decide (m ≤ n))
        || (if c.laneScope b.lane = 0 then c.id.tile != tile else dieOf c.id.tile != dieOf tile)
        || !(s.touched c b).any fun t => bankOf t.1 == bankOf key

/-- No word of an access is held by its bank for another one (R293), and none has to be served before it (R310). -/
def State.notHeld (s : State) (c : Ctx) (a : CoreAcc) : Bool :=
  (s.touched c a).all fun (k, _) => (a.held || !s.heldWords.contains k) && s.portClear c.id.tile k a.left

/-! ## Effects at the bank -/

/-- Bytes that a read returns: a window's byte beyond its bound is zero; a ONCE word read earlier keeps its value. -/
def State.readBytes (s : State) (c : Ctx) (a : CoreAcc) (addr : Word) (n : Nat) : List Byte :=
  (List.range n).map fun i =>
    match s.placeOf c (addr + BitVec.ofNat 64 i) with
    | some (.stored key _) =>
      match a.got.find? fun g => g.1 == key / 8 * 8 with
      | some g => (g.2 >>> (8 * (key % 8))).setWidth 8
      | none => s.byte key
    | _ => 0

/-- The unrecoverable error that a read meets: 0 none, 1 uncorrectable, 2 a bank of another partition (R22, R298). -/
def State.readCause (s : State) (c : Ctx) (addr : Word) (n : Nat) : Nat :=
  let place (i : Nat) : Option Nat := match s.placeOf c (addr + BitVec.ofNat 64 i) with
    | some (.stored key _) => some key
    | _ => none
  if (List.range n).any fun i => (place i).any (s.foreign c.sys.partid.toNat) then 2
  else if (List.range n).any fun i => (place i).any (s.badRead · 1) then 1 else 0

/-- Origin of a poisoned register of the control core (R216): the cause, tile, engine 7; 0 where nothing is wrong. -/
def coreOrigin (cause tile : Nat) : BitVec 32 :=
  if cause = 0 then 0 else BitVec.ofNat 32 (cause * 2 ^ 24 + tile * 2 ^ 17 + 15 * 2 ^ 9 + 7 * 2 ^ 5)

/-- The extended value of a scalar load. -/
def extend (size : Nat) (signed : Bool) (v : Nat) : Word :=
  if signed then BitVec.ofInt 64 (sintOf (8 * size) v) else BitVec.ofNat 64 v

/-- What lands when a read has been served: registers, poison. A vector load looks at every byte of its line (R170). -/
def State.readResult (s : State) (c : Ctx) (a : CoreAcc) : List (Reg × Line × Line) × BitVec 32 :=
  let cause := s.readCause c a.addr a.size
  let o := coreOrigin cause c.id.tile
  match a.kind with
  | .load d size signed _ =>
    ([(d, if cause ≠ 0 then 0 else wordVal (extend size signed (leBytes (s.readBytes c a a.addr size))), allBits)], o)
  | .vload d m _ => ([(d, if cause ≠ 0 then 0 else BitVec.ofNat 512 (leBytes (s.readBytes c a a.addr 64)), m)], o)
  | .bstep size lo hi mid eb =>
    let cb := s.readCause c eb a.size
    let x := if cause ≠ 0 then 0 else leBytes (s.readBytes c a a.addr size)
    let y := if cb ≠ 0 then 0 else leBytes (s.readBytes c a eb size)
    (if x ≤ y then [(lo, wordVal (mid + 1), allBits)] else [(hi, wordVal mid, allBits)],
      if cause ≠ 0 then o else coreOrigin cb c.id.tile)
  | .store .. | .empty | .atomic .. => ([], 0)

/-- A read that has been served: its value lands, 4 clk after issue at the earliest (R298). -/
def Ctx.served (c : Ctx) (a : CoreAcc) (r : List (Reg × Line × Line) × BitVec 32) : Ctx :=
  { c with accs := c.accs.filter (fun b => b.seq != a.seq), landings := c.landings ++ [⟨a.seq, r.1, r.2, a.issued + 4, 0, none⟩] }

/-- Read a of a context is served, with what it got while it waited in a'; errors that it meets
are corrected or reported. -/
def State.serveRead (s : State) (k : CtxId) (c : Ctx) (a a' : CoreAcc) : State :=
  (s.noteErrors ((s.touched c a').flatMap fun w => codeKeys w.1 1)).onCtx k fun c => c.served a (s.readResult c a')

/-- The bytes of a line write, and the uncorrectable errors that a write of whole presence words replaces. -/
def State.writeMasked (s : State) (key : Nat) (data mask : Line) (size : Nat) : State :=
  (List.range size).foldl (fun t i => if maskByte mask i then t.setByte (key + i) (BitVec.ofNat 8 (elem 8 data i)) else t) s

/-- Full overwriting of what a code covers gives it a valid code again (log 12). -/
def State.renewCode (s : State) (key : Nat) (mask : Line) (size : Nat) : State :=
  s.renewCodes ((codeKeys key size).filter fun k =>
    decide (key ≤ k) && decide (k + codeSpan key ≤ key + size) && (List.range (codeSpan key)).all fun j => maskByte mask (k - key + j))

/-- The sectors of tile memory that a store touches are not synchronised for fetch (R45). -/
def State.staleSectors (s : State) (c : Ctx) (addr : Word) (key size : Nat) : List Stale :=
  if space addr ≠ 2 then []
  else ((List.range ((key + size - 1) / 32 + 1 - key / 32)).map fun i =>
    let k := (key / 32 + i) * 32
    { key := k, bytes := s.bytesAt k 32 }).filter fun p => !c.stale.contains p

/-- The values of the words of a read that are FULL now. -/
def State.fullWords (s : State) (c : Ctx) (a : CoreAcc) (p : RKind → Bool) : List (Nat × Word) :=
  (s.touched c a).filterMap fun (k, kind) =>
    if p kind ∧ s.isFull k ∧ !a.got.any (fun g => g.1 == k) then some (k, BitVec.ofNat 64 (s.valueAt k 8)) else none

/-- The words of a ONCE region that are FULL now and not read yet (R294). -/
def State.newWords (s : State) (c : Ctx) (a : CoreAcc) : List (Nat × Word) := s.fullWords c a (· == .once)

/-- What a write that has set words FULL does for a read that waits at a bank (R294): a read that is deferred, or waits at
its port to be, takes the words that are FULL; a read that waits for a SYNC region takes all its words once they are all
FULL. -/
def State.releaseOne (s : State) (c : Ctx) (a : CoreAcc) : CoreAcc :=
  if a.deferred || a.fullSince.isSome then { a with got := a.got ++ s.newWords c a }
  else if a.acquire && c.mayPresent a && s.notHeld c a && s.presenceOk c a then
    { a with got := a.got ++ s.fullWords c a (· == .sync) }
  else a

/-- The same for a read of another agent: of a ONCE region it takes each word that is FULL, of a SYNC region all of its
words once they are all FULL. -/
def State.releaseRead (s : State) (d : Deferral) : Deferral :=
  let new := (d.keys.filter fun k => s.isFull k && !d.got.any (fun g => g.1 == k)).map fun k => (k, BitVec.ofNat 64 (s.valueAt k 8))
  if d.once || d.keys.all s.isFull then { d with got := d.got ++ new } else d

/-- The same for every read of a context's engines and edge elements. -/
def State.releaseRuns (s : State) (c : Ctx) : Ctx :=
  let all (ds : List Deferral) : List Deferral := ds.map s.releaseRead
  let run (r : Run) : Run := { r with defers := all r.defers, diverted := r.diverted.map fun d => { d with defers := all d.defers } }
  let edge (e : EdgeAcc) : EdgeAcc := { e with defer := e.defer.map s.releaseRead }
  { c with runs := c.runs.map run
           secs := c.secs.map fun x => { x with loading := x.loading.map run, edges := x.edges.map edge } }

/-- The same for every read of a resident context. -/
def State.releaseReads (s : State) (c : Ctx) : Ctx :=
  let d := s.releaseRuns c
  { d with accs := c.accs.map (s.releaseOne c) }

/-- Presence words become FULL, and the reads that wait for them have their data (R294). -/
def State.fillWords (s : State) (keys : List Nat) : State :=
  let s := s.setFullAll keys true
  { s with c := s.releaseReads s.c, others := s.others.map s.releaseReads
           hub := { s.hub with reads := s.hub.reads.map (fun h => { h with d := s.releaseRead h.d })
                               saved := s.hub.saved.map fun v => { v with ctx := s.releaseRuns v.ctx } } }

/-- The lines that n bytes from a key touch. -/
def linesOf (key n : Nat) : List Nat := (List.range ((key + n - 1) / 64 + 1 - key / 64)).map (key / 64 + ·)

/-- A store performed at its bank (R311); one to a bank of another partition writes nothing (R22). -/
def State.performStore (s : State) (k : CtxId) (c : Ctx) (a : CoreAcc) (data mask : Line) (full : Bool) : State :=
  match s.placeOf c a.addr with
  | some (.stored key kind) =>
    if s.foreign c.sys.partid.toNat key || s.imageDenied c key then s.onCtx k fun c => { c with accs := c.accs.filter fun b => b.seq != a.seq }
    else
      let st := s.staleSectors c a.addr key a.size
      let words := (s.touched c a).map (·.1)
      let s := (s.writeMasked key data mask a.size).renewCode key mask a.size
      let s := s.onCtx k fun c => { c with
        accs := c.accs.filter (fun b => b.seq != a.seq), stale := c.stale ++ st
        dirty := (linesOf key a.size).foldl (fun l n => if l.contains n then l else l ++ [n]) c.dirty }
      if kind = .once ∨ (kind = .sync ∧ full) then s.fillWords words else s
  | _ => s.onCtx k fun c => { c with accs := c.accs.filter fun b => b.seq != a.seq }

/-- EMPTY performed (Table 10.4). -/
def State.performEmpty (s : State) (k : CtxId) (c : Ctx) (a : CoreAcc) : State :=
  let s := match s.placeOf c a.addr with
    | some (.stored key .sync) | some (.stored key .once) =>
      if s.foreign c.sys.partid.toNat key || s.imageDenied c key then s else s.setFull key false
    | _ => s
  s.onCtx k fun c => { c with accs := c.accs.filter fun b => b.seq != a.seq }

/-- Access i of a context. -/
def State.acc? (s : State) (k : CtxId) (i : Nat) : Option (Ctx × CoreAcc) :=
  match s.ctx? k with
  | none => none
  | some c => (c.accs[i]?).map fun a => (c, a)

/-- Whether the effective scope of a write is TILE or DIE: that of a narrow lane, or of tile memory, which reaches DIE at
most (R310). -/
def Ctx.narrow (c : Ctx) (a : CoreAcc) : Bool :=
  a.lane != 0 && (space a.addr == 2 || (space a.addr == 1 && decide (c.laneScope a.lane < 2)))

/-- A write of effective scope TILE leaves the request port of its tile; one of scope DIE enters the die-edge queue of its
bank. There it has reached its scope, and the port and the queue pass on what is for one bank in order (R310). A wider
scope is reached when the write is performed. So is that of an atomic, which reads as well: the case of Table 11.11 of an
atomic and a store behind it in its lane (R313, R328). -/
def State.leavePort (s : State) (k : CtxId) (i : Nat) : State :=
  match s.acc? k i with
  | none => s
  | some (c, a) =>
    let writes := match a.kind with
      | .store .. | .empty => true
      | _ => false
    if !writes || a.left.isSome || a.held || !c.narrow a || !c.mayPresent a then s
    else
      let put (c : Ctx) : Ctx := { c with accs := c.accs.map fun b => if b.seq = a.seq then { b with left := some s.stamp } else b }
      { s.onCtx k put with stamp := s.stamp + 1 }

/-- A bank performs an access of the control core other than an atomic (R311), when the order of R170, R313 and R322
and presence allow it; else nothing comes about (log 1). -/
def execBankAccessPerformed (k : CtxId) (i : Nat) (s : State) : Out :=
  match s.acc? k i with
  | none => .next s
  | some (c, a) =>
    if !c.mayPresent a || !s.notHeld c a then .next s
    else match a.kind with
      | .store data mask full => .next (s.performStore k c a data mask full)
      | .empty => .next (s.performEmpty k c a)
      | .atomic .. => .next s
      | _ => if s.presenceOk c a then .next (s.serveRead k c a a) else .next s

/-- Atomics of all contexts that wait on the presence word of a key. -/
def State.atomicsOn (s : State) (key : Nat) : Nat :=
  (s.ctxs.map fun c => (c.accs.filter fun a => a.kind.isAtomic && (s.touched c a).any fun t => t.1 == key / 8 * 8).length).foldl (· + ·) 0

/-- A bank performs an atomic as one step (R299); an uncorrectable error, or a bank of another partition, leaves the word
and poisons the register. With more than 8 waiting on one word the trace shows it (R307). -/
def execAtomicPerformed (k : CtxId) (i : Nat) (s : State) : Out :=
  match s.acc? k i with
  | none => .next s
  | some (c, a) =>
    match a.kind with
    | .atomic op size d b cmp =>
      if !c.mayPresent a || !s.notHeld c a then .next s
      else match s.placeOf c a.addr with
        | some (.stored key kind) =>
          let old := s.valueAt key size
          let cause := s.readCause c a.addr size
          let s := s.noteErrors (codeKeys key size)
          if cause ≠ 0 then
            .next (s.onCtx k fun c => c.served a ([(d, 0, allBits)], coreOrigin cause c.id.tile))
          else
            let s := if 8 < s.atomicsOn key then
              s.trc 4 5 c [.word ((key - 2 ^ 30) / 2 ^ 19), .word ((key - 2 ^ 30) % 2 ^ 19)] else s
            let s := s.writeValue key size (op.apply size old b.toNat cmp.toNat)
            let s := s.onCtx k fun c => c.served a ([(d, wordVal (BitVec.ofNat 64 old), allBits)], 0)
            .next (if kind = .sync then s.fillWords [key] else s)
        | _ => .next (s.onCtx k fun c => c.served a ([(d, 0, allBits)], 0))
    | _ => .next s

/-- The accesses of pre-empted context i go on at their banks (R323, R328): its record stands among the contexts, under a
number that no context has, while f acts for it. -/
def State.withSaved (s : State) (i : Nat) (f : CtxId → State → State) : State :=
  match s.hub.saved[i]? with
  | none => s
  | some v =>
    let k : CtxId := ⟨v.ctx.id.tile, v.ctx.id.num + 4 * (i + 1)⟩
    let t := f k { s with others := s.others ++ [{ v.ctx with id := k }] }
    match t.others.find? fun c => c.id == k with
    | none => s
    | some c => { t with others := t.others.filter fun c => c.id != k
                         hub := { t.hub with saved := t.hub.saved.set i { v with ctx := { c with id := v.ctx.id } } } }

/-- Access j of pre-empted context i goes on at its bank, in a claimed region in the image (R384). A read of a ONCE region,
and an LDS or VLDS of a SYNC region, does not: it is issued again at the restore (R173, R251, R295); nor a read whose image
its partition may not use. -/
def State.parkedAccess (s : State) (i j : Nat) : State :=
  s.withSaved i fun k s => match s.acc? k j with
    | none => s
    | some (c, a) =>
      let sync := match a.kind with
        | .load _ _ _ y | .vload _ _ y => y
        | _ => false
      let reads := a.kind.hasDest && !a.kind.isAtomic
      if reads && (s.touched c a).any (fun t => t.2 == .once || (sync && t.2 == .sync) || s.imageDenied c t.1) then s
      else match (if a.kind.isAtomic then execAtomicPerformed k j s else execBankAccessPerformed k j (s.leavePort k j)) with
        | .next t => t
        | _ => s

/-- The reads of agents other than control cores that wait for presence, with their ports (R295): port 8 × tile + engine
code of R216, 2,048 + tile for edge elements, then the hub aperture and the peers (log 12). -/
def portOf (tile engine : Nat) : Nat := tile * 8 + engine

/-- Who waits. -/
inductive Reader where
  | run (k : CtxId) (seq : Nat) (addr : Word) (size : Nat)
  | diverted (k : CtxId) (seq n : Nat) (addr : Word) (size : Nat)
  | image (k : CtxId) (h : Nat) (addr : Word) (size : Nat)
  | edge (k : CtxId) (h seq : Nat)
  | hub (i : Nat)
  deriving DecidableEq, Repr

/-- Engine codes of R216. -/
def engineCode : Instr → Nat
  | .scopy _ | .scopyc _ | .sarm _ => 1
  | .gath _ | .scat _ | .greplay _ => 2
  | .scirc _ => 3
  | .scoll _ | .sslot _ => 4
  | .scfg _ | .smm _ | .sarmg _ | .srunGo _ | .srunBack _ | .sstop _ => 5
  | .csysShootdown _ | .csysReplay _ | .csysPantry _ => 6
  | _ => 0

def Ctx.reads (c : Ctx) : List (Reader × Nat × Deferral) :=
  let k := c.id
  c.runs.flatMap (fun r =>
    let p := portOf k.tile (engineCode r.cmd.op)
    r.defers.map (fun d => (.run k r.cmd.seq d.addr d.size, p, d))
      ++ r.diverted.flatMap fun v => v.defers.map fun d => (.diverted k r.cmd.seq v.n d.addr d.size, p, d))
  ++ c.secs.flatMap fun x =>
    (x.loading.toList.flatMap fun r => r.defers.map fun d => (.image k x.handle d.addr d.size, portOf k.tile 5, d))
      ++ x.edges.flatMap fun e => e.defer.toList.map fun d => (.edge k x.handle e.seq, 2048 + k.tile, d)

def State.reads (s : State) : List (Reader × Nat × Deferral) :=
  s.ctxs.flatMap Ctx.reads ++ s.hub.reads.zipIdx.map fun (h, i) => (.hub i, if h.queue.isSome then 2178 else if h.peer then 2177 else 2176, h.d)

/-- A change to the read of a reader. -/
def State.onRead (s : State) (w : Reader) (f : Deferral → Deferral) : State :=
  let at_ (a : Word) (n : Nat) (ds : List Deferral) : List Deferral := ds.map fun d => if d.addr = a ∧ d.size = n then f d else d
  match w with
  | .run k q a n => s.onCtx k fun c => { c with runs := c.runs.map fun r => if r.cmd.seq = q then { r with defers := at_ a n r.defers } else r }
  | .diverted k q m a n => s.onCtx k fun c => { c with runs := c.runs.map fun r => if r.cmd.seq = q then
      { r with diverted := r.diverted.map fun d => if d.n = m then { d with defers := at_ a n d.defers } else d } else r }
  | .image k h a n => s.onCtx k fun c => { c with secs := c.secs.map fun x => if x.handle = h then
      { x with loading := x.loading.map fun r => { r with defers := at_ a n r.defers } } else x }
  | .edge k h q => s.onCtx k fun c => { c with secs := c.secs.map fun x => if x.handle = h then
      { x with edges := x.edges.map fun e => if e.seq = q then { e with defer := e.defer.map f } else e } else x }
  | .hub i => { s with hub := { s.hub with reads := s.hub.reads.zipIdx.map fun (h, j) => if j = i then { h with d := f h.d } else h } }

/-- Whether a word of a bank that an access of a control core touches is still to be read. -/
def State.waitsAt (s : State) (c : Ctx) (a : CoreAcc) (bank : Nat) : Bool :=
  (s.touched c a).any fun t => bankOf t.1 == bank && t.2 == .once && !s.isFull t.1 && !a.got.any (fun g => g.1 == t.1)

/-- Entries in use of a bank's deferred-read store. -/
def State.deferredAt (s : State) (bank : Nat) : Nat :=
  (s.ctxs.map fun c => (c.accs.filter fun a => a.entries.contains bank && s.waitsAt c a bank).length).foldl (· + ·) 0
    + (s.reads.filter fun r => r.2.2.held && r.2.2.bank == bank).length

/-- The reads that wait at their ports for an entry of a bank: port, clk, and place in the port's order (R295). -/
def State.atPorts (s : State) (bank : Nat) : List (Nat × Nat × Nat) :=
  (s.ctxs.flatMap fun c => c.accs.filterMap fun a => match a.fullSince with
    | some n => if !a.entries.contains bank && s.waitsAt c a bank then some (portOf c.id.tile 7, n, a.seq) else none
    | none => none)
  ++ (s.reads.filter fun r => r.2.2.full && !r.2.2.held && r.2.2.bank == bank).map fun r => (r.2.1, r.2.2.since, 0)

/-- Whether a read of a port takes the next entry of a bank: one is free, and no read that waits at another port comes
before it in the round from the port that took the last one, nor an earlier one of its own port (R295). -/
def State.storeTurn (s : State) (bank port since seq : Nat) : Bool :=
  let rank (p : Nat) : Nat := (p + 4096 - NMap.get 0 s.lastPort bank) % 4096
  let before (w : Nat × Nat × Nat) : Bool :=
    decide (rank w.1 < rank port) || (w.1 == port && (decide (w.2.1 < since) || (w.2.1 == since && decide (w.2.2 < seq))))
  decide (s.deferredAt bank < (if bank < 2 ^ 13 then 32 else 64)) && !(s.atPorts bank).any before

/-- An entry of a bank is taken by a read of a port; the trace shows how long it waited (R307). -/
def State.takeEntryOf (s : State) (c : Option Ctx) (bank port : Nat) (waited : Option Nat) : State :=
  let s := { s with lastPort := NMap.set 0 s.lastPort bank (port + 1) }
  match waited, c with
  | some n, some c => s.trc 4 1 c [.word bank, .word (s.clk - n)]
  | some n, none => s.trcPkg 4 1 0 [.word bank, .word (s.clk - n)]
  | none, _ => s

/-- Read i of those of engines, edge elements, the hub and peers takes an entry of its bank, or waits at its port. -/
def State.enterRead (s : State) (i : Nat) : State :=
  match s.reads[i]? with
  | none => s
  | some (w, port, d) =>
    if d.held || !d.once || d.keys.all (fun k => d.got.any fun g => g.1 == k) then s
    else if !s.storeTurn d.bank port d.since 0 then s.onRead w fun d => { d with full := true }
    else
      let c := match w with
        | .run k .. | .diverted k .. | .image k .. | .edge k .. => s.ctx? k
        | .hub _ => none
      (s.onRead w fun d => { d with held := true }).takeEntryOf c d.bank port (if d.full then some d.since else none)

/-- Whether an access is a read that an EMPTY word of a ONCE region defers. -/
def State.wouldDefer (s : State) (c : Ctx) (a : CoreAcc) : Bool :=
  a.kind.hasDest && !a.kind.isAtomic && (s.touched c a).any fun (k, kind) => kind == .once && !s.isFull k

/-- The banks in whose deferred-read stores a read still needs an entry (R295). -/
def State.deferBanks (s : State) (c : Ctx) (a : CoreAcc) : List Nat :=
  (((s.touched c a).map fun t => bankOf t.1).eraseDups).filter fun b => s.waitsAt c a b && !a.entries.contains b

/-- A read of an EMPTY word of a ONCE region takes an entry of its bank's deferred-read store in its turn; XBSTEP, which may
touch two banks, one at each. Its FULL words are read at once. With every entry that it needs it is an acquiring read;
until then it waits at its port (R294, R295, R322). -/
def execDeferredReadEntry (k : CtxId) (i : Nat) (s : State) : Out :=
  match s.acc? k i with
  | none => .next s
  | some (c, a) =>
    if a.deferred || !s.wouldDefer c a || !c.mayPresent a || !s.notHeld c a then .next s
    else
      let port := portOf k.tile 7
      let since := a.fullSince.getD s.clk
      let (now, later) := (s.deferBanks c a).partition fun b => s.storeTurn b port since a.seq
      let a' := { a with got := a.got ++ s.newWords c a, entries := a.entries ++ now,
                         deferred := later.isEmpty, acquire := a.acquire || later.isEmpty
                         fullSince := if later.isEmpty then a.fullSince else some since }
      .next ((now.foldl (fun s b => s.takeEntryOf (some c) b port a.fullSince) s).onCtx k fun c =>
        { c with accs := c.accs.map fun q => if q.seq = a.seq then a' else q })

/-- The words of a deferred read that have become FULL answer it; with the last of them its value is fixed (R294). -/
def execDeferredReadAnswered (k : CtxId) (i : Nat) (s : State) : Out :=
  match s.acc? k i with
  | none => .next s
  | some (c, a) =>
    if !a.deferred || !s.notHeld c a then .next s
    else
      let a' := { a with got := a.got ++ s.newWords c a }
      if s.presenceOk c a' then .next (s.serveRead k c a a')
      else .next (s.onCtx k fun c => { c with accs := c.accs.map fun b => if b.seq = a.seq then a' else b })

/-! ## Landing and replies -/

/-- A register write in flight lands before its deadline (R103). -/
def execRegisterWriteLands (k : CtxId) (i : Nat) (s : State) : Out := .next (s.onCtx k fun c => c.landAt i)

/-- The values of one landing, after the writes still in flight of its registers (R104). -/
def Ctx.landValue (c : Ctx) (l : Landing) : Ctx :=
  let c := c.landEarlier (l.regs.map (·.1))
  { c with files := l.regs.foldl (fun f r => f.write r.1 r.2.1 r.2.2 l.poison) c.files,
           claims := c.claims.filter fun q => q.id != l.id }

/-- An interlocked value lands, in the door's order for VGETs (R105, R171). -/
def execInterlockedValueLands (k : CtxId) (i : Nat) (s : State) : Out :=
  .next (s.onCtx k fun c =>
    match c.landings[i]? with
    | none => c
    | some l =>
      if s.clk < l.earliest || (c.landings.take i).any (fun p => l.order != 0 && p.order == l.order) then c
      else { c.landValue l with landings := c.landings.eraseIdx i })

/-- A bank's answer to a store to a ONCE region (R293): accepted when no touched word is FULL, or held for the other
store of the bundle. -/
def State.onceReply (s : State) (c : Ctx) (u : Undecided) (a : CoreAcc) : Bool :=
  let words := (s.touched c a).map (·.1)
  let mine := u.stores.flatMap fun p => if p.2 = some true then (s.touched c p.1).map (·.1) else []
  words.all fun w => !s.isFull w && !mine.contains w

/-- A bank serves no access to a word that it holds for another bundle (R293). -/
def State.heldElsewhere (s : State) (c : Ctx) (a : CoreAcc) : Bool :=
  let held := ((s.everyCtx.filter fun d => d.id != c.id).flatMap s.wordsHeldFor) ++ (c.accs.filter (·.held)).flatMap fun b => (s.touched c b).map (·.1)
  (s.touched c a).any fun w => held.contains w.1 || !s.portClear c.id.tile w.1 none

/-- The accepted stores of a context are performed, as far as the order of its accesses lets them be: the others of their
bundle stand before them, and their words stay held (R293, R313). -/
def State.performHeld (s : State) (k : CtxId) : State :=
  match s.ctx? k with
  | none => s
  | some c => (c.accs.filter (·.held)).foldl (fun s a => match s.ctx? k, a.kind with
    | some c, .store data mask full => if c.mayPresent a then s.performStore k c a data mask full else s
    | _, _ => s) s

/-- The decision of a bundle whose replies have all arrived: ONCE at the first refused store, or all its writes, its
stores to ONCE regions accepted among them (R107, R293). -/
def State.decideBundle (s : State) (k : CtxId) (c : Ctx) (u : Undecided) : State :=
  let s := s.onCtx k fun c => { c with undecided := none }
  match u.stores.find? fun p => p.2 = some false with
  | some p =>
    (s.trc 4 0 c [.word 7, .long p.1.addr.toNat, .word k.num]).decideTrap k ⟨.once, false, p.1.addr, u.pc⟩
  | none =>
    let stores := u.stores.map (·.1)
    let s := s.commit k u.issued u.pc u.rp (u.writes.map fun w => match w with
      | .access a => if stores.contains a then .access { a with held := true } else w
      | _ => w)
    (s.performHeld k).onCtx k fun c => c.landDue s.clk

/-- A bank replies to store i of the undecided bundle of a context, once the accesses before it in its order are
performed (R108, R170, R293, R313). -/
def execBankReply (k : CtxId) (i : Nat) (s : State) : Out :=
  match s.ctx? k with
  | none => .next s
  | some c =>
    match c.undecided with
    | none => .next s
    | some u =>
      match u.stores[i]? with
      | some (a, none) =>
        if !c.mayPresent { a with seq := c.seq, bundle := c.bundleNo } || s.heldElsewhere c a then .next s
        else
          let u' := { u with stores := u.stores.set i (a, some (s.onceReply c u a)) }
          let s' := s.onCtx k fun c => { c with undecided := some u' }
          if u'.stores.all (fun p => p.2.isSome) then .next (s'.decideBundle k c u') else .next s'
      | _ => .next s

end Sys2Proof.Machine
end

