-- ==== Sys2Proof/Machine/Engine.lean ====
section
/-! DEFINITION. What every engine shares: addresses (R55), translation (R334, R335, R348 to R350), reads and writes of
engines (Table 10.4, R216, R225), the order of commands (R313, R322, R325), promised times (R244), completion and
records (R220, R243, R249). -/

namespace Sys2Proof.Machine

/-! ## Names -/

/-- Codes of Table 8.14. -/
def Status.code : Status → Nat
  | .ok => 0 | .rsvd => 1 | .fault => 2 | .poison => 3 | .chkfail => 4 | .busy => 5 | .state => 6 | .stopped => 7
  | .taken => 8 | .badcfg => 9 | .nopage => 10 | .size => 11 | .nolane => 12 | .notask => 13 | .slotbusy => 14
  | .cancelled => 15 | .nopart => 16 | .loopform => 17 | .gangfit => 18 | .predfail => 19 | .badpb => 20

/-- Fault codes of Table 8.7. -/
def codeAccess : Nat := 1
def codeAlign : Nat := 2
def codePage : Nat := 3
def codeOnce : Nat := 4
def codeParam : Nat := 5

/-- The partition of a context. -/
def Ctx.part (c : Ctx) : Nat := c.sys.partid.toNat

/-- Bytes [lo + n - 1 : lo] of a block as a number. -/
def blkField (b : Line) (lo n : Nat) : Nat := b.toNat / 2 ^ (8 * lo) % 2 ^ (8 * n)
/-- The same, signed. -/
def blkSigned (b : Line) (lo n : Nat) : Int := sintOf (8 * n) (blkField b lo n)
/-- A dword of a block. -/
def blkWord (b : Line) (lo : Nat) : Word := BitVec.ofNat 64 (blkField b lo 8)

/-- Origin of poison made by an engine (R216). -/
def engOrigin (cause tile engine : Nat) : BitVec 32 :=
  BitVec.ofNat 32 (cause % 256 * 2 ^ 24 + tile * 2 ^ 17 + 15 * 2 ^ 9 + engine * 2 ^ 5)

/-- The space rule of R55: the address in space sp, or none for ACCESS. -/
def formAddr (sp : Nat) (a : Word) : Option Word :=
  if space a = 0 then some (a ||| BitVec.ofNat 64 (sp * 2 ^ 60)) else if space a = sp then some a else none

/-! ## Translation -/

/-- What is found at an address of an engine's access. -/
inductive EPlace where
  | stored (key : Nat) (kind : RKind)
  /-- A byte of a parameter window beyond its bound. -/
  | beyond (win : Nat)
  /-- A bank or a queue that serves the access later (R292, R310). -/
  | wait
  /-- A version switch of a set that has not taken effect (R335). -/
  | hold (set : Nat)
  /-- No translation is at hand: a page walk (R348). -/
  | walk
  | fault (code : Nat)
  /-- A bank or key slot of another partition (R22, R438). -/
  | outpart
  deriving DecidableEq, Repr

/-- How an access chooses the slot of a versioned page (R335): the switches that its task has taken and sent; the place of
the command that makes it. -/
structure Viewer where
  k : CtxId
  launch : Nat
  part : Nat
  epoch : Nat
  view : NMap Nat
  staging : NMap Nat
  taken : List (NMap Nat × Nat × BitVec 32) := []
  arrivals : Nat := 0
  seq : Option Nat := none
  deriving DecidableEq, Repr

/-- The view that a viewer uses of a set, slot plus one; none while a switch that names the set is pending. -/
def State.viewFor (s : State) (v : Viewer) (set : Nat) : Option Nat :=
  if v.epoch = 0 then some (NMap.get 0 v.view set)
  else match v.taken[v.epoch - 1]? with
    | some t => some (NMap.get 0 t.1 set)
    | none =>
      if s.hub.arrivals.any fun a => a.k == v.k && a.launch == v.launch && decide (a.n ≤ v.epoch) && a.mask.getLsbD set then none
      else if v.arrivals < v.epoch then none
      else some (NMap.get 0 s.hub.views (v.part * 64 + set))

/-- The slot of an access to a page of a set (R334). -/
inductive SlotPick where
  | slot (n : Nat) | wait | fault
  deriving DecidableEq, Repr

def State.pickSlot (s : State) (v : Viewer) (set : Nat) (write : Bool) : SlotPick :=
  let w := NMap.get 0 s.hub.wset set
  if wordField w 63 1 = 0 then .fault
  else if wordField w 59 4 = v.part then
    match NMap.get 0 v.staging set with
    | n + 1 =>
      if write && (NMap.get {} s.hub.wslot (set * 4 + n)).st != 1 then .fault else .slot n
    | 0 =>
      if write then .fault
      else match s.viewFor v set with
        | none => .wait
        | some 0 => .fault
        | some (n + 1) => .slot n
  else if wordField w (43 + v.part) 1 = 0 || write then .fault
  else match s.viewFor v set with
    | none => .wait
    | some 0 => .fault
    | some (n + 1) => .slot n

/-- Bytes of physical cellar memory (R347). -/
def cellarBytes : Nat := 768 * 2 ^ 30

/-- Whether a frame word is malformed for a leaf of 2^log2 bytes (R348). -/
def badFrame (f : Word) (log2 : Nat) : Bool :=
  wordField f 48 15 != 0 || decide (cellarBytes ≤ wordField f 0 48) || wordField f 0 48 % 2 ^ log2 != 0

/-- Where a translation takes a virtual address (R334, R348). -/
def State.throughEntry (s : State) (v : Viewer) (e : TEntry) (va : Nat) (write : Bool) : EPlace :=
  let at_ (frame : Nat) (ver : Option Nat) : EPlace :=
    let pa := frame + (va - e.base)
    if s.keyDenied v.part pa ver write then .outpart else .stored (cellarKey pa) .plain
  match e.wset with
  | none => if (write && !e.w) || (!write && !e.r) then .walk else at_ e.frame none
  | some set =>
    match s.pickSlot v set write with
    | .fault => .fault codeAccess
    | .wait => .hold set
    | .slot n =>
      let f := e.quad[n]?.getD 0
      -- an absent or malformed frame word is the walk's finding
      if f.getLsbD 63 = false || badFrame f e.log2 then .walk
      else at_ (wordField f 0 48) (some set)

/-- The entry of a TLB that covers an address of a partition (R349). -/
def findEntry (tlb : List TEntry) (part va : Nat) : Option TEntry :=
  tlb.find? fun e => e.part == part && decide (e.base ≤ va) && decide (va < e.base + 2 ^ e.log2)

/-- Fields of a partition's rectangle (Table 17.2). -/
def State.rect (s : State) (p : Nat) : Nat × Nat × Nat × Nat :=
  let w := NMap.get pctlReset s.hub.pctl p
  (wordField w 4 3, wordField w 0 4, wordField w 12 3 + 1, wordField w 8 4 + 1)

/-- Home slice of a virtual address (R350). -/
def State.homeSlice (s : State) (p va : Nat) : Nat :=
  let (r0, c0, h, w) := s.rect p
  let v := va / 2 ^ 21 % 2 ^ 36
  let x := Nat.xor (Nat.xor v (v / 2 ^ 7)) (v / 2 ^ 15) % 2 ^ 16
  let rank := x % (h * w)
  (r0 + rank / w) * 16 + (c0 + rank % w)

/-- The TLB entries an agent of a tile can use for an address: its L1 and the home slice (R349). -/
def State.tlbOf (s : State) (tile part va : Nat) : List TEntry :=
  (s.tile tile).l1 ++ (s.tile (s.homeSlice part va)).l2

/-- An access to an address used the L1 of a tile, which fills from the home slice; each keeps its entries in order of use
(R349). -/
def State.useL1 (s : State) (tile part : Nat) (a : Word) : State :=
  match findEntry (s.tile tile).l1 part a.toNat with
  | some e => s.onTile tile fun t => { t with l1 := e :: t.l1.erase e }
  | none =>
    let h := s.homeSlice part a.toNat
    match findEntry (s.tile h).l2 part a.toNat with
    | none => s
    | some e => (s.onTile h fun t => { t with l2 := e :: t.l2.erase e }).onTile tile fun t => { t with l1 := (e :: t.l1).take 64 }

/-! ## Places of an engine's accesses (Tables 8.7, 10.1) -/

/-- Where a Hall address of a partition lies, and whether its bank is the partition's (R22). -/
def State.hallPlace (s : State) (part a : Nat) : EPlace :=
  match s.hallOf part a with
  | none => .fault codeAccess
  | some (key, kind) =>
    let bank := (key - 2 ^ 30) / 2 ^ 19
    -- a request for a bank whose shutter is closed waits (R292)
    if s.hub.remaps.any fun r => r.bank == bank then .wait
    else if NMap.get 0 s.bankOwner bank = part + 1 then .stored key kind else .outpart

/-- A place in the Hall or in tile memory that requests of the same tile or die before this one still have to be served at waits (R310). -/
def State.portPlace (s : State) (tile : Nat) (p : EPlace) : EPlace :=
  match p with
  | .stored key _ => if s.portClear tile key none then p else .wait
  | _ => p

/-- The place of an engine's access for a context. -/
def State.engPlace (s : State) (c : Ctx) (v : Viewer) (tlb : List TEntry) (write : Bool) (a : Word) : EPlace :=
  if !zeroBitsOk a then .fault codeAccess
  else match space a with
    | 0 =>
      match findEntry tlb c.part a.toNat with
      | none => .walk
      | some e => s.throughEntry v e a.toNat write
    | 1 => s.portPlace c.id.tile (s.hallPlace c.part (wordField a 0 28))
    | 2 =>
      match s.tilePlace c (wordField a 0 23) with
      | some (key, k) =>
        if cellarKey 0 ≤ key ∧ s.keyDenied v.part (key - cellarKey 0) none true then .outpart
        else s.portPlace c.id.tile (.stored key k)
      | none => .fault codeAccess
    | 4 =>
      let w := NMap.get {} c.params (wordField a 16 3)
      if write then .fault codeAccess
      else if !w.bound then .fault codeParam
      else if w.size ≤ wordField a 0 16 then .beyond (wordField a 16 3)
      else s.portPlace c.id.tile (s.hallPlace c.part (w.hall + wordField a 0 16))
    | _ => .fault codeAccess

/-! ## Reads and writes -/

/-- What an attempt to access memory brings. -/
inductive EResult where
  | value (v : Nat) (pwb : BitVec 8)
  | poison (origin : BitVec 32)
  /-- A word held by its bank, or a bank that serves others first: the access waits. -/
  | wait
  /-- It waits for a version switch of a set (R335). -/
  | hold (set : Nat)
  /-- An EMPTY word of a region of a kind: the read waits for presence (Table 10.4). -/
  | defer (key : Nat) (kind : RKind)
  | walk
  | fault (code : Nat)
  deriving DecidableEq, Repr

/-- The value of n bytes at a key; words that the read has already got keep their value (R294). -/
def State.readGot (s : State) (d : Option Deferral) (key n : Nat) : Nat :=
  leBytes ((List.range n).map fun i =>
    match d.bind fun d => d.got.find? fun g => g.1 == (key + i) / 8 * 8 with
    | some g => (g.2 >>> (8 * ((key + i) % 8))).setWidth 8
    | none => s.byte (key + i))

/-- A read that begins to wait for presence (R294, R295). -/
def State.newDeferral (s : State) (a : Word) (n key : Nat) (kind : RKind) : Deferral :=
  s.releaseRead { addr := a, size := n, bank := bankOf key, keys := wordKeys key n, once := kind == .once, since := s.clk }

/-- A read of n bytes, which lie in one line, at a place (Table 10.4); cause 1 ECC or 2 OUTPART makes poison (R216). d is
the same read as it waited before. -/
def State.readPlace (s : State) (c : Ctx) (p : EPlace) (engine : Nat) (a : Word) (n : Nat) (d : Option Deferral := none) : EResult :=
  match p with
  | .fault code => .fault code
  | .walk => .walk
  | .wait => .wait
  | .hold set => .hold set
  | .outpart => .poison (engOrigin 2 c.id.tile engine)
  | .beyond w => .value 0 (1 <<< w)
  | .stored key kind =>
    let left := (wordKeys key n).filter fun k => !d.any fun d => d.got.any fun g => g.1 == k
    if d.any (·.out) then .poison (engOrigin 2 c.id.tile engine)
    else if left.any s.heldWords.contains then .wait
    else if kind != .plain && space a != 4 && left.any (fun k => !s.isFull k) then .defer key kind
    else if s.badRead key n then .poison (engOrigin 1 c.id.tile engine)
    else .value (s.readGot d key n) 0

/-- The place of an engine's read of a byte (R297): one that lies below the bound of a window is a byte of the Hall; every
other place is as engPlace has it. -/
def State.windowBytes (s : State) (c : Ctx) (a : Word) (n : Nat) : List EPlace :=
  let w := NMap.get {} c.params (wordField a 16 3)
  (List.range (Nat.min n (w.size - wordField a 0 16))).map fun i =>
    s.portPlace c.id.tile (s.hallPlace c.part (w.hall + wordField a 0 16 + i))

/-- A read of n bytes through a bound window (R297): each byte below the bound is its own byte of the Hall, wherever the
range of the window begins; those beyond read zero and set the bit of PWB. -/
def State.readWindow (s : State) (c : Ctx) (engine : Nat) (a : Word) (n : Nat) : EResult :=
  let ps := s.windowBytes c a n
  let keys := ps.filterMap fun p => match p with
    | .stored key _ => some key
    | _ => none
  if ps.contains .wait || keys.any (fun k => s.heldWords.contains (k / 8 * 8)) then .wait
  else if ps.contains (.fault codeAccess) then .fault codeAccess
  else if ps.contains .outpart then .poison (engOrigin 2 c.id.tile engine)
  else if keys.any (s.badRead · 1) then .poison (engOrigin 1 c.id.tile engine)
  else .value (leBytes (keys.map s.byte)) (if keys.length < n then 1 <<< wordField a 16 3 else 0)

/-- A read of an engine at a place that it has found. -/
def State.readAt (s : State) (c : Ctx) (p : EPlace) (engine : Nat) (a : Word) (n : Nat) (d : Option Deferral := none) : EResult :=
  if space a = 4 ∧ zeroBitsOk a ∧ (NMap.get {} c.params (wordField a 16 3)).bound then s.readWindow c engine a n
  else s.readPlace c p engine a n d

def State.engRead (s : State) (c : Ctx) (v : Viewer) (tlb : List TEntry) (engine : Nat) (a : Word) (n : Nat)
    (d : Option Deferral := none) : EResult :=
  s.readAt c (s.engPlace c v tlb false a) engine a n d

/-- A control read (R468): presence is ignored, and nothing waits for it. -/
def State.ctlRead (s : State) (c : Ctx) (v : Viewer) (tlb : List TEntry) (engine : Nat) (a : Word) (n : Nat) : EResult :=
  if space a = 4 ∧ zeroBitsOk a ∧ (NMap.get {} c.params (wordField a 16 3)).bound then s.readWindow c engine a n
  else match s.engPlace c v tlb false a with
  | .fault code => .fault code
  | .walk => .walk
  | .wait => .wait
  | .hold set => .hold set
  | .outpart => .poison (engOrigin 2 c.id.tile engine)
  | .beyond w => .value 0 (1 <<< w)
  | .stored key _ => if s.badRead key n then .poison (engOrigin 1 c.id.tile engine) else .value (s.valueAt key n) 0

/-- Codes in error that a read of n bytes at a place meets. -/
def State.errorsAt (s : State) (c : Ctx) (p : EPlace) (a : Word) (n : Nat) : List Nat :=
  if space a = 4 ∧ (NMap.get {} c.params (wordField a 16 3)).bound then
    s.flagged (((s.windowBytes c a n).flatMap fun p => match p with
      | .stored key _ => codeKeys key 1
      | _ => []).eraseDups)
  else match p with
    | .stored key _ => s.flagged (codeKeys key n)
    | _ => []

/-- The errors that a read of n bytes at an address meets are corrected or reported. -/
def State.noteRead (s : State) (c : Ctx) (v : Viewer) (tlb : List TEntry) (a : Word) (n : Nat) : State :=
  if s.soft = [] ∧ s.bad = [] then s else s.noteErrors (s.errorsAt c (s.engPlace c v tlb false a) a n)

/-- The same of the word of an atomic, at its place. -/
def State.noteOp (s : State) (p : EPlace) (size : Nat) : State :=
  match p with
  | .stored key _ => s.noteErrors (codeKeys key size)
  | _ => s

/-- Sectors of tile memory that a write changes are not synchronised for the fetches of the tile's contexts (R45); who: the
command that makes it. -/
def State.markStale (s : State) (key n : Nat) (who : Option (CtxId × Nat)) : State :=
  if 2 ^ 30 ≤ key then s
  else
    let secs := (List.range ((key + n - 1) / 32 + 1 - key / 32)).map fun i => (key / 32 + i) * 32
    let upd (c : Ctx) : Ctx :=
      if c.id.tile != key / 2 ^ 23 then c
      else { c with stale := secs.foldl (fun st k =>
        if st.contains ⟨k, s.bytesAt k 32, who⟩ then st else st ++ [⟨k, s.bytesAt k 32, who⟩]) c.stale }
    { s with c := upd s.c, others := s.others.map upd }

/-- What fetch may still return when the record of a command has been written (R124): its writes have reached fetch, so
that for each sector what stood there before the last of them is gone. -/
def forgetStale (who : CtxId × Nat) : List Stale → List Stale
  | [] => []
  | p :: r => if r.any (fun q => q.key == p.key && q.writer == some who) || p.writer == some who then forgetStale who r
      else p :: forgetStale who r

/-- The writes of a command have reached the fetches of every context. -/
def State.reachFetch (s : State) (k : CtxId) (seq : Nat) : State :=
  let f (c : Ctx) : Ctx := { c with stale := forgetStale (k, seq) c.stale }
  { s with c := f s.c, others := s.others.map f, hub := { s.hub with saved := s.hub.saved.map fun v => { v with ctx := f v.ctx } } }

/-- A write of bytes at a key: the bytes, the codes whose bytes are all overwritten, the fetches not synchronised. -/
def State.storeBytes (s : State) (key : Nat) (bs : List Byte) (who : Option (CtxId × Nat) := none) : State :=
  let n := bs.length
  ((s.markStale key n who).writeBytes key bs).renewCodes
    ((codeKeys key n).filter fun k => decide (key ≤ k) && decide (k + codeSpan key ≤ key + n))

/-- What a write needs before it is performed: ONCE words EMPTY, no word held (Table 10.4). -/
inductive WResult where
  | done (s : State)
  | wait | walk
  | hold (set : Nat)
  /-- A bank or key slot of another partition, or an uncorrectable error: nothing is written (R216). -/
  | poison (cause : Nat)
  | fault (code : Nat)

/-- An engine's write at a place (Table 10.4): it sets SYNC and ONCE words FULL; a FULL ONCE word faults. -/
def State.writePlace (s : State) (p : EPlace) (bs : List Byte) (who : Option (CtxId × Nat) := none) : WResult :=
  match p with
  | .fault code => .fault code
  | .walk => .walk
  | .wait => .wait
  | .hold set => .hold set
  | .outpart => .poison 2
  | .beyond _ => .fault codeAccess
  | .stored key kind =>
    let words := wordKeys key bs.length
    if words.any s.heldWords.contains then .wait
    else if kind = .once ∧ words.any (fun k => s.isFull k) then .fault codeOnce
    else
      let s := s.storeBytes key bs who
      .done (if kind = .plain then s else s.fillWords words)

def State.engWrite (s : State) (c : Ctx) (v : Viewer) (tlb : List TEntry) (a : Word) (bs : List Byte) : WResult :=
  s.writePlace (s.engPlace c v tlb true a) bs (v.seq.map fun n => (v.k, n))

/-- A bank operation at a place of the Hall (Table 10.6): ACCESS in a ONCE region; it sets a SYNC word FULL. -/
def State.opPlace (s : State) (p : EPlace) (op : BankOp) (size b : Nat) : WResult :=
  match p with
  | .stored key kind =>
    if kind = .once then .fault codeAccess
    else if (wordKeys key size).any s.heldWords.contains then .wait
    else if s.badRead key size then .poison 1
    else
      let s := s.noteErrors (codeKeys key size)
      let s := s.storeBytes key (toBytes size (op.apply size (s.valueAt key size) b 0))
      .done (if kind = .sync then s.fillWords [key] else s)
  | .fault code => .fault code
  | .walk => .walk
  | .wait => .wait
  | .hold set => .hold set
  | .outpart => .poison 2
  | .beyond _ => .fault codeAccess

/-! ## Order of the accesses of commands -/

/-- The bundle of a command of the context; an access that is no command's comes behind every bundle issued. -/
def Ctx.bundleOf (c : Ctx) (seq : Nat) : Nat := ((c.opens.find? fun o => o.seq == seq).map (·.bundle)).getD c.bundleNo

/-- Whether the acquiring reads of earlier bundles let a command of place seq make an access (R322), a control read among
them. -/
def Ctx.acquired (c : Ctx) (seq : Nat) : Bool :=
  c.accs.all (fun a => !(a.acquires && decide (a.bundle < c.bundleOf seq))) && c.vgetsLanded (c.bundleOf seq)

/-- Whether the earlier accesses of the context let a command of place seq in a lane make an access: those of its lane
(R313), and the acquiring reads of earlier bundles (R322). -/
def Ctx.laneClear (c : Ctx) (lane : BitVec 8) (seq : Nat) : Bool :=
  c.accs.all (fun a => !(decide (a.seq < seq) && lane != 0 && a.lane == lane && a.left.isNone))
    && c.opens.all (fun o => !(o.acc && lane != 0 && o.lane == lane && decide (o.seq < seq)))
    && c.acquired seq

/-- The same for a packet of a remote command: the packets of the commands before it in the lane have left, behind which it
stays in its stream, so that nothing waits for their acknowledgement (R317, R318, R339). -/
def Ctx.laneSent (c : Ctx) (lane : BitVec 8) (seq : Nat) : Bool :=
  c.accs.all (fun a => !(decide (a.seq < seq) && lane != 0 && a.lane == lane && a.left.isNone))
    && c.opens.all (fun o => !(o.acc && !o.sent && lane != 0 && o.lane == lane && decide (o.seq < seq)))
    && c.acquired seq

/-- Whether an SBAR that is not satisfied, or not yet accepted, holds back an access of a command of place seq to the own
tile's memory (R325). -/
def State.barred (s : State) (c : Ctx) (seq : Nat) (a : Word) : Bool :=
  space a == 2 && (c.sbars.any (fun b => decide (b.seq < seq))
    || (s.tile c.id.tile).queue.any fun m => m.ctx == c.id && decide (m.seq < seq) && (match m.op with
      | .sbar _ => true
      | _ => false))

/-- Whether every access of a context in a lane issued before a place has reached its scope (R238, R323, R324, R338). -/
def Ctx.lanePassed (c : Ctx) (lane : BitVec 8) (seq : Nat) : Bool :=
  lane == 0 || (c.accs.all (fun a => !(a.lane == lane && a.left.isNone && decide (a.seq < seq)))
    && c.opens.all (fun o => !(o.acc && o.lane == lane && decide (o.seq < seq))))

/-- Whether every write that a context issued before a place has reached PKG scope (R359, R373): those of its stores, of its
commands and of its template firings. An edge element is an issuer of its own (Table 11.1). -/
def Ctx.writesPassed (c : Ctx) (seq : Nat) : Bool :=
  c.accs.all (fun a => !(a.kind.stores && decide (a.seq < seq)))
    && c.opens.all (fun o => !(o.acc && o.writes && decide (o.seq < seq)))
    && c.runs.all fun r => !(r.template.isSome && decide (r.cmd.seq < seq))

def Command.viewer (m : Command) (c : Ctx) : Viewer :=
  ⟨m.ctx, c.task.launch, c.part, m.epoch, m.view, m.staging, c.task.taken, c.task.arrivals, some m.seq⟩

/-- A viewer in the epoch in force now (R335): edge elements and template firings. -/
def State.viewerNow (s : State) (c : Ctx) : Viewer :=
  ⟨c.id, c.task.launch, c.part, c.task.switches, s.viewOf c.part, s.stagingOf c.part, c.task.taken, c.task.arrivals, none⟩

/-- Such a viewer for an access that was presented with an epoch, view and staging slots, and waits. -/
def State.viewerSeen (s : State) (c : Ctx) (seen : Option (Nat × NMap Nat × NMap Nat)) : Viewer :=
  match seen with
  | some (n, view, staging) => { s.viewerNow c with epoch := n, view := view, staging := staging }
  | none => s.viewerNow c

/-- How a command's access under way, or one that it diverted, sees versioned pages (R335). -/
def State.runViewer (s : State) (c : Ctx) (r : Run) (seen : Option (Nat × NMap Nat × NMap Nat)) : Viewer :=
  if r.template.isSome then s.viewerSeen c seen else r.cmd.viewer c

/-! ## Promises, completion, records -/

/-- The bytes that the promised time counts (R244) need Ceil(Bq / 64) ticks. -/
def promiseTime (gtime lat bytes : Nat) : Word := BitVec.ofNat 64 (gtime + lat + (bytes + 63) / 64)

/-- Copy engine of a tile (spec 08). -/
def copyEngineOf (tile : Nat) : Nat := (tile / 64 * 4 + tile % 16 / 4) * 4 + tile % 4

/-- The trace shows that a command is accepted, with the engine by its code of R216, and the slot, the copy engine or that
code again (R254). -/
def State.accepted (s : State) (m : Command) (p : Word) : State :=
  match s.owner m.ctx m.seq with
  | some c =>
    let e := engineCode m.op
    s.trc 2 0 c [.word m.ctx.num, .word e, .word ((cOpcode m.op).map (·.1) |>.getD 0),
      .word (m.slot.getD (if e = 1 then copyEngineOf m.ctx.tile else e)), .long p.toNat]
  | none => s

/-- A command is accepted: the promised time lands in its register (R142, R244). -/
def State.promise (s : State) (m : Command) (p : Word) : State :=
  let s := s.accepted m p
  match m.prom with
  | none => s
  | some n => s.onCtx m.ctx fun c =>
      { c with landings := c.landings ++ [⟨m.seq, [(.s n, wordVal p, allBits)], 0, s.clk + 1, 0, none⟩] }

/-- A command will make no more accesses. -/
def State.accDone (s : State) (k : CtxId) (seq : Nat) : State :=
  s.onOwner k seq fun c => { c with opens := c.opens.map fun o => if o.seq = seq then { o with acc := false, sent := true } else o }

/-- A remote command has sent its last packet (R317). -/
def State.sentDone (s : State) (k : CtxId) (seq : Nat) : State :=
  s.onOwner k seq fun c => { c with opens := c.opens.map fun o => if o.seq = seq then { o with sent := true } else o }

/-- A command is over (R143). -/
def State.retire (s : State) (k : CtxId) (seq : Nat) : State :=
  s.onOwner k seq fun c => { c with opens := c.opens.filter fun o => o.seq != seq }

/-- A record joins the records that wait for their place in a queue of a context; queue 8 writes none (R220, R249). -/
def State.pushRec (s : State) (k : CtxId) (q : Nat) (r : Rec) (slot seq : Option Nat) (entry : Option EngEntry := none) : State :=
  if q < 8 then
    let put (c : Ctx) : Ctx :=
      let z := NMap.get {} c.cqs q
      let w : WaitRec := { record := { r with actual := BitVec.ofNat 64 s.gtime }, slot := slot, seq := seq, entry := entry }
      { c with cqs := NMap.set {} c.cqs q { z with waiting := z.waiting ++ [w] } }
    match seq with
    | some n => s.onOwner k n put
    | none => s.onCtx k put
  else match seq with
    | some n => s.retire k n
    | none => s

/-- The engine entry that a command holds when it completes, also where it does so at acceptance, and keeps until its record
is written (R250). A firing of a template holds one of a copy engine. -/
def Run.engEntry (r : Run) : Option EngEntry :=
  match r.cmd.op with
  | .scopy _ | .scopyc _ => some (.copy (copyEngineOf r.cmd.ctx.tile))
  | .sarm _ => if r.template.isSome then some (.copy (copyEngineOf r.cmd.ctx.tile)) else none
  | .scfg _ | .srunGo _ | .srunBack _ | .sstop _ | .smm _ | .sarmg _ => some .config
  | .spost _ => some .post
  | _ => none

/-- Entries of an engine that commands of a context keep while their records wait. -/
def Ctx.keptEntries (c : Ctx) (e : EngEntry) : Nat :=
  (c.cqs.map fun q => (q.2.waiting.filter fun w => w.entry == some e).length).foldl (· + ·) 0

/-- Completion of a command: it leaves the accepted commands, the windows it read beyond show in PWB, and its record is
queued (R225, R243, R249). -/
def State.finishCmd (s : State) (r : Run) (x : Rec) : State :=
  let k := r.cmd.ctx
  let s := ((s.noteErrors r.met).accDone k r.cmd.seq).onOwner k r.cmd.seq fun c =>
    { c with runs := c.runs.filter fun q => q.cmd.seq != r.cmd.seq,
             hwait := c.hwait.filter fun q => q.cmd.seq != r.cmd.seq,
             waits := c.waits.filter fun q => q.cmd.seq != r.cmd.seq,
             sys := { c.sys with pwb := c.sys.pwb ||| r.pwb } }
  s.pushRec k r.cmd.f.q.toNat { x with promised := r.promised } r.cmd.slot (some r.cmd.seq) r.engEntry

/-- The trace shows an access of a command that begins to wait for a version switch (R344). -/
def State.traceHeld (s : State) (r : Run) : State :=
  match s.owner r.cmd.ctx r.cmd.seq, r.heldFor with
  | some c, some set =>
    if c.runs.any fun q => q.cmd.seq == r.cmd.seq && q.heldFor.isNone then s.trc 6 2 c [.word c.id.num, .word set] else s
  | _, _ => s

/-- Replace the record of an accepted command; the errors that its reads met are corrected or reported. -/
def State.putRun (s : State) (r : Run) : State :=
  let s := (s.traceHeld r).noteErrors r.met
  let r := { r with met := [] }
  s.onOwner r.cmd.ctx r.cmd.seq fun c => { c with runs := c.runs.map fun q => if q.cmd.seq = r.cmd.seq then r else q }

/-- STREAMID of a slot command, of a local copy, of a remote command, of a template's copy (R248). A collective's is the
global stream id, as R408 has it, where R248 would give its slot (log 31). -/
def State.streamId (s : State) (r : Run) : Nat :=
  match s.owner r.cmd.ctx r.cmd.seq with
  | none => 0
  | some c =>
    let gsid := (NMap.get {} c.lanes r.cmd.f.lane.toNat).gsid.toNat
    match r.cmd.op with
    | .sremw _ | .srema _ => gsid
    | .scopy f | .scopyc f => if f.space = 8 then gsid else 0x4000 + r.engine
    | .scoll _ => gsid
    | .sarm _ => 0x8000 + r.template.getD 0
    | _ => r.cmd.slot.getD 0

/-- KIND of a command's record (Table 8.13). -/
def recKind : Instr → Nat
  | .scopy _ | .scopyc _ => 1
  | .sarm _ | .sdisarm _ => 2
  | .scfg _ | .srunGo _ | .srunBack _ | .sarmg _ => 3
  | .sstop _ => 4
  | .spost _ => 5
  | .gath _ | .scat _ | .greplay _ => 6
  | .swload _ | .smm _ => 7
  | .spub _ | .svsw _ | .svstage _ => 8
  | .scoll _ | .sslot _ => 9
  | .csysShootdown _ | .csysReplay _ | .csysPantry _ => 10
  | _ => 0

/-- The trace shows a fault or poison of a command that holds a stream slot (R254). -/
def State.traceFault (s : State) (r : Run) (st : Status) (f : Nat) : State :=
  match s.owner r.cmd.ctx r.cmd.seq, r.cmd.slot with
  | some c, some n => if st = .fault ∨ st = .poison then s.trc 2 2 c [.word n, .word f] else s
  | _, _ => s

/-- The trace shows a ONCE fault of an engine, by its code of R216 (R307). -/
def State.traceOnce (s : State) (c : Ctx) (engine code : Nat) (a : Word) : State :=
  if code = codeOnce then s.trc 4 0 c [.word engine, .long a.toNat, .word c.id.num] else s

/-- Completion at acceptance with a status (R222, R244): P := A. -/
def State.failCmd (s : State) (r : Run) (st : Status) (fault : Nat) : State :=
  let r := { r with promised := if r.cmd.prom.isSome then BitVec.ofNat 64 s.gtime else 0 }
  ((s.promise r.cmd r.promised).traceFault r st fault).finishCmd r
    { status := st, kind := recKind r.cmd.op, sid := s.streamId r, fault := BitVec.ofNat 32 fault }

/-! ## Requests of the hub -/

/-- A request on a partition's hub request ring; its number (R430). -/
def State.hubRequest (s : State) (kind part tile ctx : Nat) (args : List Word) : Nat × State :=
  (s.hub.nextReq, { s with hub := { s.hub with requests := s.hub.requests ++ [⟨s.hub.nextReq, kind, part, tile, ctx, args⟩],
                                               nextReq := s.hub.nextReq + 1 } })

/-- Entries of a partition's hub request ring (R430). -/
def ringEntries (p : Nat) : Nat := 2 ^ (6 + Config.ringSize p % 7)

/-- The request of a number, once it stands in its partition's ring: while the ring is full it waits. A PREEMPT report, which
has no answer, holds no entry (log 19). -/
def State.posted (s : State) (id : Nat) : Option HubReq :=
  (s.hub.requests.find? fun r => r.id == id).filter fun r =>
    decide (((s.hub.requests.takeWhile fun q => q.id != id).filter fun q => q.part == r.part && q.kind != 7).length < ringEntries r.part)

/-- Take the request of a number off the ring, if it stands there. -/
def State.takeRequest (s : State) (id : Nat) : Option HubReq × State :=
  match s.posted id with
  | none => (none, s)
  | some r => (some r, { s with hub := { s.hub with requests := s.hub.requests.filter fun q => q.id != id } })

/-- A bit of SPLIT for a partition: 0 hardware, 1 host-assisted (Table 17.3). -/
def State.splitBit (s : State) (p bit : Nat) : Bool := (NMap.get 0 s.split p).getLsbD bit

/-! ## Record writes (R249, R250) -/

/-- The 32 bytes of a record of a context at a place of its ring. -/
def Rec.bytesOf (r : Rec) (num tail log2 : Nat) : List Byte :=
  let phase := 1 - tail / 2 ^ log2 % 2
  let v := r.status.code + 2 ^ 8 * (r.kind + 2 ^ 4 * phase + 2 ^ 5 * num) + 2 ^ 16 * (r.sid % 2 ^ 16)
    + 2 ^ 32 * r.fault.toNat + 2 ^ 64 * r.version.toNat + 2 ^ 96 * (r.bytes % 2 ^ 32)
    + 2 ^ 128 * r.promised.toNat + 2 ^ 192 * r.actual.toNat
  toBytes 32 v

/-- The records of the SDISARMs whose firings are over, in their own queues after the records of those firings (R242). -/
def State.settleDisarms (s : State) (k : CtxId) : State :=
  match s.ctx? k with
  | none => s
  | some c =>
    let firing (t : Option Nat) : Bool := c.runs.any (fun r => r.template == t)
      || c.cqs.any fun z => z.2.waiting.any fun w => w.record.kind == 2 && some w.record.sid == t.map (0x8000 + ·)
    let free := c.waits.filter fun w => (match w.cmd.op with
      | .sdisarm _ => true
      | _ => false) && !firing w.template
    free.foldl (fun s w => s.finishCmd w { status := .ok, kind := 2, sid := 0x8000 + w.template.getD 0, bytes := w.bytes }) s

/-- The first waiting record of queue q of a context is written as one write, if its ring has room; its slot and its engine
entry are freed, its command is over, and its writes have reached instruction fetch (R124). A full ring delays it, which
the trace shows once. A word that a bank holds for a bundle, a closed shutter and a FULL word of a ONCE region delay it too
(R292, R293, log 18). -/
def execRecordWrite (k : CtxId) (q : Nat) (s : State) : Out :=
  match s.ctx? k with
  | none => .next s
  | some c =>
    let z := NMap.get {} c.cqs q
    match z.waiting with
    | [] => .next s
    | w :: rest =>
      if 2 ^ z.log2 ≤ z.tail - z.head then
        if w.delayed then .next s
        else
          let s := s.trc 2 7 c [.word k.num, .word q]
          .next (s.onCtx k fun c => { c with cqs := NMap.set {} c.cqs q { z with waiting := { w with delayed := true } :: rest } })
      else
        let a := z.base + BitVec.ofNat 64 (32 * (z.tail % 2 ^ z.log2))
        let written (s : State) : State :=
          let s := s.onCtx k fun c =>
            { c with cqs := NMap.set {} c.cqs q { z with waiting := rest, tail := z.tail + 1 } }
          (match w.seq with
            | some n => (s.retire k n).reachFetch k n
            | none => s).settleDisarms k
        match s.writePlace (s.engPlace c (s.viewerNow c) [] true a) (w.record.bytesOf k.num z.tail z.log2) with
        | .done s => .next (written s)
        | .wait => .next s
        | .fault code => .next (if code = codeOnce then s else written s)
        | _ => .next (written s)

/-- HEAD of queue q is read again while a record waits on a full ring (R250). -/
def execRingHeadReread (k : CtxId) (q : Nat) (s : State) : Out :=
  match s.ctx? k with
  | none => .next s
  | some c =>
    let z := NMap.get {} c.cqs q
    if z.waiting.isEmpty || decide (z.tail - z.head < 2 ^ z.log2) then .next s
    else match s.placeOf c (z.entry + 12) with
      | some (.stored key _) =>
        let h := s.valueAt key 4
        -- HEAD counts records modulo 2^32; TAIL is not visible and does not wrap
        let back := (z.tail % 2 ^ 32 + 2 ^ 32 - h) % 2 ^ 32
        .next (s.onCtx k fun c => { c with cqs := NMap.set {} c.cqs q { z with head := z.tail - back } })
      | _ => .next s

end Sys2Proof.Machine
end

