-- ==== Sys2Proof/Machine/Remote.lean ====
section
/-! DEFINITION. Remote commands: attachment of lanes, space-8 addresses, packets and planes (R316, R317, R390 to R393). -/

namespace Sys2Proof.Machine

/-- DPKG of a space-8 address (Table 15.2). -/
def addrPkg (a : Word) : Nat := wordField a 50 10

/-- Whether a space-8 address may be used (R390). -/
def State.remoteOk (s : State) (a : Word) : Bool :=
  let dsp := wordField a 48 2
  dsp ≤ 1 && (dsp == 0 || wordField a 28 20 == 0)
    && (addrPkg a == s.hub.pkg || wordField (NMap.get 0 s.hub.route (addrPkg a)) 63 1 == 1)

/-- Whether another lane of a context of the package, resident or pre-empted, is attached to a package with a GSID (R316). -/
def State.attachedElsewhere (s : State) (k : CtxId) (lane dpkg : Nat) (gsid : BitVec 16) : Bool :=
  let same (l : Nat × Lane) : Bool := l.2.att && l.2.dpkg == dpkg && l.2.gsid == gsid
  (s.ctxs.any fun c => c.lanes.any fun l => same l && !(c.id == k && l.1 == lane))
    || s.hub.saved.any fun v => v.ctx.lanes.any same

/-- The check of a remote command's lane against a package (R316): NOLANE, BUSY, or none. -/
def State.attachCheck (s : State) (c : Ctx) (lane dpkg : Nat) : Option Status :=
  let l := NMap.get {} c.lanes lane
  if !l.bound then some .nolane
  else if l.att then (if l.dpkg = dpkg then none else some .nolane)
  else if s.attachedElsewhere c.id lane dpkg l.gsid then some .busy
  else none

/-- The trace shows that a lane was attached, or that an attachment to a package was refused (R329). -/
def State.traceLane (s : State) (c : Ctx) (lane dpkg : Nat) : State :=
  s.trc 5 3 c [.word c.id.num, .word lane, .word (NMap.get {} c.lanes lane).gsid.toNat, .word dpkg]

def State.traceRefusal (s : State) (c : Ctx) (lane dpkg : Nat) (st : Status) : State :=
  if st = .nolane ∨ st = .busy then s.traceLane c lane dpkg else s

/-- The dispatcher attaches a lane at its first remote command (R316, R317). -/
def State.attach (s : State) (k : CtxId) (lane dpkg : Nat) : State :=
  match s.ctx? k with
  | none => s
  | some c =>
    let l := NMap.get {} c.lanes lane
    if l.att then s
    else (s.traceLane c lane dpkg).onCtx k fun c => { c with lanes := NMap.set {} c.lanes lane { l with att := true, dpkg := dpkg, seqs := [] } }

/-- Planes that a slot of the partition's table withholds, and the planes of a tag's own slot (R403). -/
def State.slotNow (s : State) (p : Nat) : Option SlotEntry :=
  let t := NMap.get {} s.hub.slots p
  let total := (t.entries.map (·.len)).foldl (· + ·) 0
  if total = 0 ∨ s.gtime < t.t0.toNat then none
  else
    let off := (s.gtime - t.t0.toNat) % total
    let rec find : List SlotEntry → Nat → Option SlotEntry
      | [], _ => none
      | e :: r, o => if o < e.len then some e else find r (o - e.len)
    find t.entries off

/-- Whether a partition's table has a slot of a tag. -/
def State.hasTag (s : State) (p tag : Nat) : Bool := (NMap.get {} s.hub.slots p).entries.any fun e => e.tag == tag

/-- Whether every port of a plane is up (R391). -/
def State.planeUp (s : State) (plane : Nat) : Bool :=
  (List.range 8).all fun die => !NMap.get false s.hub.portDown (die * 4 + plane)

/-- ROUTEn as it reads: the planes whose ports are down are clear (R391). -/
def State.routeReg (s : State) (n : Nat) : Word :=
  (List.range 4).foldl (fun w i => if s.planeUp i then w else w &&& ~~~(1#64 <<< i)) (NMap.get 0 s.hub.route n)

/-- Usable planes to a package for a packet of a tag, 0 for none (R392, R403), in ascending order. -/
def State.planes (s : State) (p dpkg tag : Nat) : List Nat :=
  let r := s.routeReg dpkg
  let all := (List.range 4).filter fun i => r.getLsbD i
  let now := s.slotNow p
  let inSlot (i : Nat) : Bool := match now with
    | some e => e.tag != 0 && e.planes.testBit i
    | none => false
  if tag ≠ 0 ∧ s.hasTag p tag then
    match now with
    | some e => if e.tag = tag then all.filter fun i => e.planes.testBit i else []
    | none => []
  else all.filter fun i => !inSlot i

/-- Packets of a context's lane to a package that are not acknowledged. -/
def State.unacked (s : State) (c : Ctx) (lane dpkg : Nat) : List OutPkt :=
  s.hub.outbox.filter fun o => o.k == c.id && o.lane == lane && o.dpkg == dpkg && sameTask o.cmd c.seq

/-- Whether the next sequence number of a lane lies within the window (R317). -/
def State.windowOpen (s : State) (c : Ctx) (lane dpkg : Nat) : Bool :=
  let n := NMap.get 0 (NMap.get {} c.lanes lane).seqs dpkg
  match s.unacked c lane dpkg with
  | [] => true
  | o :: _ => decide ((n + 2 ^ 32 - o.pkt.seq.toNat) % 2 ^ 32 < 2 ^ 20)

/-- A packet leaves (R317, R389, R392): next number of the lane to that package, which the trace shows where it fills the
window (R329); a packet to this package reaches the local ingress without a plane. body gives OP, SUB, TYPE, LEN, DADDR, data and flags. -/
def State.sendPkt (s : State) (c : Ctx) (lane dpkg cmd elem tag : Nat) (body : Packet) : State :=
  let l := NMap.get {} c.lanes lane
  let n := NMap.get 0 l.seqs dpkg
  let pkt := { body with src := s.hub.pkg, gsid := l.gsid, seq := BitVec.ofNat 32 n, good := true,
                         first := (s.unacked c lane dpkg).isEmpty }
  let us := s.planes c.part dpkg tag
  let plane := if dpkg = s.hub.pkg ∨ us = [] then none else us[n % us.length]?
  let s := match s.unacked c lane dpkg with
    | o :: _ => if (n + 1 + 2 ^ 32 - o.pkt.seq.toNat) % 2 ^ 32 = 2 ^ 20 then
        s.trc 5 4 c [.word c.id.num, .word lane, .word o.pkt.seq.toNat] else s
    | [] => s
  let s := s.onOwner c.id c.seq fun c =>
    { c with lanes := NMap.set {} c.lanes lane { l with seqs := NMap.set 0 l.seqs dpkg ((n + 1) % 2 ^ 32) } }
  { s with hub := { s.hub with
      outbox := s.hub.outbox ++ [⟨c.id, lane, dpkg, cmd, elem, pkt, s.clk, s.clk, plane, none, false, c.part⟩],
      local_ := if dpkg = s.hub.pkg then s.hub.local_ ++ [pkt] else s.hub.local_ } }

/-- Whether every packet of a command is acknowledged (R243). -/
def State.allAcked (s : State) (k : CtxId) (cmd : Nat) : Bool := !s.hub.outbox.any fun o => o.k == k && o.cmd == cmd

end Sys2Proof.Machine
end

