-- ==== Sys2Proof/Machine/Streams.lean ====
section
/-! DEFINITION. The stream engine: acceptance with its checks, door bindings, service turns, diversion, completion (R211
to R232, R243, R355, R356). A service turn performs its accesses at once (log 14). Elements of 4 bits are taken in
pairs, one byte each (R224). -/

namespace Sys2Proof.Machine

/-! ## The shape of a stream (R223, R224) -/

/-- Type, size of a unit in bytes, units per entry, whether a unit is a pair of 4-bit elements. -/
def Run.ty (r : Run) : ElemType := elemOfCode r.cmd.f.ty.toNat
def Run.isGather (r : Run) : Bool :=
  match r.cmd.op with
  | .gath _ | .scat _ | .greplay _ => true
  | _ => false
/-- A copy: SCOPY, SCOPYC or a firing of a template. -/
def Run.rowCopy (r : Run) : Bool :=
  match r.cmd.op with
  | .scopy _ | .scopyc _ | .sarm _ => true
  | _ => false
def Run.paired (r : Run) : Bool := ElemType.bits r.ty == 4 && !r.isGather
def Run.usize (r : Run) : Nat :=
  if r.isGather then 2 ^ blkField r.blk 4 1 else if r.paired then 1 else ElemType.bits r.ty / 8
def Run.per (r : Run) : Nat := 64 / r.usize
def Run.n0 (r : Run) : Nat := if r.paired then blkField r.blk 0 4 / 2 else blkField r.blk 0 4

/-- E in units. -/
def Run.units (r : Run) : Nat :=
  if r.isGather then blkField r.blk 0 4 else r.n0 * blkField r.blk 4 4 * blkField r.blk 8 4 * blkField r.blk 12 4

/-- Element number of a unit, as the fault code names it (R225). -/
def Run.elemNo (r : Run) (n : Nat) : Nat := if r.paired then 2 * n else n

def Run.f (r : Run) : CF := r.cmd.f

/-- Base address: base register plus immediate where the opcode's immediate is an offset (R55, R224, R232). -/
def Run.base (r : Run) : Word :=
  match r.cmd.op with
  | .scirc _ | .swload _ | .scfg _ | .sslot _ => r.cmd.base
  | _ => r.cmd.base + r.f.imm

/-- Address of unit n before the space rule (R224). -/
def Run.unitAddr (r : Run) (n : Nat) : Word :=
  let n0 := r.n0
  let n1 := blkField r.blk 4 4
  let n2 := blkField r.blk 8 4
  let i0 := n % n0
  let i1 := n / n0 % n1
  let i2 := n / (n0 * n1) % n2
  let i3 := n / (n0 * n1 * n2)
  let st0 : Int := if r.paired then 1 else blkSigned r.blk 16 4
  r.base + BitVec.ofInt 64 (st0 * i0 + blkSigned r.blk 20 4 * i1 + blkSigned r.blk 24 4 * i2 + blkSigned r.blk 28 4 * i3)

/-- Space of a command's elements: S, or 2 for a circuit (R232). -/
def Run.sp (r : Run) : Nat :=
  match r.cmd.op with
  | .scirc _ => 2
  | _ => r.f.space.toNat

/-- Spaces that Table 8.8 allows for the elements of a command. -/
def Run.spaceOk (r : Run) : Bool :=
  match r.cmd.op with
  | .saff _ | .sind _ | .swload _ => r.sp == 0 || r.sp == 1 || r.sp == 2 || r.sp == 4
  | .sremw _ | .srema _ => r.sp == 8
  | .scirc _ => true
  | _ => r.sp == 0 || r.sp == 1 || r.sp == 2

/-- Whether a stream command is marked S in Table 2.10: its base and immediate form an address of space S (R55). -/
def Run.marked (r : Run) : Bool :=
  match r.cmd.op with
  | .scirc _ | .srec _ | .sconst _ => false
  | _ => true

/-- Whether the elements carry block scales (R224): types 10 to 12, with AUX naming the scales. -/
def Run.scaled (r : Run) : Bool :=
  ElemType.scaled r.ty && (match r.cmd.op with
    | .sind _ | .sindw _ | .sfill _ | .scirc _ | .srec _ | .sconst _ => false
    | _ => true)

def Run.aux (r : Run) : Word := blkWord r.blk 40

/-- Units per scale block: 16 elements. -/
def Run.blkUnits (r : Run) : Nat := if r.paired then 8 else 16

/-- Flags of Table 8.8. -/
def Run.stamps (r : Run) : Bool :=
  match r.cmd.op with
  | .saffw f | .sindw f | .sremw f => f.flags.getLsbD 0
  | _ => false

def Run.idx64 (r : Run) : Bool := r.f.flags.getLsbD 4

/-- The elements of a faulted stream end before the fault. -/
def Run.limit (r : Run) : Nat :=
  if r.isGather then r.units
  else match r.fault with
    | some (_, n) => Nat.min n r.units
    | none => r.units

/-! ## Doors of a command (R213, R214) -/

def Ctx.setDoor (c : Ctx) (code : Nat) (d : List DoorItem) : Ctx :=
  if code < 32 then { c with doorsIn := NMap.set [] c.doorsIn code d }
  else { c with doorsOut := NMap.set [] c.doorsOut (code - 32) d }

/-- An entry enters a door. -/
def Ctx.pushDoor (c : Ctx) (code : Nat) (e : DoorEntry) (now : Nat) : Ctx := c.setDoor code (c.door code ++ [.entry e now])

/-- The head entry of a door that no VGET has claimed (R171); an ordering token at the head, which its door removes once it
is open, lets nothing past (R323). -/
def Ctx.popDoor (c : Ctx) (code : Nat) : Option (DoorEntry × Ctx) :=
  if 32 ≤ code ∧ c.vgets.any (fun g => g.door + 32 == code) then none
  else match c.door code with
    | .entry e _ :: rest => some (e, { c with afterTok := c.afterTok.filter fun d => d + 32 != code }.setDoor code rest)
    | _ => none

/-- Tile of bit j of a multicast mask (R230). -/
def dieTile (tile j : Nat) : Nat :=
  (tile / 16 / 4 * 4 + j / 4) * 16 + (tile % 16 / 4 * 4 + j % 4)

/-- Tiles of a multicast (R230, R264). -/
def Run.mcTiles (r : Run) (mask : Nat) : List Nat :=
  ((List.range 16).filter fun j => mask.testBit j).map (dieTile r.cmd.ctx.tile)

/-- A door of a task: a launch has at most one task on a tile, and a pre-empted task keeps its doors (R214, R230, R251). -/
structure DoorId where
  launch : Nat
  k : CtxId
  door : Nat
  deriving DecidableEq, Repr

/-- The door of its own context, or for SMCAST of its destinations, that a command fills. -/
def Command.fills (m : Command) : Option Nat :=
  let d := m.f.door.toNat
  match m.op with
  | .saff _ | .sind _ | .sconst _ | .srec _ | .smcast _ => some d
  | .gath _ | .scoll _ | .scirc _ => if d < 32 then some d else none
  | _ => none

/-- The door that it empties. -/
def Command.empties (m : Command) : Option Nat :=
  let d := m.f.door.toNat
  match m.op with
  | .saffw _ | .sindw _ | .sremw _ | .srema _ => some d
  | .srec f => some (f.imm.toNat % 64)
  | .scat _ | .scoll _ | .scirc _ => if 32 ≤ d ∧ d < 48 then some d else none
  | _ => none

/-- Contexts in which a command fills its door: its own, or those of a multicast's destinations, resident or not (R230). -/
def State.fillsIn (s : State) (c : Ctx) (r : Run) : List CtxId :=
  match r.cmd.op with
  | .smcast _ => (r.mcTiles (blkField r.blk 48 2)).filterMap (s.taskIn c.task.launch)
  | _ => [c.id]

/-- Doors that a command of a context is bound to as producer, and as consumer. -/
def State.producerDoors (s : State) (c : Ctx) (r : Run) : List DoorId :=
  match r.cmd.fills with
  | some d => (s.fillsIn c r).map fun k => ⟨c.task.launch, k, d⟩
  | none => []

def Run.consumerDoors (r : Run) (c : Ctx) : List DoorId := r.cmd.empties.toList.map fun d => ⟨c.task.launch, c.id, d⟩

/-- The resident context of a door. -/
def State.doorCtx (s : State) (d : DoorId) : Option Ctx :=
  (s.ctx? d.k).filter fun c => c.live && c.task.launch == d.launch && (c.task.stage == .ready || c.task.stage == .running)

/-- The trace shows the doors that a command takes or releases (R254). -/
def State.traceDoors (s : State) (c : Ctx) (r : Run) : State :=
  (s.producerDoors c r ++ r.consumerDoors c).foldl (fun s d =>
    s.traceAt 2 1 d.k.tile c.part d.k.num [.word d.k.num, .word d.door, .word (r.cmd.slot.getD 0)]) s

/-! ## Acceptance (R219, R222, R224) -/

/-- What reading a parameter block gives: a status with its fault code, or the block; its bank still serves others before it
(R310). -/
inductive BlockRead where
  | bad (st : Status) (fault : Nat)
  | ok (b : Line)
  | wait

/-- The block of a command, after the checks of its address (R222, R468). -/
def State.readBlock (s : State) (c : Ctx) (m : Command) : BlockRead :=
  let a := m.pblk
  if space a ≠ 2 ∨ !zeroBitsOk a ∨ ((s.tile c.id.tile).regionOf c.id.num (wordField a 0 23)).isNone then .bad .fault codeAccess
  else if a.toNat % 64 ≠ 0 then .bad .fault codeAlign
  else match s.ctlRead c (m.viewer c) [] (engineCode m.op) a 64 with
    | .value v _ => .ok (BitVec.ofNat 512 v)
    | .poison o => .bad .poison o.toNat
    | .wait => .wait
    | _ => .bad .fault codeAccess

/-- Whether a byte range of a block is zero. -/
def blkZero (b : Line) (lo n : Nat) : Bool := blkField b lo n == 0

/-- Step 2 of R222 for the stream block: reserved bytes. -/
def Run.rsvd (r : Run) : Bool :=
  !blkZero r.blk 56 8 || (match r.cmd.op with
    | .smcast _ => !blkZero r.blk 50 6
    | .scirc _ => decide (128 ≤ blkField r.blk 48 8)
    | _ => !blkZero r.blk 48 8)

/-- Step 3: fields outside their values (R224, R229, R230, R232). -/
def State.streamBadpb (s : State) (c : Ctx) (r : Run) : Bool :=
  (r.paired && blkField r.blk 0 4 % 2 == 1)
    || (r.scaled && (r.aux.toNat % 2 == 1 || !(space r.aux == 0 || space r.aux == 1 || space r.aux == 2 || space r.aux == 4)))
    || (r.stamps && decide (r.n0 * r.usize < 4))
    || (match r.cmd.op with
      | .smcast _ => blkZero r.blk 48 2
      | .scirc _ =>
        let t := blkField r.blk 48 1 % 128
        let (r0, c0, h, w) := s.rect c.part
        decide (t / 64 * 4 + t % 16 / 4 ≠ c.id.tile / 64 * 4 + c.id.tile % 16 / 4)
          || !(decide (r0 ≤ t / 16) && decide (t / 16 < r0 + h) && decide (c0 ≤ t % 16) && decide (t % 16 < c0 + w))
          || t == c.id.tile
      | _ => false)

/-- The address that a command forms, in its space (R55). -/
def Run.primary (r : Run) : Word := (formAddr r.sp r.base).getD 0

/-- Step 4 (R224): NOLANE and the attachment, BUSY, OK for no element, SIZE, NOTASK; none when the command runs. -/
def State.streamStep4 (s : State) (c : Ctx) (r : Run) : Option Status :=
  let remote := match r.cmd.op with
    | .sremw _ | .srema _ => true
    | _ => false
  let lane := r.f.lane.toNat
  let first := if remote then s.attachCheck c lane (addrPkg r.primary) else none
  match first with
  | some st => some st
  | none =>
    let usesEndpoint (e : Nat) (q : Run) : Bool := match q.cmd.op with
      | .scirc g => g.imm.toNat % 8 == e
      | _ => false
    let endpointBusy : Bool := match r.cmd.op with
      | .scirc f => c.runs.any (usesEndpoint (f.imm.toNat % 8))
      | _ => false
    if endpointBusy then some .busy
    else if r.units = 0 then some .ok
    else if 2 ^ 32 - 1 < r.units * r.usize then some .size
    else match r.cmd.op with
      | .smcast _ =>
        if (r.mcTiles (blkField r.blk 48 2)).any (fun t => (s.taskIn c.task.launch t).isNone) then some .notask else none
      | _ => none

/-- A command becomes an accepted one; it has left the queue (R219). -/
def State.addRun (s : State) (r : Run) : State :=
  let s := { s with stamp := s.stamp + 1 }
  s.onCtx r.cmd.ctx fun c => { c with runs := c.runs ++ [{ r with stamp := s.stamp }] }

/-- The stream engine accepts a stream command (R222, R224, R244). An address formed outside space S ends it with ACCESS (R55),
which goes before the checks of R224's step 4 (log 14). -/
def State.acceptStream (s : State) (c : Ctx) (m : Command) : State :=
  let r : Run := { cmd := m }
  match s.readBlock c m with
  | .bad st f => s.failCmd r st f
  | .wait => s
  | .ok b =>
    let r := { r with blk := b }
    if r.rsvd then s.failCmd r .rsvd 0
    else if s.streamBadpb c r then s.failCmd r .badpb 0
    else if r.marked ∧ (formAddr r.sp r.base).isNone then s.failCmd r .fault codeAccess
    else match s.streamStep4 c r with
      | some st =>
        let remote := match m.op with
          | .sremw _ | .srema _ => true
          | _ => false
        (if remote then s.traceRefusal c m.f.lane.toNat (addrPkg r.primary) st else s).failCmd r st 0
      | none =>
        let remote := match m.op with
          | .sremw _ | .srema _ => true
          | _ => false
        let time := promiseTime s.gtime (if remote then 4096 else 256) (r.units * r.usize)
        let r := { r with promised := if m.prom.isSome then time else 0 }
        let s := if remote then s.attach c.id m.f.lane.toNat (addrPkg r.primary) else s
        let r := { r with phase := if s.producerDoors c r ++ r.consumerDoors c = [] then .active else .queued }
        (s.promise m r.promised).addRun r

/-! ## Bindings (R214) -/

/-- The command that holds a slot of a tile, with its context. -/
def State.runAt (s : State) (tile slot : Nat) : Option (Ctx × Run) :=
  (s.ctxs.filter fun c => c.id.tile == tile).findSome? fun c =>
    (c.runs.find? fun r => r.cmd.slot == some slot).map fun r => (c, r)

/-- Whether another command is bound to a door in a role, or one of the same context was issued earlier and waits for it, in
QUEUED or for its engine (R214). -/
def State.doorTaken (s : State) (c : Ctx) (r : Run) (d : DoorId) (producer : Bool) : Bool :=
  let own (x : Ctx) : Bool := x.id == c.id && x.task.launch == c.task.launch
  (s.everyCtx.any fun x => x.runs.any fun q =>
    (!own x || q.cmd.seq != r.cmd.seq) && (q.phase != .queued || (own x && decide (q.cmd.seq < r.cmd.seq)))
      && (if producer then s.producerDoors x q else q.consumerDoors x).contains d)
  || (d.k == c.id && (s.tile c.id.tile).queue.any fun m => m.ctx == c.id && decide (m.seq < r.cmd.seq)
      && (if producer then m.fills else m.empties) == some d.door)

/-- Circuits into a tile that are active (R232). -/
def State.inboundCircuits (s : State) (t : Nat) : Nat :=
  (s.ctxs.map fun c => (c.runs.filter fun q => q.phase != .queued && (match q.cmd.op with
    | .scirc _ => blkField q.blk 48 1 % 128 == t
    | _ => false)).length).foldl (· + ·) 0

/-- Batches in progress on a tile, at most four (R300). -/
def State.batches (s : State) (tile : Nat) : Nat :=
  ((s.ctxs.filter fun c => c.id.tile == tile).map fun c =>
    (c.runs.filter fun q => q.isGather && q.phase != .queued).length).foldl (· + ·) 0

/-- A QUEUED command takes every binding it needs, or none, and becomes ACTIVE (R214, R220, R232).
A weight load becomes active by R331 alone. -/
def execDoorBinding (tile slot : Nat) (s : State) : Out :=
  match s.runAt tile slot with
  | none => .next s
  | some (c, r) =>
    let circuitOk := match r.cmd.op with
      | .scirc _ => decide (s.inboundCircuits (blkField r.blk 48 1 % 128) < 8)
      | _ => true
    if r.phase ≠ .queued ∨ r.wload ∨ !circuitOk ∨ (r.isGather ∧ 4 ≤ s.batches tile)
        ∨ (s.producerDoors c r).any (fun d => s.doorTaken c r d true) ∨ (r.consumerDoors c).any (fun d => s.doorTaken c r d false) then .next s
    else .next ((s.traceDoors c r).putRun { r with phase := .active })

/-! ## Accesses of a running command -/

/-- Where an access of a command goes: a circuit goes to the remote tile's regions of the partition (R232). -/
def State.runPlace (s : State) (c : Ctx) (r : Run) (write : Bool) (a : Word) : EPlace :=
  match r.cmd.op with
  | .scirc _ =>
    let t := blkField r.blk 48 1 % 128
    let off := wordField a 0 23
    if !zeroBitsOk a then .fault codeAccess
    else match (s.tile t).treg.find? fun p => (List.range 4).any fun n =>
        tregHolds p.2 n off && s.ctxs.any fun x => x.live && x.id == ⟨t, n⟩ && x.part == c.part with
      | some p => s.portPlace c.id.tile (.stored (tileKey t off) (rkindOf (wordField p.2 27 2)))
      | none => .fault codeAccess
  | .scopy _ | .scopyc _ | .sarm _ =>
    s.engPlace c (s.runViewer c r r.seen) (r.srcPage.toList ++ r.dstPage.toList ++ (s.tile (s.homeSlice c.part a.toNat)).l2) write a
  | .gath _ | .scat _ | .greplay _ =>
    let die := c.id.tile / 64 * 4 + c.id.tile % 16 / 4
    s.engPlace c (r.cmd.viewer c) (NMap.get [] s.hub.base (2 * die + c.id.tile % 2)) write a
  | _ => s.engPlace c (r.cmd.viewer c) (s.tlbOf c.id.tile c.part a.toNat) write a

/-- Entries of the fault spill queue that a command uses: its diverted elements, and those read ahead of their delivery
(R355). -/
def Run.spills (r : Run) : Nat := r.diverted.length + (r.got.filter (·.ahead)).length

/-- Entries in use of a tile's queue (R355, R356); r: a command as it stands now. -/
def State.spillUsed (s : State) (tile : Nat) (r : Option Run := none) : Nat :=
  ((s.everyCtx.filter fun c => c.id.tile == tile).flatMap fun c =>
    c.runs.map fun q => match r with
      | some r => if c.owns r.cmd.ctx r.cmd.seq && q.cmd.seq == r.cmd.seq then r.spills else q.spills
      | none => q.spills).foldl (· + ·) 0

/-- The queue holds 1,024 entries, and 1,024 more for each pantry extension that serves it (R355, R377). -/
def State.spillSize (s : State) (tile : Nat) : Nat :=
  1024 * (1 + (((s.ctxs.filter fun c => c.id.tile == tile).flatMap fun c => c.secs.map (·.extSpill)).foldl (· + ·) 0))

def State.spillRoom (s : State) (tile : Nat) (r : Option Run := none) : Bool := decide (s.spillUsed tile r < s.spillSize tile)

/-- The trace shows that the element that a command now diverts or reads ahead takes the last entry of the queue (R361). -/
def State.traceSpillFull (s : State) (c : Ctx) (r : Run) : State :=
  if s.spillSize c.id.tile ≤ s.spillUsed c.id.tile (some r) + 1 then
    s.trc 7 2 c [.word c.id.tile, .word (r.cmd.slot.getD 48)] else s

/-- A walk raised now (R353, R429). -/
def State.newWalk (s : State) (part : Nat) (a : Word) (write : Bool) : WalkState := .waiting a write none (s.splitBit part 0) s.clk

/-- A stream that stops at an element because the fault spill queue is full: one to be diverted, or one to be read ahead
(R356). -/
def State.stoppedBySpill (s : State) (r : Run) : Bool :=
  let faulted := match r.walk with
    | some (.fault _ code _) => code == codePage
    | _ => false
  let ahead := !r.rowCopy && !r.wload && r.cmd.fills.isSome && !r.diverted.isEmpty && decide (r.pos < r.limit)
  !s.spillRoom r.cmd.ctx.tile && !r.isGather && (faulted || ahead)

/-- What an access of a command comes to, with the command as it goes on: done, waiting (for presence, an order, or a walk
that it has asked for), or faulted. -/
inductive Access (α : Type) where
  | got (x : α) (r : Run)
  | wait (r : Run)
  | fault (code : Nat) (r : Run)

/-- The walk that an access needs (R348, R353): a fault found by the last walk of that address is the access's fault. -/
def State.askWalk (s : State) (c : Ctx) (r : Run) (a : Word) (write : Bool) : Access α :=
  match r.walk with
  | some (.fault va code _) => if va = a then .fault code r else .wait { r with walk := some (s.newWalk c.part a write) }
  | some (.waiting ..) => .wait r
  | none => .wait { r with walk := some (s.newWalk c.part a write) }

/-- The address whose walk found a fault, and the log2 of the bytes of its page. -/
def Run.walkVa (r : Run) : Word :=
  match r.walk with
  | some (.fault va _ _) => va
  | _ => 0
def Run.walkLog2 (r : Run) : Nat :=
  match r.walk with
  | some (.fault _ _ log2) => log2
  | _ => 16

/-- Whether an episode is one of the page of an address of a partition (R357). -/
def Episode.covers (e : Episode) (part : Nat) (va : Word) : Bool :=
  e.part == part && decide (e.base ≤ va.toNat) && decide (va.toNat < e.base + 2 ^ e.log2)

/-- An episode of the page of an address begins, unless one is open (R357). -/
def State.openEpisode (s : State) (k : CtxId) (part : Nat) (va : Word) (log2 : Nat) (write : Bool) (slot : Nat) : State :=
  if s.hub.episodes.any fun e => e.covers part va then s
  else
    let kind : Word := if write then 1 else 0
    let s := s.hubFault 1 part k.tile k.num [va, kind]
    let (req, s) := if s.splitBit part 1 then
        let (n, s) := s.hubRequest 2 part k.tile k.num [va, kind, BitVec.ofNat 64 slot]
        (some n, s)
      else (none, s)
    let e : Episode :=
      { part := part, base := va.toNat / 2 ^ log2 * 2 ^ log2, log2 := log2, tile := k.tile, since := s.clk, lastWalk := s.clk, req := req }
    { s with hub := { s.hub with episodes := s.hub.episodes ++ [e] } }

/-- The element that a command has under way is diverted on the page whose walk found the fault: an episode of the page
begins with it, or takes it in (R355, R357, R361). -/
def State.beginDiversion (s : State) (c : Ctx) (r : Run) (write : Bool) : State :=
  let s := s.openEpisode c.id c.part r.walkVa r.walkLog2 write (r.cmd.slot.getD 48)
  (s.trc 7 1 c [.word c.id.tile, .word (r.cmd.slot.getD 48), .long r.walkVa.toNat,
    .word (s.spillUsed c.id.tile (some r) + 1)]).traceSpillFull c r

/-- The next element has not met a walk, nor waited for presence. -/
def Run.fresh (r : Run) : Run := { r with walk := none, defers := [], heldFor := none, seen := none }

/-- The access under way of a template firing has been presented, and waits under the epoch that it then had (R335). -/
def Run.present (r : Run) (v : Viewer) : Run :=
  if r.template.isNone || r.seen.isSome || (r.walk.isNone && r.heldFor.isNone && r.defers.isEmpty) then r
  else { r with seen := some (v.epoch, v.view, v.staging) }

/-- What a walk that met another partition's key slot or an uncorrectable error answers, in place of a fault code (R438). -/
def walkOutpart : Nat := 256 + 2
def walkEcc : Nat := 256 + 1

/-- Such a walk makes poison of its cause. -/
def walkPoison (c : Ctx) (x : Access α) (f : BitVec 32 → α) : Access α :=
  match x with
  | .fault code r => if 256 ≤ code then .got (f (engOrigin (code - 256) c.id.tile (engineCode r.cmd.op))) r else .fault code r
  | y => y

/-- The tile memory that a command's accesses of space 2 go to is its own tile's, where an SBAR may hold them (R325): a
circuit's is another tile's, and a template firing is no command. -/
def Run.ownTile (r : Run) : Bool :=
  match r.cmd.op with
  | .scirc _ | .sarm _ => false
  | _ => true

/-- The same read as it waited before. -/
def Run.deferOf (r : Run) (a : Word) (n : Nat) : Option Deferral := r.defers.find? fun d => d.addr == a && d.size == n

/-- A read of an element, index or scale of a command: its value and poison origin; a window read beyond its bound shows in
the command's PWB bits (R225, R297). -/
def State.runRead (s : State) (c : Ctx) (r : Run) (sp : Nat) (raw : Word) (n : Nat) : Access (Nat × BitVec 32) :=
  match formAddr sp raw with
  | none => .fault codeAccess r
  | some a =>
    if a.toNat % n ≠ 0 then .fault codeAlign r
    else if r.ownTile && s.barred c r.cmd.seq a then .wait r
    else match s.readAt c (s.runPlace c r false a) (engineCode r.cmd.op) a n (r.deferOf a n) with
      | .value v w => .got (v, 0) { r with pwb := r.pwb ||| w, met := r.met ++ s.errorsAt c (s.runPlace c r false a) a n }
      | .poison o => .got (0, o) { r with met := r.met ++ s.errorsAt c (s.runPlace c r false a) a n }
      | .fault code => .fault code r
      | .wait => .wait r
      | .hold set => .wait { r with heldFor := some set }
      | .defer key kind =>
        .wait (if (r.deferOf a n).isSome then r else { r with defers := r.defers ++ [s.newDeferral a n key kind] })
      | .walk => walkPoison c (s.askWalk c r a false) fun o => (0, o)

/-- An entry comes to the front of a list kept in order of use. -/
def touchEntry (e : TEntry) (l : List TEntry) : List TEntry := e :: l.erase e

/-- The TLBs that a command's access to an address went through, in order of use (R349): a stream's L1, filled from the home
slice; for a batch of the gather engine the base die's; a copy has none of its own. -/
def State.useTlb (s : State) (c : Ctx) (r : Run) (a : Word) : State :=
  if space a ≠ 0 then s
  else if r.isGather then
    let b := 2 * (c.id.tile / 64 * 4 + c.id.tile % 16 / 4) + c.id.tile % 2
    let l := NMap.get [] s.hub.base b
    match findEntry l c.part a.toNat with
    | some e => { s with hub := { s.hub with base := NMap.set [] s.hub.base b (touchEntry e l) } }
    | none => s
  else if r.rowCopy then s
  else s.useL1 c.id.tile c.part a

/-- Poison counts once, with its first origin (Table 8.3). The record of a stream that fills a door takes it as well as that
of a stream that stores (log 14). -/
def Run.poisonBy (r : Run) (o : BitVec 32) : Run := if r.poison = 0 then { r with poison := o } else r

/-! ## Producing streams: reads (R227, R355) -/

/-- Address of unit n of an indexed stream from its index (R227). -/
def Run.indexed (r : Run) (idx : Nat) : Word :=
  let i := sintOf (if r.idx64 then 64 else 32) idx
  r.base + BitVec.ofInt 64 (i * blkSigned r.blk 16 4)

def Run.isIndexed (r : Run) : Bool :=
  match r.cmd.op with
  | .sind _ | .sindw _ => true
  | _ => false

/-- Bytes of an index. -/
def Run.idxSize (r : Run) : Nat := if r.idx64 then 8 else 4

/-- Where the index of unit n stands, and the scale of its block (R224, R227). -/
def Run.indexAddr (r : Run) (n : Nat) : Word := r.aux + BitVec.ofNat 64 (n * r.idxSize)
def Run.scaleAddr (r : Run) (n : Nat) : Word := r.aux + BitVec.ofNat 64 (2 * (n / r.blkUnits))

/-- The address of unit n, with the poison of its index read. -/
def State.unitAddress (s : State) (c : Ctx) (r : Run) (n : Nat) : Access (Word × BitVec 32) :=
  if !r.isIndexed then .got (r.unitAddr n, 0) r
  else
    let raw := r.indexAddr n
    let sp := space raw
    if !(sp == 0 || sp == 1 || sp == 2 || sp == 4) then .fault codeAccess r
    else match s.runRead c r sp raw r.idxSize with
      | .got (v, o) q => .got (r.indexed v, o) q
      | .wait q => .wait q
      | .fault code q => .fault code q

/-- The scale of the block of unit n; 0 where the type has none. -/
def State.unitScale (s : State) (c : Ctx) (r : Run) (n : Nat) : Access (Nat × BitVec 32) :=
  if !r.scaled then .got (0, 0) r
  else
    match s.runRead c r (space (r.scaleAddr n)) (r.scaleAddr n) 2 with
    | .got (v, o) q => .got (v % 1024, o) q
    | .wait q => .wait q
    | .fault code q => .fault code q

/-- Read unit n whole: its value, scale and poison, and its address. -/
def State.readUnit (s : State) (c : Ctx) (r : Run) (n : Nat) : Access (Got × Word) :=
  match s.unitAddress c r n with
  | .wait q => .wait q
  | .fault code q => .fault code q
  | .got (raw, o1) r =>
    if o1 ≠ 0 then .got ({ n := n, val := 0, scale := 0, poison := o1 }, 0) r
    else if !r.spaceOk then .fault codeAccess r
    else match s.unitScale c r n with
      | .wait q => .wait q
      | .fault code q => .fault code q
      | .got (sc, o2) r =>
        match s.runRead c r r.sp raw r.usize with
        | .wait q => .wait q
        | .fault code q => .fault code q
        | .got (v, o3) q => .got ({ n := n, val := v, scale := sc, poison := if o2 ≠ 0 then o2 else o3 }, raw) q

/-- A stream stops at an element (R225): no diverted part of that element or a later one takes effect. -/
def Run.stopAt (r : Run) (code n : Nat) : Run :=
  let stop : Run := { r.fresh with fault := some (code, n), half := false, diverted := r.diverted.filter fun d => decide (d.n < n) }
  match r.fault with
  | some (_, m) => if n < m then stop else r
  | none => stop

/-- The TLBs that the reads of unit n at an address went through: those of its index and its scale among them (R349). -/
def State.useTlbs (s : State) (c : Ctx) (r : Run) (n : Nat) (raw : Word) : State :=
  let s := if r.isIndexed then s.useTlb c r (r.indexAddr n) else s
  let s := if r.scaled then s.useTlb c r (r.scaleAddr n) else s
  s.useTlb c r ((formAddr r.sp raw).getD 0)

/-- Read units from pos on, in one line, within the entry under assembly or ahead of a diverted element. fuel bounds
the units of a turn. -/
def State.readUnits (s : State) (c : Ctx) (r : Run) (line : Option Word) : Nat → State × Run
  | 0 => (s, r)
  | fuel + 1 =>
    let ahead := !r.diverted.isEmpty
    let room := s.spillRoom c.id.tile (some r)
    if r.limit ≤ r.pos ∨ (!ahead ∧ r.outp / r.per * r.per + r.per ≤ r.pos) ∨ (ahead ∧ !room) then (s, r)
    else match s.readUnit c r r.pos with
      | .wait q => (s, q)
      | .fault code q =>
        if code = codePage ∧ room then
          let d : Diverted := { n := r.pos, addr := q.walkVa, va := q.walkVa, write := false, data := 0, size := r.usize, since := s.clk }
          (s.beginDiversion c q false, { q.fresh with diverted := r.diverted ++ [d], pos := r.pos + 1 })
        else if code = codePage then (s, q)
        else (s, q.stopAt code r.pos)
      | .got (g, raw) q =>
        let here := raw >>> 6
        if line.any (fun l => l != here) then (s, r)
        else
          let s := s.useTlbs c r r.pos raw
          let s := if ahead then s.traceSpillFull c r else s
          let r := { q.fresh with pos := r.pos + 1, got := r.got ++ [{ g with ahead := ahead }] }
          s.readUnits c (if g.poison = 0 then r else r.poisonBy g.poison) (some here) fuel

/-! ## Assembly and delivery of entries (R211, R216, R224) -/

/-- A door entry from the units [lo, hi) that were read; the rest of it is zero. -/
def Run.entryOf (r : Run) (lo hi : Nat) : DoorEntry :=
  let us := (List.range (hi - lo)).filterMap fun i => r.got.find? fun g => g.n == lo + i
  match us.find? fun g => g.poison != 0 with
  | some g => ⟨g.poison.setWidth 512, 0, g.poison⟩
  | none =>
    let data := us.foldl (fun d g => d ||| (BitVec.ofNat 512 g.val <<< (8 * r.usize * (g.n % r.per)))) (0 : Line)
    let band := us.foldl (fun b g =>
      if ElemType.scaled r.ty ∧ g.n % r.blkUnits = 0 then b ||| (BitVec.ofNat 128 (g.scale % 1024) <<< (16 * (r.usize * (g.n % r.per) / 8)))
      else b) (0 : BitVec 128)
    ⟨data, band, 0⟩

/-- The end of the entry under assembly, when all its units are read. -/
def Run.readyEntry (r : Run) : Option Nat :=
  let hi := Nat.min (r.outp / r.per * r.per + r.per) r.limit
  if r.outp < hi ∧ (List.range (hi - r.outp)).all (fun i => r.got.any fun g => g.n == r.outp + i) then some hi else none

/-- An entry enters every destination door at once, if each has room (R230). -/
def State.pushAll (s : State) (doors : List DoorId) (e : DoorEntry) : Option State :=
  let room (d : DoorId) : Bool := (s.doorCtx d).any fun c => c.doorRoom d.door
  if doors.all room then some (doors.foldl (fun t d => t.onCtx d.k fun c => c.pushDoor d.door e s.clk) s) else none

/-- One turn of a stream that reads memory into doors. -/
def State.turnRead (s : State) (c : Ctx) (r : Run) : State :=
  match r.readyEntry with
  | some hi =>
    match s.pushAll (s.producerDoors c r) (r.entryOf r.outp hi) with
    | none => s
    | some s =>
      s.putRun { r with got := r.got.filter (fun g => decide (hi ≤ g.n)), outp := hi,
                        bytes := r.bytes + (hi - r.outp) * r.usize }
  | none =>
    if !c.laneClear r.f.lane r.cmd.seq then s
    else
      let (s, r') := s.readUnits c r none 64
      s.putRun r'

/-- One turn of SCONST (R228): an entry of constants. -/
def State.turnConst (s : State) (c : Ctx) (r : Run) : State :=
  let hi := Nat.min (r.outp + r.per) r.units
  let w := ElemType.bits r.ty
  let v := if w = 4 then r.f.imm.toNat % 16 * 17 else r.f.imm.toNat % 2 ^ w
  let units := (List.range (hi - r.outp)).map fun i => ({ n := r.outp + i, val := v, scale := blkField r.blk 32 2 % 1024, poison := 0 } : Got)
  match s.pushAll (s.producerDoors c r) ({ r with got := units }.entryOf r.outp hi) with
  | none => s
  | some s => s.putRun { r with outp := hi, pos := hi, bytes := r.bytes + (hi - r.outp) * r.usize }

/-- One turn of SREC (R228): a whole entry, with band and poison, from an output door. -/
def State.turnRec (s : State) (c : Ctx) (r : Run) : State :=
  if !c.doorRoom r.f.door.toNat then s
  else match c.popDoor (r.f.imm.toNat % 64) with
    | none => s
    | some (e, c') =>
      let hi := Nat.min (r.outp + r.per) r.units
      let s := s.onCtx c.id fun _ => c'.pushDoor r.f.door.toNat e s.clk
      s.putRun { r with outp := hi, pos := hi, bytes := r.bytes + 64 }

/-! ## Storing streams (R227, R229, R231, R355) -/

/-- The stamp of a command (R229, R335): none while its switch has not taken effect. -/
def State.stampOf (_ : State) (c : Ctx) (m : Command) : Option (BitVec 32) :=
  if m.epoch = 0 then some 0 else (c.task.taken[m.epoch - 1]?).map fun t => t.2.2

/-- The value of unit n of the entry held, its last bytes of a record replaced by the stamp. -/
def Run.stored (r : Run) (n : Nat) (stamp : BitVec 32) : Nat :=
  let w := 8 * r.usize
  let v := match r.cmd.op with
    | .sfill _ => if r.paired then blkField r.blk 32 1 % 16 * 17 else blkField r.blk 32 8 % 2 ^ w
    | _ => elem w r.part (n % r.per)
  if !r.stamps then v
  else
    let start := n % r.n0 * r.usize
    let tail := r.n0 * r.usize - 4
    let bytes := (List.range r.usize).map fun j =>
      if tail ≤ start + j then BitVec.ofNat 8 (stamp.toNat / 2 ^ (8 * (start + j - tail))) else BitVec.ofNat 8 (v / 2 ^ (8 * j))
    leBytes bytes

/-- Whether a write of a lane-0 command touches a line of one of its diverted writes, or one whose address is not known
(R355). -/
def Run.touchesDiverted (r : Run) (a : Word) : Bool :=
  r.diverted.any fun d => d.index || ((d.write || r.rowCopy) && d.addr >>> 6 == a >>> 6)

/-- A write of a command whose address must be a multiple of size: performed, waiting, or faulted; a write to another
partition's bank writes nothing and poisons the record. -/
def State.runWriteAligned (s : State) (c : Ctx) (r : Run) (sp : Nat) (raw : Word) (size : Nat) (bs : List Byte) :
    Access (State × BitVec 32) :=
  match formAddr sp raw with
  | none => .fault codeAccess r
  | some a =>
    if a.toNat % size ≠ 0 then .fault codeAlign r
    else if r.ownTile && s.barred c r.cmd.seq a then .wait r
    else if r.f.lane ≠ 0 ∧ !r.diverted.isEmpty then .wait r
    else if r.touchesDiverted a then .wait r
    else match s.writePlace (s.runPlace c r true a) bs (some (r.cmd.ctx, r.cmd.seq)) with
      | .done s => .got (s.useTlb c r a, 0) r
      | .wait => .wait r
      | .hold set => .wait { r with heldFor := some set }
      | .walk => walkPoison c (s.askWalk c r a true) fun o => (s, o)
      | .poison cause => .got (s, engOrigin cause c.id.tile (engineCode r.cmd.op)) r
      | .fault code => .fault code r

/-- A write of a unit of its own size. -/
def State.runWrite (s : State) (c : Ctx) (r : Run) (sp : Nat) (raw : Word) (bs : List Byte) : Access (State × BitVec 32) :=
  s.runWriteAligned c r sp raw bs.length bs

/-- An element of a storing stream whose access needs service leaves for the spill queue with its data (R355). -/
def Run.divertWrite (r : Run) (now n : Nat) (addr : Word) (index : Bool) (data size : Nat) : Run :=
  { r.fresh with diverted := r.diverted ++
      [{ n := n, addr := addr, va := r.walkVa, write := !index, data := data, size := size, since := now, index := index }] }

/-- What an attempt at a piece of unit n comes to: written or diverted, with what is left to do behind it; or the stream
waits there, or stops. -/
def State.writeOr (s : State) (c : Ctx) (r : Run) (n sp : Nat) (raw : Word) (bs : List Byte) : State × Run × Bool :=
  match s.runWrite c r sp raw bs with
  | .got (s, o) r => (s, if o = 0 then r.fresh else r.fresh.poisonBy o, true)
  | .wait q => (s, q, false)
  | .fault code q =>
    if code = codePage ∧ s.spillRoom c.id.tile (some q) then
      (s.beginDiversion c q true, q.divertWrite s.clk n ((formAddr sp raw).getD 0) false (leBytes bs) bs.length, true)
    else if code = codePage then (s, q, false)
    else (s.traceOnce c (engineCode r.cmd.op) code ((formAddr sp raw).getD 0), q.stopAt code n, false)

/-- Write the scale of the block that begins at unit n, if one does, from the band to the half at AUX (R224). -/
def State.writeScale (s : State) (c : Ctx) (r : Run) (n : Nat) : State × Run × Bool :=
  if r.scaled ∧ n % r.blkUnits = 0 then
    let h := elem 16 (r.band.setWidth 512) (r.usize * (n % r.per) / 8) % 1024
    s.writeOr c r n (space (r.scaleAddr n)) (r.scaleAddr n) (toBytes 2 h)
  else (s, r, true)

/-- Write the data of unit n at an address, and behind it its scale. The data is written in the act in which the scale is
written, diverted or faults, so that it is written once, and not where the element faults; where the data itself was
diverted, the scale is still to come (R224, R225). -/
def State.writeBoth (s : State) (c : Ctx) (r : Run) (n : Nat) (raw : Word) (stamp : BitVec 32) : State × Run × Bool :=
  let scale (s : State) (r : Run) : State × Run × Bool :=
    match s.writeScale c r n with
    | (t, q, true) => (t, { q with half := false }, true)
    | x => x
  if r.half then scale s r
  else match s.runWrite c r r.sp raw (toBytes r.usize (r.stored n stamp)) with
    | .got (t, o) q =>
      let q := if o = 0 then q else q.poisonBy o
      match t.writeScale c (if r.scaled ∧ n % r.blkUnits = 0 then q else q.fresh) n with
      | (t, q, true) => (t, q, true)
      | (_, q, false) => (s.traceOnce c (engineCode r.cmd.op) ((q.fault.map (·.1)).getD 0) (r.scaleAddr n), q, false)
    | .wait q => (s, q, false)
    | .fault _ _ =>
      match s.writeOr c r n r.sp raw (toBytes r.usize (r.stored n stamp)) with
      | (s, q, false) => (s, q, false)
      | (s, q, true) => scale s { q with half := true }

/-- Write unit n with its scale. -/
def State.writeUnit (s : State) (c : Ctx) (r : Run) (n : Nat) (stamp : BitVec 32) : State × Run × Bool :=
  match s.unitAddress c r n with
  | .wait q => (s, q, false)
  | .fault code q =>
    if code = codePage ∧ s.spillRoom c.id.tile (some q) then
      (s.beginDiversion c q false, q.divertWrite s.clk n q.walkVa true (r.stored n stamp) r.usize, true)
    else if code = codePage then (s, q, false)
    else (s, q.stopAt code n, false)
  | .got (raw, o) r =>
    if o ≠ 0 then (s, (r.fresh).poisonBy o, true)
    else if !r.spaceOk then (s, r.stopAt codeAccess n, false)
    else
      let s := if r.isIndexed then s.useTlb c r (r.indexAddr n) else s
      s.writeBoth c r n raw stamp

/-- Write units of the entry held, in one line. -/
def State.writeUnits (s : State) (c : Ctx) (r : Run) (stamp : BitVec 32) (line : Option Word) : Nat → State × Run
  | 0 => (s, r)
  | fuel + 1 =>
    if r.limit ≤ r.pos ∨ !r.held then (s, r)
    else
      let here := r.unitAddr r.pos >>> 6
      if line.any (fun l => l != here) then (s, r)
      else match s.writeUnit c r r.pos stamp with
        | (s, r, false) => (s, r)
        | (s, r, true) =>
          let p := r.pos + 1
          let r := { r with pos := p, outp := p, bytes := r.bytes + r.usize,
                            held := !(p % r.per == 0 || p == r.units) }
          s.writeUnits ((s.ctx? c.id).getD c) r stamp (some here) fuel

/-- The entry that a storing stream takes next (R213); a poisoned one is passed over with nothing written (Table 8.3). -/
def State.takeEntry (s : State) (c : Ctx) (r : Run) : State × Run :=
  match r.cmd.op with
  | .sfill _ => (s, { r with held := true })
  | _ =>
    match c.popDoor r.f.door.toNat with
    | none => (s, r)
    | some (e, c') =>
      let s := s.onCtx c.id fun _ => c'
      if e.poison = 0 then (s, { r with held := true, part := e.data, band := e.band })
      else
        let p := Nat.min (r.pos / r.per * r.per + r.per) r.units
        (s, { r with pos := p, outp := p }.poisonBy e.poison)

/-- One turn of a storing stream: it takes an entry, or writes a line. -/
def State.turnWrite (s : State) (c : Ctx) (r : Run) : State :=
  if r.limit ≤ r.pos then s
  else if !r.held then
    let (s, r) := s.takeEntry c r
    s.putRun r
  else if !c.laneClear r.f.lane r.cmd.seq then s
  else match s.stampOf c r.cmd with
    | none =>
      if r.stamps then s
      else
        let (s, r) := s.writeUnits c r 0 none 64
        s.putRun r
    | some st =>
      let (s, r) := s.writeUnits c r st none 64
      s.putRun r

/-! ## Remote streams (R231, R393) -/

/-- Units from n on, within the entry held, that fall at consecutive addresses of one line of the remote memory. -/
def Run.runLength (r : Run) (n : Nat) : Nat → Nat
  | 0 => 0
  | fuel + 1 =>
    if n + 1 < r.limit ∧ (n + 1) % r.per ≠ 0 ∧ r.unitAddr (n + 1) = r.unitAddr n + BitVec.ofNat 64 r.usize
        ∧ r.unitAddr (n + 1) >>> 6 = r.unitAddr n >>> 6 then 1 + r.runLength (n + 1) fuel
    else 1

/-- The bytes of units [n, n + m) of the entry held. -/
def Run.unitBytes (r : Run) (n m : Nat) (stamp : BitVec 32) : List Byte :=
  (List.range m).flatMap fun i => toBytes r.usize (r.stored (n + i) stamp)

/-- Write the scales of the blocks that begin at some units, each once. -/
def State.remoteScales (s : State) (c : Ctx) (r : Run) : List Nat → State × Run × Bool
  | [] => (s, r, true)
  | n :: rest =>
    if r.scales.contains n then s.remoteScales c r rest
    else match s.writeScale c r n with
      | (s, q, true) => s.remoteScales c { q with scales := q.scales ++ [n] } rest
      | x => x

/-- The packet of m units from the next one on (R231, R316, R317, R393). -/
def State.sendUnits (s : State) (c : Ctx) (r : Run) (a : Word) (m : Nat) (st : BitVec 32) : State :=
  let isA := match r.cmd.op with
    | .srema _ => true
    | _ => false
  let bs := r.unitBytes r.pos m st
  let p := r.pos + m
  let pkt : Packet :=
    { op := if isA then .bankop else .write, first := false, last := decide (p = r.units), nf := false, poison := false,
      sub := if isA then r.f.flags.toNat / 16 % 8 else 0, ty := r.f.ty, len := bs.length, src := 0, gsid := 0, seq := 0,
      daddr := BitVec.ofNat 64 (wordField a 0 50), data := BitVec.ofNat 512 (leBytes bs), good := true }
  let s := s.sendPkt c r.f.lane.toNat (addrPkg a) r.cmd.seq r.pos 0 pkt
  s.putRun { r with pos := p, outp := p, bytes := r.bytes + bs.length, scales := [], held := !(p % r.per == 0 || p == r.units) }

/-- One turn of SREMW or SREMA: an entry is taken, or a packet of consecutive elements leaves, the scales of its blocks
written before it; a scale that faults stops the stream at its element, and the elements before it leave (R225). A packet
leaves behind those of the commands before it in the lane; a scale is a local write, which waits until those are acknowledged
(R313, R317). The packets and the local accesses of one command do not wait for each other's acknowledgements (log 14). -/
def State.turnRemote (s : State) (c : Ctx) (r : Run) : State :=
  let lane := r.f.lane.toNat
  if r.limit ≤ r.pos then s
  else if !r.held then
    let (s, r) := s.takeEntry c r
    s.putRun r
  else if !(if r.scaled then c.laneClear r.f.lane r.cmd.seq else c.laneSent r.f.lane r.cmd.seq) || !r.diverted.isEmpty then s
  else match formAddr 8 (r.unitAddr r.pos), (if r.stamps then s.stampOf c r.cmd else some 0) with
    | none, _ => s.putRun (r.stopAt codeAccess r.pos)
    | _, none => s
    | some a, some st =>
      let isA := match r.cmd.op with
        | .srema _ => true
        | _ => false
      if !s.remoteOk a || addrPkg a != (NMap.get {} c.lanes lane).dpkg || (isA && wordField a 48 2 != 1) then
        s.putRun (r.stopAt codeAccess r.pos)
      else if a.toNat % r.usize ≠ 0 then s.putRun (r.stopAt codeAlign r.pos)
      else if !s.windowOpen c lane (addrPkg a) then s
      else
        let m := r.runLength r.pos 64
        match s.remoteScales c r ((List.range m).map (r.pos + ·)) with
        | (s, q, true) => if q.diverted.isEmpty then s.sendUnits c q a m st else s.putRun q
        | (s, q, false) =>
          let m' := Nat.min m (q.limit - q.pos)
          if q.fault.isNone ∨ m' = 0 then s.putRun q else s.sendUnits c q a m' st

/-! ## Service turns and completion -/

/-- One service turn of an ACTIVE slot of the stream engine (R221); a circuit has its own act. -/
def State.streamTurn (s : State) (c : Ctx) (r : Run) : State :=
  match r.cmd.op with
  | .saff _ | .sind _ | .smcast _ => s.turnRead c r
  | .sconst _ => s.turnConst c r
  | .srec _ => s.turnRec c r
  | .saffw _ | .sindw _ | .sfill _ => s.turnWrite c r
  | .sremw _ | .srema _ => s.turnRemote c r
  | _ => s

/-- A circuit moves one entry between its door and the remote tile memory (R232). -/
def execCircuitEntryMove (tile slot : Nat) (s : State) : Out :=
  match s.runAt tile slot with
  | none => .next s
  | some (c, r) =>
    match r.cmd.op with
    | .scirc _ =>
      if r.phase ≠ .active then .next s
      else if r.f.door.toNat < 32 then .next (s.turnRead c r)
      else .next (s.turnWrite c r)
    | _ => .next s

/-- Whether a stream has nothing left to do (Table 8.11). -/
def State.streamDone (s : State) (r : Run) : Bool :=
  r.phase != .queued && decide (r.limit ≤ r.pos) && decide (r.limit ≤ r.outp) && r.diverted.isEmpty
    && s.allAcked r.cmd.ctx r.cmd.seq

/-- Fault field of a record: code and element, at most 2^24 - 1 (R225). -/
def faultField (code n : Nat) : BitVec 32 := BitVec.ofNat 32 (code + 2 ^ 8 * Nat.min n (2 ^ 24 - 1))

/-- Status and FAULT of a run: FAULT prevails over POISON (R225). -/
def Run.outcome (r : Run) : Status × BitVec 32 :=
  match r.fault with
  | some (code, n) => (.fault, faultField code (r.elemNo n))
  | none => if r.poison = 0 then (.ok, 0) else (.poison, r.poison)

/-- A stream whose completion condition holds completes with its record (R243, R246). -/
def State.completeStream (s : State) (c : Ctx) (r : Run) : State :=
  let (st, f) := r.outcome
  let version := if r.stamps then (s.stampOf c r.cmd).getD 0 else 0
  ((s.traceFault r st f.toNat).traceDoors c r).finishCmd r { status := st, kind := 0, sid := s.streamId r, fault := f, version := version, bytes := r.bytes }

end Sys2Proof.Machine
end

