-- ==== Sys2Proof/Machine/Gather.lean ====
section
/-! DEFINITION. The gather engine: GATH, SCAT, GREPLAY (R300 to R304). An act of the engine handles one element, first the
indices of them all, then the reads of them all, then what becomes of them (R301). -/

namespace Sys2Proof.Machine

/-- The operation of SCAT by its code (Tables 10.6, 10.7); none for STORE and codes beyond. -/
def scatOp : Nat → Option BankOp
  | 1 => some .add | 2 => some .min | 3 => some .max | 4 => some .and | 5 => some .or | 6 => some .xor | 7 => some .fadd
  | _ => none

/-- Whether the batch scatters. -/
def Run.scatters (r : Run) : Bool :=
  match r.cmd.op with
  | .scat _ => true
  | .greplay _ => (blkField r.blk 6 1).testBit 1
  | _ => false

def Run.isReplay (r : Run) : Bool :=
  match r.cmd.op with
  | .greplay _ => true
  | _ => false

/-- Whether DATA is used: no door, or a replay (Table 10.7). -/
def Run.usesData (r : Run) : Bool := r.isReplay || r.f.door == 63

def Run.gOp (r : Run) : Nat := blkField r.blk 5 1
def Run.gIdx (r : Run) : Word := blkWord r.blk 8
def Run.gData (r : Run) : Word := blkWord r.blk 16
def Run.gFmap (r : Run) : Word := blkWord r.blk 32
def Run.gIdxSize (r : Run) : Nat := if (blkField r.blk 6 1).testBit 0 then 8 else 4

/-- Element type of the batch: T, or RTYPE for a replay. -/
def Run.gTy (r : Run) : Nat := if r.isReplay then blkField r.blk 7 1 else r.f.ty.toNat

/-- Space of the table: S, or the space of the sum for a replay (R301, R304). -/
def Run.gSpace (r : Run) : Nat := if r.isReplay then space r.base else r.f.space.toNat

/-- Whether an operation pairs with the type and element size (Table 10.6). -/
def opPairs (op ty esize : Nat) : Bool :=
  op == 0 || (op == 7 && ty == 0 && esize == 2) || (1 ≤ op && op ≤ 6 && ((ty == 8 && esize == 2) || (ty == 9 && esize == 3)))

def dataSpace (sp : Nat) (write : Bool) : Bool := sp == 0 || sp == 1 || sp == 2 || (!write && sp == 4)

/-- BADPB of the gather block (R300, Table 10.7). -/
def Run.gatherBadpb (r : Run) : Bool :=
  let n := blkField r.blk 0 4
  let e := blkField r.blk 4 1
  let fl := blkField r.blk 6 1
  n == 0 || decide (4096 < n) || decide (e < 2) || decide (6 < e) || decide (4 ≤ fl) || decide (7 < r.gOp)
    || (!r.scatters && r.gOp != 0) || decide (10 ≤ r.gTy) || !opPairs r.gOp r.gTy e
    || !dataSpace (space r.gIdx) false
    || (r.usesData && !dataSpace (space r.gData) (!r.scatters))
    || !(space r.gFmap == 1 || space r.gFmap == 2) || r.gFmap.toNat % 64 != 0

/-- What reading a fault bitmap gives. -/
inductive BitmapRead where
  | bad (st : Status) (fault : BitVec 32)
  | ok (bits : Nat)
  | wait

/-- The 512 bytes of a fault bitmap, by a control read (R304, R468). -/
def State.readBitmap (s : State) (c : Ctx) (v : Viewer) (a : Word) : BitmapRead :=
  (List.range 8).foldl (fun acc i => match acc with
    | .bad st f => .bad st f
    | .wait => .wait
    | .ok bits => match s.ctlRead c v [] 2 (a + BitVec.ofNat 64 (64 * i)) 64 with
      | .value x _ => .ok (bits + 2 ^ (512 * i) * x)
      | .poison o => .bad .poison o
      | .fault code => .bad .fault (faultField code 0xFFFFFF)
      | .wait => .wait
      | _ => .bad .fault (faultField codeAccess 0xFFFFFF)) (.ok 0)

/-- The gather engine accepts a batch (R222, R300). A replay has its elements once its bitmap is read (R304). -/
def State.acceptGather (s : State) (c : Ctx) (m : Command) : State :=
  let r : Run := { cmd := m }
  match s.readBlock c m with
  | .bad st f => s.failCmd r st f
  | .wait => s
  | .ok b =>
    let r := { r with blk := b }
    if !blkZero b 44 20 then s.failCmd r .rsvd 0
    else if r.gatherBadpb then s.failCmd r .badpb 0
    else if (r.gSpace ≠ 0 ∧ r.gSpace ≠ 1) ∨ (formAddr r.gSpace r.base).isNone then s.failCmd r .fault codeAccess
    else if r.gOp ≠ 0 ∧ r.gSpace = 0 then s.failCmd r .badpb 0
    else
      let time := promiseTime s.gtime 256 (r.units * r.usize)
      let r := { r with promised := if m.prom.isSome then time else 0
                        todo := if r.isReplay then none else some (List.range r.units) }
      let s := if r.isReplay then s else s.trc 4 3 c [.word (m.slot.getD 0), .word r.units, .word r.gSpace, .word 0, .word 0]
      (s.promise m r.promised).addRun r

/-- A replay reads its bitmap as the first access of its batch, behind the earlier accesses of its lane (R302, R304, R313). A
read that fails ends it with no other effect (R468). -/
def State.replayBits (s : State) (c : Ctx) (r : Run) : State :=
  let noted := (List.range 8).foldl (fun s i => s.noteRead c (r.cmd.viewer c) [] (r.gFmap + BitVec.ofNat 64 (64 * i)) 64) s
  match s.readBitmap c (r.cmd.viewer c) r.gFmap with
  | .wait => s
  | .bad st f => (noted.traceFault r st f.toNat).finishCmd r { status := st, kind := 6, sid := s.streamId r, fault := f }
  | .ok bits =>
    let ns := (List.range r.units).filter fun i => bits.testBit i
    noted.putRun { r with todo := some ns, bytes := ns.length }

/-- An element faults alone (R303). -/
def Run.markElem (r : Run) (code n : Nat) : Run :=
  if r.marks.contains n then r.fresh else { r with marks := r.marks ++ [n] }.stopAt code n

/-- FILL repeated over an element (R301). -/
def Run.fillOf (r : Run) : Nat := leBytes ((List.range r.usize).map fun j => BitVec.ofNat 8 (blkField r.blk (24 + j % 8) 1))

/-- Where the index of element n stands. -/
def Run.gIndexAddr (r : Run) (n : Nat) : Word := r.gIdx + BitVec.ofNat 64 (n * r.gIdxSize)

/-- The address of the first element of todo is formed from its index (R301). -/
def State.formElem (s : State) (c : Ctx) (r : Run) (n : Nat) (rest : List Nat) : State :=
  let raw := r.gIndexAddr n
  let put (s : State) (r : Run) (e : GElem) : State := s.putRun { r.fresh with todo := some rest, addrs := r.addrs ++ [e] }
  match s.runRead c r (space raw) raw r.gIdxSize with
  | .wait q => s.putRun q
  | .fault code q => put (s.traceOnce c 2 code raw) (q.markElem code n) ⟨n, 0, true, 0, 0⟩
  | .got (v, o) q =>
    let st : Int := if blkField r.blk 40 4 = 0 then r.usize else blkSigned r.blk 40 4
    put (s.useTlb c r raw) (if o = 0 then q else q.poisonBy o) ⟨n, r.base + BitVec.ofInt 64 (sintOf (8 * r.gIdxSize) v * st), false, o, 0⟩

/-- What a gather makes of element e, whose address gave x (R301 to R303): FILL where it faulted. -/
def Run.gathered (r : Run) (e : GElem) (x : GRead) : Run :=
  let r' := match x.code with
    | some code => r.markElem code e.n
    | none => if x.poison = 0 then r.fresh else r.fresh.poisonBy x.poison
  { r' with addrs := r.addrs.tail
            vals := r.vals ++ [{ e with val := if x.code.isSome then r.fillOf else x.val, poison := x.poison }] }

/-- The value of the first element of a gather whose address stands is read: one read for each distinct address, whatever it
gave (R302). -/
def State.readElem (s : State) (c : Ctx) (r : Run) (e : GElem) : State :=
  let keep (s : State) (r : Run) (x : GRead) : State := s.putRun ({ r with cache := r.cache ++ [x] }.gathered e x)
  if e.faulted then s.putRun { r with addrs := r.addrs.tail, vals := r.vals ++ [{ e with val := r.fillOf }] }
  else if e.poison ≠ 0 then s.putRun { r with addrs := r.addrs.tail, vals := r.vals ++ [e] }
  else match r.cache.find? fun x => x.addr == e.addr with
    | some x => s.putRun (r.gathered e x)
    | none =>
      match s.runRead c r r.gSpace e.addr r.usize with
      | .wait q => s.putRun q
      | .fault code q => keep s q ⟨e.addr, 0, 0, some code⟩
      | .got (v, o) q => keep (s.useTlb c r ((formAddr r.gSpace e.addr).getD 0)) q ⟨e.addr, v, o, none⟩

/-- The operand of the first element of a scatter whose address stands: from the entry held, or from DATA. An element that
faults alone uses up its place in the entry; no element of a poisoned entry is applied (Table 8.3). -/
def State.operandElem (s : State) (c : Ctx) (r : Run) (e : GElem) : State :=
  let put (s : State) (r : Run) (e : GElem) : State := s.putRun { r.fresh with addrs := r.addrs.tail, vals := r.vals ++ [e] }
  if r.usesData then
    let a := r.gData + BitVec.ofNat 64 (e.n * r.usize)
    match s.runRead c r (space a) a r.usize with
    | .wait q => s.putRun q
    | .fault code q => put s (q.markElem code e.n) { e with faulted := true }
    | .got (u, o) q =>
      put (s.useTlb c r a) (if o = 0 then q else q.poisonBy o) { e with val := u, poison := if e.poison ≠ 0 then e.poison else o }
  else if !r.held then
    match c.popDoor r.f.door.toNat with
    | none => s
    | some (d, c') =>
      let s := s.onCtx c.id fun _ => c'
      if d.poison = 0 then s.putRun { r with held := true, part := d.data, band := d.band }
      else
        let (mine, rest) := r.addrs.partition fun x => x.n / r.per == e.n / r.per
        s.putRun { r.poisonBy d.poison with addrs := rest
                                            vals := r.vals ++ mine.map fun x => { x with poison := if x.poison ≠ 0 then x.poison else d.poison } }
  else put s { r with held := !((e.n + 1) % r.per == 0 || e.n + 1 == r.units), outp := e.n + 1 }
    { e with val := elem (8 * r.usize) r.part (e.n % r.per) }

/-- The first element of a gather whose value stands is delivered: to DATA, or to the entry under assembly. -/
def State.deliverElem (s : State) (c : Ctx) (r : Run) (e : GElem) : State :=
  let next (r : Run) : Run := { r.fresh with vals := r.vals.tail, pos := r.pos + 1 }
  if r.usesData then
    let a := r.gData + BitVec.ofNat 64 (e.n * r.usize)
    match s.runWrite c r (space a) a (toBytes r.usize (if e.poison = 0 then e.val else r.fillOf)) with
    | .wait q => s.putRun q
    | .fault code q => (s.traceOnce c 2 code a).putRun (next (q.markElem code e.n))
    | .got (s, o) q => s.putRun (next (if o = 0 then q else q.poisonBy o))
  else s.putRun { next r with got := r.got ++ [{ n := e.n, val := e.val, scale := 0, poison := e.poison }] }

/-- The first element of a scatter whose operand stands is applied, in index order: a write, or a bank operation (R301,
R303). -/
def State.applyElem (s : State) (c : Ctx) (r : Run) (e : GElem) : State :=
  let next (r : Run) : Run := { r.fresh with vals := r.vals.tail, pos := r.pos + 1 }
  if e.faulted ∨ e.poison ≠ 0 then s.putRun (next r)
  else match scatOp r.gOp with
    | none =>
      match s.runWrite c r r.gSpace e.addr (toBytes r.usize e.val) with
      | .wait q => s.putRun q
      | .fault code q => (s.traceOnce c 2 code ((formAddr r.gSpace e.addr).getD 0)).putRun (next (q.markElem code e.n))
      | .got (s, o) q => s.putRun (next (if o = 0 then q else q.poisonBy o))
    | some op =>
      match formAddr r.gSpace e.addr with
      | none => s.putRun (next (r.markElem codeAccess e.n))
      | some a =>
        if a.toNat % r.usize ≠ 0 then s.putRun (next (r.markElem codeAlign e.n))
        else match s.opPlace (s.runPlace c r true a) op r.usize e.val with
          | .done s => s.putRun (next r)
          | .wait | .hold _ | .walk => s.putRun r
          | .fault code => s.putRun (next (r.markElem code e.n))
          | .poison cause => (s.noteOp (s.runPlace c r true a) r.usize).putRun (next (r.poisonBy (engOrigin cause c.id.tile 2)))

/-- One act of a batch (R301): an entry enters its door; else, behind the earlier accesses of its lane, the bitmap of a
replay, the address of an element, with every address formed a value or operand, and with every one of these read a delivery
or an application. -/
def State.gatherTurn (s : State) (c : Ctx) (r : Run) : State :=
  if !r.scatters && !r.usesData && r.readyEntry.isSome then s.turnRead c r
  else if !c.laneClear r.f.lane r.cmd.seq then s
  else match r.todo, r.addrs, r.vals with
    | none, _, _ => s.replayBits c r
    | some (n :: rest), _, _ => s.formElem c r n rest
    | some [], e :: _, _ => if r.scatters then s.operandElem c r e else s.readElem c r e
    | some [], [], e :: _ => if r.scatters then s.applyElem c r e else s.deliverElem c r e
    | some [], [], [] => s

/-- Whether every element of a batch is handled and delivered. -/
def Run.batchOver (r : Run) : Bool :=
  r.phase != .queued && r.todo == some [] && r.addrs.isEmpty && r.vals.isEmpty
    && (r.scatters || r.usesData || decide (r.units ≤ r.outp))

/-- The bytes of the fault bitmap of a batch (R303). -/
def Run.bitmap (r : Run) : List Byte :=
  toBytes 512 (r.marks.foldl (fun b i => if b.testBit i then b else b + 2 ^ i) 0)

/-- A line of the bitmap cannot be written yet: a word held by its bank, a closed shutter, an SBAR. -/
def State.bitmapWaits (s : State) (c : Ctx) (r : Run) : Bool :=
  s.barred c r.cmd.seq r.gFmap || (List.range 8).any fun i =>
    match s.runPlace c r true (r.gFmap + BitVec.ofNat 64 (64 * i)) with
    | .stored key _ => (wordKeys key 64).any s.heldWords.contains
    | .wait => true
    | _ => false

/-- Write the bitmap, line by line; the code of a fault. -/
def State.writeBitmap (s : State) (c : Ctx) (r : Run) : State × Option Nat :=
  let bs := r.bitmap
  let bad := (List.range 8).findSome? fun i =>
    match s.runPlace c r true (r.gFmap + BitVec.ofNat 64 (64 * i)) with
    | .fault code => some code
    | .stored key kind => if kind = .once ∧ (wordKeys key 64).any (fun k => s.isFull k) then some codeOnce else none
    | _ => none
  match bad with
  | some code => (s, some code)
  | none =>
    ((List.range 8).foldl (fun t i =>
      match t.writePlace (t.runPlace c r true (r.gFmap + BitVec.ofNat 64 (64 * i))) ((bs.drop (64 * i)).take 64) (some (r.cmd.ctx, r.cmd.seq)) with
      | .done t => t
      | _ => t) s, none)

/-- A batch whose elements are over writes its whole bitmap and its record (R303, R304). -/
def execGatherBatchEnd (tile slot : Nat) (s : State) : Out :=
  match s.runAt tile slot with
  | none => .next s
  | some (c, r) =>
    if !r.isGather || !r.batchOver || s.bitmapWaits c r then .next s
    else
      let (s, bad) := s.writeBitmap c r
      let n := r.marks.length
      let (st, f) := match bad with
        | some code => (Status.fault, faultField code 0xFFFFFF)
        | none => r.outcome
      let s := if r.isReplay then s.trc 4 4 c [.word slot, .word r.bytes, .word n]
        else s.trc 4 3 c [.word slot, .word r.units, .word r.gSpace, .word st.code, .word n]
      .next (((s.traceFault r st f.toNat).traceDoors c r).finishCmd r
        { status := st, kind := 6, sid := slot, fault := f, version := BitVec.ofNat 32 n,
          bytes := r.usize * ((if r.isReplay then r.bytes else r.units) - n) })

end Sys2Proof.Machine
end

