-- ==== Sys2Proof/Machine/Copies.lean ====
section
/-! DEFINITION. The copy engines: SCOPY, SCOPYC and the copies of template firings (R233 to R236, R241, R244, R355). An
act of an engine moves bytes of one copy up to the end of a line (log 14). -/

namespace Sys2Proof.Machine

/-! ## The shape of a copy -/

def Run.rowb (r : Run) : Nat := blkField r.blk 0 4

/-- Bytes of a copy. -/
def Run.total (r : Run) : Nat := r.rowb * blkField r.blk 4 4

/-- Source and destination addresses of byte p, before the space rule. -/
def Run.srcAt (r : Run) (p : Nat) : Word :=
  r.src + BitVec.ofInt 64 ((p / r.rowb : Nat) * blkSigned r.blk 32 4) + BitVec.ofNat 64 (p % r.rowb)
def Run.dstAt (r : Run) (p : Nat) : Word :=
  r.dst + BitVec.ofInt 64 ((p / r.rowb : Nat) * blkSigned r.blk 36 4) + BitVec.ofNat 64 (p % r.rowb)

/-- SCOPYC computes a check. -/
def Run.checks (r : Run) : Bool :=
  match r.cmd.op with
  | .scopyc _ => true
  | _ => false

/-- The copy goes to another package's form of address. -/
def Run.remoteCopy (r : Run) : Bool :=
  match r.cmd.op with
  | .scopy f | .scopyc f => f.space == 8
  | _ => false

/-- Later lines of the copy wait behind a diverted one (R355, rule 2; the check takes bytes in order). -/
def Run.inOrder (r : Run) : Bool := r.checks || r.remoteCopy || (r.template.isNone && r.f.lane != 0)

/-- Space that a destination address is used in: S, or for a firing its own. -/
def Run.dstSpace (r : Run) (a : Word) : Nat := if r.template.isSome then space a else r.f.space.toNat

/-- Bytes before the fault. -/
def Run.copyEnd (r : Run) : Nat :=
  match r.fault with
  | some (_, n) => Nat.min n r.total
  | none => r.total

/-- A copy moves a whole line where both addresses and the row allow it, else a byte (R234). -/
def Run.piece (r : Run) (p : Nat) : Nat :=
  if (r.srcAt p).toNat % 64 = 0 ∧ (r.dstAt p).toNat % 64 = 0 ∧ 64 ≤ r.rowb - p % r.rowb then 64 else 1

/-! ## The check chain (R236) -/

def Run.ocs (r : Run) : Bool := r.f.flags.getLsbD 3
def Run.chainNo (r : Run) : Nat := r.f.flags.toNat / 16 % 4

/-- One byte of CRC-32C. -/
def crcByte (c : BitVec 32) (b : Byte) : BitVec 32 :=
  (List.range 8).foldl (fun c _ => if c.getLsbD 0 then (c >>> 1) ^^^ 0x82F63B78#32 else c >>> 1) (c ^^^ b.setWidth 32)

/-- One word of OCS32: end-around-carry sum. -/
def ocsWord (c : BitVec 32) (w : Nat) : BitVec 32 :=
  let t := c.toNat + w
  BitVec.ofNat 32 (if 2 ^ 32 ≤ t then t - 2 ^ 32 + 1 else t)

/-- Bytes written enter the chain; the bytes of an incomplete OCS word wait. -/
def Run.chainBytes (r : Run) : List Byte → Run
  | [] => r
  | b :: rest =>
    if r.ocs then
      let w := r.word ++ [b]
      if w.length = 4 then { r with chain := ocsWord r.chain (leBytes w), word := [] }.chainBytes rest
      else { r with word := w }.chainBytes rest
    else { r with chain := crcByte r.chain b }.chainBytes rest

/-- The internal value with the trailing bytes of a stopped copy. -/
def Run.chainEnd (r : Run) : BitVec 32 := if r.word = [] then r.chain else ocsWord r.chain (leBytes r.word)

/-- The value of the pseudocode. -/
def Run.checkValue (r : Run) : BitVec 32 := if r.ocs then r.chainEnd else r.chainEnd ^^^ 0xFFFFFFFF

/-- Whether an earlier SCOPYC of the chain has still to leave its value. -/
def Ctx.chainBusy (c : Ctx) (r : Run) : Bool :=
  c.runs.any fun q => q.checks && q.chainNo == r.chainNo && decide (q.cmd.seq < r.cmd.seq)

/-- The chain's start value, taken when the earlier commands of the chain have left theirs. -/
def Run.startChain (r : Run) (c : Ctx) : Run :=
  if !r.checks || r.held then r
  else { r with held := true, chain :=
      if r.f.flags.getLsbD 1 then (if r.ocs then 0 else 0xFFFFFFFF) else NMap.get 0 c.chains r.chainNo }

/-! ## Acceptance (R222, R234, R235, R244) -/

/-- Copies that an engine has accepted. -/
def State.copiesOf (s : State) (e : Nat) : List Run :=
  (s.ctxs.flatMap fun c => c.runs).filter fun r => r.rowCopy && r.engine == e

/-- Whether an engine's queue of 32 requests has room: a copy has its entry from its acceptance until its record is written
(R234, R250; log 14). -/
def State.copyRoom (s : State) (e : Nat) : Bool :=
  decide ((s.copiesOf e).length + (s.ctxs.map fun c => c.keptEntries (.copy e)).foldl (· + ·) 0 < 32)

/-- Bytes still to move of the copies accepted before. -/
def State.copyAhead (s : State) (e : Nat) : Nat := ((s.copiesOf e).map fun r => r.total - r.pos).foldl (· + ·) 0

def State.acceptCopy (s : State) (c : Ctx) (m : Command) : State :=
  let r : Run := { cmd := m, engine := copyEngineOf c.id.tile }
  match s.readBlock c m with
  | .bad st f => s.failCmd r st f
  | .wait => s
  | .ok b =>
    let r := { r with blk := b, src := blkWord b 16, dst := m.base + m.f.imm }
    let lane := m.f.lane.toNat
    let pkg := addrPkg r.primary
    if !blkZero b 12 4 || !blkZero b 52 12 then s.failCmd r .rsvd 0
    else if r.checks && r.ocs && r.total % 4 != 0 then s.failCmd r .badpb 0
    else if (formAddr r.sp r.base).isNone then s.failCmd r .fault codeAccess
    else match (if r.remoteCopy then s.attachCheck c lane pkg else none) with
      | some st => (s.traceRefusal c lane pkg st).failCmd r st 0
      | none =>
        if r.total = 0 ∧ !r.checks then s.failCmd r .ok 0
        else if 2 ^ 32 - 1 < r.total then s.failCmd r .size 0
        else
          let s := if r.remoteCopy then s.attach c.id lane pkg else s
          let time := promiseTime s.gtime (if r.remoteCopy then 4096 else 256) (r.total + s.copyAhead r.engine)
          let r := { r with promised := if m.prom.isSome then time else 0 }
          (s.promise m r.promised).addRun r

/-- The oldest request of an engine starts, at most four at once (R234). -/
def execCopyAccept (engine : Nat) (s : State) : Out :=
  let rs := s.copiesOf engine
  let idle := rs.filter fun r => !r.running
  match idle with
  | [] => .next s
  | r :: rest =>
    if 4 ≤ (rs.filter fun r => r.running).length then .next s
    else
      let r := rest.foldl (fun a b => if b.stamp < a.stamp then b else a) r
      let s := match s.ctx? r.cmd.ctx with
        | some c => s.trc 2 3 c [.word engine, .word (s.streamId r), .word 0, .word 0]
        | none => s
      .next (s.putRun { r with running := true, phase := .active })

/-! ## Transfers -/

/-- A read of n bytes of the source from byte p. -/
def State.copyRead (s : State) (c : Ctx) (r : Run) (p n : Nat) : Access (Nat × BitVec 32) :=
  let a := r.srcAt p
  if !(space a == 0 || space a == 1 || space a == 2 || space a == 4) then .fault codeAccess r
  else s.runRead c r (space a) a n

/-- A write of bytes at byte p of the destination. -/
def State.copyWrite (s : State) (c : Ctx) (r : Run) (p : Nat) (bs : List Byte) : Access (State × BitVec 32) :=
  let a := r.dstAt p
  let sp := r.dstSpace a
  if !(sp == 0 || sp == 1 || sp == 2) then .fault codeAccess r else s.runWrite c r sp a bs

/-- The translation of the page of an address, which a copy keeps in place of the one before; the home slice that it queries
at the page boundary counts it as used (R349). -/
def State.keepPage (s : State) (c : Ctx) (old : Option TEntry) (a : Word) : State × Option TEntry :=
  if space a ≠ 0 ∨ old.any (fun e => (findEntry [e] c.part a.toNat).isSome) then (s, old)
  else
    let h := s.homeSlice c.part a.toNat
    match findEntry (s.tile h).l2 c.part a.toNat with
    | some e => (s.onTile h fun t => { t with l2 := touchEntry e t.l2 }, some e)
    | none => (s, old)

def State.keepSrc (s : State) (c : Ctx) (r : Run) (a : Word) : State × Run :=
  let (s, e) := s.keepPage c r.srcPage a
  (s, { r with srcPage := e })

def State.keepDst (s : State) (c : Ctx) (r : Run) (a : Word) : State × Run :=
  let (s, e) := s.keepPage c r.dstPage ((formAddr (r.dstSpace a) a).getD a)
  (s, { r with dstPage := e })

/-- A piece of n bytes at p has been written, or skipped for poison (Table 8.3, R236). -/
def Run.moved (r : Run) (bs : List Byte) (o : BitVec 32) : Run :=
  if o ≠ 0 then (r.fresh).poisonBy o
  else
    let r := { r.fresh with bytes := r.bytes + bs.length }
    if r.checks then r.chainBytes bs else r

/-- How an attempt to move a piece ends. -/
inductive Moved where
  | on (s : State) (r : Run)
  | wait (r : Run)
  | stop (s : State) (r : Run)

/-- An access of a piece faulted: diverted with what it carries, waiting for room, or stopped. -/
def State.copyFault (s : State) (c : Ctx) (r : Run) (p n code : Nat) (data : Option (List Byte)) : Moved :=
  if code = codePage then
    if s.spillRoom c.id.tile (some r) then
      let d : Diverted := { n := p, addr := (formAddr (r.dstSpace (r.dstAt p)) (r.dstAt p)).getD 0, va := r.walkVa,
                            write := data.isSome, data := leBytes (data.getD []), size := n, since := s.clk,
                            seen := r.seen }
      .on (s.beginDiversion c r data.isSome)
        { r.fresh with diverted := r.diverted ++ [d] }
    else .wait r
  else .stop (s.traceOnce c 1 code ((formAddr (r.dstSpace (r.dstAt p)) (r.dstAt p)).getD 0)) (r.stopAt code p)

/-- Write the bytes of a piece. -/
def State.pieceOut (s : State) (c : Ctx) (r : Run) (p : Nat) (bs : List Byte) : Moved :=
  match s.copyWrite c r p bs with
  | .wait q => .wait q
  | .fault code q => s.copyFault c q p bs.length code (some bs)
  | .got (s, o) q =>
    let (s, q) := s.keepDst c (q.moved bs o) (r.dstAt p)
    .on s q

/-- Move one piece inside the package. -/
def State.movePiece (s : State) (c : Ctx) (r : Run) (p n : Nat) : Moved :=
  match s.copyRead c r p n with
  | .wait q => .wait q
  | .fault code q => s.copyFault c q p n code none
  | .got (v, o) q =>
    let (s, q) := s.keepSrc c q (r.srcAt p)
    if o ≠ 0 then .on s (q.moved [] o) else s.pieceOut c q p (toBytes n v)

/-- Pieces of one line of the destination. fuel bounds the single bytes. -/
def State.moveLine (s : State) (c : Ctx) (r : Run) : Nat → State × Run
  | 0 => (s, r)
  | fuel + 1 =>
    if r.copyEnd ≤ r.pos ∨ (r.inOrder ∧ !r.diverted.isEmpty) then (s, r)
    else
      let n := r.piece r.pos
      match s.movePiece c r r.pos n with
      | .wait q => (s, q)
      | .stop s q => (s, q)
      | .on s q =>
        let q := { q with pos := q.pos + n }
        if n = 64 ∨ q.pos % q.rowb = 0 ∨ (q.dstAt q.pos).toNat % 64 = 0 then (s, q)
        else s.moveLine ((s.ctx? c.id).getD c) q fuel

/-- Bytes for one packet, from byte p on within a line of the destination and a row; what stopped the reading. -/
def State.gatherPacket (s : State) (c : Ctx) (r : Run) (p : Nat) (acc : List Byte) : Nat → State × List Byte × Run × Option Nat
  | 0 => (s, acc, r, none)
  | fuel + 1 =>
    if r.copyEnd ≤ p ∨ (acc ≠ [] ∧ (p % r.rowb = 0 ∨ (r.dstAt p).toNat % 64 = 0)) then (s, acc, r, none)
    else
      let n := if acc = [] then r.piece p else 1
      match s.copyRead c r p n with
      | .wait q => (s, acc, q, none)
      | .fault code q => (s, acc, q, some code)
      | .got (v, o) q =>
        let (s, r') := s.keepSrc c q.fresh (r.srcAt p)
        if o ≠ 0 then (if acc = [] then (s, [], { r' with pos := p + n }.poisonBy o, none) else (s, acc, r, none))
        else if n = 64 then (s, toBytes 64 v, r', none)
        else s.gatherPacket c r' (p + 1) (acc ++ [BitVec.ofNat 8 v]) fuel

/-- One packet of a remote copy (R235, R317, R393). -/
def State.moveRemote (s : State) (c : Ctx) (r : Run) : State × Run :=
  let lane := r.f.lane.toNat
  match formAddr 8 (r.dstAt r.pos) with
  | none => (s, r.stopAt codeAccess r.pos)
  | some a =>
    if r.copyEnd ≤ r.pos ∨ !r.diverted.isEmpty ∨ !s.windowOpen c lane (addrPkg a) then (s, r)
    else if !s.remoteOk a || addrPkg a != (NMap.get {} c.lanes lane).dpkg then (s, r.stopAt codeAccess r.pos)
    else match s.gatherPacket c r r.pos [] 64 with
      | (s, [], q, some code) =>
        match s.copyFault c q q.pos (q.piece q.pos) code none with
        | .on s q' => (s, q')
        | .wait q' => (s, q')
        | .stop s q' => (s, q')
      | (s, [], q, none) => (s, q)
      | (s, bs, q, _) =>
        let p := r.pos + bs.length
        let pkt : Packet :=
          { op := .write, first := false, last := decide (p = r.total), nf := false, poison := false, sub := 0, ty := 8,
            len := bs.length, src := 0, gsid := 0, seq := 0, daddr := BitVec.ofNat 64 (wordField a 0 50),
            data := BitVec.ofNat 512 (leBytes bs), good := true }
        (s.sendPkt c lane (addrPkg a) r.cmd.seq r.pos 0 pkt, { q.moved bs 0 with pos := p })

/-- Copy i of an engine, in order of acceptance. -/
def State.copyAt (s : State) (engine i : Nat) : Option (Ctx × Run) :=
  match (s.copiesOf engine)[i]? with
  | none => none
  | some r => (s.ctx? r.cmd.ctx).map fun c => (c, r)

/-! ## Completion (R236, R241, R243) -/

/-- Whether a copy is complete. -/
def State.copyDone (s : State) (r : Run) : Bool :=
  r.running && decide (r.copyEnd ≤ r.pos) && r.diverted.isEmpty && (!r.checks || r.held) && s.allAcked r.cmd.ctx r.cmd.seq

/-- The fault field of a copy names the 64-byte unit (R225). -/
def Run.copyOutcome (r : Run) : Status × BitVec 32 :=
  match r.fault with
  | some (code, p) => (.fault, faultField code (p / 64))
  | none =>
    if r.poison ≠ 0 then (.poison, r.poison)
    else if r.checks && r.f.flags.getLsbD 2 && r.checkValue.toNat != blkField r.blk 48 4 then (.chkfail, r.checkValue)
    else (.ok, 0)

/-- A copy completes with its record, and its chain takes the value. -/
def State.completeCopy (s : State) (c : Ctx) (r : Run) : State :=
  let (st, f) := r.copyOutcome
  let s := s.trc 2 3 c [.word r.engine, .word (s.streamId r), .word r.bytes, .word st.code]
  let s := if st = .chkfail then s.trc 2 4 c [.word r.engine, .word r.chainNo, .word r.checkValue.toNat] else s
  let s := if st = .fault ∨ st = .poison then s.trc 2 2 c [.word 48, .word f.toNat] else s
  let s := if r.checks then s.onCtx c.id fun c => { c with chains := NMap.set 0 c.chains r.chainNo r.chainEnd } else s
  match r.template with
  | some t =>
    (s.finishCmd r { status := st, kind := 2, sid := 0x8000 + t, fault := f,
                     version := BitVec.ofNat 32 (wordField r.token 32 32), bytes := r.bytes }).settleDisarms c.id
  | none =>
    s.finishCmd r { status := st, kind := 1, sid := s.streamId r, fault := f,
                    version := if r.checks then r.checkValue else 0, bytes := r.bytes }

/-- A running copy moves the bytes of one line, or of one packet; with all of them moved it completes. -/
def execCopyTransfer (engine i : Nat) (s : State) : Out :=
  match s.copyAt engine i with
  | none => .next s
  | some (c, r) =>
    if s.copyDone r then .next (s.completeCopy c r)
    else if !r.running || (r.checks && c.chainBusy r) || !c.laneClear (if r.template.isSome then 0 else r.f.lane) r.cmd.seq
        || (r.inOrder && !r.diverted.isEmpty) then .next s
    else
      let r := r.startChain c
      let v := s.viewerNow c
      let (s, r) := if r.remoteCopy then s.moveRemote c r else s.moveLine c r 64
      let r := r.present v
      let s := s.putRun r
      let s := if r.remoteCopy && decide (r.copyEnd ≤ r.pos) && r.diverted.isEmpty then s.sentDone c.id r.cmd.seq else s
      .next (if s.copyDone r then s.completeCopy c r else s)

end Sys2Proof.Machine
end

