-- ==== Sys2Proof/Machine/Posts.lean ====
section
/-! DEFINITION. Letterboxes, posts, credits and templates: SPOST, SARM, SDISARM (R237 to R242). -/

namespace Sys2Proof.Machine

def Ctx.pushLetter (c : Ctx) (lb : Nat) (w : Word) : Ctx := { c with letters := NMap.set [] c.letters lb (c.letterbox lb ++ [w]) }

/-! ## Posts (R238, R239) -/

/-- Fields of SPOST: letterbox and tile. -/
def Command.postLb (m : Command) : Nat := m.f.imm.toNat % 16
def Command.postTile (m : Command) : Nat := m.f.imm.toNat / 2 ^ 8 % 128

def State.acceptPost (s : State) (c : Ctx) (m : Command) : State :=
  (s.promise m 0).onTile c.id.tile fun t => { t with posts := t.posts ++ [⟨m⟩] }

/-- The context to which a post goes: resident, or pre-empted, whose letterbox then takes nothing (R238). -/
def State.postDest (s : State) (m : Command) : Option CtxId :=
  match s.ctx? m.ctx with
  | none => none
  | some c => s.taskIn c.task.launch m.postTile

/-- A post leaves the post engine with its record. -/
def State.postOver (s : State) (tile i : Nat) (c : Ctx) (m : Command) (st : Status) : State :=
  let s := s.trc 2 6 c [.word m.postTile, .word m.postLb, .word st.code]
  let s := s.onTile tile fun t => { t with posts := t.posts.eraseIdx i }
  let r : Run := { cmd := m }
  s.finishCmd r { status := st, kind := 5, sid := 0xC000 + m.postTile, bytes := if st = .ok then 8 else 0 }

/-- A waiting post is placed, or discarded where no context holds a task of the launch. -/
def execPostPlaced (tile i : Nat) (s : State) : Out :=
  match (s.tile tile).posts[i]? with
  | none => .next s
  | some p =>
    let m := p.cmd
    match s.ctx? m.ctx with
    | none => .next s
    | some c =>
      let earlier := ((s.tile tile).posts.take i).any fun q =>
        q.cmd.ctx == m.ctx && q.cmd.postLb == m.postLb && q.cmd.postTile == m.postTile
      if earlier || !c.lanePassed m.f.lane m.seq || !c.laneClear m.f.lane m.seq then .next s
      else match s.postDest m, s.taskOn c.task.launch m.postTile with
        | none, _ => .next (s.postOver tile i c m .notask)
        | some _, none => .next s
        | some _, some d =>
          let put (s : State) : State := (s.onCtx d.id fun d => d.pushLetter m.postLb m.base).postOver tile i c m .ok
          if m.postTile = tile then (if d.letterRoom m.postLb = 0 then .next s else .next (put s))
          else if (s.tile tile).creditsFor c.task.launch d.id m.postLb = 0 then .next s
          else
            let s := s.onTile tile fun t => { t with credits := t.credits.map fun x =>
              if x.launch = c.task.launch ∧ x.dst = d.id ∧ x.lb = m.postLb then { x with n := x.n - 1 } else x }
            let s := s.onCtx d.id fun d => { d with granted := NMap.set 0 d.granted m.postLb (NMap.get 0 d.granted m.postLb - 1) }
            .next (put s)

/-- A change to the task of a launch that holds, or held, a context number: resident or pre-empted. -/
def State.onTask (s : State) (k : CtxId) (launch : Nat) (f : Ctx → Ctx) : State :=
  let g (c : Ctx) : Ctx := if c.id = k ∧ c.task.launch = launch then f c else c
  { s with c := g s.c, others := s.others.map g, hub := { s.hub with saved := s.hub.saved.map fun v => { v with ctx := g v.ctx } } }

/-- Return a tile's credits to their letterboxes. -/
def State.returnCredits (s : State) (xs : List Credit) : State :=
  xs.foldl (fun s x => s.onTask x.dst x.launch fun d =>
    { d with granted := NMap.set 0 d.granted x.lb (NMap.get 0 d.granted x.lb - x.n) }) s

/-- The credits that a tile needs for letterbox lb of tile dst: the context that wants them, the destination, and how
many it wants to hold: one for a waiting post, the amount of an actor's output (R32, R239). -/
def State.creditWant (s : State) (src dst lb : Nat) : Option (Ctx × Ctx × Nat) :=
  let posts := (s.tile src).posts.findSome? fun p =>
    if p.cmd.postTile = dst ∧ p.cmd.postLb = lb then
      match s.ctx? p.cmd.ctx with
      | some c => (s.taskOn c.task.launch dst).map fun d => (c, d, 1)
      | none => none
    else none
  match posts with
  | some x => some x
  | none =>
    (s.ctxs.filter fun c => c.live && c.id.tile == src).findSome? fun c =>
      let need := (c.task.nodes.filter fun n => n.armed && !n.ended).flatMap fun n =>
        (n.outs.filter fun o => o.kind == 2 && o.tile == dst && o.num == lb).map (·.amount)
      match need, s.taskOn c.task.launch dst with
      | a :: rest, some d => some (c, d, rest.foldl Nat.max a)
      | _, _ => none

/-- The destination grants up to 8 credits; the post engine keeps them, evicting another letterbox's when it holds 32. -/
def execCreditGrant (src dst lb : Nat) (s : State) : Out :=
  match s.creditWant src dst lb with
  | none => .next s
  | some (c, d, want) =>
    let t := s.tile src
    let have_ := t.creditsFor c.task.launch d.id lb
    let n := Nat.min 8 (d.letterRoom lb)
    if src = dst ∨ want ≤ have_ ∨ n = 0 then .next s
    else
      let s := s.onCtx d.id fun d => { d with granted := NMap.set 0 d.granted lb (NMap.get 0 d.granted lb + n) }
      let mine (x : Credit) : Bool := x.launch == c.task.launch && x.dst == d.id && x.lb == lb
      let more (x : Credit) : Credit := if mine x = true then { x with n := x.n + n } else x
      if t.credits.any mine then .next (s.onTile src fun t => { t with credits := t.credits.map more })
      else
        let out := if t.credits.length < 32 then [] else t.credits.take 1
        let s := s.returnCredits out
        .next (s.onTile src fun t => { t with credits := t.credits.drop out.length ++ [⟨d.id, lb, n, c.id, c.task.launch⟩] })

/-! ## Templates (R240 to R242) -/

/-- Fields of SARM and SDISARM. -/
def Command.tmplNo (m : Command) : Nat := m.f.imm.toNat / 2 ^ 8 % 16
def Command.tmplLb (m : Command) : Nat := m.f.imm.toNat % 16

/-- A template is busy: armed, or its letterbox has one. -/
def Ctx.tmplBusy (c : Ctx) (t lb : Nat) : Bool := c.tmpls.any fun x => x.num == t || x.lb == lb

def State.acceptSarm (s : State) (c : Ctx) (m : Command) : State :=
  let r : Run := { cmd := m, template := some m.tmplNo }
  let ends (s : State) (st : Status) (f : Nat) : State :=
    (s.promise m 0).finishCmd r { status := st, kind := 2, sid := 0x8000 + m.tmplNo, fault := BitVec.ofNat 32 f }
  match s.readBlock c m with
  | .bad st f => ends s st f
  | .wait => s
  | .ok b =>
    if !blkZero b 12 4 || !blkZero b 52 12 then ends s .rsvd 0
    else if c.tmplBusy m.tmplNo m.tmplLb then ends s .busy 0
    else
      let t : Tmpl := { num := m.tmplNo, lb := m.tmplLb, blk := b, count := blkField b 8 4, queue := m.f.q.toNat }
      ends (s.onCtx c.id fun c => { c with tmpls := c.tmpls ++ [t] }) .ok 0

def State.acceptSdisarm (s : State) (c : Ctx) (m : Command) : State :=
  let s := s.promise m 0
  match c.tmpls.find? fun t => t.num == m.tmplNo with
  | none => s.finishCmd { cmd := m } { status := .state, kind := 2, sid := 0x8000 + m.tmplNo }
  | some t =>
    (s.onCtx c.id fun c => { c with tmpls := c.tmpls.filter (fun x => x.num != m.tmplNo),
                                    waits := c.waits ++ [{ cmd := m, template := some m.tmplNo, bytes := t.fired }] }).settleDisarms c.id

/-- The copy of a firing as a command of its context in lane 0. Each of its accesses takes the epoch in force when it is
presented (R335, runViewer). -/
def Tmpl.command (t : Tmpl) (s : State) (c : Ctx) : Command :=
  { ctx := c.id, seq := c.seq, op := .sarm ⟨0, 0, 0, 0, 0, 0, 0, 0, BitVec.ofNat 4 t.queue, 0, 0⟩,
    f := ⟨0, 0, 0, 0, 0, 0, 0, 0, BitVec.ofNat 4 t.queue, 0, 0⟩, base := 0, pblk := 0, prom := none, rm := .rne,
    epoch := c.task.switches, view := s.viewOf c.part, staging := s.stagingOf c.part }

/-- An armed template fires for the token at the head of its letterbox, when the copy engine can take the copy (R241). -/
def execTemplateFiring (k : CtxId) (t : Nat) (s : State) : Out :=
  match s.ctx? k with
  | none => .next s
  | some c =>
    match c.tmpls.find? fun x => x.num == t with
    | none => .next s
    | some x =>
      match c.letterbox x.lb with
      | [] => .next s
      | tok :: rest =>
        let e := copyEngineOf k.tile
        if !c.live || !s.copyRoom e then .next s
        else
          let i := sintOf 32 (wordField tok 0 32)
          let r : Run :=
            { cmd := x.command s c, blk := x.blk, engine := e, template := some t, token := tok,
              src := blkWord x.blk 16 + BitVec.ofInt 64 (i * blkSigned x.blk 40 4),
              dst := blkWord x.blk 24 + BitVec.ofInt 64 (i * blkSigned x.blk 44 4) }
          let s := s.trc 2 5 c [.word k.num, .word t, .word tok.toNat]
          let x' := { x with fired := x.fired + 1 }
          let s := s.onCtx k fun c =>
            { c with seq := c.seq + 1, opens := c.opens ++ [⟨c.seq, 0, true, c.bundleNo, false, true⟩],
                     letters := NMap.set [] c.letters x.lb rest,
                     tmpls := if x'.count = x'.fired then c.tmpls.filter (fun y => y.num != t)
                              else c.tmpls.map fun y => if y.num = t then x' else y }
          if 2 ^ 32 - 1 < r.total then
            .next (s.finishCmd r { status := .size, kind := 2, sid := 0x8000 + t,
                                   version := BitVec.ofNat 32 (wordField tok 32 32) })
          else .next (s.addRun r)

end Sys2Proof.Machine
end

