-- ==== Sys2Proof/Machine/Order.lean ====
section
/-! DEFINITION. The order unit: SMARK, SORD, SBAR (R145, R146, R323 to R325). -/

namespace Sys2Proof.Machine

/-! ## SMARK and markers (R324) -/

/-- Writes of a context's edge elements that stand in marker queue 13, in lane l, or in every lane where l is none. -/
def Ctx.edgeWrites (c : Ctx) (l : Option (BitVec 8)) : List Nat :=
  c.secs.flatMap fun x => (x.edges.filter fun e => e.op != 0 && e.out.isNone && (match l with
    | none => true
    | some l => (x.image.bind fun g => g.edges[e.desc]?).any fun d => d.lane == l)).map (·.seq)

/-- An edge access of the context is not performed yet; one that has only its token to deliver is (Table 11.4). -/
def Ctx.edgeOpen (c : Ctx) (seqs : List Nat) : Bool :=
  c.secs.any fun x => x.edges.any fun e => e.out.isNone && seqs.contains e.seq

def State.acceptSmark (s : State) (c : Ctx) (m : Command) : State :=
  let s := s.accepted m 0
  let qs := (List.range 15).filter fun i => m.f.imm.getLsbD i
  let ms := qs.map fun q => (⟨q, m.f.lane, m.seq, if q = 13 then c.edgeWrites none else [], s.clk⟩ : Marker)
  let s := qs.foldl (fun s q => s.trc 5 1 c [.word c.id.num, .word q, .word m.f.lane.toNat, .word 0]) s
  (s.onCtx c.id fun c => { c with markers := c.markers ++ ms }).retire c.id m.seq

/-- Marker queue of a command by its engine (Table 5.2). -/
def cmdQueue : Instr → Option Nat
  | .scopy _ | .scopyc _ => some 4
  | .spost _ => some 7
  | .scfg _ | .swload _ | .smm _ | .sarmg _ => some 9
  | .spub _ | .svsw _ | .svstage _ => some 10
  | .scoll _ | .sslot _ => some 11
  | .csysShootdown _ | .csysReplay _ | .csysPantry _ => some 12
  | _ => none

/-- Marker queue of the memory requests of a command, by the space they go to (Table 5.2). -/
def Run.requestQueue (r : Run) (sp : Nat) : Option Nat :=
  match r.cmd.op with
  | .gath _ | .scat _ | .greplay _ => some 5
  | .scirc _ | .smcast _ => some 8
  | .scopy _ | .scopyc _ | .sarm _ => none
  | _ => if sp = 0 then some 3 else if sp = 1 then some 2 else some 1

/-- Whether the entries that the context placed in a marker queue before a marker have left it (Table 11.4). -/
def State.entriesLeft (s : State) (c : Ctx) (m : Marker) : Bool :=
  let queued (p : Command → Bool) : Bool :=
    (s.tile c.id.tile).queue.any fun x => x.ctx == c.id && decide (x.seq < m.seq) && p x
  -- requests of engines that wait for service, for presence or for a walk
  let mine (r : Run) (a : Word) (since : Nat) : Bool := r.requestQueue (space a) == some m.queue && decide (since ≤ m.since)
  let pending : Bool := c.runs.any fun r => decide (r.cmd.seq < m.seq)
    && (r.diverted.any (fun d => mine r d.addr d.since) || r.defers.any (fun d => mine r d.addr d.since) || (match r.walk with
      | some (.waiting va _ _ _ since) => mine r va since
      | _ => false))
  match m.queue with
  | 0 => !queued fun _ => true
  | 4 | 9 | 10 | 11 | 12 => !queued fun x => cmdQueue x.op == some m.queue
  | 7 => !(queued fun x => cmdQueue x.op == some 7)
      && !(s.tile c.id.tile).posts.any fun p => p.cmd.ctx == c.id && decide (p.cmd.seq < m.seq)
  | 2 => !pending && c.accs.all fun a => !(decide (a.seq < m.seq) && space a.addr == 1)
  | 1 | 3 | 5 | 8 => !pending
  | 6 => !s.hub.outbox.any fun o => o.k == c.id && decide (o.cmd < m.seq) && decide (o.first ≤ m.since)
  | 13 => !c.edgeOpen m.edges
  | 14 => c.accs.all fun a => !(decide (a.seq < m.seq) && a.kind.stores)
  | _ => true

/-- Marker i of a context reaches the head of its queue and is removed (R145, R324). -/
def execMarkerReachesHead (k : CtxId) (i : Nat) (s : State) : Out :=
  match s.ctx? k with
  | none => .next s
  | some c =>
    match c.markers[i]? with
    | none => .next s
    | some m =>
      if !s.entriesLeft c m || !c.lanePassed m.lane m.seq then .next s
      else
        let s := s.trc 5 1 c [.word k.num, .word m.queue, .word m.lane.toNat, .word (s.clk - m.since)]
        .next (s.onCtx k fun c => { c with markers := c.markers.eraseIdx i })

/-! ## SORD and ordering tokens (R323) -/

/-- Entry i of a tile's command queue, if every earlier entry of its context that passes a test has left. -/
def State.queueHead (s : State) (tile i : Nat) (same : Command → Bool) : Option (Ctx × Command) :=
  match (s.tile tile).queue[i]? with
  | none => none
  | some m =>
    if ((s.tile tile).queue.take i).any fun x => x.ctx == m.ctx && same x then none
    else (s.ctx? m.ctx).map fun c => (c, m)

/-- Whether the order unit accepts a command (Table 8.4). -/
def orderUnit : Instr → Bool
  | .sbar _ | .smark _ | .sord _ => true
  | _ => false

/-- The claim that will take the first entry behind a token now placed makes its VGET an acquiring read (R322). -/
def Ctx.markAcquire (c : Ctx) (door : Nat) : Ctx :=
  let n := ((NMap.get [] c.doorsOut door).filter isEntry).length
  match (c.vgets.filter fun g => g.door == door)[n]? with
  | none => c
  | some g => { c with vgets := c.vgets.map fun h => if h.id = g.id then { h with acquire := true } else h }

/-- The order unit takes a free entry of the door for the ordering token of the SORD at entry i of the queue. One of lane 0
is open at once, which the trace shows beside its placing (R329). -/
def execSordAccept (tile i : Nat) (s : State) : Out :=
  match s.queueHead tile i (fun x => orderUnit x.op) with
  | none => .next s
  | some (c, m) =>
    match m.op with
    | .sord f =>
      let code := f.door.toNat
      if !c.doorRoom code then .next s
      else
        let edges := if f.lane = 0 then [] else c.edgeWrites (some f.lane)
        let token (s : State) : State := s.trc 5 0 c [.word c.id.num, .word code, .word f.lane.toNat]
        let s := token (s.accepted m 0)
        let s := if f.lane = 0 then token s else s
        let s := s.onTile tile fun t => { t with queue := t.queue.eraseIdx i }
        let s := s.onCtx c.id fun c => (c.markAcquire (code - 32)).setDoor code
          (c.door code ++ [.token f.lane m.seq (f.lane == 0) edges])
        .next (s.retire c.id m.seq)
    | _ => .next s

/-- Open the first closed token of a door whose accesses have reached their scope: its lane, and the door. -/
def Ctx.openToken (c : Ctx) : List DoorItem → Option (BitVec 8 × List DoorItem)
  | [] => none
  | .token l n false es :: r =>
    if c.lanePassed l n && !c.edgeOpen es then some (l, .token l n true es :: r)
    else (c.openToken r).map fun p => (p.1, .token l n false es :: p.2)
  | d :: r => (c.openToken r).map fun p => (p.1, d :: p.2)

/-- A closed ordering token of an output door opens. -/
def execOrderTokenOpen (k : CtxId) (door : Nat) (s : State) : Out :=
  match s.ctx? k with
  | none => .next s
  | some c =>
    match c.openToken (NMap.get [] c.doorsOut door) with
    | none => .next s
    | some (l, d) =>
      let s := s.trc 5 0 c [.word k.num, .word (32 + door), .word l.toNat]
      .next (s.onCtx k fun c => { c with doorsOut := NMap.set [] c.doorsOut door d })

/-! ## What a collective reads and writes -/

/-- The fields of the collective block that say what an SCOLL reads and writes (Table 15.7). -/
def Run.kBroadcast (r : Run) : Bool := blkField r.blk 0 1 == 1
def Run.kRank (r : Run) : Nat := blkField r.blk 6 2
def Run.kCount (r : Run) : Nat := blkField r.blk 8 4
def Run.kDst (r : Run) : Word := blkWord r.blk 32

/-- The result address, with the space rule of R55: none for ACCESS. -/
def Run.kOut (r : Run) : Option Word := formAddr r.f.space.toNat r.kDst

def Run.kRoot (r : Run) : Nat := blkField r.blk 50 2

/-- Bytes of its vector, and chunks (R406). -/
def Run.kBytes (r : Run) : Nat := (r.kCount * ElemType.bits r.ty + 7) / 8
def Run.kChunks (r : Run) : Nat := (r.kBytes + 63) / 64

/-- Whether this rank reads an input. -/
def Run.kFeeds (r : Run) : Bool := !r.kBroadcast || r.kRank == r.kRoot

/-! ## What a weight load has still to read (R255, R258, R264) -/

/-- Rows of a weight type's group. -/
def groupOf (t : ElemType) : Nat := 128 / ElemType.bits t

def Section.sysG (x : Section) : Nat := match x.sys with
  | some y => groupOf y.wtype
  | none => 1

def Section.sysK (x : Section) : Nat := 4 * x.pr * x.sysG
def Section.sysN (x : Section) : Nat := 32 * x.pc

def Run.lMc (r : Run) : Bool := r.f.flags.getLsbD 2
def Run.lNew (r : Run) : Bool := r.f.flags.getLsbD 1
def Run.lBank (r : Run) : Nat := if r.f.flags.getLsbD 0 then 1 else 0
def Run.lHandle (r : Run) : Nat := r.f.imm.toNat % 16
def Run.lRoute (r : Run) : Nat := blkField r.blk 24 2
def Run.lAux (r : Run) : Word := blkWord r.blk 16

/-- Contexts into whose handle the load goes, resident or not (R264). -/
def State.loadDests (s : State) (c : Ctx) (r : Run) : List CtxId :=
  if r.lMc then (r.mcTiles r.lRoute).filterMap (s.taskIn c.task.launch) else [c.id]

/-- A destination of a load of a context, where it is resident. -/
def State.destCtx (s : State) (c : Ctx) (k : CtxId) : Option Ctx :=
  (s.ctx? k).filter fun d => d.live && d.task.launch == c.task.launch

/-- K and N of the load: of its SHAPE, or of the section of its first destination. -/
def State.loadShape (s : State) (c : Ctx) (r : Run) : Nat × Nat :=
  if r.lNew then (4 * (blkField r.blk 4 1 / 16) * groupOf r.ty, 32 * (blkField r.blk 4 1 % 16))
  else match (s.loadDests c r).findSome? fun k => (s.destCtx c k).bind fun d => d.sec? r.lHandle with
    | some x => (x.sysK, x.sysN)
    | none => (0, 0)

/-- Bytes of weights, and of scales. -/
def Run.loadBytes (r : Run) (k n : Nat) : Nat × Nat :=
  (k * n * ElemType.bits r.ty / 8, if ElemType.scaled r.ty then k / 16 * n * 2 else 0)

/-! ## SBAR (R325) -/

/-- Commands of the context that were issued before a place and hold a slot of a mask. -/
def State.notedBy (s : State) (c : Ctx) (seq : Nat) (mask : Word) : List Nat :=
  let hit (m : Command) : Bool := m.ctx == c.id && decide (m.seq < seq) && (match m.slot with
    | some n => mask.getLsbD n
    | none => false)
  (((s.tile c.id.tile).queue.filter hit) ++ (c.runs.map (·.cmd)).filter hit).map (·.seq)

/-- Whether a noted command may still access its own tile's memory. A remote store does so for its scales alone: until its last
element has left, in which the last of them is written. -/
def State.ownTileOpen (s : State) (c : Ctx) (n : Nat) : Bool :=
  c.opens.any (fun o => o.seq == n && o.acc)
    && match c.runs.find? fun r => r.cmd.seq == n with
      | none => (s.tile c.id.tile).queue.any fun m => m.ctx == c.id && m.seq == n
      | some r =>
        match r.cmd.op with
        | .saff _ | .saffw _ | .smcast _ | .sfill _ => r.sp == 2 || (r.scaled && space r.aux == 2)
        | .sremw _ | .srema _ => r.scaled && space r.aux == 2 && decide (r.pos < r.limit)
        | .sind _ | .sindw _ => r.sp == 2 || space r.aux == 2
        | .srec _ | .sconst _ | .scirc _ => false
        | .gath _ | .scat _ | .greplay _ =>
          space r.gFmap == 2 || (space r.gIdx == 2 && r.todo != some [])
            || (r.usesData && space r.gData == 2 && (r.todo != some [] || !r.addrs.isEmpty || (!r.scatters && !r.vals.isEmpty)))
        | .swload _ =>
          let (k, n) := s.loadShape c r
          let (a, b) := r.loadBytes k n
          let left (end_ : Nat) : Bool := r.phase == .queued || (decide (r.pos < end_) && r.fault.isNone)
          (r.sp == 2 && left a) || (ElemType.scaled r.ty && space r.lAux == 2 && left (a + b))
        | .scoll _ =>
          let d := r.f.door.toNat
          (decide (r.pos < r.kChunks) && r.kFeeds && !(decide (32 ≤ d) && decide (d < 48)) && r.f.space == 2)
            || (decide (r.outp < r.kChunks) && decide (32 ≤ d) && r.kOut.any fun a => space a == 2)
        | _ => true

/-- SBAR notes its commands (R325). With none to note it is satisfied at once, which the trace shows beside its acceptance
(R329). -/
def State.acceptSbar (s : State) (c : Ctx) (m : Command) : State :=
  let sbar (s : State) : State := s.trc 5 2 c [.word c.id.num, .word (m.f.imm.toNat % 2 ^ 48), .word 0]
  let s := sbar (s.accepted m 0)
  match s.notedBy c m.seq (m.f.imm % 2 ^ 48) with
  | [] => (sbar s).retire c.id m.seq
  | ns => s.onCtx c.id fun c => { c with sbars := c.sbars ++ [⟨m.seq, ns, m.f.imm.toNat % 2 ^ 48, s.clk⟩] }

/-- SBAR i of a context is satisfied. -/
def execSbarSatisfied (k : CtxId) (i : Nat) (s : State) : Out :=
  match s.ctx? k with
  | none => .next s
  | some c =>
    match c.sbars[i]? with
    | none => .next s
    | some b =>
      if b.noted.any (s.ownTileOpen c) then .next s
      else
        let s := s.trc 5 2 c [.word k.num, .word b.mask, .word (s.clk - b.since)]
        .next ((s.onCtx k fun c => { c with sbars := c.sbars.eraseIdx i }).retire k b.seq)

end Sys2Proof.Machine
end

