-- ==== Sys2Proof/Machine/Image.lean ====
section
/-! DEFINITION. Configuration images: reading and the whole check of SCFG (R57 to R62, R176, R191). -/

namespace Sys2Proof.Machine

/-- A field of n bytes of an image. -/
def imgField (bs : List Byte) (off n : Nat) : Nat := leBytes ((bs.drop off).take n)

/-- Bytes taken one after the other; the match has each value computed before the next byte is taken. -/
def crcBytes (c : BitVec 32) : List Byte → BitVec 32
  | [] => c
  | b :: bs => match (crcByte c b).toNat with
    | 0 => crcBytes 0 bs
    | n + 1 => crcBytes (BitVec.ofNat 32 (n + 1)) bs

/-- CRC-32C of bytes, with its start value and final complement. -/
def crc32c (bs : List Byte) : BitVec 32 := crcBytes 0xFFFFFFFF bs ^^^ 0xFFFFFFFF

/-- An image with its CHECK field zero. -/
def checkless (bs : List Byte) : List Byte := bs.take 28 ++ [0, 0, 0, 0] ++ bs.drop 32

/-- Bytes of a PE record with n entries. -/
def recBytes (n : Nat) : Nat := (16 + 12 * n + 15) / 16 * 16

/-- The PE records from an offset on (R61), each with its end; a record whose fields lie outside their values gives none. -/
def readRecs (bs : List Byte) (pr pc nedge : Nat) : Nat → Nat → Option (List PeRecord)
  | _, 0 => some []
  | off, m + 1 =>
    let n := imgField bs (off + 2) 1
    let k := imgField bs (off + 3) 1
    let row := imgField bs off 1
    let col := imgField bs (off + 1) 1
    let edges := (List.range 4).map fun i => imgField bs (off + 12 + i) 1
    let stop := off + recBytes n
    let pad := imgField bs (off + 16 + 12 * n) (recBytes n - 16 - 12 * n)
    if 4 * pr ≤ row ∨ 4 * pc ≤ col ∨ n = 0 ∨ 64 < n ∨ k = 0 ∨ 64 < k ∨ bs.length < stop ∨ pad ≠ 0
        ∨ edges.any (fun e => decide (nedge ≤ e) && e != 0xFF) then none
    else
      let word (i j : Nat) : BitVec 32 := BitVec.ofNat 32 (imgField bs (off + 16 + 12 * i + 4 * j) 4)
      let r : PeRecord := ⟨row, col, k, BitVec.ofNat 32 (imgField bs (off + 4) 4), BitVec.ofNat 32 (imgField bs (off + 8) 4),
        edges, (List.range n).map fun i => (word i 0, word i 1, word i 2)⟩
      (readRecs bs pr pc nedge stop m).map (r :: ·)

/-- Edge descriptor i (R61). -/
def readEdge (bs : List Byte) (off : Nat) : Option EdgeDesc :=
  let kind := imgField bs off 1
  let door := imgField bs (off + 1) 1
  let q := imgField bs (off + 24) 2
  if bs.length < off + 32 ∨ 3 < kind ∨ (kind = 0 ∧ 32 ≤ door) ∨ (kind = 1 ∧ (door < 32 ∨ 48 ≤ door)) ∨ (48 ≤ door ∧ door ≠ 63) ∨ 8 < q
      ∨ imgField bs (off + 3) 5 ≠ 0 ∨ imgField bs (off + 26) 6 ≠ 0 then none
  else some ⟨kind, door, BitVec.ofNat 8 (imgField bs (off + 2) 1), BitVec.ofNat 64 (imgField bs (off + 8) 8),
    imgField bs (off + 16) 8, q⟩

def readEdges (bs : List Byte) : Nat → Nat → Option (List EdgeDesc)
  | _, 0 => some []
  | off, n + 1 => match readEdge bs off, readEdges bs (off + 32) n with
    | some e, some r => some (e :: r)
    | _, _ => none

/-- PEs of the copies of a record as positions in row-major order; w is the width of the set. -/
def PeRecord.places (r : PeRecord) (w : Nat) : List Nat := (List.range r.k).map fun i => r.row * w + r.col + i

/-! ## Micro-operations of an entry -/

/-- The instructions of an entry in the order A, M, T; a NOP of A or M gives none. -/
def entryOps (e : BitVec 32 × BitVec 32 × BitVec 32) : Option (List Instr) :=
  match decodeAM false e.1.toNat, decodeAM true e.2.1.toNat, decodeT e.2.2.toNat with
  | .ok a, .ok m, .ok t => some (a.toList ++ m.toList ++ (if t = .tNop then [] else [t]))
  | _, _, _ => none

/-- Source operand codes of a micro-operation, in the order a, b, c or p. -/
def sourcesOf : Instr → List Nat
  | .move f | .acc f | .cnt f | .edld f | .src f | .sink f | .drop f | .fork f => [f.a.toNat]
  | .join f | .steer f | .mergeArr f | .mergeAlt f | .edst f | .edatm f | .turn f => [f.a.toNat, f.b.toNat]
  | .selp f => [f.a.toNat, f.b.toNat, f.p.toNat / 128]
  | .peElementwiseA f | .peElementwiseM f | .peDotStep f =>
    [f.a.toNat] ++ (if amUsesB f.op.toNat then [f.b.toNat] else []) ++ (if amUsesC f.op.toNat then [f.c.toNat] else [])
  | _ => []

/-- Destination operand codes. -/
def targetsOf : Instr → List Nat
  | .move f | .join f | .acc f | .ctr f | .cnt f | .edld f | .edst f | .edatm f | .src f | .mergeArr f | .mergeAlt f
  | .selp f | .turn f => [f.d.toNat]
  | .fork f => [f.d.toNat, f.b.toNat]
  | .steer f => [f.d.toNat, f.p.toNat / 128]
  | .peElementwiseA f | .peElementwiseM f | .peDotStep f => [f.d.toNat]
  | _ => []

/-- Whether a code names a channel operand (R190). -/
def isChan (x : Nat) : Bool := decide (16 ≤ x) && decide (x < 24)

/-- Codes of links whose neighbour lies outside the page set. -/
def offSet (pr pc row col x : Nat) : Bool :=
  (x == 16 && row == 0) || (x == 17 && col + 1 == 4 * pc) || (x == 18 && row + 1 == 4 * pr) || (x == 19 && col == 0)

/-- Whether a micro-operation is the SRC that may read an input-door slot. -/
def isSrc : Instr → Bool
  | .src _ => true
  | _ => false

/-- Descriptor of an edge slot of a record. -/
def slotDesc (edges : List EdgeDesc) (r : PeRecord) (x : Nat) : Option EdgeDesc := (r.edges[x - 20]?).bind fun i => edges[i]?

/-- Whether R191 and Table 7.5 reject a micro-operation at a record. -/
def opRejected (pr pc : Nat) (edges : List EdgeDesc) (r : PeRecord) (i : Instr) : Bool :=
  let rim := r.row == 0 || r.col == 0 || r.row + 1 == 4 * pr || r.col + 1 == 4 * pc
  let slotOk (x : Nat) (kind : Nat) : Bool := rim && (slotDesc edges r x).any fun d => d.kind == kind
  let srcBad (x : Nat) : Bool :=
    offSet pr pc r.row r.col x || (decide (20 ≤ x) && decide (x < 24) && !(isSrc i && slotOk x 0))
  let dstBad (x : Nat) : Bool := offSet pr pc r.row r.col x || (decide (20 ≤ x) && decide (x < 24) && !slotOk x 1)
  let mem (n : Nat) (atomic : Bool) : Bool := match edges[n]? with
    | some d => d.kind == 2 && (space d.base == 1 || (!atomic && (space d.base == 0 || space d.base == 2)))
    | none => false
  (sourcesOf i).any srcBad || (targetsOf i).any dstBad || (match i with
    | .edld f | .edst f => !mem (f.p.toNat / 16 % 64) false
    | .edatm f => !mem (f.p.toNat / 16 % 64) true
    | .sink f => !(edges[f.p.toNat % 64]?).any fun d => d.kind == 3
    | _ => false)

/-- Whether two micro-operations of an entry write one local register, the accumulator or one channel. -/
def clash : List Instr → Bool
  | [] => false
  | i :: rest => (targetsOf i).any (fun x => rest.any fun j => (targetsOf j).contains x) || clash rest

/-- Whether a record is rejected. -/
def recRejected (pr pc : Nat) (edges : List EdgeDesc) (r : PeRecord) : Bool :=
  r.edges.any (fun i => match edges[i]? with
    | some d => decide (2 ≤ d.kind)
    | none => false)
  || r.entries.any fun e => match entryOps e with
    | none => true
    | some ops => clash ops || ops.any (opRejected pr pc edges r)

/-- Whether a place occurs twice or lies outside the set. -/
def placesBad (size : Nat) : List Nat → Bool
  | [] => false
  | x :: r => decide (size ≤ x) || r.contains x || placesBad size r

/-- The image in bytes, checked whole (R62); none is BADCFG. rm resolves DYN. -/
def readImage (bs : List Byte) (rm : RMode) : Option Image :=
  let f := imgField bs
  let pr := f 5 1 / 16
  let pc := f 5 1 % 16
  let mode := f 6 1
  let npe := f 8 2
  let nedge := f 10 2
  if f 0 4 ≠ 0x4C494346 ∨ f 4 1 ≠ 1 ∨ pr = 0 ∨ 3 < pr ∨ pc = 0 ∨ 4 < pc ∨ mode % 8 = 7 ∨ 16 ≤ mode ∨ f 7 1 ≠ 0
      ∨ npe = 0 ∨ 192 < npe ∨ 64 < nedge ∨ f 16 4 % 16 ≠ 0 ∨ f 20 4 % 32 ≠ 0 ∨ f 24 4 ≠ bs.length ∨ f 32 32 ≠ 0
      ∨ (crc32c (checkless bs)).toNat ≠ f 28 4 then none
  else match readRecs bs pr pc nedge (f 16 4) npe, readEdges bs (f 20 4) nedge with
    | some recs, some edges =>
      if recs.any (recRejected pr pc edges) || placesBad (16 * pr * pc) (recs.flatMap fun r => r.places (4 * pc)) then none
      else some ⟨pr, pc, if mode % 8 = 6 then rm else rmOfCode (mode % 8) 0, (mode / 8) % 2 == 1, BitVec.ofNat 32 (f 12 4),
        recs, edges, bs.length⟩
    | _, _ => none

end Sys2Proof.Machine
end

