-- ==== Sys2Proof/Machine/Vector.lean ====
section
/-! DEFINITION. The V-slot instructions (R151 to R174). -/

namespace Sys2Proof.Machine

/-! ## The common rules (R154, R155) -/

/-- Element type of a V syllable. -/
def vElem (f : VF) : ElemType := elemOfCode f.ty.toNat

/-- The mask named in the mask field. -/
def State.vmask (s : State) (f : VF) : Word := s.rdM f.mask.toNat

/-- Whether V syllables are held: page row 0 is on loan, or was released less than 2 clk ago (R152). -/
def State.row0Busy (s : State) : Bool := s.myTile.row0Held || decide (s.clk < s.myTile.row0From)

/-- A V syllable: the common prelude, with the second row of Table 4.1. -/
def State.vsyl (s : State) (f : VF) (srcs dsts : List Reg) (body : State → State) : State :=
  s.syllableIf 2 f.g srcs dsts (if s.row0Busy then [.row0] else []) body

/-- Lanes i to i + n - 1 of width w, each from f where on holds, zero elsewhere; with the flags of those lanes. -/
def laneFold (w : Nat) (on : Nat → Bool) (f : Nat → Nat × FlagBits) : Nat → Nat → Nat × FlagBits
  | _, 0 => (0, 0)
  | i, n + 1 =>
    let (r, fl) := laneFold w on f (i + 1) n
    if on i then
      let (e, fe) := f i
      (e % 2 ^ w + 2 ^ w * r, fe ||| fl)
    else (2 ^ w * r, fl)

/-- How lane i of a V syllable rounds (R79, R154). -/
def State.vrnd (s : State) (f : VF) (lane : Nat) : Rnd := ⟨s.mode f.rm.toNat, f.sat, vRandom s.c.sys.flags lane⟩

/-- Flags of a V syllable, and the SCNT advance when it takes a rounding mode and that mode is STOCH (R79, R86). -/
def State.stageFlags (s : State) (f : VF) (fl : FlagBits) (rounds : Bool) : State :=
  let sc := rounds && s.mode f.rm.toNat == .stoch
  if fl = 0 && !sc then s else s.stage (.flags fl sc)

/-- Write the masked lanes of vd, lanes of type t given by f (R154). -/
def State.putLanes (s : State) (d : VF) (t : ElemType) (lat : Nat) (rounds : Bool) (g : Nat → Nat × FlagBits) : State :=
  let L := ElemType.lanes t
  let m := s.vmask d
  let (v, fl) := laneFold (ElemType.bits t) (maskBit m L) g 0 L
  (s.putV d.d (BitVec.ofNat 512 v) (laneMask t m) lat).stageFlags d fl rounds

/-- The format of an F type; F32 for a code outside F, which no legal syllable holds. -/
def fmtOf (t : ElemType) : Fmt := (ElemType.fmt? t).getD fmtF32

/-! ## Floating point (R156) -/

/-- An operation on two elements with a rounding. -/
def State.vf2 (s : State) (f : VF) (lat : Nat) (op : Fmt → FVal → FVal → Rnd → Nat × FlagBits) : State :=
  s.vsyl f [s.regV f.a, s.regV f.b] [s.regV f.d] fun s =>
    let t := vElem f
    let w := ElemType.bits t
    let F := fmtOf t
    let a := s.rdV f.a
    let b := s.rdV f.b
    s.putLanes f t lat true fun i => op F (F.decode (elem w a i)) (F.decode (elem w b i)) (s.vrnd f i)

/-- A fused operation, with the signs of the product and of the addend. -/
def State.vf3 (s : State) (f : VF) (negP negC : Bool) : State :=
  s.vsyl f [s.regV f.a, s.regV f.b, s.regV f.c] [s.regV f.d] fun s =>
    let t := vElem f
    let w := ElemType.bits t
    let F := fmtOf t
    let a := s.rdV f.a
    let b := s.rdV f.b
    let c := s.rdV f.c
    s.putLanes f t 5 true fun i =>
      let x := F.decode (elem w a i)
      let z := F.decode (elem w c i)
      F.fma (if negP then x.negate else x) (F.decode (elem w b i)) (if negC then z.negate else z) (s.vrnd f i)

/-- A special function. -/
def State.vf1 (s : State) (f : VF) (op : Fmt → FVal → Rnd → Nat × FlagBits) : State :=
  s.vsyl f [s.regV f.a] [s.regV f.d] fun s =>
    let t := vElem f
    let a := s.rdV f.a
    s.putLanes f t 12 true fun i => op (fmtOf t) ((fmtOf t).decode (elem (ElemType.bits t) a i)) (s.vrnd f i)

/-- An operation on the patterns of two elements, without rounding. -/
def State.vbits2 (s : State) (f : VF) (lat : Nat) (op : Nat → Nat → Nat × FlagBits) : State :=
  s.vsyl f [s.regV f.a, s.regV f.b] [s.regV f.d] fun s =>
    let t := vElem f
    let a := s.rdV f.a
    let b := s.rdV f.b
    s.putLanes f t lat false fun i => op (elem (ElemType.bits t) a i) (elem (ElemType.bits t) b i)

/-- The same on one element. -/
def State.vbits1 (s : State) (f : VF) (lat : Nat) (op : Nat → Nat) : State :=
  s.vsyl f [s.regV f.a] [s.regV f.d] fun s =>
    let t := vElem f
    let a := s.rdV f.a
    s.putLanes f t lat false fun i => (op (elem (ElemType.bits t) a i), 0)

/-- VABS, VNEG: a sign operation; a NaN gives the canonical NaN (R82, R156). -/
def signOp (F : Fmt) (op : Nat → Nat) (x : Nat) : Nat := if (F.decode x).isNan then F.qnan else op x

def fabs (F : Fmt) (x : Nat) : Nat := x % F.signBit
def fneg (F : Fmt) (x : Nat) : Nat := if x / F.signBit % 2 = 1 then x % F.signBit else x % F.signBit + F.signBit

/-- VCPYS: x with the sign of y; a NaN in either operand gives the canonical NaN. -/
def fcpys (F : Fmt) (x y : Nat) : Nat :=
  if (F.decode x).isNan || (F.decode y).isNan then F.qnan else x % F.signBit + y / F.signBit % 2 * F.signBit

def execVNop (s : State) : Out := .next s
def execVadd (f : VF) (s : State) : Out := .next (s.vf2 f 4 fun F a b r => F.add a b r)
def execVsub (f : VF) (s : State) : Out := .next (s.vf2 f 4 fun F a b r => F.add a b.negate r)
def execVmul (f : VF) (s : State) : Out := .next (s.vf2 f 4 fun F a b r => F.mul a b r)
def execVfma (f : VF) (s : State) : Out := .next (s.vf3 f false false)
def execVfms (f : VF) (s : State) : Out := .next (s.vf3 f false true)
def execVfnma (f : VF) (s : State) : Out := .next (s.vf3 f true false)
def execVmin (f : VF) (s : State) : Out := .next (s.vbits2 f 2 ((fmtOf (vElem f)).minMax false))
def execVmax (f : VF) (s : State) : Out := .next (s.vbits2 f 2 ((fmtOf (vElem f)).minMax true))
def execVabs (f : VF) (s : State) : Out := .next (s.vbits1 f 1 (signOp (fmtOf (vElem f)) (fabs (fmtOf (vElem f)))))
def execVneg (f : VF) (s : State) : Out := .next (s.vbits1 f 1 (signOp (fmtOf (vElem f)) (fneg (fmtOf (vElem f)))))
def execVcpys (f : VF) (s : State) : Out := .next (s.vbits2 f 1 fun x y => (fcpys (fmtOf (vElem f)) x y, 0))
def execVrcp (f : VF) (s : State) : Out := .next (s.vf1 f fun F a r => F.rcp a r)
def execVrsq (f : VF) (s : State) : Out := .next (s.vf1 f fun F a r => F.rsq a r)
def execVsqrt (f : VF) (s : State) : Out := .next (s.vf1 f fun F a r => F.sqrt a r)
def execVexp2 (f : VF) (s : State) : Out := .next (s.vf1 f fun F a r => F.exp2 a r)
def execVlog2 (f : VF) (s : State) : Out := .next (s.vf1 f fun F a r => F.log2 a r)

/-! ## Comparison and classification (R157, R158) -/

/-- Bits i of a mask result, from i up. -/
def maskFold (f : Nat → Bool × FlagBits) : Nat → Nat → Nat × FlagBits
  | _, 0 => (0, 0)
  | i, n + 1 =>
    let (r, fl) := maskFold f (i + 1) n
    let (b, fb) := f i
    ((if b then 1 else 0) + 2 * r, fb ||| fl)

/-- The whole of md from the comparison of the lanes whose mask bit is 1 (R157). -/
def State.vcompare (s : State) (f : VF) (lat : Nat) (cmp : Nat → Nat → Bool × FlagBits) : State :=
  s.vsyl f [s.regV f.a, s.regV f.b] [s.regM f.d.toNat] fun s =>
    let w := ElemType.bits (vElem f)
    let a := s.rdV f.a
    let b := s.rdV f.b
    let m := s.vmask f
    let (r, fl) := maskFold (fun i => if m.getLsbD i then cmp (elem w a i) (elem w b i) else (false, 0)) 0
      (ElemType.lanes (vElem f))
    (s.putM f.d.toNat (BitVec.ofNat 64 r) lat).stageFlags f fl false

/-- Conditions of VCMPF (Table 2.8). -/
def fcondOf (n : Nat) : FCond :=
  match n with
  | 0 => .eq | 1 => .ne | 2 => .lt | 3 => .le | 4 => .gt | 5 => .ge | 6 => .un | _ => .ord

def execVcmpf (f : VF) (s : State) : Out :=
  .next (s.vcompare f 2 fun x y =>
    let F := fmtOf (vElem f)
    FVal.compare (fcondOf f.sub.toNat) (F.decode x) (F.decode y))

/-- The class bit of Table 6.5. -/
def classBit (F : Fmt) (x : Nat) : Nat :=
  let sub := x / 2 ^ F.fb % 2 ^ F.eb == 0
  match F.decode x with
  | .nan true => 0
  | .nan false => 1
  | .inf true => 2
  | .inf false => 9
  | .fin true m _ => if m = 0 then 5 else if sub then 4 else 3
  | .fin false m _ => if m = 0 then 6 else if sub then 7 else 8

def execVclass (f : VF) (s : State) : Out := .next (s.vbits1 f 1 fun x => 2 ^ classBit (fmtOf (vElem f)) x)

/-! ## Integers (R159) -/

/-- VIADD and VISUB: modulo 2^w, or clamped with sat (Table 6.7). -/
def intAddSub (w : Nat) (sub uns sat : Bool) (x y : Nat) : Nat :=
  if !sat then wrapInt w (if sub then (x : Int) - y else (x : Int) + y)
  else if uns then wrapInt w (clampNat w (if sub then (x : Int) - y else (x : Int) + y))
  else wrapInt w (clampInt w (if sub then sintOf w x - sintOf w y else sintOf w x + sintOf w y))

/-- Bits [2w - 1 : w] of the product. -/
def intMulh (w : Nat) (uns : Bool) (x y : Nat) : Nat :=
  if uns then x * y / 2 ^ w else wrapInt w (sintOf w x * sintOf w y / 2 ^ w)

def intMinMax (w : Nat) (isMax uns : Bool) (x y : Nat) : Nat :=
  let less := if uns then decide (x < y) else decide (sintOf w x < sintOf w y)
  if less != isMax then x else y

/-- Shifts by y modulo w: left, right with zeros, right with the sign. -/
def intShl (w x y : Nat) : Nat := x * 2 ^ (y % w) % 2 ^ w
def intShr (w x y : Nat) : Nat := x / 2 ^ (y % w)
def intSar (w x y : Nat) : Nat := wrapInt w (sintOf w x / 2 ^ (y % w))

/-- The condition of R48 on w-bit elements. -/
def intCond (w : Nat) (c : Cond) (x y : Nat) : Bool :=
  match c with
  | .eq => x == y
  | .ne => x != y
  | .lt => decide (sintOf w x < sintOf w y)
  | .ge => decide (sintOf w y ≤ sintOf w x)
  | .ltu => decide (x < y)
  | .geu => decide (y ≤ x)
  | .le => decide (sintOf w x ≤ sintOf w y)
  | .gt => decide (sintOf w y < sintOf w x)

def vWidth (f : VF) : Nat := ElemType.bits (vElem f)
def vUns (f : VF) : Bool := f.sub.getLsbD 0

/-- An integer operation on two elements. -/
def State.vint (s : State) (f : VF) (lat : Nat) (op : Nat → Nat → Nat → Nat) : State :=
  s.vbits2 f lat fun x y => (op (vWidth f) x y, 0)

def execViadd (f : VF) (s : State) : Out := .next (s.vint f 1 fun w x y => intAddSub w false (vUns f) f.sat x y)
def execVisub (f : VF) (s : State) : Out := .next (s.vint f 1 fun w x y => intAddSub w true (vUns f) f.sat x y)
def execVimul (f : VF) (s : State) : Out := .next (s.vint f 3 fun w x y => x * y % 2 ^ w)
def execVimulh (f : VF) (s : State) : Out := .next (s.vint f 3 fun w x y => intMulh w (vUns f) x y)
def execVand (f : VF) (s : State) : Out := .next (s.vint f 1 fun _ x y => Nat.land x y)
def execVor (f : VF) (s : State) : Out := .next (s.vint f 1 fun _ x y => Nat.lor x y)
def execVxor (f : VF) (s : State) : Out := .next (s.vint f 1 fun _ x y => Nat.xor x y)
def execVshl (f : VF) (s : State) : Out := .next (s.vint f 1 intShl)
def execVshr (f : VF) (s : State) : Out := .next (s.vint f 1 intShr)
def execVsar (f : VF) (s : State) : Out := .next (s.vint f 1 intSar)
def execVimin (f : VF) (s : State) : Out := .next (s.vint f 1 fun w x y => intMinMax w false (vUns f) x y)
def execVimax (f : VF) (s : State) : Out := .next (s.vint f 1 fun w x y => intMinMax w true (vUns f) x y)
def execVicmp (f : VF) (s : State) : Out :=
  .next (s.vcompare f 1 fun x y => (intCond (vWidth f) (Cond.ofCode f.sub.toNat) x y, 0))
def execVpopc (f : VF) (s : State) : Out := .next (s.vbits1 f 1 fun x => onesOf x 64)

/-! ## Data movement (R160 to R162) -/

/-- VSEL writes every lane: va where the mask bit is 1, vb elsewhere. -/
def execVsel (f : VF) (s : State) : Out :=
  .next (s.vsyl f [s.regV f.a, s.regV f.b] [s.regV f.d] fun s =>
    let m := laneMask (vElem f) (s.vmask f)
    s.putV f.d ((s.rdV f.a &&& m) ||| (s.rdV f.b &&& ~~~m)) allBits 1)

def execVmov (f : VF) (s : State) : Out := .next (s.vbits1 f 1 id)

def execVbcast (f : VF) (s : State) : Out :=
  .next (s.vsyl f [s.regS (f.a.setWidth 6)] [s.regV f.d] fun s =>
    let x := (s.rdS (f.a.setWidth 6)).toNat
    s.putLanes f (vElem f) 2 false fun _ => (x, 0))

/-- Integer types sign-extend (R160). -/
def ElemType.isInt : ElemType → Bool
  | .i8 | .i16 | .i32 | .i64 => true
  | _ => false

def execVextr (f : VF) (s : State) : Out :=
  .next (s.vsyl f [s.regV f.a] [s.regS (f.d.setWidth 6)] fun s =>
    let x := elem (vWidth f) (s.rdV f.a) f.c.toNat
    s.putRowS (f.d.setWidth 6)
      (if ElemType.isInt (vElem f) then BitVec.ofInt 64 (sintOf (vWidth f) x) else BitVec.ofNat 64 x) 2)

/-- The bits of one lane. -/
def oneLane (w i : Nat) : Line := BitVec.ofNat 512 ((2 ^ w - 1) * 2 ^ (w * i))

def execVins (f : VF) (s : State) : Out :=
  .next (s.vsyl f [s.regS (f.a.setWidth 6)] [s.regV f.d] fun s =>
    let x := (s.rdS (f.a.setWidth 6)).toNat % 2 ^ (vWidth f)
    s.putV f.d (BitVec.ofNat 512 (x * 2 ^ ((vWidth f) * f.c.toNat)))
      (oneLane (vWidth f) f.c.toNat &&& laneMask (vElem f) (s.vmask f)) 2)

/-- VPERM and VSHUF act on bytes for the 4-bit types (R161). -/
def permType (t : ElemType) : ElemType :=
  match t with
  | .e2m1 | .se2m1 => .i8
  | t => t

/-- VPERM: a table of va and of vd as they stood before the bundle (R161). -/
def execVperm (f : VF) (s : State) : Out :=
  .next (s.vsyl f [s.regV f.a, s.regV f.b, s.regV f.d] [s.regV f.d] fun s =>
    let t := permType (vElem f)
    let w := ElemType.bits t
    let L := ElemType.lanes t
    let a := s.rdV f.a
    let b := s.rdV f.b
    let d := s.rdV f.d
    s.putLanes f t 2 false fun i =>
      let j := elem w b i % (2 * L)
      (if j < L then elem w a j else elem w d (j - L), 0))

/-- Lane i of VSHUF from the lanes of va and vb (R162). -/
def shuffle (op : ShufOp) (L : Nat) (a b : Nat → Nat) (i : Nat) : Nat :=
  let c (k : Nat) : Nat := if k < L then a k else b (k - L)
  match op with
  | .lo => if i % 2 = 0 then a (i / 2) else b (i / 2)
  | .hi => if i % 2 = 0 then a (L / 2 + i / 2) else b (L / 2 + i / 2)
  | .even => c (2 * i)
  | .odd => c (2 * i + 1)
  | .rev => a (L - 1 - i)

def shufOf (n : Nat) : ShufOp :=
  match n with
  | 0 => .lo | 1 => .hi | 2 => .even | 3 => .odd | _ => .rev

/-- REV does not read vb. -/
def execVshuf (f : VF) (s : State) : Out :=
  .next (s.vsyl f (if shufOf f.sub.toNat = .rev then [s.regV f.a] else [s.regV f.a, s.regV f.b]) [s.regV f.d] fun s =>
    let t := permType (vElem f)
    let w := ElemType.bits t
    let a := s.rdV f.a
    let b := s.rdV f.b
    s.putLanes f t 2 false fun i => (shuffle (shufOf f.sub.toNat) (ElemType.lanes t) (elem w a) (elem w b) i, 0))

/-! ## Conversion and block packing (R163 to R165) -/

/-- VCVT: lanes beyond the source's count are not written. -/
def execVcvt (f : VF) (s : State) : Out :=
  .next (s.vsyl f [s.regV f.a] [s.regV f.d] fun s =>
    let td := vElem f
    let ts := elemOfCode f.sub.toNat
    let n := Nat.min (ElemType.lanes td) (ElemType.lanes ts)
    let m := s.vmask f
    let a := s.rdV f.a
    let w := ElemType.bits td
    let on (i : Nat) : Bool := decide (i < n) && maskBit m (ElemType.lanes td) i
    let (v, fl) := laneFold w on (fun i => convert ts td (elem (ElemType.bits ts) a i) (s.vrnd f i)) 0 (ElemType.lanes td)
    (s.putV f.d (BitVec.ofNat 512 v) (BitVec.ofNat 512 (laneBits w on 0 (ElemType.lanes td))) 4).stageFlags f fl true)

/-- NaNOf (R164): the canonical NaN, or +0 with NV for E2M1. -/
def nanOf (F : Fmt) (signalling : Bool) : Nat × FlagBits :=
  if F.nan then F.nanWith signalling else (0, flagNV)

/-- One element of VPACKB: x divided exactly by the scale, then converted (R164). -/
def packElem (F : Fmt) (x : FVal) (sc : Nat) (r : Rnd) : Nat × FlagBits :=
  match x with
  | .nan sg => nanOf F sg
  | .inf n =>
    if sc / 4 % 256 = 255 then nanOf F false
    else if sc / 4 % 256 = 0 then (if n then F.signBit else 0, 0)
    else convToFloat F (.inf n) r
  | .fin n m e =>
    if sc / 4 % 256 = 255 then nanOf F false
    else if sc / 4 % 256 = 0 then (if n then F.signBit else 0, 0)
    else
      let k := 4 + sc % 4
      let num := m * 2 ^ 160
      F.round ⟨n, num / k, e - 160 - ((sc / 4 % 256 : Nat) - 129 : Int), num % k != 0⟩ r

/-- Block number and scale of a block control register (R163). -/
def blockOf (b : Line) (nb : Nat) : Nat := half b 0 % 8 % nb
def blockScale (b : Line) : Nat := half b 1 % 1024

def execVpackb (f : VF) (s : State) : Out :=
  .next (s.vsyl f [s.regV f.a, s.regV f.b] [s.regV f.d] fun s =>
    let t := vElem f
    let w := ElemType.bits t
    let L := ElemType.lanes t
    let a := s.rdV f.a
    let k := blockOf (s.rdV f.b) (L / 16)
    let sc := blockScale (s.rdV f.b)
    let m := s.vmask f
    let on (i : Nat) : Bool := decide (i / 16 = k) && maskBit m L i
    let (v, fl) := laneFold w on (fun i => packElem (fmtOf t) (fmtF32.decode (elem 32 a (i % 16))) sc (s.vrnd f i)) 0 L
    (s.putV f.d (BitVec.ofNat 512 v) (BitVec.ofNat 512 (laneBits w on 0 L)) 4).stageFlags f fl true)

/-- One lane of VUNPKB: the scaled value rounded to F32 in RNE (R165). -/
def unpackElem (F : Fmt) (x sc : Nat) : Nat × FlagBits :=
  convToFloat fmtF32 (scaledVal (F.decode x) (scaleVal sc)) ⟨.rne, false, 0⟩

def execVunpkb (f : VF) (s : State) : Out :=
  .next (s.vsyl f [s.regV f.a, s.regV f.b] [s.regV f.d] fun s =>
    let t := vElem f
    let a := s.rdV f.a
    let k := blockOf (s.rdV f.b) (ElemType.lanes t / 16)
    let sc := blockScale (s.rdV f.b)
    s.putLanes f .f32 4 false fun j => unpackElem (fmtOf t) (elem (ElemType.bits t) a (16 * k + j)) sc)

/-! ## Dot products, reductions, scans (R166 to R168) -/

/-- The pairs of one group of VDOT8, with their scales for the block-scaled types. -/
def dotPairs (t : ElemType) (a b : Line) (u n sa sb : Nat) : List (Scaled × Scaled) :=
  let F := fmtOf t
  let val (x sc : Nat) : Scaled := (F.decode x, if ElemType.scaled t then scaleVal sc else unitScale)
  (List.range 16).map fun j => (val (elem 8 a (16 * u + j)) sa, val (elem 8 b (16 * n + j)) sb)

def execVdot8 (f : VF) (s : State) : Out :=
  let t := vElem f
  .next (s.vsyl f ([s.regV f.a, s.regV f.b, s.regV f.d] ++ if ElemType.scaled t then [s.regV f.c] else [])
    [s.regV f.d] fun s =>
      let a := s.rdV f.a
      let b := s.rdV f.b
      let c := s.rdV f.c
      let d := s.rdV f.d
      s.putLanes f .f32 6 true fun i =>
        let u := i / 4
        let n := i % 4
        if t = .i8 then
          (dotStepInt ((List.range 16).map fun j => (sintOf 8 (elem 8 a (16 * u + j)), sintOf 8 (elem 8 b (16 * n + j))))
            (elem 32 d i) false, 0)
        else
          dotStepFloat (dotPairs t a b u n (half c u % 1024) (half c (4 + n) % 1024)) (elem 32 d i)
            ⟨s.mode f.rm.toNat, false, vRandom s.c.sys.flags i⟩)

def redOf (n : Nat) : RedOp :=
  match n with
  | 0 => .add | 1 => .min | _ => .max

/-- One node of a reduction: both inputs present (R91). -/
def redNode (t : ElemType) (op : RedOp) (x y : Nat) (r : Rnd) : Nat × FlagBits :=
  match ElemType.fmt? t, op with
  | some F, .add => F.add (F.decode x) (F.decode y) r
  | some F, .min => F.minMax false x y
  | some F, .max => F.minMax true x y
  | none, .add => ((x + y) % 2 ^ ElemType.bits t, 0)
  | none, .min => (intMinMax (ElemType.bits t) false false x y, 0)
  | none, .max => (intMinMax (ElemType.bits t) true false x y, 0)

/-- The result of a reduction of no lane (R91). -/
def redEmpty (t : ElemType) (op : RedOp) : Nat :=
  match ElemType.fmt? t, op with
  | _, .add => 0
  | some F, .min => F.infBits
  | some F, .max => F.signBit + F.infBits
  | none, .min => 2 ^ (ElemType.bits t - 1) - 1
  | none, .max => 2 ^ (ElemType.bits t - 1)

/-- One level of the tree: node j of the rest of the list (R91). -/
def redLevel (node : Nat → Nat → Nat → Nat × FlagBits) : Nat → List (Option Nat) → List (Option Nat) × FlagBits
  | j, x :: y :: rest =>
    let (l, fl) := redLevel node (j + 1) rest
    match x, y with
    | some a, some b =>
      let (v, fv) := node j a b
      (some v :: l, fv ||| fl)
    | some a, none => (some a :: l, fl)
    | none, y => (y :: l, fl)
  | _, l => (l, 0)

/-- The tree from level k on. -/
def redTree (node : Nat → Nat → Nat → Nat → Nat × FlagBits) : Nat → Nat → List (Option Nat) → Option Nat × FlagBits
  | 0, _, l => ((l.head?).getD none, 0)
  | fuel + 1, k, l =>
    if l.length ≤ 1 then ((l.head?).getD none, 0)
    else
      let (l', fl) := redLevel (node k) 0 l
      let (v, fr) := redTree node fuel (k + 1) l'
      (v, fl ||| fr)

/-- VRED writes the result into every lane, whatever the mask holds (R167). -/
def execVred (f : VF) (s : State) : Out :=
  .next (s.vsyl f [s.regV f.a] [s.regV f.d] fun s =>
    let t := vElem f
    let w := ElemType.bits t
    let L := ElemType.lanes t
    let op := redOf f.sub.toNat
    let m := s.vmask f
    let a := s.rdV f.a
    let lanes := (List.range L).map fun i => if maskBit m L i then some (elem w a i) else none
    let (v, fl) := redTree (fun k j x y => redNode t op x y (s.vrnd f (64 * k + j))) 8 0 lanes
    let r := v.getD (redEmpty t op)
    (s.putV f.d (BitVec.ofNat 512 (ofElems w (List.replicate L r))) allBits 10).stageFlags f fl true)

/-- VSCAN's running values from lane i on (R92): the running value so far, and the results of the remaining lanes. -/
def scanLanes (node : Nat → Nat → Nat → Nat × FlagBits) : Nat → Option Nat → List (Option Nat) → List Nat × FlagBits
  | _, _, [] => ([], 0)
  | i, run, none :: rest =>
    let (l, fl) := scanLanes node (i + 1) run rest
    (0 :: l, fl)
  | i, none, some x :: rest =>
    let (l, fl) := scanLanes node (i + 1) (some x) rest
    (x :: l, fl)
  | i, some y, some x :: rest =>
    let (v, fv) := node i y x
    let (l, fl) := scanLanes node (i + 1) (some v) rest
    (v :: l, fv ||| fl)

def execVscan (f : VF) (s : State) : Out :=
  .next (s.vsyl f [s.regV f.a] [s.regV f.d] fun s =>
    let t := vElem f
    let w := ElemType.bits t
    let L := ElemType.lanes t
    let m := s.vmask f
    let a := s.rdV f.a
    let lanes := (List.range L).map fun i => if maskBit m L i then some (elem w a i) else none
    let (l, fl) := scanLanes (fun i x y => redNode t (redOf f.sub.toNat) x y (s.vrnd f i)) 0 none lanes
    (s.putV f.d (BitVec.ofNat 512 (ofElems w l)) (laneMask t m) 10).stageFlags f fl true)

/-! ## Loads, stores and doors (R169 to R172) -/

/-- ea of a V memory instruction (R169). -/
def State.vaddr (s : State) (f : VF) : Word := s.rdS (f.a.setWidth 6) + f.c.signExtend 64 * 64

def State.vload (s : State) (f : VF) (sync : Bool) : State :=
  s.vsyl f [s.regS (f.a.setWidth 6)] [s.regV f.d] fun s =>
    let ea := s.vaddr f
    let m := laneMask (vElem f) (s.vmask f)
    match s.checkV .load ea with
    | some c => s.raise 2 c ea
    | none =>
      (s.stagePwb (s.beyondBit ea 64 (maskByte m))).stage
        (.access ⟨0, 0, 2, 0, ea, 64, 0, .vload (s.regV f.d) m sync, sync && s.inSync ea, false, [], false, none, none, []⟩)

def execVld (f : VF) (s : State) : Out := .next (s.vload f false)
def execVlds (f : VF) (s : State) : Out := .next (s.vload f true)

def State.vstore (s : State) (f : VF) (full : Bool) : State :=
  s.vsyl f [s.regV f.d, s.regS (f.a.setWidth 6)] [] fun s =>
    let ea := s.vaddr f
    match s.checkV .store ea with
    | some c => s.raise 2 c ea
    | none =>
      s.stage (.access ⟨0, 0, 2, 0, ea, 64, s.c.sys.olane,
        .store (s.rdV f.d) (laneMask (vElem f) (s.vmask f)) full, false, false, [], false, none, none, []⟩)

def execVst (f : VF) (s : State) : Out := .next (s.vstore f false)
def execVstf (f : VF) (s : State) : Out := .next (s.vstore f true)

/-- VGET claims the oldest unclaimed entry of an output door (R171). -/
def execVget (f : VF) (s : State) : Out :=
  .next (s.vsyl f [] [s.regV f.d] fun s =>
    s.stage (.vget (f.a.toNat - 32) (s.regV f.d) (laneMask (vElem f) (s.vmask f))))

/-- VPUT pushes the masked elements of va; a full door holds the bundle whatever the guard (R97, R172). -/
def execVput (f : VF) (s : State) : Out :=
  if !s.c.doorRoom f.d.toNat then .next (s.hold .doorFull)
  else .next (s.vsyl f [s.regV f.a] [] fun s =>
    s.stage (.vput f.d.toNat (s.rdV f.a &&& laneMask (vElem f) (s.vmask f))))

/-! ## Mask operations (R174) -/

def State.mop (s : State) (f : VF) (op : Word → Word → Word) : State :=
  s.vsyl f [s.regM f.a.toNat, s.regM f.b.toNat] [s.regM f.d.toNat] fun s =>
    s.putM f.d.toNat (op (s.rdM f.a.toNat) (s.rdM f.b.toNat)) 1

def execMand (f : VF) (s : State) : Out := .next (s.mop f fun a b => a &&& b)
def execMor (f : VF) (s : State) : Out := .next (s.mop f fun a b => a ||| b)
def execMxor (f : VF) (s : State) : Out := .next (s.mop f fun a b => a ^^^ b)

def execMnot (f : VF) (s : State) : Out :=
  .next (s.vsyl f [s.regM f.a.toNat] [s.regM f.d.toNat] fun s => s.putM f.d.toNat (~~~(s.rdM f.a.toNat)) 1)

/-- MPOPC and MFIRST write a scalar register with latency 2 (Table 6.1). -/
def State.mscalar (s : State) (f : VF) (op : Word → Word) : State :=
  s.vsyl f [s.regM f.a.toNat] [s.regS (f.d.setWidth 6)] fun s => s.putRowS (f.d.setWidth 6) (op (s.rdM f.a.toNat)) 2

def execMpopc (f : VF) (s : State) : Out := .next (s.mscalar f popcW)
def execMfirst (f : VF) (s : State) : Out := .next (s.mscalar f ctzW)

end Sys2Proof.Machine
end

