-- ==== Sys2Proof/Machine/Micro.lean ====
section
/-! DEFINITION. The micro-operations of a PE (R188 to R203). Each acts on the firing under way, State.micro; where no PE
fires, it has no effect (log 6). -/

namespace Sys2Proof.Machine

/-! ## Operands (R190) -/

/-- A constant in each word of a token. -/
def constToken (c : BitVec 32) : Token := { payload := BitVec.ofNat 128 (c.toNat * (1 + 2 ^ 32 + 2 ^ 64 + 2 ^ 96)) }

/-- The token that an operand code reads. -/
def Micro.src (m : Micro) (x : Nat) : Token :=
  if x < 16 then NMap.get {} m.pe.locals x
  else if x < 24 then ((m.heads.find? fun h => h.1 == x).map (·.2)).getD {}
  else if x = 24 then constToken m.c0
  else if x = 25 then constToken m.c1
  else { payload := m.pe.acc.setWidth 128 }

/-- The address operand of an edge element: a constant is its value zero-extended. -/
def Micro.addrSrc (m : Micro) (x : Nat) : Token :=
  if x = 24 then { payload := m.c0.setWidth 128 } else if x = 25 then { payload := m.c1.setWidth 128 } else m.src x

/-- Write a destination: a local register, the accumulator, or a channel (staged). -/
def Micro.put (m : Micro) (x : Nat) (t : Token) : Micro :=
  let t := { t with tag := m.pe.tag }
  if x < 16 then { m with pe := { m.pe with locals := NMap.set {} m.pe.locals x t } }
  else if x < 24 then { m with sends := m.sends ++ [(x, t)] }
  else { m with pe := { m.pe with acc := t.payload.setWidth 32 } }

/-- A source channel is not consumed by this firing. -/
def Micro.keepHead (m : Micro) (x : Nat) : Micro := { m with keep := m.keep ++ [x] }

/-! ## Poison (R197, R202) -/

def poisonToken (o : BitVec 32) : Token := { payload := o.setWidth 128, kind := .poison }

/-- The first poison among sources. -/
def firstOrigin : List Token → Option (BitVec 32)
  | [] => none
  | t :: r => if t.kind = .poison then some (t.payload.setWidth 32) else firstOrigin r

/-- A result, or poison where a source is poison. -/
def yield (srcs : List Token) (t : Token) : Token :=
  match firstOrigin srcs with
  | some o => poisonToken o
  | none => t

/-- A poison token is recorded (R202). -/
def Micro.record (m : Micro) (t : Token) (q : Nat) : Micro :=
  if t.kind = .poison then { m with poisons := m.poisons ++ [(t.payload.setWidth 32, q)] } else m

/-- A micro-operation acts on the firing under way. -/
def State.onMicro (s : State) (f : Micro → Micro) : State :=
  match s.micro with
  | none => s
  | some m => { s with micro := some (f m) }

/-! ## T micro-operations (Table 7.5) -/

def execTNop (s : State) : Out := .next s

def execMove (f : TF) (s : State) : Out := .next (s.onMicro fun m => m.put f.d.toNat (m.src f.a.toNat))

def execJoin (f : TF) (s : State) : Out :=
  .next (s.onMicro fun m =>
    let a := m.src f.a.toNat
    m.put f.d.toNat (yield [a, m.src f.b.toNat] a))

def execFork (f : TF) (s : State) : Out :=
  .next (s.onMicro fun m => (m.put f.d.toNat (m.src f.a.toNat)).put f.b.toNat (m.src f.a.toNat))

/-- STEER: a poison predicate sends a poison token to dt. -/
def execSteer (f : TF) (s : State) : Out :=
  .next (s.onMicro fun m =>
    let a := m.src f.a.toNat
    let p := m.src f.b.toNat
    if p.kind = .poison then m.put f.d.toNat (yield [a, p] a)
    else m.put (if p.payload.getLsbD 0 then f.d.toNat else f.p.toNat / 128) a)

/-- SELP: the poison of the arm not chosen is discarded; a poison predicate gives poison with the first origin of a, b, p. -/
def execSelp (f : TF) (s : State) : Out :=
  .next (s.onMicro fun m =>
    let a := m.src f.a.toNat
    let b := m.src f.b.toNat
    let p := m.src (f.p.toNat / 128)
    m.put f.d.toNat (if p.kind = .poison then yield [a, b, p] p else if p.payload.getLsbD 0 then a else b))

/-- The counter of the entry. -/
def Micro.count (m : Micro) : Nat := NMap.get 0 m.pe.counts m.pe.ptr
def Micro.setCount (m : Micro) (n : Nat) : Micro := { m with pe := { m.pe with counts := NMap.set 0 m.pe.counts m.pe.ptr n } }

def execAcc (f : TF) (s : State) : Out :=
  .next (s.onMicro fun m =>
    let n := m.count + 1
    if n < f.p.toNat then m.setCount n
    else
      let m := (m.setCount 0).put f.d.toNat { m.src f.a.toNat with side := 0 }
      if f.a = 26 then { m with pe := { m.pe with acc := 0 } } else m)

def execCtr (f : TF) (s : State) : Out :=
  .next (s.onMicro fun m =>
    (m.put f.d.toNat { payload := BitVec.ofNat 128 m.count }).setCount ((m.count + 1) % f.p.toNat))

/-- CNT passes poison on at once without counting. -/
def execCnt (f : TF) (s : State) : Out :=
  .next (s.onMicro fun m =>
    let t := m.src f.a.toNat
    if t.kind = .poison then m.put f.d.toNat t
    else
      let n := m.count + 1
      let m := m.setCount n
      if n % f.p.toNat = 0 then m.put f.d.toNat { payload := BitVec.ofNat 128 (n % 2 ^ 64) } else m)

/-- SRC passes its token and advances the position of its shutter. -/
def execSrc (f : TF) (s : State) : Out :=
  .next (s.onMicro fun m => { m.put f.d.toNat (m.src f.a.toNat) with shut := m.shut ++ [f.p.toNat % 16] })

def Micro.descQueue (m : Micro) (n : Nat) : Nat := ((m.descs[n]?).map (·.queue)).getD 8

def execSink (f : TF) (s : State) : Out :=
  .next (s.onMicro fun m => { m.record (m.src f.a.toNat) (m.descQueue (f.p.toNat % 64)) with tiles := m.tiles + 1 })

/-- DROP names no descriptor, so it writes no record. -/
def execDrop (f : TF) (s : State) : Out := .next (s.onMicro fun m => m.record (m.src f.a.toNat) 8)

/-- Whether the head of a source stands ready. -/
def Micro.ready (m : Micro) (x : Nat) : Bool := !isChan x || m.heads.any fun h => h.1 == x

/-- MERGE.ARR takes a when both heads are present. -/
def execMergeArr (f : TF) (s : State) : Out :=
  .next (s.onMicro fun m =>
    let a := f.a.toNat
    let b := f.b.toNat
    if m.ready a then (m.put f.d.toNat (m.src a)).keepHead b else (m.put f.d.toNat (m.src b)).keepHead a)

/-- Whether the MERGE.ALT of the entry takes b next. -/
def Pe.altB (p : Pe) : Bool := p.alts.contains p.ptr

def Pe.flipAlt (p : Pe) : Pe := { p with alts := if p.altB then p.alts.erase p.ptr else p.alts ++ [p.ptr] }

def execMergeAlt (f : TF) (s : State) : Out :=
  .next (s.onMicro fun m =>
    let a := f.a.toNat
    let b := f.b.toNat
    let alt := { m with pe := m.pe.flipAlt }
    if m.pe.altB then (alt.put f.d.toNat (m.src b)).keepHead a else (alt.put f.d.toNat (m.src a)).keepHead b)

/-! ### TURN (R200) -/

/-- The halves of an entry's TURN: the one that emits first, then the other. -/
def Pe.halves (p : Pe) : TurnHalf × TurnHalf :=
  ((p.turns.find? fun t => t.1 == p.ptr).map fun t => (t.2.1, t.2.2)).getD ({}, {})

def Pe.setHalves (p : Pe) (h : TurnHalf × TurnHalf) : Pe :=
  { p with turns := (p.turns.filter fun t => t.1 != p.ptr) ++ [(p.ptr, h.1, h.2)] }

/-- A token enters a half; the 64th seals it. -/
def TurnHalf.add (h : TurnHalf) (t : Token) : TurnHalf :=
  { h with elems := h.elems ++ [t], sealed := h.elems.length == 63,
           poison := if t.kind = .poison ∧ h.poison = 0 then t.payload.setWidth 32 else h.poison }

/-- A half is sealed with its unfilled elements set to a constant; an empty one is left alone. -/
def TurnHalf.flush (h : TurnHalf) (c : BitVec 32) : TurnHalf :=
  if h.elems = [] ∨ h.sealed then h
  else { h with elems := h.elems ++ List.replicate (64 - h.elems.length) (constToken c), sealed := true }

/-- Token e of a sealed half: rows 4t to 4t + 3 of one column; it carries the side word of the e-th token that entered. -/
def TurnHalf.token (h : TurnHalf) (e : Nat) : Token :=
  if h.poison ≠ 0 then poisonToken h.poison
  else
    let word (i : Nat) : Nat := (((h.elems[i * 4 + e / 16]?).getD {}).payload.toNat) / 2 ^ (32 * (e / 4 % 4)) % 2 ^ 32
    let r := 4 * (e % 4)
    { payload := BitVec.ofNat 128 (word r + 2 ^ 32 * word (r + 1) + 2 ^ 64 * word (r + 2) + 2 ^ 96 * word (r + 3)),
      side := ((h.elems[e]?).getD {}).side }

/-- Whether a half can take a token. -/
def turnRoom (h : TurnHalf × TurnHalf) : Bool := !h.1.sealed || !h.2.sealed

/-- Apply to the half that fills. -/
def onFilling (h : TurnHalf × TurnHalf) (f : TurnHalf → TurnHalf) : TurnHalf × TurnHalf :=
  if !h.1.sealed then (f h.1, h.2) else if !h.2.sealed then (h.1, f h.2) else h

/-- One firing of TURN takes a token, takes a flush, and emits a token, each where it can. DESIGN CHOICE (log 27), where R200
is silent: a flush that comes while both halves are sealed has no effect, as with an empty half, and a poison token on f
flushes as any other. -/
def execTurn (f : TF) (s : State) : Out :=
  .next (s.onMicro fun m =>
    let a := f.a.toNat
    let b := f.b.toNat
    let c := if f.p.getLsbD 0 then m.c1 else m.c0
    let h := m.pe.halves
    let (h, m) := if m.ready a && turnRoom h then (onFilling h fun x => x.add (m.src a), m) else (h, m.keepHead a)
    let (h, m) := if isChan b && m.ready b then (onFilling h fun x => x.flush c, m) else (h, m.keepHead b)
    let h := if m.closed.contains a then onFilling h fun x => x.flush c else h
    let (h, m) :=
      if h.1.sealed && !m.full.contains f.d.toNat then
        let m := m.put f.d.toNat (h.1.token h.1.emitted)
        ((if h.1.emitted = 63 then (h.2, {}) else ({ h.1 with emitted := h.1.emitted + 1 }, h.2)), m)
      else (h, m)
    { m with pe := m.pe.setHalves h })

/-! ### Edge elements (R201) -/

def edgeBytes (p : BitVec 12) : Nat := match p.toNat / 1024 with
  | 0 => 4 | 1 => 8 | _ => 64

/-- An access of an edge element is presented; a poison source makes its outputs poison and no access, recorded. -/
def Micro.edge (m : Micro) (f : TF) (op : Nat) (addr : Token) (data : List Token) (outs : Nat) : Micro :=
  let desc := f.p.toNat / 16 % 64
  let payload := data.foldr (fun t v => t.payload.toNat + 2 ^ 128 * v) 0
  let a : EdgeAcc :=
    { seq := 0, row := m.pe.row, col := m.pe.col, desc := desc, op := op, sub := f.p.toNat % 16, size := edgeBytes f.p,
      offset := addr.payload.setWidth 64, data := BitVec.ofNat 512 payload, dst := f.d.toNat, tag := m.pe.tag }
  match firstOrigin (addr :: data) with
  | none => { m with accs := m.accs ++ [a] }
  | some o => { m with accs := m.accs ++ [{ a with out := some (List.replicate outs (poisonToken o)) }],
                       poisons := m.poisons ++ [(o, m.descQueue desc)] }

def execEdld (f : TF) (s : State) : Out :=
  .next (s.onMicro fun m => m.edge f 0 (m.addrSrc f.a.toNat) [] (if edgeBytes f.p = 64 then 4 else 1))

/-- What the EDST.L of the entry has gathered. -/
def Pe.line (p : Pe) : List Token := NMap.get [] p.lines p.ptr

def Pe.setLine (p : Pe) (ts : List Token) : Pe := { p with lines := NMap.set [] p.lines p.ptr ts }

/-- EDST.L takes its address with the first of four data tokens. -/
def execEdst (f : TF) (s : State) : Out :=
  .next (s.onMicro fun m =>
    let a := f.a.toNat
    let b := m.src f.b.toNat
    if edgeBytes f.p ≠ 64 then m.edge f 1 (m.addrSrc a) [b] 1
    else match m.pe.line with
      | [] => { m with pe := m.pe.setLine [m.addrSrc a, b] }
      | addr :: ds =>
        let m := m.keepHead a
        if ds.length < 3 then { m with pe := m.pe.setLine (addr :: ds ++ [b]) }
        else { m with pe := m.pe.setLine [] }.edge f 1 addr (ds ++ [b]) 1)

def execEdatm (f : TF) (s : State) : Out :=
  .next (s.onMicro fun m => m.edge f 2 (m.addrSrc f.a.toNat) [m.src f.b.toNat] 1)

/-! ## A and M micro-operations (R195) -/

/-- An element of a token. -/
def telem (w : Nat) (t : Token) (i : Nat) : Nat := t.payload.toNat / 2 ^ (w * i) % 2 ^ w

/-- How lane j of an operation rounds; u is 1 for the A micro-operation (R80). -/
def Micro.rnd (m : Micro) (u j : Nat) : Rnd :=
  ⟨m.rm, m.sat, mix32 m.seed (BitVec.ofNat 32 ((m.pe.row * 16 + m.pe.col) * 256 + u * 128 + j)) (BitVec.ofNat 32 m.pe.firings)⟩

/-- The lanes of a result from the lane function g, with the flags. -/
def lanesOf (w n : Nat) (g : Nat → Nat × FlagBits) : BitVec 128 × FlagBits :=
  let (v, fl) := laneFold w (fun _ => true) g 0 n
  (BitVec.ofNat 128 v, fl)

/-- A result by its opcode: floating point, then integer, then the rest. -/
def Micro.floatOp (m : Micro) (op u : Nat) (F : Fmt) (w sub : Nat) (a b c : Token) : BitVec 128 × FlagBits :=
  let n := 128 / w
  let d (t : Token) (i : Nat) : FVal := F.decode (telem w t i)
  let on (g : Nat → Nat × FlagBits) := lanesOf w n g
  match op with
  | 0x01 => on fun i => F.add (d a i) (d b i) (m.rnd u i)
  | 0x02 => on fun i => F.add (d a i) (d b i).negate (m.rnd u i)
  | 0x03 => on fun i => F.mul (d a i) (d b i) (m.rnd u i)
  | 0x04 => on fun i => F.fma (d a i) (d b i) (d c i) (m.rnd u i)
  | 0x05 => on fun i => F.fma (d a i) (d b i) (d c i).negate (m.rnd u i)
  | 0x06 => on fun i => F.fma (d a i).negate (d b i) (d c i) (m.rnd u i)
  | 0x07 => on fun i => F.minMax false (telem w a i) (telem w b i)
  | 0x08 => on fun i => F.minMax true (telem w a i) (telem w b i)
  | 0x09 => on fun i => (signOp F (fabs F) (telem w a i), 0)
  | 0x0A => on fun i => (signOp F (fneg F) (telem w a i), 0)
  | 0x0B => on fun i => (fcpys F (telem w a i) (telem w b i), 0)
  | 0x11 =>
    let (v, fl) := maskFold (fun i => FVal.compare (fcondOf sub) (d a i) (d b i)) 0 n
    (BitVec.ofNat 128 v, fl)
  | _ => on fun i => (2 ^ classBit F (telem w a i), 0)

def Micro.intOp (m : Micro) (op w sub : Nat) (a b : Token) : BitVec 128 × FlagBits :=
  let n := 128 / w
  let uns := sub % 2 == 1
  let on (g : Nat → Nat → Nat) := lanesOf w n fun i => (g (telem w a i) (telem w b i), 0)
  match op with
  | 0x20 => on (intAddSub w false uns m.sat)
  | 0x21 => on (intAddSub w true uns m.sat)
  | 0x22 => on fun x y => x * y % 2 ^ w
  | 0x23 => on (intMulh w uns)
  | 0x24 => on Nat.land
  | 0x25 => on Nat.lor
  | 0x26 => on Nat.xor
  | 0x27 => on (intShl w)
  | 0x28 => on (intShr w)
  | 0x29 => on (intSar w)
  | 0x2A => on (intMinMax w false uns)
  | 0x2B => on (intMinMax w true uns)
  | 0x2C =>
    (BitVec.ofNat 128 (maskFold (fun i => (intCond w (Cond.ofCode sub) (telem w a i) (telem w b i), 0)) 0 n).1, 0)
  | _ => on fun x _ => onesOf x 64

/-- An element-wise micro-operation. -/
def Micro.elementwise (m : Micro) (u : Nat) (f : AM) : Micro :=
  let op := f.op.toNat
  let t := elemOfCode f.ty.toNat
  let w := ElemType.bits t
  let a := m.src f.a.toNat
  let b := m.src f.b.toNat
  let c := m.src f.c.toNat
  let srcs := [a] ++ (if amUsesB op then [b] else []) ++ (if amUsesC op then [c] else [])
  let (v, fl) : BitVec 128 × FlagBits :=
    if op = 0x40 then
      ((lanesOf w (128 / w) fun i => (if c.payload.getLsbD i then telem w a i else telem w b i, 0)).1, 0)
    else if op = 0x41 then (a.payload, 0)
    else if op = 0x47 then
      let ts := elemOfCode f.c.toNat
      let n := Nat.min (128 / w) (128 / ElemType.bits ts)
      lanesOf w n fun i => convert ts t (telem (ElemType.bits ts) a i) (m.rnd u i)
    else if op < 0x20 then m.floatOp op u (fmtOf t) w f.c.toNat a b c
    else m.intOp op w f.c.toNat a b
  match firstOrigin srcs with
  | some o => m.put f.d.toNat (poisonToken o)
  | none => { m.put f.d.toNat { payload := v } with flags := m.flags ||| fl }

def execPeElementwiseA (f : AM) (s : State) : Out := .next (s.onMicro fun m => m.elementwise 1 f)
def execPeElementwiseM (f : AM) (s : State) : Out := .next (s.onMicro fun m => m.elementwise 0 f)

/-- Scale of block k of a token (Table 7.4). -/
def Token.scale (t : Token) (k : Nat) : Nat := t.side.toNat / 2 ^ (16 * k) % 1024

/-- The pairs of a dot-product step of two 16-byte groups (R88, R195). -/
def groupPairs (t : ElemType) (a b : Token) : List (Scaled × Scaled) :=
  let w := ElemType.bits t
  let F := fmtOf t
  let val (x : Token) (i : Nat) : Scaled :=
    (F.decode (telem w x i), if ElemType.scaled t then scaleVal (x.scale (i / 16)) else unitScale)
  (List.range (128 / w)).map fun i => (val a i, val b i)

def execPeDotStep (f : AM) (s : State) : Out :=
  .next (s.onMicro fun m =>
    let t := elemOfCode f.ty.toNat
    let a := m.src f.a.toNat
    let b := m.src f.b.toNat
    let c := m.src f.c.toNat
    let p := c.payload.toNat % 2 ^ 32
    let (v, fl) : Nat × FlagBits :=
      if t = .i8 then
        (dotStepInt ((List.range 16).map fun i => (sintOf 8 (telem 8 a i), sintOf 8 (telem 8 b i))) p m.sat, 0)
      else dotStepFloat (groupPairs t a b) p (m.rnd 0 0)
    match firstOrigin [a, b, c] with
    | some o => m.put f.d.toNat (poisonToken o)
    | none => { m.put f.d.toNat { payload := BitVec.ofNat 128 v } with flags := m.flags ||| fl })

end Sys2Proof.Machine
end

