-- ==== Sys2Proof/Machine/Fabric.lean ====
section
/-! DEFINITION. PEs of dataflow sections: channels, firing, edge accesses, poison, loop buffers (R186 to R204, R371). -/

namespace Sys2Proof.Machine

/-! ## Sections -/

/-- Extensions of the pantry that a region holds, and that a context's regions hold (R377). -/
def Section.extensions (x : Section) : Nat := (x.chans.map (·.ext)).foldl (· + ·) 0 + x.extDoors.length + x.extSpill

def Ctx.extensions (c : Ctx) : Nat :=
  (c.secs.map Section.extensions).foldl (· + ·) 0

/-- The trace shows that a section gives its extensions back (R377, R387). -/
def State.traceReleased (s : State) (c : Ctx) (x : Section) : State :=
  if x.extensions = 0 then s else s.trc 8 3 c [.word x.handle, .word 0, .word 0]

def Ctx.onSec (c : Ctx) (h : Nat) (f : Section → Section) : Ctx :=
  { c with secs := c.secs.map fun x => if x.handle = h then f x else x }

def State.onSec (s : State) (k : CtxId) (h : Nat) (f : Section → Section) : State := s.onCtx k fun c => c.onSec h f

/-- A section of a context. -/
def State.sec? (s : State) (k : CtxId) (h : Nat) : Option (Ctx × Section) :=
  match s.ctx? k with
  | none => none
  | some c => (c.sec? h).map fun x => (c, x)

/-- The image that runs under a tag (R204). -/
def Section.imageOf (x : Section) (tag : Nat) : Option Image :=
  if tag = x.tag then x.image else match x.old with
    | some (g, t) => if t = tag then some g else none
    | none => none

def Section.pe? (x : Section) (row col : Nat) : Option Pe := x.pes.find? fun p => p.row == row && p.col == col

def Section.setPe (x : Section) (p : Pe) : Section :=
  { x with pes := x.pes.map fun q => if q.row = p.row ∧ q.col = p.col then p else q }

/-- The record that a PE runs, with its image. -/
def Section.recordOf (x : Section) (p : Pe) : Option (Image × PeRecord) :=
  (x.imageOf p.tag).bind fun g => (g.recs[p.recNo]?).map fun r => (g, r)

/-- Record key of the deal counter of a record. -/
def Pe.dealKey (p : Pe) : Nat := p.tag * 256 + p.recNo

/-! ## Channels (R189, R198) -/

/-- The PE beyond a link, and the direction in which the token arrives there. -/
def linkTo (row col d : Nat) : Nat × Nat × Nat :=
  match d with
  | 0 => (row - 1, col, 2)
  | 1 => (row, col + 1, 3)
  | 2 => (row + 1, col, 0)
  | _ => (row, col - 1, 1)

def Section.chan (x : Section) (row col dir : Nat) : Chan :=
  (x.chans.find? fun q => q.row == row && q.col == col && q.dir == dir).getD { row := row, col := col, dir := dir }

def Section.setChan (x : Section) (q : Chan) : Section :=
  { x with chans := (x.chans.filter fun p => !(p.row == q.row && p.col == q.col && p.dir == q.dir)) ++ [q] }

/-- Depth of the delay-matching queue that the JOINs of the PE at a place give a link. -/
def Section.joinDepth (x : Section) (row col dir : Nat) : Nat :=
  match (x.pe? row col).bind x.recordOf with
  | none => 0
  | some (_, r) =>
    let qs := r.entries.flatMap fun e => match entryOps e with
      | none => []
      | some ops => ops.filterMap fun i => match i with
        | .join f =>
          if f.a.toNat = 16 + dir then some (f.p.toNat / 128)
          else if f.b.toNat = 16 + dir then some (f.p.toNat / 4 % 32) else none
        | _ => none
    qs.foldl Nat.max 0

def Section.chanCap (x : Section) (row col dir : Nat) : Nat :=
  2 + x.joinDepth row col dir + 2048 * (x.chan row col dir).ext

/-- Tokens that edge accesses of the PE at an anchor have still to deliver to a destination. -/
def Section.owed (x : Section) (row col dst : Nat) : Nat :=
  (x.edges.filter fun e => e.dst == dst && (match (x.pe? e.row e.col).bind x.recordOf with
    | some (_, r) => r.row == row && r.col == col
    | none => false)).length

/-- Descriptor of edge slot x of a record. -/
def deskOf (g : Image) (r : PeRecord) (d : Nat) : Option EdgeDesc := (r.edges[d - 20]?).bind fun i => g.edges[i]?

/-- Free room of a channel destination of a record: how many tokens it can take. -/
def State.roomOf (_ : State) (c : Ctx) (x : Section) (g : Image) (r : PeRecord) (d : Nat) : Nat :=
  if d < 20 then
    let (row, col, dir) := linkTo r.row r.col (d - 16)
    let q := x.chan row col dir
    if q.discard then 1 else x.chanCap row col dir - q.toks.length
  else match deskOf g r d with
    | some e => if c.doorRoom e.door then 1 else 0
    | none => 0

/-- A door entry from the tokens that an output-door slot gathered, completed with zero tokens (R189, R202, R212). -/
def entryFrom (ts : List Token) : DoorEntry :=
  match firstOrigin ts with
  | some o => ⟨o.setWidth 512, 0, o⟩
  | none =>
    let data := ts.foldr (fun t v => t.payload.toNat + 2 ^ 128 * v) 0
    let band := ts.foldr (fun t v => t.side.toNat % 1024 + 2 ^ 16 * (t.side.toNat / 2 ^ 16 % 1024) + 2 ^ 32 * v) 0
    ⟨BitVec.ofNat 512 data, BitVec.ofNat 128 band, 0⟩

/-- A token arrives at an output-door slot: the fourth pushes the entry, a switch token pushes what there is. -/
def Ctx.slotPut (c : Ctx) (x : Section) (r : PeRecord) (d door : Nat) (t : Token) (now : Nat) : Ctx :=
  let q := x.chan r.row r.col (d - 16)
  let ts := q.toks.map (·.2) ++ (if t.kind = .switch then [] else [t])
  if (t.kind = .switch && !ts.isEmpty) || ts.length == 4 then
    (c.onSec x.handle fun x => x.setChan { q with toks := [] }).pushDoor door (entryFrom ts) now
  else c.onSec x.handle fun x => x.setChan { q with toks := ts.map fun t => (now, t) }

/-- The clk in which a link can carry the next token, at t or later: one token per clk (R189). -/
def Chan.nextClk (q : Chan) (t : Nat) : Nat := match q.toks.getLast? with
  | some u => Nat.max t (u.1 + 1)
  | none => t

/-- Send a token to a destination of a record; it stands at its head from clk t on, a link carrying one token per clk. -/
def Ctx.sendTok (c : Ctx) (h : Nat) (g : Image) (r : PeRecord) (d t : Nat) (tok : Token) : Ctx :=
  match c.sec? h with
  | none => c
  | some x =>
    if d < 20 then
      let (row, col, dir) := linkTo r.row r.col (d - 16)
      let q := x.chan row col dir
      let q := if q.discard then { q with discard := tok.kind != .switch } else { q with toks := q.toks ++ [(q.nextClk t, tok)] }
      c.onSec h fun x => { x.setChan q with lastEvent := Nat.max x.lastEvent t, silence := 0 }
    else match deskOf g r d with
      | some e => (c.slotPut x r d e.door tok t).onSec h fun x => { x with lastEvent := Nat.max x.lastEvent t, silence := 0 }
      | none => c

/-! ## What a firing finds -/

/-- The head of a channel source of a record. -/
inductive Head where
  | none | closed
  | tok (t : Token)
  deriving DecidableEq, Repr

def Ctx.headOf (c : Ctx) (x : Section) (g : Image) (r : PeRecord) (now a : Nat) : Head :=
  let q := x.chan r.row r.col (a - 16)
  match q.toks with
  | (t, tok) :: _ =>
    if now < t then .none else if tok.kind = .switch then .closed else .tok tok
  | [] =>
    if q.closed then .closed
    else if a < 20 then .none
    else match (deskOf g r a).bind fun e => c.popDoor e.door with
      | some (e, _) => .tok (if e.poison = 0 then
          { payload := e.data.setWidth 128, side := BitVec.ofNat 32 (e.band.toNat % 1024 + 2 ^ 16 * (e.band.toNat / 2 ^ 16 % 1024)) }
        else poisonToken e.poison)
      | none => .none

/-- The four tokens of a door entry (R189, R212). -/
def tokensOf (e : DoorEntry) : List Token :=
  (List.range 4).map fun t =>
    if e.poison ≠ 0 then poisonToken e.poison
    else
      { payload := BitVec.ofNat 128 (e.data.toNat / 2 ^ (128 * t)),
        side := BitVec.ofNat 32 (e.band.toNat / 2 ^ (32 * t) % 1024 + 2 ^ 16 * (e.band.toNat / 2 ^ (32 * t + 16) % 1024)) }

/-- The head of a channel source is consumed. -/
def Ctx.consume (c : Ctx) (h : Nat) (g : Image) (r : PeRecord) (now a : Nat) : Ctx :=
  match c.sec? h with
  | none => c
  | some x =>
    let q := x.chan r.row r.col (a - 16)
    match q.toks with
    | _ :: rest => c.onSec h fun x => x.setChan { q with toks := rest }
    | [] =>
      if a < 20 then c
      else match (deskOf g r a).bind fun e => c.popDoor e.door with
        | some (e, c) => c.onSec h fun x => x.setChan { q with toks := ((tokensOf e).drop 1).map fun t => (now, t) }
        | none => c

/-- Sources that an entry needs at its head, and sources of which a micro-operation takes what there is (R192, R200,
R201, Table 7.5). -/
def neededOf (p : Pe) : Instr → List Nat × List Nat
  | .mergeArr f => ([], [f.a.toNat, f.b.toNat])
  | .mergeAlt f => if p.altB then ([f.b.toNat], [f.a.toNat]) else ([f.a.toNat], [f.b.toNat])
  | .turn f => ([], [f.a.toNat, f.b.toNat])
  | .edst f => if edgeBytes f.p = 64 ∧ p.line ≠ [] then ([f.b.toNat], [f.a.toNat]) else ([f.a.toNat, f.b.toNat], [])
  | i => (sourcesOf i, [])

/-- Whether MERGE.ARR or TURN has something to do. -/
def canAct (m : Micro) : Instr → Bool
  | .mergeArr f => m.ready f.a.toNat || m.ready f.b.toNat
  | .turn f =>
    let h := m.pe.halves
    (m.ready f.a.toNat && turnRoom h) || (isChan f.b.toNat && m.ready f.b.toNat) || (h.1.sealed && !m.full.contains f.d.toNat)
      || (m.closed.contains f.a.toNat && ((!h.1.sealed && h.1.elems != []) || (h.1.sealed && !h.2.sealed && h.2.elems != [])))
  | _ => true

/-- Clk for which a firing occupies its PE (Table 7.6). -/
def occupancy (ops : List Instr) : Nat :=
  if ops.any (fun i => match i with
    | .peElementwiseA _ | .peElementwiseM _ => true
    | .edld f => edgeBytes f.p == 64
    | _ => false) then 4 else 1

/-- The meaning of a micro-operation. -/
def runMicro (i : Instr) (s : State) : Out :=
  match i with
  | .move f => execMove f s
  | .join f => execJoin f s
  | .fork f => execFork f s
  | .steer f => execSteer f s
  | .selp f => execSelp f s
  | .acc f => execAcc f s
  | .ctr f => execCtr f s
  | .turn f => execTurn f s
  | .edld f => execEdld f s
  | .edst f => execEdst f s
  | .edatm f => execEdatm f s
  | .src f => execSrc f s
  | .sink f => execSink f s
  | .cnt f => execCnt f s
  | .mergeArr f => execMergeArr f s
  | .mergeAlt f => execMergeAlt f s
  | .drop f => execDrop f s
  | .peElementwiseA f => execPeElementwiseA f s
  | .peElementwiseM f => execPeElementwiseM f s
  | .peDotStep f => execPeDotStep f s
  | _ => .next s

/-- The micro-operations of an entry, one after the other (R193). -/
def runEntry : List Instr → State → Out
  | [], s => .next s
  | i :: r, s => match runMicro i s with
    | .next s => runEntry r s
    | o => o

/-! ## A firing (R192 to R196) -/

/-- Origin of poison that arises at a PE (R202). -/
def peOrigin (cause tile h row col : Nat) : BitVec 32 :=
  BitVec.ofNat 32 (cause * 2 ^ 24 + tile * 2 ^ 17 + h * 2 ^ 13 + row * 2 ^ 9 + col * 2 ^ 5)

/-- Poison recorded by a section (R202): the count, the first origin, a record to the descriptor's queue. The record's
STREAMID beyond the handle is free: the spec gives none. -/
def State.recordPoison (s : State) (k : CtxId) (h : Nat) (o : BitVec 32) (q : Nat) : State :=
  let s := s.onSec k h fun x => { x with poisons := x.poisons + 1, poison := if x.poison = 0 then o else x.poison }
  let s := match s.ctx? k with
    | some c => s.trc 1 6 c [.word h, .word o.toNat]
    | none => s
  if 8 ≤ q then s
  else
    let (n, s) := s.draw 4096
    s.pushRec k q { status := .poison, kind := 3, sid := h + 16 * n, fault := o } none none

/-- The shutters close (R203); a move under way leaves them closed (R179). -/
def Section.shut (x : Section) : Section := { x with opened := false, moving := x.moving.map fun m => { m with was := false } }

/-- The shutters open, at the end of a move under way (R179). -/
def Section.unshut (x : Section) : Section := match x.moving with
  | some m => { x with moving := some { m with was := true } }
  | none => { x with opened := true }

/-- A section's grant returns to the pool when it leaves RUNNING (R435). -/
def State.dropGrant (s : State) (k : CtxId) (h : Nat) : State :=
  let s := s.onSec k h fun x => { x with grant := 0, wants := 0, credit := 0 }
  { s with hub := { s.hub with grantReqs := s.hub.grantReqs.filter fun r => !(r.k == k && r.h == h) } }

/-- Tiles are counted; the armed count closes the shutters at the end of the clk and ends the section (R184). DESIGN CHOICE
(log 27): where SINKs bring a section that is STOPPING to its count, it stays so, and after SRUN.GO it ends at the next
firing of a SINK. -/
def State.countTiles (s : State) (k : CtxId) (h n : Nat) : State :=
  match s.sec? k h with
  | none => s
  | some (c, x) =>
    let t := x.tiles + n
    let s := s.onSec k h fun x => { x with tiles := t }
    if n ≠ 0 ∧ x.st = .running ∧ x.count.any (fun m => decide (m ≤ t)) then
      let s := s.trc 1 2 c [.word h, .word 1]
      (s.onSec k h fun x => { x.shut with st := .ending, shutClk := if x.opened then some s.clk else none }).dropGrant k h
    else s

/-- What a firing has staged takes effect. -/
def State.commitFiring (s : State) (m : Micro) (g : Image) (r : PeRecord) (srcs : List Nat) (o : Nat) : State :=
  let k := m.k
  let h := m.h
  let now := s.clk
  let n := r.entries.length
  let ptr := (m.pe.ptr + 1) % n
  let pe := { m.pe with ptr := ptr, firings := (m.pe.firings + 1) % 2 ^ 32, freeAt := now + o }
  let take := srcs.filter fun a => isChan a && !m.keep.contains a && m.heads.any fun x => x.1 == a
  let s := s.onCtx k fun c => take.eraseDups.foldl (fun c a => c.consume h g r now a) c
  let accs := m.accs.zipIdx.map fun e => { e.1 with seq := s.stamp + e.2 }
  let s := { s with stamp := s.stamp + accs.length }
  let s := s.onSec k h fun x =>
    let x := x.setPe pe
    { x with edges := x.edges ++ accs, flags := x.flags ||| m.flags, lastEvent := Nat.max x.lastEvent now, silence := 0,
             positions := m.shut.foldl (fun ps i => NMap.set 0 ps i (NMap.get 0 ps i + 1)) x.positions,
             dealt := if 1 < r.k ∧ ptr = 0 then NMap.set 0 x.dealt pe.dealKey (NMap.get 0 x.dealt pe.dealKey + 1) else x.dealt }
  let s := s.onCtx k fun c => m.sends.foldl (fun c t => c.sendTok h g r t.1 (now + o + 1) t.2) c
  let s := m.poisons.foldl (fun s p => s.recordPoison k h p.1 p.2) s
  s.countTiles k h m.tiles

/-- The head mismatch of R204, rule 3: the open channels of the entry are emptied up to their switch tokens, and one
poison token goes to the first SINK. DESIGN CHOICE (log 27): poison tokens among those discarded are dropped unrecorded, as
data tokens are. -/
def State.mismatch (s : State) (k : CtxId) (x : Section) (g : Image) (r : PeRecord) (opened : List Nat) : State :=
  let o := peOrigin 3 k.tile x.handle r.row r.col
  let s := s.onCtx k fun c => opened.foldl (fun c a => c.onSec x.handle fun x =>
    let q := x.chan r.row r.col (a - 16)
    let rest := q.toks.dropWhile fun t => t.2.kind != .switch
    x.setChan { q with toks := rest.drop 1, closed := true, discard := rest.isEmpty }) c
  let sink := (g.recs.flatMap fun r => r.entries).findSome? fun e => (entryOps e).bind fun ops => ops.findSome? fun i =>
    match i with
    | .sink f => some (((g.edges[f.p.toNat % 64]?).map (·.queue)).getD 8)
    | _ => none
  match sink with
  | some q => (s.recordPoison k x.handle o q).countTiles k x.handle 1
  | none => s.recordPoison k x.handle o 8

/-- Whether an edge access of a PE keeps it from firing: a frozen one, or one that will write a local register. -/
def Section.blocked (x : Section) (r : PeRecord) : Bool :=
  x.edges.any fun e => (e.frozen || e.dst < 16 || e.dst == 26) && (match (x.pe? e.row e.col).bind x.recordOf with
    | some (_, q) => q.row == r.row && q.col == r.col
    | none => false)

/-- Whether every channel that a record reads is closed (R204, rule 4). -/
def Ctx.allClosed (c : Ctx) (x : Section) (g : Image) (r : PeRecord) (now : Nat) : Bool :=
  (r.entries.flatMap fun e => ((entryOps e).getD []).flatMap sourcesOf).all fun a =>
    !isChan a || decide (20 ≤ a) || c.headOf x g r now a == .closed

/-- Whether a half of a TURN of the PE holds elements that are still to be emitted (R200). -/
def Pe.turning (p : Pe) : Bool := p.turns.any fun t => t.2.1.elems != [] || t.2.2.elems != []

/-- Whether a PE has the record that it runs (R186). -/
def Pe.holds (p : Pe) : Bool := p.loaded.any fun l => l.1 == p.tag

/-- Whether a section stands in a state in which no PE fires: not armed, or STOPPED but for PEs that switch (R181, R204). -/
def Section.still (x : Section) : Bool :=
  x.st == .loading || x.st == .ready || (x.st == .stopped && x.old.isNone)

/-- The shutters are open, or close at the end of this clk (R184). -/
def Section.sourcesOpen (x : Section) (now : Nat) : Bool := x.opened || x.shutClk == some now

/-- The entry at the entry pointer of a PE fires, is passed over, or meets a mismatch: an entry with a closed source and a
token on another one, a MERGE or TURN among them (R204, rule 3). During a reconfiguration an entry
behind the shutters of a PE that reads a link not closed yet is passed over too (DEDUCED, log 27). -/
def execPeFiring (k : CtxId) (h row col : Nat) (s : State) : Out :=
  match s.sec? k h with
  | none => .next s
  | some (c, x) =>
    match (x.pe? row col).bind fun p => (x.recordOf p).map fun q => (p, q.1, q.2) with
    | none => .next s
    | some (p, g, r) =>
      let ops := ((r.entries[p.ptr]?).bind entryOps).getD []
      let srcs := ((ops.flatMap sourcesOf).filter isChan).eraseDups
      let heads := srcs.map fun a => (a, c.headOf x g r s.clk a)
      let closed := (heads.filter fun y => y.2 == .closed).map (·.1)
      let waitsGrant := x.wants != 0 && !x.powered
      let shuttered := srcs.isEmpty || ops.any isSrc
      let skip : State := s.onSec k h fun x => x.setPe { p with ptr := (p.ptr + 1) % r.entries.length }
      -- nothing is left to do before the switch
      let finished := c.allClosed x g r s.clk && !p.turning
      if !c.live || s.clk < p.freeAt || !p.holds || NMap.get 0 x.dealt p.dealKey % r.k ≠ p.copy
          || x.blocked r || waitsGrant || x.still then .next s
      else if shuttered && !x.sourcesOpen s.clk then
        .next (if x.old.isSome && p.tag != x.tag && !finished then skip else s)
      else
        let need := (ops.flatMap fun i => (neededOf p i).1).filter isChan
        let isTurn := ops.any fun i => match i with
          | .turn _ => true
          | _ => false
        let m : Micro :=
          { k := k, h := h, pe := p, c0 := r.c0, c1 := r.c1, rm := g.rm, sat := g.sat, seed := g.seed, descs := g.edges,
            closed := closed,
            heads := heads.filterMap fun y => match y.2 with
              | .tok t => some (y.1, t)
              | _ => none,
            full := (ops.flatMap targetsOf).filter fun d =>
              isChan d && decide (s.roomOf c x g r d ≤ x.owed r.row r.col d) }
        if !closed.isEmpty && closed.length == srcs.length && !(isTurn && ops.any (canAct m)) then
          -- every channel source is closed: the entry is passed over
          if finished then .next s else .next skip
        else if !closed.isEmpty && heads.any (fun y => y.2 != .closed && y.2 != .none) then
          .next (s.mismatch k x g r ((heads.filter fun y => y.2 != .closed).map (·.1)))
        else
          if !need.all m.ready || !ops.all (canAct m) then .next s
          else match runEntry ops { s with micro := some m } with
            | .next s' =>
              let m := s'.micro.getD m
              let s := { s' with micro := none }
              let sendsOk := m.sends.all fun t =>
                decide ((m.sends.filter fun u => u.1 == t.1).length + x.owed r.row r.col t.1 ≤ s.roomOf c x g r t.1)
              let accsOk := m.accs.all fun e => !isChan e.dst || !m.full.contains e.dst
              if sendsOk && accsOk then .next (s.commitFiring m g r srcs (occupancy ops)) else .next s
            | o => o

/-- Entries in the loop buffer. -/
def Pe.entries (p : Pe) : Nat := (p.loaded.map (·.2)).foldl (· + ·) 0

/-- The record that a place will run after a reconfiguration under way. -/
def Section.nextRecord (x : Section) (row col : Nat) : Option PeRecord :=
  match x.old, x.image with
  | some _, some g => g.recs.find? fun r => (r.places (4 * g.pc)).contains (row * (4 * g.pc) + col)
  | _, _ => none

/-- The record that a PE fetches next, with its tag: its own, which it waits for; or, before it switches, the new one if the
buffer holds both (R186). -/
def Section.toFetch (x : Section) (p : Pe) (r : PeRecord) : Option (Nat × Nat) :=
  if !p.holds then some (p.tag, r.entries.length)
  else match x.nextRecord p.row p.col with
    | some q =>
      if p.tag != x.tag && !(p.loaded.any fun l => l.1 == x.tag) && decide (p.entries + q.entries.length ≤ 64) then
        some (x.tag, q.entries.length)
      else none
    | none => none

/-- A fetched record enters the loop buffer; where there is no room, the entries of tags that the PE no longer runs leave. -/
def Pe.fill (p : Pe) (tag n : Nat) : Pe :=
  let kept := if p.entries + n ≤ 64 then p.loaded else p.loaded.filter fun l => l.1 == p.tag
  { p with loaded := kept ++ [(tag, n)], fetching := none }

/-- A PE fetches a record from the cache, 8 clk and one more per entry (R186); waiting for its own is a configuration miss. -/
def execLoopBufferFill (k : CtxId) (h row col : Nat) (s : State) : Out :=
  match s.sec? k h with
  | none => .next s
  | some (c, x) =>
    match (x.pe? row col).bind fun p => (x.recordOf p).map fun q => (p, q.2) with
    | none => .next s
    | some (p, r) =>
      match p.fetching, x.toFetch p r with
      | none, some (t, n) =>
        let s := if t = p.tag then s.trc 1 5 c [.word row, .word col, .word t, .word (8 + n)] else s
        .next (s.onSec k h fun x => x.setPe { p with fetching := some (t, s.clk + 8 + n) })
      | some (t, at_), some (t', n) =>
        if s.clk < at_ then .next s
        else .next (s.onSec k h fun x => x.setPe (if t = t' then p.fill t n else { p with fetching := none }))
      | some _, none => .next (s.onSec k h fun x => x.setPe { p with fetching := none })
      | none, none => .next s

/-! ## Edge accesses (R201, R371, R374) -/

/-- What presenting an edge access brings. -/
inductive EdgeTry where
  | done (s : State) (out : List Token)
  | wait | walk
  | hold (set : Nat)
  | defer (d : Deferral)
  | fault (code : Nat)

/-- The view of an access: of the epoch in force when it was presented (R335). -/
def State.edgeViewer (s : State) (c : Ctx) (e : EdgeAcc) : Viewer :=
  s.viewerSeen c e.seen

/-- It is presented, and waits. -/
def EdgeAcc.present (e : EdgeAcc) (v : Viewer) : EdgeAcc := { e with seen := some (v.epoch, v.view, v.staging) }

def Section.descOf (x : Section) (e : EdgeAcc) : Option EdgeDesc := (x.imageOf e.tag).bind fun g => g.edges[e.desc]?

/-- Effective address of an edge access. -/
def Section.edgeAddr (x : Section) (e : EdgeAcc) : Word := ((x.descOf e).map (·.base)).getD 0 + e.offset

/-- The tokens of a loaded value: one zero-extended, or four of a line. -/
def loadTokens (size v : Nat) : List Token :=
  if size = 64 then (List.range 4).map fun i => { payload := BitVec.ofNat 128 (v / 2 ^ (128 * i)) }
  else [{ payload := BitVec.ofNat 128 v }]

/-- The operation of EDATM by its code. -/
def edatmOp : Nat → BankOp
  | 0 => .add | 1 => .min | 2 => .max | 3 => .and | 4 => .or | 5 => .xor | 6 => .fadd | _ => .swap

/-- Present an edge access. -/
def State.edgeTry (s : State) (c : Ctx) (x : Section) (e : EdgeAcc) : EdgeTry :=
  match x.descOf e with
  | none => .wait
  | some d =>
    let a := x.edgeAddr e
    let w := s.edgeViewer c e
    let tlb := s.tlbOf c.id.tile c.part a.toNat
    let used (s : State) : State := if space a = 0 then s.useL1 c.id.tile c.part a else s
    let bad (cause : Nat) : Token := poisonToken (peOrigin cause c.id.tile x.handle e.row e.col)
    let outs (t : Token) : List Token := List.replicate (if e.op = 0 ∧ e.size = 64 then 4 else 1) t
    let poisonWalk (code : Nat) : EdgeTry :=
      if 256 ≤ code then .done s (outs (bad (code - 256))) else .fault code
    if d.limit < e.offset.toNat + e.size ∨ e.offset.toNat % e.size ≠ 0 then .fault codeAccess
    else match e.walk with
      | some (.fault va code _) => if va = a then poisonWalk code else .walk
      | some (.waiting ..) => .wait
      | none =>
        if e.op = 0 then
          match s.engRead c w tlb 5 a e.size e.defer with
          | .value v _ => .done (used (s.noteRead c w tlb a e.size)) (loadTokens e.size v)
          | .poison o => .done (s.noteRead c w tlb a e.size) (outs (bad (o.toNat / 2 ^ 24)))
          | .wait => .wait
          | .hold set => .hold set
          | .defer key kind => .defer (e.defer.getD (s.newDeferral a e.size key kind))
          | .walk => .walk
          | .fault code => .fault code
        else if e.op = 1 then
          match s.engWrite c w tlb a (toBytes e.size (e.data.toNat % 2 ^ (8 * e.size))) with
          | .done s => .done (used s) [{ payload := e.offset.setWidth 128 }]
          | .poison cause => .done s [bad cause]
          | .wait => .wait
          | .hold set => .hold set
          | .walk => .walk
          | .fault code => .fault code
        else
          let p := s.engPlace c w tlb true a
          match s.opPlace p (edatmOp e.sub) e.size e.data.toNat with
          | .done s' =>
            let old := match p with
              | .stored key _ => s.valueAt key e.size
              | _ => 0
            .done s' [{ payload := BitVec.ofNat 128 old }]
          | .poison cause => .done (s.noteOp p e.size) [bad cause]
          | .wait => .wait
          | .hold set => .hold set
          | .walk => .walk
          | .fault code => .fault code

/-- Whether two accesses are of one element, with its copies: the record at the anchor, the operation, the descriptor. -/
def Section.sameElement (x : Section) (e f : EdgeAcc) : Bool :=
  let anchor (e : EdgeAcc) := ((x.pe? e.row e.col).bind x.recordOf).map fun q => (q.2.row, q.2.col)
  anchor f == anchor e && f.op == e.op && f.desc == e.desc

/-- Whether an earlier access of the element of access i is not answered yet; whether one has tokens to deliver. -/
def Section.edgeBehind (x : Section) (i : Nat) (e : EdgeAcc) : Bool := (x.edges.take i).any fun f => f.out.isNone && x.sameElement e f
def Section.tokensBehind (x : Section) (i : Nat) (e : EdgeAcc) : Bool := (x.edges.take i).any (x.sameElement e)

/-- Whether an access is frozen, or waits behind a frozen one of its element (R371). -/
def Section.edgeStuck (x : Section) (i : Nat) (e : EdgeAcc) : Bool :=
  e.frozen || (x.edges.take i).any fun f => f.frozen && x.sameElement e f

/-- An access that does not keep its section from being quiescent: answered, so that its tokens, if any are left, find no room;
or where frozen ones may be left, one of those or behind one (R184, R207). -/
def Section.edgeSettled (x : Section) (strict : Bool) (i : Nat) (e : EdgeAcc) : Bool := e.out.isSome || (!strict && x.edgeStuck i e)

def Section.setEdge (x : Section) (i : Nat) (e : EdgeAcc) : Section := { x with edges := x.edges.set i e }

/-- A CSYS REPLAY learns the outcome of one element that it presented again: failed or not; with the last of them its
record is written (R373). Its Run holds the elements replayed in bytes, those answered in pos, those failed in outp. -/
def State.replayed (s : State) (k : CtxId) (e : EdgeAcc) (failed : Bool) : State :=
  match e.replay with
  | some (some n) =>
    match (s.ctx? k).bind fun c => c.waits.find? fun w => w.cmd.seq == n with
    | none => s
    | some w =>
      let w := { w with pos := w.pos + 1, outp := if failed then w.outp + 1 else w.outp }
      if w.bytes ≤ w.pos then
        s.finishCmd w { status := .ok, kind := 10, sid := 0, version := BitVec.ofNat 32 w.outp, bytes := w.bytes }
      else s.onCtx k fun c => { c with waits := c.waits.map fun x => if x.cmd.seq = n then w else x }
  | _ => s

/-- Deliver the tokens of an answered access to its destination, as many as it has room for. -/
def State.deliverEdge (s : State) (k : CtxId) (h i : Nat) : Nat → State
  | 0 => s
  | fuel + 1 =>
    match s.sec? k h with
    | none => s
    | some (c, x) =>
      match x.edges[i]?, (x.edges[i]?).bind fun e => (x.pe? e.row e.col).bind fun p => (x.recordOf p).map fun q => (p, q) with
      | some e, some (p, g, r) =>
        match e.out with
        | none => s
        | some [] => s.onSec k h fun x => { x with edges := x.edges.eraseIdx i, lastEvent := Nat.max x.lastEvent s.clk }
        | some (t :: rest) =>
          let t := { t with tag := e.tag }
          let s' := s.onSec k h fun x => { x.setEdge i { e with out := some rest } with lastEvent := Nat.max x.lastEvent s.clk }
          if e.dst < 16 then
            (s'.onSec k h fun x => x.setPe { p with locals := NMap.set {} p.locals e.dst t }).deliverEdge k h i fuel
          else if e.dst = 26 then
            (s'.onSec k h fun x => x.setPe { p with acc := t.payload.setWidth 32 }).deliverEdge k h i fuel
          else if s.roomOf c x g r e.dst = 0 then s
          else (s'.onCtx k fun c => c.sendTok h g r e.dst (s.clk + 1) t).deliverEdge k h i fuel
      | some _, none => s.onSec k h fun x => { x with edges := x.edges.eraseIdx i }
      | none, _ => s

/-- Memory performs edge access i of a section and its element emits, in the order of the element's tokens. A walk that
it needs is noted. A frozen access is presented only under a replay (R373). -/
def execEdgeElementReply (k : CtxId) (h i : Nat) (s : State) : Out :=
  match s.sec? k h with
  | none => .next s
  | some (c, x) =>
    match x.edges[i]? with
    | none => .next s
    | some e =>
      if x.edgeBehind i e || (e.frozen && e.replay.isNone) then .next s
      else if e.out.isSome then .next (if x.tokensBehind i e then s else s.deliverEdge k h i 6)
      else match s.edgeTry c x e with
        | .done s out =>
          let s := s.replayed k e false
          let s := if e.replay.isSome then s.trc 8 2 c [.word h, .word e.row, .word e.col, .word 0, .word 0] else s
          let e' := { e with out := some out, frozen := false, replay := none, fails := 0, walk := none, defer := none, seen := none,
                             heldFor := none, unreported := false }
          let s := s.onSec k h fun x => { x.setEdge i e' with lastEvent := Nat.max x.lastEvent s.clk }
          .next (if x.tokensBehind i e then s else s.deliverEdge k h i 6)
        | .walk => .next (s.onSec k h fun x =>
            x.setEdge i { e.present (s.edgeViewer c e) with walk := some (s.newWalk c.part (x.edgeAddr e) (e.op != 0)) })
        | .defer d => .next (s.onSec k h fun x => x.setEdge i { e.present (s.edgeViewer c e) with defer := some d })
        | .wait => .next (s.onSec k h fun x => x.setEdge i (e.present (s.edgeViewer c e)))
        | .hold set =>
          let s' := if e.heldFor.isSome then s else s.trc 6 2 c [.word k.num, .word set]
          .next (s'.onSec k h fun x => x.setEdge i { e.present (s.edgeViewer c e) with heldFor := some set })
        | .fault _ => .next s

/-- Accesses of the edge elements of a context, by handle and place. -/
def Ctx.edgePlaces (c : Ctx) : List (Nat × Nat) := c.secs.flatMap fun x => (List.range x.edges.length).map fun i => (x.handle, i)

/-- Edge access j of pre-empted context i goes on, where it writes and is not frozen: its section stands in the image, and an
ordering token may wait for the write (R323, R328). A read is presented again at the restore (R295). -/
def State.parkedEdge (s : State) (i j : Nat) : State :=
  s.withSaved i fun k s => match (s.ctx? k).bind fun c => c.edgePlaces[j]? with
    | none => s
    | some (h, n) =>
      match ((s.sec? k h).map (·.2)).bind fun x => x.edges[n]? with
      | none => s
      | some e =>
        if e.op = 0 ∨ e.frozen ∨ e.out.isSome then s
        else match execEdgeElementReply k h n s with
          | .next t => t
          | _ => s

/-- Queue the event of a frozen element, or escalate it at its third failed replay (R364, R371, R374). -/
def State.freezeEvent (s : State) (k : CtxId) (h i : Nat) (c : Ctx) (x : Section) (e : EdgeAcc) : State :=
  let ea := x.edgeAddr e
  if 3 ≤ e.fails then
    let s := s.trc 8 2 c [.word h, .word e.row, .word e.col, .word e.code, .word e.fails]
    (s.onSec k h fun x => x.setEdge i { e with unreported := false }).haltCtx k ⟨.replayx, true, ea, c.pc⟩
  else if 16 ≤ c.events.length then s.onSec k h fun x => x.setEdge i { e with unreported := true }
  else
    let cause : Cause := if e.code = codePage then .page else if e.code = codeOnce then .once else .access
    (s.onSec k h fun x => x.setEdge i { e with unreported := false }).onCtx k fun c => { c with events := c.events ++ [⟨cause, ea⟩] }

/-- An edge access that meets a fault freezes its element: the replay buffer, the fault record, the event (R371). -/
def execEdgeFaultFreeze (k : CtxId) (h i : Nat) (s : State) : Out :=
  match s.sec? k h with
  | none => .next s
  | some (c, x) =>
    match x.edges[i]? with
    | none => .next s
    | some e =>
      if x.edgeBehind i e || e.out.isSome then .next s
      else if e.frozen && e.replay.isNone then (if e.unreported then .next (s.freezeEvent k h i c x e) else .next s)
      else match s.edgeTry c x e with
        | .fault code =>
          let fails := if e.frozen then e.fails + 1 else 0
          let s := s.replayed k e true
          let e' := { e with frozen := true, code := code, fails := fails, walk := none, defer := none, seen := none,
                             heldFor := none, replay := none, unreported := true }
          let s := s.onSec k h fun x => x.setEdge i e'
          let s := s.trc 1 7 c [.word h, .word e.row, .word e.col, .word code]
          let s := s.traceOnce c 5 code (x.edgeAddr e)
          let s := s.trc 8 2 c [.word h, .word e.row, .word e.col, .word code, .word fails]
          let s := s.pushRec k x.queue
            { status := .fault, kind := 3, sid := h + 0x30,
              fault := BitVec.ofNat 32 (code + 2 ^ 8 * e.row + 2 ^ 12 * e.col + 2 ^ 16 * e.desc),
              version := BitVec.ofNat 32 x.tiles, bytes := fails } none none
          match s.sec? k h with
          | some (c, x) => .next (s.freezeEvent k h i c x e')
          | none => .next s
        | _ => .next s

end Sys2Proof.Machine
end

