-- ==== Sys2Proof/Machine/Sections.lean ====
section
/-! DEFINITION. Sections: page allocation, SCFG, SRUN, SSTOP, arming, quiescence, reconfiguration in place (R176 to R187,
R203 to R208). Systolic sections add to this in Systolic.lean. -/

namespace Sys2Proof.Machine

/-! ## Pages (R176 to R179) -/

/-- Pages of a set of a shape at an origin. -/
def pagesAt (pr pc : Nat) (org : Nat × Nat) : List Nat :=
  (List.range pr).flatMap fun i => (List.range pc).map fun j => 4 * (org.1 + i) + org.2 + j

def Section.pages (x : Section) : List Nat := match x.org with
  | some o => pagesAt x.pr x.pc o
  | none => []

/-- Pages of a set that its section holds or is about to be moved to. -/
def Section.reserved (x : Section) : List Nat := x.pages ++ (match x.moving with
  | some m => pagesAt x.pr x.pc m.org
  | none => [])

/-- Sections of the contexts of a tile, with their contexts. -/
def State.tileSecs (s : State) (tile : Nat) : List (CtxId × Section) :=
  (s.ctxs.filter fun c => c.id.tile == tile && c.live).flatMap fun c => c.secs.map fun x => (c.id, x)

def State.usedPages (s : State) (tile : Nat) : List Nat := (s.tileSecs tile).flatMap fun x => x.2.reserved

/-- Origins in the order of R177 whose pages lie in the array. -/
def originsOf (pr pc : Nat) : List (Nat × Nat) :=
  let xs := List.range (5 - pc)
  let ys := List.range (4 - pr)
  ((ys.filter (0 < ·)) ++ (ys.filter (· == 0))).flatMap fun y => xs.map fun x => (y, x)

def freeOrigin (used : List Nat) (pr pc : Nat) : Option (Nat × Nat) :=
  (originsOf pr pc).find? fun o => (pagesAt pr pc o).all fun p => !used.contains p

/-- A write that a V syllable made in row 0: of V and M registers, and of the scalar registers of VEXTR, MPOPC, MFIRST. -/
def PendW.inRow0 (w : PendW) : Bool := w.row0 || (match w.reg with
  | .v _ | .m _ => true
  | _ => false)

/-- The same of a write of a bundle whose decision is not made. -/
def BWrite.inRow0 : BWrite → Bool
  | .rowReg .. | .reg (.v _) .. | .reg (.m _) .. => true
  | _ => false

/-- Whether every V syllable has finished with page row 0 (R152). -/
def State.row0Clear (s : State) (tile : Nat) : Bool :=
  (s.ctxs.filter fun c => c.id.tile == tile && c.live).all fun c =>
    c.inflight.all (fun w => !w.inRow0) && c.undecided.all fun u => u.writes.all fun w => !w.inRow0

/-- Whether a set may take an origin now: page row 0 only when the V slot is done with it. -/
def State.mayTake (s : State) (tile : Nat) (org : Nat × Nat) : Bool := org.1 != 0 || s.row0Clear tile

/-- Page row 0 of a tile is held while a section has a page of it, and free for V syllables 2 clk after (R152). -/
def State.updateRow0 (s : State) (tile : Nat) : State :=
  let held := (s.tileSecs tile).any fun x => x.2.pages.any (· < 4)
  s.onTile tile fun t =>
    if t.row0Held && !held then { t with row0Held := false, row0From := s.clk + 2 } else { t with row0Held := held }

/-- Pages of a tile that a section does not hold. -/
def State.usedBy (s : State) (tile : Nat) (k : CtxId) (h : Nat) : List Nat :=
  ((s.tileSecs tile).filter fun x => !(x.1 == k && x.2.handle == h)).flatMap fun x => x.2.reserved

/-! ## Moves (R178 to R180) -/

/-- A section that may be moved (Table 7.1): placed, not LOADING nor ENDING, not frozen; and not being moved already. -/
def Section.movable (x : Section) : Bool :=
  x.org.isSome && x.moving.isNone && x.st != .loading && x.st != .ending && x.edges.all fun e => !e.frozen

/-- No PE of a section is occupied and no token is on a link (R179, step 2). -/
def State.atRest (s : State) (x : Section) : Bool :=
  x.pes.all (fun p => decide (p.freeAt ≤ s.clk)) && x.chans.all (fun q => q.toks.all fun t => decide (t.1 ≤ s.clk))
    && (match x.sys.bind fun y => y.smm with
      | some m => m.out.all fun r => decide (r.clk + 48 ≤ s.clk)
      | none => true)

/-- Moves of n sections of a list, in its order, after which a shape fits: each to the first origin of R177 that allows it. -/
def planMoves (pr pc : Nat) : Nat → List (CtxId × Section) → List Nat → Option (List (CtxId × Nat × (Nat × Nat)))
  | 0, _, used => (freeOrigin used pr pc).map fun _ => []
  | n + 1, xs, used => (List.range xs.length).findSome? fun i => match xs.drop i with
    | [] => none
    | (k, x) :: rest =>
      let others := used.filter fun p => !x.pages.contains p
      (originsOf x.pr x.pc).findSome? fun o =>
        let ps := pagesAt x.pr x.pc o
        if x.org = some o ∨ ps.any others.contains then none
        else (planMoves pr pc n rest (others ++ ps)).map ((k, x.handle, o) :: ·)

/-- Whether a section of a tile is being moved: sections move one at a time (R179). -/
def State.moveUnderWay (s : State) (tile : Nat) : Bool := (s.tileSecs tile).any fun x => x.2.moving.isSome

/-- Sections of a tile, newest first (R179). -/
def newestFirst (xs : List (CtxId × Section)) : List (CtxId × Section) :=
  let insert (x : CtxId × Section) (l : List (CtxId × Section)) : List (CtxId × Section) :=
    l.takeWhile (fun y => decide (x.2.age < y.2.age)) ++ x :: l.dropWhile fun y => decide (x.2.age < y.2.age)
  xs.foldr insert []

/-- The first of the fewest moves, newest section first, that make a free rectangle for a shape where its pages are free
(R178, R179). -/
def State.compaction (s : State) (tile pr pc : Nat) : Option (CtxId × Nat × (Nat × Nat)) :=
  let xs := newestFirst ((s.tileSecs tile).filter fun x => x.2.movable)
  let used := s.usedPages tile
  if s.moveUnderWay tile ∨ 12 < used.length + pr * pc then none
  else ((List.range xs.length).findSome? fun n => planMoves pr pc (n + 1) xs used).bind List.head?

/-- Whether an origin keeps R176 and R177 for a section, and the section may be moved. -/
def State.moveOk (s : State) (k : CtxId) (h : Nat) (org : Nat × Nat) : Bool :=
  match s.sec? k h with
  | none => false
  | some (_, x) => x.movable && (originsOf x.pr x.pc).contains org
      && (pagesAt x.pr x.pc org).all fun p => !(s.usedBy k.tile k h).contains p

/-- A move begins: the shutters close without switch tokens (R179, step 1). -/
def State.startMove (s : State) (k : CtxId) (h : Nat) (org : Nat × Nat) : State :=
  match s.sec? k h with
  | none => s
  | some (c, x) =>
    let s := if x.opened then s.trc 1 2 c [.word h, .word 2] else s
    s.onSec k h fun x => { x with opened := false, moving := some ⟨org, x.opened, s.clk⟩ }

/-- A page origin as one number. -/
def originCode (o : Option (Nat × Nat)) : Nat := (o.getD (0, 0)).1 * 4 + (o.getD (0, 0)).2

/-- A move ends: image positions stay, so only the pages change, and the shutters reopen (R179, steps 3 and 4). -/
def State.endMove (s : State) (k : CtxId) (h : Nat) (m : Move) : State :=
  match s.sec? k h with
  | none => s
  | some (c, x) =>
    let s := s.trc 1 3 c [.word h, .word (originCode x.org), .word (originCode (some m.org)), .word (s.clk - m.since)]
    let s := if m.was then s.trc 1 2 c [.word h, .word 2] else s
    (s.onSec k h fun x => { x with org := some m.org, opened := m.was, moving := none }).updateRow0 k.tile

/-- The allocator copies a section that it is moving to its new pages, once the section is at rest (R179, R180). -/
def execPageMove (k : CtxId) (h py px : Nat) (s : State) : Out :=
  match s.sec? k h with
  | none => .next s
  | some (_, x) => match x.moving with
    | some m => .next (if m.org = (py, px) ∧ s.atRest x ∧ s.mayTake k.tile m.org then s.endMove k h m else s)
    | none => .next s

/-! ## Pending commands of a handle (R183) -/

/-- Node of a task's graph. -/
def Ctx.node? (c : Ctx) (n : Nat) : Option GNode := c.task.nodes.find? fun x => x.num == n

/-- Handle that a command acts on. -/
def handleOf (c : Ctx) (m : Command) : Option Nat :=
  match m.op with
  | .scfg _ | .srunGo _ | .srunBack _ | .sstop _ | .swload _ | .smm _ => some (m.f.imm.toNat % 16)
  | .sarmg _ => match c.node? (m.f.imm.toNat % 2 ^ 16) with
    | some n => if n.kind = 1 ∨ n.kind = 2 then some n.handle else none
    | none => none
  | _ => none

/-- Whether an earlier section command on a handle has not taken effect yet. -/
def State.earlierOn (s : State) (c : Ctx) (h seq : Nat) : Bool :=
  let hit (m : Command) : Bool := m.ctx == c.id && decide (m.seq < seq) && handleOf c m == some h
  (s.tile c.id.tile).queue.any hit || c.hwait.any (fun r => hit r.cmd)
    || c.runs.any fun r => r.phase == .queued && r.wload && hit r.cmd

/-- Whether later commands wait for the state of a handle: LOADING, STOPPING, ENDING, or behind an SCFG that has not accepted
its image (Table 7.3, R183). -/
def Section.busyState (x : Section) : Bool :=
  x.st == .loading || x.st == .stopping || x.st == .ending || x.loading.isSome

/-! ## Ending a section (R184, R185) -/

/-- A node of the graph ends (R35, R278). -/
def State.endNode (s : State) (k : CtxId) (n : Option Nat) (poison : BitVec 32) : State :=
  match n with
  | none => s
  | some n => s.onCtx k fun c => { c with task := { c.task with nodes := c.task.nodes.map fun x =>
      if x.num = n then { x with ended := true, poison := poison } else x } }

/-- Images that no live section uses, least recently loaded first. -/
def insertCached (x : Cached) : List Cached → List Cached
  | [] => [x]
  | y :: r => if x.loaded < y.loaded then x :: y :: r else y :: insertCached x r

/-- Images stay in the cache without a section (R185). -/
def State.keepCached (s : State) (tile : Nat) (xs : List Cached) : State :=
  s.onTile tile fun t => { t with cached := xs.foldl (fun l x => insertCached x l) t.cached }

/-- The pages and the handle are released; the images stay in the cache (R184, R185). An SCFG with REPL that the end of the
section overtook acts on the free handle (Table 7.3). -/
def State.releaseSection (s : State) (k : CtxId) (h : Nat) : State :=
  match s.sec? k h with
  | none => s
  | some (c, x) =>
    let s := ((s.traceReleased c x).dropGrant k h).keepCached k.tile (x.cached.toList ++ x.oldCached.toList)
    let next : List Section := match x.st, x.loading with
      | .ending, some r => [{ handle := h, st := .loading, queue := r.f.q.toNat, loading := some r, incoming := x.incoming, room := x.room }]
      | _, _ => []
    (s.onCtx k fun c => { c with secs := c.secs.filter (fun x => x.handle != h) ++ next }).updateRow0 k.tile

/-- The record of an SRUN that its handle refuses, to a queue; the command keeps its entry until it is written (R250). -/
def State.secRec (s : State) (k : CtxId) (q h : Nat) (st : Status) : State :=
  s.pushRec k q { status := st, kind := 3, sid := h } none none (some .config)

/-! ## SCFG (R205) -/

/-- Address of the image. -/
def Run.imageAddr (r : Run) : Option Word :=
  if r.f.space = 1 ∨ r.f.space = 2 then formAddr r.f.space.toNat r.cmd.base else none

/-- Images of a section in the cache, or on their way into it. -/
def Section.images (x : Section) : List Cached :=
  x.cached.toList ++ x.oldCached.toList ++ (x.incoming.bind (·.cached)).toList ++ x.room.toList

/-- Images of a tile that live sections use or are about to (R185). -/
def State.liveImages (s : State) (tile : Nat) : List Cached :=
  (s.tileSecs tile).flatMap fun x => x.2.images

/-- Evict images that no section uses, least recently loaded first, until an image fits with a free tag; none where it
cannot (R185). -/
def fitCache (live : List Cached) (size : Nat) (cached : List Cached) : Option (Nat × List Cached) :=
  let all := live ++ cached
  let tag := (List.range 16).find? fun t => !all.any fun x => x.tag == t
  if (all.map (·.size)).foldl (· + ·) 0 + size ≤ 262144 ∧ tag.isSome then tag.map fun t => (t, cached)
  else match cached with
    | [] => none
    | _ :: rest => fitCache live size rest

/-- PEs of an image at the initial values of R187. -/
def imagePes (g : Image) (tag : Nat) : List Pe :=
  g.recs.zipIdx.flatMap fun (r, i) => (r.places (4 * g.pc)).zipIdx.map fun (p, j) =>
    { row := p / (4 * g.pc), col := p % (4 * g.pc), recNo := i, copy := j, tag := tag }

/-- SIZE of the image that an SCFG names, as it stands (Table 2.13); 0 where it cannot be read. -/
def State.imageSizeNow (s : State) (c : Ctx) (r : Run) : Nat :=
  match r.imageAddr with
  | none => 0
  | some a =>
    if a.toNat % 64 ≠ 0 then 0
    else match s.ctlRead c (r.cmd.viewer c) [] 5 a 64 with
      | .value v _ => imgField (toBytes 64 v) 24 4
      | _ => 0

/-- SCFG ends with a status: its event, its record with the image's SIZE as read, or as it stands where nothing was read
(Table 7.7, log 28). -/
def State.scfgOver (s : State) (r : Run) (h : Nat) (st : Status) (fault : Nat) : State :=
  let k := r.cmd.ctx
  let x : Option Section := (s.sec? k h).map (·.2)
  let n := match s.ctx? k with
    | some c => if r.word = [] then s.imageSizeNow c r else imgField r.word 24 4
    | none => 0
  let s := match s.ctx? k with
    | some c => s.trc 1 0 c [.word h, .word ((x.map Section.tag).getD 0), .word st.code, .word (originCode (x.bind Section.org))]
    | none => s
  s.finishCmd r { status := st, kind := 3, sid := h, fault := BitVec.ofNat 32 fault, bytes := n }

/-- The destinations that a PE's record gives switch tokens to: with all, every one (R204, rule 4); else those that only SRC
and self-timed entries write, after their last data token (R203). -/
def PeRecord.outs (r : PeRecord) (all : Bool) : List Nat :=
  let ops := r.entries.filterMap entryOps
  let shuttered (e : List Instr) : Bool := ((e.flatMap sourcesOf).filter isChan).isEmpty || e.any isSrc
  let of (es : List (List Instr)) : List Nat := (es.flatten.flatMap targetsOf).filter isChan
  let rest := of (ops.filter fun e => !shuttered e)
  if all then (of ops).eraseDups else ((of (ops.filter shuttered)).filter fun d => !rest.contains d).eraseDups

/-- Reconfiguration in place begins (R204, step 1): the shutters close, and the PEs of the old tag begin to switch. -/
def State.beginSwitch (s : State) (k : CtxId) (h : Nat) (g : Image) (e : Cached) : State :=
  match s.sec? k h with
  | none => s
  | some (c, x) =>
    let s := if x.opened then s.trc 1 2 c [.word h, .word 3] else s
    let here (p : Pe) := x.pes.any fun q => q.row == p.row && q.col == p.col
    s.onSec k h fun x =>
      { x.shut with old := x.image.map fun o => (o, x.tag), oldCached := x.cached, image := some g, tag := e.tag, cached := some e,
                    loading := none, incoming := none,
                    -- the records of the new image are dealt from copy 0 (R196)
                    dealt := x.dealt.filter fun d => d.1 / 256 != e.tag,
                    pes := x.pes ++ (imagePes g e.tag).filter fun p => !here p }

/-- Whether an application core chooses the pages of a section (R180, R429). -/
def State.hostPages (s : State) (c : Ctx) (x : Section) : Bool := s.splitBit c.part 5 || x.pageReq.isSome || x.hostOrg.isSome

/-- The PAGEALLOC request of a section that waits for pages is posted once (R180). -/
def State.askPages (s : State) (c : Ctx) (x : Section) (pr pc : Nat) : State :=
  if x.pageReq.isSome then s
  else
    let (n, s) := s.hubRequest 6 c.part c.id.tile c.id.num
      [BitVec.ofNat 64 c.id.num, BitVec.ofNat 64 (pr * 16 + pc), BitVec.ofNat 64 x.handle]
    s.onSec c.id x.handle fun x => { x with pageReq := some n, hostOrg := none, hostMoves := [] }

/-- Whether an origin for a shape lies in the array and its pages are free of those used. -/
def fitsAt (used : List Nat) (pr pc : Nat) (o : Nat × Nat) : Bool :=
  (originsOf pr pc).contains o && (pagesAt pr pc o).all fun p => !used.contains p

/-- The origin for a shape: the host's, once its moves are done, or the first of R177. -/
def State.originFor (s : State) (c : Ctx) (x : Section) (used : List Nat) (pr pc : Nat) : Option (Nat × Nat) :=
  if s.hostPages c x then (if x.hostMoves = [] then x.hostOrg.filter (fitsAt used pr pc) else none) else freeOrigin used pr pc

/-- No origin is at hand: a section is moved, as the host has chosen or as R179 lays down, or the host is asked (R180). -/
def State.findPages (s : State) (c : Ctx) (x : Section) (pr pc : Nat) : State :=
  let tile := c.id.tile
  if s.hostPages c x then
    if s.moveUnderWay tile = true then s
    else match x.hostMoves with
      | (n, h, o) :: rest =>
        if s.moveOk ⟨tile, n⟩ h o then
          (s.startMove ⟨tile, n⟩ h o).onSec c.id x.handle fun x => { x with hostMoves := rest }
        else s.askPages c x pr pc
      | [] => s.askPages c x pr pc
  else match s.compaction tile pr pc with
    | some (k', h', o) => s.startMove k' h' o
    | none => s

/-- An SCFG ends without effect: a handle that was FREE is FREE, a section that was there stays as it was (R205). -/
def State.scfgReject (s : State) (r : Run) (h : Nat) (st : Status) (fault : Nat) : State :=
  let left (y : Section) : Option Section :=
    if y.handle ≠ h then some y
    else if y.image.isNone && y.sys.isNone then none
    else some { y with st := if y.st = .loading then .ready else y.st, loading := none, room := none }
  (s.scfgOver r h st fault).onCtx r.cmd.ctx fun c => { c with secs := c.secs.filterMap left }

/-- Lines of storage that an image of n bytes is read from. -/
def State.imageLines (s : State) (c : Ctx) (r : Run) (n : Nat) : List Nat :=
  (List.range ((n + 63) / 64)).filterMap fun i =>
    match s.engPlace c (r.cmd.viewer c) [] false (r.imageAddr.getD 0 + BitVec.ofNat 64 (64 * i)) with
    | .stored key _ => some (key / 64)
    | _ => none

/-- The image has passed: the pages and images of a READY section that it replaces are released (Table 7.3). -/
def State.scfgAccept (s : State) (c : Ctx) (x : Section) (r : Run) (g : Image) (e : Cached) : State :=
  let h := x.handle
  let lines := s.imageLines c r g.size
  let i : Incoming := { image := g, lines := lines, cached := some { e with lines := lines } }
  if x.st = .loading then
    let s := s.releaseSection c.id h
    s.onCtx c.id fun c => { c with secs := c.secs ++ [{ handle := h, st := .loading, queue := r.f.q.toNat, loading := some r, incoming := some i }] }
  else s.onSec c.id h fun y => { y with loading := some r, incoming := some i, room := none }

/-- SIZE in the bytes of the image read so far. -/
def Run.imageSize (r : Run) : Nat := imgField r.word 24 4

/-- The next line of its image is read, once, one in a clk (R205, step 4). A SIZE out of range shows in the first one. -/
def State.scfgLine (s : State) (c : Ctx) (x : Section) (r : Run) : State :=
  let h := x.handle
  let a := r.imageAddr.getD 0 + BitVec.ofNat 64 r.word.length
  if !c.laneClear 0 r.cmd.seq then s
  else match s.runRead c r (space a) a 64 with
    | .wait q => s.onSec c.id h fun y => { y with loading := some q }
    | .fault code r => s.scfgReject r h .fault code
    | .got (v, o) r =>
      let r := { r.fresh with word := r.word ++ toBytes 64 v }
      if o ≠ 0 ∨ r.imageSize < 64 ∨ 262144 < r.imageSize then s.scfgReject r h .badcfg 0
      else s.onSec c.id h fun y => { y with loading := some r }

/-- The image finds a tag and space in the cache, which it is read into; until then it waits (R185). What a READY section
gives up to the image that replaces it counts as space (log 28). -/
def State.scfgRoom (s : State) (c : Ctx) (x : Section) (r : Run) : State :=
  let own := if x.st = .loading then x.cached.toList else []
  let live := (s.liveImages c.id.tile).map fun e => if own.contains e then { e with size := 0 } else e
  match fitCache live r.imageSize (s.tile c.id.tile).cached with
  | none => s
  | some (tag, cached) =>
    let e : Cached := { tag := tag, size := r.imageSize, owner := c.id, lines := [], loaded := s.stamp }
    let s := { s with stamp := s.stamp + 1 }.onTile c.id.tile fun t => { t with cached := cached }
    s.onSec c.id x.handle fun y => { y with room := some e }

/-- The image read whole is checked (R60, R62). DESIGN CHOICE (log 28): an image of another SHAPE than that of the section
which it would reconfigure is rejected. -/
def State.scfgCheck (s : State) (c : Ctx) (x : Section) (r : Run) (e : Cached) : State :=
  let same (g : Image) : Bool := x.st == .loading || (g.pr == x.pr && g.pc == x.pc)
  match (readImage (r.word.take r.imageSize) r.cmd.rm).filter same with
  | none => s.scfgReject r x.handle .badcfg 0
  | some g => s.scfgAccept c x r g e

/-- The image is read under a new tag, and then checked (R205, step 4). -/
def State.scfgRead (s : State) (c : Ctx) (x : Section) (r : Run) : State :=
  if r.word = [] then s.scfgLine c x r
  else match x.room with
    | none => s.scfgRoom c x r
    | some e => if r.word.length < r.imageSize then s.scfgLine c x r else s.scfgCheck c x r e

/-- The set of an accepted image is placed, or the SCFG ends with NOPAGE (R177 to R179, R205, steps 5 and 6). -/
def State.scfgPlace (s : State) (c : Ctx) (x : Section) (r : Run) (g : Image) (e : Cached) : State :=
  let k := c.id
  let h := x.handle
  let mine := ((s.tileSecs k.tile).filter fun y => y.1 == k && y.2.handle != h).flatMap fun y => y.2.pages
  if c.quota < g.pr * g.pc then (s.keepCached k.tile [e]).scfgReject r h .nopage 0
  else if c.quota < mine.length + g.pr * g.pc then s
  else match s.originFor c x (s.usedBy k.tile k h) g.pr g.pc with
    | none => s.findPages c x g.pr g.pc
    | some o =>
      if !s.mayTake k.tile o then s
      else
        let new : Section :=
          { handle := h, st := .ready, queue := r.f.q.toNat, pr := g.pr, pc := g.pc, org := some o, age := s.stamp,
            tag := e.tag, image := some g, cached := some e, pes := imagePes g e.tag }
        let s := ({ s with stamp := s.stamp + 1 } : State).onCtx k fun c => { c with secs := c.secs.filter (fun y => y.handle != h) ++ [new] }
        (s.updateRow0 k.tile).scfgOver r h .ok 0

/-- SCFG of handle h goes on (R205, steps 4 to 6): its image is read into the cache and accepted, and its section is READY or
begins to switch. While something is awaited, nothing happens; a section that is ENDING ends first. -/
def State.scfgStep (s : State) (c : Ctx) (x : Section) (r : Run) : State :=
  match x.incoming, x.incoming.bind (·.cached) with
  | some i, some e =>
    if x.st = .loading then s.scfgPlace c x r i.image e
    else if x.st = .ending then s
    else (s.beginSwitch c.id x.handle i.image e).scfgOver r x.handle .ok 0
  | _, _ => s.scfgRead c x r

/-- SCFG takes effect on its handle (Table 7.3); none where it waits. DESIGN CHOICE (log 28): a reconfiguration in place
waits for the end of an earlier one. -/
def State.actScfg (s : State) (c : Ctx) (r : Run) (h : Nat) : Option State :=
  let begin_ (s : State) (f : Ctx → Ctx) : Option State :=
    some (s.onCtx c.id fun c => f { c with hwait := c.hwait.filter fun q => q.cmd.seq != r.cmd.seq })
  match c.sec? h with
  | none => begin_ s fun c => { c with secs := c.secs ++ [{ handle := h, st := .loading, queue := r.f.q.toNat, loading := some r }] }
  | some x =>
    if x.busyState then none
    else if x.st = .ready then begin_ s fun c => c.onSec h fun x => { x with st := .loading, loading := some r }
    else if r.f.flags.getLsbD 0 ∧ x.sys.isNone then
      (if x.old.isSome then none else begin_ s fun c => c.onSec h fun x => { x with loading := some r })
    else some (s.scfgOver r h .busy 0)

/-! ## Arming, SSTOP (R182, R207) -/

/-- A section asks for g grants of current (R273, R282, R435). -/
def State.askGrant (s : State) (k : CtxId) (h g : Nat) : State :=
  let s := match s.sec? k h with
    | some (c, x) => if x.sys.isSome then s.trc 3 2 c [.word h, .word g, .word 0] else s
    | none => s
  let s := s.onSec k h fun x => { x with wants := g, credit := 0, powered := false }
  { s with hub := { s.hub with grantReqs := s.hub.grantReqs ++ [⟨k, h, g⟩] } }

/-- A section is RUNNING with its shutters open (R182). -/
def Section.run (x : Section) (now : Nat) : Section := { x.unshut with st := .running, shutClk := none, lastEvent := now }

/-- A dataflow section is armed, with a request for current. -/
def State.armSection (s : State) (k : CtxId) (h : Nat) (count : Option Nat) (node : Option Nat) : State :=
  match s.sec? k h with
  | none => s
  | some (c, x) =>
    let s := s.trc 1 1 c [.word h, .word (count.getD 0)]
    (s.onSec k h fun x => { x.run s.clk with count := count, node := node }).askGrant k h (16 * x.pr * x.pc)

/-- The record of an SSTOP. -/
def State.sstopOver (s : State) (r : Run) (h : Nat) (st : Status) : State := s.finishCmd r { status := st, kind := 4, sid := h }

def State.actSstop (s : State) (c : Ctx) (r : Run) (h : Nat) : Option State :=
  let k := c.id
  match c.sec? h with
  | none => some (s.sstopOver r h .state)
  | some x =>
    if x.busyState then none
    else if x.st = .running then
      let s := s.trc 1 2 c [.word h, .word 0]
      let s := (s.onSec k h fun x => { x.shut with st := .stopping, lastEvent := Nat.max x.lastEvent s.clk }).dropGrant k h
      some (s.onCtx k fun c => { c with hwait := c.hwait.filter (fun q => q.cmd.seq != r.cmd.seq), waits := c.waits ++ [r] })
    else some (s.sstopOver r h .stopped)

/-! ## Quiescence (R184) -/

/-- Whether a PE could fire now or meet a mismatch, after the entries that it passes over. -/
def State.peActive (s : State) (k : CtxId) (x : Section) (p : Pe) : Nat → Bool
  | 0 => false
  | fuel + 1 =>
    match execPeFiring k x.handle p.row p.col s with
    | .next t => match t.sec? k x.handle with
      | some (_, y) => y != x && (match y.pe? p.row p.col with
        | some q => if x.setPe q = y then t.peActive k y q fuel else true
        | none => true)
      | none => false
    | _ => false

/-- Whether a dataflow section is quiescent but for frozen elements and what waits behind them; with strict, none is
frozen (R184, R207). -/
def State.quiet (s : State) (k : CtxId) (x : Section) (strict : Bool) : Bool :=
  decide (x.lastEvent + 16 ≤ s.clk) && x.edges.zipIdx.all (fun e => x.edgeSettled strict e.2 e.1)
    && x.chans.all (fun q => q.toks.all fun t => decide (t.1 ≤ s.clk)) && x.pes.all (fun p => decide (p.freeAt ≤ s.clk) && !s.peActive k x p 64)

/-- Tokens left in channels, queues and local state, and those of answered edge accesses (R184). -/
def Section.left (x : Section) : Nat :=
  (x.chans.map fun q => q.toks.length).foldl (· + ·) 0
    + (x.pes.map fun p => (p.lines.map fun l => l.2.length).foldl (· + ·) 0 + (p.turns.map fun t =>
        (t.2.1.elems.length - t.2.1.emitted) + (t.2.2.elems.length - t.2.2.emitted)).foldl (· + ·) 0).foldl (· + ·) 0
    + (x.edges.map fun e => (e.out.getD []).length).foldl (· + ·) 0

/-- Partly filled entries of output-door slots of a section: record, slot code, door, tokens. -/
def Section.partials (x : Section) : List (Chan × Nat × List Token) :=
  x.chans.filterMap fun q =>
    if q.dir < 4 ∨ q.toks = [] then none
    else match (x.pe? q.row q.col).bind x.recordOf with
      | some (g, r) => match deskOf g r (q.dir + 16) with
        | some e => if e.kind = 1 then some (q, e.door, q.toks.map (·.2)) else none
        | none => none
      | none => none

/-- Every output-door slot completes its entry, if its door has room (R189). -/
def Ctx.flushSlots (c : Ctx) (x : Section) (now : Nat) : Option Ctx :=
  x.partials.foldl (fun c p => c.bind fun c =>
    if c.doorRoom p.2.1 then
      some ((c.onSec x.handle fun x => x.setChan { p.1 with toks := [] }).pushDoor p.2.1 (entryFrom p.2.2) now)
    else none) (some c)

/-- The section of a handle has ended: its record, its flags, its pages (R184, R208). -/
def State.endSection (s : State) (k : CtxId) (h : Nat) : State :=
  match s.sec? k h with
  | none => s
  | some (c, x) =>
    let st : Status := if x.taken then .taken else if x.poisons ≠ 0 then .poison else .ok
    let s := s.trc 1 8 c [.word h, .word st.code, .word x.tiles, .word x.left]
    let s := s.onCtx k fun c => { c with sys := { c.sys with flags := flagsRaise c.sys.flags x.flags } }
    let s := s.pushRec k x.queue
      { status := st, kind := 3, sid := h + 16, fault := x.poison,
        version := BitVec.ofNat 32 (x.flags.toNat + 2 ^ 8 * (x.left % 2 ^ 24)), bytes := x.tiles } none none
    (s.endNode k x.node x.poison).releaseSection k h

/-- Every PE has switched: the old image is over, and the shutters reopen if the section is RUNNING (R204, rule 5). -/
def State.endSwitch (s : State) (k : CtxId) (h : Nat) : State :=
  match s.sec? k h with
  | none => s
  | some (c, x) =>
    if x.pes.any fun q => q.tag != x.tag then s
    else
      let back := x.st == .running && c.task.draining.isNone
      let s := if back then s.trc 1 2 c [.word h, .word 3] else s
      (s.keepCached k.tile x.oldCached.toList).onSec k h fun x =>
        let x := { x with old := none, oldCached := none,
                          pes := x.pes.map fun p => { p with loaded := p.loaded.filter fun l => l.1 == x.tag } }
        if back then x.unshut else x

/-- A PE, with the copies of its record, switches (R204, rule 4): its switch tokens are consumed, and it runs the new tag
from entry 0; what the loop buffer holds stays (R186). DESIGN CHOICE (log 27): tokens left of the entry that an input-door
slot was issuing are read by the new record's slot. -/
def State.switchPe (s : State) (k : CtxId) (h : Nat) (p : Pe) (g : Image) (r : PeRecord) : State :=
  match s.sec? k h with
  | none => s
  | some (c, x) =>
    let places := (r.places (4 * g.pc)).map fun i => (i / (4 * g.pc), i % (4 * g.pc))
    let s := places.foldl (fun s q =>
      let s := s.trc 1 4 c [.word h, .word q.1, .word q.2, .word p.tag, .word x.tag]
      -- the new record is still on its way: a configuration miss from here on (R186)
      match (x.pe? q.1 q.2).bind (·.fetching) with
      | some (t, at_) => if t = x.tag then s.trc 1 5 c [.word q.1, .word q.2, .word t, .word (at_ - s.clk)] else s
      | none => s) s
    let srcs := ((r.entries.flatMap fun e => ((entryOps e).getD []).flatMap sourcesOf).filter fun a => isChan a && decide (a < 20)).eraseDups
    let s := s.onSec k h fun x => srcs.foldl (fun x a =>
      let q := x.chan r.row r.col (a - 16)
      if q.closed then x.setChan { q with closed := false } else x.setChan { q with toks := q.toks.drop 1 }) x
    let s := s.onSec k h fun x =>
      let new := ((x.image.map fun g => imagePes g x.tag).getD []).filter fun q => places.contains (q.row, q.col)
      let keep (q : Pe) : Pe := match x.pe? q.row q.col with
        | some o => { q with loaded := o.loaded, fetching := o.fetching }
        | none => q
      { x with pes := x.pes.filter (fun q => !places.contains (q.row, q.col)) ++ new.map keep }
    s.endSwitch k h

/-- A switch token goes to a destination of a PE that has room for it and gets no more data tokens (R203, R204). -/
def State.sendSwitch (s : State) (k : CtxId) (h row col d : Nat) : State :=
  match s.sec? k h with
  | none => s
  | some (c, x) =>
    match (x.pe? row col).bind fun p => (x.recordOf p).map fun q => (p, q.1, q.2) with
    | none => s
    | some (p, g, r) =>
      if p.marked.contains d ∨ x.owed r.row r.col d ≠ 0 ∨ s.roomOf c x g r d = 0 then s
      else
        let s := s.onSec k h fun x => x.setPe { p with marked := p.marked ++ [d] }
        s.onCtx k fun c => c.sendTok h g r d (Nat.max s.clk p.freeAt + 1) { kind := .switch, tag := p.tag }

end Sys2Proof.Machine
end

