-- ==== Sys2Proof/Machine/Systolic.lean ====
section
/-! DEFINITION. Systolic sections: weight loads and SMM (R255 to R282). -/

namespace Sys2Proof.Machine

/-! ## Geometry (R255) -/

/-- Grants that a systolic section requests (R273). -/
def Section.sysGrant (x : Section) : Nat := (208 * x.pr * x.pc + 11) / 12

/-- A mode byte of a block (Tables 9.2, 9.4), DYN resolved. -/
def blockMode (m : Command) (code : Nat) : RMode := if code % 8 = 6 then m.rm else rmOfCode (code % 8) 0

/-- A bank of +0 elements with scales of 1.0 (R257). -/
def freshBank (k n : Nat) (scaled : Bool) : Bank :=
  { elems := List.replicate (k * n) 0, scales := if scaled then List.replicate (k / 16 * n) 0x1FC else [],
    flags := List.replicate (k / 16 * n) false }

/-! ## SWLOAD: acceptance (R260, R261) -/

/-- Step 2 of R222 for the weight block. -/
def Run.lRsvd (r : Run) : Bool := !blkZero r.blk 6 2 || !blkZero r.blk 12 4 || !blkZero r.blk 32 32

/-- Step 3: fields outside their values. -/
def Run.lBadpb (r : Run) : Bool :=
  let sh := blkField r.blk 4 1
  let md := blkField r.blk 5 1
  blkField r.blk 0 4 % 16 != 0
    || (r.lNew && (sh / 16 == 0 || decide (3 < sh / 16) || sh % 16 == 0 || decide (4 < sh % 16) || md % 8 == 7 || decide (16 ≤ md)))
    || (ElemType.scaled r.ty && (r.lAux.toNat % 2 == 1 || !(space r.lAux == 0 || space r.lAux == 1 || space r.lAux == 2 || space r.lAux == 4)))
    || (r.lMc && (r.lNew || r.lRoute == 0 || blkField r.blk 26 6 != 0))

/-! ## SWLOAD: its place on the handle (R262, R263, R264) -/

/-- Loads in progress into a bank of a section of a context; only tasks of one launch load into each other. -/
def State.loadsInto (s : State) (d : Ctx) (h bank : Nat) : List Run :=
  (s.everyCtx.filter fun c => c.task.launch == d.task.launch).flatMap fun c => c.runs.filter fun r =>
    r.wload && r.phase == .active && r.lHandle == h && r.lBank == bank && (s.loadDests c r).contains d.id

/-- SMMs on a handle of a context that wait to start and no earlier command on the handle holds back, with the bank that
each reads. -/
def State.waitingSmms (s : State) (d : Ctx) (h : Nat) : List (Nat × Nat) :=
  (d.hwait.filter fun q => (match q.cmd.op with
    | .smm _ => q.lHandle == h && !s.earlierOn d h q.cmd.seq
    | _ => false)).map fun q => (q.cmd.seq, blkField q.blk 4 1 % 2)

/-- Whether a load of a context may begin in a bank of a section (R263): no other load is in progress there, and no SMM that
reads the bank is under way or waits to start; an SMM of its own context that was issued later waits for the load. -/
def State.bankFree (s : State) (c d : Ctx) (x : Section) (r : Run) : Bool :=
  (s.loadsInto d x.handle r.lBank).isEmpty
    && (s.waitingSmms d x.handle).all (fun q => q.2 != r.lBank || (c.id == d.id && decide (r.cmd.seq < q.1)))
    && (match x.sys with
      | some y => y.smm.all fun m => blkField m.blk 4 1 % 2 != r.lBank
      | none => true)

/-- Whether a load that an engine accepted earlier waits for the same handle of a context (R264). -/
def State.loadFirst (s : State) (d : Ctx) (r : Run) : Bool :=
  (s.ctxs.filter fun c => c.task.launch == d.task.launch).any fun c => c.runs.any fun q =>
    q.wload && q.phase == .queued && q.lHandle == r.lHandle && decide (q.stamp < r.stamp) && (s.loadDests c q).contains d.id

/-- The trace shows that a weight load ends, with the flags that it set (R282). -/
def State.traceLoad (s : State) (c : Ctx) (r : Run) (st : Status) (set : Nat) : State :=
  s.trc 3 0 c [.word r.lHandle, .word r.lBank, .word (r.cmd.slot.getD 0), .word st.code, .word set]

/-- A weight load ends with a status and touches nothing: by its handle, or at its acceptance. -/
def State.loadRefused (s : State) (c : Ctx) (r : Run) (st : Status) : State :=
  (s.traceLoad c r st 0).finishCmd r { status := st, kind := 7, sid := r.cmd.slot.getD 0 }
def State.failLoad (s : State) (c : Ctx) (r : Run) (st : Status) (fault : Nat) : State := (s.traceLoad c r st 0).failCmd r st fault

/-- What a handle says to a load (Table 9.3). -/
inductive LoadStart where
  | ok | wait | status (st : Status)
  deriving DecidableEq, Repr

/-- What the handle of one destination says to a load of an existing section. -/
def State.loadAt (s : State) (c : Ctx) (r : Run) (k : CtxId) : LoadStart :=
  match s.destCtx c k with
  | none => .wait
  | some d => match d.sec? r.lHandle with
    | none => .status .state
    | some x => match x.sys with
      | none => .status .state
      | some y =>
        if x.busyState then .wait
        else if y.wtype != r.ty || (x.sysK, x.sysN) != s.loadShape c r then .status .badpb
        else if !s.bankFree c d x r || s.loadFirst d r then .wait else .ok

/-- What the handles of its destinations say to a load (Table 9.3, R264). -/
def State.loadStart (s : State) (c : Ctx) (r : Run) : LoadStart :=
  if r.lNew then
    match c.sec? r.lHandle with
    | some x => if x.sys.isSome && x.busyState then .wait else .status .busy
    | none => if c.quota < blkField r.blk 4 1 / 16 * (blkField r.blk 4 1 % 16) then .status .nopage else .ok
  else
    let starts := (s.loadDests c r).map (s.loadAt c r)
    match starts.find? fun a => a != .ok && a != .wait with
    | some a => a
    | none => if starts.contains .wait then .wait else .ok

/-- The section that a NEW load makes (R257, R262). -/
def State.newSystolic (s : State) (c : Ctx) (r : Run) : Section :=
  let (kk, n) := s.loadShape c r
  let md := blkField r.blk 5 1
  let y : Systolic :=
    { wtype := r.ty, rm := blockMode r.cmd md, sat := md.testBit 3, seed := BitVec.ofNat 32 (blkField r.blk 8 4),
      banks := List.replicate 2 (freshBank kk n (ElemType.scaled r.ty)) }
  { handle := r.lHandle, st := .loading, queue := r.f.q.toNat, pr := blkField r.blk 4 1 / 16, pc := blkField r.blk 4 1 % 16,
    sys := some y }

/-- The load takes effect on its handle; none where it waits. -/
def State.actSwload (s : State) (c : Ctx) (r : Run) : Option State :=
  match s.loadStart c r with
  | .wait => none
  | .status st => some (s.loadRefused c r st)
  | .ok =>
    let s := if r.lNew then s.onCtx c.id fun c => { c with secs := c.secs ++ [s.newSystolic c r] } else s
    some ((s.trc 3 0 c [.word r.lHandle, .word r.lBank, .word (r.cmd.slot.getD 0), .word 0, .word 0]).putRun { r with phase := .active })

/-- The stream engine accepts SWLOAD (R222, R260, R264); a load that its handle refuses at once has its time now (R244). -/
def State.acceptSwload (s : State) (c : Ctx) (m : Command) : State :=
  let r : Run := { cmd := m, wload := true }
  match s.readBlock c m with
  | .bad st f => s.failLoad c r st f
  | .wait => s
  | .ok b =>
    let r := { r with blk := b }
    if r.lRsvd then s.failLoad c r .rsvd 0
    else if r.lBadpb then s.failLoad c r .badpb 0
    else if r.lMc && (r.mcTiles r.lRoute).any (fun t => (s.taskIn c.task.launch t).isNone) then s.failLoad c r .notask 0
    else
      let (k, n) := s.loadShape c r
      let (a, b) := r.loadBytes k n
      let now := !s.earlierOn c r.lHandle m.seq && (match s.loadStart c r with
        | .status _ => true
        | _ => false)
      let time := if now then BitVec.ofNat 64 s.gtime else promiseTime s.gtime 256 (a + b)
      let r := { r with promised := if m.prom.isSome then time else 0 }
      let r := match formAddr m.f.space.toNat m.base with
        | none => r.stopAt codeAccess 0
        | some a => if a.toNat % 16 ≠ 0 then r.stopAt codeAlign 0 else r
      (s.promise m r.promised).addRun r

/-! ## SWLOAD: reading (R258) -/

/-- Address of byte p of the weight tile, of the scales behind it. -/
def Run.weightAddr (r : Run) (n p : Nat) : Word :=
  let row := n * ElemType.bits r.ty / 8
  r.cmd.base + BitVec.ofInt 64 ((p / row : Nat) * blkSigned r.blk 0 4) + BitVec.ofNat 64 (p % row)

/-- Elements of n bytes, low element first. -/
def splitElems (w v : Nat) : Nat → List Nat
  | 0 => []
  | n + 1 => v % 2 ^ w :: splitElems w (v / 2 ^ w) n

/-- The element that a piece at a place of the load holds first (R225). -/
def Run.pieceElem (r : Run) (k n p : Nat) : Nat :=
  let wb := (r.loadBytes k n).1
  if wb ≤ p then (p - wb) / 2 / n * 16 * n + (p - wb) / 2 % n else p * 8 / ElemType.bits r.ty

/-- Read chunks of 16 bytes of weights, then scales one by one, within one line. fuel bounds the chunks of a turn. -/
def State.readWeights (s : State) (c : Ctx) (r : Run) (k n : Nat) (line : Option Word) : Nat → State × Run
  | 0 => (s, r)
  | fuel + 1 =>
    let w := ElemType.bits r.ty
    let (wb, sb) := r.loadBytes k n
    let scale := decide (wb ≤ r.pos)
    let size := if scale then 2 else 16
    let raw := if scale then r.lAux + BitVec.ofNat 64 (r.pos - wb) else r.weightAddr n r.pos
    if r.fault.isSome || decide (wb + sb ≤ r.pos) then (s, r)
    else if line.any (fun l => l != raw >>> 6) then (s, r)
    else
      let sp := if scale then space raw else r.f.space.toNat
      let put (r : Run) (v : Nat) : Run :=
        let r := { r.fresh with pos := r.pos + size, bytes := r.bytes + size }
        if scale then { r with scales := r.scales ++ [v % 1024] }
        else { r with weights := r.weights ++ splitElems w v (128 / w) }
      match s.runRead c r sp raw size with
      | .wait q => (s, q)
      | .fault code q =>
        if code = codePage then
          if s.spillRoom c.id.tile then
            let d : Diverted := { n := r.pos, addr := q.walkVa, va := q.walkVa, write := false, data := 0, size := size, since := s.clk }
            (s.beginDiversion c q false, { put q 0 with diverted := r.diverted ++ [d] })
          else (s, q)
        else (s, q.stopAt code (r.pieceElem k n r.pos))
      | .got (v, o) q =>
        let s := s.useTlb c r ((formAddr sp raw).getD 0)
        let r := put q (if o = 0 then v else 0)
        s.readWeights c (if o = 0 then r else r.poisonBy o) k n (some (raw >>> 6)) fuel

/-- A diverted chunk of a load has been read: its elements take their places. -/
def Run.patchLoad (r : Run) (d : Diverted) (k n v : Nat) : Run :=
  let w := ElemType.bits r.ty
  let wb := (r.loadBytes k n).1
  if wb ≤ d.n then { r with scales := r.scales.set ((d.n - wb) / 2) (v % 1024) }
  else
    let i := d.n * 8 / w
    { r with weights := r.weights.take i ++ splitElems w v (128 / w) ++ r.weights.drop (i + 128 / w) }

/-- The set of a NEW load finds its pages (R177 to R179, R262). -/
def State.placeLoad (s : State) (c : Ctx) (x : Section) : State :=
  let k := c.id
  let mine := ((s.tileSecs k.tile).filter fun y => y.1 == k && y.2.handle != x.handle).flatMap fun y => y.2.pages
  if c.quota < mine.length + x.pr * x.pc then s
  else match s.originFor c x (s.usedPages k.tile) x.pr x.pc with
    | none => s.findPages c x x.pr x.pc
    | some o =>
      if !s.mayTake k.tile o then s
      else ({ s with stamp := s.stamp + 1 }.onSec k x.handle fun x => { x with org := some o, age := s.stamp, pageReq := none, hostOrg := none, hostMoves := [] }).updateRow0 k.tile

/-- Whether every destination of a load is resident: a multicast stalls while one is not (R264). -/
def State.destsHere (s : State) (c : Ctx) (r : Run) : Bool := (s.loadDests c r).all fun k => (s.destCtx c k).isSome

/-- One service turn of a weight load: the set of a NEW load is placed first. -/
def State.loadTurn (s : State) (c : Ctx) (r : Run) : State :=
  let (k, n) := s.loadShape c r
  match (if r.lNew then (c.sec? r.lHandle).filter fun x => x.org.isNone else none) with
  | some x => s.placeLoad c x
  | none =>
    if !c.laneClear r.f.lane r.cmd.seq || !s.destsHere c r then s
    else
      let (s, r) := s.readWeights c r k n none 64
      s.putRun r

/-- Whether the values of all that a load reads are fixed, or it has stopped. -/
def State.loadFixed (s : State) (c : Ctx) (r : Run) : Bool :=
  let (k, n) := s.loadShape c r
  let (a, b) := r.loadBytes k n
  r.wload && r.phase == .active && r.diverted.isEmpty && (r.fault.isSome || decide (a + b ≤ r.pos))

/-- Whether a load has read all there is, or stopped, and its destinations can take it. -/
def State.loadDone (s : State) (c : Ctx) (r : Run) : Bool :=
  let placed := !r.lNew || (match c.sec? r.lHandle with
    | some x => x.org.isSome
    | none => false)
  s.loadFixed c r && placed && s.destsHere c r

/-- The non-finite flags of a filled bank (R259), by block and column. -/
def Run.nonFinite (r : Run) (k n : Nat) : List Bool :=
  let odd := r.weights.map fun e => match elemVal r.ty e with
    | .fin .. => false
    | _ => true
  let sc := r.scales.map fun q => q / 4 % 256 == 255
  let rows := (List.range (k / 16)).map fun kb => (odd.drop (16 * kb * n)).take (16 * n)
  rows.zipIdx.flatMap fun (blk, kb) => (List.range n).map fun j =>
    ((List.range 16).any fun i => blk.getD (i * n + j) false) || sc.getD (kb * n + j) false

/-- The bank that a load leaves (R257). -/
def Run.bankOf (r : Run) (k n : Nat) (old : Bank) : Bank :=
  if r.fault.isSome then { old with valid := false }
  else { elems := r.weights, scales := r.scales, flags := r.nonFinite k n, valid := true, poison := r.poison }

def State.setBank (s : State) (k : CtxId) (h bank : Nat) (f : Bank → Bank) : State :=
  s.onSec k h fun x => { x with sys := x.sys.map fun y => { y with banks := y.banks.modify bank f } }

/-- The load is over: the banks of its destinations, the section of a NEW load, the record. -/
def State.endLoad (s : State) (c : Ctx) (r : Run) : State :=
  let (k, n) := s.loadShape c r
  let (st, f) : Status × BitVec 32 := match r.fault with
    | some (code, e) => (.fault, faultField code e)
    | none => if r.poison = 0 then (.ok, 0) else (.poison, r.poison)
  let set := if r.fault.isSome then 0 else ((r.nonFinite k n).filter id).length
  let s := s.traceLoad c r st set
  let s := (s.loadDests c r).foldl (fun s d => s.setBank d r.lHandle r.lBank (r.bankOf k n)) s
  let s := if r.lNew then s.onSec c.id r.lHandle fun x => { x with st := .ready } else s
  s.finishCmd r { status := st, kind := 7, sid := r.cmd.slot.getD 0, fault := f, version := BitVec.ofNat 32 set, bytes := r.bytes }

/-! ## SMM: acceptance and start (R265, R266, R275) -/

def smmRows (count : Nat) (blk : Line) : Nat := 16 * (count - 1) + blkField blk 8 2

/-- Output classes of Table 9.5: whether an activation type goes with a weight type. -/
def pairsWith (w a : ElemType) : Bool :=
  let fp8 (t : ElemType) : Bool := t == .e4m3 || t == .e5m2
  let sfp8 (t : ElemType) : Bool := t == .se4m3 || t == .se5m2
  (fp8 w && fp8 a) || (sfp8 w && sfp8 a) || (w == a && (w == .e2m1 || w == .se2m1 || w == .bf16 || w == .f16 || w == .i8))

/-- BADPB of an operation block on a section (R266); ty is the output type. -/
def Section.smmBadpb (x : Section) (y : Systolic) (blk : Line) (ty : Nat) : Bool :=
  let a := blkField blk 0 1
  let o := blkField blk 1 1
  let d := blkField blk 2 1
  let at_ := blkField blk 3 1
  let opt := blkField blk 4 1
  let om := blkField blk 5 1
  let last := blkField blk 8 2
  decide (32 < a + x.pr) || decide (16 < o + 2 * x.pc)
    || (d != 255 && (decide (32 < d + 2 * x.pc) || (decide (d < a + x.pr) && decide (a < d + 2 * x.pc))))
    || decide (12 < at_) || !pairsWith y.wtype (elemOfCode at_)
    || ((y.wtype == .i8) != decide (6 ≤ ty))
    || decide (4 ≤ opt) || (opt.testBit 1 && ElemType.bits (elemOfCode ty) != 32)
    || om % 8 == 7 || decide (16 ≤ om) || last == 0 || decide (16 < last)

/-- Non-zero reserved bytes of an operation block. -/
def smmRsvd (blk : Line) : Bool := !blkZero blk 6 2 || !blkZero blk 10 54

/-- Lines of service turns per row, times 32 (R274). -/
def Section.smmLines (x : Section) (blk : Line) (ty : Nat) : Nat :=
  32 * x.pr + (if blkField blk 2 1 = 255 then 0 else 64 * x.pc) + 2 * x.pc * ElemType.bits (elemOfCode ty)

/-- The promised time of SMM (R275). -/
def Section.smmPromise (x : Section) (gtime count : Nat) (blk : Line) (ty : Nat) : Word :=
  let g := x.sysGrant
  let now := if x.grant = 0 then g else x.grant
  -- R × Max(1, Lr / 8) × G / g, rounded up
  let num := smmRows count blk * Nat.max 256 (x.smmLines blk ty) * g
  BitVec.ofNat 64 (gtime + 4 * x.pr + 4 * x.pc + 16 + (num + 256 * now - 1) / (256 * now))

/-- The record of an SMM (R276), to a queue. -/
def State.smmRecord (s : State) (r : Run) (h : Nat) (st : Status) (fault : BitVec 32) (version bytes : Nat) : State :=
  s.finishCmd r { status := st, kind := 7, sid := h + 32, fault := fault, version := BitVec.ofNat 32 version, bytes := bytes }

/-- The section is armed with an operation; cancelled behind a poisoned barrier, without a request for current (R278). -/
def State.armSmm (s : State) (c : Ctx) (x : Section) (y : Systolic) (m : Smm) (count : Option Nat) : State :=
  let h := x.handle
  let s := s.trc 1 1 c [.word h, .word (count.getD 0)]
  let s := s.trc 3 1 c [.word h, .word (blkField m.blk 4 1 % 2), .word (count.getD 0), .word 0, .word 0]
  let s := s.onSec c.id h fun x =>
    { x.run s.clk with count := count, taken := false, wants := 0, credit := 0, sys := some { y with smm := some { m with lastPush := s.clk } } }
  if m.cancelled = 0 then s.askGrant c.id h x.sysGrant else s.trc 3 3 c [.word h, .word m.cancelled.toNat]

/-- The bank that an operation reads. -/
def Systolic.bank (y : Systolic) (blk : Line) : Bank := y.banks.getD (blkField blk 4 1 % 2) {}

/-- What a handle says to an operation that would arm it (R263, R265, R266): it waits, ends with a status, or is armed with
the poison of its bank. -/
inductive SmmStart where
  | wait
  | status (st : Status)
  | arm (x : Section) (y : Systolic) (poison : BitVec 32)

/-- The bank of an operation: not free of loads, invalid, or there with its poison. -/
def State.smmBank (s : State) (c : Ctx) (x : Section) (y : Systolic) (blk : Line) : SmmStart :=
  if !(s.loadsInto c x.handle (blkField blk 4 1 % 2)).isEmpty then .wait
  else if !(y.bank blk).valid then .status .state
  else .arm x y (y.bank blk).poison

def State.smmStart (s : State) (c : Ctx) (h : Nat) (blk : Line) (ty : Nat) : SmmStart :=
  match c.sec? h with
  | none => .status .state
  | some x => match x.sys with
    | none => .status .state
    | some y =>
      if x.busyState then .wait
      else if x.st ≠ .ready then .status .busy
      else if x.smmBadpb y blk ty then .status .badpb
      else s.smmBank c x y blk

/-- An SMM that does not start ends with a status (R276, R282). -/
def State.smmEnds (s : State) (c : Ctx) (r : Run) (st : Status) (fault : BitVec 32) : State :=
  (s.trc 3 1 c [.word r.lHandle, .word (blkField r.blk 4 1 % 2), .word (r.f.imm.toNat / 2 ^ 32), .word st.code, .word 0]).smmRecord
    r r.lHandle st fault 0 0

/-- SMM takes effect on its handle; none where it waits. -/
def State.actSmm (s : State) (c : Ctx) (r : Run) : Option State :=
  let count := r.f.imm.toNat / 2 ^ 32
  match s.smmStart c r.lHandle r.blk r.f.ty.toNat with
  | .wait => none
  | .status st => some (s.smmEnds c r st 0)
  | .arm x y o =>
    let o := if o ≠ 0 then o else if r.f.flags.getLsbD 0 then y.barPoison else 0
    let s := s.onCtx c.id fun c => { c with hwait := c.hwait.filter fun q => q.cmd.seq != r.cmd.seq }
    let m : Smm := { cmd := r.cmd, blk := r.blk, promised := r.promised, rows := smmRows count r.blk, cancelled := o }
    some (s.armSmm c x y m (some count))

/-- The configuration engine accepts SMM: its block, its promised time, which is now where its handle ends it at once
(R275); it takes effect on the handle in its turn. -/
def State.acceptSmm (s : State) (c : Ctx) (m : Command) : State :=
  let r : Run := { cmd := m }
  let h := r.lHandle
  let count := m.f.imm.toNat / 2 ^ 32
  let fail (s : State) (r : Run) (st : Status) (f : Nat) : State :=
    let r := { r with promised := if m.prom.isSome then BitVec.ofNat 64 s.gtime else 0 }
    (s.promise m r.promised).smmEnds c r st (BitVec.ofNat 32 f)
  match s.readBlock c m with
  | .bad st f => fail s r st f
  | .wait => s
  | .ok b =>
    let r := { r with blk := b }
    let s := s.trc 3 1 c [.word h, .word (blkField b 4 1 % 2), .word count, .word 0, .word 0]
    if smmRsvd b then fail s r .rsvd 0
    else
      let now := !s.earlierOn c h m.seq && (match s.smmStart c h b m.f.ty.toNat with
        | .status _ => true
        | _ => false)
      let time := match c.sec? h with
        | some x => if x.sys.isSome && !now then x.smmPromise s.gtime count b m.f.ty.toNat else BitVec.ofNat 64 s.gtime
        | none => BitVec.ofNat 64 s.gtime
      let r := { r with promised := if m.prom.isSome then time else 0 }
      (s.promise m r.promised).onCtx c.id fun c => { c with hwait := c.hwait ++ [r] }

/-! ## SRUN (R206, R279) -/

/-- A STOPPED section is reopened by SRUN.GO with what remains (Table 7.3); a cancelled SMM asks for no current (R278). -/
def State.reopen (s : State) (k : CtxId) (h : Nat) : State :=
  match s.sec? k h with
  | none => s
  | some (c, x) =>
    -- while PEs switch, the shutters open with the new image (R204, rule 5)
    let s := (s.trc 1 1 c [.word h, .word (x.count.getD 0)]).onSec k h fun x =>
      if x.old.isSome then { x with st := .running, shutClk := none, lastEvent := s.clk } else x.run s.clk
    match x.sys with
    | none => s.askGrant k h (16 * x.pr * x.pc)
    | some y => if y.smm.any fun m => m.cancelled != 0 then s else s.askGrant k h x.sysGrant

/-- SRUN.GO on a READY systolic section of shape 3 × 4: the last operation, without end (R279), under the conditions on its
bank that every operation meets (R263, R266, R278). -/
def State.endlessSmm (s : State) (c : Ctx) (x : Section) : SmmStart × Option Smm :=
  match x.sys with
  | none => (.status .state, none)
  | some y => match y.lastOp with
    | none => (.status .state, none)
    | some (cmd, blk) => (s.smmBank c x y blk, some { cmd := cmd, blk := blk, rows := 0, endless := true })

/-- SRUN takes effect on its handle (Table 7.3); none where it waits. -/
def State.actSrun (s : State) (c : Ctx) (r : Run) (h : Nat) (back : Bool) : Option State :=
  let k := c.id
  let ends (s : State) : State := (s.onCtx k fun c => { c with hwait := c.hwait.filter fun q => q.cmd.seq != r.cmd.seq }).retire k r.cmd.seq
  match c.sec? h with
  | none => some (ends s)
  | some x =>
    let state := ends (s.secRec k x.queue h .state)
    if x.busyState then none
    else if back then
      if x.st = .ready then some state
      else
        let s := if x.opened then s.trc 1 2 c [.word h, .word 1] else s
        some (ends ((s.onSec k h fun x => { x.shut with st := .ending, taken := true, lastEvent := Nat.max x.lastEvent s.clk }).dropGrant k h))
    else if x.st = .running then some state
    else if x.st = .stopped then some (ends (s.reopen k h))
    else if x.pr * x.pc ≠ 12 then some state
    else if x.sys.isSome then (match s.endlessSmm c x with
      | (.arm x y o, some m) => some (ends (s.armSmm c x y { m with cancelled := o } none))
      | (.wait, _) => none
      | _ => some state)
    else some (ends (s.armSection k h none none))

/-! ## SMM: rows (R256, R267 to R272) -/

/-- Take the entries of a list of doors, in order; none where one has none. -/
def Ctx.popDoors (c : Ctx) : List Nat → Option (List DoorEntry × Ctx)
  | [] => some ([], c)
  | d :: r => match c.popDoor d with
    | none => none
    | some (e, c) => (c.popDoors r).map fun p => (e :: p.1, p.2)

/-- First poison of a list of entries. -/
def entriesPoison (es : List DoorEntry) : BitVec 32 := ((es.find? fun e => e.poison != 0).map (·.poison)).getD 0

/-- Activation elements of a row with their values and scales; block scales come from the band (R70, R211). -/
def rowElems (t : ElemType) (es : List DoorEntry) : List (Nat × Scaled) :=
  let w := ElemType.bits t
  es.flatMap fun e => (List.range (512 / w)).map fun i =>
    let x := elem w e.data i
    (x, elemVal t x, if ElemType.scaled t then scaleVal (e.band.toNat / 2 ^ (16 * (i / 16 * 16 * w / 64)) % 1024) else unitScale)

/-- The operands of an SMM row that every column shares. -/
structure RowCtx where
  g : Nat
  n : Nat
  pr : Nat
  aty : ElemType
  wty : ElemType
  acts : List (Nat × Scaled)
  zero : List Bool
  bank : Bank
  rm : RMode
  sat : Bool
  seed : BitVec 32
  ctr : Nat

/-- The step of PE row r in column n (R256, R270). -/
def RowCtx.stepRow (q : RowCtx) (n r p : Nat) : Nat × FlagBits :=
  let ks := ((List.range q.g).map fun i => q.g * r + i).filter fun k =>
    !(q.zero.getD (k / 16) false) || q.bank.flags.getD (k / 16 * q.n + n) false
  if ks = [] then (p, 0)
  else if q.wty = .i8 then
    (dotStepInt (ks.map fun k => (sintOf 8 (q.acts.getD k (0, .fin false 0 0, unitScale)).1, sintOf 8 (q.bank.elems.getD (k * q.n + n) 0))) p q.sat, 0)
  else
    let wv (k : Nat) : Scaled :=
      (elemVal q.wty (q.bank.elems.getD (k * q.n + n) 0),
        if ElemType.scaled q.wty then scaleVal (q.bank.scales.getD (k / 16 * q.n + n) 0) else unitScale)
    let rnd : Rnd := ⟨q.rm, q.sat, mix32 q.seed (BitVec.ofNat 32 ((r * 16 + n / 8) * 256 + n % 8)) (BitVec.ofNat 32 q.ctr)⟩
    dotStepFloat (ks.map fun k => ((q.acts.getD k (0, .fin false 0 0, unitScale)).2, wv k)) p rnd

/-- The column sum of a column, from an initial partial. -/
def RowCtx.column (q : RowCtx) (n p : Nat) : Nat × FlagBits :=
  (List.range (4 * q.pr)).foldl (fun acc r =>
    let (v, fl) := q.stepRow n r acc.1
    (v, acc.2 ||| fl)) (p, 0)

/-- Out(m, n): the sum converted to T (R271, R272). -/
def RowCtx.out (q : RowCtx) (blk : Line) (cmd : Command) (ty n p : Nat) : Nat × FlagBits :=
  let (v, fl) := q.column n p
  let om := blkField blk 5 1
  let rnd : Rnd := ⟨blockMode cmd om, om.testBit 3,
    mix32 q.seed (BitVec.ofNat 32 (((4 * q.pr - 1) * 16 + n / 8) * 256 + 128 + n % 8)) (BitVec.ofNat 32 q.ctr)⟩
  let (x, fl2) := convert (if q.wty = .i8 then .i32 else .f32) (elemOfCode ty) v rnd
  (x, fl ||| fl2)

def RowCtx.make (x : Section) (y : Systolic) (m : Smm) (es : List DoorEntry) : RowCtx :=
  let aty := elemOfCode (blkField m.blk 3 1)
  let acts := rowElems aty es
  { g := x.sysG, n := x.sysN, pr := x.pr, aty := aty, wty := y.wtype, acts := acts,
    zero := (List.range (x.sysK / 16)).map fun b => (List.range 16).all fun i => 
        let v := (acts.getD (16 * b + i) (0, .fin false 0 0, unitScale)).2
        (scaledVal v.1 v.2).isZero,
    bank := y.bank m.blk, rm := y.rm, sat := y.sat, seed := y.seed, ctr := y.rowCtr }

/-- The activation and accumulate doors of an operation. -/
def Section.smmDoors (x : Section) (m : Smm) : List Nat × List Nat :=
  let d := blkField m.blk 2 1
  ((List.range x.pr).map fun t => blkField m.blk 0 1 + t, if d = 255 then [] else (List.range (2 * x.pc)).map fun j => d + j)

/-- The row that enters: its results and poison by group of 16 columns, its flags, its zero blocks. Poison is not computed
on: it raises no flag (R202, R277). -/
def smmRow (x : Section) (y : Systolic) (m : Smm) (as cs : List DoorEntry) (now : Nat) : SysRow × FlagBits × Nat :=
  let groups := 2 * x.pc
  let ao := if m.cancelled ≠ 0 then m.cancelled else entriesPoison as
  if ao ≠ 0 then (⟨m.next, now, List.replicate (32 * x.pc) 0, List.replicate groups ao⟩, 0, 0)
  else
    let q := RowCtx.make x y m as
    let po (j : Nat) : BitVec 32 := ((cs[j]?).map (·.poison)).getD 0
    let outs := (List.range (32 * x.pc)).map fun n =>
      if po (n / 16) ≠ 0 then (0, 0)
      else q.out m.blk m.cmd m.cmd.f.ty.toNat n (((cs[n / 16]?).map fun e => elem 32 e.data (n % 16)).getD 0)
    (⟨m.next, now, outs.map (·.1), (List.range groups).map po⟩, outs.foldl (fun f o => f ||| o.2) 0, (q.zero.filter id).length)

/-- Why a section does not admit a row now (Table 9.11): 0 activation, 1 accumulate, 2 output stage, 3 credit. -/
def Section.admitStall (x : Section) (c : Ctx) (m : Smm) : Option Nat :=
  let (as, cs) := x.smmDoors m
  if (c.popDoors as).isNone then some 0
  else if (c.popDoors cs).isNone then some 1
  else if 32 ≤ m.out.length then some 2
  else if m.cancelled = 0 ∧ x.credit < x.sysGrant then some 3 else none

/-- A systolic section admits its next row (R269, R273, R277). -/
def execRowAdmission (k : CtxId) (h : Nat) (s : State) : Out :=
  match s.sec? k h with
  | none => .next s
  | some (c, x) =>
    match x.sys.bind fun y => y.smm.map fun m => (y, m) with
    | none => .next s
    | some (y, m) =>
      if x.st ≠ .running ∨ !x.opened ∨ !c.live ∨ (!m.endless ∧ m.rows ≤ m.next) ∨ m.out.any (fun r => r.clk == s.clk) then .next s
      else match x.admitStall c m with
        | some why => .next (s.trc 3 4 c [.word h, .word why])
        | none =>
          let (as, cs) := x.smmDoors m
          match c.popDoors as with
          | none => .next s
          | some (ae, c1) =>
            match c1.popDoors cs with
            | none => .next s
            | some (ce, c2) =>
              let (row, fl, z) := smmRow x y m ae ce s.clk
              let o := if m.cancelled ≠ 0 then 0 else (entriesPoison (ae ++ ce))
              let m := { m with next := m.next + 1, out := m.out ++ [row], flags := m.flags ||| fl, zeros := (m.zeros + z) % 2 ^ 24,
                                poison := if m.poison = 0 then o else m.poison }
              let last := !m.endless && decide (m.rows ≤ m.next)
              let s := s.onCtx k fun _ => c2
              let s := s.onSec k h fun x =>
                { x with credit := if m.cancelled = 0 then x.credit - x.sysGrant else x.credit, silence := 0,
                         st := if last then .ending else x.st, opened := x.opened && !last, moving := if last then x.shut.moving else x.moving,
                         sys := some { y with rowCtr := (y.rowCtr + 1) % 2 ^ 32, smm := some m } }
              .next (if last then (s.trc 1 2 c [.word h, .word 1]).dropGrant k h else s)

/-! ## SMM: output (R268, R269, R271) -/

/-- Rows that an entry of an output door covers, and whether results are transposed. -/
def Smm.perEntry (m : Smm) : Nat := 512 / ElemType.bits (elemOfCode m.cmd.f.ty.toNat) / 16
def Smm.transposed (m : Smm) : Bool := (blkField m.blk 4 1).testBit 1

/-- No row will be admitted any more. -/
def Section.smmClosed (x : Section) : Bool := x.st == .ending

/-- Entries that each output door receives from the rows admitted, once no further row comes. -/
def Smm.entries (m : Smm) : Nat := if m.transposed then 16 * ((m.next + 15) / 16) else (m.next + m.perEntry - 1) / m.perEntry

/-- First row and number of rows of entry e of a door. -/
def Smm.span (m : Smm) (e : Nat) : Nat × Nat := if m.transposed then (e / 16 * 16, 16) else (e * m.perEntry, m.perEntry)

/-- The next entry of output door j, if its rows are there and its time has come. -/
def Section.nextOut (x : Section) (m : Smm) (j now : Nat) : Option DoorEntry :=
  let e := NMap.get 0 m.pushed j
  let (lo, n) := m.span e
  let hi := if x.smmClosed then Nat.min (lo + n) m.next else lo + n
  if m.next < hi ∨ hi ≤ lo ∨ 2 * x.pc ≤ j then none
  else
    let rows := (List.range (hi - lo)).map fun i => m.out.find? fun r => r.m == lo + i
    match m.out.find? fun r => r.m == hi - 1 with
    | none => none
    | some last =>
      if now < last.clk + 4 * x.pr + 2 * j + 6 then none
      else
        let w := ElemType.bits (elemOfCode m.cmd.f.ty.toNat)
        let out (r : Option SysRow) (i : Nat) : Nat := ((r.map (·.outs)).getD []).getD (16 * j + i) 0
        let vals := if m.transposed then rows.map fun r => out r (e % 16)
          else rows.flatMap fun r => (List.range 16).map fun i => out r i
        let o := ((rows.map fun r => ((r.map (·.poison)).getD []).getD j 0).find? fun o => o != 0).getD 0
        some (if o ≠ 0 then ⟨o.setWidth 512, 0, o⟩ else ⟨BitVec.ofNat 512 (ofElems w vals), 0, 0⟩)

/-- Rows that every output door has pushed leave the output stage. -/
def Section.dropRows (x : Section) (m : Smm) : Smm :=
  { m with out := m.out.filter fun r => (List.range (2 * x.pc)).any fun j =>
      let e := NMap.get 0 m.pushed j
      decide ((if m.transposed then e / 16 * 16 else e * m.perEntry) ≤ r.m) }

/-- A completed entry of output door j is pushed; a STOPPED section keeps its output stage (R279). -/
def execOutputEntryPush (k : CtxId) (h j : Nat) (s : State) : Out :=
  match s.sec? k h with
  | none => .next s
  | some (c, x) =>
    match x.sys.bind fun y => y.smm.map fun m => (y, m) with
    | none => .next s
    | some (y, m) =>
      let door := 32 + blkField m.blk 1 1 + j
      match x.nextOut m j s.clk with
      | none => .next s
      | some e =>
        if !c.doorRoom door ∨ !c.live ∨ x.st = .stopped then .next s
        else
          let m := x.dropRows { m with pushed := NMap.set 0 m.pushed j (NMap.get 0 m.pushed j + 1), bytes := m.bytes + 64, lastPush := s.clk }
          let s := s.onCtx k fun c => c.pushDoor door e s.clk
          .next (s.onSec k h fun x => { x with sys := some { y with smm := some m }, silence := 0 })

/-- Whether every entry of an operation that admits no more rows has been pushed. -/
def Section.smmPushed (x : Section) (m : Smm) : Bool :=
  (List.range (2 * x.pc)).all fun j => decide (m.entries ≤ NMap.get 0 m.pushed j)

/-- Status and FAULT of an operation that ends. -/
def Smm.outcome (m : Smm) (taken : Bool) : Status × BitVec 32 :=
  if m.cancelled ≠ 0 then (.cancelled, m.cancelled)
  else if taken then (.taken, m.poison) else if m.poison ≠ 0 then (.poison, m.poison) else (.ok, 0)

/-- The record of an operation, and what it leaves for the barrier (R276, R278). -/
def State.retireSmm (s : State) (c : Ctx) (x : Section) (m : Smm) : State :=
  let k := c.id
  let h := x.handle
  let (st, f) := m.outcome x.taken
  let s := s.trc 3 1 c [.word h, .word (blkField m.blk 4 1 % 2), .word (x.count.getD 0), .word st.code, .word m.zeros]
  let s := s.onCtx k fun c => { c with sys := { c.sys with flags := flagsRaise c.sys.flags m.flags } }
  let s := s.onSec k h fun x => { x with sys := x.sys.map fun y =>
    { y with smm := none, lastOp := some (m.cmd, m.blk),
             barPoison := if y.barPoison = 0 then (if st = .poison ∨ st = .cancelled then f else 0) else y.barPoison } }
  if m.endless then s
  else
    let version := m.flags.toNat + 2 ^ 8 * m.zeros
    match m.node with
    | some n => (s.pushRec k x.queue { status := st, kind := 7, sid := h + 32, fault := f, version := BitVec.ofNat 32 version,
                                       bytes := m.bytes } none none).endNode k (some n) (if st = .poison ∨ st = .cancelled then f else 0)
    | none => s.smmRecord { cmd := m.cmd, promised := m.promised } h st f version m.bytes

end Sys2Proof.Machine
end

