-- ==== Sys2Proof/Machine/Handles.lean ====
section
/-! DEFINITION. Commands that act on a section handle, in order (R183), the arming of graph nodes (R36, R280), and the
events that end a wait: SCFG, quiescence, weight loads, SMM. -/

namespace Sys2Proof.Machine

/-! ## Arming a node of the kernel graph (R36, R240, R280) -/

def Ctx.onNode (c : Ctx) (n : Nat) (f : GNode → GNode) : Ctx :=
  { c with task := { c.task with nodes := c.task.nodes.map fun x => if x.num = n then f x else x } }

/-- What arming a node comes to: done, waiting, or a status. -/
inductive Armed where
  | done (s : State)
  | wait
  | status (st : Status) (fault : Nat)

/-- Loads of a context into a bank of a handle that were issued before a place of its issue order and wait, in the command
queue or on the handle (R183, R263). -/
def State.loadsAhead (s : State) (c : Ctx) (h bank seq : Nat) : Bool :=
  let hit (r : Run) : Bool := (match r.cmd.op with
    | .swload _ => true
    | _ => false) && r.lHandle == h && r.lBank == bank && decide (r.cmd.seq < seq)
  (s.tile c.id.tile).queue.any (fun m => m.ctx == c.id && hit { cmd := m }) || c.runs.any fun r => r.phase == .queued && hit r

/-- A node becomes armed. -/
def State.nodeArmed (s : State) (k : CtxId) (n count : Nat) : State :=
  s.onCtx k fun c => c.onNode n fun x => { x with armed := true, ended := false, count := count, fired := 0, poison := 0 }

/-- A pseudo command for a node that the graph sequencer arms. -/
def Ctx.nodeCommand (c : Ctx) (n : GNode) (op : CF → Instr) (q : Nat) : Command :=
  let f : CF := ⟨0, 0, 0, 0, 0, 0, BitVec.ofNat 4 n.otype, BitVec.ofNat 4 (space n.addr), BitVec.ofNat 4 q, 0, BitVec.ofNat 64 n.handle⟩
  { ctx := c.id, seq := c.seq, op := op f, f := f, base := n.addr, pblk := n.addr, prom := none, rm := rmOfCode 6 c.sys.rm.toNat,
    epoch := c.task.switches }

/-- Arm a systolic section as SMM does, with the operation block of a node and the poison of its barrier (R266, R278,
R280): behind the loads into its bank that were issued before. The nodes that depend on a cancelled one find its poison from
here on (R36, R278). -/
def State.armSystolicNode (s : State) (c : Ctx) (n : GNode) (count seq : Nat) (o : BitVec 32) : Armed :=
  let cmd := c.nodeCommand n .smm 8
  match s.readBlock c cmd with
  | .bad st f => .status st f
  | .wait => .wait
  | .ok b =>
    if smmRsvd b then .status .rsvd 0
    else if s.loadsAhead c n.handle (blkField b 4 1 % 2) seq then .wait
    else match s.smmStart c n.handle b n.otype with
      | .wait => .wait
      | .status st => .status st 0
      | .arm x y p =>
        let m : Smm := { cmd := cmd, blk := b, rows := smmRows count b, cancelled := if o ≠ 0 then o else p, node := some n.num }
        .done (((s.armSmm c x y m (some count)).nodeArmed c.id n.num count).onCtx c.id fun c =>
          c.onNode n.num fun x => { x with poison := m.cancelled })

/-- Arm a dataflow section by Table 7.3. -/
def State.armDataflowNode (s : State) (c : Ctx) (n : GNode) (count : Nat) : Armed :=
  match c.sec? n.handle with
  | none => .status .state 0
  | some x =>
    if x.busyState then .wait
    else if x.sys.isSome then .status .state 0
    else if x.st ≠ .ready then .status .busy 0
    else .done ((s.armSection c.id n.handle (some count) (some n.num)).nodeArmed c.id n.num count)

/-- Arm a template as SARM does, with the node's count (R240). -/
def State.armTemplateNode (s : State) (c : Ctx) (n : GNode) (count q : Nat) : Armed :=
  match s.readBlock c (c.nodeCommand n .sarm q) with
  | .bad st f => .status st f
  | .wait => .wait
  | .ok b =>
    let t := n.handle / 16
    if !blkZero b 12 4 || !blkZero b 52 12 then .status .rsvd 0
    else if c.tmplBusy t (n.handle % 16) then .status .busy 0
    else
      let x : Tmpl := { num := t, lb := n.handle % 16, blk := b, count := count, queue := q, node := some n.num }
      .done ((s.onCtx c.id fun c => { c with tmpls := c.tmpls ++ [x] }).nodeArmed c.id n.num count)

/-- Arm node n with a count; a count of 0 passes it over (R36, R280). seq is the place of the SARMG, or of what is issued
next; o is the poison of its barrier, q the queue that a template's firings report to. -/
def State.armNode (s : State) (c : Ctx) (n : GNode) (count seq : Nat) (o : BitVec 32) (q : Nat) : Armed :=
  if count = 0 then
    .done ((s.nodeArmed c.id n.num 0).onCtx c.id fun c => c.onNode n.num fun x => { x with ended := true, poison := 0 })
  else if n.kind = 0 then .done (s.nodeArmed c.id n.num count)
  else if n.kind = 3 then s.armTemplateNode c n count q
  else if n.kind = 2 then s.armSystolicNode c n count seq o
  else s.armDataflowNode c n count

def Ctx.depNodes (c : Ctx) (n : GNode) : List GNode := c.task.nodes.filter fun m => n.deps.contains m.num

/-- A node ends without running, with a poison (R278). -/
def State.closeNode (s : State) (k : CtxId) (n : Nat) (o : BitVec 32) : State := s.onCtx k fun c => c.onNode n fun m =>
  { m with armed := true, ended := true, waiting := false, poison := o }

/-- Arm a node behind its predecessors: a systolic one waits for their end, which is in its barrier; any other one behind a
poisoned predecessor is cancelled, and waits for one whose barrier is not reached (R278, R280). -/
def State.armBehind (s : State) (c : Ctx) (n : GNode) (count seq q : Nat) : Armed :=
  let deps := c.depNodes n
  let poison := ((deps.find? fun m => m.poison != 0).map (·.poison)).getD 0
  if count ≠ 0 ∧ deps.any (fun m => if n.kind = 2 then !m.ended else m.waiting) then .wait
  else if count ≠ 0 ∧ n.kind ≠ 2 ∧ poison ≠ 0 then .done (s.closeNode c.id n.num poison)
  else s.armNode c n count seq poison q

/-- SARMG takes effect; none where it waits. -/
def State.actSarmg (s : State) (c : Ctx) (r : Run) : Option State :=
  let i := r.f.imm.toNat % 2 ^ 16
  let count := r.f.imm.toNat / 2 ^ 32
  let ends (s : State) (st : Status) (f : Nat) : State :=
    s.finishCmd r { status := st, kind := 3, sid := i, fault := BitVec.ofNat 32 f, bytes := count }
  match c.node? i with
  | none => some (ends s .state 0)
  | some n =>
    if n.armed && !n.ended then some (ends s .state 0)
    else match s.armBehind c n count r.cmd.seq r.f.q.toNat with
      | .wait => none
      | .status st f => some (ends s st f)
      | .done s => some (ends s .ok 0)

/-! ## The commands that wait on handles (R183) -/

/-- A command that the configuration engine, or the stream engine for SWLOAD, holds; none where it still waits. -/
def State.actOne (s : State) (c : Ctx) (r : Run) : Option State :=
  if (handleOf c r.cmd).any fun h => s.earlierOn c h r.cmd.seq then none
  else match r.cmd.op with
    | .scfg _ => s.actScfg c r r.lHandle
    | .srunGo _ => s.actSrun c r r.lHandle false
    | .srunBack _ => s.actSrun c r r.lHandle true
    | .sstop _ => s.actSstop c r r.lHandle
    | .smm _ => s.actSmm c r
    | .sarmg _ => s.actSarmg c r
    | .swload _ => s.actSwload c r
    | _ => none

/-- Every command of a context that can take effect now does so, in the order of issue. fuel bounds their number. -/
def State.pump (s : State) (k : CtxId) : Nat → State
  | 0 => s
  | fuel + 1 =>
    match s.ctx? k with
    | none => s
    | some c =>
      let waiting := c.hwait ++ c.runs.filter fun r => r.wload && r.phase == .queued
      match waiting.findSome? (s.actOne c) with
      | none => s
      | some s => s.pump k fuel

/-- The commands of every context: a load waits for sections of other contexts too (R264). -/
def State.pumpAll (s : State) : State :=
  (s.ctxs.map (·.id)).foldl (fun s k => s.pump k 128) s

/-! ## Events -/

/-- A section under SCFG goes on with its image, its cache space or its pages (R205). -/
def execScfgComplete (k : CtxId) (h : Nat) (s : State) : Out :=
  match s.sec? k h with
  | none => .next s
  | some (c, x) =>
    match x.loading with
    | none => .next s
    | some r => .next (s.scfgStep c x r).pumpAll

/-- An ending dataflow section is quiescent: partly filled output entries are pushed, and it ends (R184, R189). -/
def execSectionQuiescent (k : CtxId) (h : Nat) (s : State) : Out :=
  match s.sec? k h with
  | none => .next s
  | some (c, x) =>
    if x.st ≠ .ending ∨ x.sys.isSome ∨ !s.quiet k x true then .next s
    else match c.flushSlots x s.clk with
      | none => .next s
      | some c' => .next (((s.onCtx k fun _ => c').endSection k h).pumpAll)

/-- Whether a systolic section holds no partial and can push nothing (R279). -/
def Section.systolicQuiet (x : Section) (c : Ctx) (now : Nat) : Bool :=
  match x.sys.bind fun y => y.smm with
  | none => true
  | some m => m.out.all (fun r => decide (r.clk + 4 * x.pr + 4 * x.pc + 4 ≤ now))
      && (List.range (2 * x.pc)).all fun j => (x.nextOut m j now).isNone || !c.doorRoom (32 + blkField m.blk 1 1 + j)

/-- A STOPPING section is quiescent and STOPPED; its SSTOP completes (R207, R279). -/
def execSectionStopped (k : CtxId) (h : Nat) (s : State) : Out :=
  match s.sec? k h with
  | none => .next s
  | some (c, x) =>
    let still := if x.sys.isSome then x.systolicQuiet c s.clk else s.quiet k x false
    if x.st ≠ .stopping ∨ !still then .next s
    else
      let s := s.onSec k h fun x => { x with st := .stopped }
      let stop := c.waits.find? fun r => (match r.cmd.op with
        | .sstop _ => true
        | _ => false) && r.lHandle == h
      .next ((match stop with
        | some r => s.sstopOver r h .stopped
        | none => s).pumpAll)

/-- A PE of the old tag, with the copies of its record, goes on to switch: the switch tokens of its SRC and self-timed entries,
and when every link that it reads is closed those of its other destinations, then the switch (R203, R204). -/
def execPeSwitch (k : CtxId) (h row col : Nat) (s : State) : Out :=
  match s.sec? k h with
  | none => .next s
  | some (c, x) =>
    match x.old, (x.pe? row col).bind fun p => (x.recordOf p).map fun q => (p, q.1, q.2) with
    | some _, some (p, g, r) =>
      let copies := x.pes.filter fun q => q.tag == p.tag && q.recNo == p.recNo
      let busy := copies.any (fun q => decide (s.clk < q.freeAt) || q.turning)
        || x.edges.any fun e => copies.any fun q => e.row == q.row && e.col == q.col
      if p.tag = x.tag ∨ p.copy ≠ 0 then .next s
      else
        let closing := !busy && c.allClosed x g r s.clk
        let s := (r.outs closing).foldl (fun s d => s.sendSwitch k h row col d) s
        match (s.sec? k h).bind fun y => y.2.pe? row col with
        | some p => if closing && (r.outs true).all p.marked.contains then .next (s.switchPe k h p g r).pumpAll else .next s
        | none => .next s
    | _, _ => .next s

/-- A weight load that has read its tile ends (R257, R260). -/
def execWeightLoadComplete (tile slot : Nat) (s : State) : Out :=
  match s.runAt tile slot with
  | none => .next s
  | some (c, r) => if s.loadDone c r then .next (s.endLoad c r).pumpAll else .next s

/-- 16 clk after its last entry, an operation that admits no more rows is over: the section is READY, or FREE after
SRUN.BACK (R269, R276). -/
def execSmmRetire (k : CtxId) (h : Nat) (s : State) : Out :=
  match s.sec? k h with
  | none => .next s
  | some (c, x) =>
    match x.sys.bind fun y => y.smm with
    | none => .next s
    | some m =>
      if x.st ≠ .ending ∨ !x.smmPushed m ∨ s.clk < m.lastPush + 16 then .next s
      else
        let s := s.retireSmm c x m
        .next ((if x.taken then s.endSection k h else s.onSec k h fun x => { x with st := .ready, count := none, taken := false }).pumpAll)

end Sys2Proof.Machine
end

