-- ==== Sys2Proof/Machine/Versions.lean ====
section
/-! DEFINITION. Weight versions: SVSTAGE, SPUB, SVSW and the version engine (R330 to R344). -/

namespace Sys2Proof.Machine

/-! ## Slots (R332, R333) -/

def State.wslotOf (s : State) (n i : Nat) : WSlot := NMap.get {} s.hub.wslot (n * 4 + i)

def State.setWslot (s : State) (n i : Nat) (w : WSlot) : State :=
  { s with hub := { s.hub with wslot := NMap.set {} s.hub.wslot (n * 4 + i) w } }

/-- VCOUNT of a slot: the partitions that view it. -/
def State.vcount (s : State) (n i : Nat) : Nat :=
  (s.hub.views.filter fun v => v.1 % 64 == n && v.2 == i + 1).length

/-- WSLOTn,s as hub software reads it (Table 12.2). -/
def State.wslotReg (s : State) (n i : Nat) : Word :=
  let w := s.wslotOf n i
  BitVec.ofNat 64 (w.st * 2 ^ 62 + s.vcount n i * 2 ^ 48 + w.version.toNat)

/-- The PUBLISHED slot published last (R333). -/
def State.newest (s : State) (n : Nat) : Option Nat :=
  (List.range 4).foldl (fun b i =>
    if (s.wslotOf n i).st ≠ 2 then b
    else match b with
      | none => some i
      | some j => if (s.wslotOf n j).order < (s.wslotOf n i).order then some i else some j) none

/-- PUBLISHED slots that nobody views, with a later PUBLISHED one, retire (Table 12.3). -/
def State.retireSlots (s : State) (n : Nat) : State :=
  (List.range 4).foldl (fun s i =>
    let w := s.wslotOf n i
    if w.st = 2 ∧ s.vcount n i = 0 ∧ (s.newest n).any (fun j => j != i) then
      (s.trcPkg 6 0 0 [.word n, .word i, .word w.version.toNat]).setWslot n i { w with st := 3 }
    else s) s

/-- What a version operation answers: status, fault code, slot, version. -/
structure VAnswer where
  status : Status
  fault : Nat := 0
  slot : Nat := 0
  version : Nat := 0
  deriving DecidableEq, Repr

/-- SVSTAGE on a set, as a partition (R337). -/
def State.svstageNow (s : State) (part n : Nat) : State × VAnswer :=
  let w := NMap.get 0 s.hub.wset n
  if wordField w 63 1 = 0 then (s, { status := .state })
  else if wordField w 59 4 ≠ part then (s, { status := .fault, fault := codeAccess })
  else if (List.range 4).any fun i => (s.wslotOf n i).st == 1 then (s, { status := .busy })
  else match (List.range 4).find? fun i => (s.wslotOf n i).st == 0 with
    | none => (s, { status := .slotbusy })
    | some i =>
      let w := s.wslotOf n i
      ((s.trcPkg 6 0 part [.word n, .word i, .word w.version.toNat]).setWslot n i { w with st := 1 }, { status := .ok, slot := i })

/-- Why SPUB fails (R338), if it does. -/
def State.spubCheck (s : State) (part n i : Nat) : Option VAnswer :=
  let w := NMap.get 0 s.hub.wset n
  if wordField w 63 1 = 0 ∨ (s.wslotOf n i).st ≠ 1 then some { status := .state, slot := i }
  else if wordField w 59 4 ≠ part then some { status := .fault, fault := codeAccess, slot := i }
  else none

/-- SPUB publishes a STAGING slot (R338). -/
def State.publish (s : State) (part n i : Nat) : State × VAnswer :=
  let w := NMap.get 0 s.hub.wset n
  let v0 := (wordField w 0 32 + 1) % 2 ^ 32
  let v := if v0 = 0 then 1 else v0
  let w' := BitVec.ofNat 64 (w.toNat / 2 ^ 32 * 2 ^ 32 + v)
  let s := { s with hub := { s.hub with wset := NMap.set 0 s.hub.wset n w', nextOrder := s.hub.nextOrder + 1 } }
  let s := s.setWslot n i { st := 2, version := BitVec.ofNat 32 v, order := s.hub.nextOrder }
  ((s.trcPkg 6 0 part [.word n, .word i, .word v]).retireSlots n, { status := .ok, slot := i, version := v })

/-! ## Commands -/

/-- The set of SVSTAGE and SPUB, and the slot of SPUB. -/
def Command.vset (m : Command) : Nat := m.f.imm.toNat % 64
def Command.vslot (m : Command) : Nat := m.f.imm.toNat / 256 % 4

/-- The record of SVSTAGE and SPUB (R342). -/
def State.versionRec (s : State) (r : Run) (sid : Nat) (a : VAnswer) : State :=
  let bytes := match r.cmd.op with
    | .spub _ => r.cmd.vslot
    | _ => a.slot
  s.finishCmd r { status := a.status, kind := 8, sid := sid, fault := BitVec.ofNat 32 a.fault,
                  version := BitVec.ofNat 32 a.version, bytes := bytes }

/-- Operations of a set that wait (R333). -/
def State.vopsOf (s : State) (n : Nat) : List VOp := s.hub.vops.filter fun o => o.run.cmd.vset == n

def State.dropVop (s : State) (o : VOp) : State :=
  { s with hub := { s.hub with vops := s.hub.vops.filter fun q => !(q.run.cmd.ctx == o.run.cmd.ctx && q.run.cmd.seq == o.run.cmd.seq) } }

/-- An asynchronous event of a command joins the event queue of the context that issued it, resident or pre-empted (R364);
none while it is full. -/
def State.raiseOwner (s : State) (k : CtxId) (seq : Nat) (cause : Cause) (tval : Word) : Option State :=
  match s.owner k seq with
  | none => some s
  | some c => if 16 ≤ c.events.length then none
      else some (s.onOwner k seq fun c => { c with events := c.events ++ [⟨cause, tval⟩] })

/-- An asynchronous event joins the event queue of a context (R364); none while it is full. -/
def State.raiseEvent (s : State) (k : CtxId) (cause : Cause) (tval : Word) : Option State :=
  match s.ctx? k with
  | none => some s
  | some c => if 16 ≤ c.events.length then none
      else some (s.onCtx k fun c => { c with events := c.events ++ [⟨cause, tval⟩] })

/-- SVSTAGE without a queue that meets SLOTBUSY raises the event (Table 14.1); none while the event queue is full. -/
def State.slotbusyEvent (s : State) (r : Run) (a : VAnswer) : Option State :=
  if a.status = .slotbusy ∧ r.f.q = 8 then s.raiseOwner r.cmd.ctx r.cmd.seq .slotbusy (BitVec.ofNat 64 r.cmd.vset) else some s

/-- The operations at the head of a set that need not wait are performed. fuel bounds their number. -/
def State.pumpVersions (s : State) (n : Nat) : Nat → State
  | 0 => s
  | fuel + 1 =>
    match s.vopsOf n with
    | [] => s
    | o :: _ =>
      match s.owner o.run.cmd.ctx o.run.cmd.seq with
      | none => s
      | some c =>
      let part := c.part
      match o.run.cmd.op with
      | .svstage _ =>
        let (t, a) := (s.dropVop o).svstageNow part n
        match t.slotbusyEvent o.run a with
        | some t => (t.versionRec o.run n a).pumpVersions n fuel
        | none => s
      | _ =>
        match s.spubCheck part n o.run.cmd.vslot with
        | some a => ((s.dropVop o).versionRec o.run n a).pumpVersions n fuel
        | none => s

/-- Whether SVSTAGE or SPUB of a lane goes to another package's sets (R339). -/
def Ctx.versionRemote (c : Ctx) (m : Command) : Bool :=
  let l := NMap.get {} c.lanes m.f.lane.toNat
  (match m.op with
    | .svstage _ | .spub _ => true
    | _ => false) && m.f.lane != 0 && l.bound && l.att

/-- The packet of a remote version command (Table 15.4). -/
def Command.versionPacket (m : Command) : Packet :=
  let sub := match m.op with
    | .spub _ => 1
    | _ => 0
  { op := .version, first := false, last := true, nf := false, poison := false, sub := sub, ty := 0, len := 0, src := 0,
    gsid := 0, seq := 0, daddr := BitVec.ofNat 64 (m.vset + m.vslot * 256), data := 0, good := true }

/-- The version engine accepts a command (R337 to R340). -/
def State.acceptVersion (s : State) (c : Ctx) (m : Command) : State :=
  let r : Run := { cmd := m, stamp := s.stamp }
  let s := ({ s with stamp := s.stamp + 1 } : State).accepted m 0
  match m.op with
  | .svsw _ =>
    let a : Arrival :=
      { k := c.id, launch := c.task.launch, part := c.part, n := c.task.arrivals + 1, mask := m.f.imm, queue := m.f.q.toNat,
        seq := m.seq, stamp := r.stamp }
    let s := s.trc 6 1 c [.word c.part, .word c.id.num, .word m.f.imm.toNat, .word a.n, .word 0]
    let s := s.onCtx c.id fun c => { c with task := { c.task with arrivals := c.task.arrivals + 1 } }
    { s with hub := { s.hub with arrivals := s.hub.arrivals ++ [a] } }
  | _ =>
    if c.versionRemote m then
      let l := NMap.get {} c.lanes m.f.lane.toNat
      let s := (s.sendPkt c m.f.lane.toNat l.dpkg m.seq 0 0 m.versionPacket).sentDone c.id m.seq
      s.onCtx c.id fun c => { c with waits := c.waits ++ [r] }
    else
      ({ s with hub := { s.hub with vops := s.hub.vops ++ [(⟨r, m.f.lane⟩ : VOp)] } } : State).pumpVersions m.vset 64

/-! ## Switches (R340, R341) -/

/-- Whether a participant of a gang has not ended. -/
def State.taskGoing (s : State) (launch : Nat) (k : CtxId) : Bool :=
  s.ctxs.any (fun c => c.live && c.id == k && c.task.launch == launch && c.task.stage != .ended && c.task.stage != .none)
    || s.hub.saved.any fun v => v.ctx.id == k && v.ctx.task.launch == launch

/-- Arrivals of the n-th switch of a launch's gang, with the place in the order of acceptances at which the last participant
arrived or ended, if every one has. -/
def State.switchComplete (s : State) (launch n : Nat) : Option (List Arrival × Nat) :=
  let xs := s.hub.arrivals.filter fun a => a.launch == launch && a.n == n
  let l := s.hub.launches.find? fun l => l.id == launch
  let gang := (l.map (·.gang)).getD (xs.map (·.k))
  let ended := ((l.map (·.ends)).getD []).filter fun e => !xs.any fun a => a.k == e.1
  if xs = [] ∨ gang.any (fun k => s.taskGoing launch k && !xs.any fun a => a.k == k) then none
  else some (xs, (xs.map (·.stamp) ++ ended.map (·.2)).foldl Nat.max 0)

/-- The same of a switch whose turn it is: the earlier ones of its gang have taken effect. -/
def State.switchReady (s : State) (launch n : Nat) : Option (List Arrival × Nat) :=
  if s.hub.arrivals.any fun a => a.launch == launch && decide (a.n < n) then none else s.switchComplete launch n

/-- A switch whose participants have all arrived and that has not taken effect, accepted before a stamp, names a set; a
switch that waits for an earlier one of its gang too (R333, R341). -/
def State.switchBefore (s : State) (stamp n : Nat) : Bool :=
  s.hub.arrivals.any fun a => a.mask.getLsbD n && (s.switchComplete a.launch a.n).any fun x => decide (x.2 < stamp)

/-- SPUB at the head of its set publishes, once its lane has reached its scope (R338). -/
def execSpubPublish (set : Nat) (s : State) : Out :=
  match s.vopsOf set with
  | [] => .next s
  | o :: _ =>
    match s.owner o.run.cmd.ctx o.run.cmd.seq with
    | none => .next s
    | some c =>
      match o.run.cmd.op with
      | .spub _ =>
        if !c.lanePassed o.lane o.run.cmd.seq || s.switchBefore o.run.stamp set then .next s
        else match s.spubCheck c.part set o.run.cmd.vslot with
          | some a => .next (((s.dropVop o).versionRec o.run set a).pumpVersions set 64)
          | none =>
            let (s, a) := (s.dropVop o).publish c.part set o.run.cmd.vslot
            .next ((s.versionRec o.run set a).pumpVersions set 64)
      | _ => .next (s.pumpVersions set 64)

/-- The views of a partition move to the newest slots of a mask's sets; the number of views that change (R341). -/
def State.switchViews (s : State) (p : Nat) (mask : Word) : State × Nat :=
  ((List.range 64).filter fun n => mask.getLsbD n).foldl (fun (s, k) n =>
    match s.newest n with
    | none => (s, k)
    | some i =>
      if NMap.get 0 s.hub.views (p * 64 + n) = i + 1 then (s, k)
      else (({ s with hub := { s.hub with views := NMap.set 0 s.hub.views (p * 64 + n) (i + 1) } }).retireSlots n, k + 1)) (s, 0)

/-- VCUR after a switch (Table 12.4). -/
def vcurOf (epoch set : Nat) (view : Nat) (version : BitVec 32) : Word :=
  BitVec.ofNat 64 (epoch % 2 ^ 24 * 2 ^ 40 + (if view = 0 then 2 ^ 38 else 0) + set * 2 ^ 32 + (if view = 0 then 0 else version.toNat))

/-- The n-th switch of a launch's gang in partition p takes effect. -/
def execVersionSwitch (p launch n : Nat) (s : State) : Out :=
  match s.switchReady launch n with
  | none => .next s
  | some (xs, stamp) =>
    let mask := ((xs.head?).map (·.mask)).getD 0
    let sets := (List.range 64).filter fun i => mask.getLsbD i
    if xs.any (fun a => a.part != p) ∨ sets.any (fun i => (s.vopsOf i).any fun o => decide (o.run.stamp < stamp)) then .next s
    else
      let bad := xs.any (fun a => a.mask != mask) || sets.any fun i =>
        let w := NMap.get 0 s.hub.wset i
        wordField w 63 1 == 0 || wordField w (43 + p) 1 == 0 || (s.newest i).isNone
      let (s, changed) := if bad then (s, 0) else s.switchViews p mask
      let st : Status := if bad then .state else .ok
      let s := xs.foldl (fun s a =>
        let set := ((List.range 64).find? fun i => a.mask.getLsbD i).getD 0
        let view : Nat := NMap.get 0 s.hub.views (p * 64 + set)
        let version : BitVec 32 := if view = 0 then 0 else (s.wslotOf set (view - 1)).version
        let views := s.viewOf p
        let s := s.traceAt 6 1 a.k.tile p a.k.num [.word p, .word a.k.num, .word a.mask.toNat, .word n, .word st.code]
        let s := s.onOwner a.k a.seq fun c => { c with task := { c.task with taken := c.task.taken ++ [(views, set, version)] }
                                                       sys := { c.sys with vcur := vcurOf n set view version } }
        s.pushRec a.k a.queue { status := st, kind := 8, sid := 0xFFFF, version := version, bytes := changed } none (some a.seq)) s
      let s := { s with hub := { s.hub with arrivals := s.hub.arrivals.filter fun a => !(a.launch == launch && a.n == n) } }
      .next (sets.foldl (fun s i => s.pumpVersions i 64) s)

/-! ## A retiring slot (R333) -/

/-- Whether a command may still access a slot of a set. -/
def Ctx.carries (c : Ctx) (m : Command) (set slot : Nat) : Bool :=
  NMap.get 0 m.staging set == slot + 1 || (if m.epoch = 0 then NMap.get 0 m.view set == slot + 1
    else match c.task.taken[m.epoch - 1]? with
      | some t => NMap.get 0 t.1 set == slot + 1
      | none => false)

/-- Whether an edge access of a context that was presented, and waits, may still access a slot (R335). -/
def Ctx.edgeCarries (c : Ctx) (set slot : Nat) : Bool :=
  c.secs.any fun x => x.edges.any fun e => e.out.isNone && match e.seen with
    | none => false
    | some (n, view, staging) => NMap.get 0 staging set == slot + 1 || (if n = 0 then NMap.get 0 view set == slot + 1
      else match c.task.taken[n - 1]? with
        | some t => NMap.get 0 t.1 set == slot + 1
        | none => false)

/-- Whether a command or an edge access of a context may; its commands in the queue of its tile, or saved with it, are q. -/
def Ctx.mayUse (c : Ctx) (q : List Command) (set slot : Nat) : Bool :=
  c.runs.any (fun r => c.opens.any (fun o => o.seq == r.cmd.seq && o.acc) && c.carries r.cmd set slot)
    || q.any (fun m => m.ctx == c.id && laneAccess m.op && c.carries m set slot) || c.edgeCarries set slot

/-- A RETIRING slot whose accesses are all over, those of pre-empted contexts among them, becomes FREE. -/
def execSlotFree (set slot : Nat) (s : State) : Out :=
  let w := s.wslotOf set slot
  let used := s.ctxs.any (fun c => c.mayUse (s.tile c.id.tile).queue set slot)
    || s.hub.saved.any fun v => v.ctx.mayUse v.queue set slot
  if w.st ≠ 3 ∨ used then .next s
  else .next ((s.trcPkg 6 0 0 [.word set, .word slot, .word w.version.toNat]).setWslot set slot { w with st := 0 })

end Sys2Proof.Machine
end

