-- ==== Sys2Proof/Machine/Translation.lean ====
section
/-! DEFINITION. Page walks, TLB fills, the service of diverted elements, and the system engine's commands: shoot-down,
REPLAY, pantry control (R345 to R361, R372 to R374, R379). -/

namespace Sys2Proof.Machine

/-! ## The walk (R345 to R348) -/

/-- What a walk finds: a leaf, an absent or a malformed entry, or an unreadable one (R438). -/
inductive Walk where
  | entry (e : TEntry) | page (malformed : Bool) | bad (cause : Nat)
  deriving DecidableEq, Repr

/-- A read of physical cellar memory by a walker of a partition: the value, or the cause of its poison. -/
def State.physRead (s : State) (part pa n : Nat) : Except Nat Nat :=
  if s.keyDenied part pa none false then .error walkOutpart
  else if s.badRead (cellarKey pa) n then .error walkEcc
  else .ok (s.valueAt (cellarKey pa) n)

/-- Whether an entry of level lvl, whose leaves have 2^leaf bytes, is malformed (R348). -/
def badEntry (e : Word) (lvl leaf : Nat) : Bool :=
  let ty := wordField e 61 2
  let a := wordField e 5 43 * 32
  ty == 3 || wordField e 56 5 != 0 || wordField e 48 2 != 0 || wordField e 2 3 != 0 || decide (cellarBytes ≤ a)
    || (ty != 0 && lvl == 0) || (ty == 0 && lvl == 3)
    || (ty == 0 && a % (if lvl = 2 then 256 else 4096) != 0) || (ty == 1 && a % 2 ^ leaf != 0)

/-- The table levels: number, low index bit, index bits, log2 of a leaf (Table 13.1). -/
def tableLevels : List (Nat × Nat × Nat) := [(0, 39, 18), (1, 30, 9), (2, 21, 9), (3, 16, 5)]

/-- The entry of a versioned page, with the four frame words of its quad (R330, R348). -/
def State.quadEntry (s : State) (part base log2 set a : Nat) : Walk :=
  match s.physRead part a 32 with
  | .error cause => .bad cause
  | .ok q => .entry ⟨part, base, log2, 0, true, true, some set, (List.range 4).map fun i => BitVec.ofNat 64 (q / 2 ^ (64 * i))⟩

def State.walkFrom (s : State) (part va : Nat) (t : Nat) : List (Nat × Nat × Nat) → Walk
  | [] => .page true
  | (lvl, lo, n) :: rest =>
    match s.physRead part (t + va / 2 ^ lo % 2 ^ n * 8) 8 with
    | .error cause => .bad cause
    | .ok x =>
      let e := BitVec.ofNat 64 x
      if e.getLsbD 63 = false then .page false
      else if badEntry e lvl lo then .page true
      else
        let a := wordField e 5 43 * 32
        let base := va / 2 ^ lo * 2 ^ lo
        match wordField e 61 2 with
        | 0 => s.walkFrom part va a rest
        | 1 => .entry ⟨part, base, lo, a, e.getLsbD 1, e.getLsbD 0, none, []⟩
        | _ => s.quadEntry part base lo (wordField e 50 6) a

def State.walkTable (s : State) (part : Nat) (va : Nat) : Walk :=
  s.walkFrom part va (NMap.get 0 s.hub.proot part).toNat tableLevels

/-- Codes that the reads of a walk meet, from a table down (R432). -/
def State.walkKeys (s : State) (part va : Nat) (t : Nat) : List (Nat × Nat × Nat) → List Nat
  | [] => []
  | (lvl, lo, n) :: rest =>
    let pa := t + va / 2 ^ lo % 2 ^ n * 8
    match s.physRead part pa 8 with
    | .error _ => codeKeys (cellarKey pa) 8
    | .ok x =>
      let e := BitVec.ofNat 64 x
      let a := wordField e 5 43 * 32
      codeKeys (cellarKey pa) 8 ++
        if e.getLsbD 63 = false ∨ badEntry e lvl lo then []
        else match wordField e 61 2 with
          | 0 => s.walkKeys part va a rest
          | 1 => []
          | _ => codeKeys (cellarKey a) 32

/-- The errors that a walk meets in the tables are corrected or reported (R432, R434). -/
def State.noteWalk (s : State) (part va : Nat) : State :=
  if s.soft = [] ∧ s.bad = [] then s
  else s.noteErrors (s.flagged (s.walkKeys part va (NMap.get 0 s.hub.proot part).toNat tableLevels))

/-- How a walk ends for an access (R334, R348): a translation to fill; a fault, by its code, with whether the page is
MALFORMED and the log2 of its bytes; or a translation of a page of a set for whose switch the access waits. -/
inductive WalkEnd where
  | fill (e : TEntry) | fault (code : Nat) (malformed : Bool) (log2 : Nat) | hold (set : Nat) (e : TEntry)
  deriving DecidableEq, Repr

/-- The walk has found a leaf. -/
def State.entryEnd (s : State) (v : Viewer) (e : TEntry) (write : Bool) : WalkEnd :=
  match e.wset with
  | none => if (write && !e.w) || (!write && !e.r) then .fault codeAccess false e.log2 else .fill e
  | some set =>
    match s.pickSlot v set write with
    | .fault => .fault codeAccess false e.log2
    | .wait => .hold set e
    | .slot n =>
      let f := e.quad[n]?.getD 0
      if f.getLsbD 63 = false then .fault codePage false e.log2
      else if badFrame f e.log2 then .fault codePage true e.log2
      else .fill e

def State.endOf (s : State) (v : Viewer) (write : Bool) : Walk → WalkEnd
  | .page malformed => .fault codePage malformed 16
  | .bad cause => .fault cause false 16
  | .entry e => s.entryEnd v e write

def State.walkEnd (s : State) (v : Viewer) (va : Nat) (write : Bool) : WalkEnd := s.endOf v write (s.walkTable v.part va)

/-- 64 KiB granule of a va. -/
def pageOf (va : Word) : Nat := va.toNat / 65536

/-- What an application core answers to a WALK request (R353). A frame answer is the leaf of a 64 KiB page in the layout of
Table 13.2, and of a versioned page names its set and its quad (DESIGN CHOICE, log 16). -/
def State.answered (s : State) (part page : Nat) (a : WalkAnswer) : Walk :=
  match a with
  | .frame e =>
    if wordField e 61 2 = 2 then s.quadEntry part (page * 65536) 16 (wordField e 50 6) (wordField e 5 43 * 32)
    else .entry ⟨part, page * 65536, 16, wordField e 16 32 * 65536, e.getLsbD 1, e.getLsbD 0, none, []⟩
  | .notPresent => .page false
  | .malformed => .page true
  | .access => .bad codeAccess

/-- Sets of a TLB of 8 ways; the set of an entry (DESIGN CHOICE, log 16: the page's number in its own size). -/
def TEntry.setIn (e : TEntry) (sets : Nat) : Nat := e.base / 2 ^ e.log2 % sets

/-- An entry enters the L2 slice of a tile, or a base die's TLB: a full set loses the entry least recently used (R349). -/
def addEntry (e : TEntry) (sets : Nat) (tlb : List TEntry) : List TEntry :=
  let rest := tlb.filter fun x => !(x.part == e.part && x.base == e.base && x.log2 == e.log2)
  let inSet (x : TEntry) : Bool := x.setIn sets == e.setIn sets
  e :: (if (rest.filter inSet).length < 8 then rest else (rest.reverse.eraseP inSet).reverse)

def State.fillL2 (s : State) (part va : Nat) (e : TEntry) : State :=
  s.onTile (s.homeSlice part va) fun t => { t with l2 := addEntry e 512 t.l2 }

/-- The base die that serves the gathers of a tile. -/
def baseDieOf (tile : Nat) : Nat := 2 * dieOf tile + tile % 2

def State.fillBase (s : State) (tile : Nat) (e : TEntry) : State :=
  let b := baseDieOf tile
  { s with hub := { s.hub with base := NMap.set [] s.hub.base b (addEntry e 1024 (NMap.get [] s.hub.base b)) } }

/-- The result of a walk in a trace record (R361): 0 a frame, a code of Table 8.7, 8 more for a MALFORMED page. -/
def WalkEnd.result : WalkEnd → Nat
  | .fault code malformed _ => if malformed then code + 8 else code
  | .fill _ | .hold .. => 0

def WalkEnd.pageFault : WalkEnd → Bool
  | .fault code _ _ => code == codePage
  | .fill _ | .hold .. => false

/-- What a walk comes to for the accesses that wait for its page: the first of them that meets no page fault. -/
def State.bestEnd (s : State) (x : Walk) (vs : List (Viewer × Bool)) : WalkEnd :=
  let ends := vs.map fun v => s.endOf v.1 v.2 x
  (ends.find? fun y => !y.pageFault).getD (ends.headD (.fault codePage false 16))

/-- The trace shows that a home slice walks for no walker of a tile, or that such a walk is over (R361). -/
def State.traceSlice (s : State) (part va : Nat) (host : Bool) (result : Nat) : State :=
  let slice := s.homeSlice part va
  s.traceAt 7 0 slice part 0 [.word slice, .long va, .word (if host then 1 else 0), .word result, .long s.clk]

/-- A walk of a home slice for some accesses is over: the slice is filled from a leaf. -/
def State.sliceOver (s : State) (part va : Nat) (host : Bool) (x : Walk) (vs : List (Viewer × Bool)) : State × WalkEnd :=
  let y := s.bestEnd x vs
  let s := s.traceSlice part va host y.result
  (match y with
    | .fill e | .hold _ e => s.fillL2 part va e
    | .fault .. => s, y)

/-- The home slice of a page walks it for an agent that is no stream, copy or edge element: at once, or in host-assisted
mode by a request, whose answer it then takes (R353, R429); none while that is still to come. vs: the accesses that wait. -/
def State.sliceWalk (s : State) (part va : Nat) (write : Bool) (vs : List (Viewer × Bool)) : State × Option WalkEnd :=
  let page := va / 65536
  match s.hub.walks.find? fun w => w.part == part && w.page == page && w.write == write with
  | some w => match w.answer with
    | none => (s, none)
    | some a =>
      let s : State := { s with hub := { s.hub with walks := s.hub.walks.filter fun x => x.req != w.req } }
      let (s, y) := s.sliceOver part va true (s.answered part page a) vs
      (s, some y)
  | none =>
    let host := s.splitBit part 0
    let s := s.traceSlice part va host 0
    if !host then
      let (s, y) := (s.noteWalk part va).sliceOver part va false (s.walkTable part va) vs
      (s, some y)
    else
      let (n, s) := s.hubRequest 1 part (s.homeSlice part va) 0 [BitVec.ofNat 64 va, if write then 1 else 0]
      ({ s with hub := { s.hub with walks := s.hub.walks ++ [{ part := part, page := page, write := write, req := n }] } }, none)

/-- A viewer for a write that arrives for a partition. -/
def State.partViewer (s : State) (p : Nat) : Viewer := { k := ⟨255, 255⟩, launch := 0, part := p, epoch := 0, view := s.viewOf p, staging := s.stagingOf p }

/-! ## Walkers -/

/-- What a walker asks for: the page of an address, for a read or a write; its request, in the mode that SPLIT.WALK had when
it began to ask (R353, R429). -/
structure WalkAsk where
  va : Word
  write : Bool
  req : Option Nat
  host : Bool
  deriving DecidableEq, Repr

def WalkState.ask : WalkState → Option WalkAsk
  | .waiting va write req host _ => some ⟨va, write, req, host⟩
  | .fault .. => none

/-- An agent of a tile that waits for a walk: a command, an element that it diverted, an edge element. -/
inductive Walker where
  | run (c : Ctx) (r : Run) (a : WalkAsk)
  | div (c : Ctx) (r : Run) (d : Diverted) (a : WalkAsk)
  | edge (c : Ctx) (h i : Nat) (e : EdgeAcc) (a : WalkAsk)

def State.walkersOf (_ : State) (c : Ctx) : List Walker :=
  (c.runs.flatMap fun r =>
    ((r.walk.bind WalkState.ask).map fun a => Walker.run c r a).toList
    ++ r.diverted.filterMap fun d => (d.walk.bind WalkState.ask).map fun a => .div c r d a)
  ++ c.secs.flatMap fun x => x.edges.zipIdx.filterMap fun (e, i) => (e.walk.bind WalkState.ask).map fun a => .edge c x.handle i e a

def State.walkers (s : State) (tile : Nat) : List Walker :=
  (s.everyCtx.filter fun c => c.id.tile == tile).flatMap s.walkersOf

def Walker.ask : Walker → WalkAsk
  | .run _ _ a | .div _ _ _ a | .edge _ _ _ _ a => a

def Walker.ctx : Walker → Ctx
  | .run c _ _ | .div c _ _ _ | .edge c _ _ _ _ => c

/-- The command of a walker. -/
def Walker.run? : Walker → Option Run
  | .run _ r _ | .div _ r _ _ => some r
  | .edge .. => none

/-- A base die walks for its gathers, and always in hardware (R353); every other walk is the home slice's. -/
def Walker.ofBase (w : Walker) : Bool := w.run?.any (·.isGather)

/-- A change to the command of a run, or to an element that it diverted. -/
def State.onRun (s : State) (r : Run) (f : Run → Run) : State :=
  s.onOwner r.cmd.ctx r.cmd.seq fun c => { c with runs := c.runs.map fun q => if q.cmd.seq = r.cmd.seq then f q else q }

def State.onDiverted (s : State) (r : Run) (d : Diverted) (f : Diverted → Diverted) : State :=
  s.onRun r fun q => { q with diverted := q.diverted.map fun x => if x = d then f x else x }

/-- A change to edge access i of a section of a task, resident or pre-empted. -/
def State.onEdge (s : State) (c : Ctx) (h i : Nat) (e : EdgeAcc) : State :=
  s.onOwner c.id c.seq fun c => { c with secs := c.secs.map fun y => if y.handle = h then y.setEdge i e else y }

/-- Write what a walk found into its walker. -/
def State.setWalk (s : State) (w : Walker) (x : Option WalkState) : State :=
  match w with
  | .run _ r _ => s.onRun r fun q => { q with walk := x }
  | .div _ r d _ => s.onDiverted r d fun d => { d with walk := x }
  | .edge c h i e _ => s.onEdge c h i { e with walk := x }

/-- The trace shows that the walk of a walker starts, or ends with a result (R361), with the clk (log 21): base die b is
number 128 + b, mode 1 is host-assisted. -/
def State.traceWalk (s : State) (w : Walker) (host : Bool) (result : Nat) : State :=
  let c := w.ctx
  let at_ := if w.ofBase then 128 + baseDieOf c.id.tile else s.homeSlice c.part w.ask.va.toNat
  s.trc 7 0 c [.word at_, .long w.ask.va.toNat, .word (if host then 1 else 0), .word result, .long s.clk]

/-- A leaf fills the TLB that the walk was for. The walker's L1, and the pages that a copy keeps, give up what they held for
the address, since that did not serve it. -/
def State.fillFor (s : State) (w : Walker) (e : TEntry) : State :=
  let c := w.ctx
  if w.ofBase then s.fillBase c.id.tile e
  else
    let others (l : List TEntry) : List TEntry := l.filter fun x => (findEntry [x] c.part w.ask.va.toNat).isNone
    let s := (s.fillL2 c.part w.ask.va.toNat e).onTile c.id.tile fun t => { t with l1 := others t.l1 }
    match w.run? with
    | some r => s.onRun r fun q => { q with srcPage := (others q.srcPage.toList).head?, dstPage := (others q.dstPage.toList).head? }
    | none => s

/-- A walk ends for a walker, whose access then goes on, waits for the switch that it meets, or faults (R335, R348, R353,
R354). The page of an element that is served again faults again in a new episode (R357). -/
def State.endWalk (s : State) (w : Walker) (host : Bool) (x : WalkEnd) : State :=
  let s := s.traceWalk w host x.result
  match x with
  | .fill e | .hold _ e => (s.fillFor w e).setWalk w none
  | .fault code _ log2 =>
    match w with
    | .div c r d a =>
      if code = codePage then
        (s.openEpisode c.id c.part a.va log2 a.write (r.cmd.slot.getD 48)).onDiverted r d fun d => { d with va := a.va, walk := none }
      else s.setWalk w (some (.fault a.va code log2))
    | _ => s.setWalk w (some (.fault w.ask.va code log2))

/-- How a walker sees versioned pages. -/
def State.walkViewer (s : State) (w : Walker) : Viewer :=
  match w with
  | .run c r _ => s.runViewer c r r.seen
  | .div c r d _ => s.runViewer c r d.seen
  | .edge c _ _ e _ => s.edgeViewer c e

/-- Walker i of a tile: in hardware mode, and for a base die, its walk ends; in host-assisted mode its request is posted
once (R353). -/
def execPageWalkComplete (tile i : Nat) (s : State) : Out :=
  match (s.walkers tile)[i]? with
  | none => .next s
  | some w =>
    let a := w.ask
    let c := w.ctx
    if a.req.isSome then .next s
    else if a.host && !w.ofBase then
      let s := s.traceWalk w true 0
      let (n, s) := s.hubRequest 1 c.part (s.homeSlice c.part a.va.toNat) c.id.num [a.va, if a.write then 1 else 0]
      .next (s.setWalk w (some (.waiting a.va a.write (some n) true s.clk)))
    else .next (((s.noteWalk c.part a.va.toNat).traceWalk w false 0).endWalk w false (s.walkEnd (s.walkViewer w) a.va.toNat a.write))

/-- An application core answers a WALK request (R353): the answer is that of the one walk that posted the request. -/
def execWalkAnswer (req : Nat) (a : WalkAnswer) (s : State) : Out :=
  match s.takeRequest req with
  | (none, s) => .next s
  | (some q, s) =>
    if q.kind ≠ 1 then .next s
    else
      let answer (w : PageWalk) : PageWalk := if w.req = req then { w with answer := some a } else w
      let s : State := { s with hub := { s.hub with walks := s.hub.walks.map answer } }
      let ws := (s.everyCtx.flatMap s.walkersOf).filter fun w => w.ask.req == some req
      .next (ws.foldl (fun s w =>
        s.endWalk w true (s.endOf (s.walkViewer w) w.ask.write (s.answered q.part (pageOf (q.args.headD 0)) a))) s)

/-! ## Diverted elements (R355, R357) -/

/-- The diverted elements of a tile, those of its pre-empted contexts among them (R357). -/
def State.divertedOf (s : State) (tile : Nat) : List (Ctx × Run × Diverted) :=
  (s.everyCtx.filter fun c => c.id.tile == tile).flatMap fun c => c.runs.flatMap fun r => r.diverted.map fun d => (c, r, d)

def Run.undivert (r : Run) (d : Diverted) : Run := { r with diverted := r.diverted.erase d }

/-- The accesses that wait for the page of an episode: of diverted elements, and of contexts under the built-in service of a
page (R357, R372). -/
def State.pageWaiters (s : State) (e : Episode) : List (Viewer × Bool) :=
  s.everyCtx.flatMap fun c =>
    (c.runs.flatMap fun r => (r.diverted.filter fun d => e.covers c.part d.va).map fun d => (s.runViewer c r d.seen, d.write))
    ++ (match c.builtin with
      | some (.page a _) => if e.covers c.part a then [(s.viewerNow c, false)] else []
      | _ => [])
    ++ (match c.aside with
      | some (a, _) => if e.covers c.part a then [(s.viewerNow c, false)] else []
      | none => [])

/-- Episodes of pages on which nothing waits any more end. -/
def State.closeEpisodes (s : State) : State :=
  { s with hub := { s.hub with episodes := s.hub.episodes.filter fun e => !(s.pageWaiters e).isEmpty } }

/-- What serving an element comes to: served, or a fault code; waiting, for a walk or for presence. -/
inductive Served where
  | done (s : State) (r : Run)
  | wait (r : Run)
  | fault (code : Nat)

def Served.ofMoved : Moved → Served
  | .on s q => .done s q
  | .wait q => .wait q
  | .stop _ q => .fault ((q.fault.map (·.1)).getD codeAccess)

/-- The index of a diverted element of SINDW is read, and the element is written behind those diverted before it (R227,
R355). -/
def State.serveIndex (s : State) (c : Ctx) (r : Run) (d : Diverted) : Served :=
  let before : Run := { r with diverted := r.diverted.filter fun x => decide (x.n < d.n) }
  match s.unitAddress c before d.n with
  | .wait q => .wait q
  | .fault code _ => .fault code
  | .got (raw, o) q =>
    if o ≠ 0 then .done s ({ q with diverted := r.diverted }.poisonBy o)
    else if !r.spaceOk then .fault codeAccess
    else match s.runWrite c q r.sp raw (toBytes d.size d.data) with
      | .wait q => .wait q
      | .fault code _ => .fault code
      | .got (s, o) q => .done s (if o = 0 then { q with diverted := r.diverted } else { q with diverted := r.diverted }.poisonBy o)

/-- A diverted piece of a copy: written with its data, or read and then written or sent. -/
def State.serveCopy (s : State) (c : Ctx) (r : Run) (d : Diverted) : Served :=
  if d.write then .ofMoved (s.pieceOut c r d.n (toBytes d.size d.data))
  else match s.copyRead c r d.n d.size with
    | .wait q => .wait q
    | .fault code _ => .fault code
    | .got (v, o) q =>
      if r.remoteCopy then
        let lane := r.f.lane.toNat
        match formAddr 8 (r.dstAt d.n) with
        | none => .fault codeAccess
        | some a =>
          if o ≠ 0 then .done s { q.poisonBy o with pos := d.n + d.size }
          else
            let pkt : Packet :=
              { op := .write, first := false, last := decide (d.n + d.size = r.total), nf := false, poison := false, sub := 0,
                ty := 8, len := d.size, src := 0, gsid := 0, seq := 0, daddr := BitVec.ofNat 64 (wordField a 0 50),
                data := BitVec.ofNat 512 v, good := true }
            if !s.windowOpen c lane (addrPkg a) then .wait q
            else .done (s.sendPkt c lane (addrPkg a) r.cmd.seq d.n 0 pkt) { q.moved (toBytes d.size v) 0 with pos := d.n + d.size }
      else if o ≠ 0 then .done s (q.moved [] o)
      else .ofMoved (s.pieceOut c q d.n (toBytes d.size v))

/-- Serve a diverted element in place: a write with its data, a copy piece, a weight chunk, a read for a door. -/
def State.serve (s : State) (c : Ctx) (r : Run) (d : Diverted) : Served :=
  let r0 := { r.undivert d with walk := d.walk, defers := d.defers, heldFor := d.heldFor, seen := d.seen }
  if d.index then s.serveIndex c r0 d
  else if r.rowCopy then s.serveCopy c r0 d
  else if d.write then
    match s.writePlace (s.runPlace c r true d.addr) (toBytes d.size d.data) (some (r.cmd.ctx, r.cmd.seq)) with
    | .done s => .done (s.useTlb c r d.addr) r0
    | .poison cause => .done s (r0.poisonBy (engOrigin cause c.id.tile (engineCode r.cmd.op)))
    | .wait => .wait r0
    | .hold set => .wait { r0 with heldFor := some set }
    | .walk => match walkPoison c (s.askWalk c r0 d.addr true) id with
      | .got o q => .done s (q.poisonBy o)
      | .wait q => .wait q
      | .fault code _ => .fault code
    | .fault code => .fault code
  else if r.wload then
    let (k, n) := s.loadShape c r
    match s.runRead c r0 (space d.addr) d.addr d.size with
    | .wait q => .wait q
    | .fault code _ => .fault code
    | .got (v, o) q =>
      let q := q.patchLoad d k n (if o = 0 then v else 0)
      .done (s.useTlb c r d.addr) (if o = 0 then q else q.poisonBy o)
  else match s.readUnit c r0 d.n with
    | .wait q => .wait q
    | .fault code _ => .fault code
    | .got (g, raw) q =>
      let q := { q with got := q.got ++ [g] }
      .done (s.useTlbs c r d.n raw) (if g.poison = 0 then q else q.poisonBy g.poison)

/-- The element of a diverted entry, for the fault code. -/
def State.divertedElem (s : State) (c : Ctx) (r : Run) (d : Diverted) : Nat :=
  if r.wload then
    let (k, n) := s.loadShape c r
    r.pieceElem k n d.n
  else d.n

/-- An element that cannot be served stops its command (R225, R357). -/
def State.stopDiverted (s : State) (c : Ctx) (r : Run) (d : Diverted) (code : Nat) : State :=
  let s := s.trc 7 1 c [.word c.id.tile, .word (r.cmd.slot.getD 48), .long d.va.toNat, .word (s.spillUsed c.id.tile)]
  (s.putRun ((r.undivert d).stopAt code (s.divertedElem c r d))).closeEpisodes

/-- Element i of a tile's fault spill queue is served, when no episode of its page is open. The service goes on while its
context is not resident: its regions are parked in place, or stand in its image (R357, R384). -/
def execDivertedElementServed (tile i : Nat) (s : State) : Out :=
  match (s.divertedOf tile)[i]? with
  | none => .next s
  | some (c, r, d) =>
    if (d.walk.bind WalkState.ask).isSome || s.hub.episodes.any fun e => e.covers c.part d.va then .next s
    else match s.serve c r d with
      | .done s q =>
        let s := s.trc 7 1 c [.word tile, .word (r.cmd.slot.getD 48), .long d.va.toNat, .word (s.spillUsed tile)]
        .next (s.putRun { q with walk := r.walk, defers := r.defers, heldFor := r.heldFor, seen := r.seen }).closeEpisodes
      | .wait q =>
        -- a wait for a version switch that begins is shown (R344)
        let s := match d.heldFor, q.heldFor with
          | none, some set => s.trc 6 2 c [.word c.id.num, .word set]
          | _, _ => s
        .next (s.onDiverted r d fun d => { d with walk := q.walk, defers := q.defers, heldFor := q.heldFor, seen := (q.present (s.viewerNow c)).seen })
      | .fault code => .next ((s.traceOnce c (engineCode r.cmd.op) code d.addr).stopDiverted c r d code)

/-- The home slice walks the page of an episode; in host-assisted walk mode by a request (R353). Where that succeeds for one
of those that wait, or ends for it otherwise than by a page fault, the episode ends (R357). -/
def State.rewalk (s : State) (e : Episode) : State :=
  let vs := s.pageWaiters e
  match s.sliceWalk e.part e.base (vs.headD (s.partViewer e.part, false)).2 vs with
  | (s, none) => s
  | (s, some y) =>
    let mine (x : Episode) : Bool := x.part == e.part && x.base == e.base && x.log2 == e.log2
    if y.pageFault then
      { s with hub := { s.hub with episodes := s.hub.episodes.map fun x => if mine x then { x with lastWalk := s.clk } else x } }
    else { s with hub := { s.hub with episodes := s.hub.episodes.filter fun x => !mine x } }

/-- In hardware mode the page of open episode i of a tile is walked again every 65,536 clk (R357). -/
def execPeriodicRewalk (tile i : Nat) (s : State) : Out :=
  match (s.hub.episodes.filter fun e => e.tile == tile)[i]? with
  | none => .next s
  | some e =>
    let asked := s.hub.walks.any fun w => w.part == e.part && w.page == e.base / 65536 && w.answer.isSome
    if e.req.isSome || (decide (s.clk < e.lastWalk + 65536) && !asked) then .next s else .next (s.rewalk e)

/-- A context under the built-in service of a page that is unresolvable halts (R372). -/
def State.haltPage (s : State) (c : Ctx) : State :=
  let tval := match c.aside with
    | some (a, _) => a
    | none => c.sys.tval
  (s.onCtx c.id fun c => { c with builtin := none, aside := none }).haltCtx c.id ⟨.page, true, tval, c.sys.tpc⟩

/-- Every element diverted on the page of an episode stops its command; a context under built-in service of the page halts
(R357, R372). -/
def State.unresolvedPage (s : State) (e : Episode) : State :=
  let es := s.everyCtx.flatMap fun c => c.runs.flatMap fun r => (r.diverted.filter fun d => e.covers c.part d.va).map fun d => (c, r.cmd.seq, d)
  let s := es.foldl (fun s (c, n, d) => match (s.owner c.id n).bind fun c => (c.runs.find? fun r => r.cmd.seq == n).map fun r => (c, r) with
    | some (c, r) => s.stopDiverted c r d codePage
    | none => s) s
  let hit (c : Ctx) : Bool := match c.builtin with
    | some (.page a _) => e.covers c.part a
    | _ => c.aside.any fun a => e.covers c.part a.1
  let s := (s.ctxs.filter hit).foldl State.haltPage s
  { s with hub := { s.hub with episodes := s.hub.episodes.filter fun x => x != e } }

/-- Contexts of a tile under the built-in service of a page (R372). -/
def State.servedPages (s : State) (tile : Nat) : List (Ctx × Word) :=
  (s.ctxs.filter fun c => c.id.tile == tile).filterMap fun c => match c.builtin with
    | some (.page a _) => some (c, a)
    | _ => c.aside.map fun a => (c, a.1)

/-- In hardware mode a page that stays faulted for 2^24 clk is unresolvable (R357): diverted element i of a tile, and behind
the diverted elements the contexts under the built-in service of a page (R372). -/
def execUnresolvable (tile i : Nat) (s : State) : Out :=
  let openOn (part : Nat) (a : Word) : Option Episode := s.hub.episodes.find? fun e => e.covers part a && e.req.isNone
  match (s.divertedOf tile)[i]? with
  | some (c, r, d) =>
    if d.since + 2 ^ 24 ≤ s.clk ∧ (openOn c.part d.va).isSome then .next (s.stopDiverted c r d codePage) else .next s
  | none => match (s.servedPages tile)[i - (s.divertedOf tile).length]? with
    | some (c, a) =>
      if (openOn c.part a).any fun e => decide (e.since + 2 ^ 24 ≤ s.clk) then .next (s.haltPage c).closeEpisodes else .next s
    | none => .next s

/-- An application core answers a FAULT request (R357): RETRY ends the episode, so that its elements are tried again. -/
def execFaultAnswer (req : Nat) (retry : Bool) (s : State) : Out :=
  match s.takeRequest req with
  | (none, s) => .next s
  | (some q, s) =>
    match s.hub.episodes.find? fun e => e.req == some req with
    | none => .next s
    | some e =>
      if q.kind ≠ 2 then .next s
      else if retry then .next { s with hub := { s.hub with episodes := s.hub.episodes.filter fun x => x.req != some req } }
      else .next (s.unresolvedPage e)

/-! ## Dropping translations (R352, R359) -/

def TEntry.overlaps (e : TEntry) (part lo hi : Nat) : Bool :=
  e.part == part && decide (e.base < hi) && decide (lo < e.base + 2 ^ e.log2)

/-- Every entry of a partition that overlaps a range is dropped everywhere, and walks of covered pages start again, those whose
request is not answered too: an answer to the old request then finds no walk (R359). The number of entries. -/
def State.dropEntries (s : State) (part lo hi : Nat) : State × Nat :=
  let hit (e : TEntry) : Bool := e.overlaps part lo hi
  let n (es : List TEntry) : Nat := (es.filter hit).length
  let keep (es : List TEntry) : List TEntry := es.filter fun e => !hit e
  let tiles := (s.tiles.map fun t => n t.l1 + n t.l2).foldl (· + ·) 0
  let bases := (s.hub.base.map fun b => n b.2).foldl (· + ·) 0
  let copies := (s.everyCtx.flatMap fun c => c.runs.map fun r => n (r.srcPage.toList ++ r.dstPage.toList)).foldl (· + ·) 0
  let again (w : Option WalkState) : Option WalkState := match w with
    | some (.waiting va _ _ _ _) | some (.fault va _ _) => if lo ≤ va.toNat ∧ va.toNat < hi then none else w
    | none => none
  let upd (c : Ctx) : Ctx :=
    if c.part ≠ part then c
    else { c with runs := c.runs.map fun r =>
                    { r with srcPage := r.srcPage.filter fun e => !hit e, dstPage := r.dstPage.filter fun e => !hit e, walk := again r.walk
                             diverted := r.diverted.map fun d => { d with walk := again d.walk } },
                  secs := c.secs.map fun x => { x with edges := x.edges.map fun e => if e.frozen then e else { e with walk := again e.walk } } }
  ({ s with c := upd s.c, others := s.others.map upd,
            tiles := s.tiles.map fun t => { t with l1 := keep t.l1, l2 := keep t.l2 },
            hub := { s.hub with saved := s.hub.saved.map (fun v => { v with ctx := upd v.ctx })
                                base := (s.hub.base.map fun b => (b.1, keep b.2)).filter (fun b => b.2 != [])
                                walks := s.hub.walks.filter fun w => !(w.part == part
                                  && decide (w.page * 65536 < hi) && decide (lo < (w.page + 1) * 65536)) } },
   tiles + bases + copies)

/-! ## The system engine (R358, R359, R373, R379) -/

/-- The range of a shoot-down. -/
def Run.shootRange (r : Run) : Nat × Nat :=
  if r.f.flags.getLsbD 0 then (0, 2 ^ 57) else (r.cmd.base.toNat, r.cmd.base.toNat + blkField r.blk 0 8)

def State.sysRec (s : State) (r : Run) (st : Status) (fault version bytes : Nat) : State :=
  s.finishCmd r { status := st, kind := 10, sid := 0, fault := BitVec.ofNat 32 fault, version := BitVec.ofNat 32 version, bytes := bytes }

/-- A frozen element presents its access again for a REPLAY, or for the built-in handling (R372, R373). -/
def EdgeAcc.again (e : EdgeAcc) (who : Option Nat) : EdgeAcc := { e with replay := some who, walk := none, defer := none, seen := none, heldFor := none }

/-- The system engine accepts CSYS. -/
def State.acceptCsys (s : State) (c : Ctx) (m : Command) : State :=
  let r : Run := { cmd := m }
  match s.readBlock c m with
  | .bad st f => (s.accepted m 0).sysRec r st f 0 0
  | .wait => s
  | .ok b =>
    let s := s.accepted m 0
    let r := { r with blk := b }
    let all := m.f.flags.getLsbD 0
    match m.op with
    | .csysShootdown _ =>
      if !blkZero b 8 56 then s.sysRec r .rsvd 0 0 0
      else if !all ∧ wordField m.base 57 7 ≠ 0 then s.sysRec r .fault codeAccess 0 0
      else if !all ∧ blkZero b 0 8 then s.sysRec r .ok 0 0 0
      else if !all ∧ 2 ^ 57 < r.shootRange.2 then s.sysRec r .badpb 0 0 0
      else
        let s := s.trc 7 3 c [.word c.id.num, .long r.shootRange.1, .long r.shootRange.2, .word 0, .long s.clk]
        s.onCtx c.id fun c => { c with waits := c.waits ++ [r] }
    | .csysReplay _ =>
      if !blkZero b 2 62 then s.sysRec r .rsvd 0 0 0
      else
        let named (x : Section) : Bool := all || (blkField b 0 2).testBit x.handle
        let n := (c.secs.map fun x => if named x then (x.edges.filter fun e => e.frozen && e.replay.isNone).length else 0).foldl (· + ·) 0
        if n = 0 then s.sysRec r .ok 0 0 0
        else s.onCtx c.id fun c =>
          { c with waits := c.waits ++ [{ r with bytes := n }],
                   secs := c.secs.map fun x => if named x then
                     { x with edges := x.edges.map fun e => if e.frozen ∧ e.replay.isNone then e.again (some m.seq) else e } else x }
    | _ =>
      let q := blkField b 0 4
      let x := blkField b 4 1
      if !blkZero b 5 59 then s.sysRec r .rsvd 0 0 0
      else if (q ≠ 0 ∧ (q < 256 ∨ 2 ^ 24 < q)) ∨ (x ≠ 255 ∧ 4 < x) then s.sysRec r .badpb 0 0 0
      else
        let quiet := if q = 0 then c.quiet else q
        let s := s.onCtx c.id fun c => { c with quiet := quiet, maxext := if x = 255 then c.maxext else x }
        s.sysRec r .ok 0 quiet c.extensions

/-- Shoot-downs that wait on a tile. -/
def State.shootdowns (s : State) (tile : Nat) : List (Ctx × Run) :=
  (s.ctxs.filter fun c => c.id.tile == tile).flatMap fun c => (c.waits.filter fun r => match r.cmd.op with
    | .csysShootdown _ => true
    | _ => false).map fun r => (c, r)

/-- Shoot-down i of a tile: once the earlier writes have reached PKG scope its entries are dropped, covered diverted
pages are walked again, and its record is written; an access is performed at once (log 14), so none is under way. -/
def execShootdownComplete (tile i : Nat) (s : State) : Out :=
  match (s.shootdowns tile)[i]? with
  | none => .next s
  | some (c, r) =>
    if !c.writesPassed r.cmd.seq then .next s
    else
      let (lo, hi) := r.shootRange
      let (s, n) := s.dropEntries c.part lo hi
      let es := s.hub.episodes.filter fun e => e.part == c.part && e.req.isNone && decide (e.base < hi) && decide (lo < e.base + 2 ^ e.log2)
      let s := es.foldl (fun s e => s.rewalk e) s
      let s := s.trc 7 3 c [.word c.id.num, .long lo, .long hi, .word n, .long s.clk]
      .next (s.sysRec r .ok 0 0 (n % 2 ^ 32))

end Sys2Proof.Machine
end

