-- ==== Sys2Proof/Machine/Links.lean ====
section
/-! DEFINITION. Links: the ingress, acknowledgements and resends, ports and planes, global time, time slots (R388 to R403,
R409, R410). What leaves the package is in the outbox until it is acknowledged; the other packages are outside the
model. -/

namespace Sys2Proof.Machine

/-! ## The envelope (R393) -/

/-- OP codes (Table 15.4); 5 to 15 are never sent. -/
def opCode : PacketOp → Nat
  | .write => 0
  | .bankop => 1
  | .version => 2
  | .coll => 3
  | .ack => 4

def opOfCode (n : Nat) : PacketOp :=
  match n with
  | 1 => .bankop
  | 2 => .version
  | 3 => .coll
  | 4 => .ack
  | _ => .write

/-- A field of an envelope: bits from a place on. -/
def wireField (w : Wire) (at_ n : Nat) : Nat := w.env.toNat / 2 ^ at_ % 2 ^ n

/-- CHECK of a packet: the CRC-32C of its bytes 0 to 27 and of its data bytes. -/
def wireCheck (w : Wire) : BitVec 32 := crc32c (toBytes 28 w.env.toNat ++ toBytes 64 w.data.toNat)

/-- The fields of a packet; its reserved bits are not looked at (log 31). -/
def wirePacket (w : Wire) : Packet :=
  { op := opOfCode (wireField w 0 4), first := w.env.getLsbD 4, last := w.env.getLsbD 5, nf := w.env.getLsbD 6, poison := w.env.getLsbD 7,
    sub := wireField w 8 8, ty := BitVec.ofNat 4 (wireField w 16 4), len := wireField w 24 8, src := wireField w 32 10,
    gsid := BitVec.ofNat 16 (wireField w 48 16), seq := BitVec.ofNat 32 (wireField w 64 32), daddr := BitVec.ofNat 64 (wireField w 128 64),
    data := w.data, good := wireField w 224 32 == (wireCheck w).toNat && decide (wireField w 0 4 < 5) }

/-- A packet as its sender puts it on the wire. -/
def packetWire (p : Packet) : Wire :=
  let bit (b : Bool) (i : Nat) : Nat := if b then 2 ^ i else 0
  let env := opCode p.op + bit p.first 4 + bit p.last 5 + bit p.nf 6 + bit p.poison 7 + 2 ^ 8 * (p.sub % 2 ^ 8) + 2 ^ 16 * p.ty.toNat
    + 2 ^ 24 * (p.len % 2 ^ 8) + 2 ^ 32 * (p.src % 2 ^ 10) + 2 ^ 48 * p.gsid.toNat + 2 ^ 64 * p.seq.toNat + 2 ^ 128 * p.daddr.toNat
  let w : Wire := ⟨BitVec.ofNat 256 env, p.data⟩
  ⟨BitVec.ofNat 256 (env + 2 ^ 224 * (wireCheck w).toNat), p.data⟩

/-- The acknowledgement that an ACK packet is, with what it reports, of which the spec gives no layout (log 31). -/
def packetAck (p : Packet) (st : AckStatus) : Ack := ⟨p.src, p.gsid, p.daddr.setWidth 32, st⟩

/-- The ACK packet of an acknowledgement, sent by a package. -/
def ackPacket (a : Ack) (src : Nat) : Packet :=
  { op := .ack, first := false, last := false, nf := false, poison := false, sub := 0, ty := 0, len := 0, src := src, gsid := a.gsid,
    seq := 0, daddr := a.upto.setWidth 64, data := 0, good := true }

/-! ## Commit (R395, Table 15.5) -/

/-- EN of a partition. -/
def State.enabled (s : State) (p : Nat) : Bool := (NMap.get pctlReset s.hub.pctl p).getLsbD 63

/-- Where an arriving access of a partition goes, with the translation that its walk fills (R353, R354). -/
def State.arrivalPlace (s : State) (part : Nat) (daddr : Word) : State × EPlace :=
  if wordField daddr 48 2 = 1 then (s, s.hallPlace part (wordField daddr 0 28))
  else
    let va := wordField daddr 0 48
    let v := s.partViewer part
    let walked : State × EPlace :=
      match s.sliceWalk part va true [(v, true)] with
      | (s, none) => (s, .walk)
      | (s, some (.fill e)) => (s, s.throughEntry v e va true)
      | (s, some (.fault code _ _)) => (s, .fault code)
      | (s, some (.hold set _)) => (s, .hold set)
    let h := s.homeSlice part va
    match findEntry (s.tile h).l2 part va with
    | some e => (match s.throughEntry v e va true with
      | .walk => walked
      | p => (s.onTile h fun t => { t with l2 := touchEntry e t.l2 }, p))
    | none => walked

/-- What a commit comes to: the state with what the acknowledgement reports; none while a bank holds a word (R293). -/
abbrev Committed := Option (State × AckStatus)

/-- Poison that the ingress meets: its cause, and below it a free value, since the spec names no tile and no engine for
it. -/
def State.ingressPoison (s : State) (cause : Nat) : State × AckStatus :=
  let (n, s) := s.draw (2 ^ 24)
  (s, .poison (BitVec.ofNat 32 (cause * 2 ^ 24 + n)))

def committed (s : State) (w : WResult) (seq : BitVec 32) : Committed :=
  match w with
  | .done s => some (s, .ok)
  | .wait | .walk | .hold _ => none
  | .poison cause => some (s.ingressPoison cause)
  | .fault code => if 256 ≤ code then some (s.ingressPoison (code - 256)) else some (s, .fault code seq)

/-- A WRITE, or a COLL without poison (R395). -/
def State.commitWrite' (s : State) (p : Packet) : Committed :=
  let (s, pl) := s.arrivalPlace (p.gsid.toNat / 4096) p.daddr
  committed s (s.writePlace pl ((toBytes 64 p.data.toNat).take p.len)) p.seq

/-- The elements of a BANKOP packet, in order; the first that faults is reported and the others are applied. -/
def State.commitOps (s : State) (p : Packet) (size : Nat) : Nat → AckStatus → Nat → Committed
  | 0, a, _ => some (s, a)
  | n + 1, a, i =>
    let (s1, pl) := s.arrivalPlace (p.gsid.toNat / 4096) (p.daddr + BitVec.ofNat 64 (i * size))
    match committed (s1.noteOp pl size) (s1.opPlace pl (edatmOp p.sub) size (elem (8 * size) p.data i)) p.seq with
    | none => none
    | some (s2, b) => s2.commitOps p size n (if a = .ok then b else a) (i + 1)

/-- A COLL packet: a write that carries NF, or a poisoned line with its origin. -/
def State.commitColl (s : State) (p : Packet) : Committed :=
  let (s, pl) := s.arrivalPlace (p.gsid.toNat / 4096) p.daddr
  match s.writePlace pl (toBytes 64 p.data.toNat), pl with
  | .done s, .stored key _ =>
    let line := key / 64
    let s := { s with hub := { s.hub with nfLines := NMap.set false s.hub.nfLines line p.nf,
                                          poisonLines := NMap.set 0 s.hub.poisonLines line (if p.poison then p.data.setWidth 32 else 0) } }
    some ({ s with bad := if p.poison then (codeKeys key 64).foldl (fun b k => NMap.set false b (k / 8) true) s.bad else s.bad }, .ok)
  | w, _ => committed s w p.seq

/-- VERSION: SVSTAGE or SPUB as the partition GSID[15:12] (R339); none while an operation of the set waits, or a switch that
names it is complete and has not taken effect (R333, R343). -/
def State.commitVersion (s : State) (p : Packet) : Committed :=
  let part := p.gsid.toNat / 4096
  let n := p.daddr.toNat % 64
  let i := p.daddr.toNat / 256 % 4
  if (s.vopsOf n).isEmpty = false ∨ (p.sub ≠ 0 ∧ s.switchBefore s.stamp n) then none
  else
    let (s, a) := if p.sub = 0 then s.svstageNow part n
      else match s.spubCheck part n i with
        | some a => (s, a)
        | none => s.publish part n i
    some (s, .version a.status.code a.slot a.version)

def State.commitPacket (s : State) (p : Packet) : Committed :=
  match p.op with
  | .write => if p.poison then some (s, .poison (p.data.setWidth 32)) else s.commitWrite' p
  | .bankop =>
    let size := ElemType.bits (elemOfCode p.ty.toNat) / 8
    s.commitOps p size (if size = 0 then 0 else p.len / size) .ok 0
  | .version => s.commitVersion p
  | .coll => s.commitColl p
  | .ack => none

/-! ## The ingress (R394, R396) -/

def State.setIngress (s : State) (e : Ingress) : State :=
  { s with hub := { s.hub with ingress := s.hub.ingress.map fun x => if x.src = e.src ∧ x.gsid = e.gsid then e else x } }

/-- An acknowledgement of a stream up to a number; to another package it leaves by a port, on any plane (R396). -/
def State.sendAck (s : State) (e : Ingress) (upto : BitVec 32) : State :=
  let a : Ack := ⟨s.hub.pkg, e.gsid, upto, e.report⟩
  let s := if e.src = s.hub.pkg then { s with hub := { s.hub with acks := s.hub.acks ++ [a] } }
    else { s with hub := { s.hub with sentAcks := s.hub.sentAcks ++ [⟨e.src, ackPacket a s.hub.pkg, e.report⟩] } }
  s.setIngress { e with uncovered := 0, report := .ok, ackedAt := s.clk }

/-- A commit that waits has asked for the walk of its page, where an application core makes the walks (R353). -/
def State.askArrival (s : State) (p : Packet) : State :=
  match p.op with
  | .version => s
  | _ => (s.arrivalPlace (p.gsid.toNat / 4096) p.daddr).1

/-- Commit the packets of a stream that are next in sequence, held ones included. An ACK carries one report, so a second
one goes in an ACK of its own. fuel bounds the packets. -/
def State.commitHeld (s : State) (src : Nat) (gsid : BitVec 16) : Nat → State
  | 0 => s
  | fuel + 1 =>
    match s.hub.ingress.find? fun e => e.src == src && e.gsid == gsid with
    | none => s
    | some e =>
      match e.held.find? fun p => p.seq == e.next with
      | none => s
      | some p =>
        match s.commitPacket p with
        | none => s.askArrival p
        | some (s, a) =>
          -- a packet that arrived before this one is still held
          let s := if (e.held.head?).any (fun q => q.seq != e.next) then
            s.trcPkg 5 5 (gsid.toNat / 4096) [.word src, .word gsid.toNat, .word e.next.toNat] else s
          let flush := e.report != .ok && a != .ok
          let s := if flush then s.sendAck e (e.next - 1) else s
          let e := if flush then { e with uncovered := 0, report := .ok, ackedAt := s.clk } else e
          let e := { e with held := e.held.filter (fun q => q.seq != e.next), next := e.next + 1, uncovered := e.uncovered + 1,
                            since := if e.uncovered = 0 then s.clk else e.since, report := if a = .ok then e.report else a }
          let s := s.setIngress e
          let s := if 64 ≤ e.uncovered ∨ p.last then s.sendAck e (e.next - 1) else s
          s.commitHeld src gsid fuel

/-- Packets that wait in the reorder store for their place. -/
def State.heldPackets (s : State) : Nat := (s.hub.ingress.map fun e => e.held.length).foldl (· + ·) 0

/-- A source port learns that a package refused a packet of a stream: it will send it again on the same plane (R395). -/
def State.noteRefusal (s : State) (dpkg : Nat) (gsid : BitVec 16) (seq : BitVec 32) : State :=
  { s with hub := { s.hub with outbox := s.hub.outbox.map fun o =>
      if o.dpkg = dpkg ∧ o.pkt.gsid = gsid ∧ o.pkt.seq = seq then { o with refused := some s.clk } else o } }

/-- A refused packet (R394): its source, this package or another, hears of it. The port that the trace shows is the one it
came in by, which its envelope does not tell, so it is a free value (log 31). -/
def State.refuse (s : State) (p : Packet) (why : Nat) : State :=
  let (port, s) := s.draw 32
  let s := s.trcPkg 9 0 (p.gsid.toNat / 4096) [.word port, .word p.gsid.toNat, .word p.seq.toNat, .word why]
  if p.src = s.hub.pkg then s.noteRefusal s.hub.pkg p.gsid p.seq
  else { s with hub := { s.hub with sentAcks :=
    s.hub.sentAcks ++ [⟨p.src, ackPacket ⟨s.hub.pkg, p.gsid, p.seq, .refused why⟩ s.hub.pkg, .refused why⟩] } }

/-- A packet that is no acknowledgement reaches the ingress (R394). -/
def State.arrive (s : State) (p : Packet) : Out :=
  let s := { s with hub := { s.hub with local_ := s.hub.local_.erase p } }
  if !p.good || !s.enabled (p.gsid.toNat / 4096) then .next (s.refuse p 0)
  else
    let found := s.hub.ingress.find? fun e => e.src == p.src && e.gsid == p.gsid
    match found with
    | none =>
      if !p.first || decide (16384 ≤ s.hub.ingress.length) then .next (s.refuse p 1)
      else
        let e : Ingress := { src := p.src, gsid := p.gsid, next := p.seq, held := [p], ackedAt := s.clk }
        .next ({ s with hub := { s.hub with ingress := s.hub.ingress ++ [e] } }.commitHeld p.src p.gsid 65537)
    | some e =>
      let d := (p.seq - e.next).toNat
      -- number 0 outside the window begins the stream afresh (R317; log 31)
      if p.seq = 0 ∧ p.first ∧ 2 ^ 20 ≤ d then
        .next ((s.setIngress { src := p.src, gsid := p.gsid, next := 0, held := [p], ackedAt := s.clk }).commitHeld p.src p.gsid 65537)
      else if d = 0 then .next ((s.setIngress { e with held := e.held.filter (fun q => q.seq != p.seq) ++ [p] }).commitHeld p.src p.gsid 65537)
      else if d < 2 ^ 20 then
        if e.held.any fun q => q.seq == p.seq then .next s
        else if s.heldPackets < 65536 then .next (s.setIngress { e with held := e.held ++ [p] })
        else .next (s.refuse p 2)
      else .next (s.sendAck e (e.next - 1))

/-- Stream i of the ingress: 1,024 clk after its first commit that no ACK covers, an ACK is sent (R396). -/
def execAckTimer (i : Nat) (s : State) : Out :=
  match s.hub.ingress[i]? with
  | none => .next s
  | some e =>
    let s := s.commitHeld e.src e.gsid 65537
    match s.hub.ingress[i]? with
    | none => .next s
    | some e => if e.uncovered ≠ 0 ∧ e.since + 1024 ≤ s.clk then .next (s.sendAck e (e.next - 1)) else .next s

/-- Entry i of the ingress, idle and fully acknowledged for 2^24 clk, is reclaimed, least recently used first (R394). -/
def execStreamEntryReclaim (i : Nat) (s : State) : Out :=
  match s.hub.ingress[i]? with
  | none => .next s
  | some e =>
    let idle (e : Ingress) : Bool := e.held.isEmpty && e.uncovered == 0 && decide (e.ackedAt + 2 ^ 24 ≤ s.clk)
    if !idle e || s.hub.ingress.any (fun x => idle x && decide (x.ackedAt < e.ackedAt)) then .next s
    else .next { s with hub := { s.hub with ingress := s.hub.ingress.eraseIdx i } }

/-! ## The source (R395, R396) -/

/-- Whether an acknowledgement covers a packet. -/
def Ack.covers (a : Ack) (o : OutPkt) : Bool :=
  o.dpkg == a.dest && o.pkt.gsid == a.gsid && decide ((a.upto - o.pkt.seq).toNat < 2 ^ 31)

/-- What an acknowledgement reports goes to the command of the packet (R225, R339). -/
def State.reportAck (s : State) (a : Ack) (covered : List OutPkt) : State :=
  let toRun (o : OutPkt) (f : Run → Run) : State :=
    s.onOwner o.k o.cmd fun c => { c with runs := c.runs.map fun r => if r.cmd.seq = o.cmd then f r else r }
  match a.status with
  | .ok | .refused _ => s
  | .fault code seq => match covered.find? fun o => o.pkt.seq == seq with
    | some o => toRun o fun r => r.stopAt code o.elem
    | none => s
  | .poison origin => match covered.find? fun o => o.pkt.poison || o.pkt.seq == a.upto with
    | some o => toRun o fun r => r.poisonBy origin
    | none => s
  | .version st slot version =>
    match covered.find? fun o => o.pkt.op == .version with
    | none => s
    | some o =>
      let status : Status := if st = 0 then .ok else if st = 2 then .fault else if st = 5 then .busy else if st = 14 then .slotbusy else .state
      let ans : VAnswer := { status := status, fault := if st = 2 then codeAccess else 0, slot := slot, version := version }
      match (s.owner o.k o.cmd).bind fun c => c.waits.find? fun r => r.cmd.seq == o.cmd with
      | some r => s.versionRec r o.pkt.gsid.toNat ans
      | none => s

/-- An acknowledgement (R396): the packets it covers are retired and what it reports is recorded. A refusal covers none, and
its packet goes again (R395). -/
def State.takeAck (s : State) (a : Ack) : State :=
  match a.status with
  | .refused _ => s.noteRefusal a.dest a.gsid a.upto
  | _ =>
    let s := { s with hub := { s.hub with acks := s.hub.acks.erase a } }
    let covered := s.hub.outbox.filter (Ack.covers a)
    let s := { s with hub := { s.hub with outbox := s.hub.outbox.filter fun o => !Ack.covers a o } }
    s.reportAck a covered

/-- An ACK packet, or a refusal, arrives with what it reports; one with a failed CHECK is no acknowledgement, and its packets are sent
again (R396). -/
def execAckArrival (a : WireAck) (s : State) : Out :=
  let p := wirePacket a.wire
  if p.op = .ack ∧ p.good = true then .next (s.takeAck (packetAck p a.status)) else .next s

/-- A packet arrives (R393, R394). -/
def execPacketArrival (w : Wire) (s : State) : Out :=
  if (wirePacket w).op = .ack then execAckArrival ⟨w, .ok⟩ s else s.arrive (wirePacket w)

/-- The slot tag of the command of a packet: that of an SCOLL. -/
def State.tagOf (s : State) (o : OutPkt) : Nat :=
  match (s.owner o.k o.cmd).bind fun c => c.runs.find? fun r => r.cmd.seq == o.cmd with
  | none => 0
  | some r => match r.cmd.op with
    | .scoll _ => blkField r.blk 48 2
    | _ => 0

/-- Usable planes of a packet that was sent: the slots of the partition that sent it withhold (R401, R403). -/
def State.planesOf (s : State) (o : OutPkt) : List Nat := s.planes o.part o.dpkg (s.tagOf o)

/-- Packets that had no usable plane take one (R392, R403). -/
def State.assignPlanes (s : State) : State :=
  { s with hub := { s.hub with outbox := s.hub.outbox.map fun o =>
      if o.plane.isSome ∨ o.dpkg = s.hub.pkg then o
      else
        let us := s.planesOf o
        if us = [] then o else { o with plane := us[o.pkt.seq.toNat % us.length]?, sent := s.clk } } }

def State.setOut (s : State) (i : Nat) (o : OutPkt) : State := { s with hub := { s.hub with outbox := s.hub.outbox.set i o } }

/-- A packet goes again. -/
def State.resend (s : State) (i : Nat) (o : OutPkt) : State :=
  let s := s.trcPkg 9 0 (o.pkt.gsid.toNat / 4096) [.word (dieOf o.k.tile * 4 + o.plane.getD 0), .word o.pkt.gsid.toNat, .word o.pkt.seq.toNat, .word 3]
  let s := s.setOut i { o with sent := s.clk, refused := none }
  if o.dpkg = s.hub.pkg then { s with hub := { s.hub with local_ := s.hub.local_ ++ [o.pkt] } } else s

/-- Packet i of the outbox was refused 4,096 clk ago and goes again on its plane (R395). -/
def execRefusedPacketResend (i : Nat) (s : State) : Out :=
  match s.hub.outbox[i]? with
  | none => .next s
  | some o => match o.refused with
    | some t => if t + 4096 ≤ s.clk then .next (s.resend i o) else .next s
    | none => .next s

/-- Packet i of the outbox, sent 65,536 clk ago and not covered, goes again on the next usable plane (R396). -/
def execUnackedPacketResend (i : Nat) (s : State) : Out :=
  match s.hub.outbox[i]? with
  | none => .next s
  | some o =>
    if s.clk < o.sent + 65536 ∨ o.refused.isSome then .next s
    else
      let us := s.planesOf o
      let next := match o.plane with
        | some p => match us.find? fun q => decide (p < q) with
          | some q => some q
          | none => us.head?
        | none => us.head?
      .next (s.resend i { o with plane := if o.dpkg = s.hub.pkg then none else next })

/-- Packet i of the outbox, not acknowledged for 2^26 clk, raises ORDERWIN in its context, once (R395, Table 14.1). -/
def execOrderwin (i : Nat) (s : State) : Out :=
  match s.hub.outbox[i]? with
  | none => .next s
  | some o =>
    if o.late ∨ s.clk < o.first + 2 ^ 26 then .next s
    else match s.raiseOwner o.k o.cmd .orderwin (BitVec.ofNat 64 (o.lane + o.pkt.seq.toNat * 2 ^ 32)) with
      | none => .next s
      | some s => .next (s.setOut i { o with late := true })

/-! ## Ports and planes (R388, R391, R392) -/

/-- The link of a port goes down: its plane's bit reads clear in every ROUTEn until it retrains. -/
def execPortDown (port : Nat) (s : State) : Out :=
  let s := s.trcPkg 9 1 0 [.word port, .word (port % 4)]
  .next { s with hub := { s.hub with portDown := NMap.set false s.hub.portDown port true } }

/-- A port retrains: with every port of its plane up, what waits for the plane leaves. -/
def execPortUp (port : Nat) (s : State) : Out :=
  let s := s.trcPkg 9 1 0 [.word port, .word (port % 4)]
  .next { s with hub := { s.hub with portDown := NMap.set false s.hub.portDown port false } }.assignPlanes

/-! ## Global time (R397, R398) -/

/-- A sync message with the servo's offset estimate, in signed ticks. -/
def execPtpSyncMessage (offset : BitVec 32) (s : State) : Out :=
  let o := offset.toInt
  let good := if o.natAbs ≤ 40 then s.hub.good + 1 else 0
  let locked := if s.locked then decide (o.natAbs ≤ 56) else decide (16 ≤ good)
  let step := if !s.locked ∧ 2 ^ 20 < o then o.toNat else 0
  let slew : BitVec 2 := if step ≠ 0 ∨ o = 0 then 0 else if 0 < o then 2 else 1
  let s := if locked != s.locked ∨ step ≠ 0 then s.trcPkg 9 2 0 [.word offset.toNat, .word step] else s
  .next { s with locked := locked, hub := { s.hub with
    good := Nat.min good 16, offset := offset, slew := slew, ever := s.hub.ever || locked, lastSync := s.clk,
    advance := if step = 0 then s.hub.advance else 1 + step } }

/-- No sync message for 2 s of 0.25 ns clk: the servo unlocks. -/
def execSyncTimeout (s : State) : Out :=
  if s.locked ∧ s.hub.lastSync + 8000000000 ≤ s.clk then
    .next { s.trcPkg 9 2 0 [.word s.hub.offset.toNat, .word 0] with locked := false, hub := { s.hub with good := 0 } }
  else .next s

/-- Whether the servo may slew by n in this clk: in the direction that it slews, with no slew clk among the last 5,000, in a
clk without a step (R397). -/
def State.maySlew (s : State) (n : Nat) : Bool :=
  ((n == 0 && s.hub.slew == 1) || (n == 2 && s.hub.slew == 2)) && s.hub.advance == 1
    && s.hub.lastSlew.all fun t => decide (t + 5000 ≤ s.clk)

/-- In a slew clk, GTIME advances by 0 or 2, at most once in 5,000 clk, towards the servo's estimate (R397). -/
def execSlewClk (n : Nat) (s : State) : Out :=
  if s.maySlew n then .next { s with hub := { s.hub with advance := n, lastSlew := some s.clk } } else .next s

/-- GTSTAT as hub software reads it (Table 15.6). -/
def State.gtstat (s : State) : Word :=
  BitVec.ofNat 64 ((if s.locked then 2 ^ 63 else 0) + (if s.hub.ever then 2 ^ 62 else 0) + s.hub.slew.toNat * 2 ^ 60
    + s.hub.offset.toNat)

/-! ## Time slots (R401 to R403) -/

/-- A slot of a partition's table begins: what waits for its planes leaves. Which planes a slot withholds follows from
GTIME (slotNow). -/
def execTimeSlotStart (p : Nat) (s : State) : Out := if (NMap.get {} s.hub.slots p).entries = [] then .next s else .next s.assignPlanes

/-- What reading a slot table gives; the bank of a part of it still serves others before it. -/
inductive SlotRead where
  | wait
  | bad (st : Status) (fault : BitVec 32)
  | ok (t0 : Word) (es : List SlotEntry) (rsvd range : Bool)

/-- The header and entries, by control reads of 16 bytes (R402, R468). -/
def State.readSlots (s : State) (c : Ctx) (v : Viewer) (a : Word) : Nat → List Nat → SlotRead
  | 0, acc =>
    let hd := acc.headD 0
    let es := acc.drop 1
    .ok (BitVec.ofNat 64 hd) (es.map fun e => ⟨e % 2 ^ 32, e / 2 ^ 32 % 16, e / 2 ^ 48 % 2 ^ 16⟩)
      (hd / 2 ^ 64 != 0 || es.any fun e => e / 2 ^ 40 % 256 != 0 || e / 2 ^ 64 != 0)
      (es.any fun e => e % 2 ^ 32 < 1024 || decide (4000000 < e % 2 ^ 32) || e / 2 ^ 36 % 16 != 0)
  | n + 1, acc =>
    match s.ctlRead c v [] 4 (a + BitVec.ofNat 64 (16 * acc.length)) 16 with
    | .value x _ => s.readSlots c v a n (acc ++ [x])
    | .poison o => .bad .poison o
    | .fault code => .bad .fault (BitVec.ofNat 32 code)
    | .wait => .wait
    | _ => .bad .fault (BitVec.ofNat 32 codeAccess)

/-- The slot table that an SSLOT names, once its address is good (R402). -/
def State.slotTable (s : State) (c : Ctx) (m : Command) : SlotRead :=
  match (if m.f.space = 1 ∨ m.f.space = 2 then formAddr m.f.space.toNat m.base else none) with
  | none => .bad .fault (BitVec.ofNat 32 codeAccess)
  | some a =>
    if a.toNat % 16 ≠ 0 then .bad .fault (BitVec.ofNat 32 codeAlign)
    else s.readSlots c (m.viewer c) a (m.f.imm.toNat % 2 ^ 11 + 1) []

/-- The collective engine accepts SSLOT (R402). -/
def State.acceptSslot (s : State) (c : Ctx) (m : Command) : State :=
  let n := m.f.imm.toNat % 2 ^ 11
  let ends (s : State) (st : Status) (f : BitVec 32) (bytes : Nat) : State :=
    (s.accepted m 0).finishCmd { cmd := m } { status := st, kind := 9, sid := 0, fault := f, bytes := bytes }
  match s.slotTable c m with
  | .wait => s
  | .bad st f => ends s st f 0
  | .ok t0 es rsvd range =>
    if rsvd then ends s .rsvd 0 0
    else if range ∨ wordField (NMap.get pctlReset s.hub.pctl c.part) 45 11 < n then ends s .badpb 0 0
    else
      let s := { s with hub := { s.hub with slots := NMap.set {} s.hub.slots c.part ⟨t0, es⟩ } }
      ends (s.trcPkg 9 3 c.part [.word c.part, .word n, .long t0.toNat]).assignPlanes .ok 0 n

end Sys2Proof.Machine
end

