-- ==== Sys2Proof/Machine/Collect.lean ====
section
/-! DEFINITION. The collective engine: SCOLL (R404 to R408). An act of the engine handles one chunk. -/

namespace Sys2Proof.Machine

/-! ## The block (Table 15.7) -/

def Run.kRanks (r : Run) : Nat := blkField r.blk 4 2
def Run.kRbuf (r : Run) : Word := blkWord r.blk 24
def Run.kStart (r : Run) : Nat := blkField r.blk 40 8
def Run.kTag (r : Run) : Nat := blkField r.blk 48 2

/-- H (R406). -/
def Run.kHalf (r : Run) : Nat := r.kChunks * 64

def Run.kNfin (r : Run) : Bool := r.f.flags.getLsbD 0
def Run.kSkip (r : Run) : Bool := r.f.flags.getLsbD 1

/-- Whether this rank makes the results. -/
def Run.kMakes (r : Run) : Bool := if r.kBroadcast then r.kRank == r.kRoot else r.kRank + 1 == r.kRanks

/-- Types that OP and RED allow. -/
def Run.kTypeOk (r : Run) : Bool :=
  let red := blkField r.blk 1 1
  if r.kBroadcast then red == 0 && decide (r.f.ty.toNat ≤ 9)
  else decide (red ≤ 2) && (r.ty == .f32 || r.ty == .bf16 || r.ty == .f16 || r.ty == .i32 || r.ty == .i64)

/-- Whether 2H bytes from RBUF lie in SYNC Hall regions of the partition. -/
def State.rbufOk (s : State) (part : Nat) (r : Run) : Bool :=
  (List.range (2 * r.kChunks)).all fun i => match s.hallOf part (wordField r.kRbuf 0 28 + 64 * i) with
    | some (_, .sync) => true
    | _ => false

/-- BADPB without the GROUP array; the space of DST is the rule of R55 (item 3 of R405). -/
def State.collBadpb (s : State) (c : Ctx) (r : Run) : Bool :=
  let g := blkWord r.blk 16
  decide (1 < blkField r.blk 0 1) || !r.kTypeOk || decide (6 < blkField r.blk 2 1 % 8) || decide (8 ≤ blkField r.blk 2 1)
    || r.kRanks == 0 || decide (1024 < r.kRanks) || decide (r.kRanks ≤ r.kRank)
    || r.kBytes == 0 || decide (2 ^ 24 < r.kBytes)
    || !(space g == 1 || space g == 2) || g.toNat % 2 != 0
    || space r.kRbuf != 1 || !zeroBitsOk r.kRbuf || r.kRbuf.toNat % 64 != 0 || !s.rbufOk c.part r
    || (r.kBroadcast && decide (r.kRanks ≤ r.kRoot))

/-- What reading the GROUP array gives; the bank of a part of it still serves others before it. -/
inductive GroupRead where
  | bad
  | wait
  | poison (o : BitVec 32)
  | ok (ps : List Nat)

def State.readGroup (s : State) (c : Ctx) (r : Run) : Nat → List Nat → GroupRead
  | 0, acc => .ok acc
  | n + 1, acc =>
    match s.ctlRead c (r.cmd.viewer c) [] 4 (blkWord r.blk 16 + BitVec.ofNat 64 (2 * acc.length)) 2 with
    | .value v _ => s.readGroup c r n (acc ++ [v])
    | .poison o => .poison o
    | .wait => .wait
    | _ => .bad

/-- The package has a route, or is this one (R390). -/
def State.routed (s : State) (n : Nat) : Bool := n == s.hub.pkg || (decide (n < 1024) && (NMap.get 0 s.hub.route n).getLsbD 63)

/-- The collective engine accepts SCOLL (R404, R405). The packages of the ranks are kept in marks. -/
def State.acceptScoll (s : State) (c : Ctx) (m : Command) : State :=
  let r : Run := { cmd := m }
  match s.readBlock c m with
  | .bad st f => s.failCmd r st f
  | .wait => s
  | .ok b =>
    let r := { r with blk := b }
    if !blkZero b 3 1 || !blkZero b 52 12 then s.failCmd r .rsvd 0
    else if s.collBadpb c r then s.failCmd r .badpb 0
    else match s.readGroup c r r.kRanks [] with
      | .bad => s.failCmd r .badpb 0
      | .wait => s
      | .poison o => s.failCmd r .poison o.toNat
      | .ok ps =>
        let lane := m.f.lane.toNat
        if ps.eraseDups.length ≠ ps.length ∨ ps.any (fun n => decide (1024 ≤ n)) ∨ ps[r.kRank]? ≠ some s.hub.pkg then s.failCmd r .badpb 0
        else if (m.f.space ≠ 1 ∧ m.f.space ≠ 2) ∨ (formAddr m.f.space.toNat r.base).isNone
            ∨ (32 ≤ m.f.door.toNat ∧ r.kOut.isNone) then s.failCmd r .fault codeAccess
        else if !(NMap.get {} c.lanes lane).bound then (s.traceLane c lane s.hub.pkg).failCmd r .nolane 0
        else if ps.any fun n => !s.routed n then s.failCmd r .fault codeAccess
        else match s.attachCheck c lane s.hub.pkg with
          | some st => (s.traceRefusal c lane s.hub.pkg st).failCmd r st 0
          | none =>
            let s := s.attach c.id lane s.hub.pkg
            let r := { r with promised := if m.prom.isSome then promiseTime s.gtime 4096 (2 * r.kHalf) else 0,
                              marks := ps, nf := r.kNfin, running := decide (r.kStart ≤ s.gtime),
                              pos := if r.kFeeds then 0 else r.kChunks,
                              phase := if m.f.door = 63 then .active else .queued }
            let s := s.trc 9 4 c [.word c.id.num, .word r.kTag, .word r.kRank, .word 0, .word 0, .word 0]
            (s.promise m r.promised).addRun r

/-- GTIME has reached START: the packets of the SCOLL in a slot may leave (R405). -/
def execCollectiveStartTime (tile slot : Nat) (s : State) : Out :=
  match s.runAt tile slot with
  | none => .next s
  | some (_, r) =>
    match r.cmd.op with
    | .scoll _ => if r.kStart ≤ s.gtime then .next (s.putRun { r with running := true }) else .next s
    | _ => .next s

/-! ## Chunks (R406, R407) -/

/-- A chunk with its NF flag and its poison origin. -/
structure Chunk where
  data : Line
  nf : Bool
  poison : BitVec 32

/-- Elements of chunk n that lie within COUNT. -/
def Run.kElems (r : Run) (n : Nat) : Nat :=
  let per := 512 / ElemType.bits r.ty
  Nat.min per (r.kCount - n * per)

/-- Number of the element at a byte of the operand (R225). -/
def Run.kElem (r : Run) (off : Nat) : Nat := off * 8 / ElemType.bits r.ty

/-- A chunk padded with zeros beyond COUNT (R406). -/
def Run.kPad (r : Run) (n : Nat) (v : Line) : Line := BitVec.ofNat 512 (v.toNat % 2 ^ (r.kElems n * ElemType.bits r.ty))

/-- The input of chunk n from memory, element by element: the value, a wait, or the fault of an element. -/
def State.readChunk (s : State) (c : Ctx) (r : Run) (n : Nat) (i v : Nat) (o : BitVec 32) : Nat → Access (Nat × BitVec 32)
  | 0 => .got (v, o) r
  | fuel + 1 =>
    let size := if ElemType.bits r.ty = 4 then 1 else ElemType.bits r.ty / 8
    let off := 64 * n + i * size
    if 64 ≤ i * size ∨ r.kBytes ≤ off then .got (v, o) r
    else match s.runRead c r r.f.space.toNat (r.base + BitVec.ofNat 64 off) size with
      | .wait q => .wait q
      | .fault code q => .fault (code + 2 ^ 8 * r.kElem off) q
      | .got (x, o2) r => s.readChunk c r n (i + 1) (v + x * 2 ^ (8 * i * size)) (if o = 0 then o2 else o) fuel

/-- A line of RBUF by an acquiring read, then EMPTY: none while a word is EMPTY or its bank's shutter is closed (R292). -/
def State.takeRbuf (s : State) (c : Ctx) (r : Run) (off : Nat) : Option (State × Chunk) :=
  match s.hallPlace c.part (wordField r.kRbuf 0 28 + off) with
  | .stored key _ =>
    let words := wordKeys key 64
    if words.any (fun k => !s.isFull k) || words.any s.heldWords.contains then none
    else
      let line := key / 64
      let o := NMap.get 0 s.hub.poisonLines line
      let o := if s.badRead key 64 then (if o = 0 then engOrigin 1 c.id.tile 4 else o) else 0
      let x : Chunk := ⟨BitVec.ofNat 512 (s.valueAt key 64), NMap.get false s.hub.nfLines line, o⟩
      let s := s.noteErrors (codeKeys key 64)
      some ({ s.setFullAll words false with hub := { s.hub with poisonLines := NMap.set 0 s.hub.poisonLines line 0,
                                                                nfLines := NMap.set false s.hub.nfLines line false } }, x)
  | .wait => none
  | _ => some (s, ⟨0, false, engOrigin 2 c.id.tile 4⟩)

/-- Whether a chunk holds an infinity or a NaN within COUNT. -/
def Run.kNonFinite (r : Run) (n : Nat) (v : Line) : Bool :=
  (ElemType.fmt? r.ty).isSome && (List.range (r.kElems n)).any fun i =>
    match elemVal r.ty (elem (ElemType.bits r.ty) v i) with
    | .fin .. => false
    | _ => true

/-- RED of two elements, the partial as the left operand (R93, R406). -/
def Run.kCombine1 (r : Run) (i y x : Nat) : Nat × FlagBits :=
  let w := ElemType.bits r.ty
  let red := blkField r.blk 1 1
  match ElemType.fmt? r.ty with
  | some f =>
    if red = 0 then
      f.add (f.decode y) (f.decode x)
        ⟨blockMode r.cmd (blkField r.blk 2 1), false, mix32 (BitVec.ofNat 32 (blkField r.blk 12 4)) (BitVec.ofNat 32 i) (BitVec.ofNat 32 r.kRank)⟩
    else f.minMax (red == 2) y x
  | none =>
    let a := sintOf w y
    let b := sintOf w x
    (wrapInt w (if red = 0 then a + b else if red = 1 then (if b < a then b else a) else (if a < b then b else a)), 0)

def Run.kCombine (r : Run) (n : Nat) (y x : Line) : Line × FlagBits :=
  let w := ElemType.bits r.ty
  let outs := (List.range (r.kElems n)).map fun i => r.kCombine1 (n * (512 / w) + i) (elem w y i) (elem w x i)
  (BitVec.ofNat 512 (ofElems w (outs.map (·.1))), outs.foldl (fun f o => f ||| o.2) 0)

/-- Send chunk n to a package's RBUF. -/
def State.sendChunk (s : State) (k : CtxId) (r : Run) (dpkg n off : Nat) (last : Bool) (x : Chunk) : State :=
  match s.ctx? k with
  | none => s
  | some c =>
    let pkt : Packet :=
      { op := .coll, first := false, last := last, nf := x.nf, poison := x.poison != 0, sub := 0, ty := r.f.ty, len := 64, src := 0,
        gsid := 0, seq := 0, daddr := BitVec.ofNat 64 (2 ^ 48 + wordField r.kRbuf 0 28 + off),
        data := if x.poison = 0 then x.data else x.poison.setWidth 512, good := true }
    let s := s.trc 9 4 c [.word k.num, .word r.kTag, .word r.kRank, .word n, .word (if x.nf then 1 else 0), .word 0]
    s.sendPkt c r.f.lane.toNat dpkg r.cmd.seq 0 r.kTag pkt

/-- Ranks that receive what this rank sends, and the place of the chunk in RBUF. -/
def Run.kDests (r : Run) (n : Nat) : List Nat × Nat :=
  let all := r.marks
  if r.kBroadcast then ((all.zipIdx.filter fun p => p.2 != r.kRank).map (·.1), r.kHalf + 64 * n)
  else if r.kMakes then (all.take (r.kRanks - 1), r.kHalf + 64 * n)
  else ((all.drop (r.kRank + 1)).take 1, 64 * n)

/-- The input chunk of the next step: from the door, from memory, or poison behind a fault. -/
def State.inputChunk (s : State) (c : Ctx) (r : Run) : Access (State × Line × BitVec 32) :=
  let n := r.pos
  if r.bad ≠ 0 then .got (s, 0, r.bad) r
  else if 32 ≤ r.f.door.toNat ∧ r.f.door.toNat < 48 then
    match c.popDoor r.f.door.toNat with
    | none => .wait r
    | some (e, c') => .got (s.onCtx c.id fun _ => c', r.kPad n e.data, e.poison) r
  else match s.readChunk c r n 0 0 0 128 with
    | .wait q => .wait q
    | .fault x q =>
      let code := x % 256
      let o := engOrigin (128 + code) c.id.tile 4
      .got (s, 0, o) { q.stopAt code (x / 256) with bad := o }
    | .got (v, o) q => .got (s, r.kPad n (BitVec.ofNat 512 v), o) q

/-- The step of one chunk of the pseudocode of R406. -/
def State.chunkStep (s : State) (c : Ctx) (r : Run) : State :=
  let n := r.pos
  let (dests, off) := r.kDests n
  let needs := !r.kBroadcast && r.kRank != 0
  let sendOk := dests = [] ∨ (r.running ∧ dests.all (fun d => s.windowOpen c r.f.lane.toNat d))
  if !sendOk then s
  else match (if needs then s.takeRbuf c r (64 * n) else some (s, ⟨0, false, 0⟩)) with
    | none => s
    | some (s1, y) =>
      match s1.inputChunk c r with
      | .wait q => s.putRun q
      | .fault _ q => s.putRun q
      | .got (s2, x, xo) r =>
        let nf := r.nf || (xo == 0 && r.kNonFinite n x) || (needs && y.nf)
        let o := if needs ∧ y.poison ≠ 0 then y.poison else xo
        let (a, fl) := if o ≠ 0 then (0, 0) else if needs then r.kCombine n y.data x else (x, 0)
        let ch : Chunk := ⟨a, nf, o⟩
        let last := n + 1 == r.kChunks
        let s3 := dests.foldl (fun s d => s.sendChunk c.id r d n off last ch) s2
        let r := { r.fresh with pos := n + 1, nf := nf, flags := r.flags ||| fl,
                                results := if r.kMakes then r.results ++ [(a, nf, o)] else r.results }
        s3.putRun (if o = 0 then r else r.poisonBy o)

/-- Bytes of a piece in one line that are written together: those before the first word of a ONCE region that is FULL, which
faults (R407; Table 10.4). -/
def State.onceFree (s : State) (p : EPlace) (k : Nat) : Nat :=
  match p with
  | .stored key .once => match (wordKeys key k).find? s.isFull with
    | some w => if key < w then w - key else k
    | none => k
  | _ => k

/-- Write a result chunk to DST, one write for each line it touches; an element that faults stops this rank's delivery from
there on (R407). BYTES counts what is written (R408). -/
def State.writeChunk (s : State) (c : Ctx) (r : Run) (n : Nat) (v : Line) (i : Nat) : Nat → State × Run × Bool
  | 0 => (s, r, true)
  | fuel + 1 =>
    let size := if ElemType.bits r.ty = 4 then 1 else ElemType.bits r.ty / 8
    let off := 64 * n + i
    if 64 ≤ i ∨ r.kBytes ≤ off then (s, r, true)
    else
      let a := r.kDst + BitVec.ofNat 64 off
      let sp := r.f.space.toNat
      let piece := Nat.min (64 - a.toNat % 64) (Nat.min (64 - i) (r.kBytes - off))
      let k := match formAddr sp a with
        | some w => s.onceFree (s.runPlace c r true w) piece
        | none => piece
      match s.runWriteAligned c r sp a size (toBytes k (v.toNat / 2 ^ (8 * i))) with
      | .wait q => (s, q, false)
      | .fault code q => (s.traceOnce c 4 code a, { q.stopAt code (r.kElem off) with held := true }, true)
      | .got (s, o) r =>
        let r := if o = 0 then { r with bytes := r.bytes + k } else r.poisonBy o
        s.writeChunk ((s.ctx? c.id).getD c) r n v (i + k) fuel

/-- The final NF: the flag of the last chunk's result. -/
def Run.kFinalNf (r : Run) : Bool := ((r.results[r.kChunks - 1]?).map (·.2.1)).getD false

/-- Deliver result chunk outp (R407). -/
def State.deliverChunk (s : State) (c : Ctx) (r : Run) (x : Line × Bool × BitVec 32) : State :=
  let n := r.outp
  let done (s : State) (r : Run) : State := s.putRun { r.fresh with outp := n + 1 }
  if r.held ∨ (r.kSkip ∧ r.kFinalNf) then done s r
  else if r.f.door.toNat < 32 then
    match s.pushAll [⟨c.task.launch, c.id, r.f.door.toNat⟩] (if x.2.2 = 0 then ⟨x.1, 0, 0⟩ else ⟨x.2.2.setWidth 512, 0, x.2.2⟩) with
    | none => s
    | some s => done s { r with bytes := r.bytes + Nat.min 64 (r.kBytes - 64 * n) }
  else if x.2.2 ≠ 0 then done s r
  else match s.writeChunk c r n x.1 0 128 with
    | (s, r, true) => done s r
    | (_, q, false) => s.putRun { r with walk := q.walk, heldFor := q.heldFor }

/-- The SCOLL in a slot handles a chunk: it delivers a result, acquires one, or steps (R406). Its accesses wait for those
before it in its lane (R318, R404). -/
def execCollectiveChunk (tile slot : Nat) (s : State) : Out :=
  match s.runAt tile slot with
  | none => .next s
  | some (c, r) =>
    match r.cmd.op with
    | .scoll _ =>
      let whole := decide (r.kChunks ≤ r.results.length)
      let ready := (r.results[r.outp]?).filter fun _ => !r.kSkip || whole
      let clear := c.laneClear r.f.lane r.cmd.seq
      if r.phase ≠ .active then .next s
      else match ready with
        | some x => if r.f.door.toNat < 32 ∨ clear then .next (s.deliverChunk c r x) else .next s
        | none =>
          if !clear then .next s
          else if r.pos < r.kChunks then .next (s.chunkStep c r)
          else if whole then .next s
          else match s.takeRbuf c r (r.kHalf + 64 * r.results.length) with
            | none => .next s
            | some (s, x) =>
              let r := { r with results := r.results ++ [(x.data, x.nf, x.poison)] }
              .next (s.putRun (if x.poison = 0 then r else r.poisonBy x.poison))
    | _ => .next s

/-- Whether an SCOLL is complete (R408). -/
def State.collDone (s : State) (r : Run) : Bool :=
  r.phase == .active && decide (r.kChunks ≤ r.pos) && decide (r.kChunks ≤ r.outp) && s.allAcked r.cmd.ctx r.cmd.seq

/-- Its record, and its flags (R86, R408). -/
def State.completeColl (s : State) (c : Ctx) (r : Run) : State :=
  let (st, f) : Status × BitVec 32 := match r.fault with
    | some (code, n) => (.fault, faultField code n)
    | none => if r.poison = 0 then (.ok, 0) else (.poison, r.poison)
  let s := s.trc 9 4 c [.word c.id.num, .word r.kTag, .word r.kRank, .word r.kChunks, .word (if r.kFinalNf then 1 else 0), .word st.code]
  let s := (s.traceDoors c r).onCtx c.id fun c => { c with sys := { c.sys with flags := flagsRaise c.sys.flags r.flags } }
  s.finishCmd r { status := st, kind := 9, sid := s.streamId r, fault := f,
                  version := BitVec.ofNat 32 ((if r.kFinalNf then 1 else 0) + 2 * r.flags.toNat), bytes := r.bytes }

end Sys2Proof.Machine
end

