-- ==== Sys2Proof/Machine/Accept.lean ====
section
/-! DEFINITION. Acceptance of commands from a tile's command queue by their engines (R217, R219, R222), service turns and
completion of the slots (R221, R243). -/

namespace Sys2Proof.Machine

/-- Engines that accept C commands (Table 8.4). -/
inductive CEngine where
  | stream | gather | collective | copy | post | config | version | order | system
  deriving DecidableEq, Repr

def engineOf : Instr → CEngine
  | .gath _ | .scat _ | .greplay _ => .gather
  | .scoll _ | .sslot _ => .collective
  | .scopy _ | .scopyc _ => .copy
  | .sarm _ | .sdisarm _ | .spost _ => .post
  | .scfg _ | .srunGo _ | .srunBack _ | .sstop _ | .smm _ | .sarmg _ => .config
  | .spub _ | .svsw _ | .svstage _ => .version
  | .sbar _ | .smark _ | .sord _ => .order
  | .csysShootdown _ | .csysReplay _ | .csysPantry _ => .system
  | _ => .stream

/-- Section commands that the configuration engine of a tile holds (R183): those that wait for their turn, the SCFGs under
way, the SSTOPs that wait for quiescence, and those whose records wait (R250). -/
def State.configHeld (s : State) (tile : Nat) : Nat :=
  ((s.ctxs.filter fun c => c.id.tile == tile).map fun c =>
    c.hwait.length + (c.secs.filter fun x => x.loading.any fun r => c.opens.any fun o => o.seq == r.cmd.seq).length
      + (c.waits.filter fun r => engineOf r.cmd.op == .config).length + c.keptEntries .config).foldl (· + ·) 0

/-- Posts that the post engine of a tile holds, those whose records wait among them (R239, R250). -/
def State.postsHeld (s : State) (tile : Nat) : Nat :=
  (s.tile tile).posts.length + ((s.ctxs.filter fun c => c.id.tile == tile).map fun c => c.keptEntries .post).foldl (· + ·) 0

/-- Whether its handle ends an SCFG with BUSY at once (Table 7.3). -/
def State.scfgBusy (s : State) (c : Ctx) (r : Run) : Bool :=
  !s.earlierOn c r.lHandle r.cmd.seq && (match c.sec? r.lHandle with
    | some x => !x.busyState && x.st != .ready && !(r.f.flags.getLsbD 0 && x.sys.isNone)
    | none => false)

/-- SCFG: its first checks, its promised time, then it acts on its handle in its turn (R205, R244). -/
def State.acceptScfg (s : State) (c : Ctx) (m : Command) : State :=
  let r : Run := { cmd := m }
  let h := m.f.imm.toNat % 16
  let ends (s : State) (st : Status) (f : Nat) : State :=
    let r := { r with promised := if m.prom.isSome then BitVec.ofNat 64 s.gtime else 0 }
    (s.promise m r.promised).scfgOver r h st f
  match r.imageAddr with
  | none => ends s .fault codeAccess
  | some a =>
    if a.toNat % 64 ≠ 0 then ends s .badcfg 0
    else
      let time := if s.scfgBusy c r then BitVec.ofNat 64 s.gtime else promiseTime s.gtime 64 (s.imageSizeNow c r)
      let r := { r with promised := if m.prom.isSome then time else 0 }
      (s.promise m r.promised).onCtx c.id fun c => { c with hwait := c.hwait ++ [r] }

/-- SRUN, SSTOP and SARMG wait for their turn on the handle. -/
def State.holdConfig (s : State) (c : Ctx) (m : Command) : State :=
  (s.accepted m 0).onCtx c.id fun c => { c with hwait := c.hwait ++ [{ cmd := m }] }

/-- Whether a command reads a parameter block when its engine accepts it (Table 2.10). -/
def readsBlock : Instr → Bool
  | .spost _ | .sdisarm _ | .scfg _ | .srunGo _ | .srunBack _ | .sstop _ | .sarmg _ | .spub _ | .svsw _ | .svstage _
  | .sbar _ | .smark _ | .sord _ | .sslot _ => false
  | _ => true

/-- Whether what a command reads at its acceptance can be read now: the acquiring reads of earlier bundles have returned
(R322), and no bank that it reads still serves others before it (R310) or is closed (R292). -/
def State.readsReady (s : State) (c : Ctx) (m : Command) : Bool :=
  match m.op with
  | .sslot _ => c.acquired m.seq && (match s.slotTable c m with
    | .wait => false
    | _ => true)
  | .scfg _ => c.acquired m.seq && ((({ cmd := m } : Run).imageAddr).all fun a =>
      decide (a.toNat % 64 ≠ 0) || s.ctlRead c (m.viewer c) [] 5 a 64 != .wait)
  | _ =>
    !readsBlock m.op || c.acquired m.seq && match s.readBlock c m with
      | .wait => false
      | .bad .. => true
      | .ok b => match m.op with
        | .scoll _ =>
          let r : Run := { cmd := m, blk := b }
          (match s.readGroup c r r.kRanks [] with
            | .wait => false
            | _ => true)
        | _ => true

/-- Whether an engine can take a command now (R183, R234, R239, R317, R339, R359, R373). SVSTAGE acts at its acceptance, so
it waits for the operations accepted before it on its set (R333, R337). -/
def State.engineRoom (s : State) (c : Ctx) (m : Command) : Bool :=
  match m.op with
  | .scopy _ | .scopyc _ => s.copyRoom (copyEngineOf c.id.tile)
  | .spost _ => decide (s.postsHeld c.id.tile < 64)
  | .scfg _ | .srunGo _ | .srunBack _ | .sstop _ | .smm _ | .sarmg _ => decide (s.configHeld c.id.tile < 32)
  | .sord _ => false
  | .svstage _ | .spub _ =>
    if c.versionRemote m then
      s.windowOpen c m.f.lane.toNat (NMap.get {} c.lanes m.f.lane.toNat).dpkg && c.laneSent m.f.lane m.seq
    else match m.op with
      | .svstage _ => (s.vopsOf m.vset).isEmpty
      | _ => true
  | .csysReplay _ => c.writesPassed m.seq
  | _ => true

/-- What acceptance of a command does. -/
def State.acceptCmd (s : State) (c : Ctx) (m : Command) : State :=
  match m.op with
  | .saff _ | .saffw _ | .sind _ | .sindw _ | .srec _ | .sconst _ | .sfill _ | .smcast _ | .sremw _ | .srema _ | .scirc _ =>
    s.acceptStream c m
  | .swload _ => (s.acceptSwload c m).pumpAll
  | .gath _ | .scat _ | .greplay _ => s.acceptGather c m
  | .scoll _ => s.acceptScoll c m
  | .sslot _ => s.acceptSslot c m
  | .scopy _ | .scopyc _ => s.acceptCopy c m
  | .sarm _ => s.acceptSarm c m
  | .sdisarm _ => s.acceptSdisarm c m
  | .spost _ => s.acceptPost c m
  | .scfg _ => (s.acceptScfg c m).pumpAll
  | .smm _ => (s.acceptSmm c m).pumpAll
  | .srunGo _ | .srunBack _ | .sstop _ | .sarmg _ => (s.holdConfig c m).pumpAll
  | .spub _ | .svsw _ | .svstage _ => s.acceptVersion c m
  | .sbar _ => s.acceptSbar c m
  | .smark _ => s.acceptSmark c m
  | .csysShootdown _ | .csysReplay _ | .csysPantry _ => s.acceptCsys c m
  | _ => s

/-- The errors that the control reads of an acceptance meet are corrected or reported (R432, R434). -/
def State.noteAccept (s : State) (c : Ctx) (m : Command) : State :=
  let note (s : State) (a : Word) (n : Nat) : State := s.noteRead c (m.viewer c) [] a n
  match m.op with
  | .sslot _ => (List.range (m.f.imm.toNat % 2 ^ 11 + 1)).foldl (fun s i =>
      note s ((formAddr m.f.space.toNat m.base).getD 0 + BitVec.ofNat 64 (16 * i)) 16) s
  | .scfg _ => (({ cmd := m } : Run).imageAddr).elim s fun a => note s a 64
  | .scoll _ =>
    match s.readBlock c m with
    | .ok b =>
      let r : Run := { cmd := m, blk := b }
      (List.range r.kRanks).foldl (fun s i => note s (blkWord b 16 + BitVec.ofNat 64 (2 * i)) 2) (note s m.pblk 64)
    | _ => note s m.pblk 64
  | _ => if readsBlock m.op then note s m.pblk 64 else s

/-- Entry i of a tile's queue leaves it for its engine, when every earlier entry of its context for the same engine has
left and the engine has room. -/
def State.acceptAt (s : State) (tile i : Nat) : State :=
  match (s.tile tile).queue[i]? with
  | none => s
  | some m =>
    match s.queueHead tile i fun x => engineOf x.op == engineOf m.op with
    | none => s
    | some (c, m) =>
      if !c.live || !s.engineRoom c m || !s.readsReady c m then s
      else ((s.onTile tile fun t => { t with queue := t.queue.eraseIdx i }).noteAccept c m).acceptCmd c m

/-- An engine accepts entry i of a tile's command queue (R219). -/
def execCommandQueueAccept (tile i : Nat) (s : State) : Out := .next (s.acceptAt tile i)

/-- The engine of the command that holds a slot of a tile accepts it: its block is read and checked, its promised time
written (R222, R244). -/
def execStreamAccept (tile slot : Nat) (s : State) : Out :=
  match (s.tile tile).queue.findIdx? fun m => m.slot == some slot with
  | none => .next s
  | some i => .next (s.acceptAt tile i)

/-! ## Service and completion -/

/-- A slot command whose elements are all issued makes no further access (R313), or has sent its last packet, and makes none
once they are acknowledged (R310); its stream is DRAINING (Table 8.5). A weight load leaves its lane once the values that it
reads are fixed, before it ends (R310, R450). -/
def State.settleSlot (s : State) (k : CtxId) (seq : Nat) : State :=
  match (s.ctx? k).bind fun c => c.runs.find? fun r => r.cmd.seq == seq with
  | none => s
  | some r =>
    if r.wload ∧ ((s.ctx? k).any fun c => s.loadFixed c r) then s.accDone k seq
    else if r.isGather ∨ r.wload ∨ r.rowCopy ∨ r.phase ≠ .active ∨ r.pos < r.limit ∨ !r.diverted.isEmpty then s
    else match r.cmd.op with
      | .scoll _ => s
      | .sremw _ | .srema _ => (s.putRun { r with phase := .draining }).sentDone k seq
      | _ => (s.putRun { r with phase := .draining }).accDone k seq

/-- Slots that the stream engine has served in this clk (R221). -/
def State.turnedNow (s : State) (tile : Nat) : List Nat := if (s.tile tile).turnClk = s.clk then (s.tile tile).turned else []

/-- Whether a command that was served has moved. -/
def Run.hasMoved (r : Run) : Option (Ctx × Run) → Bool
  | none => true
  | some (_, q) => q.phase != r.phase || q.pos != r.pos || q.outp != r.outp || q.held != r.held || q.got.length != r.got.length
      || q.diverted.length != r.diverted.length || q.bytes != r.bytes

/-- A turn of the stream engine is counted, and its round goes on behind the slot, when the slot had data to move. -/
def State.countTurn (s : State) (tile slot : Nat) (r : Run) : State :=
  if !r.hasMoved (s.runAt tile slot) then s
  else
    let done := s.turnedNow tile
    s.onTile tile fun t => { t with turnClk := s.clk, turned := done ++ [slot], turnFrom := slot + 1 }

/-- A service turn of an ACTIVE slot, one of 8 in a clk: one door entry or one line (R221); a part of a weight load. An act
of a batch is none of the stream engine's. -/
def execStreamServiceTurn (tile slot : Nat) (s : State) : Out :=
  match s.runAt tile slot with
  | none => .next s
  | some (c, r) =>
    if r.phase = .queued ∨ !c.live then .next s
    else if r.isGather then .next ((s.gatherTurn c r).settleSlot c.id r.cmd.seq)
    else if 8 ≤ (s.turnedNow tile).length ∨ (s.turnedNow tile).contains slot then .next s
    else
      let s' := if r.wload then s.loadTurn c r else s.streamTurn c r
      .next ((s'.settleSlot c.id r.cmd.seq).countTurn tile slot r)

/-- The command in a slot meets its completion condition (R243, R408). -/
def execStreamComplete (tile slot : Nat) (s : State) : Out :=
  match s.runAt tile slot with
  | none => .next s
  | some (c, r) =>
    match r.cmd.op with
    | .scoll _ => if s.collDone r then .next (s.completeColl c r) else .next s
    | _ => if !r.isGather && !r.wload && s.streamDone r then .next (s.completeStream c r) else .next s

end Sys2Proof.Machine
end

