-- ==== Sys2Proof/Machine/Commands.lean ====
section
/-! DEFINITION. The C slot: issue of commands, and KONST (R54 to R56, R126, R217 to R219, R226, R245). What a command
does after its issue is in the files of the engines. -/

namespace Sys2Proof.Machine

/-- The fields of a C syllable that its opcode uses (Table 2.10), and whether it takes a stream slot (Table 8.4). -/
structure CUse where
  slot : Bool
  base : Bool
  pblk : Bool
  prom : Bool
  queue : Bool
  deriving DecidableEq, Repr

/-- TVAL of a command that names an absent queue (R245). -/
def absentQueue (q : Nat) : Word := 0xF000000000000000 + BitVec.ofNat 64 q

/-- Whether a queue code names a queue that the task does not have. -/
def Ctx.absent (c : Ctx) (q : Nat) : Bool := decide (q < 8) && (NMap.get {} c.cqs q).log2 == 0

/-- Issue of a command (R217 to R219, R226, R245): the holds of slot share and queue, the absent queue, then the command
with what it reads. -/
def State.cissue (s : State) (op : Instr) (f : CF) (u : CUse) : State :=
  let srcs := (if u.base then [s.regS f.base] else []) ++ (if u.pblk then [s.regS f.pblk] else [])
  let dsts := if u.prom then [s.regS f.prom] else []
  let busy := (if u.slot && decide (s.c.slotShare ≤ s.slotsHeld s.c) then [.slotShare] else [])
    ++ (if 64 ≤ s.myTile.queue.length then [.queueFull] else [])
  s.syllableIf 3 f.g srcs dsts busy fun s =>
    if u.queue && s.c.absent f.q.toNat then s.raise 3 .access (absentQueue f.q.toNat)
    else
      s.stage (.command
        { ctx := s.c.id, seq := 0, op := op, f := f, base := if u.base then s.rdS f.base else 0,
          pblk := if u.pblk then s.rdS f.pblk else 0,
          prom := if u.prom && f.prom != 0 then (match s.regS f.prom with
            | .s n => some n
            | _ => none) else none,
          rm := rmOfCode 6 s.c.sys.rm.toNat, epoch := 0, slot := if u.slot then some 0 else none })

/-- Streams (R226). -/
def useStream : CUse := ⟨true, true, true, true, true⟩
/-- SREC and SCONST name no base. -/
def useNoBase : CUse := ⟨true, false, true, true, true⟩
/-- Copies. -/
def useCopy : CUse := ⟨false, true, true, true, true⟩
def useQueue : CUse := ⟨false, false, false, false, true⟩
def useNone : CUse := ⟨false, false, false, false, false⟩

def execCNop (s : State) : Out := .next s
def execSaff (f : CF) (s : State) : Out := .next (s.cissue (.saff f) f useStream)
def execSaffw (f : CF) (s : State) : Out := .next (s.cissue (.saffw f) f useStream)
def execSind (f : CF) (s : State) : Out := .next (s.cissue (.sind f) f useStream)
def execSindw (f : CF) (s : State) : Out := .next (s.cissue (.sindw f) f useStream)
def execSrec (f : CF) (s : State) : Out := .next (s.cissue (.srec f) f useNoBase)
def execSconst (f : CF) (s : State) : Out := .next (s.cissue (.sconst f) f useNoBase)
def execSfill (f : CF) (s : State) : Out := .next (s.cissue (.sfill f) f useStream)
def execSmcast (f : CF) (s : State) : Out := .next (s.cissue (.smcast f) f useStream)
def execSremw (f : CF) (s : State) : Out := .next (s.cissue (.sremw f) f useStream)
def execSrema (f : CF) (s : State) : Out := .next (s.cissue (.srema f) f useStream)
def execScirc (f : CF) (s : State) : Out := .next (s.cissue (.scirc f) f ⟨true, true, true, false, true⟩)
def execScopy (f : CF) (s : State) : Out := .next (s.cissue (.scopy f) f useCopy)
def execScopyc (f : CF) (s : State) : Out := .next (s.cissue (.scopyc f) f useCopy)
def execSarm (f : CF) (s : State) : Out := .next (s.cissue (.sarm f) f ⟨false, false, true, false, true⟩)
def execSdisarm (f : CF) (s : State) : Out := .next (s.cissue (.sdisarm f) f useQueue)
def execSpost (f : CF) (s : State) : Out := .next (s.cissue (.spost f) f ⟨false, true, false, false, true⟩)
def execGath (f : CF) (s : State) : Out := .next (s.cissue (.gath f) f useStream)
def execScat (f : CF) (s : State) : Out := .next (s.cissue (.scat f) f useStream)
def execGreplay (f : CF) (s : State) : Out := .next (s.cissue (.greplay f) f useStream)
def execSbar (f : CF) (s : State) : Out := .next (s.cissue (.sbar f) f useNone)
def execSmark (f : CF) (s : State) : Out := .next (s.cissue (.smark f) f useNone)
def execSord (f : CF) (s : State) : Out := .next (s.cissue (.sord f) f useNone)
def execScfg (f : CF) (s : State) : Out := .next (s.cissue (.scfg f) f ⟨false, true, false, true, true⟩)
def execSrunGo (f : CF) (s : State) : Out := .next (s.cissue (.srunGo f) f useNone)
def execSrunBack (f : CF) (s : State) : Out := .next (s.cissue (.srunBack f) f useNone)
def execSstop (f : CF) (s : State) : Out := .next (s.cissue (.sstop f) f useQueue)
def execSwload (f : CF) (s : State) : Out := .next (s.cissue (.swload f) f useStream)
def execSmm (f : CF) (s : State) : Out := .next (s.cissue (.smm f) f ⟨false, false, true, true, true⟩)
def execSarmg (f : CF) (s : State) : Out := .next (s.cissue (.sarmg f) f useQueue)
def execSpub (f : CF) (s : State) : Out := .next (s.cissue (.spub f) f useQueue)
def execSvsw (f : CF) (s : State) : Out := .next (s.cissue (.svsw f) f useQueue)
def execSvstage (f : CF) (s : State) : Out := .next (s.cissue (.svstage f) f useQueue)
def execScoll (f : CF) (s : State) : Out := .next (s.cissue (.scoll f) f useStream)
def execSslot (f : CF) (s : State) : Out := .next (s.cissue (.sslot f) f ⟨false, true, false, false, true⟩)

/-- KONST writes its immediate with latency 2 and takes no queue entry (R126). -/
def execKonst (f : CF) (s : State) : Out :=
  .next (s.syllable 3 f.g [] [s.regS f.base] fun s => s.putS f.base f.imm 2)

def execCsysShootdown (f : CF) (s : State) : Out := .next (s.cissue (.csysShootdown f) f ⟨false, true, true, false, true⟩)
def execCsysReplay (f : CF) (s : State) : Out := .next (s.cissue (.csysReplay f) f ⟨false, false, true, false, true⟩)
def execCsysPantry (f : CF) (s : State) : Out := .next (s.cissue (.csysPantry f) f ⟨false, false, true, false, true⟩)

end Sys2Proof.Machine
end

