-- ==== Sys2Proof/Machine/Crypto.lean ====
section
/-! DEFINITION. The ciphers and the digest that the package's services name: AES-256 (FIPS 197) in XTS mode (IEEE 1619) for
cellar lines and unwrapping blobs (RFC 3394) for key slots (R437), SHA-384 (FIPS 180-4) for reports (R439). The spec names
them, and their standards define them (log 8). -/

namespace Sys2Proof.Machine

/-! ## AES-256 -/

/-- Multiplication by x in the field of AES. -/
def gfDouble (a : Byte) : Byte := (a <<< 1) ^^^ (if a.msb then 0x1b else 0)

/-- Multiplication in the field of AES: the doubles of a that the bits of b select. -/
def gfMul (a b : Byte) : Byte :=
  ((List.range 8).foldl (fun (p : Byte × Byte) i => (if b.getLsbD i then p.1 ^^^ p.2 else p.1, gfDouble p.2)) (0, a)).1

/-- The inverse in the field of AES, which is the 254th power; zero stays zero. -/
def gfInv (a : Byte) : Byte :=
  ((List.range 7).foldl (fun (p : Byte × Byte) _ => let q := gfMul p.2 p.2; (gfMul p.1 q, q)) (1, a)).1

def sbox (a : Byte) : Byte :=
  let b := gfInv a
  b ^^^ b.rotateLeft 1 ^^^ b.rotateLeft 2 ^^^ b.rotateLeft 3 ^^^ b.rotateLeft 4 ^^^ 0x63

def sboxInv (b : Byte) : Byte := gfInv (b.rotateLeft 1 ^^^ b.rotateLeft 3 ^^^ b.rotateLeft 6 ^^^ 0x05)

def xorBytes (a b : List Byte) : List Byte := List.zipWith (· ^^^ ·) a b

/-- Word i of the expanded key from the words before it, of which the last stands first. -/
def keyWord (i : Nat) (ws : List (List Byte)) : List Byte :=
  let last := ws.headD []
  let t := if i % 8 = 0 then
      let r := ((last.drop 1) ++ last.take 1).map sbox
      xorBytes r [(List.range (i / 8 - 1)).foldl (fun a _ => gfDouble a) 1, 0, 0, 0]
    else if i % 8 = 4 then last.map sbox else last
  xorBytes (ws.getD 7 []) t

/-- The 15 round keys of a key of 32 bytes. -/
def roundKeys (key : List Byte) : List (List Byte) :=
  let first := ((List.range 8).map fun i => (key.drop (4 * i)).take 4).reverse
  let ws := ((List.range 52).foldl (fun ws i => keyWord (i + 8) ws :: ws) first).reverse
  (List.range 15).map fun r => ((ws.drop (4 * r)).take 4).flatten

def shiftRows (b : List Byte) : List Byte := (List.range 16).map fun i => b.getD ((i + 4 * (i % 4)) % 16) 0

def shiftRowsInv (b : List Byte) : List Byte := (List.range 16).map fun i => b.getD ((i + 12 * (i % 4)) % 16) 0

/-- Each column times the circulant matrix with a first row. -/
def mixWith (row : List Byte) (b : List Byte) : List Byte :=
  (List.range 16).map fun i =>
    (List.range 4).foldl (fun a j => a ^^^ gfMul (row.getD ((j + 4 - i % 4) % 4) 0) (b.getD (i / 4 * 4 + j) 0)) 0

/-- One block of 16 bytes is encrypted under round keys. -/
def aesBlock (ks : List (List Byte)) (b : List Byte) : List Byte :=
  let b := ((ks.drop 1).take 13).foldl (fun b k => xorBytes (mixWith [2, 3, 1, 1] (shiftRows (b.map sbox))) k)
    (xorBytes b (ks.headD []))
  xorBytes (shiftRows (b.map sbox)) (ks.getD 14 [])

def aesBlockInv (ks : List (List Byte)) (b : List Byte) : List Byte :=
  let b := (shiftRowsInv (xorBytes b (ks.getD 14 []))).map sboxInv
  let b := (((ks.drop 1).take 13).reverse).foldl
    (fun b k => (shiftRowsInv (mixWith [14, 11, 13, 9] (xorBytes b k))).map sboxInv) b
  xorBytes b (ks.headD [])

/-! ## XTS over a line (R437) -/

/-- The tweak of the next block of a data unit: times x, the first byte the lowest. -/
def xtsNext (t : Nat) : Nat := if 2 ^ 127 ≤ t then (2 * t - 2 ^ 128).xor 0x87 else 2 * t

/-- Blocks of a data unit, each between two additions of its tweak. -/
def xtsBlocks (f : List Byte → List Byte) : Nat → Nat → List Byte → List Byte
  | 0, _, _ => []
  | n + 1, t, bs =>
    let w := toBytes 16 t
    xorBytes (f (xorBytes (bs.take 16) w)) w ++ xtsBlocks f n (xtsNext t) (bs.drop 16)

/-- The two keys of a slot: the data key in its low 32 bytes, the tweak key above (log 8). -/
def slotKeys (k : BitVec 512) : List (List Byte) × List (List Byte) :=
  let bs := toBytes 64 k.toNat
  (roundKeys (bs.take 32), roundKeys (bs.drop 32))

/-- A line of the cellar under a slot's key; its tweak is its physical address. -/
def lineTweak (k2 : List (List Byte)) (pa : Nat) : Nat := leBytes (aesBlock k2 (toBytes 16 pa))

def sealLine (k : BitVec 512) (pa : Nat) (bs : List Byte) : List Byte :=
  let (k1, k2) := slotKeys k
  xtsBlocks (aesBlock k1) 4 (lineTweak k2 pa) bs

def openLine (k : BitVec 512) (pa : Nat) (bs : List Byte) : List Byte :=
  let (k1, k2) := slotKeys k
  xtsBlocks (aesBlockInv k1) 4 (lineTweak k2 pa) bs

/-- What a line that was written under one key reads as under another; none for a granule stored in plaintext. -/
def rekeyLine (old new : Option (BitVec 512)) (pa : Nat) (bs : List Byte) : List Byte :=
  let stored := match old with
    | some k => sealLine k pa bs
    | none => bs
  match new with
    | some k => openLine k pa stored
    | none => stored

/-! ## Key blobs (R437) -/

/-- One step of the unwrapping of RFC 3394: the check register and the eight halves. -/
def unwrapStep (ks : List (List Byte)) (x : List Byte × List (List Byte)) (t : Nat) : List Byte × List (List Byte) :=
  let i := (t - 1) % 8
  let b := aesBlockInv ks (xorBytes x.1 (toBytes 8 t).reverse ++ x.2.getD i [])
  (b.take 8, x.2.set i (b.drop 8))

/-- The 64 bytes that a blob of 72 bytes wraps under a key, if its check value is right. -/
def unwrapBlob (kek : BitVec 256) (blob : List Byte) : Option (BitVec 512) :=
  if blob.length ≠ 72 then none
  else
    let halves := (List.range 8).map fun i => (blob.drop (8 * (i + 1))).take 8
    let x := ((List.range 48).map fun j => 48 - j).foldl (unwrapStep (roundKeys (toBytes 32 kek.toNat))) (blob.take 8, halves)
    if x.1 = List.replicate 8 0xa6 then some (BitVec.ofNat 512 (leBytes x.2.flatten)) else none

/-! ## SHA-384 (R439) -/

/-- The first primes below a bound. -/
def primesBelow (n : Nat) : List Nat := (List.range n).filter fun p => 2 ≤ p && (List.range p).all fun d => d < 2 || p % d != 0

/-- The largest number below 2^n whose e-th power is at most v. -/
def rootBelow (e v n : Nat) : Nat := (List.range n).foldr (fun b r => if (r + 2 ^ b) ^ e ≤ v then r + 2 ^ b else r) 0

/-- The first 64 bits of the fractional part of the e-th root of p. -/
def rootBits (e p : Nat) : Word := BitVec.ofNat 64 (rootBelow e (p * 2 ^ (64 * e)) 70)

/-- The 80 round constants: cube roots of the first 80 primes. -/
def shaRound : List Word := (primesBelow 410).map (rootBits 3)

/-- The first hash value of SHA-384: square roots of the ninth to the sixteenth prime. -/
def shaStart : List Word := ((primesBelow 54).drop 8).map (rootBits 2)

/-- The message schedule of a block, of which the last word stands first. -/
def shaSchedule (ws : List Word) (n : Nat) : List Word :=
  (List.range n).foldl (fun ws _ =>
    let a := ws.getD 1 0
    let b := ws.getD 14 0
    let s1 := a.rotateRight 19 ^^^ a.rotateRight 61 ^^^ (a >>> 6)
    let s0 := b.rotateRight 1 ^^^ b.rotateRight 8 ^^^ (b >>> 7)
    (s1 + ws.getD 6 0 + s0 + ws.getD 15 0) :: ws) ws

/-- One round: the eight working words, and the round's constant and schedule word. -/
def shaStep (v : List Word) (kw : Word × Word) : List Word :=
  let x (i : Nat) : Word := v.getD i 0
  let s1 := (x 4).rotateRight 14 ^^^ (x 4).rotateRight 18 ^^^ (x 4).rotateRight 41
  let ch := (x 4 &&& x 5) ^^^ (~~~(x 4) &&& x 6)
  let t1 := x 7 + s1 + ch + kw.1 + kw.2
  let s0 := (x 0).rotateRight 28 ^^^ (x 0).rotateRight 34 ^^^ (x 0).rotateRight 39
  let maj := (x 0 &&& x 1) ^^^ (x 0 &&& x 2) ^^^ (x 1 &&& x 2)
  [t1 + s0 + maj, x 0, x 1, x 2, x 3 + t1, x 4, x 5, x 6]

/-- A number of bytes, the first byte the highest. -/
def beBytes (bs : List Byte) : Nat := leBytes bs.reverse

def shaBlock (h : List Word) (block : List Byte) : List Word :=
  let first := ((List.range 16).map fun i => BitVec.ofNat 64 (beBytes ((block.drop (8 * i)).take 8))).reverse
  let ws := (shaSchedule first 64).reverse
  List.zipWith (· + ·) h ((shaRound.zip ws).foldl shaStep h)

/-- The SHA-384 digest of bytes, 48 bytes as its standard writes them. -/
def sha384 (m : List Byte) : List Byte :=
  let pad := (239 - m.length % 128) % 128
  let msg := m ++ 0x80 :: List.replicate pad 0 ++ (toBytes 16 (8 * m.length)).reverse
  let h := (List.range (msg.length / 128)).foldl (fun h i => shaBlock h ((msg.drop (128 * i)).take 128)) shaStart
  (h.take 6).flatMap fun w => (toBytes 8 w.toNat).reverse

end Sys2Proof.Machine
end

