-- ==== Sys2Proof/Machine/Regions.lean ====
section
/-! DEFINITION. Regions of tile memory: where they are laid out, the storage they are given, parking, claiming and taking
back (R19, R286, R287, R384, R415). -/

namespace Sys2Proof.Machine

/-! ## Storage (R286, R287) -/

/-- Drop the entries of a map whose keys lie in a range. -/
def NMap.cut {α : Type} (m : NMap α) (lo hi : Nat) : NMap α := m.filter fun p => !(decide (lo ≤ p.1) && decide (p.1 < hi))

/-- Zero a range of storage; its words get valid codes. -/
def State.zeroRange (s : State) (key n : Nat) : State :=
  { s with mem := NMap.cut s.mem key (key + n), bad := NMap.cut s.bad (key / 8) ((key + n) / 8),
           soft := NMap.cut s.soft (key / 8) ((key + n) / 8), reported := NMap.cut s.reported (key / 8) ((key + n) / 8) }

/-- Every presence word of a range becomes EMPTY. -/
def State.emptyRange (s : State) (key n : Nat) : State := { s with full := NMap.cut s.full (key / 8) ((key + n) / 8) }

/-- A region word (Table 10.2). -/
def regionWord (num kind log2 off : Nat) : Word :=
  BitVec.ofNat 64 (2 ^ 31 + num * 2 ^ 29 + kind * 2 ^ 27 + log2 * 2 ^ 22 + off / 4096)

/-- Storage passes to a context of a partition: EMPTY; zeroed where another partition had it, else its data is kept or
zero, as a free choice (R287). -/
def State.giveStorage (s : State) (tile part off n : Nat) : State :=
  let pages := (List.range (n / 4096)).map fun i => off / 4096 + i
  let owners := (s.tile tile).lastOwner
  let foreign := pages.any fun i => NMap.get 0 owners i != 0 && NMap.get 0 owners i != part + 1
  let key := tileKey tile off
  let s := s.emptyRange key n
  let (i, s) := s.draw 2
  let s := if foreign ∨ i = 0 then s.zeroRange key n else s
  s.onTile tile fun t => { t with lastOwner := pages.foldl (fun o i => NMap.set 0 o i (part + 1)) t.lastOwner }

/-- The lowest-numbered region register of a tile that is not in use. -/
def Tile.freeTreg (t : Tile) : Nat := ((List.range 16).find? fun i => wordField (NMap.get 0 t.treg i) 31 1 == 0).getD 0

def State.giveRegion (s : State) (tile num part : Nat) (log2 kind off : Nat) : State :=
  (s.giveStorage tile part off (2 ^ log2)).onTile tile fun t => { t with treg := NMap.set 0 t.treg t.freeTreg (regionWord num kind log2 off) }

/-! ## Room (R19, R286, R384) -/

/-- Tile memory of a partition's tiles below the pantry (R287, Table 17.2). -/
def State.tileLimit (s : State) (p : Nat) : Nat :=
  2 ^ 23 - (wordField (NMap.get pctlReset s.hub.pctl p) 41 4 + 1) * 65536

/-- Offset and size of a region word. -/
def regionRange (w : Word) : Nat × Nat := (wordField w 0 11 * 4096, 2 ^ wordField w 22 5)

def rangesMeet (a b : Nat × Nat) : Bool := decide (a.1 < b.1 + b.2) && decide (b.1 < a.1 + a.2)

/-- Regions of a tile's contexts, but those of some context numbers. -/
def Tile.regionsBut (t : Tile) (drop : List Nat) : List (Nat × Nat) :=
  (t.treg.filter fun r => wordField r.2 31 1 == 1 && !drop.contains (wordField r.2 29 2)).map fun r => regionRange r.2

/-- Lowest free addresses for regions of given log2 sizes, aligned to their size, in list order (R415). -/
def placeAll (limit : Nat) : List (Nat × Nat) → List Nat → Option (List Nat)
  | _, [] => some []
  | used, g :: rest =>
    match (List.range (limit / 2 ^ g)).find? fun i => !used.any (rangesMeet (i * 2 ^ g, 2 ^ g)) with
    | none => none
    | some i => (placeAll limit ((i * 2 ^ g, 2 ^ g) :: used) rest).map (i * 2 ^ g :: ·)

/-- Place regions first beside parked ones, else claiming parked ones, the longest parked first (R384): the addresses and
the parked regions claimed. -/
def claimUntil (limit : Nat) (used : List (Nat × Nat)) (gs : List Nat) : List Parked → List Parked → Option (List Nat × List Parked)
  | claimed, [] => (placeAll limit used gs).map fun xs => (xs, claimed)
  | claimed, r :: rest =>
    match placeAll limit (used ++ (r :: rest).map fun q => regionRange q.word) gs with
    | some xs => some (xs, claimed)
    | none => claimUntil limit used gs (claimed ++ [r]) rest

def State.placeRegions (s : State) (p tile : Nat) (regs : List (Nat × Nat)) (drop : List Nat) : Option (List Nat × List Parked) :=
  let t := s.tile tile
  claimUntil (s.tileLimit p) (t.regionsBut drop) (regs.map (·.1)) [] t.parked

/-! ## Regions of pre-empted contexts (R381 to R384) -/

/-- Copy the presence states of n bytes from one key to another. -/
def State.copyPresence (s : State) (src dst n : Nat) : State :=
  let fulls := s.full.filter fun p => decide (src / 8 ≤ p.1) && decide (p.1 < (src + n) / 8)
  let s := s.emptyRange dst n
  { s with full := fulls.foldl (fun m p => NMap.set false m (p.1 - src / 8 + dst / 8) p.2) s.full }

/-- Copy n bytes of storage from one key to another; what stood under a code in error is in error there too. -/
def State.copyRange (s : State) (src dst n : Nat) : State :=
  let bytes := s.mem.filter fun p => decide (src ≤ p.1) && decide (p.1 < src + n)
  let bads := (s.bad.filter fun p => decide (src / 8 ≤ p.1) && decide (p.1 < (src + n) / 8)).flatMap fun p =>
    codeKeys (p.1 * 8 - src + dst) (codeSpan src)
  let s := s.zeroRange dst n
  { s with mem := bytes.foldl (fun m p => NMap.set emptyByte m (p.1 - src + dst) p.2) s.mem,
           bad := bads.foldl (fun m k => NMap.set false m (k / 8) true) s.bad }

/-- Whether the save area of a partition lies under a key slot of another (R438). -/
def State.saveDenied (s : State) (p image : Nat) : Bool := s.keyDenied p (s.imageKey p image - cellarKey 0) none true

/-- A parked region is claimed: data and presence go into the image of its owner. -/
def State.claimRegion (s : State) (tile : Nat) (r : Parked) : State :=
  let (off, n) := regionRange r.word
  let num := wordField r.word 29 2
  match s.hub.saved.find? fun v => v.ctx.id == ⟨tile, num⟩ && v.ctx.task.launch == r.launch with
  | none => s.onTile tile fun t => { t with parked := t.parked.erase r }
  | some v =>
    let key := tileKey tile off
    let dst := s.imageKey v.ctx.part v.image + 2 ^ 23 + off
    let s := s.trc 8 5 v.ctx [.word num, .word r.reg, .word n]
    let s := (if s.saveDenied v.ctx.part v.image then s else s.copyRange key dst n).copyPresence key dst n
    let v' := { v with claimed := v.claimed ++ [r.reg] }
    let s := s.onTile tile fun t => { t with parked := t.parked.erase r }
    { s with hub := { s.hub with saved := s.hub.saved.map fun w => if w.ctx.id = v.ctx.id ∧ w.ctx.task.launch = r.launch then v' else w } }

/-- The register of a region of a saved context has its new number, and its data is no longer in the image. -/
def State.regionBack (s : State) (v : Saved) (r : Nat × Word) (reg : Nat) : State :=
  let f (w : Saved) : Saved :=
    if w.ctx.id = v.ctx.id ∧ w.ctx.task.launch = v.ctx.task.launch then
      { w with treg := w.treg.map (fun q => if q = r then (reg, r.2) else q), claimed := w.claimed.filter (· != r.1) }
    else w
  { s.onTile v.ctx.id.tile fun t => { t with treg := NMap.set 0 t.treg reg r.2 } with hub := { s.hub with saved := s.hub.saved.map f } }

/-- One region of a saved context comes back: taken in place, or copied back to its BASE (R384); none while a resident
region holds its storage. -/
def State.restoreRegion (s : State) (v : Saved) (r : Nat × Word) : Option State :=
  let k := v.ctx.id
  let t := s.tile k.tile
  let (off, n) := regionRange r.2
  let key := tileKey k.tile off
  let used (i : Nat) : Bool := wordField (NMap.get 0 t.treg i) 31 1 == 1
  let reg := if used r.1 then t.freeTreg else r.1
  let own (q : Parked) : Bool := q.reg == r.1 && q.launch == v.ctx.task.launch && q.word == r.2
  if used reg then none
  else match t.parked.find? own with
    | some q =>
      let s := s.trc 8 5 v.ctx [.word k.num, .word r.1, .word 0]
      some ((s.onTile k.tile fun t => { t with parked := t.parked.erase q }).regionBack v r reg)
    | none =>
      if (t.regionsBut []).any (rangesMeet (off, n)) then none
      else
        let s := (t.parked.filter fun q => rangesMeet (off, n) (regionRange q.word)).foldl (fun s q => s.claimRegion k.tile q) s
        let s := s.trc 8 5 v.ctx [.word k.num, .word r.1, .word n]
        let p := v.ctx.part
        let s := (s.giveStorage k.tile p off n)
        let src := s.imageKey p v.image + 2 ^ 23 + off
        let s := if s.saveDenied p v.image then
            { s.zeroRange key n with bad := (codeKeys key n).foldl (fun b w => NMap.set false b (w / 8) true) s.bad }
          else s.copyRange src key n
        let s := (s.copyPresence src key n).emptyRange src n
        some (s.regionBack v r reg)

/-- All of a list in turn; none if one of them cannot be. -/
def foldSome {α : Type} (f : State → α → Option State) : State → List α → Option State
  | s, [] => some s
  | s, x :: r => match f s x with
    | some s => foldSome f s r
    | none => none

end Sys2Proof.Machine
end

