-- ==== Sys2Proof/Machine/Launch.lean ====
section
/-! DEFINITION. Launches: intake, its checks, the dispatcher's pass, effective priority, the end of a launch (R22 to R30,
R38, R411 to R416, R418, R419). -/

namespace Sys2Proof.Machine

/-! ## Accesses of the dispatcher (R413 to R415, R468) -/

/-- The dispatcher's accesses for a partition are those of no context. -/
def dispCtx (p : Nat) : Ctx := { id := ⟨255, 255⟩, sys := { partid := BitVec.ofNat 4 p } }

/-- What a read of the dispatcher brings; poison: its cause. -/
inductive DRead where
  | ok (bs : List Byte) | wait | fault (code : Nat) | poison (cause : Nat)
  deriving DecidableEq, Repr

/-- A read inside one line; ctl: a control read. A cellar address is walked. -/
def State.dispPiece (s : State) (p : Nat) (ctl : Bool) (a : Word) (n : Nat) : DRead :=
  let c := dispCtx p
  let v := s.partViewer p
  let go (tlb : List TEntry) : DRead :=
    match (if ctl then s.ctlRead c v tlb 8 a n else s.engRead c v tlb 8 a n) with
    | .value x _ => .ok (toBytes n x)
    | .wait | .walk | .hold _ | .defer .. => .wait
    | .poison o => .poison (o.toNat / 2 ^ 24)
    | .fault code => .fault code
  if !zeroBitsOk a then .fault codeAccess
  else if space a = 0 then
    match s.walkEnd v a.toNat false with
    | .fill e => go [e]
    | .fault code _ _ => if 256 ≤ code then .poison (code - 256) else .fault code
    | .hold .. => .wait
  else go []

/-- A read of n bytes, line by line. -/
def State.dispLines (s : State) (p : Nat) (ctl : Bool) : Nat → Word → Nat → DRead
  | 0, _, _ => .ok []
  | fuel + 1, a, n =>
    if n = 0 then .ok []
    else
      let m := Nat.min n (64 - a.toNat % 64)
      match s.dispPiece p ctl a m with
      | .ok bs =>
        match s.dispLines p ctl fuel (a + BitVec.ofNat 64 m) (n - m) with
        | .ok r => .ok (bs ++ r)
        | r => r
      | r => r

def State.dispRead (s : State) (p : Nat) (ctl : Bool) (a : Word) (n : Nat) : DRead := s.dispLines p ctl (n / 64 + 2) a n

/-- The place of a byte that the dispatcher reads. -/
def State.dispPlace (s : State) (p : Nat) (a : Word) : EPlace :=
  match (if space a = 0 then s.walkEnd (s.partViewer p) a.toNat false else .fault 0 false 0) with
  | .fill e => s.engPlace (dispCtx p) (s.partViewer p) [e] false a
  | _ => s.engPlace (dispCtx p) (s.partViewer p) [] false a

/-- The errors that a read of the dispatcher meets, in its walks too, are corrected or reported (R432, R434). -/
def State.noteDisp (s : State) (p : Nat) (a : Word) (n : Nat) : State :=
  if s.soft = [] ∧ s.bad = [] then s
  else (List.range n).foldl (fun s i =>
    let b := a + BitVec.ofNat 64 i
    let s := if space b = 0 ∧ (i = 0 ∨ b.toNat % 65536 = 0) then s.noteWalk p b.toNat else s
    s.noteErrors (s.errorsAt (dispCtx p) (s.dispPlace p b) b 1)) s

/-- Whether a write of the dispatcher must wait: a bank holds a word of it for a bundle (R293), or is closed (R292). -/
def State.hallBusy (s : State) (p a n : Nat) : Bool :=
  match s.hallPlace p a with
  | .stored key _ => (wordKeys key n).any s.heldWords.contains
  | .wait => true
  | _ => false

/-- Whether a write at a Hall address would meet a FULL word of a ONCE region. -/
def State.hallFull (s : State) (p a n : Nat) : Bool :=
  match s.hallPlace p a with
  | .stored key .once => (wordKeys key n).any s.isFull
  | _ => false

/-- A write of the dispatcher inside one line of the partition's Hall, an engine write of Table 10.4: in a ONCE region it
faults where a word is FULL, and writes nothing. -/
def State.hallStore (s : State) (p a : Nat) (bs : List Byte) : State :=
  match s.writePlace (s.hallPlace p a) bs with
  | .done s => s
  | .fault code => s.traceOnce (dispCtx p) 8 code (BitVec.ofNat 64 (2 ^ 60 + a))
  | _ => s

/-- Whether n bytes of Hall addresses lie in regions of a partition. -/
def State.hallHas (s : State) (p a n : Nat) : Bool :=
  n == 0 || (List.range ((a + n - 1) / 4096 + 1 - a / 4096)).all fun i => (s.hallOf p (Nat.max a ((a / 4096 + i) * 4096))).isSome

/-- Whether a word is an address of space 1 that is a multiple of n in a Hall region of a partition. -/
def State.hallWord (s : State) (p : Nat) (w : Word) (n : Nat) : Bool :=
  space w == 1 && zeroBitsOk w && w.toNat % n == 0 && s.hallHas p (wordField w 0 28) 1

/-! ## The descriptor (R414, Table 16.2) -/

/-- A field of a descriptor. -/
def Launch.fld (l : Launch) (off n : Nat) : Nat := imgField l.desc off n
def Launch.word (l : Launch) (off : Nat) : Word := BitVec.ofNat 64 (l.fld off 8)
def Launch.lcq (l : Launch) : Word := l.word 24
def Launch.code (l : Launch) : Word := l.word 32
def Launch.codeSize (l : Launch) : Nat := l.fld 40 4
def Launch.graphOff (l : Launch) : Nat := l.fld 44 4
def Launch.qtOff (l : Launch) : Nat := l.fld 48 4
def Launch.pageq (l : Launch) : Nat := l.fld 7 1
def Launch.slots (l : Launch) : Nat := l.fld 8 1
def Launch.slice (l : Launch) : Nat := l.fld 60 4
def Launch.budget (l : Launch) : Nat := if l.fld 56 4 = 0 then 2 ^ 20 else l.fld 56 4
/-- Windows: bound, size, Hall address. -/
def Launch.window (l : Launch) (i : Nat) : Nat × Nat × Nat :=
  let w := l.word (112 + 8 * i)
  (wordField w 63 1, wordField w 32 17, wordField w 0 28)

/-- The levels of the loop table: kind and trip count (R24). -/
def descLevels (d : List Byte) : List (Nat × Nat) :=
  (List.range (imgField d 6 1)).map fun i =>
    let w := imgField d (64 + 8 * i) 8
    (w / 2 ^ 62, w % 2 ^ 32)

/-- Trip count of the level over packages, of the level over dies, and the product of those over tiles (R27). -/
def pkgTrip (ls : List (Nat × Nat)) : Option Nat := (ls.find? fun l => l.1 == 3).map (·.2)
def dieTrip (ls : List (Nat × Nat)) : Nat := ((ls.find? fun l => l.1 == 2).map (·.2)).getD 1
def tileTrip (ls : List (Nat × Nat)) : Nat := ((ls.filter fun l => l.1 == 1).map (·.2)).foldl (· * ·) 1

/-- Check 3: magic, version, reserved bytes, levels beyond the first NLEVELS. -/
def Launch.descRsvd (l : Launch) : Bool :=
  l.fld 0 4 != 0x4C41554E || l.fld 4 1 != 1 || l.fld 11 1 != 0 || l.fld 224 32 != 0
    || (List.range 6).any fun i => decide (l.fld 6 1 ≤ i) && l.fld (64 + 8 * i) 8 != 0

/-- Check 4, of what the descriptor itself holds. -/
def State.descBadpb (s : State) (l : Launch) : Bool :=
  let f := l.fld
  let p := l.part
  let winBad (i : Nat) : Bool :=
    let w := l.word (112 + 8 * i)
    let (b, size, a) := l.window i
    wordField w 49 14 != 0 || wordField w 28 4 != 0 || decide (65536 < size) || (b == 1 && !s.hallHas p a size)
  let predBad (i : Nat) : Bool :=
    let w := l.word (176 + 8 * i)
    w != 0 && (w == l.addr || !s.hallWord p w 256)
  let levelBad (i : Nat) : Bool :=
    let w := f (64 + 8 * i) 8
    w % 2 ^ 32 == 0 || w / 2 ^ 32 % 2 ^ 30 != 0
  decide (8 ≤ f 5 1) || decide (f 6 1 = 0) || decide (6 < f 6 1) || decide (12 < f 7 1) || decide (48 < f 8 1)
    || decide (f 9 1 = 0) || decide (16 < f 9 1) || (List.range (f 6 1)).any levelBad || decide (1 < space l.code)
    || decide (l.codeSize < 64) || l.codeSize % 64 != 0 || l.graphOff % 64 != 0 || l.qtOff % 64 != 0
    || decide (l.codeSize < l.qtOff + 128) || decide (l.codeSize < l.graphOff + 320) || f 52 4 % 32 != 0
    || (f 56 4 != 0 && decide (f 56 4 < 1024)) || (List.range 8).any winBad || (List.range 4).any predBad
    || (match pkgTrip l.levels with
      | some n => decide (n ≤ f 12 4)
      | none => f 12 4 != 0)

/-- The form of the loop table (R25): wave levels, spatial levels, inner levels. -/
def loopForm (ls : List (Nat × Nat)) : Bool :=
  let sp := ls.dropWhile fun l => l.1 == 0
  let rest := sp.dropWhile fun l => l.1 != 0
  sp != [] && rest.all (fun l => l.1 == 0) && decide ((ls.filter fun l => l.1 == 3).length ≤ 1)
    && decide ((ls.filter fun l => l.1 == 2).length ≤ 1)

/-- The entries of REGLIST; none for a value out of range. -/
def regList (bs : List Byte) : Nat → Option (List (Nat × Nat))
  | 0 => some []
  | n + 1 =>
    let e := imgField bs 0 4
    let log2 := e % 32
    let kind := e / 32 % 4
    if log2 < 12 ∨ 23 < log2 ∨ kind = 3 ∨ e / 128 ≠ 0 then none
    else (regList (bs.drop 4) n).map ((log2, kind) :: ·)

/-- Tiles of a partition's rectangle in ascending id (R14, R21). -/
def State.tilesOf (s : State) (p : Nat) : List Nat :=
  let (r0, c0, h, w) := s.rect p
  (List.range h).flatMap fun i => (List.range w).map fun j => (r0 + i) * 16 + c0 + j

/-- Whether D dies of a set of tiles hold T of them each (R27). -/
def gangDies (tiles : List Nat) (ls : List (Nat × Nat)) : List Nat :=
  (List.range 8).filter fun d => decide (tileTrip ls ≤ (tiles.filter fun t => dieOf t == d).length)

/-- Check 6: the gang fits an empty partition. -/
def State.gangFits (s : State) (l : Launch) : Bool :=
  decide (dieTrip l.levels ≤ (gangDies (s.tilesOf l.part) l.levels).length) && decide (l.actors ≤ 64)
    && decide ((l.regs.map fun r => 2 ^ r.1).foldl (· + ·) 0 ≤ s.tileLimit l.part)

/-- Actor nodes of the kernel graph at an address. -/
def State.actorCount (s : State) (l : Launch) : DRead × Nat :=
  let g := l.code + BitVec.ofNat 64 l.graphOff
  match s.dispRead l.part true g 64 with
  | .ok hd =>
    let n := imgField hd 0 4
    if l.codeSize < l.graphOff + 320 + 64 * n then (.ok [], 2 ^ 32)
    else match s.dispRead l.part true (g + 320) (64 * n) with
      | .ok bs => (.ok [], ((List.range n).filter fun i => (bs.getD (64 * i) 1) == 0).length)
      | r => (r, 0)
  | r => (r, 0)

/-- Checks 2 to 6 on a launch whose record path is good: the launch with its regions and actors, its status, its FAULT; none
while a read waits for its bank. -/
def State.checkLaunch (s : State) (l : Launch) : Option (Launch × Status × BitVec 32) :=
  let origin (cause : Nat) : BitVec 32 := engOrigin cause 0 8
  if !s.enabled l.part then some (l, .nopart, 0)
  else if l.descRsvd then some (l, .rsvd, 0)
  else if s.descBadpb l then some (l, .badpb, 0)
  else match s.dispRead l.part true (l.word 208) (4 * l.fld 9 1) with
    | .wait => none
    | .fault _ => some (l, .badpb, 0)
    | .poison cause => some (l, .poison, origin cause)
    | .ok bs =>
      match regList bs (l.fld 9 1) with
      | none => some (l, .badpb, 0)
      | some regs =>
        let size0 := 2 ^ (regs.headD (0, 0)).1
        if size0 < l.codeSize ∨ size0 ≤ l.fld 52 4 then some (l, .badpb, 0)
        else match s.actorCount l with
          | (.wait, _) => none
          | (.fault _, _) => some (l, .fault, 0)
          | (.poison cause, _) => some (l, .poison, origin cause)
          | (.ok _, n) =>
            let l := { l with regs := regs, actors := n }
            some (if n = 2 ^ 32 then (l, .badpb, 0)
              else if !loopForm l.levels then (l, .loopform, 0)
              else if !s.gangFits l then (l, .gangfit, 0)
              else (l, .ok, 0))

/-- What the check of the record path gives (check 1). -/
inductive Path where
  | wait | good | bad (st : Status)
  deriving DecidableEq, Repr

/-- The record path: LCQ is a Hall address with its space bits (R283; Table 16.2). -/
def State.recordPath (s : State) (p : Nat) (lcq : Word) : Path :=
  if lcq = 0 then .good
  else if !s.hallWord p lcq 16 then .bad .badpb
  else match s.dispRead p true lcq 16 with
    | .poison _ => .bad .poison
    | .wait => .wait
    | .fault _ => .bad .badpb
    | .ok e =>
      let log2 := imgField e 8 1
      let base := BitVec.ofNat 64 (imgField e 0 8)
      if imgField e 9 3 ≠ 0 ∨ (log2 ≠ 0 ∧ (log2 < 4 ∨ 12 < log2)) then .bad .badpb
      else if log2 = 0 then .good
      else if space base = 1 ∧ zeroBitsOk base ∧ base.toNat % (32 * 2 ^ log2) = 0 ∧ s.hallHas p (wordField base 0 28) (32 * 2 ^ log2) then .good
      else .bad .badpb

/-! ## Intake (R413) -/

def State.onLaunch (s : State) (id : Nat) (f : Launch → Launch) : State :=
  { s with hub := { s.hub with launches := s.hub.launches.map fun l => if l.id = id then f l else l } }

def State.launch? (s : State) (id : Nat) : Option Launch := s.hub.launches.find? fun l => l.id == id

/-- DSTATE of a launch (Table 16.2). -/
def State.setDstate (s : State) (l : Launch) (state : Nat) (st : Status) : State :=
  s.hallStore l.part (wordField l.addr 0 28 + 16) (toBytes 8 (state + 2 ^ 8 * st.code))

/-- A launch completes with a status; LAUNCH_END writes it. -/
def State.finishLaunch (s : State) (id : Nat) (st : Status) (fault : BitVec 32) : State :=
  s.onLaunch id fun l => { l with stage := .finishing, status := if l.status = .ok then st else l.status,
                                  fault := if l.status = .ok then fault else l.fault }

/-- A pass of a partition is due at once: a submission or a task end (R38). -/
def State.wantPass (s : State) (p : Nat) : State := { s with hub := { s.hub with lastPass := NMap.set 0 s.hub.lastPass p 0 } }

/-- A descriptor address was taken from a queue: QUEUED, then its checks; none while a read waits for its bank. -/
def State.takeLaunch (s : State) (p q : Nat) (a : Word) : Option State :=
  let l0 : Launch := { id := s.hub.nextLaunch, part := p, queue := q, addr := a, desc := [], prio := 0, eff := 0, waitFrom := s.clk, order := s.stamp }
  let s := s.setDstate l0 1 .ok
  let add (l : Launch) (st : Status) (fault : BitVec 32) : State :=
    let s := s.trcPkg 10 0 p [.word p, .word q, .long a.toNat, .word st.code]
    let l := if st = .ok then l else { l with stage := .finishing, status := st, fault := fault }
    { s with stamp := s.stamp + 1, hub := { s.hub with nextLaunch := s.hub.nextLaunch + 1, launches := s.hub.launches ++ [l] } }
  let broken (l : Launch) (st : Status) : State :=
    (add { l with recordPath := false } st 0).hubFault 4 p 0 0 [BitVec.ofNat 64 q, a, BitVec.ofNat 64 st.code]
  match s.dispRead p true a 256 with
  | .wait => none
  | .poison _ => some (broken l0 .poison)
  | .fault _ => some (broken l0 .badpb)
  | .ok d =>
    let prio := imgField d 5 1 % 8
    let l := { l0 with desc := d, prio := prio, eff := prio, levels := if imgField d 6 1 ≤ 6 then descLevels d else [] }
    match s.recordPath p l.lcq with
    | .wait => none
    | .bad st => some (broken l st)
    | .good => (s.checkLaunch l).map fun (l, st, fault) => add l st fault

/-- The errors that intake's reads for a launch meet are corrected or reported: the descriptor, the entry that LCQ names, the
regions and the header of the graph as far as the checks read them. -/
def State.noteIntake (s : State) (p : Nat) (e : Word) (l : Launch) : State :=
  let s := s.noteDisp p (BitVec.ofNat 64 (2 ^ 60 + wordField e 0 28)) 256
  if !l.recordPath then s
  else
    let s := if l.lcq = 0 then s else s.noteDisp p l.lcq 16
    if !s.enabled p || l.descRsvd || s.descBadpb l then s
    else
      let s := s.noteDisp p (l.word 208) (4 * l.fld 9 1)
      if l.regs = [] then s else s.noteDisp p (l.code + BitVec.ofNat 64 l.graphOff) (320 + 64 * l.actors)

/-- Address of the entry at HEAD of queue q of a partition, with the address of HEAD and its value (Table 16.1, R412). -/
def State.lqHead (s : State) (p q : Nat) : Option (Nat × Nat × Nat) :=
  let w := NMap.get 0 s.hub.lq (p * 8 + q)
  let at_ := wordField w 10 22 * 64 + 8
  match s.hallPlace p at_ with
  | .stored key _ =>
    let head := s.valueAt key 8
    some (wordField w 34 22 * 64 + 8 * (head % 2 ^ wordField w 59 4), at_, head)
  | _ => none

/-- An entry is taken: its word becomes EMPTY and HEAD advances (R413). -/
def State.takeLqEntry (s : State) (p ea at_ head : Nat) : State :=
  let s := match s.hallPlace p ea with
    | .stored key _ => s.setFull key false
    | _ => s
  s.hallStore p at_ (toBytes 8 (head + 1))

/-- The read of the next entry of queue q of a partition: an acquiring read, deferred in the ONCE ring while the entry is
EMPTY, whose value is fixed by the write that ends that (R294, R413). -/
def State.readLqEntry (s : State) (p q ea : Nat) : State × EResult :=
  let n := p * 8 + q
  match s.hub.reads.find? fun h => h.queue == some n with
  | some h =>
    if h.d.out then (s, .poison 0)
    else if !h.d.keys.all (fun k => h.d.got.any fun g => g.1 == k) then (s, .wait)
    else if s.badRead h.key 8 then (s, .poison 0)
    else (s, .value (s.readGot (some h.d) h.key 8) 0)
  | none =>
    match s.engRead (dispCtx p) (s.partViewer p) [] 8 (BitVec.ofNat 64 (2 ^ 60 + ea)) 8 with
    | .defer key kind =>
      ({ s with hub := { s.hub with reads := s.hub.reads ++ [⟨key, 8, false, s.newDeferral (BitVec.ofNat 64 (2 ^ 60 + ea)) 8 key kind, some n⟩] } }, .wait)
    | r => (s, r)

/-- The read of the next entry of a queue is over. -/
def State.lqReadOver (s : State) (p q : Nat) : State :=
  { s with hub := { s.hub with reads := s.hub.reads.filter fun h => h.queue != some (p * 8 + q) } }

/-- The dispatcher takes the next entry of queue q of a partition; an EMPTY entry defers it, and it waits while a bank that
it reads or writes serves others first. -/
def execLaunchIntake (p q : Nat) (s : State) : Out :=
  if wordField (NMap.get 0 s.hub.lq (p * 8 + q)) 63 1 = 0 then .next s
  else match s.lqHead p q with
    | none => .next s
    | some (ea, at_, head) =>
      match s.readLqEntry p q ea with
      | (t, .wait) | (t, .walk) | (t, .hold _) | (t, .defer ..) => .next t
      | (t, x) =>
        if t.hallBusy p at_ 8 then .next t
        else
          let u := ((t.noteDisp p (BitVec.ofNat 64 (2 ^ 60 + ea)) 8).lqReadOver p q).takeLqEntry p ea at_ head
          match x with
          | .value v _ =>
            let e := BitVec.ofNat 64 v
            if !s.hallWord p e 256 then .next (u.hubFault 3 p 0 0 [BitVec.ofNat 64 q, e])
            else if u.hallBusy p (wordField e 0 28 + 16) 8 then .next t
            else match u.takeLaunch p q e with
              | some u => .next ((u.hub.launches.getLast?.elim u (u.noteIntake p e)).wantPass p)
              | none => .next t
          | _ => .next (u.hubFault 3 p 0 0 [BitVec.ofNat 64 q, 0])

/-! ## Room on a tile (R19, R286, R384, R418) -/

/-- Resident contexts of a tile, but some. -/
def State.residents (s : State) (tile : Nat) (drop : List CtxId) : List Ctx :=
  s.ctxs.filter fun c => c.live && c.id.tile == tile && !drop.contains c.id

def Ctx.actors (c : Ctx) : Nat := (c.task.nodes.filter fun n => n.kind == 0).length

/-- Actors of a context: those of its task's graph, read or not yet, or saved (R19). -/
def State.actorsOf (s : State) (c : Ctx) : Nat :=
  if c.task.stage = .ready ∨ c.task.stage = .running then c.actors else ((s.launch? c.task.launch).map (·.actors)).getD 0

/-- Whether shares still free on a tile cover a task's. -/
def State.sharesFit (s : State) (tile pageq slots actors : Nat) (drop : List CtxId) : Bool :=
  let cs := s.residents tile drop
  let sum (f : Ctx → Nat) : Nat := (cs.map f).foldl (· + ·) 0
  decide (sum (·.quota) + pageq ≤ 12) && decide (sum (·.slotShare) + slots ≤ 48) && decide (sum s.actorsOf + actors ≤ 64)

/-- Context number that a task of a launch would take on a tile, if the tile has room. -/
def State.roomOn (s : State) (l : Launch) (drop : List CtxId) (tile : Nat) : Option Nat :=
  let used := (s.residents tile drop).map (·.id.num)
  let gone := (drop.filter fun k => k.tile == tile).map (·.num)
  let tregs := ((s.tile tile).regionsBut gone).length
  if s.sharesFit tile l.pageq l.slots l.actors drop && decide (tregs + l.regs.length ≤ 16)
      && (s.placeRegions l.part tile l.regs gone).isSome then
    (List.range 4).find? fun n => !used.contains n
  else none

/-- Where the gang of a launch's next wave goes, in the order of its dies and tiles; none where it does not fit. -/
def State.gangFor (s : State) (l : Launch) (drop : List CtxId) : Option (List CtxId) :=
  let room := (s.tilesOf l.part).filterMap fun t => (s.roomOn l drop t).map fun n => (⟨t, n⟩ : CtxId)
  let dies := gangDies (room.map (·.tile)) l.levels
  if dies.length < dieTrip l.levels then none
  else some ((dies.take (dieTrip l.levels)).flatMap fun d => (room.filter fun k => dieOf k.tile == d).take (tileTrip l.levels))

/-- Saved contexts of a launch. -/
def State.savedOf (s : State) (id : Nat) : List Saved := s.hub.saved.filter fun v => v.ctx.task.launch == id

/-- Whether every context of a pre-empted gang can come back to its tile and number, with its shares, and with its regions
in their places (R19, R384, R419). -/
def State.restoreFits (s : State) (l : Launch) (drop : List CtxId) : Option (List CtxId) :=
  let ok (v : Saved) : Bool :=
    let gone := (drop.filter fun k => k.tile == v.ctx.id.tile).map (·.num)
    !(s.residents v.ctx.id.tile drop).any (fun c => c.id == v.ctx.id)
      && s.sharesFit v.ctx.id.tile v.ctx.quota v.ctx.slotShare (s.actorsOf v.ctx) drop
      && decide (((s.tile v.ctx.id.tile).regionsBut gone).length + v.treg.length ≤ 16)
      && v.treg.all fun r => !((s.tile v.ctx.id.tile).regionsBut gone).any (rangesMeet (regionRange r.2))
  if (s.savedOf l.id).all ok then some ((s.savedOf l.id).map (·.ctx.id)) else none

def State.fitFor (s : State) (l : Launch) (drop : List CtxId) : Option (List CtxId) :=
  if l.preempted then s.restoreFits l drop else s.gangFor l drop

/-! ## Indices of a task (R26, R28, R29) -/

/-- Digits of a number over trip counts, the last fastest. -/
def digits : List Nat → Nat → List Nat
  | [], _ => []
  | t :: rest, n => (n / rest.foldl (· * ·) 1 % t) :: digits rest n

/-- The index of each level for a task: wave digits, tile digits, die index, package index; an inner level's trip count. -/
def taskIndex (j pkg : Nat) : Bool → List Nat → List Nat → List (Nat × Nat) → List Nat
  | _, _, _, [] => []
  | seen, ws, ts, (kind, trip) :: rest =>
    match kind with
    | 0 => if seen then trip :: taskIndex j pkg seen ws ts rest else ws.headD 0 :: taskIndex j pkg seen (ws.drop 1) ts rest
    | 1 => ts.headD 0 :: taskIndex j pkg true ws (ts.drop 1) rest
    | 2 => j :: taskIndex j pkg true ws ts rest
    | _ => pkg :: taskIndex j pkg true ws ts rest

/-- Trip counts of the wave levels. -/
def waveTrips (ls : List (Nat × Nat)) : List Nat := (ls.takeWhile fun l => l.1 == 0).map (·.2)

/-- Indices and TASKID of task i of a gang in its order. -/
def Launch.taskAt (l : Launch) (i : Nat) : List Nat × Nat :=
  let t := tileTrip l.levels
  let ix := taskIndex (i / t) (l.fld 12 4) false (digits (waveTrips l.levels) l.wave)
    (digits ((l.levels.filter fun x => x.1 == 1).map (·.2)) (i % t)) l.levels
  (ix, (l.levels.zip ix).foldl (fun acc (x, n) => if x.1 = 0 then acc else acc * x.2 + n) 0)

def Launch.waves (l : Launch) : Nat := (waveTrips l.levels).foldl (· * ·) 1

/-! ## The pass (R38, R416, R418, R419) -/

/-- Put a context's record in its place. -/
def State.putCtx (s : State) (c : Ctx) : State :=
  if s.c.id = c.id then { s with c := c } else { s with others := (s.others.filter fun d => d.id != c.id) ++ [c] }

/-- The regions of a task are laid out at its placement (R415, step 1): parked ones that stand in the way are claimed. -/
def State.layOut (s : State) (k : CtxId) (l : Launch) : State :=
  match s.placeRegions l.part k.tile l.regs [] with
  | none => s
  | some (offs, claimed) =>
    let s := claimed.foldl (fun s r => s.claimRegion k.tile r) s
    let s := (l.regs.zip offs).foldl (fun s (r, off) => s.giveRegion k.tile k.num l.part r.1 r.2 off) s
    s.onCtx k fun c => { c with task := { c.task with base := offs.headD 0 } }

/-- Tasks of a wave take their contexts and their regions; each then waits for its image (R415). -/
def State.placeGang (s : State) (l : Launch) (ks : List CtxId) : State :=
  let s := s.trcPkg 10 1 l.part [.word l.id, .word l.wave, .word ks.length, .word l.took]
  let s := ks.zipIdx.foldl (fun s (k, i) =>
    let (ix, id) := l.taskAt i
    let c : Ctx :=
      { id := k, live := true, seq := s.stamp * 2 ^ 40 + 1, sys := { partid := BitVec.ofNat 4 l.part, taskid := BitVec.ofNat 64 id },
        budget := l.budget, slice := l.slice, slotShare := l.slots, quota := l.pageq,
        params := (List.range 8).filterMap (fun i =>
          let (b, size, a) := l.window i
          if b = 1 then some (i, { bound := true, size := size, hall := a }) else none),
        task := { stage := .placed, launch := l.id, index := ix } }
    ({ s with stamp := s.stamp + 1 }.putCtx c).layOut k l) s
  let s := if l.wave = 0 then s.setDstate l 2 .ok else s
  s.onLaunch l.id fun l => { l with stage := .running, gang := ks, ends := [], residentFrom := s.clk, req := none, restoredAt := none,
                                    kept := none, took := 0 }

/-- The contexts of a pre-empted gang are given back to it with their regions (R384); each then waits for its restore. -/
def State.recallGang (s : State) (l : Launch) (ks : List CtxId) : State :=
  let s := s.trcPkg 10 1 l.part [.word l.id, .word l.wave, .word ks.length, .word l.took]
  let s := (s.savedOf l.id).foldl (fun s v =>
    let s := s.putCtx
      { id := v.ctx.id, live := true, sys := { partid := v.ctx.sys.partid }, quota := v.ctx.quota, slotShare := v.ctx.slotShare,
        task := { launch := l.id, restored := s.clk } }
    (foldSome (fun s r => s.restoreRegion v r) s v.treg).getD s) s
  s.onLaunch l.id fun l => { l with stage := .running, preempted := false, restoreTime := 0, took := 0 }

/-- DSTATE of a predecessor as it reads now: ended, and its status. -/
def State.predState (s : State) (p : Nat) (w : Word) : Bool × Nat :=
  match s.dispRead p true (w + 16) 8 with
  | .ok bs => (imgField bs 0 1 % 4 == 3, imgField bs 1 1)
  | _ => (false, 0)

def State.preds (s : State) (l : Launch) : List (Bool × Nat) :=
  ((List.range 4).map fun i => l.word (176 + 8 * i)).filter (· != 0) |>.map (s.predState l.part)

/-- A launch whose gang the dispatcher may place now. -/
def State.eligible (s : State) (l : Launch) : Bool :=
  l.stage == .queued && (l.preempted || l.wave != 0 || (s.preds l).all fun d => d.1)

/-- Queued launches all of whose predecessors have ended, one of them with an error, complete with PREDFAIL (R30, R416). -/
def State.failPreds (s : State) (p : Nat) : State :=
  (s.hub.launches.filter fun l => l.part == p && s.eligible l && !l.preempted && l.wave == 0).foldl (fun s l =>
    if (s.preds l).any fun d => d.2 != 0 then s.finishLaunch l.id .predfail 0 else s) s

/-- Slice of a launch in force (R385): Ts and Tr are the longest save and restore of its contexts at its last pre-emption
(log 17). -/
def Launch.sliceNow (l : Launch) : Nat :=
  if l.slice ≠ 0 ∧ l.slice < l.saveTime + l.restoreTime then l.saveTime + l.restoreTime + 65536 else l.slice

/-- Contexts of a launch that are resident. -/
def State.gangNow (s : State) (id : Nat) : List CtxId :=
  (s.ctxs.filter fun c => c.live && c.task.launch == id).map (·.id)

/-- Images of a partition's save area that hold no context. -/
def State.freeImages (s : State) (p : Nat) : List Nat :=
  (List.range (wordField (NMap.get 0 s.hub.psave p) 48 8)).filter fun i =>
    !s.hub.saved.any fun v => v.ctx.part == p && v.image == i

/-- Whether a resident gang is a candidate for a waiting launch (R419). -/
def State.candidate (s : State) (w g : Launch) : Bool :=
  g.part == w.part && g.stage == .running && !g.victim && !s.hub.saved.any (fun v => v.ctx.task.launch == g.id)
    && (decide (g.prio < w.eff) || (g.prio == w.eff && g.slice != 0 && decide (g.residentFrom + g.sliceNow ≤ s.clk)))
    && (match g.restoredAt with
      | some t => decide (t + 65536 ≤ s.clk)
      | none => true)

/-- The shortest run of candidates whose pre-emption lets a launch fit; none where nothing does. -/
def State.victimsFrom (s : State) (w : Launch) (drop : List CtxId) : List Launch → Option (List Launch)
  | [] => none
  | g :: rest =>
    let drop := drop ++ s.gangNow g.id
    if (s.fitFor w drop).isSome then some [g] else (s.victimsFrom w drop rest).map (g :: ·)

/-- Candidates are chosen for a launch that does not fit; contexts that already go count as gone. -/
def State.chooseVictims (s : State) (w : Launch) : State :=
  let going := (s.hub.launches.filter fun g => g.part == w.part && g.victim).flatMap fun g => s.gangNow g.id
  if (s.fitFor w going).isSome then s
  else
    let cs := (s.hub.launches.filter (s.candidate w)).mergeSort fun a b =>
      decide (a.prio < b.prio) || (a.prio == b.prio && decide (a.residentFrom ≤ b.residentFrom))
    match s.victimsFrom w going cs with
    | none => s
    | some gs =>
      let n := (gs.flatMap fun g => s.gangNow g.id).length
      if (s.freeImages w.part).length < going.length + n then s
      else
        gs.foldl (fun s g => (s.trcPkg 10 1 g.part [.word g.id, .word g.wave, .word (s.gangNow g.id).length, .word gs.length]).onLaunch g.id
          fun g => { g with victim := true, saveTime := 0 }) (s.onLaunch w.id fun w => { w with took := w.took + gs.length })

/-- The write of DSTATE that the placement of a launch's first wave makes must wait. -/
def State.dstateBusy (s : State) (l : Launch) : Bool := l.wave == 0 && s.hallBusy l.part (wordField l.addr 0 28 + 16) 8

/-- One launch of a pass: placed, restored, or posted to the host; otherwise candidates are sought. -/
def State.tryLaunch (s : State) (l : Launch) : State × Bool :=
  match s.fitFor l [] with
  | none => (s.chooseVictims l, false)
  | some ks =>
    if l.preempted then (s.recallGang l ks, true)
    else if s.splitBit l.part 4 then
      if l.req.isSome then (s, false)
      else
        let (n, s) := s.hubRequest 5 l.part 0 0 [l.addr, BitVec.ofNat 64 l.wave]
        (s.onLaunch l.id fun l => { l with req := some n }, false)
    else if l.req.isSome ∨ s.dstateBusy l then (s, false)
    else (s.placeGang l ks, true)

/-- Launches in the order of a pass; one that does not fit holds back lower effective priorities only. -/
def State.passOver (s : State) : Option Nat → List Launch → State
  | _, [] => s
  | held, l :: rest =>
    if held.any (fun e => decide (l.eff < e)) then s.passOver held rest
    else
      let (s, placed) := s.tryLaunch l
      s.passOver (if placed then held else some (held.getD l.eff)) rest

/-- Order of a pass: effective priority, then intake; a pre-empted gang stands ahead (R418, R419). -/
def passBefore (a b : Launch) : Bool :=
  decide (b.eff < a.eff) || (a.eff == b.eff && (decide (a.order < b.order) || (a.order == b.order && decide (a.id ≤ b.id))))

def execDispatcherPass (p : Nat) (s : State) : Out :=
  let s := { s with hub := { s.hub with lastPass := NMap.set 0 s.hub.lastPass p s.clk } }
  let s := s.failPreds p
  .next (s.passOver none ((s.hub.launches.filter fun l => l.part == p && s.eligible l).mergeSort passBefore))

/-- The effective priority of waiting launch l rises by one level for each 2^20 clk (R38). -/
def execEffectivePriorityRaise (l : Nat) (s : State) : Out :=
  match s.launch? l with
  | none => .next s
  | some x =>
    if x.stage ≠ .queued ∨ 7 ≤ x.eff ∨ s.clk < x.waitFrom + 2 ^ 20 * (x.eff - x.prio + 1) then .next s
    else .next ((s.trcPkg 10 2 x.part [.word l, .word (x.eff + 1)]).onLaunch l fun x => { x with eff := x.eff + 1 })

/-! ## The end of a launch (R30, R326, R416) -/

/-- The ring that LCQ names: base, log2 of its length, HEAD; none where it names none, or where the read of its entry waits. -/
def State.launchRing (s : State) (l : Launch) : DRead × Option (Nat × Nat × Nat) :=
  if !l.recordPath || l.lcq == 0 then (.ok [], none)
  else match s.dispRead l.part true l.lcq 16 with
    | .ok e => (.ok e, if imgField e 8 1 = 0 then none else some (wordField (BitVec.ofNat 64 (imgField e 0 8)) 0 28, imgField e 8 1, imgField e 12 4))
    | r => (r, none)

/-- The record of a launch; ACTUAL is GTIME at its completion (R246). -/
def Launch.record (l : Launch) : Rec :=
  { status := l.status, kind := 11, sid := l.part + 16 * l.queue, fault := l.fault, version := BitVec.ofNat 32 l.wavesEnded,
    bytes := l.tasksEnded, actual := BitVec.ofNat 64 l.endTime }

/-- A finishing launch completes: DSTATE becomes ENDED. -/
def State.completeLaunch (s : State) (x : Launch) : State :=
  let s := (s.setDstate x 3 x.status).trcPkg 10 5 x.part [.word x.id, .word x.status.code, .word x.wavesEnded, .word x.tasksEnded]
  { s.onLaunch x.id fun y => { y with stage := .ended, endTime := s.gtime, endStamp := s.stamp } with stamp := s.stamp + 1 }

/-- Whether the record of a launch that completed before another, and is to stand in the same ring, is still to be written:
records take their places in the order of completion (R249, R250). -/
def State.recordsAhead (s : State) (x : Launch) : Bool :=
  s.hub.launches.any fun y => y.stage == .ended && y.part == x.part && y.recordPath && y.lcq == x.lcq && decide (y.endStamp < x.endStamp)

/-- The record of a completed launch is written when its ring has room, and the launch is over. A ring place with a FULL word
of a ONCE region is not free: nothing is lost or overwritten (R250, log 18). -/
def State.recordLaunch (s : State) (x : Launch) : State :=
  let ends (s : State) : State := { s with hub := { s.hub with launches := s.hub.launches.filter fun y => y.id != x.id } }
  if s.recordsAhead x then s
  else match s.launchRing x with
    | (.wait, _) => s
    | (_, none) => ends (s.noteDisp x.part x.lcq 16)
    | (_, some (base, log2, head)) =>
      let s := s.noteDisp x.part x.lcq 16
      let key := x.part * 2 ^ 28 + wordField x.lcq 0 28
      let tail := NMap.get 0 s.hub.lcqTails key
      let a := base + 32 * (tail % 2 ^ log2)
      -- HEAD counts modulo 2^32
      if 2 ^ log2 ≤ (tail % 2 ^ 32 + 2 ^ 32 - head) % 2 ^ 32 ∨ s.hallBusy x.part a 32 ∨ s.hallFull x.part a 32 then s
      else
        let s := s.hallStore x.part a (x.record.bytesOf 0 tail log2)
        ends { s with hub := { s.hub with lcqTails := NMap.set 0 s.hub.lcqTails key (tail + 1) } }

/-- DSTATE of a finishing launch becomes ENDED; then its record is written. -/
def execLaunchEnd (l : Nat) (s : State) : Out :=
  match s.launch? l with
  | none => .next s
  | some x =>
    if x.stage = .ended then .next (s.recordLaunch x)
    else if x.stage ≠ .finishing ∨ s.hallBusy x.part (wordField x.addr 0 28 + 16) 8 then .next s
    else
      let s := s.completeLaunch x
      .next (match s.launch? l with
        | some x => s.recordLaunch x
        | none => s)

/-- The contexts on the tiles that an application core chose for a gang, if R26, R27 and the tiles' resources allow. -/
def State.chosenGang (s : State) (l : Launch) (ts : List Nat) : Option (List CtxId) :=
  let ks := ts.filterMap fun t => (s.roomOn l [] t).map fun n => (⟨t, n⟩ : CtxId)
  let t := tileTrip l.levels
  let groups := (List.range (dieTrip l.levels)).map fun j => (ts.drop (j * t)).take t
  let dies := groups.map fun g => dieOf (g.headD 0)
  let good := ks.length == ts.length && ts.length == t * dieTrip l.levels && ts.eraseDups == ts
    && ts.all (s.tilesOf l.part).contains && groups.all (fun g => g.all fun x => dieOf x == dieOf (g.headD 0))
    && dies.eraseDups == dies
  if good then some ks else none

/-- An application core answers a DISPATCH request: the gang goes to the tiles of the list; WAIT or a refused list leaves
it waiting. -/
def execDispatchAnswer (req : Nat) (tiles : Option (List Nat)) (s : State) : Out :=
  match s.takeRequest req with
  | (none, s) => .next s
  | (some q, s) =>
    match s.hub.launches.find? fun l => l.req == some req with
    | none => .next s
    | some l =>
      let s := s.onLaunch l.id fun l => { l with req := none }
      if q.kind ≠ 5 ∨ l.stage ≠ .queued ∨ s.dstateBusy l then .next s
      else match tiles.bind (s.chosenGang l) with
        | some ks => .next (s.placeGang l ks)
        | none => .next s

end Sys2Proof.Machine
end

