-- ==== Sys2Proof/Machine/Tasks.lean ====
section
/-! DEFINITION. Tasks: placement, start, the graph sequencer, the actor scheduler, end (R19, R29 to R36, R140, R286, R287,
R369, R415, R417, R420). -/

namespace Sys2Proof.Machine

/-! ## Parts of a kernel image (R245, R315, R417) -/

/-- The lane table that a task starts with: entry 0 holds zero, every other lane SCOPE 2 until the list names it (R315). -/
def laneTable : NMap Lane := NMap.set {} [] 0 { scope := 0 }

/-- A lane list; none is RSVD. -/
def laneList (bs : List Byte) : Nat → NMap Lane → Option (NMap Lane)
  | 0, m => some m
  | n + 1, m =>
    let e := BitVec.ofNat 64 (imgField bs 0 8)
    let lane := wordField e 2 8
    let bound := e.getLsbD 31
    if wordField e 48 16 ≠ 0 ∨ wordField e 10 21 ≠ 0 ∨ lane = 0 ∨ (bound ∧ wordField e 0 2 ≠ 3) then none
    else laneList (bs.drop 8) n (NMap.set {} m lane { gsid := BitVec.ofNat 16 (wordField e 32 16), bound := bound, scope := wordField e 0 2 })

/-- The queue table of a context: 8 entries at an address; none is RSVD. -/
def State.queueTable (s : State) (k : CtxId) (bs : List Byte) (entry : Word) : Option (NMap CQueue) :=
  let inRegions (off n : Nat) : Bool :=
    (List.range ((n + 4095) / 4096 + 1)).all fun i => ((s.tile k.tile).regionOf k.num (Nat.min (off + 4096 * i) (off + n - 1))).isSome
  let one (i : Nat) : Option CQueue :=
    let log2 := imgField bs (16 * i + 8) 1
    let base := BitVec.ofNat 64 (imgField bs (16 * i) 8)
    let len := 32 * 2 ^ log2
    if imgField bs (16 * i + 9) 3 ≠ 0 then none
    else if log2 = 0 then some {}
    else if log2 < 4 ∨ 12 < log2 ∨ space base ≠ 2 ∨ !zeroBitsOk base ∨ base.toNat % len ≠ 0 ∨ !inRegions (wordField base 0 23) len then none
    else some { entry := entry + BitVec.ofNat 64 (16 * i), base := base, log2 := log2, head := imgField bs (16 * i + 12) 4 }
  (List.range 8).foldl (fun m i => match m, one i with
    | some m, some q => some (NMap.set {} m i q)
    | _, _ => none) (some [])

/-- Entry i of the FIFO table of a graph; none is RSVD. size0: bytes of region 0, in which its offset lies. -/
def fifoEntry (bs : List Byte) (size0 i : Nat) : Option Fifo :=
  let f (off n : Nat) : Nat := imgField bs (64 + 16 * i + off) n
  if f 0 16 = 0 then some ⟨0, 0, 0, 0, 0⟩
  else if f 0 4 % 8 ≠ 0 ∨ size0 ≤ f 0 4 ∨ f 4 4 = 0 ∨ 65536 < f 4 4 ∨ 6 < f 8 1 ∨ f 9 7 ≠ 0 then none
  else some ⟨f 0 4, f 4 4, f 8 1, 0, 0⟩

/-- An input or output of an actor; none is RSVD (R31). -/
def actPort (fifos : List Fifo) (w tile : Nat) : Option ActPort :=
  let kind := w / 64 % 4
  let num := w % 64
  let n := w / 256
  let cap := match kind with
    | 1 => if num < 48 then 16 else 0
    | 2 => if num < 16 then 64 else 0
    | 3 => ((fifos[num]?).map (·.cap)).getD 0
    | _ => 0
  if kind = 0 then some {}
  else if n = 0 ∨ 64 < n ∨ cap < n then none
  else some ⟨kind, num, n, tile⟩

/-- All of a list, if all are there. -/
def allSome {α : Type} : List (Option α) → Option (List α)
  | [] => some []
  | some x :: r => (allSome r).map (x :: ·)
  | none :: _ => none

/-- Node i of a graph, with its actor number; none is RSVD. size0: bytes of region 0. -/
def graphNode (bs : List Byte) (fifos : List Fifo) (size0 i actor : Nat) : Option GNode :=
  let f (off n : Nat) : Nat := imgField bs (320 + 64 * i + off) n
  let kind := f 0 1
  let deps := (List.range 4).map fun j => f (8 + 2 * j) 2
  let tiles := (List.range 4).map fun j => f (26 + j) 1
  let ins := allSome ((List.range 4).map fun j => actPort fifos (f (40 + 4 * j) 4) 0)
  let outs := allSome ((List.range 4).map fun j => actPort fifos (f (56 + 2 * j) 2) (f (26 + j) 1))
  let handleBad := (kind == 1 || kind == 2) && decide (15 < f 24 1)
  let tileBad := tiles.zipIdx.any fun (t, j) => decide (128 ≤ t) || (t != 0 && f (56 + 2 * j) 1 / 64 != 2)
  if 3 < kind ∨ f 1 1 ≥ 8 ∨ f 2 2 ≠ 0 ∨ f 30 2 ≠ 0 ∨ deps.any (fun d => d != 0xFFFF && decide (i ≤ d)) ∨ handleBad
      ∨ (kind ≠ 2 ∧ f 25 1 ≠ 0) ∨ 8 < f 25 1 ∨ f 25 1 = 5 ∨ tileBad then none
  else
    let n (ins outs : List ActPort) : GNode :=
      { num := i, kind := kind, prio := f 1 1, count := f 4 4, deps := deps.filter (· != 0xFFFF), addr := BitVec.ofNat 64 (f 16 8),
        handle := f 24 1, otype := f 25 1, arg := BitVec.ofNat 64 (f 32 8), ins := ins, outs := outs, actor := actor }
    if kind ≠ 0 then some (n [] [])
    else if f 16 8 % 32 ≠ 0 ∨ size0 ≤ f 16 8 then none
    else match ins, outs with
      | some a, some b => some (n a b)
      | _, _ => none

/-- Nodes from number i on; actors are numbered in declaration order. -/
def graphNodes (bs : List Byte) (fifos : List Fifo) (size0 : Nat) : Nat → Nat → Nat → Option (List GNode)
  | 0, _, _ => some []
  | m + 1, i, actor =>
    match graphNode bs fifos size0 i actor with
    | none => none
    | some n => (graphNodes bs fifos size0 m (i + 1) (if n.kind = 0 then actor + 1 else actor)).map (n :: ·)

/-- The graph in the bytes of an image from its offset on; none is RSVD. -/
def readGraph (bs : List Byte) (size0 : Nat) : Option (List Fifo × List GNode) :=
  let n := imgField bs 0 4
  if n = 0 ∨ 65536 < n ∨ imgField bs 4 60 ≠ 0 ∨ bs.length < 320 + 64 * n then none
  else match allSome ((List.range 16).map (fifoEntry bs size0)) with
    | none => none
    | some fifos => (graphNodes bs fifos size0 n 0 0).map fun ns => (fifos, ns)

/-! ## Release of a context (R30, R286) -/

/-- The version operations and arrivals of the task that a context holds are given up, not those of another launch's task
that held its number (R340). -/
def State.dropVersionOps (s : State) (k : CtxId) (c : Ctx) : State :=
  { s with hub := { s.hub with vops := s.hub.vops.filter fun o => !(o.run.cmd.ctx == k && sameTask o.run.cmd.seq c.seq),
                               arrivals := s.hub.arrivals.filter fun a => !(a.k == k && a.launch == c.task.launch) } }

/-- The resources of a context are released: regions, sections, credits, requests, commands. -/
def State.releaseCtx (s : State) (k : CtxId) : State :=
  match s.ctx? k with
  | none => s
  | some c =>
    let s := c.secs.foldl (fun s x => s.releaseSection k x.handle) s
    let mine (w : Word) : Bool := wordField w 31 1 == 1 && wordField w 29 2 == k.num
    let s := s.onTile k.tile fun t => { t with treg := t.treg.filter (fun r => !mine r.2),
                                               queue := t.queue.filter (fun m => m.ctx != k),
                                               posts := t.posts.filter fun q => q.cmd.ctx != k }
    let s := s.returnCredits ((s.tile k.tile).credits.filter fun x => x.owner == k && x.launch == c.task.launch)
    let unlink (t : Tile) : Tile :=
      { t with credits := t.credits.filter fun x => x.launch != c.task.launch || (x.dst != k && x.owner != k) }
    let s : State := { s with tiles := s.tiles.map unlink }
    let s := s.dropVersionOps k c
    let s := if s.c.id = k then { s with c := ({ id := k } : Ctx) } else { s with others := s.others.filter fun d => d.id != k }
    s.updateRow0 k.tile

/-- A gang that cannot start: its contexts are released and its launch ends with a status (R415). -/
def State.refuseGang (s : State) (l : Launch) (st : Status) (fault : BitVec 32) : State :=
  (l.gang.foldl (fun s k => s.releaseCtx k) s).finishLaunch l.id st fault

/-! ## Placement (R415) -/

/-- The bytes of an image as they are written into region 0, 32 by 32. -/
def State.writeImage (s : State) (key : Nat) (sync : Bool) (bs : List Byte) : State :=
  let s := s.writeBytes key bs
  let words := wordKeys key bs.length
  let s := { s with bad := NMap.cut s.bad (key / 8) ((key + bs.length) / 8) }
  if sync then s.fillWords words else s

/-- A task that has its regions and its image reads the rest of it (steps 3 to 5). -/
def State.setupTask (s : State) (c : Ctx) (l : Launch) (base : Nat) (image : List Byte) (lanes : NMap Lane) : Option State :=
  let size0 := 2 ^ (l.regs.headD (12, 0)).1
  let addr (off : Nat) : Word := BitVec.ofNat 64 (2 ^ 61 + base + off)
  match s.queueTable c.id (image.drop l.qtOff) (addr l.qtOff), readGraph (image.drop l.graphOff) size0 with
  | some cqs, some (fifos, nodes) =>
    some (s.onCtx c.id fun c => { c with
      lanes := lanes, cqs := cqs,
      sys := { c.sys with tbase := if l.fld 52 4 = 0 then 0 else addr (l.fld 52 4) },
      task := { c.task with stage := .ready, base := base, nodes := nodes, fifos := fifos } })
  | _, _ => none

/-- What the image and the lane list of a wave give: their bytes, a wait, or the end of the launch. -/
inductive TaskImage where
  | wait
  | bad (st : Status) (fault : BitVec 32)
  | ok (image lanes : List Byte)

/-- The image and the lane list that the tasks of a wave read: the first reads them, and the others take the same bytes. -/
def State.taskImage (s : State) (l : Launch) (tile : Nat) : TaskImage :=
  let origin (cause : Nat) : BitVec 32 := engOrigin cause tile 8
  match l.kept with
  | some (image, lanes) => .ok image lanes
  | none =>
    match s.dispRead l.part false l.code l.codeSize with
    | .wait => .wait
    | .fault _ => .bad .fault 0
    | .poison cause => .bad .poison (origin cause)
    | .ok image => match s.dispRead l.part true (l.word 216) (8 * l.fld 10 1) with
      | .wait => .wait
      | .fault _ => .bad .fault 0
      | .poison cause => .bad .poison (origin cause)
      | .ok lanes => .ok image lanes

/-- The errors that the reads of the image and the lane list of a wave meet are corrected or reported. -/
def State.noteImage (s : State) (l : Launch) : State :=
  if l.kept.isSome then s else (s.noteDisp l.part l.code l.codeSize).noteDisp l.part (l.word 216) (8 * l.fld 10 1)

/-- The task of a context gets its image (steps 2 to 5); while a word of it waits, nothing happens. -/
def execTaskPlacement (k : CtxId) (s : State) : Out :=
  match s.ctx? k with
  | none => .next s
  | some c =>
    match s.launch? c.task.launch with
    | none => .next s
    | some l =>
      if c.task.stage ≠ .placed then .next s
      else match s.taskImage l k.tile with
        | .wait => .next s
        | .bad st fault => .next ((s.noteImage l).refuseGang l st fault)
        | .ok image lanes =>
          let s := (s.noteImage l).onLaunch l.id fun l => { l with kept := some (image, lanes) }
          let s := s.writeImage (tileKey k.tile c.task.base) ((l.regs.headD (0, 0)).2 != 0) image
          match laneList lanes (l.fld 10 1) laneTable with
          | none => .next (s.refuseGang l .rsvd 0)
          | some table => match s.setupTask c l c.task.base image table with
            | none => .next (s.refuseGang l .rsvd 0)
            | some s => .next s

/-- A placed task starts, when every task of its gang is placed: x24 to x29, TASKID, every other register zero (R29). -/
def execTaskStart (k : CtxId) (s : State) : Out :=
  match s.ctx? k with
  | none => .next s
  | some c =>
    let gang := ((s.launch? c.task.launch).map (·.gang)).getD []
    let there (q : CtxId) : Bool := match s.ctx? q with
      | some d => d.task.stage == .ready || d.task.stage == .running || d.task.stage == .ended
      | none => true
    if c.task.stage ≠ .ready ∨ !gang.all there then .next s
    else
      let xs := (List.range 6).foldl (fun (f : Files) i =>
        f.write (.x (24 + i)) (wordVal (BitVec.ofNat 64 (c.task.index.getD i 0))) allBits 0) {}
      .next (s.onCtx k fun c => { c with files := xs, task := { c.task with stage := .running } })

/-! ## The graph sequencer (R36, R278, R280) -/

/-- The image of a section node whose handle is FREE is loaded as by an SCFG without a queue (log 15). -/
def State.loadNode (s : State) (c : Ctx) (n : GNode) : State :=
  let f := (c.nodeCommand n .scfg 8).f
  let r : Run := { cmd := { c.nodeCommand n .scfg 8 with seq := c.seq, op := .scfg f } }
  s.onCtx c.id fun c =>
    { c with seq := c.seq + 1, secs := c.secs ++ [{ handle := n.handle % 16, st := .loading, queue := 8, loading := some r }],
             task := { c.task with nodes := c.task.nodes.map fun m => if m.num = n.num then { m with tried := true } else m } }

/-- Node n is armed, if it can be now. A systolic node whose predecessors have not ended counts as armed and waits. -/
def State.sequence (s : State) (c : Ctx) (n : GNode) : Option State :=
  let deps := c.depNodes n
  let poison := deps.any fun m => m.poison != 0
  if deps.any fun m => !m.armed || (n.kind != 2 && m.waiting) then none
  else if n.count ≠ 0 ∧ n.kind = 2 ∧ deps.any (fun m => !m.ended) then
    (if n.waiting then none else some (s.onCtx c.id fun c => c.onNode n.num fun m => { m with armed := true, waiting := true }))
  else if n.count ≠ 0 ∧ n.kind = 1 ∧ !poison ∧ (c.sec? n.handle).isNone then
    (if n.tried then some (s.closeNode c.id n.num 0) else some (s.loadNode c n))
  else match s.armBehind c n n.count c.seq 8 with
    | .done s => some (s.onCtx c.id fun c => c.onNode n.num fun m => { m with waiting := false })
    | .wait | .status .busy _ => none
    | .status .. => some (s.closeNode c.id n.num 0)

/-- The sequencer of a task arms a node that waited for its barrier, or the first one not armed yet. -/
def execGraphNodeArm (k : CtxId) (s : State) : Out :=
  match s.ctx? k with
  | none => .next s
  | some c =>
    let waiting := c.task.nodes.filter (·.waiting)
    let first := (c.task.nodes.find? fun n => !n.armed).toList
    if !c.live ∨ c.task.stage ≠ .running ∨ c.task.draining.isSome then .next s
    else match (waiting ++ first).findSome? (s.sequence c) with
      | some s => .next s.pumpAll
      | none => .next s

/-! ## The actor scheduler (R32, R140, R369, R420) -/

/-- Whether a firing of a context is in progress and runs, so that no other may begin on its tile. -/
def Ctx.firingRuns (c : Ctx) : Bool := c.live && c.firing && c.halted.isNone && c.resume.isNone

/-- Whether the scheduler of a tile may choose a firing: none runs (R420). Its first bundle follows R140 (State.entryClear). -/
def State.tileIdle (s : State) (tile : Nat) : Bool := !(s.residents tile []).any Ctx.firingRuns

/-- A firing to be resumed on a tile, lowest context number first (R366, R383). -/
def State.toResume (s : State) (tile : Nat) : Option Ctx :=
  ((s.residents tile []).filter fun c => c.resume.isSome && c.halted.isNone && c.task.draining.isNone).foldl (fun b c => match b with
    | none => some c
    | some d => if c.id.num < d.id.num then some c else some d) none

/-- Contexts of a tile whose events wait for a handler firing. -/
def State.toHandle (s : State) (tile : Nat) : Option Ctx :=
  ((s.residents tile []).filter fun c => c.task.stage == .running && !c.firing && c.resume.isNone && c.halted.isNone
      && c.builtin.isNone && c.aside.isNone && c.task.draining.isNone && c.events != []).foldl (fun b c => match b with
    | none => some c
    | some d => if c.id.num < d.id.num then some c else some d) none

/-- The built-in handling of an event acts without a firing, beside those of the context (R369): a page is served, every other
event halts. -/
def State.takeAside (s : State) (c : Ctx) (e : AsyncEvent) : State :=
  let s := s.onCtx c.id fun c => { c with sys := { c.sys with tcause := BitVec.ofNat 8 (128 + e.cause.num), tval := e.tval, tpc := 0, hm := true } }
  let s := s.trc 8 0 c [.word c.id.num, .word (128 + e.cause.num), .long 0, .long e.tval.toNat]
  if e.cause = .page then s.onCtx c.id fun c => { c with aside := some (e.tval, false) } else s.haltCtx c.id ⟨e.cause, true, e.tval, 0⟩

/-- A head event of a context without a firing: a handler firing at TBASE with TPC = 0, or the built-in handling. -/
def execHandlerFiringStart (tile : Nat) (s : State) : Out :=
  match s.toHandle tile with
  | none => .next s
  | some c =>
    match c.events with
    | [] => .next s
    | e :: rest =>
      let t : Trap := ⟨e.cause, true, e.tval, 0⟩
      let s' := s.onCtx c.id fun c => { c with events := rest }
      if c.sys.tbase = 0 then .next (s'.takeAside c e)
      else if !s.tileIdle tile ∨ (s.toResume tile).isSome then .next s
      else
        let s' := s'.onCtx c.id fun c => { c with firing := true, hfiring := true, entry := .handler, budgetCount := 0, frame := { c.frame with act := false } }
        .next ((s'.trc 10 3 c [.word c.id.num, .word c.sys.act.toNat, .long s.clk]).takeTrap c.id t)

/-- The actors of a tile that may fire, each with its context. -/
def State.readyActors (s : State) (tile : Nat) : List (Ctx × GNode) :=
  ((s.residents tile []).filter fun c => c.task.stage == .running && !c.firing && c.resume.isNone && c.halted.isNone
      && c.task.draining.isNone).flatMap fun c =>
    (c.task.nodes.filter fun n => s.actorReady c n).map fun n => (c, n)

/-- The order of R420 among ready actors. -/
def firesBefore (now : Nat) (a b : Ctx × GNode) : Bool :=
  let key (x : Ctx × GNode) : List Nat := [7 - x.2.prio, x.2.since.getD now, x.1.id.num, x.2.actor]
  decide (key a < key b)

/-- Firings of others that may still begin before an actor's (R37). -/
def slackOf (x : Ctx × GNode) : Nat := 64 - x.2.passed

/-- Whether some ready actors can meet R37 only if the one with the least slack fires now: those with a slack of n at
most are more than n. R32 and R420 alone would let an actor of low priority wait for ever (log 24). -/
def mustPass (xs : List (Ctx × GNode)) : Bool :=
  (List.range 65).any fun n => decide (n < (xs.filter fun x => decide (slackOf x ≤ n)).length)

/-- The firing that the scheduler chooses among ready actors (R37, R420). -/
def firesFirst (now : Nat) (x : Ctx × GNode) (rest : List (Ctx × GNode)) : Ctx × GNode :=
  let urgent := mustPass (x :: rest)
  rest.foldl (fun b y =>
    if (urgent && decide (slackOf y < slackOf b)) || ((!urgent || slackOf y == slackOf b) && firesBefore now y b) then y else b) x

/-- The value of argument register s3 + j at entry (Table 1.5). -/
def Ctx.argOf (c : Ctx) (p : ActPort) : Word :=
  match p.kind with
  | 1 => BitVec.ofNat 64 (c.entriesIn p.num)
  | 2 => (c.letterbox p.num).headD 0
  | 3 => match c.task.fifos[p.num]? with
    | some f => BitVec.ofNat 64 (2 ^ 61 + c.task.base + f.off + f.head % f.cap * 2 ^ f.log2)
    | none => 0
  | _ => 0

/-- A firing of an actor begins: the ready actors of equal or lower priority of the tile have seen one more (R37). -/
def Ctx.passBy (n : GNode) (c : Ctx) : Ctx :=
  { c with task := { c.task with nodes := c.task.nodes.map fun m =>
      if m.since.isSome && decide (m.prio ≤ n.prio) then { m with passed := m.passed + 1 } else m } }

/-- Entry of a firing of an actor (R32, R33, R137); its registers are set before its first bundle (R32, State.enter). Its
time of being ready ends here, and runs again from the next clk in which it is ready, its own firing included: no rule says
when it starts again (log 24). -/
def State.enterFiring (s : State) (c : Ctx) (n : GNode) : State :=
  let s := s.trc 10 3 c [.word c.id.num, .word n.actor, .long s.clk]
  let args : List Word := [BitVec.ofNat 64 n.actor, BitVec.ofNat 64 n.firings] ++ n.ins.map c.argOf ++ [n.arg]
  let pass (d : Ctx) : Ctx := if d.live && d.id.tile == c.id.tile then d.passBy n else d
  let s : State := { s with c := pass s.c, others := s.others.map pass }
  s.onCtx c.id fun c =>
    let entry := BitVec.ofNat 64 (2 ^ 61 + c.task.base) + n.addr
    { c with firing := true, hfiring := false, entry := .actor args, posted := [], pc := entry,
             sys := { c.sys with act := BitVec.ofNat 8 n.actor, hm := false, rpc := entry }, budgetCount := 0, notBefore := s.clk,
             frame := { c.frame with act := false }, task := { c.task with actor := n.actor } }.onNode n.num fun m => { m with since := none, passed := 0 }

/-- A resumed firing goes on at its address, of which bits [4:0] are zero (R40). -/
def Ctx.goOn (c : Ctx) : Ctx :=
  match c.resume with
  | none => c
  | some a => { c with resume := none, firing := true, pc := a &&& ~~~31#64, entry := if c.entry = .done then .resumed else c.entry,
                       sys := { c.sys with hm := false } }

/-- The scheduler of a tile starts the firing that R420 chooses, when none runs; a handler firing goes first. -/
def execFiringStart (tile : Nat) (s : State) : Out :=
  if !s.tileIdle tile then .next s
  else match s.toResume tile with
    | some c => .next (s.onCtx c.id Ctx.goOn)
    | none =>
      if (s.toHandle tile).isSome then .next s
      else match s.readyActors tile with
        | [] => .next s
        | x :: rest =>
          let (c, n) := firesFirst s.clk x rest
          .next (s.enterFiring c n)

/-! ## The end of a task (R30) -/

/-- Whether everything of a task has finished. -/
def State.taskDone (s : State) (c : Ctx) : Bool :=
  let k := c.id
  let fin := c.task.nodes.all (fun n => n.armed && n.ended && !n.waiting) && c.secs.all (fun x => x.st == .ready && x.loading.isNone)
    && c.tmpls.isEmpty && c.opens.isEmpty && c.runs.isEmpty && c.hwait.isEmpty && c.waits.isEmpty && c.sbars.isEmpty
    && c.events.isEmpty && c.halted.isNone && c.builtin.isNone && c.aside.isNone && c.trap.isNone && c.resume.isNone
  (fin || c.task.endFault.isSome) && !c.firing && c.undecided.isNone && c.accs.isEmpty
    && c.cqs.all (fun q => q.2.waiting.isEmpty) && !s.hub.outbox.any (fun o => o.k == k && sameTask o.cmd c.seq)

/-- The report of a soft pre-emption: the next wave's indices, the launches waiting in each queue (R380). -/
def State.softReport (s : State) (l : Launch) (wave : Nat) : State :=
  let waiting (q : Nat) : Nat := (s.hub.launches.filter fun m => m.part == l.part && m.queue == q && m.stage == .queued).length
  let s := s.trcPkg 8 6 l.part [.word l.id, .word wave]
  (s.hubRequest 7 l.part 0 0 ((digits (waveTrips l.levels) wave).map (BitVec.ofNat 64)
    ++ (List.range 8).map fun q => BitVec.ofNat 64 (waiting q))).2

/-- A wave whose tasks have all ended: the next one waits for a pass, or the launch finishes (R26, R380). -/
def State.waveOver (s : State) (l : Launch) : State :=
  let s := s.onLaunch l.id fun l => { l with wavesEnded := l.wavesEnded + 1 }
  if l.status ≠ Status.ok ∨ l.waves ≤ l.wave + 1 then s.finishLaunch l.id .ok 0
  else
    let s := if l.soft then s.softReport l (l.wave + 1) else s
    s.onLaunch l.id fun m => { m with stage := .queued, wave := m.wave + 1, gang := [], ends := [], eff := m.prio, waitFrom := s.clk,
                                      order := if l.soft then 0 else m.order, soft := false, victim := false, restoredAt := none, kept := none }

/-- A task that has ended stays resident, in its context number and with its shares, until the last of its gang ends (R37). -/
def Ctx.afterEnd (c : Ctx) : Ctx :=
  { id := c.id, live := true, seq := c.seq, sys := { partid := c.sys.partid, taskid := c.sys.taskid }, quota := c.quota, slotShare := c.slotShare,
    task := { stage := .ended, launch := c.task.launch, index := c.task.index } }

/-- A task has ended: its regions, sections, doors, credits and attachments are released, and its launch takes account of
it; with the last task of the gang the contexts are free (R30, R37). -/
def execTaskEnd (k : CtxId) (s : State) : Out :=
  match s.ctx? k with
  | none => .next s
  | some c =>
    if !c.live ∨ c.task.stage ≠ .running ∨ c.task.draining.isSome ∨ !s.taskDone c then .next s
    else
      let id := c.task.launch
      let s := ((s.releaseCtx k).putCtx c.afterEnd).wantPass c.part
      let s := match c.task.endFault with
        | some f => s.onLaunch id fun l => if l.status = Status.ok then { l with status := .fault, fault := f } else l
        | none => s
      let s : State := { s.onLaunch id fun l => { l with tasksEnded := l.tasksEnded + 1, ends := l.ends ++ [(k, s.stamp)] } with
        stamp := s.stamp + 1 }
      match s.launch? id with
      | none => .next s
      | some l =>
        let gang := s.ctxs.filter fun d => d.live && d.task.launch == id
        if gang.any (fun d => d.task.stage != .ended) || s.savedOf id != [] then .next s
        else .next (((gang.map (·.id)).foldl (fun s k => s.releaseCtx k) s).waveOver l)

/-- The partition manager ends a halted task (R366): everything of it that has not been performed is given up, and its
launch ends with FAULT when its writes have been performed. -/
def execHaltedTaskEnd (k : CtxId) (s : State) : Out :=
  match s.ctx? k with
  | none => .next s
  | some c =>
    match c.halted with
    | none => .next s
    | some cause =>
      let f := BitVec.ofNat 32 (cause.num + k.tile * 2 ^ 8 + k.num * 2 ^ 15)
      let s := s.trc 8 1 c [.word k.num, .word cause.num, .word 2]
      let s := c.secs.foldl (fun s x => s.releaseSection k x.handle) s
      let s := s.onTile k.tile fun t => { t with queue := t.queue.filter (fun m => m.ctx != k), posts := t.posts.filter fun q => q.cmd.ctx != k }
      let s := s.dropVersionOps k c
      .next ((s.onCtx k fun c => { c with
        halted := none, firing := false, hfiring := false, resume := none, builtin := none, aside := none, trap := none, undecided := none, events := [],
        opens := [], runs := [], hwait := [], waits := [], sbars := [], tmpls := [], vgets := [], markers := [], claims := [], landings := [],
        secs := [], accs := c.accs.filter (fun a => a.kind.stores), cqs := c.cqs.map (fun q => (q.1, { q.2 with waiting := [] })),
        task := { c.task with endFault := some f } }).closeEpisodes)

/-- The partition manager resumes a halted context in task mode (R366). -/
def execHaltedContextResume (k : CtxId) (addr : Word) (s : State) : Out :=
  match s.ctx? k with
  | none => .next s
  | some c =>
    match c.halted with
    | none => .next s
    | some cause =>
      let s := s.trc 8 1 c [.word k.num, .word cause.num, .word 1]
      .next (s.onCtx k fun c => { c with halted := none, firing := false, resume := some (addr &&& ~~~31#64), notBefore := s.clk,
                                         sys := { c.sys with hm := false } })

end Sys2Proof.Machine
end

