-- ==== Sys2Proof/Machine/Preempt.lean ====
section
/-! DEFINITION. Pre-emption: soft, hard, the save and the restore of a context (R251, R380 to R385). -/

namespace Sys2Proof.Machine

/-- A launch is pre-empted softly: at the end of the running wave, or at once between two waves (R380). -/
def execSoftPreemption (l : Nat) (s : State) : Out :=
  match s.launch? l with
  | none => .next s
  | some x =>
    if x.stage = .running then .next (s.onLaunch l fun x => { x with soft := true })
    else if x.stage = .queued ∧ x.wave ≠ 0 ∧ !x.preempted then
      .next ((s.softReport x x.wave).onLaunch l fun x => { x with order := 0 })
    else .next s

/-- Hard pre-emption of a context of a chosen gang begins: issue stops and its shutters close without switch tokens
(R381, steps 1 and 2). -/
def execHardPreemption (k : CtxId) (s : State) : Out :=
  match s.ctx? k with
  | none => .next s
  | some c =>
    if !c.live ∨ c.task.stage = .none ∨ c.task.draining.isSome ∨ !((s.launch? c.task.launch).any fun l => l.victim) then .next s
    else
      let s := s.trc 8 4 c [.word k.num, .word 0, .word 0, .word 0]
      let s := c.secs.foldl (fun s x => if x.opened then s.trc 1 2 c [.word x.handle, .word 4] else s) s
      .next (s.onCtx k fun c => { c with secs := c.secs.map Section.shut, task := { c.task with draining := some s.clk } })

/-! ## The save (R251, R381 to R384) -/

/-- The resumption point of a context that is saved (R383): the bundle that had not issued; RPC in task mode out of handler
mode or with the replay flag set; the event of an abandoned handler, or of the built-in handling, is queued again. -/
def Ctx.suspended (c : Ctx) : Ctx :=
  if c.halted.isSome then c
  else
    let events := c.handling.toList ++ (c.aside.toList.map fun a => ⟨.page, a.1⟩) ++ c.events
    let hm := c.sys.hm
    let c := { c with events := events, handling := none, aside := none, builtin := none, trap := none, sys := { c.sys with hm := false } }
    if !c.firing then c
    else if c.hfiring && hm then c.endFiring
    else { c with firing := false, resume := some (if hm || c.replay then c.sys.rpc else c.pc) }

/-- A section as it is saved: extensions are scanned out, grants returned, walks and replays begun again. -/
def Section.suspended (x : Section) : Section :=
  { x with chans := x.chans.map (fun q => { q with ext := 0 }), extDoors := [], extSpill := 0, silence := 0, spillReq := none,
           pageReq := none, hostOrg := none, hostMoves := [], moving := none, shutClk := none, org := x.org.map fun _ => (0, 0),
           edges := x.edges.map fun e => { e with walk := if e.frozen && e.replay.isNone then e.walk else none, defer := none },
           loading := x.loading.map fun r => { r with defers := [], walk := none },
           pes := x.pes.map fun p => { p with loaded := [], fetching := none } }

/-- Reads that wait for presence are withdrawn, to act at the restore as if first issued; streams keep their places (R251,
R295). -/
def Ctx.parkedState (c : Ctx) : Ctx :=
  let again (a : CoreAcc) : CoreAcc :=
    let sync := match a.kind with
      | .load _ _ _ y | .vload _ _ y => y
      | _ => false
    if a.kind.hasDest && !a.kind.isAtomic then
      { a with deferred := false, acquire := a.acquire && sync, got := [], fullSince := none, entries := [] } else a
  let walk (r : Run) : Run :=
    { r with defers := [], diverted := r.diverted.map (fun d => { d with walk := none, defers := [] }),
             walk := match r.walk with
               | some (.waiting ..) => none
               | w => w }
  { c.suspended with accs := c.accs.map again, runs := c.runs.map walk, secs := c.secs.map Section.suspended,
                     task := { c.task with draining := none, saveReq := none } }

/-- A context is scanned into an image of its partition: its regions are parked, its resources released (R381, R384). -/
def State.saveCtx (s : State) (c : Ctx) (image : Nat) : State :=
  let k := c.id
  let since := c.task.draining.getD s.clk
  let s := s.trc 8 4 c [.word k.num, .word image, .word (s.clk - since), .word ((c.secs.map Section.left).foldl (· + ·) 0)]
  let s := c.secs.foldl (fun s x => (s.traceReleased c x).dropGrant k x.handle) s
  let mine (w : Word) : Bool := wordField w 31 1 == 1 && wordField w 29 2 == k.num
  let t := s.tile k.tile
  let regs := t.treg.filter fun r => mine r.2
  let v : Saved :=
    { ctx := ((s.ctx? k).getD c).parkedState, image := image, treg := regs,
      queue := t.queue.filter (fun m => m.ctx == k), posts := t.posts.filter fun q => q.cmd.ctx == k }
  let park (r : Nat × Word) : Parked := ⟨r.1, r.2, c.task.launch, s.clk⟩
  let s := regs.foldl (fun s r => s.trc 8 5 c [.word k.num, .word r.1, .word 0]) s
  let s := s.onTile k.tile fun t =>
    { t with treg := t.treg.filter (fun r => !mine r.2), parked := t.parked ++ regs.map park,
             queue := t.queue.filter (fun m => m.ctx != k), posts := t.posts.filter fun q => q.cmd.ctx != k }
  let s := if s.c.id = k then { s with c := ({ id := k } : Ctx) } else { s with others := s.others.filter fun d => d.id != k }
  let s := ({ s with hub := { s.hub with saved := s.hub.saved ++ [v] } } : State).updateRow0 k.tile
  let s := s.onLaunch c.task.launch fun l => { l with saveTime := Nat.max l.saveTime (s.clk - since) }
  if s.gangNow c.task.launch != [] then s
  else s.onLaunch c.task.launch fun l =>
    { l with stage := .queued, preempted := true, victim := false, order := 0, eff := l.prio, waitFrom := s.clk }

/-- Whether the sections of a context have drained, or 4,096 clk have passed (R381, step 3). -/
def State.drainOver (s : State) (c : Ctx) (since : Nat) : Bool :=
  decide (since + 4096 ≤ s.clk) || c.secs.all fun x =>
    if x.sys.isSome then x.systolicQuiet c s.clk else s.quiet c.id x false

/-- The drain of a context is over: it is saved, into the lowest free image; in host-assisted mode the image is asked for. -/
def execPreemptionDrainEnd (k : CtxId) (s : State) : Out :=
  match s.ctx? k with
  | none => .next s
  | some c =>
    match c.task.draining with
    | none => .next s
    | some since =>
      if !s.drainOver c since || c.undecided.isSome || c.task.saveReq.isSome then .next s
      else if s.splitBit c.part 3 then
        let (n, s) := s.hubRequest 4 c.part k.tile k.num [BitVec.ofNat 64 k.num]
        .next (s.onCtx k fun c => { c with task := { c.task with saveReq := some n } })
      else match s.freeImages c.part with
        | [] => .next s
        | i :: _ => .next (s.saveCtx c i)

/-- An application core chooses the image and the regions to claim (R382); a choice that is not free is asked for again. -/
def execSaveAnswer (req image : Nat) (claim : List Nat) (s : State) : Out :=
  match s.takeRequest req with
  | (none, s) => .next s
  | (some _, s) =>
    match s.ctxs.find? fun c => c.task.saveReq == some req with
    | none => .next s
    | some c =>
      if !(s.freeImages c.part).contains image then
        .next (s.onCtx c.id fun c => { c with task := { c.task with saveReq := none } })
      else
        let s := s.saveCtx c image
        let hit (r : Parked) : Bool := r.launch == c.task.launch && wordField r.word 29 2 == c.id.num && claim.contains r.reg
        .next (((s.tile c.id.tile).parked.filter hit).foldl (fun s r => s.claimRegion c.id.tile r) s)

/-! ## The restore (R381, R383, R384) -/

/-- A section with configuration tag b in place of a, wherever a tag stands in it. -/
def Section.retag (x : Section) (a b : Nat) : Section :=
  let f (t : Nat) : Nat := if t = a then b else t
  let cached (e : Cached) : Cached := { e with tag := f e.tag }
  { x with tag := f x.tag, old := x.old.map (fun o => (o.1, f o.2)), pes := x.pes.map (fun p => { p with tag := f p.tag }),
           chans := x.chans.map (fun q => { q with toks := q.toks.map fun t => (t.1, { t.2 with tag := f t.2.tag }) }),
           edges := x.edges.map (fun e => { e with tag := f e.tag }),
           dealt := x.dealt.foldl (fun m d => NMap.set 0 m (f (d.1 / 256) * 256 + d.1 % 256) d.2) [],
           cached := x.cached.map cached, oldCached := x.oldCached.map cached,
           incoming := x.incoming.map (fun i => { i with cached := i.cached.map cached }), room := x.room.map cached }

/-- The images of a section find tags and space in the cache, beside the live ones; the section under its new tags, numbered
from 16 up while they change, so that two do not meet. -/
def recache (tile : Nat) : List Cached → List Cached → State → Section → Option (State × Section)
  | [], _, s, x => some (s, x)
  | e :: r, live, s, x =>
    match fitCache live e.size (s.tile tile).cached with
    | none => none
    | some (tag, cached) =>
      recache tile r (live ++ [{ e with tag := tag }]) (s.onTile tile fun t => { t with cached := cached }) (x.retag e.tag (16 + tag))

def Section.settleTags (x : Section) : Section := (List.range 16).foldl (fun x t => x.retag (16 + t) t) x

/-- Grants that a RUNNING section asks for when it comes back: none for a cancelled SMM (R278, R435). -/
def Section.restoreGrant (x : Section) : Option Nat :=
  if x.st ≠ .running then none
  else match x.sys with
    | none => some (16 * x.pr * x.pc)
    | some y => if y.smm.any fun m => m.cancelled != 0 then none else some x.sysGrant

/-- One section of a context comes back to its tile (R177, R185, R381); none while it finds no pages or no cache space. -/
def State.restoreSection (s : State) (k : CtxId) (x : Section) : Option State :=
  let org : Option (Option (Nat × Nat)) := match x.org with
    | none => some none
    | some _ => ((freeOrigin (s.usedPages k.tile) x.pr x.pc).filter (s.mayTake k.tile)).map some
  let images := x.images
  match org, recache k.tile images (s.liveImages k.tile) s x with
  | some o, some (s, x) =>
    let run := x.st == .running && x.old.isNone
    -- a restore is no progress of the region (R378)
    let mark := x.mark.zipIdx.map fun m => if m.2 = 0 ∧ m.1 = x.lastEvent then s.clk else m.1
    let x := { x.settleTags with org := o, opened := run, wants := 0, lastEvent := s.clk, mark := mark }
    let s := (s.onCtx k fun c => { c with secs := c.secs ++ [x] }).updateRow0 k.tile
    let s := match run, s.ctx? k with
      | true, some c => s.trc 1 2 c [.word x.handle, .word 4]
      | _, _ => s
    some (match x.restoreGrant with
      | some g => s.askGrant k x.handle g
      | none => s)
  | _, _ => none

/-- Slots that a saved context held, with the free slots of its tile that they become (R218, R251). -/
def State.newSlots (s : State) (v : Saved) : Option (List (Nat × Nat)) :=
  let old := (v.queue.filterMap (·.slot) ++ v.ctx.runs.filterMap (·.cmd.slot)
    ++ v.ctx.cqs.flatMap fun q => q.2.waiting.filterMap (·.slot)).eraseDups
  let used := s.slotsUsed v.ctx.id.tile
  let free := (List.range 48).filter fun i => !used.contains i
  if free.length < old.length then none else some (old.zip free)

/-- A saved context comes back whole to its tile and number and goes on where R383 says. -/
def State.rebuild (s : State) (hold : Ctx) (v : Saved) : Option State :=
  let k := v.ctx.id
  match s.newSlots v with
  | none => none
  | some slots =>
    let slot (n : Option Nat) : Option Nat := n.map fun n => ((slots.find? fun p => p.1 == n).map (·.2)).getD n
    let cmd (m : Command) : Command := { m with slot := slot m.slot }
    let queue (q : CQueue) : CQueue := { q with waiting := q.waiting.map fun w => { w with slot := slot w.slot } }
    let t := s.tile k.tile
    if 64 < t.queue.length + v.queue.length ∨ 64 < t.posts.length + v.posts.length then none
    else match foldSome (fun s r => if NMap.get 0 (s.tile k.tile).treg r.1 = r.2 then some s else s.restoreRegion v r) s v.treg with
      | none => none
      | some s =>
        let back : Ctx := { v.ctx with runs := v.ctx.runs.map (fun r => { r with cmd := cmd r.cmd }), cqs := v.ctx.cqs.map (fun q => (q.1, queue q.2)),
                                       secs := [], notBefore := s.clk, task := { v.ctx.task with restored := s.clk } }
        let s := s.onCtx k fun _ => back
        let s := s.onTile k.tile fun t => { t with queue := t.queue ++ v.queue.map cmd, posts := t.posts ++ v.posts }
        match foldSome (fun s x => s.restoreSection k x) s v.ctx.secs with
        | none => none
        | some s =>
          let s := s.trc 8 4 back [.word k.num, .word v.image, .word (s.clk - hold.task.restored), .word ((v.ctx.secs.map Section.left).foldl (· + ·) 0)]
          let saved := s.hub.saved.filter fun w => !(w.ctx.id == k && w.ctx.task.launch == v.ctx.task.launch)
          let s := { s with hub := { s.hub with saved := saved } }
          some (s.onLaunch v.ctx.task.launch fun l =>
            { l with restoreTime := Nat.max l.restoreTime (s.clk - hold.task.restored), restoredAt := some s.clk, residentFrom := s.clk })

/-- The restore of a context whose place was given back; while storage, pages or slots are short it waits, and the pages
of its tile are compacted (R179). -/
def execContextRestore (k : CtxId) (s : State) : Out :=
  match s.ctx? k with
  | none => .next s
  | some c =>
    match s.hub.saved.find? fun v => v.ctx.id == k && v.ctx.task.launch == c.task.launch with
    | none => .next s
    | some v =>
      if !c.live ∨ c.task.stage ≠ .none then .next s
      else match s.rebuild c v with
        | some s => .next s
        | none => match v.ctx.secs.findSome? fun x => if x.org.isSome && (freeOrigin (s.usedPages k.tile) x.pr x.pc).isNone then
              s.compaction k.tile x.pr x.pc else none with
          | some (k', h', o) => .next (s.startMove k' h' o)
          | none => .next s

end Sys2Proof.Machine
end

