-- ==== Sys2Proof/Machine/Traps.lean ====
section
/-! DEFINITION. Trap entry and the built-in handling, the budget, the quiet-region detector and the pantry, and the host's
answers about pages and buffers (R180, R365, R370 to R372, R376 to R378, R421). -/

namespace Sys2Proof.Machine

/-! ## Trap entry and built-in handling -/

/-- The end of a built-in handling: a firing goes on as TRET does; without a firing only handler mode ends. -/
def Ctx.builtInReturn (c : Ctx) (now : Nat) : Ctx :=
  let c := { c with builtin := none }
  if c.firing then c.trapReturn now else { c with sys := { c.sys with hm := false } }

/-- Frozen elements of a context on a page present their accesses again (R372). -/
def Ctx.againOn (c : Ctx) (page : Nat) : Ctx :=
  let sec (x : Section) : Section :=
    { x with edges := x.edges.map fun e => if e.frozen && e.replay.isNone && pageOf (x.edgeAddr e) == page then e.again none else e }
  { c with secs := c.secs.map sec }

/-- The built-in handling of a page ends: its firing goes on; without a firing it acted beside the context's firings (R369). -/
def Ctx.pageServed (c : Ctx) (aside : Bool) (now : Nat) : Ctx :=
  if aside then { c with aside := none, sys := { c.sys with hm := c.firing && c.sys.hm } } else c.builtInReturn now

/-- The service of a page under the built-in handling (R372): its episode with its report, and its first walk, then, once no
episode is open, its walk. Once the context's writes have reached PKG scope, as for CSYS REPLAY, the replay ends it (R373). -/
def State.servePage (s : State) (c : Ctx) (a : Word) (begun : Bool) (aside : Bool := false) : State :=
  let hit (x : Section) (e : EdgeAcc) : Bool := e.frozen && pageOf (x.edgeAddr e) == pageOf a
  let write := c.secs.any fun x => x.edges.any fun e => hit x e && e.op != 0
  let mine (e : Episode) : Bool := e.covers c.part a
  let known := s.hub.episodes.any mine
  if !begun then
    let s := (s.onCtx c.id fun c => if aside then { c with aside := some (a, true) } else { c with builtin := some (.page a true) }).openEpisode c.id c.part a 16 write 48
    match s.hub.episodes.find? fun e => mine e && e.req.isNone && !known with
    | some e => s.rewalk e
    | none => s
  else if known || !c.writesPassed c.seq then s
  else match s.sliceWalk c.part a.toNat write [(s.viewerNow c, write)] with
    | (s, none) => s
    | (s, some y) => match y with
      | .fault code _ log2 =>
        if code = codePage then s.openEpisode c.id c.part a log2 write 48
        else s.onCtx c.id fun c => (c.againOn (pageOf a)).pageServed aside s.clk
      | .fill _ | .hold .. => s.onCtx c.id fun c => (c.againOn (pageOf a)).pageServed aside s.clk

/-- The page that a context has served without a firing (R369). -/
def State.serveAside (s : State) (k : CtxId) : State :=
  match s.ctx? k with
  | none => s
  | some c => match c.aside with
    | some (a, b) => s.servePage c a b true
    | none => s

/-- A decided trap is entered once the writes in flight have landed (R365). Under the built-in handling: PROMISE restarts
when its command is complete, SKEW goes on when the servo is locked, PAGE when the page is served (Table 14.1). -/
def execTrapEntry (k : CtxId) (s : State) : Out :=
  match s.ctx? k with
  | none => .next s
  | some c =>
    match c.trap, c.builtin with
    | some t, _ => if s.drained c then .next (s.takeTrap k t) else .next s
    | none, some (.promise n) =>
      if c.opens.any fun o => o.seq == n then .next s
      else .next (s.onCtx k fun c => { c with sys := { c.sys with tpc := c.sys.rpc } }.builtInReturn s.clk)
    | none, some .skew => if s.locked then .next (s.onCtx k fun c => c.builtInReturn s.clk) else .next s
    | none, some (.page a b) => .next (s.servePage c a b)
    | none, none => .next (s.serveAside k)

/-- The budget of a firing is reached in task mode: BUDGET before the next bundle; in a handler firing a halt (R421). -/
def execBudget (k : CtxId) (s : State) : Out :=
  match s.ctx? k with
  | none => .next s
  | some c =>
    if !c.canIssue s.clk || c.sys.hm || decide (c.budgetCount < c.budget) then .next s else .next (s.takeBudget k)

/-! ## Quiet regions (R376 to R378) -/

/-- A buffer of a region: a link channel, a door, or the fault spill queue on which a stream waits (R356). -/
inductive Buffer where
  | chan (row col dir : Nat) | door (code : Nat) | spill
  deriving DecidableEq, Repr

/-- Doors that the edge slots of a section name, or its SMM. -/
def Section.doors (x : Section) : List Nat :=
  match x.sys with
  | some y => match y.smm with
    | some m => (x.smmDoors m).1 ++ (x.smmDoors m).2 ++ (List.range (2 * x.pc)).map fun j => 32 + blkField m.blk 1 1 + j
    | none => []
  | none => (((x.image.map (·.edges)).getD []).filter fun e => decide (e.kind < 2)).map (·.door)

/-- Streams that are bound to doors of a section of a context, multicasts of other tiles among them. -/
def Ctx.bound (c : Ctx) (s : State) (x : Section) : List Run :=
  let at_ (d : DoorId) : Bool := d.k == c.id && d.launch == c.task.launch && x.doors.contains d.door
  s.everyCtx.flatMap fun b => b.runs.filter fun r => (r.consumerDoors b ++ s.producerDoors b r).any at_

/-- What changes when a region makes progress. -/
def State.regionMark (s : State) (c : Ctx) (x : Section) : List Nat :=
  [x.lastEvent] ++ (match x.sys.bind fun y => y.smm with
    | some m => [m.next, m.out.length, m.lastPush]
    | none => []) ++ x.doors.map (fun d => doorLen (c.door d)) ++ (c.bound s x).flatMap fun r => [r.cmd.seq, r.pos, r.outp, r.bytes]

/-- The full buffers of a region. -/
def State.fullBuffers (s : State) (c : Ctx) (x : Section) : List Buffer :=
  (x.chans.filter fun q => decide (q.dir < 4) && decide (x.chanCap q.row q.col q.dir ≤ q.toks.length)).map (fun q => .chan q.row q.col q.dir)
    ++ (x.doors.eraseDups.filter fun d => !c.doorRoom d).map .door
    ++ (if (c.bound s x).any s.stoppedBySpill then [.spill] else [])

/-- The order of full buffers: size in tokens, then the ties of R377. -/
def Section.bufferKey (x : Section) (c : Ctx) : Buffer → List Nat
  | .chan row col dir => [x.chanCap row col dir, 0, row, col, dir]
  | .door d => [4 * c.doorCap d, 1, 0, 0, d]
  | .spill => [4096 * (1 + x.extSpill), 2, 0, 0, 0]

def State.buffersInOrder (s : State) (c : Ctx) (x : Section) : List Buffer :=
  (s.fullBuffers c x).mergeSort fun a b => decide (x.bufferKey c a ≤ x.bufferKey c b)

/-- Number of a buffer in a request or a trace record. -/
def Buffer.code : Buffer → Nat
  | .chan row col dir => row * 2 ^ 16 + col * 2 ^ 8 + dir
  | .door d => 2 ^ 24 + d
  | .spill => 2 ^ 25

/-- Whether a region may take another extension: its bound, and the tile's pantry (R377). -/
def State.mayExtend (s : State) (c : Ctx) (x : Section) : Bool :=
  let used := ((s.residents c.id.tile []).map Ctx.extensions).foldl (· + ·) 0
  decide (x.extensions < c.maxext) && decide (used < wordField (NMap.get pctlReset s.hub.pctl c.part) 41 4)

/-- A buffer gets one extension; the count of silence starts again. -/
def State.extend (s : State) (c : Ctx) (x : Section) (b : Buffer) : State :=
  let s := s.trc 8 3 c [.word x.handle, .word b.code, .word (x.extensions + 1)]
  s.onSec c.id x.handle fun x =>
    let x := { x with silence := 0, counted := s.clk, spillReq := none }
    match b with
    | .chan row col dir => x.setChan { x.chan row col dir with ext := (x.chan row col dir).ext + 1 }
    | .door d => { x with extDoors := x.extDoors ++ [d] }
    | .spill => { x with extSpill := x.extSpill + 1 }

/-- DEADLOCK for the context of the section, once in an episode; while its event queue is full it waits (R364, R378). -/
def State.deadlock (s : State) (c : Ctx) (x : Section) : State :=
  match s.raiseEvent c.id .deadlock (BitVec.ofNat 64 (x.handle + 2 ^ 8 * x.extensions)) with
  | none => s
  | some s =>
    let s := s.trc 8 3 c [.word x.handle, .word 0, .word x.extensions]
    s.onSec c.id x.handle fun x => { x with deadlocked := true, declined := false, spillReq := none }

/-- Extensions whose buffers fit again in their own capacity are released. -/
def Section.shrink (x : Section) (c : Ctx) (used : Nat) : Section :=
  let chan (q : Chan) : Chan :=
    if q.ext ≠ 0 ∧ q.toks.length ≤ 2 + x.joinDepth q.row q.col q.dir then { q with ext := 0 } else q
  { x with chans := x.chans.map chan, extDoors := x.extDoors.filter (fun d => decide (16 < doorLen (c.door d))),
           extSpill := if used ≤ 1024 then 0 else x.extSpill }

/-- A region is looked at: progress or a region without a full buffer starts the count of silence again; time that is
frozen, STOPPED or waiting for a grant is not counted; after QUIET clk of silence the smallest full buffer is extended,
or DEADLOCK is raised. Extensions that fit again are released in every state of the section (R377). -/
def execRegionSilent (k : CtxId) (h : Nat) (s : State) : Out :=
  match s.sec? k h with
  | none => .next s
  | some (c, x0) =>
    let x := x0.shrink c (s.spillUsed k.tile)
    let s := if x.extensions < x0.extensions then (s.trc 8 3 c [.word h, .word 0, .word x.extensions]).onSec k h fun _ => x else s
    let mark := s.regionMark c x
    let paused := x.edges.any (·.frozen) || (x.wants != 0 && x.grant == 0)
    let put (x : Section) : State := s.onSec k h fun _ => { x with mark := mark, counted := s.clk }
    if x.st ≠ .running ∨ !c.live then .next s
    else if paused then .next (put x)
    else if mark ≠ x.mark then .next (put { x with silence := 0, deadlocked := false, declined := false })
    else match s.buffersInOrder c x with
      | [] => .next (put { x with silence := 0 })
      | b :: rest =>
        let n := x.silence + (s.clk - x.counted)
        let s' := put { x with silence := n }
        if n < c.quiet ∨ x.deadlocked ∨ x.spillReq.isSome then .next s'
        else
          let s' := if x.silence < c.quiet then s'.trc 8 3 c [.word h, .word b.code, .word x.extensions] else s'
          if x.declined || !s.mayExtend c x then .next (s'.deadlock c x)
          else if s.splitBit c.part 2 then
            let (r, s') := s'.hubRequest 3 c.part k.tile k.num (BitVec.ofNat 64 h :: (b :: rest).map fun b => BitVec.ofNat 64 b.code)
            .next (s'.onSec k h fun x => { x with spillReq := some r })
          else .next (s'.extend c x b)

/-- The section that waits for the answer to a request of the hub. -/
def State.secWaiting (s : State) (p : Section → Bool) : Option (Ctx × Section) :=
  s.ctxs.findSome? fun c => (c.secs.find? p).map fun x => (c, x)

/-- An application core names the buffer to extend, by its place in the request, or declines: DEADLOCK (R377, R378). -/
def execSpillAnswer (req : Nat) (buf : Option Nat) (s : State) : Out :=
  match s.takeRequest req with
  | (none, s) => .next s
  | (some q, s) =>
    match s.secWaiting fun x => x.spillReq == some req with
    | none => .next s
    | some (c, x) =>
      let s := s.onSec c.id x.handle fun x => { x with spillReq := none }
      match buf with
      | none => .next ((s.onSec c.id x.handle fun x => { x with declined := true }).deadlock c x)
      | some i =>
        let named (b : Buffer) : Bool := (q.args.drop 1)[i]? == some (BitVec.ofNat 64 b.code)
        match (s.buffersInOrder c x).find? named with
        | some b => if s.mayExtend c x then .next (s.extend c x b) else .next (s.deadlock c x)
        | none => .next s

/-! ## Page allocation by the host (R180) -/

/-- Shape of the set that a section waits to place. -/
def Section.shape (x : Section) : Nat × Nat := match x.incoming with
  | some i => (i.image.pr, i.image.pc)
  | none => (x.pr, x.pc)

/-- Whether moves in their order, of the sections by context number and handle, and then an origin for a shape keep R176,
R177 and the frozen-section rule. -/
def orderOk (pr pc : Nat) (o : Nat × Nat) : List (Nat × Nat × (Nat × Nat)) → List (CtxId × Section) → Bool
  | [], xs => fitsAt (xs.flatMap fun y => y.2.reserved) pr pc o
  | (n, h, dst) :: r, xs =>
    match xs.find? fun y => y.1.num == n && y.2.handle == h with
    | none => false
    | some (k, x) =>
      let rest := xs.filter fun y => !(y.1 == k && y.2.handle == h)
      x.movable && fitsAt (rest.flatMap fun y => y.2.reserved) x.pr x.pc dst && orderOk pr pc o r (rest ++ [(k, { x with org := some dst })])

/-- An application core gives the origin of a section that waits for pages, and the moves before it: handle with its
context, page row, page column. A choice that would break R176, R177 or the frozen-section rule is refused, and the
request is posted again; an accepted one is carried out by R179's steps. -/
def execPageallocAnswer (req py px : Nat) (moves : List (Nat × Nat × Nat)) (s : State) : Out :=
  match s.takeRequest req with
  | (none, s) => .next s
  | (some _, s) =>
    match s.secWaiting fun x => x.pageReq == some req with
    | none => .next s
    | some (c, x) =>
      let ms := moves.map fun m => (m.1 / 16, m.1 % 16, m.2)
      let ok := orderOk x.shape.1 x.shape.2 (py, px) ms (s.tileSecs c.id.tile)
      .next (s.onSec c.id x.handle fun x =>
        if ok then { x with pageReq := none, hostOrg := some (py, px), hostMoves := ms } else { x with pageReq := none })

end Sys2Proof.Machine
end

