-- ==== Sys2Proof/Machine/Hub.lean ====
section
/-! DEFINITION. Hub registers: privileges, partitions, Hall regions, launch queues, weight sets, key slots, and every
register that a write of its own row does not reach (R21 to R23, R290, R331, R391, R411, R424, R428, R429, R435, R437,
R440, R442, R443). -/

namespace Sys2Proof.Machine

/-! ## Rights and reports (R424, R428) -/

/-- The number of a hub register in a report: its kind in bits 16 and up, its index below (log 21). -/
def hregCode (p n : Nat) : Nat := 16 * 2 ^ 16 + p * 64 + n
def lqCode (p n : Nat) : Nat := 17 * 2 ^ 16 + p * 8 + n
def wsetCode (n : Nat) : Nat := 18 * 2 ^ 16 + n
def kownCode (n : Nat) : Nat := 19 * 2 ^ 16 + n

def hubRegCode : HubReg → Nat
  | .pctl p => p
  | .proot p => 2 ^ 16 + p
  | .psave p => 2 * 2 ^ 16 + p
  | .psplit p => 3 * 2 ^ 16 + p
  | .route n => 4 * 2 ^ 16 + n
  | .keymap g => 5 * 2 ^ 16 + g
  | .limit => 6 * 2 ^ 16
  | .baddr t n => 7 * 2 ^ 16 + t * 8 + n
  | .bact t n => 8 * 2 ^ 16 + t * 8 + n
  | .bctl t n => 9 * 2 ^ 16 + t * 8 + n
  | .waddr t n => 10 * 2 ^ 16 + t * 8 + n
  | .wact t n => 11 * 2 ^ 16 + t * 8 + n
  | .wctl t n => 12 * 2 ^ 16 + t * 8 + n
  | .sampcfg t => 13 * 2 ^ 16 + t
  | .trcfg => 14 * 2 ^ 16
  | .trbank => 15 * 2 ^ 16

/-- The privilege that a register is written with. -/
def hubRegRight : HubReg → Priv
  | .pctl _ | .proot _ | .psave _ | .psplit _ | .route _ | .keymap _ | .limit => .partitionManager
  | .baddr _ _ | .bact _ _ | .bctl _ _ | .waddr _ _ | .wact _ _ | .wctl _ _ | .sampcfg _ | .trcfg | .trbank => .debugger

/-- A write without the right is ignored and reported (R424). -/
def State.violation (s : State) (part reg : Nat) : State := s.hubFault 6 part 0 0 [BitVec.ofNat 64 reg]

/-- A refused write leaves the register, and is reported with the register and the rule broken (R428). -/
def State.refuseWrite (s : State) (part reg rule : Nat) : State := s.hubFault 2 part 0 0 [BitVec.ofNat 64 reg, BitVec.ofNat 64 rule]

/-- The bits of a word that a mask keeps. -/
def keepBits (v mask : Word) : Word := v &&& mask

/-! ## Banks (R292) -/

/-- A bank's owner as a partition plus one is disabled, or is none. -/
def State.ownerOff (s : State) (owner : Nat) : Bool := owner == 0 || !s.enabled (owner - 1)

/-- The number of an owner in a trace record: its partition, 16 for none (DESIGN CHOICE, log 21). -/
def partCode (owner : Nat) : Nat := if owner = 0 then 16 else owner - 1

/-- Reads still deferred in a bank have their answer: poison of cause OUTPART (R292). -/
def State.releaseDeferred (s : State) (bank : Nat) : State :=
  s.reads.foldl (fun s r => if r.2.2.bank = bank then s.onRead r.1 fun d => { d with out := true } else s) s

/-- Requests that wait for a bank, at its shutter or in it: those of the control cores, and reads that wait for presence. -/
def State.requestsAt (s : State) (bank : Nat) : Nat :=
  ((s.everyCtx.flatMap fun c => c.accs.filter fun a => (a.addrs.any fun x => match s.placeOf c x with
    | some (.stored key _) => bankOf key == bank
    | _ => false)).length) + (s.reads.filter fun r => r.2.2.bank == bank).length

/-- The queued requests of a bank are complete, a deferred read with poison (R292): the bank is zeroed, its words EMPTY, and
it has its new owner. -/
def State.openShutter (s : State) (bank : Nat) : State :=
  match s.hub.remaps.find? fun r => r.bank == bank with
  | none => s
  | some r =>
    let held := s.requestsAt (bankOf (hallKey bank 0))
    let old := NMap.get 0 s.bankOwner bank
    let s := s.releaseDeferred (bankOf (hallKey bank 0))
    let s := (s.zeroRange (hallKey bank 0) (2 ^ 19)).emptyRange (hallKey bank 0) (2 ^ 19)
    let s := s.trcPkg 4 2 0 [.word bank, .word (partCode old), .word (partCode r.owner), .word held]
    { s with bankOwner := NMap.set 0 s.bankOwner bank r.owner,
                   hub := { s.hub with remaps := s.hub.remaps.filter fun q => q.bank != bank } }

/-- The changes of owner under way that concern a partition are made: it is disabled while they are (R23, R292). -/
def State.endRemaps (s : State) (p : Nat) : State :=
  ((s.hub.remaps.filter fun r => r.owner == p + 1 || NMap.get 0 s.bankOwner r.bank == p + 1).map (·.bank)).foldl State.openShutter s

/-! ## Partition control (R21 to R23, R428) -/

/-- Bits of PCTLp that a write reaches, EN left out. -/
def pctlMask : Word := 0x00FFFE0000007F7F

def pctlOf (s : State) (p : Nat) : Word := NMap.get pctlReset s.hub.pctl p

/-- First row, first column, height and width of a PCTL value. -/
def rectOf (w : Word) : Nat × Nat × Nat × Nat := (wordField w 4 3, wordField w 0 4, wordField w 12 3 + 1, wordField w 8 4 + 1)

def rectInside (w : Word) : Bool :=
  let (r, c, h, n) := rectOf w
  decide (r + h ≤ 8) && decide (c + n ≤ 16)

def rectsMeet (a b : Word) : Bool :=
  let (r, c, h, n) := rectOf a
  let (r', c', h', n') := rectOf b
  decide (r < r' + h') && decide (r' < r + h) && decide (c < c' + n') && decide (c' < c + n)

/-- A partition is defined once its PCTL was written (log 21). -/
def State.inUse (s : State) (p : Nat) : Bool := s.enabled p || NMap.get false s.hub.defined p

/-- Whether a rectangle lies outside the mesh or meets one of another enabled or defined partition. -/
def State.rectBad (s : State) (p : Nat) (w : Word) : Bool :=
  !rectInside w || (List.range 16).any fun q => q != p && s.inUse q && rectsMeet w (pctlOf s q)

/-- Slot-table entries of all partitions, with a new value for one. -/
def State.slotSum (s : State) (p : Nat) (w : Word) : Nat :=
  ((List.range 16).map fun q => wordField (if q = p then w else pctlOf s q) 45 11).foldl (· + ·) 0

def State.setPctl (s : State) (p : Nat) (w : Word) : State :=
  { s with hub := { s.hub with pctl := NMap.set pctlReset s.hub.pctl p w, defined := NMap.set false s.hub.defined p true } }

/-- Every translation of a partition is dropped (R352). -/
def State.dropPartition (s : State) (p : Nat) : State := (s.dropEntries p 0 (2 ^ 57)).1

/-- A write of PCTLp.EN = 1: refused before stage Ready, with a zero PROOTp, or with a rectangle that is not legal (R425,
R428). Changes of owner of its banks under way are made before it takes effect (R292, log 21). -/
def execPartitionEnable (pr : Priv) (p : Nat) (s : State) : Out :=
  let w := pctlOf s p
  if pr ≠ .partitionManager then .next (s.violation p p)
  else if s.enabled p then .next s
  else if s.hub.bootstat ≠ 7 then .next (s.refuseWrite p p 425)
  else if NMap.get 0 s.hub.proot p = 0 ∨ s.rectBad p w then .next (s.refuseWrite p p 428)
  else .next ((s.endRemaps p).setPctl p (w ||| 0x8000000000000000))

/-- A launch queue holds an entry that intake has not taken. -/
def State.queueBusy (s : State) (p q : Nat) : Bool :=
  let w := NMap.get 0 s.hub.lq (p * 8 + q)
  let ctrl := wordField w 10 22 * 64
  wordField w 63 1 == 1 && (match s.hallPlace p ctrl, s.hallPlace p (ctrl + 8) with
    | .stored t _, .stored h _ => s.valueAt t 8 != s.valueAt h 8
    | _, _ => false)

/-- A resident or saved task, or a launch that is not over, or a queue that is not empty. -/
def State.partBusy (s : State) (p : Nat) : Bool :=
  s.ctxs.any (fun c => c.live && c.part == p) || s.hub.saved.any (fun v => v.ctx.part == p)
    || s.hub.launches.any (fun l => l.part == p) || (List.range 8).any fun q => s.queueBusy p q

/-- A partition is disabled, or answers BUSY and is left unchanged (R23). -/
def execPartitionDisable (pr : Priv) (p : Nat) (s : State) : Out :=
  let w := pctlOf s p
  if pr ≠ .partitionManager then .next (s.violation p p)
  else if !s.enabled p then .next s
  else if s.partBusy p then .next { s with hub := { s.hub with reply := toBytes 1 Status.busy.code } }
  else
    let s := { s with hub := { s.hub with reply := toBytes 1 Status.ok.code } }
    .next ((s.setPctl p (keepBits w 0x7FFFFFFFFFFFFFFF)).dropPartition p)

/-! ## Hall regions (R289, R290) -/

def hregMask : Word := 0xFFFFFFF8FFFF0000

/-- Ranges of a Hall region: Hall addresses, banks, and offsets inside each bank. -/
def hregSpan (w : Word) : (Nat × Nat) × (Nat × Nat) × (Nat × Nat) :=
  let nb := 2 ^ wordField w 56 4
  ((wordField w 16 16 * 4096, 2 ^ wordField w 35 5), (wordField w 47 9, nb), (wordField w 40 7 * 4096, 2 ^ wordField w 35 5 / nb))

def hregsMeet (a b : Word) : Bool :=
  let (h, k, o) := hregSpan a
  let (h', k', o') := hregSpan b
  rangesMeet h h' || (rangesMeet k k' && rangesMeet o o')

/-- The conditions of R290 that refuse a valid region. -/
def State.hregBad (s : State) (p n : Nat) (w : Word) : Bool :=
  let ((base, size), (b0, nb), (o, per)) := hregSpan w
  let unit := if wordField w 60 1 = 1 then 4096 else 64
  decide (wordField w 35 5 < 12) || decide (28 < wordField w 35 5) || decide (9 < wordField w 56 4)
    || base % size != 0 || decide (512 < b0 + nb)
    || (List.range nb).any (fun i => NMap.get 0 s.bankOwner (b0 + i) != p + 1)
    || decide (size < nb * unit) || decide (524288 < o + per)
    || s.hreg.any (fun r => r.1 / 64 == p && r.1 != hregKey p n && wordField r.2 63 1 == 1 && hregsMeet w r.2)
    || wordField w 61 2 == 3

/-- A write of HREGn of a partition: refused while it is enabled or where R290 says; a region made valid has every
presence word EMPTY. -/
def execHregWrite (pr : Priv) (p n : Nat) (v : Word) (s : State) : Out :=
  let w := keepBits v hregMask
  if pr ≠ .partitionManager then .next (s.violation p (hregCode p n))
  else if s.enabled p then .next (s.refuseWrite p (hregCode p n) 23)
  else if wordField w 63 1 = 1 ∧ s.hregBad p n w then .next (s.refuseWrite p (hregCode p n) 290)
  else
    let (_, (b0, nb), (o, per)) := hregSpan w
    let s := { s with hreg := NMap.set 0 s.hreg (hregKey p n) w }
    if wordField w 63 1 = 0 then .next s
    else .next ((List.range nb).foldl (fun s i => s.emptyRange (hallKey (b0 + i) o) per) s)

/-! ## Launch queues (R411) -/

def lqMask : Word := 0xF8FFFFFCFFFFFC00

/-- The valid region of a partition that holds a Hall address. -/
def State.regionAt (s : State) (p a : Nat) : Option Word := (s.hreg.find? fun r => r.1 / 64 == p && hregHolds r.2 a).map (·.2)

def State.lqBad (s : State) (p : Nat) (w : Word) : Bool :=
  let n := 8 * 2 ^ wordField w 59 4
  let ring := wordField w 34 22 * 64
  let ringOk := match s.regionAt p ring with
    | some r => wordField r 61 2 == 2 && hregHolds r (ring + n - 1)
    | none => false
  let ctrlOk := match s.regionAt p (wordField w 10 22 * 64) with
    | some r => wordField r 61 2 != 2
    | none => false
  decide (wordField w 59 4 < 4) || decide (12 < wordField w 59 4) || !ringOk || ring % n != 0 || !ctrlOk

/-- A write of LQp,n: refused while the partition is enabled or where R411 says. -/
def execLqWrite (pr : Priv) (p n : Nat) (v : Word) (s : State) : Out :=
  let w := keepBits v lqMask
  if pr ≠ .partitionManager then .next (s.violation p (lqCode p n))
  else if s.enabled p then .next (s.refuseWrite p (lqCode p n) 23)
  else if wordField w 63 1 = 1 ∧ s.lqBad p w then .next (s.refuseWrite p (lqCode p n) 411)
  else .next { s with hub := { s.hub with lq := NMap.set 0 s.hub.lq (p * 8 + n) w } }

/-! ## Weight sets (R331) -/

def wsetMask : Word := 0xFFFFF800FFFFFFFF

/-- A write of WSETn: refused while V = 1 with a slot STAGING or RETIRING; V becoming 1 frees every slot and every view. -/
def execWsetWrite (pr : Priv) (n : Nat) (v : Word) (s : State) : Out :=
  let w := keepBits v wsetMask
  let old := NMap.get 0 s.hub.wset n
  let moving := (List.range 4).any fun i =>
    (NMap.get {} s.hub.wslot (n * 4 + i)).st == 1 || (NMap.get {} s.hub.wslot (n * 4 + i)).st == 3
  if pr ≠ .partitionManager then .next (s.violation 0 (wsetCode n))
  else if wordField old 63 1 = 1 ∧ moving then .next (s.refuseWrite 0 (wsetCode n) 331)
  else
    let s := { s with hub := { s.hub with wset := NMap.set 0 s.hub.wset n w } }
    if wordField old 63 1 = 0 ∧ wordField w 63 1 = 1 then
      .next { s with hub := { s.hub with wslot := NMap.cut s.hub.wslot (n * 4) (n * 4 + 4),
                                         views := s.hub.views.filter fun x => x.1 % 64 != n } }
    else .next s

/-! ## Key slots (R437, R445) -/

/-- Granules that name a key slot. -/
def State.granulesOf (s : State) (n : Nat) : List Nat :=
  (s.hub.keymap.filter fun g => wordField g.2 63 1 == 1 && wordField g.2 0 11 == n).map (·.1)

/-- A key slot's owner as a partition plus one, 0 for none. -/
def kownPart (w : Word) : Nat := if wordField w 63 1 = 1 then wordField w 0 4 + 1 else 0

/-- The key that the lines of a granule are stored under, if any (R437). -/
def State.granuleKey (s : State) (g : Nat) : Option (BitVec 512) :=
  let w := NMap.get 0 s.hub.keymap g
  if wordField w 63 1 = 1 then some (NMap.get 0 s.hub.keys (wordField w 0 11)) else none

/-- The lines of a granule are stored as the state old had them sealed, and are read as s opens them: a line keeps its bytes
only where both go under one key (R437, log 35). -/
def State.rekeyFrom (old s : State) (g : Nat) : State :=
  if old.granuleKey g = s.granuleKey g then s
  else (List.range (2 ^ 24)).foldl (fun s i =>
    let pa := g * 2 ^ 30 + 64 * i
    s.writeBytes (cellarKey pa) (rekeyLine (old.granuleKey g) (s.granuleKey g) pa (s.bytesAt (cellarKey pa) 64))) s

/-- The bytes of a granule are unpredictable (R445). -/
def State.scramble (s : State) (g : Nat) : State :=
  (List.range (2 ^ 30)).foldl (fun s i =>
    s.setByte (cellarKey (g * 2 ^ 30 + i)) (Config.reassignedByte s.hub.reassigned (cellarKey (g * 2 ^ 30 + i)))) s

/-- A write of KOWNn: key slots are an attribute of partitions, so those concerned are disabled (R21, R23); a slot whose
owner changes is zeroed first, and the granules that name it hold unpredictable bytes. -/
def execKownWrite (pr : Priv) (n : Nat) (v : Word) (s : State) : Out :=
  let w := keepBits v 0x800000000000000F
  let old := NMap.get 0 s.hub.kown n
  let on (o : Nat) : Bool := o != 0 && s.enabled (o - 1)
  if pr ≠ .partitionManager then .next (s.violation 0 (kownCode n))
  else if kownPart old = kownPart w then .next { s with hub := { s.hub with kown := NMap.set 0 s.hub.kown n w } }
  else if on (kownPart old) ∨ on (kownPart w) then .next (s.refuseWrite 0 (kownCode n) 23)
  else
    let named := s.granulesOf n
    let t : State := { s with hub := { s.hub with kown := NMap.set 0 s.hub.kown n w, keys := NMap.set 0 s.hub.keys n 0,
                                                  reassigned := s.hub.reassigned + (if named = [] then 0 else 1) } }
    .next (named.foldl State.scramble t)

/-- The security engine loads a slot from a wrapped blob, if its unwrapping passes. What the granules that name the slot hold
is opened with the new key from then on. -/
def execKeyLoad (n : Nat) (blob : List Byte) (s : State) : Out :=
  match unwrapBlob Config.wrappingKey blob with
  | none => .next s
  | some k => .next ((s.granulesOf n).foldl s.rekeyFrom { s with hub := { s.hub with keys := NMap.set 0 s.hub.keys n k } })

/-! ## The other registers -/

/-- Base grants: 24 for each tile of an enabled partition, 8 for each copy engine (R435). -/
def State.baseGrants (s : State) : Nat :=
  let tiles (p : Nat) : Nat := (rectOf (pctlOf s p)).2.2.1 * (rectOf (pctlOf s p)).2.2.2
  ((List.range 16).map fun p => if s.enabled p then 24 * tiles p else 0).foldl (· + ·) 0 + 256

/-- Grants held: the base grants and those of sections. -/
def State.grantsHeld (s : State) : Nat :=
  s.baseGrants + ((s.ctxs.flatMap fun c => c.secs.map (·.grant))).foldl (· + ·) 0

/-- The first sample of a PC sampler that still lies ahead (R442). -/
def sampleTime (tile p k : Nat) : Nat := k * p + (mix32 (BitVec.ofNat 32 tile) 0 (BitVec.ofNat 32 k)).toNat % 256

def firstSample (tile p now : Nat) : Nat := if sampleTime tile p (now / p) < now then now / p + 1 else now / p

/-- A write of PCTLp with its EN bit left out: only while the partition is disabled, and refused where R428 says. -/
def State.writePctl (s : State) (p : Nat) (v : Word) : State :=
  let w := keepBits v pctlMask
  if s.enabled p then s.refuseWrite p p 23
  else if s.rectBad p w ∨ 1024 < s.slotSum p w then s.refuseWrite p p 428
  else (s.setPctl p w).dropPartition p

def State.writeProot (s : State) (p : Nat) (v : Word) : State :=
  let code := hubRegCode (.proot p)
  if s.enabled p then s.refuseWrite p code 23
  -- TROOT is a multiple of 2 MiB (R345)
  else if v.toNat % 2 ^ 21 ≠ 0 then s.refuseWrite p code 345
  else ({ s with hub := { s.hub with proot := NMap.set 0 s.hub.proot p v } } : State).dropPartition p

def State.writePsave (s : State) (p : Nat) (v : Word) : State :=
  let code := hubRegCode (.psave p)
  let w := keepBits v 0x00FFFFFFFFFFFFFF
  if s.enabled p then s.refuseWrite p code 23
  -- a multiple of 16 MiB, and 1 to 255 images (R428)
  else if wordField w 0 24 ≠ 0 ∨ wordField w 48 8 = 0 then s.refuseWrite p code 428
  else { s with hub := { s.hub with psave := NMap.set 0 s.hub.psave p w } }

def State.writeSampcfg (s : State) (tile : Nat) (v : Word) : State :=
  let w := keepBits v 0x800000000000001F
  if wordField w 63 1 = 1 ∧ (wordField w 0 5 < 8 ∨ 20 < wordField w 0 5) then s.refuseWrite 0 (hubRegCode (.sampcfg tile)) 442
  else s.onTile tile fun t => { t with sampcfg := w, sampleNo := firstSample tile (2 ^ wordField w 0 5) s.clk }

def State.writeWctl (s : State) (tile n : Nat) (v : Word) : State :=
  let w := keepBits v 0xE0E0800FFFFFFFFF
  if wordField w 53 3 = 7 then s.refuseWrite 0 (hubRegCode (.wctl tile n)) 440
  else s.onTile tile fun t => { t with wctl := NMap.set 0 t.wctl n w }

/-- A write of a hub register with the right: reserved bits are not written (R12). -/
def State.writeHubReg (s : State) (r : HubReg) (v : Word) : State :=
  match r with
  | .pctl p => s.writePctl p v
  | .proot p => s.writeProot p v
  | .psave p => s.writePsave p v
  | .psplit p => { s with split := NMap.set 0 s.split p (keepBits v 0x3F) }
  | .route n => ({ s with hub := { s.hub with route := NMap.set 0 s.hub.route n (keepBits v 0x800000000000000F) } } : State).assignPlanes
  | .keymap g => s.rekeyFrom { s with hub := { s.hub with keymap := NMap.set 0 s.hub.keymap g (keepBits v 0x80000000000007FF) } } g
  | .limit => { s with hub := { s.hub with limit := v.toNat, lowerDue := decide (v.toNat < s.grantsHeld) } }
  | .baddr tile n => s.onTile tile fun t => { t with baddr := NMap.set 0 t.baddr n v }
  | .bact tile n => s.onTile tile fun t => { t with bact := NMap.set 0 t.bact n v }
  | .bctl tile n => s.onTile tile fun t => { t with bctl := NMap.set 0 t.bctl n (keepBits v 0x8000800FFFFFFFFF) }
  | .waddr tile n => s.onTile tile fun t => { t with waddr := NMap.set 0 t.waddr n v }
  | .wact tile n => s.onTile tile fun t => { t with wact := NMap.set 0 t.wact n v }
  | .wctl tile n => s.writeWctl tile n v
  | .sampcfg tile => s.writeSampcfg tile v
  | .trcfg => { s with hub := { s.hub with trcfg := v.setWidth 32 } }
  | .trbank => { s with hub := { s.hub with trbank := v.setWidth 12 } }

/-- A write of a hub register without a row of its own (R424). -/
def execHubRegisterWrite (pr : Priv) (r : HubReg) (v : Word) (s : State) : Out :=
  if pr = hubRegRight r then .next (s.writeHubReg r v) else .next (s.violation 0 (hubRegCode r))

end Sys2Proof.Machine
end

