-- ==== Sys2Proof/Machine/Index.lean ====
section
/-! DEFINITION. The X-slot instructions (R147 to R150). -/

namespace Sys2Proof.Machine

/-- Three-operand form (Table 5.3). -/
def State.xop (s : State) (f : XR) (lat : Nat) (op : Word → Word → Word) : State :=
  s.syllable 1 f.g [s.regX f.a, s.regX f.b] [s.regX f.d] fun s => s.putX f.d (op (s.rdX f.a) (s.rdX f.b)) lat

/-- One source and a number 0-63. -/
def State.xnum (s : State) (f : XN) (op : Word → Nat → Word) : State :=
  s.syllable 1 f.g [s.regX f.a] [s.regX f.d] fun s => s.putX f.d (op (s.rdX f.a) f.n.toNat) 1

def execXNop (s : State) : Out := .next s
def execXadd (f : XR) (s : State) : Out := .next (s.xop f 1 fun a b => a + b)
def execXsub (f : XR) (s : State) : Out := .next (s.xop f 1 fun a b => a - b)
def execXaddi (f : XI) (s : State) : Out :=
  .next (s.syllable 1 f.g [s.regX f.a] [s.regX f.d] fun s => s.putX f.d (s.rdX f.a + f.imm.signExtend 64) 1)
def execXshl (f : XN) (s : State) : Out := .next (s.xnum f shlW)
def execXshr (f : XN) (s : State) : Out := .next (s.xnum f shrW)
def execXand (f : XR) (s : State) : Out := .next (s.xop f 1 fun a b => a &&& b)
def execXmul (f : XR) (s : State) : Out := .next (s.xop f 3 fun a b => a * b)
def execXlea (f : XLea) (s : State) : Out :=
  .next (s.syllable 1 f.g [s.regX f.a, s.regX f.b] [s.regX f.d] fun s =>
    s.putX f.d (s.rdX f.a + shlW (s.rdX f.b) f.n.toNat) 1)
def execXmin (f : XR) (s : State) : Out := .next (s.xop f 1 minS)
def execXmax (f : XR) (s : State) : Out := .next (s.xop f 1 maxS)
def execXcmp (f : XCmp) (s : State) : Out :=
  .next (s.syllable 1 f.g [s.regX f.a, s.regX f.b] [s.regQ f.p] fun s =>
    s.putQ f.p (Cond.holds f.c (s.rdX f.a) (s.rdX f.b)) 1)
def execXpopc (f : XU) (s : State) : Out :=
  .next (s.syllable 1 f.g [s.regX f.a] [s.regX f.d] fun s => s.putX f.d (popcW (s.rdX f.a)) 1)
def execXctz (f : XU) (s : State) : Out :=
  .next (s.syllable 1 f.g [s.regX f.a] [s.regX f.d] fun s => s.putX f.d (ctzW (s.rdX f.a)) 1)
def execXbitSet (f : XN) (s : State) : Out := .next (s.xnum f fun a n => a ||| shlW 1 n)
def execXbitClr (f : XN) (s : State) : Out := .next (s.xnum f fun a n => a &&& ~~~(shlW 1 n))
def execXbitFlip (f : XN) (s : State) : Out := .next (s.xnum f fun a n => a ^^^ shlW 1 n)
def execXbitExt (f : XN) (s : State) : Out := .next (s.xnum f fun a n => shrW a n &&& 1)

/-- XMOVS: x(d) := Sreg(a), s0-s31. -/
def execXmovs (f : XU) (s : State) : Out :=
  .next (s.syllable 1 f.g [s.regS (f.a.setWidth 6)] [s.regX f.d] fun s => s.putX f.d (s.rdS (f.a.setWidth 6)) 1)

/-- XTOS: Sreg(d) := x(a), s0-s31. -/
def execXtos (f : XU) (s : State) : Out :=
  .next (s.syllable 1 f.g [s.regX f.a] [s.regS (f.d.setWidth 6)] fun s => s.putS (f.d.setWidth 6) (s.rdX f.a) 1)

/-- XCLAMP: Min(Max(SInt(xa), lo), SInt(xb)). -/
def execXclamp (f : XClamp) (s : State) : Out :=
  .next (s.syllable 1 f.g [s.regX f.a, s.regX f.b] [s.regX f.d] fun s =>
    s.putX f.d (minS (maxS (s.rdX f.a) (f.imm.signExtend 64)) (s.rdX f.b)) 1)

def execXwrap (f : XR) (s : State) : Out := .next (s.xop f 1 fun a b => if a.ult b then a else a - b)

/-- The two registers of a pair (R148, R150). -/
def pairLo (p : BitVec 4) : BitVec 5 := p.setWidth 5 * 2
def pairHi (p : BitVec 4) : BitVec 5 := p.setWidth 5 * 2 + 1

/-- CADV (R148): a cursor that does not advance is not written. -/
def execCadv (f : XCadv) (s : State) : Out :=
  let lo := pairLo f.pair
  let hi := pairHi f.pair
  .next (s.syllable 1 f.g [s.regX f.a, s.regX f.b, s.regX lo, s.regX hi] [s.regX lo, s.regX hi, s.regQ f.p] fun s =>
    let ca := s.rdX f.a
    let cb := s.rdX f.b
    let s := if cb.ult ca then s else s.putX lo (s.rdX lo + 1) 1
    let s := if ca.ult cb then s else s.putX hi (s.rdX hi + 1) 1
    s.putQ f.p (ca == cb) 1)

/-- XLD (R149). -/
def State.xld (s : State) (f : XLd) (size : Nat) : State :=
  s.syllable 1 f.g [s.regX f.a] [s.regX f.d] fun s =>
    let ea := s.rdX f.a + f.off.signExtend 64 * BitVec.ofNat 64 size
    match s.checkX ea size with
    | some c => s.raise 1 c ea
    | none => s.stage (.access ⟨0, 0, 1, 0, ea, size, 0, .load (s.regX f.d) size false false, false, false, [], false, none, none, []⟩)

def execXldW (f : XLd) (s : State) : Out := .next (s.xld f 4)
def execXldD (f : XLd) (s : State) : Out := .next (s.xld f 8)

/-- XBSTEP (R150). A marked base or bound traps POISON as any source does (R216), also where lo ≥ hi, where R150 says that
XBSTEP cannot trap: of the two rules the model takes R216 first (log 24). -/
def State.xbstep (s : State) (f : XBst) (size : Nat) : State :=
  let rlo := s.regX (pairLo f.pair)
  let rhi := s.regX (pairHi f.pair)
  s.syllable 1 f.g [s.regX f.a, s.regX f.b, rlo, rhi] [rlo, rhi] fun s =>
    let lo := s.rdX (pairLo f.pair)
    let hi := s.rdX (pairHi f.pair)
    if !lo.ult hi then s
    else
      let mid := BitVec.ofNat 64 ((lo.toNat + hi.toNat) / 2)
      let ea := s.rdX f.a + mid * BitVec.ofNat 64 size
      let eb := s.rdX f.b - mid * BitVec.ofNat 64 size
      match s.checkX ea size with
      | some c => s.raise 1 c ea
      | none =>
        match s.checkX eb size with
        | some c => s.raise 1 c eb
        | none => s.stage (.access ⟨0, 0, 1, 0, ea, size, 0, .bstep size rlo rhi mid eb, false, false, [], false, none, none, []⟩)

def execXbstepW (f : XBst) (s : State) : Out := .next (s.xbstep f 4)
def execXbstepD (f : XBst) (s : State) : Out := .next (s.xbstep f 8)

end Sys2Proof.Machine
end

