-- ==== Sys2Proof/Machine/Services.lean ====
section
/-! DEFINITION. Package services: bring-up, attestation, banks, the hub aperture, current, sampling, the trace port (R292,
R388, R425 to R427, R431, R433 to R436, R439, R442, R443). -/

namespace Sys2Proof.Machine

/-! ## Bring-up (R425 to R427, R434) -/

/-- A malformed byte of the defect fuse (R427). -/
def fuseBad (b : BitVec 8) : Bool :=
  decide (4 < b.toNat % 8) || b.toNat / 16 != 0 || (!b.getLsbD 3 && b.toNat % 8 != 4)

/-- The physical row that the fuses name as disabled on a die (R427). -/
def State.disabledRow (s : State) (die : Nat) : Nat := (s.hub.fuses[die]?.getD 4).toNat % 8

/-- The physical row of a die that is its logical row: the rows but the disabled one, in ascending order (R15). -/
def State.physRow (s : State) (die row : Nat) : Nat := if row < s.disabledRow die then row else row + 1

/-- The tile site of a logical tile (R14, R15): 20 sites a die, 4 in a physical row. -/
def State.siteOf (s : State) (tile : Nat) : Nat := dieOf tile * 20 + s.physRow (dieOf tile) (tile / 16 % 4) * 4 + tile % 4

/-- Whether a unit of the self-test lies in a disabled row: units 40 × site and the 39 behind it are a site's own, its
tile-memory banks and its mesh links (the numbers are a DESIGN CHOICE, log 39). -/
def State.unitDisabled (s : State) (u : Nat) : Bool := decide (u < 6400) && u / 40 % 20 / 4 == s.disabledRow (u / 800)

/-- Whether a run of the boot stages fails at a stage: verification of the image, self-test, defect map, or one of these or
a later one that the run names; stages 0x01 and 0x07 have no failure. A failure in a disabled row is ignored (R426). -/
def State.stageFails (s : State) (r : BootRun) (n : Nat) : Bool :=
  n == 2 && !Config.firmwareGood s.hub.firmware || n == 3 && !r.units.all s.unitDisabled || n == 4 && s.hub.fuses.any fuseBad
    || decide (2 ≤ n) && decide (n ≤ 6) && r.fails == some (BitVec.ofNat 8 n)

/-- The package at the first boot stage: every register and store at reset; the fuses, the image and the index in the pod
stay (R425). -/
def State.boot (s : State) (r : BootRun) : State :=
  { State.reset with hub := { fuses := s.hub.fuses, firmware := s.hub.firmware, pkg := s.hub.pkg, booting := some r }, free := s.free }

/-- The boot stage under way ends: BOOTSTAT shows the next one, or the safe talkative state. The self-test names the ports
that stay down (R425, R426). -/
def State.bootStep (s : State) : State :=
  match s.hub.booting with
  | none => s
  | some r =>
    let n := s.hub.bootstat.toNat
    let hub : Hub := if s.stageFails r n then
        { s.hub with bootstat := BitVec.ofNat 8 (0x80 + n), powered := false, booting := none, failed := if n < 3 then [] else r.units }
      else
        { s.hub with bootstat := BitVec.ofNat 8 (n + 1), booting := if n < 6 then some r else none,
                     portDown := if n = 3 then r.ports.foldl (fun m p => NMap.set false m p true) [] else s.hub.portDown }
    { s with hub := hub }

def execPowerOnReset (r : BootRun) (s : State) : Out := .next (s.boot r)

/-- The safe talkative state (R426). -/
def State.talkative (s : State) : Bool := s.hub.bootstat.getLsbD 7

/-- In the safe talkative state a new image is accepted and boot starts again; elsewhere the upload is not taken. -/
def execFirmwareUpload (image : List Byte) (r : BootRun) (s : State) : Out :=
  if s.talkative then .next (({ s with hub := { s.hub with firmware := image } } : State).boot r) else .next s

/-- The management port or console answers with BOOTSTAT, and in the safe talkative state with the failed units and the
fuse map. -/
def execStatusQuery (s : State) : Out :=
  let more := if s.talkative then (s.hub.failed.flatMap fun u => toBytes 4 u) ++ s.hub.fuses else []
  .next { s with hub := { s.hub with reply := s.hub.bootstat :: more } }

/-- A mesh link has failed 16 retries in a row: the safe talkative state, with the stage at which it happened; dies,
stacks and optics lose power (R434). -/
def execLinkRetryFailure (link : Nat) (s : State) : Out :=
  if s.talkative then .next s
  else
    let hub : Hub := { fuses := s.hub.fuses, firmware := s.hub.firmware, pkg := s.hub.pkg, faults := s.hub.faults,
                       bootstat := s.hub.bootstat ||| 0x80, powered := false, failed := [link] }
    .next { State.reset with hub := hub, free := s.free, clk := s.clk, gtime := s.gtime }

/-! ## Attestation (R439) -/

/-- The bytes of the partition configuration, register after register. -/
def State.configBytes (s : State) : List Byte :=
  let regs (d : Word) (m : NMap Word) (n : Nat) : List Byte := (List.range n).flatMap fun i => toBytes 8 (NMap.get d m i).toNat
  regs pctlReset s.hub.pctl 16 ++ regs 0 s.hub.proot 16 ++ regs 0 s.hub.kown 2048 ++ regs 0 s.hub.keymap 768 ++ regs 0 s.hub.wset 64

/-- The security engine's report of 288 bytes. -/
def execAttestationRequest (nonce : BitVec 384) (s : State) : Out :=
  let body := toBytes 48 nonce.toNat ++ sha384 s.hub.firmware ++ sha384 s.hub.fuses ++ sha384 s.configBytes
  .next { s with hub := { s.hub with reply := body ++ toBytes 96 (Config.signature body).toNat } }

/-! ## Banks (R292, R433) -/

/-- The shutter of a bank closes for a change of owner, while the partitions concerned are disabled. -/
def execBankRemap (bank : Nat) (owner : Option Nat) (s : State) : Out :=
  let old := NMap.get 0 s.bankOwner bank
  let new := match owner with
    | some p => p + 1
    | none => 0
  if (s.hub.remaps.any fun r => r.bank == bank) ∨ !s.ownerOff old ∨ !s.ownerOff new then .next s
  else
    let s := s.trcPkg 4 2 0 [.word bank, .word (partCode old), .word (partCode new), .word 0]
    .next { s with hub := { s.hub with remaps := s.hub.remaps ++ [⟨bank, new⟩] } }

/-- The shutter of a bank opens (R292). -/
def execBankShutterOpen (bank : Nat) (s : State) : Out := .next (s.openShutter bank)

/-- The patrol scrubber reads one line: what its codes correct it corrects; an error beyond that is reported with its unit
and address, unless a read met it before (R433, R434). -/
def execPatrolScrub (line : Nat) (s : State) : Out := .next (s.noteErrors (codeKeys (line * 64) 64))

/-- Lines of the Hall and tile memory that the scrubber reads in a clk: one of each bank every 65,536 clk, in ascending order
(log 39). Those without an error need no act. -/
def State.patrolLines (s : State) : List Nat :=
  if s.clk % 65536 ≠ 0 then []
  else
    let n := s.clk / 65536
    let inTurn (line : Nat) : Bool :=
      if line < 2 ^ 24 then line / 32 % 4096 == n % 4096 else decide (line < 2 ^ 34) && line % 8192 == n % 8192
    (((s.soft ++ s.bad).map fun p => p.1 / 8).filter inTurn).eraseDups

/-! ## The hub aperture, and peers at the Hall (R388, R431) -/

/-- What an access from the hub or a peer comes to. -/
inductive HubResult where
  | done (s : State) (bytes : List Byte)
  /-- A read of n bytes that meets an EMPTY word of a ONCE region is deferred (R294). -/
  | defer (key n : Nat)
  | wait | fault

/-- The operation of an atomic access, by the codes of EDATM (Table 7.6). -/
def State.hubAtomic (s : State) (key : Nat) (kind : RKind) (op size : Nat) (v : Word) : HubResult :=
  match s.opPlace (.stored key kind) (edatmOp op) size v.toNat with
  | .done t => .done t (s.bytesAt key size)
  | .wait => .wait
  | _ => .fault

/-- A read waits for a word of a ONCE region (Table 10.4); an uncorrectable word is an access fault (R431). -/
def State.hubRead (s : State) (key : Nat) (kind : RKind) (n : Nat) : HubResult :=
  if (wordKeys key n).any s.heldWords.contains then .wait
  else if kind = .once ∧ (wordKeys key n).any fun k => !s.isFull k then .defer key n
  else if s.badRead key n then .fault
  else .done (s.noteErrors (codeKeys key n)) (s.bytesAt key n)

def State.hubAccess (s : State) (place : EPlace) (a : HubAccess) : HubResult :=
  match place, a with
  | .wait, _ => .wait
  | .stored key kind, .read n => if key % 64 + n ≤ 64 then s.hubRead key kind n else .fault
  | .stored key kind, .write n v =>
    if 64 < key % 64 + n then .fault
    else match s.writePlace (.stored key kind) (toBytes n v.toNat) with
      | .done t => .done t []
      | .wait => .wait
      | _ => .fault
  | .stored key kind, .atomic op size v => if size = 0 ∨ key % size ≠ 0 ∨ 8 < size then .fault else s.hubAtomic key kind op size v
  | _, _ => .fault

/-- The place of a hub physical address below the remote aperture. -/
def State.aperturePlace (s : State) (addr : Nat) : EPlace :=
  if 0x1000000000 ≤ addr ∧ addr < 0x1100000000 then
    s.hallPlace ((addr - 0x1000000000) / 2 ^ 28) ((addr - 0x1000000000) % 2 ^ 28)
  else if 0x1100000000 ≤ addr ∧ addr < 0x1100000000 + 2 ^ 28 then
    let bank := (addr - 0x1100000000) / 2 ^ 19
    if s.hub.remaps.any fun r => r.bank == bank then .wait
    -- Naesk's rings stand there in regions of kind SYNC (R430, log 19)
    else if NMap.get 0 s.bankOwner bank = 0 then .stored (hallKey bank (addr % 2 ^ 19)) .sync
    else .fault codeAccess
  else .fault codeAccess

/-- The errors that a failing access of the hub or a peer meets are corrected or reported (R432, R434). -/
def State.noteHub (s : State) (place : EPlace) (a : HubAccess) : State :=
  match a with
  | .read n => s.noteOp place n
  | .atomic _ n _ => s.noteOp place n
  | .write _ _ => s

def State.hartReply (s : State) (fault : Bool) (bytes : List Byte) : State :=
  { s with hub := { s.hub with hartFault := fault, reply := bytes } }

/-- A read of the hub or a peer is deferred at its bank, or waits at its port for an entry there (R294, R295). -/
def State.deferHub (s : State) (key n : Nat) (peer : Bool) : State :=
  { s with hub := { s.hub with reads := s.hub.reads ++ [⟨key, n, peer, s.newDeferral 0 n key .once, none⟩] } }

/-- Deferred read i of the hub or a peer is answered once it has all its words: to a hart an uncorrectable word, or a bank
that passed to another partition, is an access fault, and to a peer no bytes (R292, R294, R431). -/
def State.answerHub (s : State) (i : Nat) : State :=
  match s.hub.reads[i]? with
  | none => s
  | some h =>
    if h.queue.isSome || !h.d.out && !(h.d.keys.all fun k => h.d.got.any fun g => g.1 == k) then s
    else
      let bad := h.d.out || s.badRead h.key h.n
      let s := s.noteErrors (codeKeys h.key h.n)
      let bytes := if bad then [] else toBytes h.n (s.readGot (some h.d) h.key h.n)
      let s := { s with hub := { s.hub with reads := s.hub.reads.eraseIdx i } }
      if h.peer then { s with hub := { s.hub with reply := bytes } } else s.hartReply bad bytes

/-- A read or atomic to a peer package: the peer is outside the model, so its answer is free; a write, or a package that no
route reaches, is an access fault. -/
def State.remoteAperture (s : State) (o : Nat) (a : HubAccess) : State :=
  let w := BitVec.ofNat 64 o
  let answer (n : Nat) : State :=
    let (v, s) := s.draw (2 ^ (8 * n))
    s.hartReply false (toBytes n v)
  if 2 ^ 60 ≤ o ∨ addrPkg w = s.hub.pkg ∨ wordField (s.routeReg (addrPkg w)) 63 1 = 0 ∨ 1 < wordField w 48 2 then s.hartReply true []
  else match a with
    | .read n => answer n
    | .atomic _ n _ => answer n
    | .write _ _ => s.hartReply true []

/-- An access of an application core; one that waits at a bank that serves others first, or whose shutter is closed, leaves
the machine as it is. -/
def execApertureAccess (addr : Nat) (a : HubAccess) (s : State) : Out :=
  if 0x2000000000 ≤ addr then .next (s.remoteAperture (addr - 0x2000000000) a)
  else match s.hubAccess (s.aperturePlace addr) a with
    | .done t bytes => .next (t.hartReply false bytes)
    | .defer key n => .next (s.deferHub key n false)
    | .wait => .next s
    | .fault => .next ((s.noteHub (s.aperturePlace addr) a).hartReply true [])

/-- A read or atomic request of a peer, served at the Hall of a partition. A request that reaches no storage, and a write,
which comes as a packet only (R389), is not served. -/
def execPeerReadRequest (p : Nat) (addr : Word) (a : HubAccess) (s : State) : Out :=
  match a with
  | .write _ _ => .next s
  | _ => match s.hubAccess (s.hallPlace p (wordField addr 0 28)) a with
    | .done t bytes => .next { t with hub := { t.hub with reply := bytes } }
    | .defer key n => .next (s.deferHub key n true)
    | .wait => .next s
    | .fault => .next (s.noteHub (s.hallPlace p (wordField addr 0 28)) a)

/-! ## Current (R435, R436) -/

/-- The first request in line gets what is free of what it wants; the rest of it waits on. A request whose section is
gone is dropped. -/
def execCurrentGrant (s : State) : Out :=
  match s.hub.grantReqs with
  | [] => .next s
  | r :: rest =>
    let put (rs : List GrantReq) (s : State) : State := { s with hub := { s.hub with grantReqs := rs } }
    match s.sec? r.k r.h with
    | none => .next (put rest s)
    | some (c, x) =>
      let g := Nat.min r.want (s.hub.limit - s.grantsHeld)
      if g = 0 then .next s
      else
        let s := if x.sys.isSome then s.trc 3 2 c [.word r.h, .word x.wants, .word (x.grant + g)] else s
        let s := s.onSec r.k r.h fun x => { x with grant := x.grant + g }
        .next (put (if g = r.want then rest else { r with want := r.want - g } :: rest) s)

/-- LIMIT fell below the grants held: every section grant is lowered in proportion, to 1 at least. -/
def execGrantLowering (s : State) : Out :=
  if !s.hub.lowerDue then .next s
  else
    let b := s.baseGrants
    let h := s.grantsHeld
    let less (g : Nat) : Nat := Nat.max 1 (g * (s.hub.limit - b) / (h - b))
    let low (x : Section) : Section := if x.grant = 0 then x else { x with grant := less x.grant }
    let ctx (c : Ctx) : Ctx := { c with secs := c.secs.map low }
    let changed := s.ctxs.flatMap fun c => (c.secs.filter fun x => x.sys.isSome && x.grant != 0).map fun x => (c, x)
    let t : State := { s with c := ctx s.c, others := s.others.map ctx, hub := { s.hub with lowerDue := false } }
    .next (changed.foldl (fun t p => t.trc 3 2 p.1 [.word p.2.handle, .word p.2.wants, .word (less p.2.grant)]) t)

/-! ## Sampling and the trace port (R442, R443) -/

/-- The core reason of a context whose firing is in progress (Table 17.7). A handler whose first bundle may not issue yet is
at trap entry. -/
def Ctx.coreReason (c : Ctx) (now : Nat) : Nat :=
  let entry : Bool := c.sys.hm && c.pc == c.sys.tbase && decide (now < c.notBefore)
  if c.trap.isSome ∨ c.builtin.isSome ∨ entry then 11
  else match c.stall with
    | none => 0
    | some .doorEmpty => 1
    | some .doorFull => 2
    | some .slotShare => 3
    | some .sleep => 4
    | some .join => 5
    | some .interlock => 6
    | some .row0 => 8
    | some .queueFull => 9
    | some .syncf => 10
    | some .decision => 11
    | some .time => 12
    | some .grant => 7

/-- The fabric reason over the sections and streams of a context: the lowest code that applies. -/
def State.fabricReason (s : State) (c : Ctx) : Nat :=
  let miss := c.secs.any fun x => x.pes.any fun p => p.fetching.isSome
  let spill := decide (c.extensions ≠ 0) || c.runs.any s.stoppedBySpill
  let grant := c.secs.any fun x => x.wants != 0 && x.grant == 0
  let frozen := c.secs.any fun x => x.edges.any (·.frozen)
  let drains := c.secs.any (fun x => x.st == .stopping || x.st == .ending) || c.runs.any (fun r => r.phase == .draining)
  if miss then 1 else if spill then 2 else if grant then 3 else if frozen then 4 else if drains then 5 else 0

/-- What the sampler of a tile reads. -/
def State.sampleNow (s : State) (tile : Nat) : Sample :=
  match s.ctxs.find? fun c => c.id.tile == tile && c.live && c.firing && c.resume.isNone && c.halted.isNone with
  | some c => { clk := s.clk, pc := c.pc, ctx := c.id.num, act := c.sys.act, core := c.coreReason s.clk, fabric := s.fabricReason c }
  | none =>
    match s.ctxs.find? fun c => c.id.tile == tile && c.live with
    | some c => { clk := s.clk, ctx := c.id.num, act := c.sys.act, core := if c.halted.isSome then 13 else 14,
                  fabric := s.fabricReason c }
    | none => { clk := s.clk, core := 14 }

/-- The PC sampler takes sample k at its clk, and holds nothing. -/
def execPcSample (tile : Nat) (s : State) : Out :=
  let t := s.tile tile
  if wordField t.sampcfg 63 1 = 0 ∨ s.clk < sampleTime tile (2 ^ wordField t.sampcfg 0 5) t.sampleNo then .next s
  else
    let x := s.sampleNow tile
    let part := ((s.ctxs.find? fun c => c.id == ⟨tile, x.ctx⟩).map Ctx.part).getD 0
    let s := s.traceAt 11 0 tile part x.ctx [.long x.pc.toNat, .word x.ctx, .word x.act.toNat, .word x.core, .word x.fabric]
    .next (s.onTile tile fun t => { t with sample := x, sampleNo := t.sampleNo + 1 })

/-- The trace port sends the oldest records of the ring. -/
def execTraceRingDrain (n : Nat) (s : State) : Out := .next { s with hub := { s.hub with trace := s.hub.trace.drop n } }

end Sys2Proof.Machine
end

