-- ==== Sys2Proof/Machine/Dispatch.lean ====
section
/-! DEFINITION. The meaning of every instruction: one arm per constructor of Instr. -/

namespace Sys2Proof.Machine

/-- What an instruction does: a syllable reads the current context and stages its part of the bundle under issue, a
micro-operation its part of the firing of a PE, and an event is a whole act of an agent. -/
def exec (i : Instr) (s : State) : Host.Outcome State Fault Refusal :=
  match i with
  | .sNop rp => Sys2Proof.Machine.execSNop rp s
  | .add f => Sys2Proof.Machine.execAdd f s
  | .sub f => Sys2Proof.Machine.execSub f s
  | .and f => Sys2Proof.Machine.execAnd f s
  | .or f => Sys2Proof.Machine.execOr f s
  | .xor f => Sys2Proof.Machine.execXor f s
  | .andn f => Sys2Proof.Machine.execAndn f s
  | .min f => Sys2Proof.Machine.execMin f s
  | .max f => Sys2Proof.Machine.execMax f s
  | .minu f => Sys2Proof.Machine.execMinu f s
  | .maxu f => Sys2Proof.Machine.execMaxu f s
  | .shl f => Sys2Proof.Machine.execShl f s
  | .shr f => Sys2Proof.Machine.execShr f s
  | .sar f => Sys2Proof.Machine.execSar f s
  | .ror f => Sys2Proof.Machine.execRor f s
  | .clz f => Sys2Proof.Machine.execClz f s
  | .ctz f => Sys2Proof.Machine.execCtz f s
  | .mul f => Sys2Proof.Machine.execMul f s
  | .mulh f => Sys2Proof.Machine.execMulh f s
  | .mulhu f => Sys2Proof.Machine.execMulhu f s
  | .div f => Sys2Proof.Machine.execDiv f s
  | .divu f => Sys2Proof.Machine.execDivu f s
  | .rem f => Sys2Proof.Machine.execRem f s
  | .remu f => Sys2Proof.Machine.execRemu f s
  | .popc f => Sys2Proof.Machine.execPopc f s
  | .addi f => Sys2Proof.Machine.execAddi f s
  | .andi f => Sys2Proof.Machine.execAndi f s
  | .ori f => Sys2Proof.Machine.execOri f s
  | .xori f => Sys2Proof.Machine.execXori f s
  | .shli f => Sys2Proof.Machine.execShli f s
  | .shri f => Sys2Proof.Machine.execShri f s
  | .sari f => Sys2Proof.Machine.execSari f s
  | .movi f => Sys2Proof.Machine.execMovi f s
  | .movhi f => Sys2Proof.Machine.execMovhi f s
  | .cmp f => Sys2Proof.Machine.execCmp f s
  | .cmpiCond03 f => Sys2Proof.Machine.execCmpiCond03 f s
  | .cmpiCond47 f => Sys2Proof.Machine.execCmpiCond47 f s
  | .plogAnd f => Sys2Proof.Machine.execPlogAnd f s
  | .plogOr f => Sys2Proof.Machine.execPlogOr f s
  | .plogXor f => Sys2Proof.Machine.execPlogXor f s
  | .plogAndn f => Sys2Proof.Machine.execPlogAndn f s
  | .plogNot f => Sys2Proof.Machine.execPlogNot f s
  | .plogMov f => Sys2Proof.Machine.execPlogMov f s
  | .plogSet f => Sys2Proof.Machine.execPlogSet f s
  | .plogClr f => Sys2Proof.Machine.execPlogClr f s
  | .ldb f => Sys2Proof.Machine.execLdb f s
  | .ldbu f => Sys2Proof.Machine.execLdbu f s
  | .ldh f => Sys2Proof.Machine.execLdh f s
  | .ldhu f => Sys2Proof.Machine.execLdhu f s
  | .ldw f => Sys2Proof.Machine.execLdw f s
  | .ldwu f => Sys2Proof.Machine.execLdwu f s
  | .ldd f => Sys2Proof.Machine.execLdd f s
  | .lds f => Sys2Proof.Machine.execLds f s
  | .ldp f => Sys2Proof.Machine.execLdp f s
  | .stb f => Sys2Proof.Machine.execStb f s
  | .sth f => Sys2Proof.Machine.execSth f s
  | .stw f => Sys2Proof.Machine.execStw f s
  | .std f => Sys2Proof.Machine.execStd f s
  | .stf f => Sys2Proof.Machine.execStf f s
  | .empty f => Sys2Proof.Machine.execEmpty f s
  | .aadd f => Sys2Proof.Machine.execAadd f s
  | .amin f => Sys2Proof.Machine.execAmin f s
  | .amax f => Sys2Proof.Machine.execAmax f s
  | .aand f => Sys2Proof.Machine.execAand f s
  | .aor f => Sys2Proof.Machine.execAor f s
  | .axor f => Sys2Proof.Machine.execAxor f s
  | .aswap f => Sys2Proof.Machine.execAswap f s
  | .atas f => Sys2Proof.Machine.execAtas f s
  | .acas f => Sys2Proof.Machine.execAcas f s
  | .afadd f => Sys2Proof.Machine.execAfadd f s
  | .br f => Sys2Proof.Machine.execBr f s
  | .brl f => Sys2Proof.Machine.execBrl f s
  | .bri f => Sys2Proof.Machine.execBri f s
  | .loop f => Sys2Proof.Machine.execLoop f s
  | .brtop f => Sys2Proof.Machine.execBrtop f s
  | .exit f => Sys2Proof.Machine.execExit f s
  | .trap f => Sys2Proof.Machine.execTrap f s
  | .tret f => Sys2Proof.Machine.execTret f s
  | .sleep f => Sys2Proof.Machine.execSleep f s
  | .waitg f => Sys2Proof.Machine.execWaitg f s
  | .waitgL f => Sys2Proof.Machine.execWaitgL f s
  | .joinm f => Sys2Proof.Machine.execJoinm f s
  | .mfs f => Sys2Proof.Machine.execMfs f s
  | .mts f => Sys2Proof.Machine.execMts f s
  | .syncfC f => Sys2Proof.Machine.execSyncfC f s
  | .syncfI f => Sys2Proof.Machine.execSyncfI f s
  | .syncfCi f => Sys2Proof.Machine.execSyncfCi f s
  | .xNop => Sys2Proof.Machine.execXNop s
  | .xadd f => Sys2Proof.Machine.execXadd f s
  | .xsub f => Sys2Proof.Machine.execXsub f s
  | .xaddi f => Sys2Proof.Machine.execXaddi f s
  | .xshl f => Sys2Proof.Machine.execXshl f s
  | .xshr f => Sys2Proof.Machine.execXshr f s
  | .xand f => Sys2Proof.Machine.execXand f s
  | .xmul f => Sys2Proof.Machine.execXmul f s
  | .xlea f => Sys2Proof.Machine.execXlea f s
  | .xmin f => Sys2Proof.Machine.execXmin f s
  | .xmax f => Sys2Proof.Machine.execXmax f s
  | .xcmp f => Sys2Proof.Machine.execXcmp f s
  | .cadv f => Sys2Proof.Machine.execCadv f s
  | .xpopc f => Sys2Proof.Machine.execXpopc f s
  | .xctz f => Sys2Proof.Machine.execXctz f s
  | .xbitSet f => Sys2Proof.Machine.execXbitSet f s
  | .xbitClr f => Sys2Proof.Machine.execXbitClr f s
  | .xbitFlip f => Sys2Proof.Machine.execXbitFlip f s
  | .xbitExt f => Sys2Proof.Machine.execXbitExt f s
  | .xmovs f => Sys2Proof.Machine.execXmovs f s
  | .xtos f => Sys2Proof.Machine.execXtos f s
  | .xclamp f => Sys2Proof.Machine.execXclamp f s
  | .xwrap f => Sys2Proof.Machine.execXwrap f s
  | .xbstepW f => Sys2Proof.Machine.execXbstepW f s
  | .xbstepD f => Sys2Proof.Machine.execXbstepD f s
  | .xldW f => Sys2Proof.Machine.execXldW f s
  | .xldD f => Sys2Proof.Machine.execXldD f s
  | .vNop => Sys2Proof.Machine.execVNop s
  | .vadd f => Sys2Proof.Machine.execVadd f s
  | .vsub f => Sys2Proof.Machine.execVsub f s
  | .vmul f => Sys2Proof.Machine.execVmul f s
  | .vfma f => Sys2Proof.Machine.execVfma f s
  | .vfms f => Sys2Proof.Machine.execVfms f s
  | .vfnma f => Sys2Proof.Machine.execVfnma f s
  | .vmin f => Sys2Proof.Machine.execVmin f s
  | .vmax f => Sys2Proof.Machine.execVmax f s
  | .vabs f => Sys2Proof.Machine.execVabs f s
  | .vneg f => Sys2Proof.Machine.execVneg f s
  | .vcpys f => Sys2Proof.Machine.execVcpys f s
  | .vrcp f => Sys2Proof.Machine.execVrcp f s
  | .vrsq f => Sys2Proof.Machine.execVrsq f s
  | .vsqrt f => Sys2Proof.Machine.execVsqrt f s
  | .vexp2 f => Sys2Proof.Machine.execVexp2 f s
  | .vlog2 f => Sys2Proof.Machine.execVlog2 f s
  | .vcmpf f => Sys2Proof.Machine.execVcmpf f s
  | .vclass f => Sys2Proof.Machine.execVclass f s
  | .viadd f => Sys2Proof.Machine.execViadd f s
  | .visub f => Sys2Proof.Machine.execVisub f s
  | .vimul f => Sys2Proof.Machine.execVimul f s
  | .vimulh f => Sys2Proof.Machine.execVimulh f s
  | .vand f => Sys2Proof.Machine.execVand f s
  | .vor f => Sys2Proof.Machine.execVor f s
  | .vxor f => Sys2Proof.Machine.execVxor f s
  | .vshl f => Sys2Proof.Machine.execVshl f s
  | .vshr f => Sys2Proof.Machine.execVshr f s
  | .vsar f => Sys2Proof.Machine.execVsar f s
  | .vimin f => Sys2Proof.Machine.execVimin f s
  | .vimax f => Sys2Proof.Machine.execVimax f s
  | .vicmp f => Sys2Proof.Machine.execVicmp f s
  | .vpopc f => Sys2Proof.Machine.execVpopc f s
  | .vsel f => Sys2Proof.Machine.execVsel f s
  | .vmov f => Sys2Proof.Machine.execVmov f s
  | .vbcast f => Sys2Proof.Machine.execVbcast f s
  | .vextr f => Sys2Proof.Machine.execVextr f s
  | .vins f => Sys2Proof.Machine.execVins f s
  | .vperm f => Sys2Proof.Machine.execVperm f s
  | .vshuf f => Sys2Proof.Machine.execVshuf f s
  | .vcvt f => Sys2Proof.Machine.execVcvt f s
  | .vpackb f => Sys2Proof.Machine.execVpackb f s
  | .vunpkb f => Sys2Proof.Machine.execVunpkb f s
  | .vdot8 f => Sys2Proof.Machine.execVdot8 f s
  | .vred f => Sys2Proof.Machine.execVred f s
  | .vscan f => Sys2Proof.Machine.execVscan f s
  | .vld f => Sys2Proof.Machine.execVld f s
  | .vst f => Sys2Proof.Machine.execVst f s
  | .vlds f => Sys2Proof.Machine.execVlds f s
  | .vstf f => Sys2Proof.Machine.execVstf f s
  | .vget f => Sys2Proof.Machine.execVget f s
  | .vput f => Sys2Proof.Machine.execVput f s
  | .mand f => Sys2Proof.Machine.execMand f s
  | .mor f => Sys2Proof.Machine.execMor f s
  | .mxor f => Sys2Proof.Machine.execMxor f s
  | .mnot f => Sys2Proof.Machine.execMnot f s
  | .mpopc f => Sys2Proof.Machine.execMpopc f s
  | .mfirst f => Sys2Proof.Machine.execMfirst f s
  | .cNop => Sys2Proof.Machine.execCNop s
  | .saff f => Sys2Proof.Machine.execSaff f s
  | .saffw f => Sys2Proof.Machine.execSaffw f s
  | .sind f => Sys2Proof.Machine.execSind f s
  | .sindw f => Sys2Proof.Machine.execSindw f s
  | .srec f => Sys2Proof.Machine.execSrec f s
  | .sconst f => Sys2Proof.Machine.execSconst f s
  | .sfill f => Sys2Proof.Machine.execSfill f s
  | .smcast f => Sys2Proof.Machine.execSmcast f s
  | .sremw f => Sys2Proof.Machine.execSremw f s
  | .srema f => Sys2Proof.Machine.execSrema f s
  | .scirc f => Sys2Proof.Machine.execScirc f s
  | .scopy f => Sys2Proof.Machine.execScopy f s
  | .scopyc f => Sys2Proof.Machine.execScopyc f s
  | .sarm f => Sys2Proof.Machine.execSarm f s
  | .sdisarm f => Sys2Proof.Machine.execSdisarm f s
  | .spost f => Sys2Proof.Machine.execSpost f s
  | .gath f => Sys2Proof.Machine.execGath f s
  | .scat f => Sys2Proof.Machine.execScat f s
  | .greplay f => Sys2Proof.Machine.execGreplay f s
  | .sbar f => Sys2Proof.Machine.execSbar f s
  | .smark f => Sys2Proof.Machine.execSmark f s
  | .sord f => Sys2Proof.Machine.execSord f s
  | .scfg f => Sys2Proof.Machine.execScfg f s
  | .srunGo f => Sys2Proof.Machine.execSrunGo f s
  | .srunBack f => Sys2Proof.Machine.execSrunBack f s
  | .sstop f => Sys2Proof.Machine.execSstop f s
  | .swload f => Sys2Proof.Machine.execSwload f s
  | .smm f => Sys2Proof.Machine.execSmm f s
  | .sarmg f => Sys2Proof.Machine.execSarmg f s
  | .spub f => Sys2Proof.Machine.execSpub f s
  | .svsw f => Sys2Proof.Machine.execSvsw f s
  | .svstage f => Sys2Proof.Machine.execSvstage f s
  | .scoll f => Sys2Proof.Machine.execScoll f s
  | .sslot f => Sys2Proof.Machine.execSslot f s
  | .konst f => Sys2Proof.Machine.execKonst f s
  | .csysShootdown f => Sys2Proof.Machine.execCsysShootdown f s
  | .csysReplay f => Sys2Proof.Machine.execCsysReplay f s
  | .csysPantry f => Sys2Proof.Machine.execCsysPantry f s
  | .tNop => Sys2Proof.Machine.execTNop s
  | .move f => Sys2Proof.Machine.execMove f s
  | .join f => Sys2Proof.Machine.execJoin f s
  | .fork f => Sys2Proof.Machine.execFork f s
  | .steer f => Sys2Proof.Machine.execSteer f s
  | .selp f => Sys2Proof.Machine.execSelp f s
  | .acc f => Sys2Proof.Machine.execAcc f s
  | .ctr f => Sys2Proof.Machine.execCtr f s
  | .turn f => Sys2Proof.Machine.execTurn f s
  | .edld f => Sys2Proof.Machine.execEdld f s
  | .edst f => Sys2Proof.Machine.execEdst f s
  | .edatm f => Sys2Proof.Machine.execEdatm f s
  | .src f => Sys2Proof.Machine.execSrc f s
  | .sink f => Sys2Proof.Machine.execSink f s
  | .cnt f => Sys2Proof.Machine.execCnt f s
  | .mergeArr f => Sys2Proof.Machine.execMergeArr f s
  | .mergeAlt f => Sys2Proof.Machine.execMergeAlt f s
  | .drop f => Sys2Proof.Machine.execDrop f s
  | .peElementwiseA f => Sys2Proof.Machine.execPeElementwiseA f s
  | .peElementwiseM f => Sys2Proof.Machine.execPeElementwiseM f s
  | .peDotStep f => Sys2Proof.Machine.execPeDotStep f s
  | .registerWriteLands k n => Sys2Proof.Machine.execRegisterWriteLands k n s
  | .interlockedValueLands k n => Sys2Proof.Machine.execInterlockedValueLands k n s
  | .bankReply k n => Sys2Proof.Machine.execBankReply k n s
  | .trapEntry k => Sys2Proof.Machine.execTrapEntry k s
  | .handlerFiringStart tile => Sys2Proof.Machine.execHandlerFiringStart tile s
  | .haltedContextResume k addr => Sys2Proof.Machine.execHaltedContextResume k addr s
  | .haltedTaskEnd k => Sys2Proof.Machine.execHaltedTaskEnd k s
  | .firingStart tile => Sys2Proof.Machine.execFiringStart tile s
  | .budget k => Sys2Proof.Machine.execBudget k s
  | .pcSample tile => Sys2Proof.Machine.execPcSample tile s
  | .bankAccessPerformed k n => Sys2Proof.Machine.execBankAccessPerformed k n s
  | .atomicPerformed k n => Sys2Proof.Machine.execAtomicPerformed k n s
  | .deferredReadAnswered k n => Sys2Proof.Machine.execDeferredReadAnswered k n s
  | .deferredReadEntry k n => Sys2Proof.Machine.execDeferredReadEntry k n s
  | .bankRemap bank owner => Sys2Proof.Machine.execBankRemap bank owner s
  | .bankShutterOpen bank => Sys2Proof.Machine.execBankShutterOpen bank s
  | .patrolScrub line => Sys2Proof.Machine.execPatrolScrub line s
  | .commandQueueAccept tile n => Sys2Proof.Machine.execCommandQueueAccept tile n s
  | .streamAccept tile slot => Sys2Proof.Machine.execStreamAccept tile slot s
  | .doorBinding tile slot => Sys2Proof.Machine.execDoorBinding tile slot s
  | .streamServiceTurn tile slot => Sys2Proof.Machine.execStreamServiceTurn tile slot s
  | .streamComplete tile slot => Sys2Proof.Machine.execStreamComplete tile slot s
  | .recordWrite k q => Sys2Proof.Machine.execRecordWrite k q s
  | .ringHeadReread k q => Sys2Proof.Machine.execRingHeadReread k q s
  | .copyAccept engine => Sys2Proof.Machine.execCopyAccept engine s
  | .copyTransfer engine n => Sys2Proof.Machine.execCopyTransfer engine n s
  | .circuitEntryMove tile slot => Sys2Proof.Machine.execCircuitEntryMove tile slot s
  | .templateFiring k t => Sys2Proof.Machine.execTemplateFiring k t s
  | .postPlaced tile n => Sys2Proof.Machine.execPostPlaced tile n s
  | .creditGrant src dst lb => Sys2Proof.Machine.execCreditGrant src dst lb s
  | .gatherBatchEnd tile slot => Sys2Proof.Machine.execGatherBatchEnd tile slot s
  | .sordAccept tile n => Sys2Proof.Machine.execSordAccept tile n s
  | .orderTokenOpen k door => Sys2Proof.Machine.execOrderTokenOpen k door s
  | .markerReachesHead k n => Sys2Proof.Machine.execMarkerReachesHead k n s
  | .sbarSatisfied k n => Sys2Proof.Machine.execSbarSatisfied k n s
  | .graphNodeArm k => Sys2Proof.Machine.execGraphNodeArm k s
  | .scfgComplete k h => Sys2Proof.Machine.execScfgComplete k h s
  | .pageMove k h py px => Sys2Proof.Machine.execPageMove k h py px s
  | .peFiring k h row col => Sys2Proof.Machine.execPeFiring k h row col s
  | .loopBufferFill k h row col => Sys2Proof.Machine.execLoopBufferFill k h row col s
  | .edgeElementReply k h n => Sys2Proof.Machine.execEdgeElementReply k h n s
  | .edgeFaultFreeze k h n => Sys2Proof.Machine.execEdgeFaultFreeze k h n s
  | .sectionQuiescent k h => Sys2Proof.Machine.execSectionQuiescent k h s
  | .sectionStopped k h => Sys2Proof.Machine.execSectionStopped k h s
  | .peSwitch k h row col => Sys2Proof.Machine.execPeSwitch k h row col s
  | .regionSilent k h => Sys2Proof.Machine.execRegionSilent k h s
  | .weightLoadComplete tile slot => Sys2Proof.Machine.execWeightLoadComplete tile slot s
  | .rowAdmission k h => Sys2Proof.Machine.execRowAdmission k h s
  | .outputEntryPush k h j => Sys2Proof.Machine.execOutputEntryPush k h j s
  | .smmRetire k h => Sys2Proof.Machine.execSmmRetire k h s
  | .currentGrant => Sys2Proof.Machine.execCurrentGrant s
  | .grantLowering => Sys2Proof.Machine.execGrantLowering s
  | .launchIntake p q => Sys2Proof.Machine.execLaunchIntake p q s
  | .dispatcherPass p => Sys2Proof.Machine.execDispatcherPass p s
  | .effectivePriorityRaise l => Sys2Proof.Machine.execEffectivePriorityRaise l s
  | .taskPlacement k => Sys2Proof.Machine.execTaskPlacement k s
  | .taskStart k => Sys2Proof.Machine.execTaskStart k s
  | .taskEnd k => Sys2Proof.Machine.execTaskEnd k s
  | .launchEnd l => Sys2Proof.Machine.execLaunchEnd l s
  | .softPreemption l => Sys2Proof.Machine.execSoftPreemption l s
  | .hardPreemption k => Sys2Proof.Machine.execHardPreemption k s
  | .preemptionDrainEnd k => Sys2Proof.Machine.execPreemptionDrainEnd k s
  | .contextRestore k => Sys2Proof.Machine.execContextRestore k s
  | .pageWalkComplete tile n => Sys2Proof.Machine.execPageWalkComplete tile n s
  | .divertedElementServed tile n => Sys2Proof.Machine.execDivertedElementServed tile n s
  | .periodicRewalk tile n => Sys2Proof.Machine.execPeriodicRewalk tile n s
  | .unresolvable tile n => Sys2Proof.Machine.execUnresolvable tile n s
  | .shootdownComplete tile n => Sys2Proof.Machine.execShootdownComplete tile n s
  | .spubPublish set => Sys2Proof.Machine.execSpubPublish set s
  | .versionSwitch p launch n => Sys2Proof.Machine.execVersionSwitch p launch n s
  | .slotFree set slot => Sys2Proof.Machine.execSlotFree set slot s
  | .packetArrival w => Sys2Proof.Machine.execPacketArrival w s
  | .ackArrival a => Sys2Proof.Machine.execAckArrival a s
  | .ackTimer n => Sys2Proof.Machine.execAckTimer n s
  | .refusedPacketResend n => Sys2Proof.Machine.execRefusedPacketResend n s
  | .unackedPacketResend n => Sys2Proof.Machine.execUnackedPacketResend n s
  | .orderwin n => Sys2Proof.Machine.execOrderwin n s
  | .streamEntryReclaim n => Sys2Proof.Machine.execStreamEntryReclaim n s
  | .portDown port => Sys2Proof.Machine.execPortDown port s
  | .portUp port => Sys2Proof.Machine.execPortUp port s
  | .ptpSyncMessage offset => Sys2Proof.Machine.execPtpSyncMessage offset s
  | .syncTimeout => Sys2Proof.Machine.execSyncTimeout s
  | .timeSlotStart p => Sys2Proof.Machine.execTimeSlotStart p s
  | .collectiveStartTime tile slot => Sys2Proof.Machine.execCollectiveStartTime tile slot s
  | .collectiveChunk tile slot => Sys2Proof.Machine.execCollectiveChunk tile slot s
  | .peerReadRequest p addr a => Sys2Proof.Machine.execPeerReadRequest p addr a s
  | .powerOnReset r => Sys2Proof.Machine.execPowerOnReset r s
  | .firmwareUpload image r => Sys2Proof.Machine.execFirmwareUpload image r s
  | .statusQuery => Sys2Proof.Machine.execStatusQuery s
  | .linkRetryFailure link => Sys2Proof.Machine.execLinkRetryFailure link s
  | .partitionEnable pr p => Sys2Proof.Machine.execPartitionEnable pr p s
  | .partitionDisable pr p => Sys2Proof.Machine.execPartitionDisable pr p s
  | .hregWrite pr p n v => Sys2Proof.Machine.execHregWrite pr p n v s
  | .lqWrite pr p n v => Sys2Proof.Machine.execLqWrite pr p n v s
  | .wsetWrite pr n v => Sys2Proof.Machine.execWsetWrite pr n v s
  | .kownWrite pr n v => Sys2Proof.Machine.execKownWrite pr n v s
  | .hubRegisterWrite pr r v => Sys2Proof.Machine.execHubRegisterWrite pr r v s
  | .keyLoad n blob => Sys2Proof.Machine.execKeyLoad n blob s
  | .attestationRequest nonce => Sys2Proof.Machine.execAttestationRequest nonce s
  | .apertureAccess addr a => Sys2Proof.Machine.execApertureAccess addr a s
  | .walkAnswer req a => Sys2Proof.Machine.execWalkAnswer req a s
  | .faultAnswer req retry => Sys2Proof.Machine.execFaultAnswer req retry s
  | .spillAnswer req buf => Sys2Proof.Machine.execSpillAnswer req buf s
  | .saveAnswer req image claim => Sys2Proof.Machine.execSaveAnswer req image claim s
  | .dispatchAnswer req tiles => Sys2Proof.Machine.execDispatchAnswer req tiles s
  | .pageallocAnswer req py px moves => Sys2Proof.Machine.execPageallocAnswer req py px moves s
  | .slewClk n => Sys2Proof.Machine.execSlewClk n s
  | .traceRingDrain n => Sys2Proof.Machine.execTraceRingDrain n s

end Sys2Proof.Machine
end

