-- ==== Sys2Proof/Machine/Schedule.lean ====
section
/-! DEFINITION. The model's own order of acts (log 1): in every clk each act that some agent could perform is tried once, in
a fixed order. An act that is not enabled leaves the machine as it is, so a list may name more acts than are due. -/

namespace Sys2Proof.Machine

/-- Numbers below n, the highest first: an act that takes an entry out of a list leaves those before it in place. -/
def below (n : Nat) : List Nat := (List.range n).reverse

/-- Acts of one kind for the entries of a list. -/
def each (d : DueKind) (k : CtxId) (a n : Nat) : List Action := (below n).map fun i => .due d k a i

/-- Acts on one section: SCFG, PEs, edge elements, quiescence, the systolic part. -/
def sectionActs (k : CtxId) (x : Section) : List Action :=
  let h := x.handle
  let pe (d : DueKind) : List Action := x.pes.map fun p => .due d k h (p.row * 16 + p.col)
  let running := x.st == .running || x.st == .stopping || x.st == .ending || x.old.isSome
  (if x.loading.isSome then [.due .scfgComplete k h 0] else [])
    ++ (if running then pe .loopBufferFill ++ pe .peFiring else [])
    ++ (if x.old.isSome then pe .peSwitch else [])
    ++ each .edgeFaultFreeze k h x.edges.length ++ each .edgeElementReply k h x.edges.length
    ++ (if x.sys.isSome then .due .rowAdmission k h 0 :: each .outputEntryPush k h 8 ++ [.due .smmRetire k h 0] else [])
    ++ (if x.moving.isSome then [.due .pageMove k h 0] else [])
    ++ (if x.st = .ending then [.due .sectionQuiescent k h 0] else [])
    ++ (if x.st = .stopping then [.due .sectionStopped k h 0] else [])
    ++ (if x.st = .running || x.extensions != 0 then [.due .regionSilent k h 0] else [])

/-- Acts of a context's own agents. -/
def ctxActs (c : Ctx) : List Action :=
  let k := c.id
  each .registerWriteLands k 0 c.inflight.length ++ each .interlockedValueLands k 0 c.landings.length
    ++ (List.range c.accs.length).flatMap (fun i => [.due .accessLeaves k 0 i, .due .deferredReadEntry k 0 i])
    ++ (below c.accs.length).flatMap (fun i => match c.accs[i]? with
      | some a =>
        if a.kind.isAtomic then [.due .atomicPerformed k 0 i]
        else if a.deferred then [.due .deferredReadAnswered k 0 i]
        else [.due .bankAccessPerformed k 0 i]
      | none => [])
    ++ (match c.undecided with
      | some u => each .bankReply k 0 u.stores.length
      | none => [])
    ++ (if c.trap.isSome || c.builtin.isSome then [.due .trapEntry k 0 0] else [])
    ++ (if c.aside.isSome then [.due .trapEntry k 1 0] else [])
    ++ (c.cqs.flatMap fun q => if q.2.waiting = [] then [] else [.due .ringHeadReread k 0 q.1, .due .recordWrite k 0 q.1])
    ++ each .markerReachesHead k 0 c.markers.length ++ each .sbarSatisfied k 0 c.sbars.length
    ++ c.doorsOut.map (fun d => .due .orderTokenOpen k 0 d.1)
    ++ c.tmpls.map (fun t => .due .templateFiring k 0 t.num)
    ++ c.secs.flatMap (sectionActs k)
    ++ (if !c.live then []
        else match c.task.stage with
        | .none => [.due .contextRestore k 0 0]
        | .placed => [.due .taskPlacement k 0 0]
        | .ready => [.due .taskStart k 0 0]
        | _ => each .graphNodeArm k 0 (c.task.nodes.filter fun n => !n.armed || n.waiting).length ++ [.due .hardPreemption k 0 0, .due .preemptionDrainEnd k 0 0, .due .taskEnd k 0 0])

/-- Acts of the command that holds a slot of a tile. -/
def slotActs (tile : Nat) (r : Run) : List Action :=
  match r.cmd.slot with
  | none => []
  | some n =>
    let one (d : DueKind) : Action := .due d ⟨tile, 0⟩ 0 n
    let turn : List Action := match r.cmd.op with
      | .scoll _ => [one .collectiveStartTime, one .collectiveChunk]
      | _ => [one .circuitEntryMove, one .streamServiceTurn]
    (if r.phase = .queued then [one .doorBinding] else []) ++ turn ++ [one .gatherBatchEnd, one .weightLoadComplete, one .streamComplete]

/-- Place of a command's slot in the stream engine's round, which goes by slot number (R221). -/
def Tile.turnOf (t : Tile) (r : Run) : Nat := (r.cmd.slot.getD 0 + 48 - t.turnFrom % 48) % 48

/-- Credits that a tile wants: destination tile and letterbox. -/
def State.creditPairs (s : State) (t : Tile) : List (Nat × Nat) :=
  (t.posts.map (fun p => (p.cmd.postTile, p.cmd.postLb)) ++ (s.ctxs.filter fun c => c.live && c.id.tile == t.id).flatMap fun c =>
    c.task.nodes.flatMap fun n => if n.armed && !n.ended then (n.outs.filter fun o => o.kind == 2).map (fun o => (o.tile, o.num)) else []).eraseDups

/-- Acts of a tile's agents. -/
def State.tileActs (s : State) (t : Tile) : List Action :=
  let k : CtxId := ⟨t.id, 0⟩
  let cs := s.ctxs.filter fun c => c.id.tile == t.id
  (below t.queue.length).flatMap (fun i => [.due .sordAccept k 0 i, .due .commandQueueAccept k 0 i])
    ++ ((cs.flatMap fun c => c.runs).mergeSort fun a b => decide (t.turnOf a ≤ t.turnOf b)).flatMap (slotActs t.id)
    ++ each .shootdownComplete k 0 (s.shootdowns t.id).length
    ++ each .pageWalkComplete k 0 (s.walkers t.id).length
    ++ each .unresolvable k 0 ((s.divertedOf t.id).length + (s.servedPages t.id).length)
    ++ each .periodicRewalk k 0 s.hub.episodes.length
    ++ each .divertedElementServed k 0 (s.divertedOf t.id).length
    ++ (s.creditPairs t).map (fun d => .due .creditGrant k d.1 d.2) ++ each .postPlaced k 0 t.posts.length
    ++ (if cs = [] then [] else [.due .handlerFiringStart k 0 0, .due .firingStart k 0 0])
    ++ (if t.sampcfg.getLsbD 63 then [.due .pcSample k 0 0] else [])

/-- A partition whose pass is due (R38). -/
def State.passDue (s : State) (p : Nat) : Bool :=
  s.hub.launches.any (fun l => l.part == p && l.stage == .queued)
    && (NMap.get 0 s.hub.lastPass p == 0 || decide (NMap.get 0 s.hub.lastPass p + 4096 ≤ s.clk))

/-- Acts of the package's agents. -/
def State.hubActs (s : State) : List Action :=
  let k : CtxId := ⟨0, 0⟩
  let engines := ((s.ctxs.flatMap fun c => c.runs).filter fun r => r.rowCopy).map (·.engine) |>.eraseDups
  (List.range s.reads.length).map (fun i => .due .deferredReadEntry k 1 i) ++ each .deferredReadAnswered k 1 s.hub.reads.length
    ++ (s.hub.saved.zipIdx.flatMap fun v => each .parkedAccess k v.2 (v.1.ctx.accs.length + v.1.ctx.edgePlaces.length))
    ++ engines.flatMap (fun e => .due .copyAccept k 0 e :: each .copyTransfer k e (s.copiesOf e).length)
    ++ s.hub.local_.map (fun _ => .due .packetArrival k 0 0) ++ s.hub.acks.map (fun _ => .due .ackArrival k 0 0)
    ++ each .streamEntryReclaim k 0 s.hub.ingress.length ++ each .ackTimer k 0 s.hub.ingress.length
    ++ (s.hub.slots.map fun p => .due .timeSlotStart k 0 p.1)
    ++ (below s.hub.outbox.length).flatMap (fun i =>
      [.due .refusedPacketResend k 0 i, .due .unackedPacketResend k 0 i, .due .orderwin k 0 i])
    ++ (s.hub.vops.map fun o => .due .spubPublish k 0 o.run.cmd.vset)
    ++ (s.hub.arrivals.map fun a => .due .versionSwitch ⟨a.part, 0⟩ a.launch a.n).eraseDups
    ++ ((s.hub.wslot.filter fun w => w.2.st == 3).map fun w => .due .slotFree k (w.1 / 4) (w.1 % 4))
    ++ (if s.hub.lowerDue then [.due .grantLowering k 0 0] else []) ++ s.hub.grantReqs.map (fun _ => .due .currentGrant k 0 0)
    ++ ((s.hub.lq.filter fun w => w.2.getLsbD 63).map fun w => .due .launchIntake k (w.1 / 8) (w.1 % 8))
    ++ s.hub.launches.map (fun l => .due .effectivePriorityRaise k 0 l.id)
    ++ ((List.range 16).filter s.passDue).map (fun p => .due .dispatcherPass k 0 p)
    ++ s.hub.launches.map (fun l => .due .launchEnd k 0 l.id)
    ++ (if s.hub.booting.isSome then [.due .bootStage k 0 0] else []) ++ s.patrolLines.map (fun l => .due .patrolScrub k 0 l)
    ++ s.hub.remaps.map (fun r => .due .bankShutterOpen k 0 r.bank)
    ++ (if s.locked then [.due .syncTimeout k 0 0] else []) ++ (if s.maySlew 0 || s.maySlew 2 then [.due .slewClk k 0 0] else [])
    ++ (if s.hub.trace = [] then [] else [.due .traceRingDrain k 0 1])

/-- The acts of one clk, and the next bundle of every other context that may issue. -/
def State.schedule (s : State) : List Action :=
  if !s.hub.powered then []
  else s.ctxs.flatMap ctxActs ++ s.tiles.flatMap s.tileActs ++ s.hubActs
    ++ (s.others.filter fun c => c.canIssue s.clk).map fun c => .issue c.id

/-- The meaning of an act of the model's own order. -/
def runDue (d : DueKind) (k : CtxId) (a b : Nat) (s : State) : Out :=
  match d with
  | .registerWriteLands =>
    -- a write may land in any clk up to its deadline, as a free choice (R103)
    let (j, s) := s.draw 2
    if j = 0 then .next s else execRegisterWriteLands k b s
  | .interlockedValueLands => execInterlockedValueLands k b s
  | .bankReply => execBankReply k b s
  | .accessLeaves => .next (s.leavePort k b)
  | .parkedAccess =>
    let n := ((s.hub.saved[a]?).map fun v => v.ctx.accs.length).getD 0
    .next (if b < n then s.parkedAccess a b else s.parkedEdge a (b - n))
  | .deferredReadEntry => if a = 1 then .next (s.enterRead b) else execDeferredReadEntry k b s
  | .deferredReadAnswered => if a = 1 then .next (s.answerHub b) else execDeferredReadAnswered k b s
  | .atomicPerformed => execAtomicPerformed k b s
  | .bankAccessPerformed => execBankAccessPerformed k b s
  | .trapEntry => if a = 1 then .next (s.serveAside k) else execTrapEntry k s
  | .handlerFiringStart => execHandlerFiringStart k.tile s
  | .firingStart => execFiringStart k.tile s
  | .commandQueueAccept => execCommandQueueAccept k.tile b s
  | .doorBinding => execDoorBinding k.tile b s
  | .streamServiceTurn => execStreamServiceTurn k.tile b s
  | .streamComplete => execStreamComplete k.tile b s
  | .recordWrite => execRecordWrite k b s
  | .ringHeadReread => execRingHeadReread k b s
  | .copyAccept => execCopyAccept b s
  | .copyTransfer => execCopyTransfer a b s
  | .circuitEntryMove => execCircuitEntryMove k.tile b s
  | .templateFiring => execTemplateFiring k b s
  | .postPlaced => execPostPlaced k.tile b s
  | .creditGrant => execCreditGrant k.tile a b s
  | .gatherBatchEnd => execGatherBatchEnd k.tile b s
  | .sordAccept => execSordAccept k.tile b s
  | .orderTokenOpen => execOrderTokenOpen k b s
  | .markerReachesHead => execMarkerReachesHead k b s
  | .sbarSatisfied => execSbarSatisfied k b s
  | .graphNodeArm => execGraphNodeArm k s
  | .scfgComplete => execScfgComplete k a s
  | .peFiring => execPeFiring k a (b / 16) (b % 16) s
  | .loopBufferFill => execLoopBufferFill k a (b / 16) (b % 16) s
  | .pageMove => match (s.sec? k a).bind fun y => y.2.moving with
    | some m => execPageMove k a m.org.1 m.org.2 s
    | none => .next s
  | .edgeElementReply => execEdgeElementReply k a b s
  | .edgeFaultFreeze => execEdgeFaultFreeze k a b s
  | .sectionQuiescent => execSectionQuiescent k a s
  | .sectionStopped => execSectionStopped k a s
  | .peSwitch => execPeSwitch k a (b / 16) (b % 16) s
  | .regionSilent => execRegionSilent k a s
  | .weightLoadComplete => execWeightLoadComplete k.tile b s
  | .rowAdmission => execRowAdmission k a s
  | .outputEntryPush => execOutputEntryPush k a b s
  | .smmRetire => execSmmRetire k a s
  | .currentGrant => execCurrentGrant s
  | .grantLowering => execGrantLowering s
  | .launchIntake => execLaunchIntake a b s
  | .dispatcherPass => execDispatcherPass b s
  | .effectivePriorityRaise => execEffectivePriorityRaise b s
  | .taskPlacement => execTaskPlacement k s
  | .taskStart => execTaskStart k s
  | .taskEnd => execTaskEnd k s
  | .launchEnd => execLaunchEnd b s
  | .hardPreemption => execHardPreemption k s
  | .preemptionDrainEnd => execPreemptionDrainEnd k s
  | .contextRestore => execContextRestore k s
  | .pageWalkComplete => execPageWalkComplete k.tile b s
  | .divertedElementServed => execDivertedElementServed k.tile b s
  | .periodicRewalk => execPeriodicRewalk k.tile b s
  | .unresolvable => execUnresolvable k.tile b s
  | .shootdownComplete => execShootdownComplete k.tile b s
  | .spubPublish => execSpubPublish b s
  | .versionSwitch => execVersionSwitch k.tile a b s
  | .slotFree => execSlotFree a b s
  | .packetArrival => match s.hub.local_ with
    | p :: _ => s.arrive p
    | [] => .next s
  | .ackArrival => match s.hub.acks with
    | x :: _ => .next (s.takeAck x)
    | [] => .next s
  | .ackTimer => execAckTimer b s
  | .refusedPacketResend => execRefusedPacketResend b s
  | .unackedPacketResend => execUnackedPacketResend b s
  | .orderwin => execOrderwin b s
  | .streamEntryReclaim => execStreamEntryReclaim b s
  | .collectiveStartTime => execCollectiveStartTime k.tile b s
  | .collectiveChunk => execCollectiveChunk k.tile b s
  | .bootStage => .next s.bootStep
  | .patrolScrub => execPatrolScrub b s
  | .timeSlotStart => execTimeSlotStart b s
  | .bankShutterOpen => execBankShutterOpen b s
  | .syncTimeout => execSyncTimeout s
  | .slewClk =>
    -- which clks are slew clks is a free choice (R397)
    let (j, s) := s.draw 2
    if j = 0 then .next s else execSlewClk (if s.hub.slew = 2 then 2 else 0) s
  | .pcSample => execPcSample k.tile s
  | .traceRingDrain => execTraceRingDrain b s

end Sys2Proof.Machine
end

