-- ==== Sys2Proof/Machine/Step.lean ====
section
/-! DEFINITION. One step of the package: the next act of the agenda; with the agenda empty, the current context issues
its next bundle and one clk passes (log 1). -/

namespace Sys2Proof.Machine

/-- One act after another. -/
def andThen (r : Out) (f : State → Out) : Out :=
  match r with
  | .next s => f s
  | .fault x => .fault x
  | .refused x => .refused x

/-- The four syllables of a bundle in slot order, each reading the state before the bundle (R96). -/
def syllables (b : Bundle) (s : State) : Out := andThen (andThen (andThen (exec b.s s) (exec b.x)) (exec b.v)) (exec b.c)

/-- The syllables of a bundle, then their writes (R107). -/
def runBundle (b : Bundle) (rp : Bool) (s : State) : Out := andThen (syllables b s) fun s => .next (s.finish rp)

/-- The current context issues its next bundle, if it can. -/
def issue (s : State) : Out :=
  match s.prepare with
  | .idle s => .next s
  | .run s b rp => runBundle b rp s
  | .look s t b => andThen (syllables b t) fun t => .next (s.stalled (firstHold .decision t.bundle.holds))

/-- Where a bundle ended the firing of a context, its tile chooses the next one in the same clk (R420). -/
def chooseAfter (k : CtxId) (fired : Bool) (s : State) : Out :=
  if fired && (s.ctx? k).any (fun c => c.live && !c.firing && c.halted.isNone) then
    andThen (execHandlerFiringStart k.tile s) (execFiringStart k.tile)
  else .next s

/-- The current context issues its next bundle, and its tile chooses a firing where one has ended. -/
def issueCurrent (s : State) : Out := andThen (issue s) (chooseAfter s.c.id s.c.firing)

/-- The bundle of another context: it is made current for its issue. -/
def issueOther (k : CtxId) (s : State) : Out :=
  andThen (issueCurrent (s.swapTo k)) fun t => .next (t.swapTo s.c.id)

/-- The acts of the clk that begins are the agenda. -/
def State.planned (s : State) : State := { s with agenda := s.schedule }

def step (s : State) : Host.Outcome State Fault Refusal :=
  match s.agenda with
  | [] => andThen (issueCurrent s) fun s => .next s.tick.planned
  | a :: rest =>
    let s := { s with agenda := rest }
    match a with
    | .event i => exec i s
    | .issue k => issueOther k s
    | .tick => .next s.tick
    | .due d k a b => runDue d k a b s

/-- A state whose next step runs the instruction of a word of the opcode table (log 13). -/
def State.withFetchWord (s : State) (nbits w : Nat) : State := s.placeWord nbits w

end Sys2Proof.Machine
end

