-- ==== Sys2Proof/Safety.lean ====
section
/-! DEFINITION. The terms of the statements: when a syllable has its own effect, which instructions are syllables of a
bundle, what a bundle may change, and the invariants. -/

namespace Sys2Proof.Machine

/-! ## When a syllable has its own effect (R43, R97, R105, R216) -/

/-- No register of the syllable is the destination of an interlocked instruction in flight, its guard is true, and no
source carries a poison mark. -/
structure Unhindered (s : State) (g : BitVec 4) (srcs dsts : List Reg) : Prop where
  guardFree : s.c.claimed (s.regQ g) = false
  dstsFree : ∀ r ∈ dsts, r.fixed = true ∨ s.c.claimed r = false
  guardTrue : s.rdQ g = true
  srcsFree : ∀ r ∈ srcs, r.fixed = true ∨ s.c.claimed r = false
  clean : s.c.files.firstPoison srcs = none

/-- The same of a V syllable, which besides finds page row 0 free (R152). -/
structure UnhinderedV (s : State) (f : VF) (srcs dsts : List Reg) : Prop where
  free : Unhindered s f.g srcs dsts
  row0 : s.row0Busy = false

/-! ## Syllables and micro-operations -/

/-- Instructions that stand in a bundle. -/
def isSyllable (i : Instr) : Bool := (encodeS i).isSome || (encodeX i).isSome || (encodeV i).isSome || (encodeC i).isSome

/-- Micro-operations of a PE. -/
def isMicroOp (i : Instr) : Bool := (encodeT i).isSome || (encodeAM i).isSome

/-- The condition of code n between two dwords (R48). -/
def conditionOf (n : Nat) (a b : Word) : Bool :=
  match n with
  | 0 => decide (a = b)
  | 1 => decide (a ≠ b)
  | 2 => decide (a.toInt < b.toInt)
  | 3 => decide (b.toInt ≤ a.toInt)
  | 4 => decide (a.toNat < b.toNat)
  | 5 => decide (b.toNat ≤ a.toNat)
  | 6 => decide (a.toInt ≤ b.toInt)
  | _ => decide (b.toInt < a.toInt)

/-! ## Forms of the instructions that access memory -/

/-- The access that a scalar load stages (R298). -/
def loadAccess (s : State) (d : BitVec 6) (ea : Word) (size : Nat) (signed sync : Bool) : CoreAcc :=
  { seq := 0, bundle := 0, slot := 0, issued := 0, addr := ea, size := size, lane := 0,
    kind := .load (s.regS d) size signed sync, acquire := sync && s.inSync ea, deferred := false }

/-- A scalar load of a size: the trap that its address gives, or its access (R298). -/
def LoadsFrom (i : SI → Instr) (size : Nat) (signed sync : Bool) (eaOf : Word → Word) : Prop :=
  ∀ (f : SI) (s : State), Unhindered s f.g [s.regS f.a] [s.regS f.d] →
    let ea := eaOf (s.rdS f.a + f.imm.signExtend 64 * BitVec.ofNat 64 size)
    (∀ c, s.checkS .load ea size = some c → exec (i f) s = .next (s.raise 0 c ea))
      ∧ (s.checkS .load ea size = none →
          exec (i f) s = .next ((s.stagePwb (s.beyondBit ea size fun _ => true)).stage
            (.access (loadAccess s f.d ea size signed sync))))

/-- A scalar store of a size, in the lane of OLANE: the trap that its address gives, or its access (R298). -/
def StoresTo (i : SI → Instr) (size : Nat) (full : Bool) : Prop :=
  ∀ (f : SI) (s : State), Unhindered s f.g [s.regS f.d, s.regS f.a] [] →
    let ea := s.rdS f.a + f.imm.signExtend 64 * BitVec.ofNat 64 size
    (∀ c, s.checkS .store ea size = some c → exec (i f) s = .next (s.raise 0 c ea))
      ∧ (s.checkS .store ea size = none →
          exec (i f) s = .next (s.stage (.access
            { seq := 0, bundle := 0, slot := 0, issued := 0, addr := ea, size := size, lane := s.c.sys.olane,
              kind := .store (wordVal (s.rdS f.d)) (lowBits (8 * size)) full, acquire := false, deferred := false })))

/-- A Hall atomic on size bytes at Sreg(a), with operand b and comparand cmp (R299). -/
def ActsOnWord (i : Instr) (s : State) (d a : BitVec 6) (op : BankOp) (size : Nat) (b cmp : Word) : Prop :=
  let ea := s.rdS a
  (space ea ≠ 1 → exec i s = .next (s.raise 0 .access ea))
    ∧ (space ea = 1 → ea.toNat % size ≠ 0 → exec i s = .next (s.raise 0 .align ea))
    ∧ (∀ key kind, space ea = 1 → ea.toNat % size = 0 → zeroBitsOk ea = true → s.placeOf s.c ea = some (.stored key kind) →
        kind ≠ .once → exec i s = .next (s.stage (.access
          { seq := 0, bundle := 0, slot := 0, issued := 0, addr := ea, size := size, lane := s.c.sys.olane,
            kind := .atomic op size (s.regS d) b cmp, acquire := false, deferred := false })))

/-- A load of the X slot of a size: the trap that its address gives, or its access (R149). -/
def SendsLoad (i : Instr) (s : State) (ea : Word) (size : Nat) (d : Reg) : Prop :=
  (∀ c, s.checkX ea size = some c → exec i s = .next (s.raise 1 c ea))
    ∧ (s.checkX ea size = none → exec i s = .next (s.stage (.access
        { seq := 0, bundle := 0, slot := 1, issued := 0, addr := ea, size := size, lane := 0, kind := .load d size false false,
          acquire := false, deferred := false })))

/-- One step of the merge-path search with keys of a size (R150). -/
def StepsSearch (i : Instr) (s : State) (f : XBst) (size : Nat) : Prop :=
  let lo := (s.rdX (pairLo f.pair)).toNat
  let hi := (s.rdX (pairHi f.pair)).toNat
  let mid : Word := BitVec.ofNat 64 ((lo + hi) / 2)
  let ea := s.rdX f.a + mid * BitVec.ofNat 64 size
  let eb := s.rdX f.b - mid * BitVec.ofNat 64 size
  (hi ≤ lo → exec i s = .next s)
    ∧ (∀ c, lo < hi → s.checkX ea size = some c → exec i s = .next (s.raise 1 c ea))
    ∧ (∀ c, lo < hi → s.checkX ea size = none → s.checkX eb size = some c → exec i s = .next (s.raise 1 c eb))
    ∧ (lo < hi → s.checkX ea size = none → s.checkX eb size = none → exec i s = .next (s.stage (.access
        { seq := 0, bundle := 0, slot := 1, issued := 0, addr := ea, size := size, lane := 0,
          kind := .bstep size (s.regX (pairLo f.pair)) (s.regX (pairHi f.pair)) mid eb, acquire := false, deferred := false })))

/-! ## Lanes of the V slot -/

/-- A V syllable writes the masked lanes of vd, of type t, with the given latency: each masked lane holds what lane gives
it, and the flags raised are those of the masked lanes (R86, R154, R155). -/
def WritesLanes (i : Instr) (s : State) (f : VF) (t : ElemType) (lat : Nat) (rounds : Bool) (lane : Nat → Nat × FlagBits) :
    Prop :=
  let on (j : Nat) : Bool := maskBit (s.vmask f) (ElemType.lanes t) j
  ∃ (v : Line) (fl : FlagBits),
    exec i s = .next ((s.putV f.d v (laneMask t (s.vmask f)) lat).stageFlags f fl rounds)
      ∧ (∀ j < ElemType.lanes t, on j = true → elem (ElemType.bits t) v j = (lane j).1 % 2 ^ ElemType.bits t)
      ∧ ∀ b, fl.getLsbD b = true ↔ ∃ j < ElemType.lanes t, on j = true ∧ (lane j).2.getLsbD b = true

/-- A V compare writes the whole of md: bit j is the outcome for lane j where the mask bit is 1, and 0 elsewhere (R157). -/
def WritesMask (i : Instr) (s : State) (f : VF) (lat : Nat) (cmp : Nat → Bool × FlagBits) : Prop :=
  ∃ (r : Word) (fl : FlagBits),
    exec i s = .next ((s.putM f.d.toNat r lat).stageFlags f fl false)
      ∧ (∀ j < 64, r.getLsbD j
          = (decide (j < ElemType.lanes (vElem f)) && (s.vmask f).getLsbD j && (cmp j).1))
      ∧ ∀ b, fl.getLsbD b = true ↔
          ∃ j < ElemType.lanes (vElem f), (s.vmask f).getLsbD j = true ∧ (cmp j).2.getLsbD b = true

/-- Element j of va, vb and vc, and their values. -/
def elA (s : State) (f : VF) (j : Nat) : Nat := elem (vWidth f) (s.rdV f.a) j
def elB (s : State) (f : VF) (j : Nat) : Nat := elem (vWidth f) (s.rdV f.b) j
def elC (s : State) (f : VF) (j : Nat) : Nat := elem (vWidth f) (s.rdV f.c) j
def valA (s : State) (f : VF) (j : Nat) : FVal := (fmtOf (vElem f)).decode (elA s f j)
def valB (s : State) (f : VF) (j : Nat) : FVal := (fmtOf (vElem f)).decode (elB s f j)
def valC (s : State) (f : VF) (j : Nat) : FVal := (fmtOf (vElem f)).decode (elC s f j)

/-- An integer clamped to w bits, unsigned or signed, as a w-bit pattern (Table 6.7). -/
def clampedTo (w : Nat) (uns : Bool) (x : Int) : Nat :=
  if uns then (max 0 (min x (2 ^ w - 1))).toNat else (max (-2 ^ (w - 1)) (min x (2 ^ (w - 1) - 1)) % 2 ^ w).toNat

/-! ## Commands -/

/-- A command of the C slot that holds a stream slot, and reads its base register and its block register, has a promise
register and names a completion queue where the flags say so: with a share and an entry left and its queue there, it is
staged with what it reads; without a share, or an entry, it waits for both that are missing (R97); an absent queue traps
ACCESS (R54, R96, R97, R217 to R219, R226, R245). -/
def Enters (i : CF → Instr) (slot base pblk prom queue : Bool) : Prop :=
  ∀ (f : CF) (s : State),
    Unhindered s f.g ((if base then [s.regS f.base] else []) ++ if pblk then [s.regS f.pblk] else [])
        (if prom then [s.regS f.prom] else []) →
    let share := slot = true → s.slotsHeld s.c < s.c.slotShare
    let there := queue = true → s.c.absent f.q.toNat = false
    (share → s.myTile.queue.length < 64 → there →
      ∃ m : Command, exec (i f) s = .next (s.stage (.command m)) ∧ m.ctx = s.c.id ∧ m.op = i f ∧ m.f = f
        ∧ m.base = (if base then s.rdS f.base else 0) ∧ m.pblk = (if pblk then s.rdS f.pblk else 0)
        ∧ m.slot.isSome = slot ∧ m.rm = rmOfCode 6 s.c.sys.rm.toNat
        ∧ ∀ n, m.prom = some n ↔ (prom = true ∧ f.prom ≠ 0 ∧ s.regS f.prom = .s n))
      ∧ (¬ share → exec (i f) s
          = .next (s.holdAll (.slotShare :: if 64 ≤ s.myTile.queue.length then [.queueFull] else [])))
      ∧ (share → 64 ≤ s.myTile.queue.length → exec (i f) s = .next (s.hold .queueFull))
      ∧ (share → s.myTile.queue.length < 64 → ¬ there →
          exec (i f) s = .next (s.raise 3 .access (0xF000000000000000 + BitVec.ofNat 64 f.q.toNat)))

/-! ## Records -/

/-- Queue q of context k has one more record that waits for its place, the last, with a status (R249). -/
def Recorded (s t : State) (k : CtxId) (q : Nat) (st : Status) : Prop :=
  ∃ c d x, s.ctx? k = some c ∧ t.ctx? k = some d
    ∧ (NMap.get {} d.cqs q).waiting = (NMap.get {} c.cqs q).waiting ++ [x] ∧ x.record.status = st

/-! ## Small changes that the statements name -/

/-- A destination grants n entries of a letterbox (R239). -/
def grantLetters (lb n : Nat) (d : Ctx) : Ctx := { d with granted := NMap.set 0 d.granted lb (NMap.get 0 d.granted lb + n) }

/-- The credits for a letterbox of a task of a launch (R239). -/
def Credit.isFor (x : Credit) (launch : Nat) (k : CtxId) (lb : Nat) : Bool := x.launch == launch && x.dst == k && x.lb == lb

/-- A post engine keeps n more credits for a letterbox (R239). -/
def gainCredits (launch : Nat) (k : CtxId) (lb n : Nat) (t : Tile) : Tile :=
  { t with credits := t.credits.map fun x => if x.isFor launch k lb = true then { x with n := x.n + n } else x }

/-- The event that a fault of an edge access raises (R371). -/
def edgeEvent (code : Nat) (a : Word) : AsyncEvent :=
  ⟨if code = codePage then .page else if code = codeOnce then .once else .access, a⟩

/-! ## Firings -/

/-- A firing whose flags gain those of one operation. -/
def withFlags (m : Micro) (f : FlagBits) : Micro := { m with flags := m.flags ||| f }

/-- A firing that takes one more token through a shutter. -/
def withShut (m : Micro) (k : Nat) : Micro := { m with shut := m.shut ++ [k] }

/-- A firing that sets the accumulator. -/
def withAcc (m : Micro) (v : BitVec 32) : Micro := { m with pe := { m.pe with acc := v } }

/-- A firing that leaves the halves of its TURN so. -/
def withHalves (m : Micro) (h : TurnHalf × TurnHalf) : Micro := { m with pe := m.pe.setHalves h }

/-- A firing that leaves what its EDST.L has gathered so. -/
def withLine (m : Micro) (ts : List Token) : Micro := { m with pe := m.pe.setLine ts }

/-- A micro-operation sends one token whose lanes of w bits are what a lane function gives, and raises its flags (R195). -/
def SendsLanes (i : Instr) (s : State) (m : Micro) (f : AM) (w : Nat) (lane : Nat → Nat × FlagBits) : Prop :=
  ∃ (v : BitVec 128) (fl : FlagBits),
    exec i s = .next { s with micro := some (withFlags (m.put f.d.toNat { payload := v }) fl) }
      ∧ (∀ j < 128 / w, v.toNat / 2 ^ (w * j) % 2 ^ w = (lane j).1 % 2 ^ w)
      ∧ ∀ b, fl.getLsbD b = true ↔ ∃ j < 128 / w, (lane j).2.getLsbD b = true

/-- A compare sends one token whose payload bit j is the outcome of lane j, other bits zero, and raises its flags (R195). -/
def SendsBits (i : Instr) (s : State) (m : Micro) (f : AM) (w : Nat) (cmp : Nat → Bool × FlagBits) : Prop :=
  ∃ (v : BitVec 128) (fl : FlagBits),
    exec i s = .next { s with micro := some (withFlags (m.put f.d.toNat { payload := v }) fl) }
      ∧ (∀ j < 128, v.getLsbD j = (decide (j < 128 / w) && (cmp j).1))
      ∧ ∀ b, fl.getLsbD b = true ↔ ∃ j < 128 / w, (cmp j).2.getLsbD b = true

/-- VCVT in a PE: the lanes that both types have are converted, the destination's other lanes are zero (R163, R195). -/
def SendsConverted (i : Instr) (s : State) (m : Micro) (f : AM) (u : Nat) : Prop :=
  let t := elemOfCode f.ty.toNat
  let ts := elemOfCode f.c.toNat
  let w := ElemType.bits t
  let n := min (128 / w) (128 / ElemType.bits ts)
  let a := m.src f.a.toNat
  ∃ (v : BitVec 128) (fl : FlagBits),
    exec i s = .next { s with micro := some (withFlags (m.put f.d.toNat { payload := v }) fl) }
      ∧ (∀ j < 128 / w, v.toNat / 2 ^ (w * j) % 2 ^ w
          = if j < n then (convert ts t (telem (ElemType.bits ts) a j) (m.rnd u j)).1 % 2 ^ w else 0)
      ∧ ∀ b, fl.getLsbD b = true ↔ ∃ j < n, (convert ts t (telem (ElemType.bits ts) a j) (m.rnd u j)).2.getLsbD b = true

/-- An edge element presents its access; with a poison source, its outputs are poison with the first origin, which is
recorded at the queue of its descriptor (R201, R202). -/
def PresentsEdge (i : Instr) (s : State) (m : Micro) (f : TF) (op : Nat) (addr : Token) (data : List Token) (outs : Nat) : Prop :=
  let desc := f.p.toNat / 16 % 64
  let e : EdgeAcc :=
    { seq := 0, row := m.pe.row, col := m.pe.col, desc := desc, op := op, sub := f.p.toNat % 16, size := edgeBytes f.p,
      offset := addr.payload.setWidth 64, data := BitVec.ofNat 512 (data.foldr (fun t v => t.payload.toNat + 2 ^ 128 * v) 0),
      dst := f.d.toNat, tag := m.pe.tag }
  ((∀ t ∈ addr :: data, t.kind ≠ .poison) → exec i s = .next { s with micro := some { m with accs := m.accs ++ [e] } })
    ∧ ∀ before t after, addr :: data = before ++ t :: after → (∀ x ∈ before, x.kind ≠ .poison) → t.kind = .poison →
        let gone := { e with out := some (List.replicate outs (poisonToken (t.payload.setWidth 32))) }
        let n : Micro := { m with accs := m.accs ++ [gone], poisons := m.poisons ++ [(t.payload.setWidth 32, m.descQueue desc)] }
        exec i s = .next { s with micro := some n }

/-! ## Access by byte -/

/-- Every byte outside n bytes from a key reads as before. -/
def SameOutside (s t : State) (key n : Nat) : Prop := ∀ i, i < key ∨ key + n ≤ i → t.byte i = s.byte i

/-- Every byte reads as before. -/
def SameMemory (s t : State) : Prop := ∀ i, t.byte i = s.byte i

/-! ## Invariants -/

/-- The memory is in its canonical form. -/
def State.Canonical (s : State) : Prop := Memory.wf s.mem = true

end Sys2Proof.Machine
end

