-- ==== Sys2Proof/WellFormed.lean ====
section
/-! DEFINITION. Well-formed instructions: syllables and micro-operations whose fields an encoding of the spec holds
(Table 2.14), and events whose operands name things that exist (tiles 0-127, contexts 0-3, slots 0-47, handles 0-15,
queues, partitions 0-15). -/

namespace Sys2Proof

/-- No check of a list fails. -/
def noneBad (l : List (Bool × Nat)) : Bool := (firstBad l).isNone

def CtxId.wf (k : CtxId) : Bool := decide (k.tile < 128) && decide (k.num < 4)

/-- A position of an image: a PE of a page set of at most 3 x 4 pages (R61). -/
def peWf (row col : Nat) : Bool := decide (row < 12) && decide (col < 16)

def HubReg.wf : HubReg → Bool
  | .pctl p | .proot p | .psave p | .psplit p => decide (p < 16)
  | .route n => decide (n < 1024)
  | .keymap g => decide (g < 768)
  | .limit | .trcfg | .trbank => true
  | .baddr t n | .bact t n | .bctl t n | .waddr t n | .wact t n | .wctl t n => decide (t < 128) && decide (n < 8)
  | .sampcfg t => decide (t < 128)

/-- Well-formed V syllable. -/
def vWf (i : Instr) (f : VF) : Bool := noneBad (vChecks i f)

/-- Well-formed C syllable. -/
def cWf (i : Instr) (f : CF) : Bool := noneBad (cChecks i f)

/-- Well-formed T micro-operation. -/
def tWf (i : Instr) (f : TF) : Bool := noneBad (tChecks i f)

def slotWf (tile slot : Nat) : Bool := decide (tile < 128) && decide (slot < 48)

def Instr.wf (i : Instr) : Bool :=
  match i with
  | .loop f => f.imm != 0
  | .plogNot f | .plogMov f => f.b == 0
  | .plogSet f | .plogClr f => f.a == 0 && f.b == 0
  | .cadv f => f.pair != 0
  | .xbstepW f | .xbstepD f => f.pair != 0
  | .vadd f | .vsub f | .vmul f | .vfma f | .vfms f | .vfnma f | .vmin f | .vmax f | .vabs f | .vneg f | .vcpys f
  | .vrcp f | .vrsq f | .vsqrt f | .vexp2 f | .vlog2 f | .vcmpf f | .vclass f | .viadd f | .visub f | .vimul f
  | .vimulh f | .vand f | .vor f | .vxor f | .vshl f | .vshr f | .vsar f | .vimin f | .vimax f | .vicmp f | .vpopc f
  | .vsel f | .vmov f | .vbcast f | .vextr f | .vins f | .vperm f | .vshuf f | .vcvt f | .vpackb f | .vunpkb f
  | .vdot8 f | .vred f | .vscan f | .vld f | .vst f | .vlds f | .vstf f | .vget f | .vput f | .mand f | .mor f
  | .mxor f | .mnot f | .mpopc f | .mfirst f => vWf i f
  | .saff f | .saffw f | .sind f | .sindw f | .srec f | .sconst f | .sfill f | .smcast f | .sremw f | .srema f
  | .scirc f | .scopy f | .scopyc f | .sarm f | .sdisarm f | .spost f | .gath f | .scat f | .greplay f | .sbar f
  | .smark f | .sord f | .scfg f | .sstop f | .swload f | .smm f | .sarmg f | .spub f | .svsw f | .svstage f
  | .scoll f | .sslot f | .konst f => cWf i f
  | .srunGo f => cWf i f && decide (f.imm.toNat / 2 ^ 8 % 2 = 0)
  | .srunBack f => cWf i f && decide (f.imm.toNat / 2 ^ 8 % 2 = 1)
  | .csysShootdown f => cWf i f
  | .csysReplay f => cWf i f && decide (f.imm.toNat % 256 = 1)
  | .csysPantry f => cWf i f && decide (f.imm.toNat % 256 = 2)
  | .move f | .join f | .fork f | .steer f | .selp f | .acc f | .ctr f | .turn f | .edld f | .edst f | .edatm f
  | .src f | .sink f | .cnt f | .drop f => tWf i f
  | .mergeArr f => tWf i f && decide (f.p.toNat % 2 = 0)
  | .mergeAlt f => tWf i f && decide (f.p.toNat % 2 = 1)
  | .peElementwiseA f => noneBad (amChecks false f)
  | .peElementwiseM f => noneBad (amChecks true f) && f.op != 0x4A
  | .peDotStep f => noneBad (amChecks true f) && f.op == 0x4A
  | .sNop _ | .add _ | .sub _ | .and _ | .or _ | .xor _ | .andn _ | .min _ | .max _ | .minu _ | .maxu _ | .shl _
  | .shr _ | .sar _ | .ror _ | .clz _ | .ctz _ | .mul _ | .mulh _ | .mulhu _ | .div _ | .divu _ | .rem _ | .remu _
  | .popc _ | .addi _ | .andi _ | .ori _ | .xori _ | .shli _ | .shri _ | .sari _ | .movi _ | .movhi _ | .cmp _
  | .cmpiCond03 _ | .cmpiCond47 _ | .plogAnd _ | .plogOr _ | .plogXor _ | .plogAndn _ | .ldb _ | .ldbu _ | .ldh _
  | .ldhu _ | .ldw _ | .ldwu _ | .ldd _ | .lds _ | .ldp _ | .stb _ | .sth _ | .stw _ | .std _ | .stf _ | .empty _
  | .aadd _ | .amin _ | .amax _ | .aand _ | .aor _ | .axor _ | .aswap _ | .atas _ | .acas _ | .afadd _ | .br _
  | .brl _ | .bri _ | .brtop _ | .exit _ | .trap _ | .tret _ | .sleep _ | .waitg _ | .waitgL _ | .joinm _ | .mfs _
  | .mts _ | .syncfC _ | .syncfI _ | .syncfCi _ | .xNop | .xadd _ | .xsub _ | .xaddi _ | .xshl _ | .xshr _ | .xand _
  | .xmul _ | .xlea _ | .xmin _ | .xmax _ | .xcmp _ | .xpopc _ | .xctz _ | .xbitSet _ | .xbitClr _ | .xbitFlip _
  | .xbitExt _ | .xmovs _ | .xtos _ | .xclamp _ | .xwrap _ | .xldW _ | .xldD _ | .vNop | .cNop | .tNop => true
  | .registerWriteLands k _ | .interlockedValueLands k _ | .bankReply k _ | .trapEntry k | .haltedContextResume k _
  | .haltedTaskEnd k | .budget k | .bankAccessPerformed k _ | .atomicPerformed k _ | .deferredReadAnswered k _
  | .deferredReadEntry k _ | .markerReachesHead k _ | .sbarSatisfied k _ | .graphNodeArm k | .taskPlacement k
  | .taskStart k | .taskEnd k | .hardPreemption k | .preemptionDrainEnd k | .contextRestore k => k.wf
  | .handlerFiringStart t | .firingStart t | .pcSample t | .commandQueueAccept t _ | .postPlaced t _
  | .sordAccept t _ | .pageWalkComplete t _ | .divertedElementServed t _ | .periodicRewalk t _ | .unresolvable t _
  | .shootdownComplete t _ => decide (t < 128)
  | .bankRemap b o => decide (b < 512) && o.all (· < 16)
  | .bankShutterOpen b => decide (b < 512)
  | .patrolScrub _ => true
  | .streamAccept t s | .doorBinding t s | .streamServiceTurn t s | .streamComplete t s | .circuitEntryMove t s
  | .gatherBatchEnd t s | .weightLoadComplete t s | .collectiveStartTime t s | .collectiveChunk t s => slotWf t s
  | .recordWrite k q | .ringHeadReread k q => k.wf && decide (q < 8)
  | .copyAccept e | .copyTransfer e _ => decide (e < 32)
  | .templateFiring k t => k.wf && decide (t < 16)
  | .creditGrant a b l => decide (a < 128) && decide (b < 128) && decide (l < 16)
  | .orderTokenOpen k d => k.wf && decide (d < 16)
  | .scfgComplete k h | .edgeElementReply k h _ | .edgeFaultFreeze k h _ | .sectionQuiescent k h
  | .sectionStopped k h | .regionSilent k h | .rowAdmission k h | .smmRetire k h => k.wf && decide (h < 16)
  | .pageMove k h py px => k.wf && decide (h < 16) && decide (py < 3) && decide (px < 4)
  | .peFiring k h r c | .loopBufferFill k h r c | .peSwitch k h r c => k.wf && decide (h < 16) && peWf r c
  | .outputEntryPush k h j => k.wf && decide (h < 16) && decide (j < 8)
  | .currentGrant | .grantLowering | .statusQuery | .syncTimeout => true
  | .launchIntake p q => decide (p < 16) && decide (q < 8)
  | .dispatcherPass p | .timeSlotStart p => decide (p < 16)
  | .effectivePriorityRaise _ | .launchEnd _ | .softPreemption _ => true
  | .spubPublish set => decide (set < 64)
  | .versionSwitch p _ _ => decide (p < 16)
  | .slotFree set slot => decide (set < 64) && decide (slot < 4)
  | .packetArrival _ | .ackArrival _ | .ackTimer _ | .refusedPacketResend _ | .unackedPacketResend _ | .orderwin _
  | .streamEntryReclaim _ | .ptpSyncMessage _ => true
  | .portDown p | .portUp p => decide (p < 32)
  | .peerReadRequest p _ _ => decide (p < 16)
  | .powerOnReset _ | .firmwareUpload _ _ | .linkRetryFailure _ => true
  | .partitionEnable _ p | .partitionDisable _ p => decide (p < 16)
  | .hregWrite _ p n _ => decide (p < 16) && decide (n < 64)
  | .lqWrite _ p n _ => decide (p < 16) && decide (n < 8)
  | .wsetWrite _ n _ => decide (n < 64)
  | .kownWrite _ n _ | .keyLoad n _ => decide (n < 2048)
  | .hubRegisterWrite _ r _ => r.wf
  | .attestationRequest _ | .apertureAccess _ _ | .walkAnswer _ _ | .faultAnswer _ _ | .spillAnswer _ _
  | .saveAnswer _ _ _ | .dispatchAnswer _ _ | .pageallocAnswer _ _ _ _ | .slewClk _ | .traceRingDrain _ => true

end Sys2Proof
end

