-- ==== Sys2Proof/Certificates/Slice0/Obligations.lean ====
section
/-! DEFINITION. The statements for the provers. In each, exec answers a next state, and the statement says which. What a
syllable stages is written with the other writes of its bundle (BundleCommits, WritesLand). -/

open Sys2Proof Sys2Proof.Machine

/-! ## The S slot: registers (R118 to R123) -/

/-- R41: an X, V or C syllable of zeros is a NOP, and so is an S syllable whose bits 30:0 are zero, whatever its bit 31
holds; the NOPs, the T micro-operation of zeros among them, leave the machine as it is. -/
def Obligations.NopsChangeNothing : Prop :=
  decodeX 0 = .ok .xNop ∧ decodeV 0 = .ok .vNop ∧ decodeC 0 = .ok .cNop
    ∧ (∀ w, w % 2 ^ 31 = 0 → w < 2 ^ 32 → decodeS w = .ok (.sNop (w == 2 ^ 31)))
    ∧ (∀ bytes, bundleWords bytes = ⟨leBytes (bytes.take 4), leBytes ((bytes.drop 4).take 4),
        leBytes ((bytes.drop 8).take 8), leBytes ((bytes.drop 16).take 16)⟩)
    ∧ ∀ (rp : Bool) (s : State),
        exec (.sNop rp) s = .next s ∧ exec .xNop s = .next s ∧ exec .vNop s = .next s ∧ exec .cNop s = .next s
          ∧ exec .tNop s = .next s

/-- R118, Tables 4.9 and 3.8: the result and the latency of every two-source register operation. -/
def Piece.ScalarRegisterResults : Prop :=
  ∀ (f : SR) (s : State), Unhindered s f.g [s.regS f.a, s.regS f.b] [s.regS f.d] →
    let a := s.rdS f.a
    let b := s.rdS f.b
    let n := b.toNat % 64
    exec (.add f) s = .next (s.putS f.d (a + b) 1)
      ∧ exec (.sub f) s = .next (s.putS f.d (a - b) 1)
      ∧ exec (.and f) s = .next (s.putS f.d (a &&& b) 1)
      ∧ exec (.or f) s = .next (s.putS f.d (a ||| b) 1)
      ∧ exec (.xor f) s = .next (s.putS f.d (a ^^^ b) 1)
      ∧ exec (.andn f) s = .next (s.putS f.d (a &&& ~~~b) 1)
      ∧ exec (.min f) s = .next (s.putS f.d (if a.toInt < b.toInt then a else b) 1)
      ∧ exec (.max f) s = .next (s.putS f.d (if a.toInt < b.toInt then b else a) 1)
      ∧ exec (.minu f) s = .next (s.putS f.d (if a.toNat < b.toNat then a else b) 1)
      ∧ exec (.maxu f) s = .next (s.putS f.d (if a.toNat < b.toNat then b else a) 1)
      ∧ exec (.shl f) s = .next (s.putS f.d (BitVec.ofNat 64 (a.toNat * 2 ^ n)) 1)
      ∧ exec (.shr f) s = .next (s.putS f.d (BitVec.ofNat 64 (a.toNat / 2 ^ n)) 1)
      ∧ exec (.sar f) s = .next (s.putS f.d (BitVec.ofInt 64 (a.toInt / 2 ^ n)) 1)
      ∧ exec (.ror f) s = .next (s.putS f.d (a.rotateRight n) 1)
      ∧ exec (.mul f) s = .next (s.putS f.d (BitVec.ofNat 64 (a.toNat * b.toNat)) 3)
      ∧ exec (.mulh f) s = .next (s.putS f.d (BitVec.ofInt 64 (a.toInt * b.toInt / 2 ^ 64)) 3)
      ∧ exec (.mulhu f) s = .next (s.putS f.d (BitVec.ofNat 64 (a.toNat * b.toNat / 2 ^ 64)) 3)
      ∧ exec (.div f) s = .next (s.putS f.d (if b = 0 then -1 else BitVec.ofInt 64 (a.toInt.tdiv b.toInt)) 16)
      ∧ exec (.divu f) s = .next (s.putS f.d (if b = 0 then -1 else BitVec.ofNat 64 (a.toNat / b.toNat)) 16)
      ∧ exec (.rem f) s = .next (s.putS f.d (if b = 0 then a else BitVec.ofInt 64 (a.toInt.tmod b.toInt)) 16)
      ∧ exec (.remu f) s = .next (s.putS f.d (if b = 0 then a else BitVec.ofNat 64 (a.toNat % b.toNat)) 16)

/-- R118: CLZ, CTZ and POPC count, with 64 for a zero operand of CLZ and CTZ. -/
def Piece.BitCountResults : Prop :=
  ∀ (f : SU) (s : State), Unhindered s f.g [s.regS f.a] [s.regS f.d] →
    let a := s.rdS f.a
    (∃ n ≤ 64, exec (.clz f) s = .next (s.putS f.d (BitVec.ofNat 64 n) 1)
        ∧ a.toNat < 2 ^ (64 - n) ∧ (n < 64 → 2 ^ (63 - n) ≤ a.toNat))
      ∧ (∃ n ≤ 64, exec (.ctz f) s = .next (s.putS f.d (BitVec.ofNat 64 n) 1)
        ∧ (∀ i < n, a.getLsbD i = false) ∧ (n < 64 → a.getLsbD n = true))
      ∧ exec (.popc f) s = .next (s.putS f.d (BitVec.ofNat 64 ((List.range 64).countP a.getLsbD)) 1)

/-- R119, R120: the immediate forms. -/
def Piece.ScalarImmediateResults : Prop :=
  (∀ (f : SI) (s : State), Unhindered s f.g [s.regS f.a] [s.regS f.d] →
    let a := s.rdS f.a
    let i := f.imm.signExtend 64
    exec (.addi f) s = .next (s.putS f.d (a + i) 1) ∧ exec (.andi f) s = .next (s.putS f.d (a &&& i) 1)
      ∧ exec (.ori f) s = .next (s.putS f.d (a ||| i) 1) ∧ exec (.xori f) s = .next (s.putS f.d (a ^^^ i) 1))
  ∧ (∀ (f : SSh) (s : State), Unhindered s f.g [s.regS f.a] [s.regS f.d] →
    let a := s.rdS f.a
    let n := f.cnt.toNat
    exec (.shli f) s = .next (s.putS f.d (BitVec.ofNat 64 (a.toNat * 2 ^ n)) 1)
      ∧ exec (.shri f) s = .next (s.putS f.d (BitVec.ofNat 64 (a.toNat / 2 ^ n)) 1)
      ∧ exec (.sari f) s = .next (s.putS f.d (BitVec.ofInt 64 (a.toInt / 2 ^ n)) 1))
  ∧ (∀ (f : SL) (s : State), Unhindered s f.g [] [s.regS f.d] →
    exec (.movi f) s = .next (s.putS f.d (f.imm.signExtend 64) 1))
  ∧ (∀ (f : SL) (s : State), Unhindered s f.g [s.regS f.d] [s.regS f.d] →
    exec (.movhi f) s = .next (s.putS f.d (BitVec.ofNat 64 ((s.rdS f.d).toNat * 2 ^ 15 + f.imm.toNat)) 1))

/-- R118 to R120: the register forms, the bit counts and the immediate forms of the S slot. -/
def Obligations.ScalarArithmetic : Prop :=
  Piece.ScalarRegisterResults ∧ Piece.BitCountResults ∧ Piece.ScalarImmediateResults

/-- R48, R121: CMP and CMPI set a predicate to the condition between a register and a register or the immediate, with latency
1; a write to q0 is discarded; a CMP whose bits 20:19 are not zero is ILLEGAL, with bit 19 in TVAL. -/
def Obligations.ComparesSetPredicates : Prop :=
  (∀ (f : SCmp) (s : State), Unhindered s f.g [s.regS f.a, s.regS f.b] [s.regQ f.p] →
    exec (.cmp f) s = .next (s.putQ f.p (conditionOf f.c.code (s.rdS f.a) (s.rdS f.b)) 1))
  ∧ (∀ (f : SCmpi) (s : State), Unhindered s f.g [s.regS f.a] [s.regQ f.p] →
    exec (.cmpiCond03 f) s = .next (s.putQ f.p (conditionOf f.c.toNat (s.rdS f.a) (f.imm.signExtend 64)) 1)
      ∧ exec (.cmpiCond47 f) s
          = .next (s.putQ f.p (conditionOf (4 + f.c.toNat) (s.rdS f.a) (f.imm.signExtend 64)) 1))
  ∧ (∀ (f : Files) (v m : Line) (o : BitVec 32) (r : Reg), (f.write (.q 0) v m o).read r = f.read r)
  ∧ (∀ w : BundleWords, w.s / 2 ^ 21 % 64 = 0x0D → w.s / 2 ^ 19 % 4 ≠ 0 → decodeBundle w = .error (0 + 4 * 19))

/-- R122: PLOG writes its predicate with latency 1, each operation from the predicates it reads; q0 reads as true and keeps
its value; a predicate is read and written through the mapping of its name. -/
def Obligations.PredicateLogic : Prop :=
  (∀ (f : SPl) (s : State),
    let a := s.rdQ f.a
    let b := s.rdQ f.b
    (Unhindered s f.g [s.regQ f.a, s.regQ f.b] [s.regQ f.d] →
      exec (.plogAnd f) s = .next (s.putQ f.d (a && b) 1) ∧ exec (.plogOr f) s = .next (s.putQ f.d (a || b) 1)
        ∧ exec (.plogXor f) s = .next (s.putQ f.d (a ^^ b) 1) ∧ exec (.plogAndn f) s = .next (s.putQ f.d (a && !b) 1))
    ∧ (Unhindered s f.g [s.regQ f.a] [s.regQ f.d] →
      exec (.plogNot f) s = .next (s.putQ f.d (!a) 1) ∧ exec (.plogMov f) s = .next (s.putQ f.d a 1))
    ∧ (Unhindered s f.g [] [s.regQ f.d] →
      exec (.plogSet f) s = .next (s.putQ f.d true 1) ∧ exec (.plogClr f) s = .next (s.putQ f.d false 1)))
  ∧ (∀ s : State, s.rdQ 0 = true ∧ ∀ v, s.putQ 0 v 1 = s)
  ∧ (∀ (s : State) (n : BitVec 4) (v : Bool), s.rdQ n = (s.c.files.read (physQ s.c.sys.rrb n.toNat)).getLsbD 0
      ∧ (n ≠ 0 → s.putQ n v 1 = s.stage (.reg (physQ s.c.sys.rrb n.toNat) (boolVal v) allBits 1)))

/-- R111, R123, Table 4.6: MFS reads a system register; MTS stages its write in a mode that may make it, and traps PRIV with
the register's number elsewhere. -/
def Piece.SystemRegisterMoves : Prop :=
  (∀ (f : SSys) (s : State), Unhindered s f.g [] [s.regS f.d] →
    exec (.mfs f) s = .next (s.putS f.d (s.sysRead f.n) 1))
  ∧ (∀ (f : SSys) (s : State), Unhindered s f.g [s.regS f.d] [] →
    (mtsAllowed s.c.sys.hm f.n = true → exec (.mts f) s = .next (s.stage (.sys f.n (s.rdS f.d))))
      ∧ (mtsAllowed s.c.sys.hm f.n = false → exec (.mts f) s = .next (s.raise 0 .priv (BitVec.ofNat 64 f.n.code))))

/-- R124: the three forms of SYNCF. -/
def Piece.SyncfIsStaged : Prop :=
  ∀ (f : SG) (s : State), Unhindered s f.g [] [] →
    exec (.syncfC f) s = .next (s.stage (.syncf false true)) ∧ exec (.syncfI f) s = .next (s.stage (.syncf true false))
      ∧ exec (.syncfCi f) s = .next (s.stage (.syncf true true))

/-! ## The S slot: memory (R298, R299) -/

/-- R298: the nine scalar loads; LDP forces space 4 and keeps bits 18:0 of its address. -/
def Piece.ScalarLoads : Prop :=
  LoadsFrom .ldb 1 true false id ∧ LoadsFrom .ldbu 1 false false id ∧ LoadsFrom .ldh 2 true false id
    ∧ LoadsFrom .ldhu 2 false false id ∧ LoadsFrom .ldw 4 true false id ∧ LoadsFrom .ldwu 4 false false id
    ∧ LoadsFrom .ldd 8 false false id ∧ LoadsFrom .lds 8 false true id
    ∧ LoadsFrom .ldp 8 false false fun a => 0x4000000000000000 + a % 2 ^ 19

/-- R298: the five scalar stores, and EMPTY. -/
def Piece.ScalarStores : Prop :=
  StoresTo .stb 1 false ∧ StoresTo .sth 2 false ∧ StoresTo .stw 4 false ∧ StoresTo .std 8 false ∧ StoresTo .stf 8 true
    ∧ ∀ (f : SEmp) (s : State), Unhindered s f.g [s.regS f.a] [] →
        let ea := s.rdS f.a + f.off.signExtend 64 * 8
        (∀ c, s.checkS .store ea 8 = some c → exec (.empty f) s = .next (s.raise 0 c ea))
          ∧ (s.checkS .store ea 8 = none → exec (.empty f) s = .next (s.stage (.access
              { seq := 0, bundle := 0, slot := 0, issued := 0, addr := ea, size := 8, lane := s.c.sys.olane, kind := .empty,
                acquire := false, deferred := false })))

/-- R299: the ten Hall atomics, their checks in order, and what they send to the bank. -/
def Piece.HallAtomics : Prop :=
  (∀ (f : SR) (s : State), Unhindered s f.g [s.regS f.a, s.regS f.b] [s.regS f.d] →
    ActsOnWord (.aadd f) s f.d f.a .add 8 (s.rdS f.b) 0 ∧ ActsOnWord (.amin f) s f.d f.a .min 8 (s.rdS f.b) 0
      ∧ ActsOnWord (.amax f) s f.d f.a .max 8 (s.rdS f.b) 0 ∧ ActsOnWord (.aand f) s f.d f.a .and 8 (s.rdS f.b) 0
      ∧ ActsOnWord (.aor f) s f.d f.a .or 8 (s.rdS f.b) 0 ∧ ActsOnWord (.axor f) s f.d f.a .xor 8 (s.rdS f.b) 0
      ∧ ActsOnWord (.aswap f) s f.d f.a .swap 8 (s.rdS f.b) 0 ∧ ActsOnWord (.afadd f) s f.d f.a .fadd 4 (s.rdS f.b) 0)
  ∧ (∀ (f : SU) (s : State), Unhindered s f.g [s.regS f.a] [s.regS f.d] →
      ActsOnWord (.atas f) s f.d f.a .tas 8 0 0)
  ∧ (∀ (f : SR) (s : State), Unhindered s f.g [s.regS f.a, s.regS f.b, s.regS f.d] [s.regS f.d] →
      ActsOnWord (.acas f) s f.d f.a .cas 8 (s.rdS f.b) (s.rdS f.d))

/-- R298, R299: the loads, the stores, EMPTY and the Hall atomics of the S slot. -/
def Obligations.ScalarMemory : Prop :=
  Piece.ScalarLoads ∧ Piece.ScalarStores ∧ Piece.HallAtomics

/-- R299, Table 10.6: what the arithmetic unit of a bank makes of a word w of 8 bytes with operand b and comparand c. -/
def Obligations.BankArithmetic : Prop :=
  ∀ w b c : Word,
    BitVec.ofNat 64 (BankOp.add.apply 8 w.toNat b.toNat c.toNat) = w + b
      ∧ BitVec.ofNat 64 (BankOp.min.apply 8 w.toNat b.toNat c.toNat) = (if b.toInt < w.toInt then b else w)
      ∧ BitVec.ofNat 64 (BankOp.max.apply 8 w.toNat b.toNat c.toNat) = (if w.toInt < b.toInt then b else w)
      ∧ BitVec.ofNat 64 (BankOp.and.apply 8 w.toNat b.toNat c.toNat) = w &&& b
      ∧ BitVec.ofNat 64 (BankOp.or.apply 8 w.toNat b.toNat c.toNat) = w ||| b
      ∧ BitVec.ofNat 64 (BankOp.xor.apply 8 w.toNat b.toNat c.toNat) = w ^^^ b
      ∧ BitVec.ofNat 64 (BankOp.swap.apply 8 w.toNat b.toNat c.toNat) = b
      ∧ BitVec.ofNat 64 (BankOp.tas.apply 8 w.toNat b.toNat c.toNat) = 1
      ∧ BitVec.ofNat 64 (BankOp.cas.apply 8 w.toNat b.toNat c.toNat) = (if w = c then b else w)

/-! ## The S slot: control (R127 to R145, R367, R368) -/

/-- R128 to R130: branches, and the link of BRL and BRI; a misaligned target of BRI traps ALIGN. -/
def Piece.Branches : Prop :=
  (∀ (f : SJ) (s : State), Unhindered s f.g [] [] →
    exec (.br f) s = .next (s.stage (.jump (s.bundle.pc + f.disp.signExtend 64 * 32) 1)))
  ∧ (∀ (f : SJ) (s : State), Unhindered s f.g [] [s.regS 62] →
    exec (.brl f) s = .next ((s.putS 62 (s.bundle.pc + 32) 1).stage (.jump (s.bundle.pc + f.disp.signExtend 64 * 32) 1)))
  ∧ (∀ (f : SU) (s : State), Unhindered s f.g [s.regS f.a] [s.regS f.d] →
    ((s.rdS f.a).toNat % 32 = 0 →
        exec (.bri f) s = .next ((s.putS f.d (s.bundle.pc + 32) 1).stage (.jump (s.rdS f.a) 3)))
      ∧ ((s.rdS f.a).toNat % 32 ≠ 0 → exec (.bri f) s = .next (s.raise 0 .align (s.rdS f.a))))

/-- R132, R135, R136: LOOP sets the hidden frame or skips its body; BRTOP counts LC, then EC, rotates, writes the stage
predicate and branches while LC was not zero. LOOP traps PRIV in handler mode. -/
def Piece.Loops : Prop :=
  (∀ (f : SL) (s : State), Unhindered s f.g [s.regS f.d] [] →
    let n := s.rdS f.d
    let start := s.bundle.pc + 32
    let stop := s.bundle.pc + f.imm.setWidth 64 * 32
    (s.c.sys.hm = true → exec (.loop f) s = .next (s.raise 0 .priv 0))
      ∧ (s.c.sys.hm = false → n ≠ 0 → exec (.loop f) s = .next ((s.stage (.lc n)).stage (.frame start stop true)))
      ∧ (s.c.sys.hm = false → n = 0 →
          exec (.loop f) s = .next (((s.stage (.lc 0)).stage (.frame start stop false)).stage (.jump (stop + 32) 1))))
  ∧ (∀ (f : SJ) (s : State), Unhindered s f.g [] [] →
    let target := s.bundle.pc + f.disp.signExtend 64 * 32
    (s.c.sys.lc = 0 → exec (.brtop f) s = .next ((s.stage .rotate).stage (.stage false)))
      ∧ (s.c.sys.lc ≠ 0 → s.c.sys.ec = 0 →
          exec (.brtop f) s = .next ((((s.stage (.lc (s.c.sys.lc - 1))).stage .rotate).stage (.stage false)).stage (.jump target 1)))
      ∧ (s.c.sys.lc ≠ 0 → s.c.sys.ec ≠ 0 →
          exec (.brtop f) s = .next (((((s.stage (.lc (s.c.sys.lc - 1))).stage (.ec (s.c.sys.ec - 1))).stage .rotate).stage
            (.stage true)).stage (.jump target 1))))

/-- R127 to R136: the branches, LOOP and BRTOP. -/
def Obligations.ControlTransfers : Prop :=
  Piece.Branches ∧ Piece.Loops

/-- R139, R367, R368: EXIT ends the firing and traps PRIV in handler mode; TRAP raises SOFT with its number in either mode;
TRET returns from a trap and traps PRIV in task mode. -/
def Piece.ExitTrapAndReturn : Prop :=
  (∀ (f : SG) (s : State), Unhindered s f.g [] [] →
    (s.c.sys.hm = false → exec (.exit f) s = .next (s.stage .exit) ∧ exec (.tret f) s = .next (s.raise 0 .priv 0))
      ∧ (s.c.sys.hm = true → exec (.exit f) s = .next (s.raise 0 .priv 0) ∧ exec (.tret f) s = .next (s.stage .tret)))
  ∧ (∀ (f : STrap) (s : State), Unhindered s f.g [] [] →
    exec (.trap f) s = .next (s.raise 0 .soft (f.n.setWidth 64)))

/-- R111, R123 to R125, R138, R139, R368: the moves of system registers, SYNCF, EXIT, TRAP and TRET. -/
def Obligations.SystemSyllables : Prop :=
  Piece.SystemRegisterMoves ∧ Piece.SyncfIsStaged ∧ Piece.ExitTrapAndReturn

/-- R143 to R145: the waits. SLEEP lets its bundle pass once GTIME has reached its register and the command bound to it is
complete; before that it holds the bundle, and in task mode it traps PROMISE when the time has passed and the command has not
completed. WAITG waits for the time alone; WAITG.L traps SKEW while the servo is not locked. JOINM waits for the markers it
names. -/
def Obligations.Waits : Prop :=
  (∀ (f : SA) (s : State), Unhindered s f.g [s.regS f.a] [] →
    let late := (s.rdS f.a).toNat ≤ s.gtime
    let isOpen := s.c.openBinding (s.regS f.a)
    (late → isOpen = false → exec (.sleep f) s = .next s)
      ∧ (¬ late → exec (.sleep f) s = .next (s.hold .sleep))
      ∧ (late → isOpen = true → s.c.sys.hm = true → exec (.sleep f) s = .next (s.hold .sleep))
      ∧ (late → isOpen = true → s.c.sys.hm = false → exec (.sleep f) s = .next (s.raise 0 .promise (f.a.setWidth 64)))
      ∧ (late → exec (.waitg f) s = .next s)
      ∧ (¬ late → exec (.waitg f) s = .next (s.hold .time))
      ∧ (s.locked = false → exec (.waitgL f) s = .next (s.raise 0 .skew (s.rdS f.a)))
      ∧ (s.locked = true → late → exec (.waitgL f) s = .next s)
      ∧ (s.locked = true → ¬ late → exec (.waitgL f) s = .next (s.hold .time)))
  ∧ (∀ (f : SJoin) (s : State), Unhindered s f.g [] [] →
    (s.markPending f.m = false → exec (.joinm f) s = .next s)
      ∧ (s.markPending f.m = true → exec (.joinm f) s = .next (s.hold .join)))

/-! ## The X slot (R147 to R150) -/

/-- R147, Table 5.3: the results of the index operations. -/
def Obligations.IndexResults : Prop :=
  (∀ (f : XR) (s : State), Unhindered s f.g [s.regX f.a, s.regX f.b] [s.regX f.d] →
    let a := s.rdX f.a
    let b := s.rdX f.b
    exec (.xadd f) s = .next (s.putX f.d (a + b) 1) ∧ exec (.xsub f) s = .next (s.putX f.d (a - b) 1)
      ∧ exec (.xand f) s = .next (s.putX f.d (a &&& b) 1)
      ∧ exec (.xmul f) s = .next (s.putX f.d (BitVec.ofNat 64 (a.toNat * b.toNat)) 3)
      ∧ exec (.xmin f) s = .next (s.putX f.d (if a.toInt < b.toInt then a else b) 1)
      ∧ exec (.xmax f) s = .next (s.putX f.d (if a.toInt < b.toInt then b else a) 1)
      ∧ exec (.xwrap f) s = .next (s.putX f.d (if a.toNat < b.toNat then a else a - b) 1))
  ∧ (∀ (f : XI) (s : State), Unhindered s f.g [s.regX f.a] [s.regX f.d] →
    exec (.xaddi f) s = .next (s.putX f.d (s.rdX f.a + f.imm.signExtend 64) 1))
  ∧ (∀ (f : XN) (s : State), Unhindered s f.g [s.regX f.a] [s.regX f.d] →
    let a := s.rdX f.a
    let n := f.n.toNat
    exec (.xshl f) s = .next (s.putX f.d (BitVec.ofNat 64 (a.toNat * 2 ^ n)) 1)
      ∧ exec (.xshr f) s = .next (s.putX f.d (BitVec.ofNat 64 (a.toNat / 2 ^ n)) 1)
      ∧ (∃ v : Word, exec (.xbitSet f) s = .next (s.putX f.d v 1)
          ∧ ∀ i < 64, v.getLsbD i = if i = n then true else a.getLsbD i)
      ∧ (∃ v : Word, exec (.xbitClr f) s = .next (s.putX f.d v 1)
          ∧ ∀ i < 64, v.getLsbD i = if i = n then false else a.getLsbD i)
      ∧ (∃ v : Word, exec (.xbitFlip f) s = .next (s.putX f.d v 1)
          ∧ ∀ i < 64, v.getLsbD i = if i = n then !a.getLsbD i else a.getLsbD i)
      ∧ exec (.xbitExt f) s = .next (s.putX f.d (if a.getLsbD n then 1 else 0) 1))
  ∧ (∀ (f : XLea) (s : State), Unhindered s f.g [s.regX f.a, s.regX f.b] [s.regX f.d] →
    exec (.xlea f) s = .next (s.putX f.d (s.rdX f.a + BitVec.ofNat 64 ((s.rdX f.b).toNat * 2 ^ f.n.toNat)) 1))
  ∧ (∀ (f : XCmp) (s : State), Unhindered s f.g [s.regX f.a, s.regX f.b] [s.regQ f.p] →
    exec (.xcmp f) s = .next (s.putQ f.p (conditionOf f.c.code (s.rdX f.a) (s.rdX f.b)) 1))
  ∧ (∀ (f : XU) (s : State), Unhindered s f.g [s.regX f.a] [s.regX f.d] →
    exec (.xpopc f) s = .next (s.putX f.d (BitVec.ofNat 64 ((List.range 64).countP (s.rdX f.a).getLsbD)) 1)
      ∧ ∃ n ≤ 64, exec (.xctz f) s = .next (s.putX f.d (BitVec.ofNat 64 n) 1)
          ∧ (∀ i < n, (s.rdX f.a).getLsbD i = false) ∧ (n < 64 → (s.rdX f.a).getLsbD n = true))
  ∧ (∀ (f : XU) (s : State), Unhindered s f.g [s.regS (f.a.setWidth 6)] [s.regX f.d] →
    exec (.xmovs f) s = .next (s.putX f.d (s.rdS (f.a.setWidth 6)) 1))
  ∧ (∀ (f : XU) (s : State), Unhindered s f.g [s.regX f.a] [s.regS (f.d.setWidth 6)] →
    exec (.xtos f) s = .next (s.putS (f.d.setWidth 6) (s.rdX f.a) 1))
  ∧ (∀ (f : XClamp) (s : State), Unhindered s f.g [s.regX f.a, s.regX f.b] [s.regX f.d] →
    exec (.xclamp f) s = .next (s.putX f.d
      (BitVec.ofInt 64 (min (max (s.rdX f.a).toInt (f.imm.signExtend 64).toInt) (s.rdX f.b).toInt)) 1))

/-- R148 to R150: CADV advances the cursors that are not behind and says whether the keys are equal; XLD and XBSTEP send
their loads, or trap with the address, ea before eb; XBSTEP with lo not below hi reads nothing, writes nothing and does not
trap. -/
def Obligations.CursorsAndIndexLoads : Prop :=
  (∀ (f : XCadv) (s : State),
    Unhindered s f.g [s.regX f.a, s.regX f.b, s.regX (pairLo f.pair), s.regX (pairHi f.pair)]
      [s.regX (pairLo f.pair), s.regX (pairHi f.pair), s.regQ f.p] →
    let a := s.rdX f.a
    let b := s.rdX f.b
    let lo := s.rdX (pairLo f.pair)
    let hi := s.rdX (pairHi f.pair)
    (a.toNat < b.toNat → exec (.cadv f) s = .next ((s.putX (pairLo f.pair) (lo + 1) 1).putQ f.p false 1))
      ∧ (b.toNat < a.toNat → exec (.cadv f) s = .next ((s.putX (pairHi f.pair) (hi + 1) 1).putQ f.p false 1))
      ∧ (a = b → exec (.cadv f) s
          = .next (((s.putX (pairLo f.pair) (lo + 1) 1).putX (pairHi f.pair) (hi + 1) 1).putQ f.p true 1)))
  ∧ (∀ (f : XLd) (s : State), Unhindered s f.g [s.regX f.a] [s.regX f.d] →
      SendsLoad (.xldW f) s (s.rdX f.a + f.off.signExtend 64 * 4) 4 (s.regX f.d)
        ∧ SendsLoad (.xldD f) s (s.rdX f.a + f.off.signExtend 64 * 8) 8 (s.regX f.d))
  ∧ (∀ (f : XBst) (s : State),
      let lo := s.regX (pairLo f.pair)
      let hi := s.regX (pairHi f.pair)
      Unhindered s f.g [s.regX f.a, s.regX f.b, lo, hi] [lo, hi] →
      StepsSearch (.xbstepW f) s f 4 ∧ StepsSearch (.xbstepD f) s f 8)

/-! ## The V slot (R151 to R174) -/

/-- R79, R154, R156: the floating-point operations that round. -/
def Obligations.FloatLaneResults : Prop :=
  ∀ (f : VF) (s : State),
    let t := vElem f
    let F := fmtOf t
    let a := valA s f
    let b := valB s f
    let c := valC s f
    (UnhinderedV s f [s.regV f.a, s.regV f.b] [s.regV f.d] →
      WritesLanes (.vadd f) s f t 4 true (fun j => F.add (a j) (b j) (s.vrnd f j))
        ∧ WritesLanes (.vsub f) s f t 4 true (fun j => F.add (a j) (b j).negate (s.vrnd f j))
        ∧ WritesLanes (.vmul f) s f t 4 true (fun j => F.mul (a j) (b j) (s.vrnd f j)))
    ∧ (UnhinderedV s f [s.regV f.a, s.regV f.b, s.regV f.c] [s.regV f.d] →
      WritesLanes (.vfma f) s f t 5 true (fun j => F.fma (a j) (b j) (c j) (s.vrnd f j))
        ∧ WritesLanes (.vfms f) s f t 5 true (fun j => F.fma (a j) (b j) (c j).negate (s.vrnd f j))
        ∧ WritesLanes (.vfnma f) s f t 5 true (fun j => F.fma (a j).negate (b j) (c j) (s.vrnd f j)))
    ∧ (UnhinderedV s f [s.regV f.a] [s.regV f.d] →
      WritesLanes (.vrcp f) s f t 12 true (fun j => F.rcp (a j) (s.vrnd f j))
        ∧ WritesLanes (.vrsq f) s f t 12 true (fun j => F.rsq (a j) (s.vrnd f j))
        ∧ WritesLanes (.vsqrt f) s f t 12 true (fun j => F.sqrt (a j) (s.vrnd f j))
        ∧ WritesLanes (.vexp2 f) s f t 12 true (fun j => F.exp2 (a j) (s.vrnd f j))
        ∧ WritesLanes (.vlog2 f) s f t 12 true (fun j => F.log2 (a j) (s.vrnd f j)))

/-- R82, R156, R158: minimum, maximum, the sign operations and the class. -/
def Obligations.SignAndClassResults : Prop :=
  ∀ (f : VF) (s : State),
    let t := vElem f
    let F := fmtOf t
    let a := elA s f
    let b := elB s f
    (UnhinderedV s f [s.regV f.a, s.regV f.b] [s.regV f.d] →
      WritesLanes (.vmin f) s f t 2 false (fun j => F.minMax false (a j) (b j))
        ∧ WritesLanes (.vmax f) s f t 2 false (fun j => F.minMax true (a j) (b j))
        ∧ WritesLanes (.vcpys f) s f t 1 false (fun j => (fcpys F (a j) (b j), 0)))
    ∧ (UnhinderedV s f [s.regV f.a] [s.regV f.d] →
      WritesLanes (.vabs f) s f t 1 false (fun j => (if (F.decode (a j)).isNan then F.qnan else a j % F.signBit, 0))
        ∧ WritesLanes (.vneg f) s f t 1 false (fun j => (if (F.decode (a j)).isNan then F.qnan else fneg F (a j), 0))
        ∧ WritesLanes (.vclass f) s f t 1 false (fun j => (2 ^ classBit F (a j), 0)))

/-- R159, R160, Table 6.7: the integer operations, VPOPC and VMOV. -/
def Obligations.IntegerLaneResults : Prop :=
  ∀ (f : VF) (s : State),
    let t := vElem f
    let w := vWidth f
    let u := f.sub.getLsbD 0
    let a := elA s f
    let b := elB s f
    let sa (j : Nat) : Int := sintOf w (a j)
    let sb (j : Nat) : Int := sintOf w (b j)
    (UnhinderedV s f [s.regV f.a, s.regV f.b] [s.regV f.d] →
      WritesLanes (.viadd f) s f t 1 false (fun j =>
          (if !f.sat then a j + b j else clampedTo w u (if u then (a j : Int) + b j else sa j + sb j), 0))
        ∧ WritesLanes (.visub f) s f t 1 false (fun j =>
          (if !f.sat then a j + 2 ^ w - b j else clampedTo w u (if u then (a j : Int) - b j else sa j - sb j), 0))
        ∧ WritesLanes (.vimul f) s f t 3 false (fun j => (a j * b j, 0))
        ∧ WritesLanes (.vimulh f) s f t 3 false (fun j =>
          (if u then a j * b j / 2 ^ w else (sa j * sb j / 2 ^ w % 2 ^ w).toNat, 0))
        ∧ WritesLanes (.vand f) s f t 1 false (fun j => (a j &&& b j, 0))
        ∧ WritesLanes (.vor f) s f t 1 false (fun j => (a j ||| b j, 0))
        ∧ WritesLanes (.vxor f) s f t 1 false (fun j => (a j ^^^ b j, 0))
        ∧ WritesLanes (.vshl f) s f t 1 false (fun j => (a j * 2 ^ (b j % w), 0))
        ∧ WritesLanes (.vshr f) s f t 1 false (fun j => (a j / 2 ^ (b j % w), 0))
        ∧ WritesLanes (.vsar f) s f t 1 false (fun j => ((sa j / 2 ^ (b j % w) % 2 ^ w).toNat, 0))
        ∧ WritesLanes (.vimin f) s f t 1 false (fun j =>
          (if (if u then decide (a j < b j) else decide (sa j < sb j)) then a j else b j, 0))
        ∧ WritesLanes (.vimax f) s f t 1 false (fun j =>
          (if (if u then decide (a j < b j) else decide (sa j < sb j)) then b j else a j, 0)))
    ∧ (UnhinderedV s f [s.regV f.a] [s.regV f.d] →
      WritesLanes (.vpopc f) s f t 1 false (fun j => ((List.range 64).countP (a j).testBit, 0))
        ∧ WritesLanes (.vmov f) s f t 1 false (fun j => (a j, 0)))

/-- R48, R157, Table 2.8: the V compares. -/
def Piece.VectorCompares : Prop :=
  ∀ (f : VF) (s : State), UnhinderedV s f [s.regV f.a, s.regV f.b] [.m f.d.toNat] →
    WritesMask (.vcmpf f) s f 2 (fun j => FVal.compare (fcondOf f.sub.toNat) (valA s f j) (valB s f j))
      ∧ WritesMask (.vicmp f) s f 1 (fun j =>
          (intCond (vWidth f) (Cond.ofCode f.sub.toNat) (elA s f j) (elB s f j), 0))

/-- R160 to R162: selection, broadcast, extraction, insertion, permutation, shuffle. VSEL writes every lane. -/
def Piece.VectorMoves : Prop :=
  ∀ (f : VF) (s : State),
    let t := vElem f
    let w := vWidth f
    let p := permType t
    let L := ElemType.lanes p
    let x := (s.rdS (f.a.setWidth 6)).toNat
    (UnhinderedV s f [s.regV f.a, s.regV f.b] [s.regV f.d] →
      ∃ v, exec (.vsel f) s = .next (s.putV f.d v allBits 1) ∧ ∀ j < ElemType.lanes t,
        elem w v j = if maskBit (s.vmask f) (ElemType.lanes t) j then elA s f j else elB s f j)
    ∧ (UnhinderedV s f [s.regS (f.a.setWidth 6)] [s.regV f.d] →
      WritesLanes (.vbcast f) s f t 2 false (fun _ => (x, 0))
        ∧ exec (.vins f) s = .next (s.putV f.d (BitVec.ofNat 512 (x % 2 ^ w * 2 ^ (w * f.c.toNat)))
            (oneLane w f.c.toNat &&& laneMask t (s.vmask f)) 2))
    ∧ (UnhinderedV s f [s.regV f.a] [s.regS (f.d.setWidth 6)] →
      exec (.vextr f) s = .next (s.putRowS (f.d.setWidth 6)
        (if ElemType.isInt t then BitVec.ofInt 64 (sintOf w (elA s f f.c.toNat)) else BitVec.ofNat 64 (elA s f f.c.toNat)) 2))
    ∧ (UnhinderedV s f [s.regV f.a, s.regV f.b, s.regV f.d] [s.regV f.d] →
      WritesLanes (.vperm f) s f p 2 false (fun j =>
        let n := elem (ElemType.bits p) (s.rdV f.b) j % (2 * L)
        (if n < L then elem (ElemType.bits p) (s.rdV f.a) n else elem (ElemType.bits p) (s.rdV f.d) (n - L), 0)))
    ∧ (UnhinderedV s f (if shufOf f.sub.toNat = .rev then [s.regV f.a] else [s.regV f.a, s.regV f.b]) [s.regV f.d] →
      WritesLanes (.vshuf f) s f p 2 false (fun j =>
        (shuffle (shufOf f.sub.toNat) L (elem (ElemType.bits p) (s.rdV f.a)) (elem (ElemType.bits p) (s.rdV f.b)) j, 0)))

/-- R48, R157, R160 to R162: the compares and the moves of the V slot. -/
def Obligations.VectorComparesAndMoves : Prop :=
  Piece.VectorCompares ∧ Piece.VectorMoves

/-- R163 to R165: conversion writes only the lanes that the source has; VPACKB writes one block; VUNPKB writes F32 lanes. -/
def Obligations.ConversionAndPacking : Prop :=
  ∀ (f : VF) (s : State),
    let t := vElem f
    let w := vWidth f
    let L := ElemType.lanes t
    let src := elemOfCode f.sub.toNat
    let on (j : Nat) : Bool := maskBit (s.vmask f) L j
    let k := half (s.rdV f.b) 0 % 8 % (L / 16)
    let scale := half (s.rdV f.b) 1 % 1024
    (UnhinderedV s f [s.regV f.a] [s.regV f.d] →
      ∃ (v m : Line) (fl : FlagBits), exec (.vcvt f) s = .next ((s.putV f.d v m 4).stageFlags f fl true)
        ∧ ∀ j < L, elem w m j = (if j < ElemType.lanes src ∧ on j = true then 2 ^ w - 1 else 0)
            ∧ (j < ElemType.lanes src → on j = true → elem w v j
                = (convert src t (elem (ElemType.bits src) (s.rdV f.a) j) (s.vrnd f j)).1 % 2 ^ w))
    ∧ (UnhinderedV s f [s.regV f.a, s.regV f.b] [s.regV f.d] →
      (∃ (v m : Line) (fl : FlagBits), exec (.vpackb f) s = .next ((s.putV f.d v m 4).stageFlags f fl true)
        ∧ ∀ j < L, elem w m j = (if j / 16 = k ∧ on j = true then 2 ^ w - 1 else 0)
            ∧ (j / 16 = k → on j = true → elem w v j
                = (packElem (fmtOf t) (fmtF32.decode (elem 32 (s.rdV f.a) (j % 16))) scale (s.vrnd f j)).1 % 2 ^ w))
      ∧ WritesLanes (.vunpkb f) s f .f32 4 false (fun j => unpackElem (fmtOf t) (elA s f (16 * k + j)) scale))

/-- R91, R92, R166 to R168: the dot product of groups, the reduction into every lane, the scan. -/
def Obligations.DotsAndReductions : Prop :=
  ∀ (f : VF) (s : State),
    let t := vElem f
    let w := vWidth f
    let L := ElemType.lanes t
    let op := redOf f.sub.toNat
    let a := s.rdV f.a
    let b := s.rdV f.b
    let c := s.rdV f.c
    let on (j : Nat) : Bool := maskBit (s.vmask f) L j
    let inputs := (List.range L).map fun j => if on j then some (elA s f j) else none
    (UnhinderedV s f ([s.regV f.a, s.regV f.b, s.regV f.d] ++ if ElemType.scaled t then [s.regV f.c] else []) [s.regV f.d] →
      WritesLanes (.vdot8 f) s f .f32 6 true (fun j =>
        if t = .i8 then
          (dotStepInt ((List.range 16).map fun i => (sintOf 8 (elem 8 a (16 * (j / 4) + i)), sintOf 8 (elem 8 b (16 * (j % 4) + i))))
            (elem 32 (s.rdV f.d) j) false, 0)
        else dotStepFloat (dotPairs t a b (j / 4) (j % 4) (half c (j / 4) % 1024) (half c (4 + j % 4) % 1024))
          (elem 32 (s.rdV f.d) j) ⟨s.mode f.rm.toNat, false, vRandom s.c.sys.flags j⟩))
    ∧ (UnhinderedV s f [s.regV f.a] [s.regV f.d] →
      (∃ (v : Line) (fl : FlagBits), exec (.vred f) s = .next ((s.putV f.d v allBits 10).stageFlags f fl true)
        ∧ ∀ j < L, elem w v j
            = ((redTree (fun k i x y => redNode t op x y (s.vrnd f (64 * k + i))) 8 0 inputs).1.getD (redEmpty t op)) % 2 ^ w)
      ∧ (∃ (v : Line) (fl : FlagBits), exec (.vscan f) s = .next ((s.putV f.d v (laneMask t (s.vmask f)) 10).stageFlags f fl true)
        ∧ ∀ j < L, on j = true → elem w v j
            = ((scanLanes (fun i x y => redNode t op x y (s.vrnd f i)) 0 none inputs).1[j]?).getD 0 % 2 ^ w))

/-- R169 to R172: the V memory instructions at their line, or their trap, and the doors. VPUT waits for room whatever its
guard. -/
def Obligations.VectorMemoryAndDoors : Prop :=
  ∀ (f : VF) (s : State),
    let ea := s.rdS (f.a.setWidth 6) + f.c.signExtend 64 * 64
    let m := laneMask (vElem f) (s.vmask f)
    let load (sync : Bool) : State := (s.stagePwb (s.beyondBit ea 64 (maskByte m))).stage (.access
      { seq := 0, bundle := 0, slot := 2, issued := 0, addr := ea, size := 64, lane := 0, kind := .vload (s.regV f.d) m sync,
        acquire := sync && s.inSync ea, deferred := false })
    let store (full : Bool) : State := s.stage (.access
      { seq := 0, bundle := 0, slot := 2, issued := 0, addr := ea, size := 64, lane := s.c.sys.olane,
        kind := .store (s.rdV f.d) m full, acquire := false, deferred := false })
    (UnhinderedV s f [s.regS (f.a.setWidth 6)] [s.regV f.d] →
      (∀ c, s.checkV .load ea = some c → exec (.vld f) s = .next (s.raise 2 c ea) ∧ exec (.vlds f) s = .next (s.raise 2 c ea))
        ∧ (s.checkV .load ea = none → exec (.vld f) s = .next (load false) ∧ exec (.vlds f) s = .next (load true)))
    ∧ (UnhinderedV s f [s.regV f.d, s.regS (f.a.setWidth 6)] [] →
      (∀ c, s.checkV .store ea = some c → exec (.vst f) s = .next (s.raise 2 c ea) ∧ exec (.vstf f) s = .next (s.raise 2 c ea))
        ∧ (s.checkV .store ea = none → exec (.vst f) s = .next (store false) ∧ exec (.vstf f) s = .next (store true)))
    ∧ (UnhinderedV s f [] [s.regV f.d] → exec (.vget f) s = .next (s.stage (.vget (f.a.toNat - 32) (s.regV f.d) m)))
    ∧ (s.c.doorRoom f.d.toNat = false → exec (.vput f) s = .next (s.hold .doorFull))
    ∧ (UnhinderedV s f [s.regV f.a] [] → s.c.doorRoom f.d.toNat = true →
        exec (.vput f) s = .next (s.stage (.vput f.d.toNat (s.rdV f.a &&& m))))

/-- R174: the mask operations. -/
def Obligations.MaskOperations : Prop :=
  ∀ (f : VF) (s : State),
    let a := s.rdM f.a.toNat
    let b := s.rdM f.b.toNat
    (UnhinderedV s f [.m f.a.toNat, .m f.b.toNat] [.m f.d.toNat] →
      exec (.mand f) s = .next (s.putM f.d.toNat (a &&& b) 1) ∧ exec (.mor f) s = .next (s.putM f.d.toNat (a ||| b) 1)
        ∧ exec (.mxor f) s = .next (s.putM f.d.toNat (a ^^^ b) 1))
    ∧ (UnhinderedV s f [.m f.a.toNat] [.m f.d.toNat] → exec (.mnot f) s = .next (s.putM f.d.toNat (~~~a) 1))
    ∧ (UnhinderedV s f [.m f.a.toNat] [s.regS (f.d.setWidth 6)] →
      exec (.mpopc f) s = .next (s.putRowS (f.d.setWidth 6) (BitVec.ofNat 64 ((List.range 64).countP a.getLsbD)) 2)
        ∧ ∃ n ≤ 64, exec (.mfirst f) s = .next (s.putRowS (f.d.setWidth 6) (BitVec.ofNat 64 n) 2)
            ∧ (∀ i < n, a.getLsbD i = false) ∧ (n < 64 → a.getLsbD n = true))

/-! ## The C slot (R54, R126, R217 to R226, R245) -/

/-- R217, R226, Tables 2.10 and 8.4: every command enters with what its opcode uses. -/
def Piece.CommandsEnter : Prop :=
  Enters .saff true true true true true ∧ Enters .saffw true true true true true ∧ Enters .sind true true true true true
    ∧ Enters .sindw true true true true true ∧ Enters .srec true false true true true
    ∧ Enters .sconst true false true true true ∧ Enters .sfill true true true true true
    ∧ Enters .smcast true true true true true ∧ Enters .sremw true true true true true
    ∧ Enters .srema true true true true true ∧ Enters .scirc true true true false true
    ∧ Enters .scopy false true true true true ∧ Enters .scopyc false true true true true
    ∧ Enters .sarm false false true false true ∧ Enters .sdisarm false false false false true
    ∧ Enters .spost false true false false true ∧ Enters .gath true true true true true
    ∧ Enters .scat true true true true true ∧ Enters .greplay true true true true true
    ∧ Enters .sbar false false false false false ∧ Enters .smark false false false false false
    ∧ Enters .sord false false false false false ∧ Enters .scfg false true false true true
    ∧ Enters .srunGo false false false false false ∧ Enters .srunBack false false false false false
    ∧ Enters .sstop false false false false true ∧ Enters .swload true true true true true
    ∧ Enters .smm false false true true true ∧ Enters .sarmg false false false false true
    ∧ Enters .spub false false false false true ∧ Enters .svsw false false false false true
    ∧ Enters .svstage false false false false true ∧ Enters .scoll true true true true true
    ∧ Enters .sslot false true false false true ∧ Enters .csysShootdown false true true false true
    ∧ Enters .csysReplay false false true false true ∧ Enters .csysPantry false false true false true

/-- R126: KONST writes its immediate, with latency 2. -/
def Piece.KonstResult : Prop :=
  ∀ (f : CF) (s : State), Unhindered s f.g [] [s.regS f.base] → exec (.konst f) s = .next (s.putS f.base f.imm 2)

/-- R54, R126, R217 to R226: every command of the C slot, and KONST. -/
def Obligations.CommandsAndConstants : Prop :=
  Piece.CommandsEnter ∧ Piece.KonstResult

/-! ## The micro-operations of a PE (R188 to R203) -/

/-- R190, R197, R199: MOVE, JOIN, FORK, STEER and SELP send the token of a source to a destination; a poison operand of JOIN,
a poison predicate of STEER or of SELP makes the result a poison token with the first origin of the sources. -/
def Obligations.TokenMoves : Prop :=
  ∀ (f : TF) (s : State) (m : Micro), s.micro = some m →
    let a := m.src f.a.toNat
    let b := m.src f.b.toNat
    let p := m.src (f.p.toNat / 128)
    let sent (i : Instr) (d : Nat) (t : Token) : Prop := exec i s = .next { s with micro := some (m.put d t) }
    sent (.move f) f.d.toNat a
      ∧ exec (.fork f) s = .next { s with micro := some ((m.put f.d.toNat a).put f.b.toNat a) }
      ∧ (a.kind ≠ .poison → b.kind ≠ .poison → sent (.join f) f.d.toNat a)
      ∧ (a.kind = .poison → sent (.join f) f.d.toNat (poisonToken (a.payload.setWidth 32)))
      ∧ (a.kind ≠ .poison → b.kind = .poison → sent (.join f) f.d.toNat (poisonToken (b.payload.setWidth 32)))
      ∧ (b.kind ≠ .poison → sent (.steer f) (if b.payload.getLsbD 0 then f.d.toNat else f.p.toNat / 128) a)
      ∧ (b.kind = .poison → a.kind ≠ .poison → sent (.steer f) f.d.toNat (poisonToken (b.payload.setWidth 32)))
      ∧ (b.kind = .poison → a.kind = .poison → sent (.steer f) f.d.toNat (poisonToken (a.payload.setWidth 32)))
      ∧ (p.kind ≠ .poison → sent (.selp f) f.d.toNat (if p.payload.getLsbD 0 then a else b))
      ∧ (p.kind = .poison → a.kind = .poison → sent (.selp f) f.d.toNat (poisonToken (a.payload.setWidth 32)))
      ∧ (p.kind = .poison → a.kind ≠ .poison → b.kind = .poison →
          sent (.selp f) f.d.toNat (poisonToken (b.payload.setWidth 32)))
      ∧ (p.kind = .poison → a.kind ≠ .poison → b.kind ≠ .poison →
          sent (.selp f) f.d.toNat (poisonToken (p.payload.setWidth 32)))

/-- R197, R202, R203: the counting micro-operations. ACC sends its operand at every p-th firing and clears the accumulator if
it names it; CTR sends its count and advances it modulo p; CNT sends the number of tokens at every p-th, and passes poison
on. SRC passes its token through its shutter, SINK counts a tile and records poison, DROP records poison. -/
def Piece.CountingAndShutters : Prop :=
  ∀ (f : TF) (s : State) (m : Micro), s.micro = some m →
    let a := m.src f.a.toNat
    let n := m.count
    let p := f.p.toNat
    let becomes (i : Instr) (m' : Micro) : Prop := exec i s = .next { s with micro := some m' }
    (n + 1 < p → becomes (.acc f) (m.setCount (n + 1)))
      ∧ (p ≤ n + 1 → f.a ≠ 26 → becomes (.acc f) ((m.setCount 0).put f.d.toNat { a with side := 0 }))
      ∧ (p ≤ n + 1 → f.a = 26 → becomes (.acc f) (withAcc ((m.setCount 0).put f.d.toNat { a with side := 0 }) 0))
      ∧ becomes (.ctr f) ((m.put f.d.toNat { payload := BitVec.ofNat 128 n }).setCount ((n + 1) % p))
      ∧ (a.kind ≠ .poison → (n + 1) % p ≠ 0 → becomes (.cnt f) (m.setCount (n + 1)))
      ∧ (a.kind ≠ .poison → (n + 1) % p = 0 →
          becomes (.cnt f) ((m.setCount (n + 1)).put f.d.toNat { payload := BitVec.ofNat 128 ((n + 1) % 2 ^ 64) }))
      ∧ (a.kind = .poison → becomes (.cnt f) (m.put f.d.toNat a))
      ∧ becomes (.src f) (withShut (m.put f.d.toNat a) (p % 16))
      ∧ (a.kind ≠ .poison → becomes (.sink f) { m with tiles := m.tiles + 1 } ∧ becomes (.drop f) m)
      ∧ (a.kind = .poison →
          becomes (.sink f) { m with tiles := m.tiles + 1, poisons := m.poisons ++ [(a.payload.setWidth 32, m.descQueue (p % 64))] }
            ∧ becomes (.drop f) { m with poisons := m.poisons ++ [(a.payload.setWidth 32, 8)] })

/-- R197, R200: MERGE.ARR takes the head of a if it is there and leaves that of b; MERGE.ALT takes a and b in turn. TURN
takes a token into the half that fills, seals it at its 64th, and sends a token of the half that is sealed. -/
def Piece.MergesAndTurn : Prop :=
  ∀ (f : TF) (s : State) (m : Micro), s.micro = some m →
    let a := f.a.toNat
    let b := f.b.toNat
    let h := m.pe.halves
    (m.ready a = true → exec (.mergeArr f) s = .next { s with micro := some ((m.put f.d.toNat (m.src a)).keepHead b) })
      ∧ (m.ready a = false → exec (.mergeArr f) s = .next { s with micro := some ((m.put f.d.toNat (m.src b)).keepHead a) })
      ∧ (∃ m', exec (.mergeAlt f) s = .next { s with micro := some m' }
          ∧ m'.keep = m.keep ++ [if m.pe.altB then a else b]
          ∧ (f.d.toNat / 8 = 2 → m'.sends = m.sends ++ [(f.d.toNat, { m.src (if m.pe.altB then b else a) with tag := m.pe.tag })])
          ∧ ∀ n, n ∈ m'.pe.alts ↔ (if n = m.pe.ptr then m.pe.altB = false else n ∈ m.pe.alts))
      ∧ (m.closed.contains a = false → isChan b = false →
          (m.ready a = true → h.1.sealed = false → h.1.elems.length < 63 →
            ∃ m', exec (.turn f) s = .next { s with micro := some m' } ∧ m'.sends = m.sends
              ∧ m'.pe.halves.1.elems = h.1.elems ++ [m.src a] ∧ m'.pe.halves.1.sealed = false)
          ∧ (m.ready a = false → h.1.sealed = true → m.full.contains f.d.toNat = false → f.d.toNat / 8 = 2 →
            ∃ m', exec (.turn f) s = .next { s with micro := some m' }
              ∧ m'.sends = m.sends ++ [(f.d.toNat, { h.1.token h.1.emitted with tag := m.pe.tag })]
              ∧ m'.pe.halves = (if h.1.emitted = 63 then (h.2, {}) else ({ h.1 with emitted := h.1.emitted + 1 }, h.2)))
          ∧ (m.ready a = false → h.1.sealed = false →
            exec (.turn f) s = .next { s with micro := some (withHalves (m.keepHead a |>.keepHead b) h) }))

/-- R196 to R201: the micro-operations that count, merge and turn. -/
def Obligations.CountersMergesAndTurn : Prop :=
  Piece.CountingAndShutters ∧ Piece.MergesAndTurn

/-- R201, R202: an edge element with clean operands presents one access, with its address, its data, its size and its
descriptor; with a poison operand it presents none, its outputs are poison with the first origin, and the origin is recorded.
EDST.L takes its address and four data tokens in four firings and presents the line after the fourth. -/
def Obligations.EdgeAccesses : Prop :=
  ∀ (f : TF) (s : State) (m : Micro), s.micro = some m →
    let a := m.addrSrc f.a.toNat
    let b := m.src f.b.toNat
    let line := m.pe.line
    PresentsEdge (.edld f) s m f 0 a [] (if edgeBytes f.p = 64 then 4 else 1)
      ∧ PresentsEdge (.edatm f) s m f 2 a [b] 1
      ∧ (edgeBytes f.p ≠ 64 → PresentsEdge (.edst f) s m f 1 a [b] 1)
      ∧ (edgeBytes f.p = 64 →
          (line = [] → exec (.edst f) s = .next { s with micro := some (withLine m [a, b]) })
          ∧ (∀ x ds, line = x :: ds → ds.length < 3 →
              exec (.edst f) s = .next { s with micro := some (withLine (m.keepHead f.a.toNat) (x :: ds ++ [b])) })
          ∧ (∀ x ds, line = x :: ds → 3 ≤ ds.length →
              PresentsEdge (.edst f) s (withLine (m.keepHead f.a.toNat) []) f 1 x (ds ++ [b]) 1))

/-- R195, R202: the arithmetic micro-operations. A poison source makes the result poison and raises no flag; with clean
sources each lane is what the V instruction of the same opcode makes of the lanes, rounded by the MODE of the section; the
dot-product step adds the products of its groups to its addend. -/
def Obligations.ArithmeticMicroOps : Prop :=
  ∀ (f : AM) (s : State) (m : Micro), s.micro = some m →
    let t := elemOfCode f.ty.toNat
    let w := ElemType.bits t
    let F := fmtOf t
    let a := m.src f.a.toNat
    let b := m.src f.b.toNat
    let c := m.src f.c.toNat
    let x (j : Nat) : Nat := telem w a j
    let y (j : Nat) : Nat := telem w b j
    let z (j : Nat) : Nat := telem w c j
    let un := f.c.getLsbD 0
    let sx (j : Nat) : Int := sintOf w (x j)
    let sy (j : Nat) : Int := sintOf w (y j)
    let dot : Nat × FlagBits :=
      if t = .i8 then
        (dotStepInt ((List.range 16).map fun i => (sintOf 8 (telem 8 a i), sintOf 8 (telem 8 b i))) (c.payload.toNat % 2 ^ 32) m.sat, 0)
      else dotStepFloat (groupPairs t a b) (c.payload.toNat % 2 ^ 32) (m.rnd 0 0)
    (∀ (i : Instr) (u : Nat), (i = .peElementwiseA f ∧ u = 1) ∨ (i = .peElementwiseM f ∧ u = 0) →
      (a.kind = .poison → exec i s = .next { s with micro := some (m.put f.d.toNat (poisonToken (a.payload.setWidth 32))) })
      ∧ (a.kind ≠ .poison → amUsesB f.op.toNat = true → b.kind = .poison →
          exec i s = .next { s with micro := some (m.put f.d.toNat (poisonToken (b.payload.setWidth 32))) })
      ∧ (a.kind ≠ .poison → (amUsesB f.op.toNat = true → b.kind ≠ .poison) → amUsesC f.op.toNat = true → c.kind = .poison →
          exec i s = .next { s with micro := some (m.put f.d.toNat (poisonToken (c.payload.setWidth 32))) })
      ∧ (a.kind ≠ .poison → (amUsesB f.op.toNat = true → b.kind ≠ .poison) → (amUsesC f.op.toNat = true → c.kind ≠ .poison) →
          (f.op = 0x01 → SendsLanes i s m f w (fun j => F.add (F.decode (x j)) (F.decode (y j)) (m.rnd u j)))
          ∧ (f.op = 0x02 → SendsLanes i s m f w (fun j => F.add (F.decode (x j)) (F.decode (y j)).negate (m.rnd u j)))
          ∧ (f.op = 0x03 → SendsLanes i s m f w (fun j => F.mul (F.decode (x j)) (F.decode (y j)) (m.rnd u j)))
          ∧ (f.op = 0x04 → SendsLanes i s m f w (fun j => F.fma (F.decode (x j)) (F.decode (y j)) (F.decode (z j)) (m.rnd u j)))
          ∧ (f.op = 0x05 → SendsLanes i s m f w fun j =>
              F.fma (F.decode (x j)) (F.decode (y j)) (F.decode (z j)).negate (m.rnd u j))
          ∧ (f.op = 0x06 → SendsLanes i s m f w fun j =>
              F.fma (F.decode (x j)).negate (F.decode (y j)) (F.decode (z j)) (m.rnd u j))
          ∧ (f.op = 0x07 → SendsLanes i s m f w (fun j => F.minMax false (x j) (y j)))
          ∧ (f.op = 0x08 → SendsLanes i s m f w (fun j => F.minMax true (x j) (y j)))
          ∧ (f.op = 0x09 → SendsLanes i s m f w (fun j => (if (F.decode (x j)).isNan then F.qnan else x j % F.signBit, 0)))
          ∧ (f.op = 0x0A → SendsLanes i s m f w (fun j => (if (F.decode (x j)).isNan then F.qnan else fneg F (x j), 0)))
          ∧ (f.op = 0x0B → SendsLanes i s m f w (fun j => (fcpys F (x j) (y j), 0)))
          ∧ (f.op = 0x11 → SendsBits i s m f w (fun j => FVal.compare (fcondOf f.c.toNat) (F.decode (x j)) (F.decode (y j))))
          ∧ (f.op = 0x12 → SendsLanes i s m f w (fun j => (2 ^ classBit F (x j), 0)))
          ∧ (f.op = 0x20 → SendsLanes i s m f w fun j =>
              (if !m.sat then x j + y j else clampedTo w un (if un then (x j : Int) + y j else sx j + sy j), 0))
          ∧ (f.op = 0x21 → SendsLanes i s m f w fun j =>
              (if !m.sat then x j + 2 ^ w - y j else clampedTo w un (if un then (x j : Int) - y j else sx j - sy j), 0))
          ∧ (f.op = 0x22 → SendsLanes i s m f w (fun j => (x j * y j, 0)))
          ∧ (f.op = 0x23 → SendsLanes i s m f w fun j =>
              (if un then x j * y j / 2 ^ w else (sx j * sy j / 2 ^ w % 2 ^ w).toNat, 0))
          ∧ (f.op = 0x24 → SendsLanes i s m f w (fun j => (x j &&& y j, 0)))
          ∧ (f.op = 0x25 → SendsLanes i s m f w (fun j => (x j ||| y j, 0)))
          ∧ (f.op = 0x26 → SendsLanes i s m f w (fun j => (x j ^^^ y j, 0)))
          ∧ (f.op = 0x27 → SendsLanes i s m f w (fun j => (x j * 2 ^ (y j % w), 0)))
          ∧ (f.op = 0x28 → SendsLanes i s m f w (fun j => (x j / 2 ^ (y j % w), 0)))
          ∧ (f.op = 0x29 → SendsLanes i s m f w (fun j => ((sx j / 2 ^ (y j % w) % 2 ^ w).toNat, 0)))
          ∧ (f.op = 0x2A → SendsLanes i s m f w fun j =>
              (if (if un then decide (x j < y j) else decide (sx j < sy j)) then x j else y j, 0))
          ∧ (f.op = 0x2B → SendsLanes i s m f w fun j =>
              (if (if un then decide (x j < y j) else decide (sx j < sy j)) then y j else x j, 0))
          ∧ (f.op = 0x2C → SendsBits i s m f w (fun j => (intCond w (Cond.ofCode f.c.toNat) (x j) (y j), 0)))
          ∧ (f.op = 0x2D → SendsLanes i s m f w (fun j => ((List.range 64).countP (x j).testBit, 0)))
          ∧ (f.op = 0x47 → SendsConverted i s m f u)
          ∧ (f.op = 0x40 → SendsLanes i s m f w (fun j => (if c.payload.getLsbD j then x j else y j, 0)))
          ∧ (f.op = 0x41 → exec i s = .next { s with micro := some (m.put f.d.toNat { payload := a.payload }) })))
    ∧ ((a.kind = .poison →
          exec (.peDotStep f) s = .next { s with micro := some (m.put f.d.toNat (poisonToken (a.payload.setWidth 32))) })
      ∧ (a.kind ≠ .poison → b.kind = .poison →
          exec (.peDotStep f) s = .next { s with micro := some (m.put f.d.toNat (poisonToken (b.payload.setWidth 32))) })
      ∧ (a.kind ≠ .poison → b.kind ≠ .poison → c.kind = .poison →
          exec (.peDotStep f) s = .next { s with micro := some (m.put f.d.toNat (poisonToken (c.payload.setWidth 32))) })
      ∧ (a.kind ≠ .poison → b.kind ≠ .poison → c.kind ≠ .poison →
          exec (.peDotStep f) s
            = .next { s with micro := some (withFlags (m.put f.d.toNat { payload := BitVec.ofNat 128 dot.1 }) dot.2) }))

/-! ## Acts of the control core (R103 to R108, R140, R364 to R369, R420, R421, R442) -/

/-- R103 to R105: a write in flight lands in the register it was mapped to, after the earlier writes in flight of that
register; an interlocked value lands, after the writes in flight of its registers, and frees its destination. -/
def Piece.WritesLand : Prop :=
  ∀ (s : State) (k : CtxId) (i : Nat) (c : Ctx), s.ctx? k = some c →
    (∀ p, c.inflight[i]? = some p →
      let upTo := c.inflight.take (i + 1)
      let mine := upTo.filter fun q => q.reg == p.reg
      ∃ t, exec (.registerWriteLands k i) s = .next t ∧ SameMemory s t ∧ mine.getLast? = some p
        ∧ t.ctx? k = some { c with
            files := mine.foldl (fun f q => f.write q.reg q.val q.mask 0) c.files
            inflight := (upTo.filter fun q => q.reg != p.reg) ++ c.inflight.drop (i + 1) })
    ∧ (∀ l, c.landings[i]? = some l → l.earliest ≤ s.clk → (∀ p ∈ c.landings.take i, l.order = 0 ∨ p.order ≠ l.order) →
      let mine := c.inflight.filter fun p => (l.regs.map (·.1)).contains p.reg
      ∃ t, exec (.interlockedValueLands k i) s = .next t ∧ SameMemory s t
        ∧ t.ctx? k = some { c with
            files := l.regs.foldl (fun f r => f.write r.1 r.2.1 r.2.2 l.poison)
              (mine.foldl (fun f q => f.write q.reg q.val q.mask 0) c.files)
            inflight := c.inflight.filter fun p => !(l.regs.map (·.1)).contains p.reg
            claims := c.claims.filter fun q => q.id != l.id
            landings := c.landings.eraseIdx i })

/-- R108, R293: a bank answers one store of an undecided bundle: it is refused where a word that it touches is FULL or is
held for another store of the bundle; with the last answer the bundle is decided. -/
def Piece.BankReplies : Prop :=
  ∀ (s : State) (k : CtxId) (i : Nat) (c : Ctx) (u : Undecided) (a : CoreAcc),
    s.ctx? k = some c → c.undecided = some u → u.stores[i]? = some (a, none) →
    c.mayPresent { a with seq := c.seq, bundle := c.bundleNo } = true → s.heldElsewhere c a = false →
    let u' := { u with stores := u.stores.set i (a, some (s.onceReply c u a)) }
    (∀ w ∈ s.touched c a, s.isFull w.1 = true → s.onceReply c u a = false)
    ∧ ((∃ j, j ≠ i ∧ ∃ b, u.stores[j]? = some (b, none)) →
      ∃ t, exec (.bankReply k i) s = .next t ∧ SameMemory s t ∧ t.ctx? k = some { c with undecided := some u' })
    ∧ ((∀ j b, j ≠ i → u.stores[j]? ≠ some (b, none)) →
      exec (.bankReply k i) s = .next ((s.onCtx k fun c => { c with undecided := some u' }).decideBundle k c u'))

/-- R104, R105, R108, R293: register writes and interlocked values land; banks answer the stores of an undecided bundle. -/
def Obligations.WritesAndRepliesLand : Prop :=
  Piece.WritesLand ∧ Piece.BankReplies

/-- R365, R366, Table 14.1: a decided trap is entered once the writes in flight have landed; under the built-in handling,
PROMISE restarts when its command is complete, SKEW goes on when the servo is locked, and PAGE has its page served; the
partition manager resumes a halted context in task mode at an address. -/
def Piece.TrapEntryAndResume : Prop :=
  ∀ (s : State) (k : CtxId) (c : Ctx), s.ctx? k = some c →
    (∀ t, c.trap = some t → s.drained c = true → exec (.trapEntry k) s = .next (s.takeTrap k t))
    ∧ (∀ n, c.trap = none → c.builtin = some (.promise n) → (∀ o ∈ c.opens, o.seq ≠ n) →
        exec (.trapEntry k) s
          = .next (s.onCtx k fun c => Ctx.builtInReturn { c with sys := { c.sys with tpc := c.sys.rpc } } s.clk))
    ∧ (c.trap = none → c.builtin = some .skew → s.locked = true →
        exec (.trapEntry k) s = .next (s.onCtx k fun c => c.builtInReturn s.clk))
    ∧ (∀ a b, c.trap = none → c.builtin = some (.page a b) → exec (.trapEntry k) s = .next (s.servePage c a b))
    ∧ (∀ (cause : Cause) (a : Word), c.halted = some cause →
        ∃ t, exec (.haltedContextResume k a) s = .next t ∧ SameMemory s t
          ∧ t.ctx? k = some { c with
              halted := none, firing := false, resume := some (a &&& ~~~31#64), notBefore := s.clk
              sys := { c.sys with hm := false } })

/-- R366: the end of a halted task gives its launch the status FAULT with the cause, the tile and the context; nothing of it
is left to issue. -/
def Piece.HaltedTaskEnds : Prop :=
  ∀ (s : State) (k : CtxId) (c : Ctx) (cause : Cause), s.ctx? k = some c → c.halted = some cause →
    ∃ t d, exec (.haltedTaskEnd k) s = .next t ∧ t.ctx? k = some d ∧ d.halted = none ∧ d.firing = false ∧ d.opens = []
      ∧ d.runs = [] ∧ d.events = []
      ∧ d.task.endFault = some (BitVec.ofNat 32 (cause.num + k.tile * 2 ^ 8 + k.num * 2 ^ 15))

/-- R421: the budget of a firing is a trap of cause 17 in an actor's firing, at the handler once nothing is in flight, and a
halt in a handler's. -/
def Piece.BudgetIsTaken : Prop :=
  ∀ (s : State) (k : CtxId) (c : Ctx), s.ctx? k = some c → c.id = k → c.canIssue s.clk = true → c.sys.hm = false →
    c.budget ≤ c.budgetCount →
    ∃ t d, exec (.budget k) s = .next t ∧ t.ctx? k = some d ∧ SameMemory s t
      ∧ (c.hfiring = true → d.halted = some .budget)
      ∧ (c.hfiring = false → s.drained c = true → c.replay = false → c.sys.tbase ≠ 0 →
          d.pc = c.sys.tbase ∧ d.sys.hm = true ∧ d.sys.tcause = 17 ∧ d.sys.tval = BitVec.ofNat 64 c.budget ∧ d.sys.tpc = c.pc)
      ∧ (c.hfiring = false → s.drained c = false → d.trap = some ⟨.budget, false, BitVec.ofNat 64 c.budget, c.pc⟩)

/-- R365, R366, R421: entries of traps, resumes and ends of halted contexts, budgets. -/
def Obligations.TrapsHaltsAndBudgets : Prop :=
  Piece.TrapEntryAndResume ∧ Piece.HaltedTaskEnds ∧ Piece.BudgetIsTaken

/-- R140, R369, R383, R420: with no firing on the tile, the scheduler goes on with a firing that is to be resumed, starts a
handler firing for a context with an event, and else starts the firing of a ready actor, of two that neither of which has
waited too long the one that stands before the other; an event of a context without a handler has the built-in handling. -/
def Piece.FiringsStart : Prop :=
  ∀ (s : State) (tile : Nat) (c : Ctx),
    (∀ e rest, s.toHandle tile = some c → c.events = e :: rest → c.sys.tbase = 0 →
      exec (.handlerFiringStart tile) s
        = .next ((s.onCtx c.id fun c => { c with events := rest }).takeAside c e))
    ∧ (s.tileIdle tile = true →
      (s.toResume tile = some c → exec (.firingStart tile) s = .next (s.onCtx c.id Ctx.goOn))
      ∧ (s.toResume tile = none →
        (∀ n, s.toHandle tile = none → s.readyActors tile = [(c, n)] →
          exec (.firingStart tile) s = .next (s.enterFiring c n))
        ∧ (∀ n x, s.toHandle tile = none → s.readyActors tile = [(c, n), x] → mustPass [(c, n), x] = false →
          exec (.firingStart tile) s
            = .next (if firesBefore s.clk x (c, n) = true then s.enterFiring x.1 x.2 else s.enterFiring c n))
        ∧ (∀ e rest, s.toHandle tile = some c → c.events = e :: rest → c.sys.tbase ≠ 0 →
          exec (.handlerFiringStart tile) s = .next
            ((((s.onCtx c.id fun c => { c with events := rest }).onCtx c.id fun c =>
              { c with firing := true, hfiring := true, entry := .handler, budgetCount := 0, frame := { c.frame with act := false } }).trc
                10 3 c [.word c.id.num, .word c.sys.act.toNat, .long s.clk]).takeTrap c.id ⟨e.cause, true, e.tval, 0⟩))))

/-- R442: an enabled sampler takes the sample that is due and holds nothing. -/
def Piece.SamplesAreTaken : Prop :=
  ∀ (s : State) (tile : Nat), wordField (s.tile tile).sampcfg 63 1 = 1 →
    sampleTime tile (2 ^ wordField (s.tile tile).sampcfg 0 5) (s.tile tile).sampleNo ≤ s.clk →
    ∃ t, exec (.pcSample tile) s = .next t ∧ t.c = s.c ∧ t.others = s.others ∧ SameMemory s t
      ∧ (t.tile tile).sample = s.sampleNow tile ∧ (t.tile tile).sampleNo = (s.tile tile).sampleNo + 1

/-- R140, R369, R420, R442: firings start, and the sampler takes its samples. -/
def Obligations.FiringsAndSamples : Prop :=
  Piece.FiringsStart ∧ Piece.SamplesAreTaken

/-! ## Acts of the banks (R287 to R295, R299, R433) -/

/-- R22, R288, R293, R311: a store of the control core writes its bytes at its place and no other byte; its presence words
become FULL in a ONCE region, and in a SYNC region for a full-setting store; one to a bank of another partition, or to an
image under another partition's key (R438), writes nothing. -/
def Piece.StoresArePerformed : Prop :=
  ∀ (s : State) (k : CtxId) (i : Nat) (c : Ctx) (a : CoreAcc) (data mask : Line) (full : Bool) (key : Nat) (kind : RKind),
    s.acc? k i = some (c, a) → a.kind = .store data mask full → c.mayPresent a = true → s.notHeld c a = true →
    s.placeOf c a.addr = some (.stored key kind) →
    let denied := s.foreign c.sys.partid.toNat key || s.imageDenied c key
    (denied = true → ∃ t, exec (.bankAccessPerformed k i) s = .next t ∧ SameMemory s t ∧ t.full = s.full)
    ∧ (denied = false → s.Canonical →
      ∃ t, exec (.bankAccessPerformed k i) s = .next t ∧ t.Canonical
        ∧ (∀ j < a.size, t.byte (key + j) = if maskByte mask j then BitVec.ofNat 8 (elem 8 data j) else s.byte (key + j))
        ∧ SameOutside s t key a.size
        ∧ (kind = .plain ∨ (kind = .sync ∧ full = false) → t.full = s.full)
        ∧ (kind = .once ∨ (kind = .sync ∧ full = true) → NMap.wf false s.full = true → ∀ w ∈ s.touched c a, t.isFull w.1 = true))

/-- R293, R298: EMPTY makes the presence word of its place EMPTY in a SYNC or ONCE region of its partition, and leaves the
data. -/
def Piece.EmptyIsPerformed : Prop :=
  ∀ (s : State) (k : CtxId) (i : Nat) (c : Ctx) (a : CoreAcc) (key : Nat) (kind : RKind),
    s.acc? k i = some (c, a) → a.kind = .empty → c.mayPresent a = true → s.notHeld c a = true →
    s.placeOf c a.addr = some (.stored key kind) → NMap.wf false s.full = true →
    let denied := s.foreign c.sys.partid.toNat key || s.imageDenied c key
    ∃ t, exec (.bankAccessPerformed k i) s = .next t ∧ SameMemory s t
      ∧ ((kind = .sync ∨ kind = .once) ∧ denied = false → t.isFull key = false)
      ∧ (kind = .plain ∨ denied = true → t.full = s.full)

/-- R294, R295, R298: a read of the control core is served with its value, which waits to land; one of an EMPTY word of a
ONCE region has the words that are FULL and takes an entry of each bank's deferred-read store whose turn it is, and is an
acquiring read once it has them all; until then it waits at its port; a deferred read is served with the last of its words.
Memory is unchanged. -/
def Piece.ReadsArePerformed : Prop :=
  ∀ (s : State) (k : CtxId) (i : Nat) (c : Ctx) (a : CoreAcc),
    s.acc? k i = some (c, a) → s.notHeld c a = true → a.kind.hasDest = true → a.kind.isAtomic = false →
    let got := a.got ++ s.newWords c a
    let turn (b : Nat) : Bool := s.storeTurn b (portOf k.tile 7) (a.fullSince.getD s.clk) a.seq
    let every : Bool := (s.deferBanks c a).all turn
    let becomes (i : Instr) (b : CoreAcc) : Prop := ∃ t d, exec i s = .next t ∧ SameMemory s t ∧ t.ctx? k = some d
      ∧ d.accs = c.accs.map fun q => if q.seq = a.seq then b else q
    (c.mayPresent a = true → s.presenceOk c a = true → exec (.bankAccessPerformed k i) s = .next (s.serveRead k c a a))
    ∧ (a.deferred = true → s.presenceOk c { a with got := got } = true →
      exec (.deferredReadAnswered k i) s = .next (s.serveRead k c a { a with got := got }))
    ∧ (a.deferred = true → s.presenceOk c { a with got := got } = false →
      becomes (.deferredReadAnswered k i) { a with got := got })
    ∧ (a.deferred = false → s.wouldDefer c a = true → c.mayPresent a = true →
      becomes (.deferredReadEntry k i) { a with
        got := got, entries := a.entries ++ (s.deferBanks c a).filter turn, deferred := every, acquire := a.acquire || every,
        fullSince := if every then a.fullSince else some (a.fullSince.getD s.clk) })

/-- R22, R298, R299: an atomic writes the new value of its word and no other byte, and the old value lands; where the word
has an uncorrectable error or its bank belongs to another partition, memory is left alone and zero lands poisoned. -/
def Piece.AtomicsArePerformed : Prop :=
  ∀ (s : State) (k : CtxId) (i : Nat) (c : Ctx) (a : CoreAcc) (op : BankOp) (size : Nat) (d : Reg) (b x : Word)
      (key : Nat) (kind : RKind),
    s.acc? k i = some (c, a) → a.kind = .atomic op size d b x → c.mayPresent a = true → s.notHeld c a = true →
    s.placeOf c a.addr = some (.stored key kind) → (size = 8 ∨ size = 4) →
    let cause := s.readCause c a.addr size
    ∃ t, exec (.atomicPerformed k i) s = .next t
      ∧ (cause = 0 → s.Canonical → SameOutside s t key size
          ∧ t.valueAt key size = op.apply size (s.valueAt key size) b.toNat x.toNat % 2 ^ (8 * size)
          ∧ ∃ e, t.ctx? k = some e ∧ ∃ l ∈ e.landings, l.regs = [(d, wordVal (BitVec.ofNat 64 (s.valueAt key size)), allBits)])
      ∧ (cause ≠ 0 → SameMemory s t ∧ ∃ e, t.ctx? k = some e ∧ ∃ l ∈ e.landings, l.regs = [(d, 0, allBits)]
          ∧ l.poison = coreOrigin cause c.id.tile)

/-- R287 to R299, R311: stores, reads and atomics of the control core at the banks. -/
def Obligations.CoreAccessesArePerformed : Prop :=
  Piece.StoresArePerformed ∧ Piece.EmptyIsPerformed ∧ Piece.ReadsArePerformed ∧ Piece.AtomicsArePerformed

/-- R292: a bank changes owner: its shutter closes while the partitions concerned are off, and when it opens the bank is
zeroed, its words are EMPTY, and it has its new owner, or none. No other byte changes. -/
def Piece.BanksChangeOwner : Prop :=
  ∀ (s : State) (bank : Nat),
    (∀ (owner : Option Nat), let new := match owner with
        | some p => p + 1
        | none => 0
      (s.hub.remaps.any fun r => r.bank == bank) = false → s.ownerOff (NMap.get 0 s.bankOwner bank) = true →
        s.ownerOff new = true →
      ∃ t, exec (.bankRemap bank owner) s = .next t ∧ t.hub.remaps = s.hub.remaps ++ [⟨bank, new⟩] ∧ SameMemory s t)
    ∧ (∀ r, (s.hub.remaps.find? fun r => r.bank == bank) = some r → NMap.wf 0 s.bankOwner = true →
      ∃ t, exec (.bankShutterOpen bank) s = .next t ∧ NMap.get 0 t.bankOwner bank = r.owner
        ∧ (∀ r ∈ t.hub.remaps, r.bank ≠ bank)
        ∧ (∀ i < 2 ^ 19, t.byte (hallKey bank i) = 0 ∧ t.isFull (hallKey bank i) = false)
        ∧ SameOutside s t (hallKey bank 0) (2 ^ 19))

/-- R433, R434: the patrol scrubber corrects the codes of a line that can be corrected, each counted; it reports each that
cannot, with its unit and address, unless it was reported before; the bytes stay as they are. -/
def Piece.PatrolReports : Prop :=
  ∀ (s : State) (line : Nat), NMap.wf false s.soft = true →
    let words := codeKeys (line * 64) 64
    ∃ t new, exec (.patrolScrub line) s = .next t ∧ SameMemory s t ∧ t.bad = s.bad
      ∧ (∀ k ∈ words, NMap.get false t.soft (k / 8) = false)
      ∧ t.hub.faults = s.hub.faults ++ new
      ∧ (∀ k ∈ words, NMap.get false s.bad (k / 8) = true → NMap.get false s.reported (k / 8) = false →
          ⟨5, 0, 0, 0, [BitVec.ofNat 64 (unitOf k), BitVec.ofNat 64 (addressIn k)]⟩ ∈ new)
      ∧ ((∀ k ∈ words, NMap.get false s.bad (k / 8) = false) → new = [])

/-- R292, R433: banks change owner, and the patrol scrubber reports. -/
def Obligations.BanksAndPatrol : Prop :=
  Piece.BanksChangeOwner ∧ Piece.PatrolReports

/-! ## Streams, copies and posts (R219 to R221, R232, R234, R237 to R243, R250, R303) -/

/-- R219 to R222, R232: a command leaves its queue for its engine in order; a stream command whose block cannot be read
completes at once with the status of that read, and one whose block is good is among the accepted commands; a QUEUED command
all of whose bindings are free becomes ACTIVE; an ACTIVE slot that has not been served in this clk takes a service turn, 8 of
a tile in a clk. -/
def Obligations.StreamsAdvance : Prop :=
  ∀ (s : State) (tile i slot : Nat) (c : Ctx) (m : Command) (r : Run),
    let s1 := (s.onTile tile fun t => { t with queue := t.queue.eraseIdx i }).noteAccept c m
    ((s.tile tile).queue[i]? = some m → s.ctx? m.ctx = some c → c.live = true → s.engineRoom c m = true → s.readsReady c m = true →
      (∀ x ∈ (s.tile tile).queue.take i, ¬(x.ctx = m.ctx ∧ engineOf x.op = engineOf m.op)) →
      exec (.commandQueueAccept tile i) s = .next (s1.acceptCmd c m)
        ∧ (m.slot = some slot → (∀ x ∈ (s.tile tile).queue.take i, x.slot ≠ some slot) →
            exec (.streamAccept tile slot) s = .next (s1.acceptCmd c m))
        ∧ (∀ f, m.op = .saff f ∨ m.op = .saffw f ∨ m.op = .sind f ∨ m.op = .sindw f ∨ m.op = .srec f ∨ m.op = .sconst f
              ∨ m.op = .sfill f ∨ m.op = .smcast f ∨ m.op = .scirc f →
            (∀ st code, c.owns m.ctx m.seq = true → m.f.q.toNat < 8 → NMap.wf {} c.cqs = true → s1.readBlock c m = .bad st code →
              ∃ t, exec (.commandQueueAccept tile i) s = .next t ∧ Recorded s t c.id m.f.q.toNat st)
            ∧ (∀ b, let q : Run := { cmd := m, blk := b }
                s1.readBlock c m = .ok b → q.rsvd = false → s1.streamBadpb c q = false → s1.streamStep4 c q = none →
              ∃ t d x, exec (.commandQueueAccept tile i) s = .next t ∧ SameMemory s t ∧ t.ctx? m.ctx = some d
                ∧ d.runs = c.runs ++ [x] ∧ x.cmd = m ∧ x.blk = b ∧ (x.phase = .active ∨ x.phase = .queued))))
    ∧ (s.runAt tile slot = some (c, r) → s.ctx? c.id = some c → c.owns r.cmd.ctx r.cmd.seq = true →
        (r.phase = .queued → r.wload = false → (∀ f, r.cmd.op = .scirc f → s.inboundCircuits (blkField r.blk 48 1 % 128) < 8) →
          (r.isGather = true → s.batches tile < 4) →
          (∀ d ∈ s.producerDoors c r, s.doorTaken c r d true = false) → (∀ d ∈ r.consumerDoors c, s.doorTaken c r d false = false) →
          ∃ t d, exec (.doorBinding tile slot) s = .next t ∧ SameMemory s t ∧ t.ctx? c.id = some d
            ∧ d.runs = c.runs.map fun q => if q.cmd.seq = r.cmd.seq then { r with phase := .active, met := [] } else q)
        ∧ (r.phase ≠ .queued → c.live = true →
          (r.isGather = true → exec (.streamServiceTurn tile slot) s = .next ((s.gatherTurn c r).settleSlot c.id r.cmd.seq))
          ∧ (r.isGather = false → (s.turnedNow tile).length < 8 → slot ∉ s.turnedNow tile →
              exec (.streamServiceTurn tile slot) s = .next
                (((if r.wload then s.loadTurn c r else s.streamTurn c r).settleSlot c.id r.cmd.seq).countTurn tile slot r))))

/-- R243, R249, R250, R408: a stream that has nothing left to do completes with a record of its status; the first record that
waits for a queue with room is written at TAIL, and no other byte changes; a record that waits for a full ring is delayed,
and HEAD is read again. -/
def Obligations.StreamsComplete : Prop :=
  ∀ (s : State) (tile slot q : Nat) (k : CtxId) (c : Ctx) (r : Run), s.ctx? k = some c → NMap.wf {} c.cqs = true →
    let z := NMap.get {} c.cqs q
    (s.runAt tile slot = some (c, r) → c.owns k r.cmd.seq = true → r.cmd.ctx = k →
      ((∀ f, r.cmd.op ≠ .scoll f) → r.isGather = false → r.wload = false → s.streamDone r = true → r.cmd.f.q.toNat = q → q < 8 →
        ∃ t, exec (.streamComplete tile slot) s = .next t ∧ SameMemory s t ∧ Recorded s t k q r.outcome.1)
      ∧ (∀ f, r.cmd.op = .scoll f → s.collDone r = true →
          exec (.streamComplete tile slot) s = .next (s.completeColl c r)))
    ∧ (∀ w rest key kind, z.waiting = w :: rest → z.tail - z.head < 2 ^ z.log2 → s.Canonical → c.waits = [] →
        s.engPlace c (s.viewerNow c) [] true (z.base + BitVec.ofNat 64 (32 * (z.tail % 2 ^ z.log2))) = .stored key kind →
        (∀ x ∈ wordKeys key 32, s.heldWords.contains x = false ∧ (kind = .once → s.isFull x = false)) →
        ∃ t d, exec (.recordWrite k q) s = .next t ∧ t.ctx? k = some d
          ∧ NMap.get {} d.cqs q = { z with waiting := rest, tail := z.tail + 1 }
          ∧ (∀ j < 32, some (t.byte (key + j)) = (w.record.bytesOf k.num z.tail z.log2)[j]?) ∧ SameOutside s t key 32)
    ∧ (∀ w rest, z.waiting = w :: rest → 2 ^ z.log2 ≤ z.tail - z.head →
        ∃ t d, exec (.recordWrite k q) s = .next t ∧ SameMemory s t ∧ t.ctx? k = some d
          ∧ NMap.get {} d.cqs q = { z with waiting := { w with delayed := true } :: rest })
    ∧ (∀ key kind, z.waiting ≠ [] → 2 ^ z.log2 ≤ z.tail - z.head →
        s.placeOf c (z.entry + 12) = some (.stored key kind) →
        ∃ t d, exec (.ringHeadReread k q) s = .next t ∧ SameMemory s t ∧ t.ctx? k = some d
          ∧ NMap.get {} d.cqs q
            = { z with head := z.tail - (z.tail % 2 ^ 32 + 2 ^ 32 - s.valueAt key 4) % 2 ^ 32 })

/-- R232, R234, R303: an engine that runs fewer than four copies starts the oldest that waits for it; a running copy with all
of its bytes moved completes, and one that is free to go on moves the bytes of a line or of a packet, and completes if they
were the last; a circuit moves one entry; a batch whose elements are over writes its bitmap and its record. -/
def Obligations.CopiesProceed : Prop :=
  ∀ (s : State) (e i tile slot : Nat) (c : Ctx) (r : Run),
    (r ∈ s.copiesOf e → r.running = false → (∀ q ∈ s.copiesOf e, q.running = false → q = r ∨ r.stamp < q.stamp) →
      ((s.copiesOf e).filter fun q => q.running).length < 4 → s.ctx? r.cmd.ctx = some c → c.owns r.cmd.ctx r.cmd.seq = true →
      ∃ t d, exec (.copyAccept e) s = .next t ∧ SameMemory s t ∧ t.ctx? r.cmd.ctx = some d
        ∧ d.runs = c.runs.map fun q => if q.cmd.seq = r.cmd.seq then { r with running := true, phase := .active, met := [] } else q)
    ∧ (s.copyAt e i = some (c, r) →
        (s.copyDone r = true → exec (.copyTransfer e i) s = .next (s.completeCopy c r))
        ∧ (s.copyDone r = true → r.template = none → c.owns r.cmd.ctx r.cmd.seq = true → NMap.wf {} c.cqs = true →
            r.cmd.f.q.toNat < 8 →
            ∃ t, exec (.copyTransfer e i) s = .next t ∧ SameMemory s t ∧ Recorded s t r.cmd.ctx r.cmd.f.q.toNat r.copyOutcome.1)
        ∧ (s.copyDone r = false → r.running = true → (r.checks = true → c.chainBusy r = false) →
            c.laneClear (if r.template.isSome then 0 else r.f.lane) r.cmd.seq = true → (r.inOrder = true → r.diverted = []) →
            let x := r.startChain c
            let p := if x.remoteCopy then s.moveRemote c x else s.moveLine c x 64
            let q := p.2.present (s.viewerNow c)
            let s1 := p.1.putRun q
            let s2 := if q.remoteCopy && decide (q.copyEnd ≤ q.pos) && q.diverted.isEmpty then s1.sentDone c.id q.cmd.seq else s1
            exec (.copyTransfer e i) s = .next (if s2.copyDone q then s2.completeCopy c q else s2)))
    ∧ (s.runAt tile slot = some (c, r) →
        (∀ f, r.cmd.op = .scirc f → r.phase = .active →
          (r.f.door.toNat < 32 → exec (.circuitEntryMove tile slot) s = .next (s.turnRead c r))
          ∧ (32 ≤ r.f.door.toNat → exec (.circuitEntryMove tile slot) s = .next (s.turnWrite c r)))
        ∧ (r.isGather = true → r.batchOver = true → s.bitmapWaits c r = false → r.cmd.f.q.toNat < 8 →
            ∀ d, (s.writeBitmap c r).1.ctx? r.cmd.ctx = some d → d.owns r.cmd.ctx r.cmd.seq = true → NMap.wf {} d.cqs = true →
            ∃ t, exec (.gatherBatchEnd tile slot) s = .next t
              ∧ Recorded (s.writeBitmap c r).1 t r.cmd.ctx r.cmd.f.q.toNat
                  (if (s.writeBitmap c r).2.isSome then .fault else r.outcome.1)))

/-- From R238, R239 and R241. With the copy engine able to take a copy, an armed template fires for the token at the head of
its letterbox: the token is consumed, the template has fired once more, or is no longer armed when that was the last of COUNT
firings, and the context has one more copy, of the block's rows, whose source and destination are those of R241; one of more
than 2^32 - 1 bytes writes its record with SIZE instead (model, log 26). A post that is the first of its letterbox, with the
effects of its lane reached, is discarded with NOTASK where no context holds a task of the launch; to a letterbox of its own
tile that has room, or to one of another tile for which its engine holds a credit, which it spends, it appends its token and
writes a record with OK. A tile that lacks credits for a letterbox of another tile is granted the lesser of 8 and the free
entries not yet granted; it keeps them, and with credits of 32 letterboxes returns those of the one kept longest (model, log
26). -/
def Obligations.PostsAndTemplates : Prop :=
  ∀ (s : State) (k : CtxId) (c : Ctx), s.ctx? k = some c → c.id = k →
    (∀ (n : Nat) (x : Tmpl) (tok : Word) (rest : List Word),
      (c.tmpls.find? fun y => y.num == n) = some x → c.letterbox x.lb = tok :: rest → c.live = true →
      s.copyRoom (copyEngineOf k.tile) = true → NMap.wf [] c.letters = true →
      let i := (tok.setWidth 32 : BitVec 32).toInt
      ∃ t d, exec (.templateFiring k n) s = .next t ∧ SameMemory s t ∧ t.ctx? k = some d ∧ d.letterbox x.lb = rest
        ∧ (x.count = x.fired + 1 → ∀ y ∈ d.tmpls, y.num ≠ n)
        ∧ (x.count ≠ x.fired + 1 → { x with fired := x.fired + 1 } ∈ d.tmpls)
        ∧ (blkField x.blk 0 4 * blkField x.blk 4 4 < 2 ^ 32 → ∃ r, d.runs = c.runs ++ [r] ∧ r.blk = x.blk ∧ r.template = some n
            ∧ r.src = blkWord x.blk 16 + BitVec.ofInt 64 (i * blkSigned x.blk 40 4)
            ∧ r.dst = blkWord x.blk 24 + BitVec.ofInt 64 (i * blkSigned x.blk 44 4))
        ∧ (2 ^ 32 ≤ blkField x.blk 0 4 * blkField x.blk 4 4 → x.queue < 8 → NMap.wf {} c.cqs = true → sameTask c.seq (c.seq + 1) = true →
            Recorded s t k x.queue .size))
    ∧ (∀ (i : Nat) (p : Post), (s.tile k.tile).posts[i]? = some p → p.cmd.ctx = k → c.owns k p.cmd.seq = true → p.cmd.f.q.toNat < 8 →
        (∀ q ∈ (s.tile k.tile).posts.take i, ¬(q.cmd.ctx = k ∧ q.cmd.postLb = p.cmd.postLb ∧ q.cmd.postTile = p.cmd.postTile)) →
        c.lanePassed p.cmd.f.lane p.cmd.seq = true → c.laneClear p.cmd.f.lane p.cmd.seq = true → NMap.wf {} c.cqs = true →
        (s.postDest p.cmd = none →
          ∃ t, exec (.postPlaced k.tile i) s = .next t ∧ SameMemory s t ∧ Recorded s t k p.cmd.f.q.toNat .notask
            ∧ (t.tile k.tile).posts = (s.tile k.tile).posts.eraseIdx i)
        ∧ (∀ j d, s.postDest p.cmd = some j → s.taskOn c.task.launch p.cmd.postTile = some d → s.ctx? d.id = some d →
            NMap.wf [] d.letters = true →
            let had := (s.tile k.tile).creditsFor c.task.launch d.id p.cmd.postLb
            (p.cmd.postTile = k.tile → d.letterRoom p.cmd.postLb ≠ 0) → (p.cmd.postTile ≠ k.tile → had ≠ 0) →
            ∃ t e, exec (.postPlaced k.tile i) s = .next t ∧ SameMemory s t ∧ Recorded s t k p.cmd.f.q.toNat .ok
              ∧ (t.tile k.tile).posts = (s.tile k.tile).posts.eraseIdx i
              ∧ t.ctx? d.id = some e ∧ e.letterbox p.cmd.postLb = d.letterbox p.cmd.postLb ++ [p.cmd.base]
              ∧ (p.cmd.postTile ≠ k.tile →
                  (t.tile k.tile).creditsFor c.task.launch d.id p.cmd.postLb = had - 1)))
    ∧ (∀ (src dst lb want : Nat) (w d : Ctx), s.creditWant src dst lb = some (w, d, want) → src ≠ dst →
        (s.tile src).creditsFor w.task.launch d.id lb < want → d.letterRoom lb ≠ 0 →
        let n := Nat.min 8 (d.letterRoom lb)
        let l := w.task.launch
        let held := (s.tile src).credits
        (held.any (fun x => x.isFor l d.id lb) = true →
          exec (.creditGrant src dst lb) s = .next ((s.onCtx d.id (grantLetters lb n)).onTile src (gainCredits l d.id lb n)))
        ∧ (held.any (fun x => x.isFor l d.id lb) = false → held.length < 32 →
          exec (.creditGrant src dst lb) s = .next ((s.onCtx d.id (grantLetters lb n)).onTile src fun t =>
            { t with credits := t.credits ++ [⟨d.id, lb, n, w.id, l⟩] }))
        ∧ (∀ x rest, held.any (fun x => x.isFor l d.id lb) = false → held = x :: rest → 32 ≤ held.length →
          exec (.creditGrant src dst lb) s = .next (((s.onCtx d.id (grantLetters lb n)).returnCredits [x]).onTile src fun t =>
            { t with credits := t.credits.drop 1 ++ [⟨d.id, lb, n, w.id, l⟩] })))

/-! ## Order, sections and the systolic engine (R140 to R147, R179 to R208, R268 to R279, R319 to R324) -/

/-- R319 to R325: SORD puts an ordering token into the door it names; the first closed token whose accesses have reached
their scope opens; a marker leaves its queue when nothing is before it; a satisfied SBAR is over; the sequencer arms the
first node that can be armed, an actor that depends on no node without any wait. -/
def Obligations.OrderingProceeds : Prop :=
  ∀ (s : State) (k : CtxId) (c : Ctx), s.ctx? k = some c → c.id = k →
    (∀ i m f, (s.tile k.tile).queue[i]? = some m → m.ctx = k → m.op = .sord f →
      (∀ x ∈ (s.tile k.tile).queue.take i, ¬(x.ctx = k ∧ orderUnit x.op = true)) → c.doorRoom f.door.toNat = true →
      NMap.wf [] c.doorsIn = true → NMap.wf [] c.doorsOut = true →
      ∃ t d, exec (.sordAccept k.tile i) s = .next t ∧ SameMemory s t ∧ t.ctx? k = some d
        ∧ ∃ edges, d.door f.door.toNat = c.door f.door.toNat ++ [.token f.lane m.seq (f.lane == 0) edges])
    ∧ (∀ n l q, c.openToken (NMap.get [] c.doorsOut n) = some (l, q) → NMap.wf [] c.doorsOut = true →
      ∃ t d, exec (.orderTokenOpen k n) s = .next t ∧ SameMemory s t ∧ t.ctx? k = some d ∧ NMap.get [] d.doorsOut n = q)
    ∧ (∀ i m, c.markers[i]? = some m → s.entriesLeft c m = true → c.lanePassed m.lane m.seq = true →
      ∃ t, exec (.markerReachesHead k i) s = .next t ∧ SameMemory s t
        ∧ t.ctx? k = some { c with markers := c.markers.eraseIdx i })
    ∧ (∀ i b, c.sbars[i]? = some b → c.owns k b.seq = true → (∀ n ∈ b.noted, s.ownTileOpen c n = false) →
      ∃ t, exec (.sbarSatisfied k i) s = .next t ∧ SameMemory s t
        ∧ t.ctx? k = some { c with sbars := c.sbars.eraseIdx i, opens := c.opens.filter fun o => o.seq != b.seq })
    ∧ (c.live = true → c.task.stage = .running → c.task.draining = none →
      let first := (c.task.nodes.find? fun n => !n.armed).toList
      (∀ s1, (c.task.nodes.filter (·.waiting) ++ first).findSome? (s.sequence c) = some s1 →
        exec (.graphNodeArm k) s = .next s1.pumpAll)
      ∧ (∀ n, c.task.nodes.filter (·.waiting) = [] → first = [n] → n.kind = 0 → n.count ≠ 0 → c.depNodes n = [] →
        ∃ s1 d m, s.sequence c n = some s1 ∧ SameMemory s s1 ∧ s1.ctx? k = some d
          ∧ d.task.nodes.find? (fun x => x.num == n.num) = some m ∧ m.armed = true))

/-- R179, R184, R186, R189, R203 to R205, R207, R279: a section under SCFG goes on; a section that is being moved stands at
its new origin once it is at rest, with its shutters as they were; a PE fetches its record, 8 clk and one for each entry of
it, or before its switch the next one, and fires MOVE from one local register to another in one clk; a PE whose links are
closed sends its switch tokens, and switches when all are sent; an ending section that is quiescent ends, and a STOPPING one
is STOPPED, with the record of its SSTOP. -/
def Obligations.SectionsProceed : Prop :=
  ∀ (s : State) (k : CtxId) (h row col : Nat) (c : Ctx) (x : Section), s.sec? k h = some (c, x) →
    (∀ r, x.loading = some r → exec (.scfgComplete k h) s = .next (s.scfgStep c x r).pumpAll)
    ∧ (∀ m, x.moving = some m → s.atRest x = true → s.mayTake k.tile m.org = true →
        ∃ t, exec (.pageMove k h m.org.1 m.org.2) s = .next t ∧ SameMemory s t
          ∧ (t.sec? k h).map (·.2) = some { x with org := some m.org, opened := m.was, moving := none })
    ∧ (∀ p g r, x.pe? row col = some p → x.recordOf p = some (g, r) →
        (p.holds = false → x.toFetch p r = some (p.tag, r.entries.length))
        ∧ (∀ t n, x.toFetch p r = some (t, n) →
          (p.fetching = none → ∃ u, exec (.loopBufferFill k h row col) s = .next u ∧ SameMemory s u
            ∧ (u.sec? k h).map (·.2) = some (x.setPe { p with fetching := some (t, s.clk + 8 + n) }))
          ∧ (∀ at_, p.fetching = some (t, at_) → at_ ≤ s.clk →
            exec (.loopBufferFill k h row col) s = .next (s.onSec k h fun x => x.setPe (p.fill t n))))
        ∧ (∀ f, (r.entries[p.ptr]?).bind entryOps = some [.move f] → f.a.toNat < 16 → f.d.toNat < 16 → c.live = true →
            p.freeAt ≤ s.clk → p.holds = true → NMap.get 0 x.dealt p.dealKey % r.k = p.copy →
            x.blocked r = false → (x.wants = 0 ∨ x.powered = true) → x.still = false → x.sourcesOpen s.clk = true →
            ∃ t y q, exec (.peFiring k h row col) s = .next t ∧ SameMemory s t ∧ (t.sec? k h).map (·.2) = some y
              ∧ y.pe? row col = some q ∧ q.ptr = (p.ptr + 1) % r.entries.length ∧ q.freeAt = s.clk + 1
              ∧ q.locals = NMap.set {} p.locals f.d.toNat { NMap.get {} p.locals f.a.toNat with tag := p.tag })
        ∧ (x.old.isSome = true → p.tag ≠ x.tag → p.copy = 0 →
            let copies := x.pes.filter fun q => q.tag == p.tag && q.recNo == p.recNo
            let idle := (∀ q ∈ copies, q.freeAt ≤ s.clk ∧ ∀ t ∈ q.turns, t.2.1.elems = [] ∧ t.2.2.elems = [])
              ∧ ∀ e ∈ x.edges, ∀ q ∈ copies, ¬(e.row = q.row ∧ e.col = q.col)
            let closing := idle ∧ c.allClosed x g r s.clk = true
            let sent (all : Bool) : State := (r.outs all).foldl (fun s d => s.sendSwitch k h row col d) s
            (closing → ∀ d y q, (sent true).sec? k h = some (d, y) → y.pe? row col = some q →
              ((∀ d ∈ r.outs true, q.marked.contains d = true) →
                exec (.peSwitch k h row col) s = .next ((sent true).switchPe k h q g r).pumpAll)
              ∧ ((∃ d ∈ r.outs true, q.marked.contains d = false) → exec (.peSwitch k h row col) s = .next (sent true)))
            ∧ (¬ closing → exec (.peSwitch k h row col) s = .next (sent false))))
    ∧ (∀ d, x.st = .ending → x.sys = none → s.quiet k x true = true → c.flushSlots x s.clk = some d →
        exec (.sectionQuiescent k h) s = .next ((s.onCtx k fun _ => d).endSection k h).pumpAll)
    ∧ (x.st = .stopping → (x.sys = none → s.quiet k x false = true) → (x.sys ≠ none → x.systolicQuiet c s.clk = true) →
        let s1 := s.onSec k h fun x => { x with st := .stopped }
        ((∀ r ∈ c.waits, ∀ f, r.cmd.op ≠ .sstop f) → exec (.sectionStopped k h) s = .next s1.pumpAll)
        ∧ (∀ r rest f, c.waits = r :: rest → r.cmd.op = .sstop f → r.lHandle = h →
            exec (.sectionStopped k h) s = .next (s1.sstopOver r h .stopped).pumpAll))

/-- R364, R371, R374, R377, R378: an edge access that memory has answered gives its tokens to its element, in the order of
the element's accesses; one that meets a fault freezes its element, with its fault record and its event, and halts its
context at its third failed replay; a region that makes progress, has no full buffer or is frozen is not silent; a silent one
is extended where its tile may extend it, by itself or by a request to an application core, and else, or when that core
declines, raises DEADLOCK; extensions whose buffers fit again are released in every state of the section. -/
def Obligations.EdgeAccessesAndSilence : Prop :=
  ∀ (s : State) (k : CtxId) (h i : Nat) (c : Ctx) (x : Section), s.sec? k h = some (c, x) → c.id = k →
    (∀ e, x.edges[i]? = some e → x.edgeBehind i e = false → (e.frozen = false ∨ e.replay.isSome = true) →
      let gives (t : State) : State := if x.tokensBehind i e then t else t.deliverEdge k h i 6
      (e.out.isSome = true → exec (.edgeElementReply k h i) s = .next (gives s))
      ∧ (∀ s1 out, e.out = none → e.replay = none → s.edgeTry c x e = .done s1 out →
          let f := { e with out := some out, frozen := false, fails := 0, walk := none, defer := none, seen := none,
                            heldFor := none, unreported := false }
          exec (.edgeElementReply k h i) s
            = .next (gives (s1.onSec k h fun x => { x.setEdge i f with lastEvent := Nat.max x.lastEvent s1.clk })))
      ∧ (∀ code, e.out = none → s.edgeTry c x e = .fault code → x.queue < 8 → NMap.wf {} c.cqs = true →
          (e.frozen = false → e.replay = none → c.events.length < 16 →
            ∃ t d y f, exec (.edgeFaultFreeze k h i) s = .next t ∧ SameMemory s t ∧ Recorded s t k x.queue .fault
              ∧ t.sec? k h = some (d, y) ∧ y.edges[i]? = some f ∧ f.frozen = true ∧ f.code = code ∧ f.fails = 0
              ∧ d.events = c.events ++ [edgeEvent code (x.edgeAddr e)])
          ∧ (e.frozen = true → e.replay = some none → 2 ≤ e.fails →
            ∃ t d, exec (.edgeFaultFreeze k h i) s = .next t ∧ SameMemory s t ∧ Recorded s t k x.queue .fault
              ∧ t.ctx? k = some d ∧ d.halted = some .replayx)))
    ∧ (let y := x.shrink c (s.spillUsed k.tile)
       let s0 := if y.extensions < x.extensions then (s.trc 8 3 c [.word h, .word 0, .word y.extensions]).onSec k h fun _ => y else s
       (x.st ≠ .running → exec (.regionSilent k h) s = .next s0)
       ∧ (x.st = .running → c.live = true →
       let mark := s0.regionMark c y
       let n := y.silence + (s.clk - y.counted)
       let becomes (P : Ctx → Section → Prop) : Prop :=
         ∃ t d z, exec (.regionSilent k h) s = .next t ∧ SameMemory s t ∧ t.sec? k h = some (d, z) ∧ P d z
       let paused := y.edges.any (·.frozen) || (y.wants != 0 && y.grant == 0)
       (paused = true → becomes fun _ z => z.silence = y.silence ∧ z.counted = s.clk)
       ∧ (paused = false → mark ≠ y.mark →
           becomes fun _ z => z.silence = 0 ∧ z.deadlocked = false ∧ z.counted = s.clk ∧ z.mark = mark)
       ∧ (paused = false → mark = y.mark → s0.buffersInOrder c y = [] → becomes fun _ z => z.silence = 0 ∧ z.counted = s.clk)
       ∧ (∀ b rest, paused = false → mark = y.mark → s0.buffersInOrder c y = b :: rest →
           (n < c.quiet → becomes fun _ z => z.silence = n ∧ z.counted = s.clk)
           ∧ (c.quiet ≤ n → y.deadlocked = false → y.spillReq = none →
               (y.declined = true ∨ s0.mayExtend c y = false → c.events.length < 16 → becomes fun d z => z.deadlocked = true
                 ∧ d.events = c.events ++ [⟨.deadlock, BitVec.ofNat 64 (x.handle + 2 ^ 8 * y.extensions)⟩])
               ∧ (y.declined = false → s0.mayExtend c y = true → s.splitBit c.part 2 = true →
                 becomes fun _ z => z.spillReq = some s.hub.nextReq ∧ z.silence = n)
               ∧ (y.declined = false → s0.mayExtend c y = true → s.splitBit c.part 2 = false → becomes fun _ z => z.silence = 0 ∧ match b with
                 | .door d => z.extDoors = y.extDoors ++ [d]
                 | .spill => z.extSpill = y.extSpill + 1
                 | .chan row col dir => (z.chan row col dir).ext = (y.chan row col dir).ext + 1)))))

/-- R257, R268, R269, R273, R276, R279: a weight load that has read its tile ends; an operation that has a row of every
input, room and current admits it, and the last row closes it and returns its grant; one that lacks something says what; the
next output entry is pushed while its door has room, but not while STOPPED; an operation with all its entries pushed is over
16 clk after the last of them, and after SRUN.BACK its section ends. -/
def Obligations.SystolicProceeds : Prop :=
  ∀ (s : State) (k : CtxId) (h tile slot : Nat) (c : Ctx) (x : Section) (y : Systolic) (m : Smm),
    (∀ r, s.runAt tile slot = some (c, r) → s.loadDone c r = true →
      exec (.weightLoadComplete tile slot) s = .next (s.endLoad c r).pumpAll)
    ∧ (s.sec? k h = some (c, x) → x.sys = some y → y.smm = some m →
        (x.st = .running → x.opened = true → c.live = true → (m.endless = true ∨ m.next < m.rows) →
          (∀ r ∈ m.out, r.clk ≠ s.clk) →
          (∀ why, x.admitStall c m = some why →
            exec (.rowAdmission k h) s = .next (s.trc 3 4 c [.word h, .word why]))
          ∧ (∀ ae c1 ce c2, x.admitStall c m = none → c.popDoors (x.smmDoors m).1 = some (ae, c1) →
              c1.popDoors (x.smmDoors m).2 = some (ce, c2) →
              let last := m.endless = false ∧ m.rows = m.next + 1
              ∃ t d z w n, exec (.rowAdmission k h) s = .next t ∧ SameMemory s t ∧ t.sec? k h = some (d, z)
                ∧ d.doorsIn = c2.doorsIn ∧ d.doorsOut = c2.doorsOut ∧ d.files = c.files ∧ d.pc = c.pc
                ∧ z.sys = some w ∧ w.rowCtr = (y.rowCtr + 1) % 2 ^ 32
                ∧ w.smm = some n ∧ n.next = m.next + 1 ∧ n.out = m.out ++ [(smmRow x y m ae ce s.clk).1]
                ∧ n.flags = m.flags ||| (smmRow x y m ae ce s.clk).2.1
                ∧ (last → z.st = .ending ∧ z.opened = false ∧ z.grant = 0)
                ∧ (¬ last → z.st = .running ∧ z.opened = true ∧ z.grant = x.grant)))
        ∧ (∀ j e, x.nextOut m j s.clk = some e →
            (x.st = .stopped → exec (.outputEntryPush k h j) s = .next s)
            ∧ (x.st ≠ .stopped → c.live = true → c.doorRoom (32 + blkField m.blk 1 1 + j) = true →
                NMap.wf [] c.doorsIn = true → NMap.wf [] c.doorsOut = true →
                ∃ t d z w n, exec (.outputEntryPush k h j) s = .next t ∧ SameMemory s t ∧ t.sec? k h = some (d, z)
                  ∧ d.door (32 + blkField m.blk 1 1 + j) = c.door (32 + blkField m.blk 1 1 + j) ++ [.entry e s.clk]
                  ∧ z.sys = some w ∧ w.smm = some n ∧ n.bytes = m.bytes + 64 ∧ n.lastPush = s.clk
                  ∧ n.next = m.next ∧ z.st = x.st))
        ∧ (x.st = .ending → x.smmPushed m = true → m.lastPush + 16 ≤ s.clk →
            (x.taken = false → exec (.smmRetire k h) s = .next ((s.retireSmm c x m).onSec k h fun x =>
              { x with st := .ready, count := none, taken := false }).pumpAll)
            ∧ (x.taken = true → exec (.smmRetire k h) s = .next ((s.retireSmm c x m).endSection k h).pumpAll)))

/-- R23, R184: the first request in line gets what is free of what it wants, and waits for the rest of it; one whose section
is gone is dropped; grants above a lowered LIMIT fall in proportion, to 1 at least. -/
def Obligations.CurrentIsGranted : Prop :=
  ∀ (s : State),
    (∀ r rest, s.hub.grantReqs = r :: rest →
      (s.sec? r.k r.h = none → exec .currentGrant s = .next { s with hub := { s.hub with grantReqs := rest } })
      ∧ (∀ c x, s.sec? r.k r.h = some (c, x) →
          let g := Nat.min r.want (s.hub.limit - s.grantsHeld)
          g ≠ 0 → ∃ t, exec .currentGrant s = .next t ∧ SameMemory s t
            ∧ (t.sec? r.k r.h).map (·.2) = some { x with grant := x.grant + g }
            ∧ (g = r.want → t.hub.grantReqs = rest)
            ∧ (g ≠ r.want → t.hub.grantReqs = { r with want := r.want - g } :: rest)))
    ∧ (s.hub.lowerDue = true →
        ∃ t, exec .grantLowering s = .next t ∧ SameMemory s t ∧ t.hub.lowerDue = false
          ∧ ∀ k h c x, s.sec? k h = some (c, x) →
              (x.grant = 0 → (t.sec? k h).map (·.2) = some x)
              ∧ (x.grant ≠ 0 → (t.sec? k h).map (·.2) = some { x with
                  grant := Nat.max 1 (x.grant * (s.hub.limit - s.baseGrants) / (s.grantsHeld - s.baseGrants)) }))

/-! ## Launches and tasks (R26 to R38, R380 to R384, R412 to R420) -/

/-- R26, R29, R37, R38, R412 to R419: intake takes the entry at HEAD of a queue, and reports one that names no descriptor in
a Hall; a pass considers the launches of a partition by priority; a waiting launch rises by one level in 2^20 clk; a finished
launch writes its DSTATE, then, behind the records before it, its own once its ring has room, and leaves; a placed task takes
its image and its lanes, which every task of its wave reads alike; it starts with its gang, with its indices in x24 to x29
and every other register zero; the end of a task counts, and the end of the last task of a wave ends the wave. -/
def Obligations.LaunchesAreDispatched : Prop :=
  ∀ (s : State),
    (∀ (p q ea at_ head : Nat), wordField (NMap.get 0 s.hub.lq (p * 8 + q)) 63 1 = 1 → s.lqHead p q = some (ea, at_, head) →
      let r := s.readLqEntry p q ea
      let u := ((r.1.noteDisp p (BitVec.ofNat 64 (2 ^ 60 + ea)) 8).lqReadOver p q).takeLqEntry p ea at_ head
      (r.2 = .wait → exec (.launchIntake p q) s = .next r.1)
      ∧ (r.1.hallBusy p at_ 8 = false →
        (∀ a, r.2 = .poison a → exec (.launchIntake p q) s = .next (u.hubFault 3 p 0 0 [BitVec.ofNat 64 q, 0]))
        ∧ (∀ v view, r.2 = .value v view →
          let e : Word := BitVec.ofNat 64 v
          (s.hallWord p e 256 = false →
            exec (.launchIntake p q) s = .next (u.hubFault 3 p 0 0 [BitVec.ofNat 64 q, e]))
          ∧ (s.hallWord p e 256 = true → u.hallBusy p (wordField e 0 28 + 16) 8 = false →
            (u.takeLaunch p q e = none → exec (.launchIntake p q) s = .next r.1)
            ∧ (∀ w l, u.takeLaunch p q e = some w → w.hub.launches.getLast? = some l →
                exec (.launchIntake p q) s = .next ((w.noteIntake p e l).wantPass p))))))
    ∧ (∀ p, exec (.dispatcherPass p) s = .next
        (let t := ({ s with hub := { s.hub with lastPass := NMap.set 0 s.hub.lastPass p s.clk } } : State).failPreds p
         t.passOver none ((t.hub.launches.filter fun l => l.part == p && t.eligible l).mergeSort passBefore)))
    ∧ (∀ n l, s.launch? n = some l → l.stage = .queued → l.eff < 7 → l.waitFrom + 2 ^ 20 * (l.eff - l.prio + 1) ≤ s.clk →
        ∃ t, exec (.effectivePriorityRaise n) s = .next t ∧ SameMemory s t ∧ t.launch? n = some { l with eff := l.eff + 1 })
    ∧ (∀ n l, s.launch? n = some l →
        (l.stage = .finishing → s.hallBusy l.part (wordField l.addr 0 28 + 16) 8 = false →
          ∃ x, (s.completeLaunch l).launch? n = some x ∧ x.stage = .ended ∧ x.endTime = s.gtime ∧ x.status = l.status
            ∧ exec (.launchEnd n) s = .next ((s.completeLaunch l).recordLaunch x))
        ∧ (l.stage = .ended → s.recordsAhead l = false → (s.launchRing l).1 ≠ .wait →
          ((s.launchRing l).2 = none → ∃ t, exec (.launchEnd n) s = .next t ∧ t.launch? n = none ∧ SameMemory s t)
          ∧ (∀ base log2 head, (s.launchRing l).2 = some (base, log2, head) →
            let ring := l.part * 2 ^ 28 + wordField l.lcq 0 28
            let tail := NMap.get 0 s.hub.lcqTails ring
            let place := base + 32 * (tail % 2 ^ log2)
            (2 ^ log2 ≤ (tail % 2 ^ 32 + 2 ^ 32 - head) % 2 ^ 32 →
              ∃ t, exec (.launchEnd n) s = .next t ∧ SameMemory s t ∧ t.launch? n = some l)
            ∧ ((tail % 2 ^ 32 + 2 ^ 32 - head) % 2 ^ 32 < 2 ^ log2 → NMap.wf 0 s.hub.lcqTails = true →
                s.hallBusy l.part place 32 = false → s.hallFull l.part place 32 = false →
              ∃ t, exec (.launchEnd n) s = .next t ∧ t.launch? n = none ∧ NMap.get 0 t.hub.lcqTails ring = tail + 1
                ∧ SameMemory (s.hallStore l.part place (l.record.bytesOf 0 tail log2)) t))))
    ∧ (∀ (k : CtxId) (c : Ctx) (l : Launch), s.ctx? k = some c → c.id = k → s.launch? c.task.launch = some l →
        (c.task.stage = .placed →
          (s.taskImage l k.tile = .wait → exec (.taskPlacement k) s = .next s)
          ∧ (∀ st f, s.taskImage l k.tile = .bad st f →
            exec (.taskPlacement k) s = .next ((s.noteImage l).refuseGang l st f))
          ∧ (∀ image lanes, s.taskImage l k.tile = .ok image lanes →
            let s1 := ((s.noteImage l).onLaunch l.id fun x => { x with kept := some (image, lanes) }).writeImage
              (tileKey k.tile c.task.base) ((l.regs.headD (0, 0)).2 != 0) image
            (laneList lanes (l.fld 10 1) laneTable = none → exec (.taskPlacement k) s = .next (s1.refuseGang l .rsvd 0))
            ∧ (∀ table, laneList lanes (l.fld 10 1) laneTable = some table →
              (s1.setupTask c l c.task.base image table = none → exec (.taskPlacement k) s = .next (s1.refuseGang l .rsvd 0))
              ∧ (∀ s2, s1.setupTask c l c.task.base image table = some s2 → exec (.taskPlacement k) s = .next s2))))
        ∧ (c.task.stage = .ready →
            (∀ q ∈ l.gang, ∀ d, s.ctx? q = some d → d.task.stage = .ready ∨ d.task.stage = .running ∨ d.task.stage = .ended) →
            ∃ t d, exec (.taskStart k) s = .next t ∧ SameMemory s t ∧ t.ctx? k = some d ∧ d.task.stage = .running
              ∧ d.pc = c.pc ∧ d.sys = c.sys
              ∧ (∀ i < 6, NMap.get 0 d.files.x (24 + i) = BitVec.ofNat 64 (c.task.index.getD i 0))
              ∧ (∀ n, n < 24 ∨ 30 ≤ n → NMap.get 0 d.files.x n = 0)
              ∧ d.files.s = [] ∧ d.files.v = [] ∧ d.files.m = [])
        ∧ (c.live = true → c.task.stage = .running → c.task.draining = none → s.taskDone c = true →
            let id := c.task.launch
            let s1 := ((s.releaseCtx k).putCtx c.afterEnd).wantPass c.part
            let s2 := match c.task.endFault with
              | some f => s1.onLaunch id fun l => if l.status = Status.ok then { l with status := .fault, fault := f } else l
              | none => s1
            let s3 : State := { s2.onLaunch id fun l => { l with tasksEnded := l.tasksEnded + 1, ends := l.ends ++ [(k, s2.stamp)] } with
              stamp := s2.stamp + 1 }
            let gang := s3.ctxs.filter fun d => d.live && d.task.launch == id
            ∀ m, s3.launch? id = some m →
              ((∃ d ∈ gang, d.task.stage ≠ .ended) ∨ s3.savedOf id ≠ [] → exec (.taskEnd k) s = .next s3)
              ∧ ((∀ d ∈ gang, d.task.stage = .ended) → s3.savedOf id = [] →
                  exec (.taskEnd k) s = .next (((gang.map (·.id)).foldl (fun s k => s.releaseCtx k) s3).waveOver m))))

/-- R180, R377, R380 to R383, R430: soft pre-emption takes effect at the end of the wave, or at once between two waves; hard
pre-emption closes the shutters of a context and lets it drain; a drained context is saved in the lowest free image, or, in
host-assisted mode, asks for one; a saved context whose place is there again is restored; an application core's answers to
SAVE, DISPATCH, SPILL and PAGEALLOC requests take effect, and a choice that may not be is refused. -/
def Obligations.PreemptionAndAnswers : Prop :=
  ∀ (s : State),
    (∀ n l, s.launch? n = some l →
      (l.stage = .running →
        ∃ t, exec (.softPreemption n) s = .next t ∧ SameMemory s t ∧ t.launch? n = some { l with soft := true })
      ∧ (l.stage = .queued → l.wave ≠ 0 → l.preempted = false →
        exec (.softPreemption n) s = .next ((s.softReport l l.wave).onLaunch n fun x => { x with order := 0 })))
    ∧ (∀ k c, s.ctx? k = some c → c.id = k →
        (∀ l, c.live = true → c.task.stage ≠ .none → c.task.draining = none → s.launch? c.task.launch = some l →
            l.victim = true →
            ∃ t, exec (.hardPreemption k) s = .next t ∧ SameMemory s t ∧ t.ctx? k = some { c with
              secs := c.secs.map Section.shut, task := { c.task with draining := some s.clk } })
        ∧ (∀ since, c.task.draining = some since → s.drainOver c since = true → c.undecided = none → c.task.saveReq = none →
            (s.splitBit c.part 3 = true →
              ∃ t, exec (.preemptionDrainEnd k) s = .next t ∧ SameMemory s t
                ∧ t.ctx? k = some { c with task := { c.task with saveReq := some s.hub.nextReq } }
                ∧ ∃ r, t.hub.requests = s.hub.requests ++ [r] ∧ r.id = s.hub.nextReq ∧ r.kind = 4 ∧ r.args = [BitVec.ofNat 64 k.num])
            ∧ (∀ i rest, s.splitBit c.part 3 = false → s.freeImages c.part = i :: rest →
                exec (.preemptionDrainEnd k) s = .next (s.saveCtx c i)))
        ∧ (∀ v s1, (s.hub.saved.find? fun v => v.ctx.id == k && v.ctx.task.launch == c.task.launch) = some v →
            c.live = true → c.task.stage = .none → s.rebuild c v = some s1 → exec (.contextRestore k) s = .next s1))
    ∧ (∀ n q, s.posted n = some q →
        let s0 : State := { s with hub := { s.hub with requests := s.hub.requests.filter fun r => r.id != n } }
        (∀ c image claim, (s0.ctxs.find? fun c => c.task.saveReq == some n) = some c →
          ((s0.freeImages c.part).contains image = true →
            let s1 := s0.saveCtx c image
            let hit (r : Parked) : Bool := r.launch == c.task.launch && wordField r.word 29 2 == c.id.num && claim.contains r.reg
            exec (.saveAnswer n image claim) s
              = .next (((s1.tile c.id.tile).parked.filter hit).foldl (fun s r => s.claimRegion c.id.tile r) s1))
          ∧ ((s0.freeImages c.part).contains image = false → exec (.saveAnswer n image claim) s
              = .next (s0.onCtx c.id fun c => { c with task := { c.task with saveReq := none } })))
        ∧ (∀ l, (s0.hub.launches.find? fun l => l.req == some n) = some l →
            let s1 := s0.onLaunch l.id fun l => { l with req := none }
            exec (.dispatchAnswer n none) s = .next s1
            ∧ (∀ ts, q.kind = 5 → l.stage = .queued → s1.dstateBusy l = false →
                (∀ ks, s1.chosenGang l ts = some ks → exec (.dispatchAnswer n (some ts)) s = .next (s1.placeGang l ks))
                ∧ (s1.chosenGang l ts = none → exec (.dispatchAnswer n (some ts)) s = .next s1)))
        ∧ (∀ c x, s0.secWaiting (fun x => x.spillReq == some n) = some (c, x) →
            let s1 := s0.onSec c.id x.handle fun x => { x with spillReq := none }
            exec (.spillAnswer n none) s
              = .next ((s1.onSec c.id x.handle fun x => { x with declined := true }).deadlock c x)
            ∧ (∀ i b, (s1.buffersInOrder c x).find? (fun b => (q.args.drop 1)[i]? == some (BitVec.ofNat 64 b.code)) = some b →
                (s1.mayExtend c x = true → exec (.spillAnswer n (some i)) s = .next (s1.extend c x b))
                ∧ (s1.mayExtend c x = false → exec (.spillAnswer n (some i)) s = .next (s1.deadlock c x))))
        ∧ (∀ py px moves c x, s0.secWaiting (fun x => x.pageReq == some n) = some (c, x) →
            let ms := moves.map fun m : Nat × Nat × Nat => (m.1 / 16, m.1 % 16, m.2)
            let legal := orderOk x.shape.1 x.shape.2 (py, px) ms (s0.tileSecs c.id.tile)
            (legal = true → exec (.pageallocAnswer n py px moves) s = .next (s0.onSec c.id x.handle fun x =>
              { x with pageReq := none, hostOrg := some (py, px), hostMoves := ms }))
            ∧ (legal = false → exec (.pageallocAnswer n py px moves) s = .next (s0.onSec c.id x.handle fun x =>
              { x with pageReq := none }))))

/-! ## Translation, versions and links (R338 to R357, R389 to R408) -/

/-- R348, R353, R354, R357, R372, R373: a walk in hardware mode, and every walk of a base die, ends with what the table
gives; one in host-assisted mode becomes one request, whose answer is its own; an element whose page is there again is
served, waits for what it still lacks, or stops its command with a fault; a page under an open episode is walked again after
65,536 clk; an element that has stayed faulted for 2^24 clk stops its command, and a context under the service of such a page
halts; a shoot-down drops the translations it covers; an application core's answers to WALK and FAULT requests take effect. -/
def Obligations.TranslationIsServed : Prop :=
  ∀ (s : State) (tile i : Nat),
    (∀ w, (s.walkers tile)[i]? = some w → w.ask.req = none →
      let c := w.ctx
      let a := w.ask
      let asks := a.host = true ∧ w.ofBase = false
      (¬ asks → exec (.pageWalkComplete tile i) s = .next (((s.noteWalk c.part a.va.toNat).traceWalk w false 0).endWalk w false
        (s.walkEnd (s.walkViewer w) a.va.toNat a.write)))
      ∧ (asks →
        let s1 := s.traceWalk w true 0
        let p := s1.hubRequest 1 c.part (s1.homeSlice c.part a.va.toNat) c.id.num [a.va, if a.write then 1 else 0]
        exec (.pageWalkComplete tile i) s = .next (p.2.setWalk w (some (.waiting a.va a.write (some p.1) true p.2.clk)))))
    ∧ (∀ c r d, (s.divertedOf tile)[i]? = some (c, r, d) →
        ((∀ e ∈ s.hub.episodes, e.covers c.part d.va = false) → d.walk.bind WalkState.ask = none →
          (∀ s1 q, s.serve c r d = .done s1 q → exec (.divertedElementServed tile i) s = .next
              ((s1.trc 7 1 c [.word tile, .word (r.cmd.slot.getD 48), .long d.va.toNat, .word (s1.spillUsed tile)]).putRun
                { q with walk := r.walk, defers := r.defers, heldFor := r.heldFor, seen := r.seen }).closeEpisodes)
          ∧ (∀ q, s.serve c r d = .wait q →
              let waits (t : State) : State := t.onDiverted r d fun d =>
                { d with walk := q.walk, defers := q.defers, heldFor := q.heldFor, seen := (q.present (t.viewerNow c)).seen }
              (q.heldFor = none ∨ d.heldFor ≠ none → exec (.divertedElementServed tile i) s = .next (waits s))
              ∧ (∀ set, d.heldFor = none → q.heldFor = some set →
                  exec (.divertedElementServed tile i) s = .next (waits (s.trc 6 2 c [.word c.id.num, .word set]))))
          ∧ (∀ code, s.serve c r d = .fault code → exec (.divertedElementServed tile i) s
              = .next ((s.traceOnce c (engineCode r.cmd.op) code d.addr).stopDiverted c r d code)))
        ∧ (∀ e, (s.hub.episodes.find? fun e => e.covers c.part d.va && e.req.isNone) = some e →
            d.since + 2 ^ 24 ≤ s.clk → exec (.unresolvable tile i) s = .next (s.stopDiverted c r d codePage)))
    ∧ (∀ c a e, (s.servedPages tile)[i]? = some (c, a) →
        (s.hub.episodes.find? fun e => e.covers c.part a && e.req.isNone) = some e → e.since + 2 ^ 24 ≤ s.clk →
        exec (.unresolvable tile ((s.divertedOf tile).length + i)) s = .next (s.haltPage c).closeEpisodes)
    ∧ (∀ e, (s.hub.episodes.filter fun e => e.tile == tile)[i]? = some e → e.req = none → e.lastWalk + 65536 ≤ s.clk →
        exec (.periodicRewalk tile i) s = .next (s.rewalk e))
    ∧ (∀ c r, (s.shootdowns tile)[i]? = some (c, r) → c.writesPassed r.cmd.seq = true →
        let lo := r.shootRange.1
        let hi := r.shootRange.2
        let p := s.dropEntries c.part lo hi
        let covered := p.1.hub.episodes.filter fun e =>
          e.part == c.part && e.req.isNone && decide (e.base < hi) && decide (lo < e.base + 2 ^ e.log2)
        let t := covered.foldl (fun s e => s.rewalk e) p.1
        exec (.shootdownComplete tile i) s
          = .next ((t.trc 7 3 c [.word c.id.num, .long lo, .long hi, .word p.2, .long t.clk]).sysRec r .ok 0 0 (p.2 % 2 ^ 32)))
    ∧ (∀ n q, s.posted n = some q →
        let s0 : State := { s with hub := { s.hub with requests := s.hub.requests.filter fun r => r.id != n } }
        (q.kind = 1 → ∀ a,
            let s1 : State := { s0 with hub := { s0.hub with walks := s0.hub.walks.map fun w =>
              if w.req = n then { w with answer := some a } else w } }
            let ws := (s1.everyCtx.flatMap s1.walkersOf).filter fun w => w.ask.req == some n
            exec (.walkAnswer n a) s = .next (ws.foldl (fun s w =>
              s.endWalk w true (s.endOf (s.walkViewer w) w.ask.write (s.answered q.part (pageOf (q.args.headD 0)) a))) s1))
        ∧ (q.kind = 2 → ∀ e, (s0.hub.episodes.find? fun e => e.req == some n) = some e →
            exec (.faultAnswer n false) s = .next (s0.unresolvedPage e)
            ∧ ∃ t, exec (.faultAnswer n true) s = .next t ∧ SameMemory s t
                ∧ t.hub.episodes = s.hub.episodes.filter fun x => x.req != some n))

/-- R335, R338 to R341: SPUB publishes, once its lane is passed, or fails with a record; the switch that every task of a gang
has arrived at takes effect, with a record for each, of STATE where a set has nothing published or is not the partition's; a
RETIRING slot that no access may use is FREE. -/
def Piece.VersionsChange : Prop :=
  ∀ (s : State),
    (∀ set o rest c f, s.vopsOf set = o :: rest → s.owner o.run.cmd.ctx o.run.cmd.seq = some c → o.run.cmd.op = .spub f →
      c.lanePassed o.lane o.run.cmd.seq = true → s.switchBefore o.run.stamp set = false →
      (∀ a, s.spubCheck c.part set o.run.cmd.vslot = some a →
        exec (.spubPublish set) s = .next (((s.dropVop o).versionRec o.run set a).pumpVersions set 64))
      ∧ (s.spubCheck c.part set o.run.cmd.vslot = none →
          let p := (s.dropVop o).publish c.part set o.run.cmd.vslot
          exec (.spubPublish set) s = .next ((p.1.versionRec o.run set p.2).pumpVersions set 64)
          ∧ p.2.status = .ok
          ∧ (NMap.wf 0 s.hub.wset = true → wordField (NMap.get 0 p.1.hub.wset set) 0 32
              = (if wordField (NMap.get 0 s.hub.wset set) 0 32 = 2 ^ 32 - 1 then 1 else wordField (NMap.get 0 s.hub.wset set) 0 32 + 1))))
    ∧ (∀ p launch n stamp xs, s.switchReady launch n = some (xs, stamp) → (∀ a ∈ xs, a.part = p) →
        let mask := ((xs.head?).map (·.mask)).getD 0
        (∀ i < 64, mask.getLsbD i = true → ∀ o ∈ s.vopsOf i, stamp ≤ o.run.stamp) →
        (∃ t, exec (.versionSwitch p launch n) s = .next t ∧ SameMemory s t
          ∧ t.hub.arrivals = s.hub.arrivals.filter fun b => !(b.launch == launch && b.n == n))
        ∧ (∀ a c, xs = [a] → s.ctx? a.k = some c → c.owns a.k a.seq = true → a.queue < 8 → NMap.wf {} c.cqs = true →
            (∀ i < 64, mask.getLsbD i = true → s.vopsOf i = []) →
            let fit (i : Nat) : Prop := wordField (NMap.get 0 s.hub.wset i) 63 1 ≠ 0
              ∧ wordField (NMap.get 0 s.hub.wset i) (43 + p) 1 ≠ 0 ∧ (s.newest i).isSome = true
            ((∀ i < 64, mask.getLsbD i = true → fit i) →
              ∃ t, exec (.versionSwitch p launch n) s = .next t ∧ Recorded s t a.k a.queue .ok)
            ∧ ((∃ i < 64, mask.getLsbD i = true ∧ ¬ fit i) →
              ∃ t, exec (.versionSwitch p launch n) s = .next t ∧ Recorded s t a.k a.queue .state ∧ t.hub.views = s.hub.views)))
    ∧ (∀ set slot, (s.wslotOf set slot).st = 3 → (∀ c ∈ s.ctxs, c.mayUse (s.tile c.id.tile).queue set slot = false) →
        (∀ v ∈ s.hub.saved, v.ctx.mayUse v.queue set slot = false) →
        ∃ t, exec (.slotFree set slot) s = .next t ∧ SameMemory s t
          ∧ (NMap.wf {} s.hub.wslot = true → t.wslotOf set slot = { s.wslotOf set slot with st := 0 }))

/-- R389, R393 to R396: the words of a packet are its fields again, with a CHECK that holds; a packet with a failed CHECK, a
reserved OP or a partition that is not enabled is refused; one in sequence is held and committed with those behind it; one
beyond a gap is held while there is room; one that was committed is acknowledged again; an acknowledgement retires what it
covers. -/
def Piece.PacketsArrive : Prop :=
  (∀ p : Packet, p.sub < 2 ^ 8 → p.len < 2 ^ 8 → p.src < 2 ^ 10 → wirePacket (packetWire p) = { p with good := true })
  ∧ ∀ (s : State) (w : Wire), let p := wirePacket w
    (p.op ≠ .ack → let s0 : State := { s with hub := { s.hub with local_ := s.hub.local_.erase p } }
        ((p.good = false ∨ s0.enabled (p.gsid.toNat / 4096) = false) → exec (.packetArrival w) s = .next (s0.refuse p 0))
        ∧ (p.good = true → s0.enabled (p.gsid.toNat / 4096) = true →
            ((s.hub.ingress.find? fun e => e.src == p.src && e.gsid == p.gsid) = none →
                (p.first = true → s.hub.ingress.length < 16384 →
                  exec (.packetArrival w) s = .next (({ s0 with hub := { s0.hub with ingress := s.hub.ingress
                      ++ [{ src := p.src, gsid := p.gsid, next := p.seq, held := [p], ackedAt := s.clk }] } } : State).commitHeld
                    p.src p.gsid 65537))
                ∧ (p.first = false ∨ 16384 ≤ s.hub.ingress.length → exec (.packetArrival w) s = .next (s0.refuse p 1)))
            ∧ (∀ e, (s.hub.ingress.find? fun e => e.src == p.src && e.gsid == p.gsid) = some e →
                let d := (p.seq - e.next).toNat
                (d = 0 → exec (.packetArrival w) s = .next
                  ((s0.setIngress { e with held := e.held.filter (fun q => q.seq != p.seq) ++ [p] }).commitHeld p.src p.gsid 65537))
                ∧ (0 < d → d < 2 ^ 20 →
                    ((∃ q ∈ e.held, q.seq = p.seq) → exec (.packetArrival w) s = .next s0)
                    ∧ ((∀ q ∈ e.held, q.seq ≠ p.seq) →
                        (s0.heldPackets < 65536 → exec (.packetArrival w) s = .next (s0.setIngress { e with held := e.held ++ [p] }))
                        ∧ (65536 ≤ s0.heldPackets → exec (.packetArrival w) s = .next (s0.refuse p 2))))
                ∧ (2 ^ 20 ≤ d → (p.seq ≠ 0 ∨ p.first = false) → exec (.packetArrival w) s = .next (s0.sendAck e (e.next - 1))))))
    ∧ (p.op = .ack → p.good = false → exec (.packetArrival w) s = .next s ∧ ∀ st, exec (.ackArrival ⟨w, st⟩) s = .next s)
    ∧ (p.op = .ack → p.good = true →
        exec (.packetArrival w) s = exec (.ackArrival ⟨w, .ok⟩) s
        ∧ (∀ st, exec (.ackArrival ⟨w, st⟩) s = .next (s.takeAck (packetAck p st)))
        ∧ ∃ t, exec (.ackArrival ⟨w, .ok⟩) s = .next t ∧ SameMemory s t
            ∧ t.hub.outbox = s.hub.outbox.filter fun o => !Ack.covers (packetAck p .ok) o)

/-- R394 to R396: the timers of the ingress acknowledge and reclaim streams; those of the source send a refused packet again
after 4,096 clk, one that nothing covers after 65,536 clk on the next plane, and raise ORDERWIN once after 2^26 clk. -/
def Piece.PacketTimers : Prop :=
  ∀ (s : State) (i : Nat),
    (∀ e e1, s.hub.ingress[i]? = some e → let s1 := s.commitHeld e.src e.gsid 65537
      s1.hub.ingress[i]? = some e1 →
      (e1.uncovered ≠ 0 → e1.since + 1024 ≤ s1.clk → exec (.ackTimer i) s = .next (s1.sendAck e1 (e1.next - 1)))
      ∧ (e1.uncovered = 0 ∨ s1.clk < e1.since + 1024 → exec (.ackTimer i) s = .next s1))
    ∧ (∀ o, s.hub.outbox[i]? = some o →
        (∀ n, o.refused = some n → n + 4096 ≤ s.clk → exec (.refusedPacketResend i) s = .next (s.resend i o))
        ∧ (o.refused = none → o.sent + 65536 ≤ s.clk →
            (o.dpkg = s.hub.pkg → exec (.unackedPacketResend i) s = .next (s.resend i { o with plane := none }))
            ∧ (o.dpkg ≠ s.hub.pkg → let us := s.planesOf o
                exec (.unackedPacketResend i) s = .next (s.resend i { o with
                  plane := (o.plane.bind fun p => us.find? fun q => decide (p < q)).or us.head? })))
        ∧ (o.late = false → o.first + 2 ^ 26 ≤ s.clk →
            let late := s.raiseOwner o.k o.cmd .orderwin (BitVec.ofNat 64 (o.lane + o.pkt.seq.toNat * 2 ^ 32))
            (∀ s1, late = some s1 → exec (.orderwin i) s = .next (s1.setOut i { o with late := true }))
            ∧ (late = none → exec (.orderwin i) s = .next s)))
    ∧ (∀ e, s.hub.ingress[i]? = some e → e.held = [] → e.uncovered = 0 → e.ackedAt + 2 ^ 24 ≤ s.clk →
        (∀ x ∈ s.hub.ingress, x.held = [] → x.uncovered = 0 → x.ackedAt + 2 ^ 24 ≤ s.clk → e.ackedAt ≤ x.ackedAt) →
        ∃ t, exec (.streamEntryReclaim i) s = .next t ∧ SameMemory s t ∧ t.hub.ingress = s.hub.ingress.eraseIdx i)

/-- R335, R338 to R341, R389, R393 to R396: versions change and packets go on as Piece.VersionsChange, Piece.PacketsArrive
and Piece.PacketTimers say. -/
def Obligations.VersionsAndPackets : Prop := Piece.VersionsChange ∧ Piece.PacketsArrive ∧ Piece.PacketTimers

/-- R389 to R391, R397 to R407: a port that is down reads clear until it retrains, and what waits for its plane then leaves;
the servo unlocks after 2 s of silence, and a message brings its offset and decides the lock; a slew clk sets by how many
ticks GTIME advances; a time slot begins; an SCOLL starts at START, takes chunk after chunk, acquires the results that it
does not make, and delivers them in order, with SKIP after the last of them; a peer's read or atomic is answered at the Hall
of its partition, or waits there. -/
def Obligations.LinksTimeAndCollectives : Prop :=
  ∀ (s : State),
    (∀ port, NMap.wf false s.hub.portDown = true →
      (∃ t, exec (.portDown port) s = .next t ∧ SameMemory s t ∧ NMap.get false t.hub.portDown port = true
        ∧ (port < 32 → t.planeUp (port % 4) = false))
      ∧ (let s0 := s.trcPkg 9 1 0 [.word port, .word (port % 4)]
         exec (.portUp port) s = .next
           ({ s0 with hub := { s0.hub with portDown := NMap.set false s0.hub.portDown port false } } : State).assignPlanes))
    ∧ (∀ o : BitVec 32, ∃ t, exec (.ptpSyncMessage o) s = .next t ∧ SameMemory s t ∧ t.hub.offset = o ∧ t.hub.lastSync = s.clk
        ∧ (s.locked = true → (t.locked = true ↔ o.toInt.natAbs ≤ 56))
        ∧ (s.locked = false → (t.locked = true ↔ o.toInt.natAbs ≤ 40 ∧ 15 ≤ s.hub.good))
        ∧ (s.locked = false → 2 ^ 20 < o.toInt → t.hub.advance = 1 + o.toInt.toNat))
    ∧ (s.locked = true → s.hub.lastSync + 8000000000 ≤ s.clk →
        ∃ t, exec .syncTimeout s = .next t ∧ SameMemory s t ∧ t.locked = false ∧ t.hub.good = 0)
    ∧ (∀ n, ((n = 0 ∧ s.hub.slew = 1) ∨ (n = 2 ∧ s.hub.slew = 2)) → (∀ at_, s.hub.lastSlew = some at_ → at_ + 5000 ≤ s.clk) →
        s.hub.advance = 1 →
        exec (.slewClk n) s = .next { s with hub := { s.hub with advance := n, lastSlew := some s.clk } })
    ∧ (∀ p, (NMap.get {} s.hub.slots p).entries ≠ [] → exec (.timeSlotStart p) s = .next s.assignPlanes)
    ∧ (∀ tile slot c r f, s.runAt tile slot = some (c, r) → r.cmd.op = .scoll f →
        (r.kStart ≤ s.gtime → exec (.collectiveStartTime tile slot) s = .next (s.putRun { r with running := true }))
        ∧ (r.phase = .active →
            let clear := c.laneClear r.f.lane r.cmd.seq
            (∀ x, r.results[r.outp]? = some x → (r.kSkip = false ∨ r.kChunks ≤ r.results.length) →
                (r.f.door.toNat < 32 ∨ clear = true) →
              exec (.collectiveChunk tile slot) s = .next (s.deliverChunk c r x))
            ∧ ((r.results[r.outp]? = none ∨ (r.kSkip = true ∧ r.results.length < r.kChunks)) → clear = true →
                (r.pos < r.kChunks → exec (.collectiveChunk tile slot) s = .next (s.chunkStep c r))
                ∧ (r.kChunks ≤ r.pos → r.results.length < r.kChunks →
                    (s.takeRbuf c r (r.kHalf + 64 * r.results.length) = none → exec (.collectiveChunk tile slot) s = .next s)
                    ∧ (∀ s1 x, s.takeRbuf c r (r.kHalf + 64 * r.results.length) = some (s1, x) →
                        let q := { r with results := r.results ++ [(x.data, x.nf, x.poison)] }
                        exec (.collectiveChunk tile slot) s
                          = .next (s1.putRun (if x.poison = 0 then q else q.poisonBy x.poison)))))))
    ∧ (∀ p addr a, let answer := s.hubAccess (s.hallPlace p (wordField addr 0 28)) a
        ((∃ n, a = .read n) ∨ (∃ op n v, a = .atomic op n v)) →
        (∀ t bs, answer = .done t bs → exec (.peerReadRequest p addr a) s = .next { t with hub := { t.hub with reply := bs } })
        ∧ (∀ key n, answer = .defer key n → exec (.peerReadRequest p addr a) s = .next (s.deferHub key n true))
        ∧ (answer = .wait → exec (.peerReadRequest p addr a) s = .next s)
        ∧ (answer = .fault → exec (.peerReadRequest p addr a) s
            = .next (s.noteHub (s.hallPlace p (wordField addr 0 28)) a)))

/-! ## The hub (R12, R20 to R24, R290, R331, R411, R424 to R434, R444) -/

/-- R21, R23, R290, R331, R411, R424, R425, R428: the partition manager enables a partition that boot has made ready, for
whose banks no change of owner is then under way (model, log 21), disables one that is not busy, and writes region, queue,
set and key registers with values that no rule forbids; a value that a rule forbids is refused and reported, and so is a
write of an enabled partition's; a write without the right is ignored and reported. -/
def Obligations.HubRegistersAreWritten : Prop :=
  ∀ (s : State) (p n : Nat) (v : Word),
    (s.enabled p = false → s.hub.bootstat = 7 →
      (NMap.get 0 s.hub.proot p ≠ 0 → s.rectBad p (pctlOf s p) = false → NMap.wf pctlReset s.hub.pctl = true →
        let mine (r : Remap) : Prop := r.owner = p + 1 ∨ NMap.get 0 s.bankOwner r.bank = p + 1
        ∃ t, exec (.partitionEnable .partitionManager p) s = .next t
          ∧ pctlOf t p = pctlOf s p ||| 0x8000000000000000
          ∧ (∀ r ∈ t.hub.remaps, r ∈ s.hub.remaps ∧ ¬ mine r)
          ∧ ((∀ r ∈ s.hub.remaps, ¬ mine r) → SameMemory s t ∧ t.hub.remaps = s.hub.remaps))
      ∧ ((NMap.get 0 s.hub.proot p = 0 ∨ s.rectBad p (pctlOf s p) = true) →
          exec (.partitionEnable .partitionManager p) s = .next (s.refuseWrite p p 428)))
    ∧ (s.enabled p = false → s.hub.bootstat ≠ 7 → exec (.partitionEnable .partitionManager p) s = .next (s.refuseWrite p p 425))
    ∧ (s.enabled p = true → s.partBusy p = true → ∃ t, exec (.partitionDisable .partitionManager p) s = .next t ∧ SameMemory s t
        ∧ t.hub.reply = toBytes 1 Status.busy.code ∧ pctlOf t p = pctlOf s p)
    ∧ (s.enabled p = true → s.partBusy p = false → exec (.partitionDisable .partitionManager p) s = .next
        ((({ s with hub := { s.hub with reply := toBytes 1 Status.ok.code } } : State).setPctl p
          (keepBits (pctlOf s p) 0x7FFFFFFFFFFFFFFF)).dropPartition p))
    ∧ (let w := keepBits v hregMask
       let set : State := { s with hreg := NMap.set 0 s.hreg (hregKey p n) w }
       (s.enabled p = true → exec (.hregWrite .partitionManager p n v) s = .next (s.refuseWrite p (hregCode p n) 23))
       ∧ (s.enabled p = false → wordField w 63 1 = 1 →
          (s.hregBad p n w = true → exec (.hregWrite .partitionManager p n v) s = .next (s.refuseWrite p (hregCode p n) 290))
          ∧ (s.hregBad p n w = false → exec (.hregWrite .partitionManager p n v) s
              = .next ((List.range (hregSpan w).2.1.2).foldl (fun s i =>
                  s.emptyRange (hallKey ((hregSpan w).2.1.1 + i) (hregSpan w).2.2.1) (hregSpan w).2.2.2) set)))
       ∧ (s.enabled p = false → wordField w 63 1 = 0 → exec (.hregWrite .partitionManager p n v) s = .next set))
    ∧ (let w := keepBits v lqMask
       (s.enabled p = true → exec (.lqWrite .partitionManager p n v) s = .next (s.refuseWrite p (lqCode p n) 23))
       ∧ (s.enabled p = false → wordField w 63 1 = 1 → s.lqBad p w = true →
          exec (.lqWrite .partitionManager p n v) s = .next (s.refuseWrite p (lqCode p n) 411))
       ∧ (s.enabled p = false → (wordField w 63 1 = 0 ∨ s.lqBad p w = false) →
          exec (.lqWrite .partitionManager p n v) s
            = .next { s with hub := { s.hub with lq := NMap.set 0 s.hub.lq (p * 8 + n) w } }))
    ∧ (let w := keepBits v wsetMask
       let moving := ∃ i < 4, (NMap.get {} s.hub.wslot (n * 4 + i)).st = 1 ∨ (NMap.get {} s.hub.wslot (n * 4 + i)).st = 3
       (wordField (NMap.get 0 s.hub.wset n) 63 1 = 1 → moving →
          exec (.wsetWrite .partitionManager n v) s = .next (s.refuseWrite 0 (wsetCode n) 331))
       ∧ ((wordField (NMap.get 0 s.hub.wset n) 63 1 = 0 ∨ ¬ moving) →
          (wordField (NMap.get 0 s.hub.wset n) 63 1 = 1 ∨ wordField w 63 1 = 0) →
          exec (.wsetWrite .partitionManager n v) s
            = .next { s with hub := { s.hub with wset := NMap.set 0 s.hub.wset n w } })
       ∧ (wordField (NMap.get 0 s.hub.wset n) 63 1 = 0 → wordField w 63 1 = 1 →
          exec (.wsetWrite .partitionManager n v) s = .next { s with hub := { s.hub with
            wset := NMap.set 0 s.hub.wset n w, wslot := NMap.cut s.hub.wslot (n * 4) (n * 4 + 4),
            views := s.hub.views.filter fun x => x.1 % 64 != n } }))
    ∧ (let w := keepBits v 0x800000000000000F
       let old := kownPart (NMap.get 0 s.hub.kown n)
       let on (o : Nat) : Prop := o ≠ 0 ∧ s.enabled (o - 1) = true
       (old = kownPart w → exec (.kownWrite .partitionManager n v) s
          = .next { s with hub := { s.hub with kown := NMap.set 0 s.hub.kown n w } })
       ∧ (old ≠ kownPart w → (on old ∨ on (kownPart w)) →
          exec (.kownWrite .partitionManager n v) s = .next (s.refuseWrite 0 (kownCode n) 23))
       ∧ (old ≠ kownPart w → ¬ on old → ¬ on (kownPart w) →
          let s1 : State := { s with hub := { s.hub with
            kown := NMap.set 0 s.hub.kown n w, keys := NMap.set 0 s.hub.keys n 0,
            reassigned := s.hub.reassigned + if s.granulesOf n = [] then 0 else 1 } }
          exec (.kownWrite .partitionManager n v) s = .next ((s.granulesOf n).foldl State.scramble s1)))
    ∧ (∀ pr, pr ≠ .partitionManager →
        exec (.partitionEnable pr p) s = .next (s.violation p p) ∧ exec (.partitionDisable pr p) s = .next (s.violation p p)
        ∧ exec (.hregWrite pr p n v) s = .next (s.violation p (hregCode p n))
        ∧ exec (.lqWrite pr p n v) s = .next (s.violation p (lqCode p n))
        ∧ exec (.wsetWrite pr n v) s = .next (s.violation 0 (wsetCode n))
        ∧ exec (.kownWrite pr n v) s = .next (s.violation 0 (kownCode n)))
    ∧ (∀ r, exec (.hubRegisterWrite (hubRegRight r) r v) s = .next (s.writeHubReg r v)
        ∧ ∀ pr, pr ≠ hubRegRight r → ∃ t x, exec (.hubRegisterWrite pr r v) s = .next t ∧ SameMemory s t
            ∧ t.hub.faults = s.hub.faults ++ [x] ∧ x.kind = 6)

/-- From R425, R426, R431, R434, R437, R439 and R443. A reset, or in the safe talkative state an upload, puts the package at
stage 0x01 with every register and store at reset, and a run of the stages begins; elsewhere an upload is not taken. A stage
that passes shows the next one; one that fails shows 0x80 and its code, and is the safe talkative state. A status query is
answered with BOOTSTAT, and there with the failed units and the fuse map too. A mesh link that has failed its retries makes
that state. The attestation report is the nonce, three digests and a signature, 288 bytes. An access of an application core
answers its bytes, is deferred or waits at its bank, or is an access fault; one to a peer package is answered by a free value
(model, log 2), or is an access fault. A key slot takes the key that a blob wraps under the fused wrapping key, and what the
granules that name it store is opened with it; any other blob changes nothing. The trace port takes the oldest records. -/
def Obligations.HubServices : Prop :=
  ∀ (s : State),
    (∀ r, exec (.powerOnReset r) s = .next (s.boot r)
      ∧ (∀ image, (s.talkative = true → exec (.firmwareUpload image r) s
            = .next (({ s with hub := { s.hub with firmware := image } } : State).boot r))
          ∧ (s.talkative = false → exec (.firmwareUpload image r) s = .next s))
      ∧ (let t := s.boot r
         t.mem = [] ∧ t.full = [] ∧ t.c = State.reset.c ∧ t.others = State.reset.others ∧ t.tiles = State.reset.tiles ∧ t.clk = 0
          ∧ t.hub.bootstat = 1 ∧ t.hub.booting = some r ∧ t.hub.fuses = s.hub.fuses ∧ t.hub.firmware = s.hub.firmware))
    ∧ (∀ r, s.hub.booting = some r → s.hub.bootstat.toNat < 7 →
        (s.stageFails r s.hub.bootstat.toNat = false → s.bootStep.hub.bootstat = s.hub.bootstat + 1)
        ∧ (s.stageFails r s.hub.bootstat.toNat = true → s.bootStep.hub.bootstat = s.hub.bootstat + 0x80
            ∧ s.bootStep.talkative = true ∧ s.bootStep.hub.powered = false))
    ∧ (∃ t, exec .statusQuery s = .next t ∧ SameMemory s t ∧ t.c = s.c ∧ t.others = s.others
        ∧ (s.talkative = false → t.hub.reply = [s.hub.bootstat])
        ∧ (s.talkative = true → t.hub.reply = s.hub.bootstat :: ((s.hub.failed.flatMap fun u => toBytes 4 u) ++ s.hub.fuses)))
    ∧ (∀ link, (s.talkative = false → ∃ t, exec (.linkRetryFailure link) s = .next t ∧ t.talkative = true
          ∧ t.hub.powered = false ∧ t.hub.failed = [link] ∧ t.mem = [] ∧ t.hub.faults = s.hub.faults ∧ t.clk = s.clk
          ∧ t.hub.launches = [])
        ∧ (s.talkative = true → exec (.linkRetryFailure link) s = .next s))
    ∧ (∀ nonce, let body := toBytes 48 nonce.toNat ++ sha384 s.hub.firmware ++ sha384 s.hub.fuses ++ sha384 s.configBytes
        let report := body ++ toBytes 96 (Config.signature body).toNat
        report.length = 288
          ∧ exec (.attestationRequest nonce) s = .next { s with hub := { s.hub with reply := report } })
    ∧ (∀ addr a, addr < 0x2000000000 → let answer := s.hubAccess (s.aperturePlace addr) a
        (∀ t bs, answer = .done t bs → exec (.apertureAccess addr a) s = .next (t.hartReply false bs))
        ∧ (∀ key n, answer = .defer key n → exec (.apertureAccess addr a) s = .next (s.deferHub key n false))
        ∧ (answer = .wait → exec (.apertureAccess addr a) s = .next s)
        ∧ (answer = .fault → exec (.apertureAccess addr a) s
            = .next ((s.noteHub (s.aperturePlace addr) a).hartReply true [])))
    ∧ (∀ addr a, 0x2000000000 ≤ addr → exec (.apertureAccess addr a) s = .next (s.remoteAperture (addr - 0x2000000000) a))
    ∧ (∀ n blob, let loaded (key : BitVec 512) : State := { s with hub := { s.hub with keys := NMap.set 0 s.hub.keys n key } }
        exec (.keyLoad n blob) s = .next (match unwrapBlob Config.wrappingKey blob with
          | none => s
          | some key => (s.granulesOf n).foldl s.rekeyFrom (loaded key))
        ∧ ∀ key, ((s.granulesOf n).foldl s.rekeyFrom (loaded key)).hub = (loaded key).hub)
    ∧ (∀ n, exec (.traceRingDrain n) s = .next { s with hub := { s.hub with trace := s.hub.trace.drop n } })

/-! ## Registers, bundles and traps (R96 to R109, R365, R366) -/

/-- R98, R99: the fixed registers read their constants and discard what is written; a write to any other register is what it
reads afterwards, and every other register reads as before. -/
def Obligations.RegisterReadsAndWrites : Prop :=
  ∀ (f : Files) (r : Reg) (val mask : Line) (o : BitVec 32),
    (f.read (.s 0) = 0 ∧ f.read (.x 0) = 0 ∧ f.read (.q 0) = 1 ∧ f.read (.m 0) = BitVec.ofNat 512 (2 ^ 64 - 1))
    ∧ (r.fixed = true → ∀ q, (f.write r val mask o).read q = f.read q)
    ∧ (∀ q, q ≠ r → (f.write r val mask o).read q = f.read q)
    ∧ (∀ n (w : Word), n ≠ 0 → NMap.wf 0 f.s = true → (f.write (.s n) (wordVal w) allBits o).read (.s n) = wordVal w)
    ∧ (∀ n (w : Word), n ≠ 0 → NMap.wf 0 f.x = true → (f.write (.x n) (wordVal w) allBits o).read (.x n) = wordVal w)
    ∧ (∀ n, NMap.wf 0 f.v = true → (f.write (.v n) val allBits o).read (.v n) = val)

/-- R96: a syllable changes nothing but the bundle under issue, to which it adds what it waits for, traps for or will write;
so no syllable of a bundle sees another's write (the staging is the model's, log 6). -/
def Obligations.SyllablesOnlyStage : Prop :=
  ∀ (i : Instr) (s : State), isSyllable i = true →
    ∃ b : Staged, exec i s = .next { s with bundle := b } ∧ b.pc = s.bundle.pc ∧ s.bundle.holds <+: b.holds
      ∧ s.bundle.traps <+: b.traps ∧ s.bundle.writes <+: b.writes

/-- R188, R193: a micro-operation changes nothing but the firing under way, of which it keeps the context, the section, the
place and the heads (log 6). -/
def Obligations.MicroOpsOnlyFire : Prop :=
  ∀ (i : Instr) (s : State), isMicroOp i = true →
    (s.micro = none → exec i s = .next s)
    ∧ (∀ m, s.micro = some m → ∃ n, exec i s = .next { s with micro := some n } ∧ n.k = m.k ∧ n.h = m.h
        ∧ n.pe.row = m.pe.row ∧ n.pe.col = m.pe.col ∧ n.heads = m.heads)

/-- R97, R104, R137: a bundle that must wait makes none of its writes; one that neither waits nor traps makes them all: a
staged register write is in flight until its latency is over, the pc goes to the next bundle, and RPC takes the address of a
restart point (the staging is the model's, log 6). -/
def Obligations.BundlesCommit : Prop :=
  ∀ (s : State) (rp : Bool),
    (∀ h hs, s.bundle.holds = h :: hs →
      s.finish rp = { s with bundle := {}, c := { s.c with stall := some (firstHold h hs) } })
    ∧ (∀ r val mask lat, s.bundle.holds = [] → s.bundle.traps = [] → s.bundle.writes = [.reg r val mask lat] →
        s.c.frame.act = false →
        let t := s.finish rp
        SameMemory s t ∧ t.others = s.others ∧ t.c.files = s.c.files ∧ t.c.pc = s.bundle.pc + 32
          ∧ t.c.inflight = s.c.inflight ++ [⟨r, val, mask, s.clk + lat, false⟩]
          ∧ t.c.sys = (if rp then { s.c.sys with rpc := s.bundle.pc } else s.c.sys))

/-- R107, R109, R365, R366, R370: a bundle that traps makes none of its writes; in task mode its handler is entered, with the
cause, TVAL and the pc saved and HM set, 4 clk later, once nothing is in flight; without a handler it is served or halts; the
third trap of a replay, and a trap in handler mode, halt the context. -/
def Obligations.TrapsAreTaken : Prop :=
  ∀ (s : State) (rp : Bool) (t : Nat × Cause × Word), s.bundle.holds = [] →
    firstTrap (s.bundle.traps ++ s.watchTraps s.bundle.pc) = some t →
    let s1 : State := { s with bundle := {}, c := { s.c with stall := none } }
    let u := s.finish rp
    let saved : SysRegs := { s.c.sys with tcause := BitVec.ofNat 8 t.2.1.num, tval := t.2.2, tpc := s.bundle.pc, hm := true }
    SameMemory s u ∧ u.others = s.others ∧ u.c.files = s.c.files ∧ u.c.accs = s.c.accs ∧ u.c.inflight = s.c.inflight
      ∧ u.c.opens = s.c.opens
      ∧ (s1.drained s1.c = true → s.c.sys.hm = false → (s.c.replay = false ∨ s.c.repCnt ≠ 2) → t.2.1 ≠ .replayx →
          u.c.sys = saved
          ∧ (s.c.sys.tbase ≠ 0 → u.c.pc = s.c.sys.tbase ∧ u.c.halted = s.c.halted
              ∧ (s.c.trap = none → u.c.notBefore = s.clk + 4))
          ∧ (s.c.sys.tbase = 0 → u.c.pc = s.c.pc
              ∧ (∀ b, builtInOf s1.c ⟨t.2.1, false, t.2.2, s.bundle.pc⟩ = some b → u.c.builtin = some b ∧ u.c.halted = s.c.halted)
              ∧ (builtInOf s1.c ⟨t.2.1, false, t.2.2, s.bundle.pc⟩ = none → u.c.halted = some t.2.1)))
      ∧ (s1.drained s1.c = true → s.c.sys.hm = false → s.c.replay = true → s.c.repCnt = 2 →
          u.c.halted = some .replayx ∧ u.c.sys = s.c.sys)
      ∧ (s1.drained s1.c = true → s.c.sys.hm = true → u.c.halted = some t.2.1 ∧ u.c.sys = s.c.sys)
      ∧ (s1.drained s1.c = false → u.c.trap = some ⟨t.2.1, false, t.2.2, s.bundle.pc⟩ ∧ u.c.sys = s.c.sys ∧ u.c.halted = s.c.halted)

/-- R41, R63, R96: with nothing left to do in a clk, a step of a current context that may issue runs the bundle at its pc:
its four syllables in slot order, beside the conditions that hold every bundle, then its writes; where that ended the firing
its tile chooses the next one; then one clk passes; a bundle that does not decode traps ILLEGAL; one whose pc is in no bundle
storage of its task traps ACCESS; a context that may not issue lets the clk pass, and one whose bundle waits for its decision
at most shows the reason; an event of the agenda is its meaning (the agenda is the model's, log 1). -/
def Obligations.StepRunsTheDecodedBundle : Prop :=
  ∀ (s : State),
    (∀ i rest, s.agenda = .event i :: rest → step s = exec i { s with agenda := rest })
    ∧ (s.agenda = [] → s.c.canIssue s.clk = false → s.c.undecided = none → step s = .next s.tick.planned)
    ∧ (s.agenda = [] → s.c.undecided ≠ none → ∃ t, step s = .next t.tick.planned ∧ (t = s ∨ ∃ h, t = s.stalled h))
    ∧ (s.agenda = [] → s.c.canIssue s.clk = true → (s.c.sys.hm = true ∨ (s.c.events = [] ∧ s.c.budgetCount < s.c.budget)) →
        s.c.entry = .done → s.c.syncf = none → s.c.stale = [] →
        let there := space s.c.pc = 2 ∧ zeroBitsOk s.c.pc = true
          ∧ (s.myTile.regionOf s.c.id.num (wordField s.c.pc 0 23)).isSome = true
        let w := bundleWords (s.bytesAt (tileKey s.c.id.tile (wordField s.c.pc 0 23)) 32)
        (there → ∀ b, decodeBundle w = .ok b → (s.c.skip = some s.c.pc ∨ breakUnit s.myTile s.c s.c.pc = none) →
          ∀ s1 s2 s3 s4, exec b.s { s with bundle := { pc := s.c.pc, holds := s.standing } } = .next s1 → exec b.x s1 = .next s2 →
            exec b.v s2 = .next s3 → exec b.c s3 = .next s4 →
            step s = andThen (chooseAfter s.c.id true (s4.finish (restartPoint w))) fun t => .next t.tick.planned)
        ∧ (there → s.standing = [] → ∀ tv, decodeBundle w = .error tv → step s
            = .next (s.decideTrap s.c.id ⟨.illegal, false, BitVec.ofNat 64 tv, s.c.pc⟩).tick.planned)
        ∧ (¬ there → s.standing = [] → step s = .next (s.decideTrap s.c.id ⟨.access, false, s.c.pc, s.c.pc⟩).tick.planned))

/-- Every instruction and every event of the table answers a next state in every state: the model stops on none. -/
def Obligations.EveryInstructionRuns : Prop := ∀ (i : Instr) (s : State), ∃ t, exec i s = .next t

/-! ## Memory and reset (R6, R19, R99, R115, R286, R289, R428, R435) -/

/-- What reset leaves (R286, R289, R331, R391, R411, R428, R429, R435; R115 for CLK): no partition is enabled, the registers
of the hub read their reset values, and no context is there. -/
def Obligations.ResetState : Prop :=
  let s := State.reset
  s.clk = 0 ∧ s.locked = false ∧ s.hub.limit = 30000 ∧ s.c.live = false ∧ s.others = [] ∧ s.hub.launches = []
    ∧ (∀ p, pctlOf s p = 0x60000000000 ∧ s.enabled p = false ∧ s.splitBit p 0 = false)
    ∧ (∀ p n, NMap.get 0 s.hreg (hregKey p n) = 0 ∧ NMap.get 0 s.hub.lq (p * 8 + n) = 0)
    ∧ (∀ n, NMap.get 0 s.hub.wset n = 0 ∧ NMap.get 0 s.hub.route n = 0 ∧ (s.tile n).treg = [] ∧ (s.tile n).queue = [])
    ∧ (∀ k, s.isFull k = false)

/-- The memory of the reset state lists nothing, and so is in its canonical form (the form is the model's, log 4). -/
def Obligations.ResetIsCanonical : Prop := State.reset.Canonical ∧ State.reset.mem = []

/-- Every step keeps the canonical form of the memory (the form is the model's, log 4): equal memories are equal data. -/
def Obligations.MemoryStaysCanonical : Prop := ∀ s t, s.Canonical → step s = .next t → t.Canonical

/-- R6: a value written to n bytes reads back from them, little-endian, and no other byte changes. -/
def Obligations.WrittenValuesReadBack : Prop :=
  ∀ (s : State) (key n v : Nat), s.Canonical →
    (s.writeValue key n v).valueAt key n = v % 2 ^ (8 * n) ∧ SameOutside s (s.writeValue key n v) key n
      ∧ (∀ i < n, (s.writeValue key n v).byte (key + i) = BitVec.ofNat 8 (v / 2 ^ (8 * i)))

/-! ## Encodings (R40 to R63) -/

/-- Words written field by field from the encodings of the spec (R41 to R57) decode to their instructions. -/
def Obligations.WordsDecode : Prop :=
  decodeS (0#1 ++ 0#4 ++ 1#6 ++ 5#6 ++ 6#6 ++ 7#6 ++ 0#3).toNat = .ok (.add ⟨false, 0, 5, 6, 7⟩)
    ∧ decodeS (1#1 ++ 3#4 ++ 4#6 ++ 5#6 ++ 6#6 ++ 0x1FF#9).toNat = .ok (.addi ⟨true, 3, 5, 6, 0x1FF⟩)
    ∧ decodeX (0#4 ++ 1#5 ++ 2#5 ++ 3#5 ++ 4#5 ++ 0#8).toNat = .ok (.xadd ⟨0, 2, 3, 4⟩)
    ∧ decodeC (62#8 ++ 0#4 ++ 0#8 ++ 0#6 ++ 9#6 ++ 0#6 ++ 0#6 ++ 0#4 ++ 0#4 ++ 0#4 ++ 0#8 ++ 0x123456789#64).toNat
        = .ok (.konst ⟨0, 0, 0, 9, 0, 0, 0, 0, 0, 0, 0x123456789⟩)
    ∧ decodeT (1#5 ++ 2#5 ++ 16#5 ++ 0#5 ++ 0#12).toNat = .ok (.move ⟨2, 16, 0, 0⟩)
    ∧ decodeS 0x01F189FB = .ok (.cmpiCond47 ⟨false, 0, 2, 3, 4, 0x1FB⟩)
    ∧ decodeS (0#1 ++ 0#4 ++ 63#6 ++ 0#21).toNat = .error 21

/-- Decoding and encoding of S and X syllables agree, in both directions, with every operand (R42 to R47). -/
def Obligations.SyllablesSXRoundTrip : Prop :=
  (∀ i w, i.wf = true → encodeS i = some w → w < 2 ^ 32 ∧ decodeS w = .ok i)
    ∧ (∀ i w, i.wf = true → encodeX i = some w → w < 2 ^ 32 ∧ decodeX w = .ok i)
    ∧ (∀ i w, w < 2 ^ 32 → decodeS w = .ok i → encodeS i = some w ∧ i.wf = true)
    ∧ (∀ i w, w < 2 ^ 32 → decodeX w = .ok i → encodeX i = some w ∧ i.wf = true)

/-- Decoding and encoding of V and C syllables agree, in both directions, with every operand (R50 to R56). -/
def Obligations.SyllablesVCRoundTrip : Prop :=
  (∀ i w, i.wf = true → encodeV i = some w → w < 2 ^ 64 ∧ decodeV w = .ok i)
    ∧ (∀ i w, i.wf = true → encodeC i = some w → w < 2 ^ 128 ∧ decodeC w = .ok i)
    ∧ (∀ i w, w < 2 ^ 64 → decodeV w = .ok i → encodeV i = some w ∧ i.wf = true)
    ∧ (∀ i w, w < 2 ^ 128 → decodeC w = .ok i → encodeC i = some w ∧ i.wf = true)

/-- Decoding and encoding of the micro-operations of a PE entry agree, with every operand (R57). -/
def Obligations.MicroOpsRoundTrip : Prop :=
  (∀ i w, i.wf = true → encodeT i = some w → w < 2 ^ 32 ∧ decodeT w = .ok i)
    ∧ (∀ i w, w < 2 ^ 32 → decodeT w = .ok i → encodeT i = some w ∧ i.wf = true)
    ∧ (∀ f w, (Instr.peElementwiseA f).wf = true → encodeAM (.peElementwiseA f) = some w →
        w < 2 ^ 32 ∧ decodeAM false w = .ok (some (.peElementwiseA f)))
    ∧ (∀ f w, (Instr.peElementwiseM f).wf = true → encodeAM (.peElementwiseM f) = some w →
        w < 2 ^ 32 ∧ decodeAM true w = .ok (some (.peElementwiseM f)))
    ∧ (∀ f w, (Instr.peDotStep f).wf = true → encodeAM (.peDotStep f) = some w →
        w < 2 ^ 32 ∧ decodeAM true w = .ok (some (.peDotStep f)))
end

