-- ==== Sys2Proof/Laws/Memory.lean ====
section
/-! SUPPORT. Laws of the canonical maps and of the memory operations: read after write, and the canonical form is kept
by every operation on memory. -/

namespace Sys2Proof.Machine

/-! ## Canonical maps -/

theorem nmap_wfFrom_weaken {α : Type} [DecidableEq α] (d : α) (m : NMap α) {lo lo' : Nat} (h : lo' ≤ lo)
    (w : NMap.wfFrom d lo m = true) : NMap.wfFrom d lo' m = true := by
  cases m with
  | nil => rfl
  | cons p r =>
    simp only [NMap.wfFrom, Bool.and_eq_true, decide_eq_true_eq] at w ⊢
    exact ⟨⟨Nat.le_trans h w.1.1, w.1.2⟩, w.2⟩

/-- A key below the bound of a map holds the default. -/
theorem nmap_get_below {α : Type} [DecidableEq α] (d : α) (m : NMap α) (lo n : Nat) (w : NMap.wfFrom d lo m = true)
    (h : n < lo) : NMap.get d m n = d := by
  induction m generalizing lo with
  | nil => rfl
  | cons p r ih =>
    obtain ⟨k, v⟩ := p
    simp only [NMap.wfFrom, Bool.and_eq_true, decide_eq_true_eq] at w
    have hk : k ≠ n := by omega
    simp only [NMap.get, if_neg hk]
    exact ih (k + 1) w.2 (by omega)

theorem nmap_set_wfFrom {α : Type} [DecidableEq α] (d : α) (m : NMap α) (lo n : Nat) (v : α)
    (w : NMap.wfFrom d lo m = true) (h : lo ≤ n) : NMap.wfFrom d lo (NMap.set d m n v) = true := by
  induction m generalizing lo with
  | nil => by_cases hv : v = d <;> simp [NMap.set, NMap.wfFrom, hv, h]
  | cons p r ih =>
    obtain ⟨k, x⟩ := p
    simp only [NMap.wfFrom, Bool.and_eq_true, decide_eq_true_eq] at w
    obtain ⟨⟨hl, hx⟩, hr⟩ := w
    unfold NMap.set
    split
    · split
      · simp [NMap.wfFrom, hl, hx, hr]
      · rename_i hn hv
        have hnk : n + 1 ≤ k := by omega
        simp [NMap.wfFrom, hx, hr, h, hv, hnk]
    · split
      · subst_vars
        split
        · exact nmap_wfFrom_weaken d r (by omega) hr
        · simp [NMap.wfFrom, *]
      · simp [NMap.wfFrom, hl, hx, ih (k + 1) hr (by omega)]

theorem nmap_set_wf {α : Type} [DecidableEq α] (d : α) (m : NMap α) (n : Nat) (v : α) (w : NMap.wf d m = true) :
    NMap.wf d (NMap.set d m n v) = true := nmap_set_wfFrom d m 0 n v w (Nat.zero_le n)

theorem nmap_get_set_same {α : Type} [DecidableEq α] (d : α) (m : NMap α) (lo n : Nat) (v : α)
    (w : NMap.wfFrom d lo m = true) : NMap.get d (NMap.set d m n v) n = v := by
  induction m generalizing lo with
  | nil => by_cases hv : v = d <;> simp [NMap.set, NMap.get, hv]
  | cons p r ih =>
    obtain ⟨k, x⟩ := p
    simp only [NMap.wfFrom, Bool.and_eq_true, decide_eq_true_eq] at w
    obtain ⟨⟨hl, hx⟩, hr⟩ := w
    unfold NMap.set
    split
    · split
      · rename_i hv
        have hk : k ≠ n := by omega
        rw [hv]
        simp only [NMap.get, if_neg hk]
        exact nmap_get_below d r (k + 1) n hr (by omega)
      · simp [NMap.get]
    · split
      · subst_vars
        split
        · rename_i hv
          rw [hv]
          exact nmap_get_below d r _ _ hr (by omega)
        · simp [NMap.get]
      · have hk : k ≠ n := by omega
        simp only [NMap.get, if_neg hk]
        exact ih (k + 1) hr

theorem nmap_get_set_other {α : Type} [DecidableEq α] (d : α) (m : NMap α) (n i : Nat) (v : α) (h : i ≠ n) :
    NMap.get d (NMap.set d m n v) i = NMap.get d m i := by
  induction m with
  | nil => by_cases hv : v = d <;> simp [NMap.set, NMap.get, hv, Ne.symm h]
  | cons p r ih =>
    obtain ⟨k, x⟩ := p
    unfold NMap.set
    split
    · split <;> simp [NMap.get, Ne.symm h]
    · split
      · subst_vars
        split <;> simp [NMap.get, Ne.symm h]
      · simp only [NMap.get, ih]

theorem nmap_cut_wfFrom {α : Type} [DecidableEq α] (d : α) (m : NMap α) (lo a b : Nat)
    (w : NMap.wfFrom d lo m = true) : NMap.wfFrom d lo (NMap.cut m a b) = true := by
  induction m generalizing lo with
  | nil => rfl
  | cons p r ih =>
    simp only [NMap.wfFrom, Bool.and_eq_true, decide_eq_true_eq] at w
    have hr := ih (p.1 + 1) w.2
    by_cases hp : a ≤ p.1 ∧ p.1 < b
    · have : NMap.cut (p :: r) a b = NMap.cut r a b := by simp [NMap.cut, hp]
      rw [this]
      exact nmap_wfFrom_weaken d _ (by omega) hr
    · have : NMap.cut (p :: r) a b = p :: NMap.cut r a b := by
        simp only [NMap.cut, List.filter_cons]
        rw [if_pos]
        rcases Nat.lt_or_ge p.1 a with h1 | h1
        · simp [Nat.not_le.mpr h1]
        · have h2 : ¬ p.1 < b := fun h2 => hp ⟨h1, h2⟩
          simp [h2]
      rw [this]
      simp [NMap.wfFrom, w.1.1, w.1.2, hr]

/-- Two canonical maps that read alike are the same data. -/
theorem nmap_ext {α : Type} [DecidableEq α] (d : α) (m m' : NMap α) (lo : Nat) (w : NMap.wfFrom d lo m = true)
    (w' : NMap.wfFrom d lo m' = true) (h : ∀ n, NMap.get d m n = NMap.get d m' n) : m = m' := by
  induction m generalizing lo m' with
  | nil =>
    cases m' with
    | nil => rfl
    | cons p r =>
      obtain ⟨k, v⟩ := p
      simp only [NMap.wfFrom, Bool.and_eq_true, decide_eq_true_eq] at w'
      have := h k
      simp [NMap.get] at this
      exact absurd this.symm w'.1.2
  | cons p r ih =>
    obtain ⟨k, v⟩ := p
    simp only [NMap.wfFrom, Bool.and_eq_true, decide_eq_true_eq] at w
    cases m' with
    | nil =>
      have := h k
      simp [NMap.get] at this
      exact absurd this w.1.2
    | cons q r' =>
      obtain ⟨k', v'⟩ := q
      simp only [NMap.wfFrom, Bool.and_eq_true, decide_eq_true_eq] at w'
      have hk : k = k' := by
        rcases Nat.lt_trichotomy k k' with hlt | heq | hgt
        · have := h k
          have hne : k' ≠ k := by omega
          simp only [NMap.get, if_neg hne, ↓reduceIte] at this
          rw [nmap_get_below d r' (k' + 1) k w'.2 (by omega)] at this
          exact absurd this w.1.2
        · exact heq
        · have := h k'
          have hne : k ≠ k' := by omega
          simp only [NMap.get, if_neg hne, ↓reduceIte] at this
          rw [nmap_get_below d r (k + 1) k' w.2 (by omega)] at this
          exact absurd this.symm w'.1.2
      subst hk
      have hv : v = v' := by simpa [NMap.get] using h k
      subst hv
      congr 1
      refine ih r' (k + 1) w.2 w'.2 fun n => ?_
      by_cases hn : k = n
      · subst hn
        rw [nmap_get_below d r (k + 1) k w.2 (by omega), nmap_get_below d r' (k + 1) k w'.2 (by omega)]
      · simpa [NMap.get, if_neg hn] using h n

/-! ## Memory operations keep the canonical form -/

theorem memWrite_wf (m : List Host.Cell) (key : Nat) (bs : List Byte) (w : Memory.wf m = true) :
    Memory.wf (memWrite m key bs) = true := by
  induction bs generalizing m key with
  | nil => exact w
  | cons b r ih => exact ih _ _ (nmap_set_wf _ _ _ _ w)

theorem setByte_wf (s : State) (key : Nat) (b : Byte) (w : Memory.wf s.mem = true) :
    Memory.wf (s.setByte key b).mem = true := nmap_set_wf _ _ _ _ w

theorem writeBytes_wf (s : State) (key : Nat) (bs : List Byte) (w : Memory.wf s.mem = true) :
    Memory.wf (s.writeBytes key bs).mem = true := memWrite_wf _ _ _ w

theorem writeValue_wf (s : State) (key n v : Nat) (w : Memory.wf s.mem = true) :
    Memory.wf (s.writeValue key n v).mem = true := memWrite_wf _ _ _ w

theorem setFull_mem (s : State) (k : Nat) (b : Bool) : (s.setFull k b).mem = s.mem := rfl

theorem setFullAll_mem (s : State) (ks : List Nat) (b : Bool) : (s.setFullAll ks b).mem = s.mem := by
  unfold State.setFullAll
  induction ks generalizing s with
  | nil => rfl
  | cons k r ih => simp only [List.foldl_cons]; rw [ih]; rfl

theorem markStale_mem (s : State) (key n : Nat) (who : Option (CtxId × Nat)) : (s.markStale key n who).mem = s.mem := by
  unfold State.markStale
  split <;> rfl

theorem storeBytes_mem (s : State) (key : Nat) (bs : List Byte) (who : Option (CtxId × Nat)) :
    (s.storeBytes key bs who).mem = memWrite s.mem key bs := by
  simp only [State.storeBytes, State.renewCodes, State.writeBytes, markStale_mem]

theorem storeBytes_wf (s : State) (key : Nat) (bs : List Byte) (who : Option (CtxId × Nat)) (w : Memory.wf s.mem = true) :
    Memory.wf (s.storeBytes key bs who).mem = true := by
  rw [storeBytes_mem]
  exact memWrite_wf _ _ _ w

theorem zeroRange_wf (s : State) (key n : Nat) (w : Memory.wf s.mem = true) :
    Memory.wf (s.zeroRange key n).mem = true := nmap_cut_wfFrom _ _ _ _ _ w

theorem emptyRange_mem (s : State) (key n : Nat) : (s.emptyRange key n).mem = s.mem := rfl

theorem copyRange_wf (s : State) (src dst n : Nat) (w : Memory.wf s.mem = true) :
    Memory.wf (s.copyRange src dst n).mem = true := by
  have key (l : List Host.Cell) (m : List Host.Cell) (hm : Memory.wf m = true) :
      Memory.wf (l.foldl (fun m p => NMap.set emptyByte m (p.1 - src + dst) p.2) m) = true := by
    induction l generalizing m with
    | nil => exact hm
    | cons p r ih => exact ih _ (nmap_set_wf _ _ _ _ hm)
  exact key _ _ (zeroRange_wf s dst n w)

/-! ## Read after write -/

theorem byte_setByte_same (s : State) (key : Nat) (b : Byte) (w : Memory.wf s.mem = true) :
    (s.setByte key b).byte key = b := nmap_get_set_same _ _ 0 _ _ w

theorem byte_setByte_other (s : State) (key i : Nat) (b : Byte) (h : i ≠ key) : (s.setByte key b).byte i = s.byte i :=
  nmap_get_set_other _ _ _ _ _ h

/-- A write leaves every byte outside it alone. -/
theorem memWrite_other (m : List Host.Cell) (key i : Nat) (bs : List Byte) (h : i < key ∨ key + bs.length ≤ i) :
    NMap.get emptyByte (memWrite m key bs) i = NMap.get emptyByte m i := by
  induction bs generalizing m key with
  | nil => rfl
  | cons b r ih =>
    simp only [List.length_cons] at h
    rw [memWrite, ih _ _ (by omega), nmap_get_set_other _ _ _ _ _ (by omega)]

/-- A byte of a write reads as it was written. -/
theorem memWrite_same (m : List Host.Cell) (key i : Nat) (bs : List Byte) (h : i < bs.length)
    (w : Memory.wf m = true) : NMap.get emptyByte (memWrite m key bs) (key + i) = bs[i] := by
  induction bs generalizing m key i with
  | nil => simp at h
  | cons b r ih =>
    rw [memWrite]
    cases i with
    | zero =>
      rw [memWrite_other _ _ _ _ (by omega)]
      exact nmap_get_set_same _ _ 0 _ _ w
    | succ i =>
      have := ih (NMap.set emptyByte m key b) (key + 1) i (by simpa using h) (nmap_set_wf _ _ _ _ w)
      rw [show key + (i + 1) = key + 1 + i by omega]
      simpa using this

theorem byte_storeBytes_other (s : State) (key i : Nat) (bs : List Byte) (who : Option (CtxId × Nat))
    (h : i < key ∨ key + bs.length ≤ i) : (s.storeBytes key bs who).byte i = s.byte i := by
  simp only [State.byte, storeBytes_mem]
  exact memWrite_other _ _ _ _ h

end Sys2Proof.Machine
end

