-- ==== Sys2Proof/Laws/State.lean ====
section
/-! SUPPORT. What each update of State does to each field. -/

namespace Sys2Proof.Machine

/-! ## stage -/

@[simp] theorem State.stage_clk (s : State) (w : BWrite) : (s.stage w).clk = s.clk := rfl
@[simp] theorem State.stage_gtime (s : State) (w : BWrite) : (s.stage w).gtime = s.gtime := rfl
@[simp] theorem State.stage_locked (s : State) (w : BWrite) : (s.stage w).locked = s.locked := rfl
@[simp] theorem State.stage_c (s : State) (w : BWrite) : (s.stage w).c = s.c := rfl
@[simp] theorem State.stage_others (s : State) (w : BWrite) : (s.stage w).others = s.others := rfl
@[simp] theorem State.stage_tiles (s : State) (w : BWrite) : (s.stage w).tiles = s.tiles := rfl
@[simp] theorem State.stage_mem (s : State) (w : BWrite) : (s.stage w).mem = s.mem := rfl
@[simp] theorem State.stage_full (s : State) (w : BWrite) : (s.stage w).full = s.full := rfl
@[simp] theorem State.stage_bad (s : State) (w : BWrite) : (s.stage w).bad = s.bad := rfl
@[simp] theorem State.stage_soft (s : State) (w : BWrite) : (s.stage w).soft = s.soft := rfl
@[simp] theorem State.stage_reported (s : State) (w : BWrite) : (s.stage w).reported = s.reported := rfl
@[simp] theorem State.stage_bankOwner (s : State) (w : BWrite) : (s.stage w).bankOwner = s.bankOwner := rfl
@[simp] theorem State.stage_lastPort (s : State) (w : BWrite) : (s.stage w).lastPort = s.lastPort := rfl
@[simp] theorem State.stage_hreg (s : State) (w : BWrite) : (s.stage w).hreg = s.hreg := rfl
@[simp] theorem State.stage_split (s : State) (w : BWrite) : (s.stage w).split = s.split := rfl
@[simp] theorem State.stage_hub (s : State) (w : BWrite) : (s.stage w).hub = s.hub := rfl
@[simp] theorem State.stage_stamp (s : State) (w : BWrite) : (s.stage w).stamp = s.stamp := rfl
@[simp] theorem State.stage_micro (s : State) (w : BWrite) : (s.stage w).micro = s.micro := rfl
@[simp] theorem State.stage_bundle (s : State) (w : BWrite) : (s.stage w).bundle = { s.bundle with writes := s.bundle.writes ++ [w] } := rfl
@[simp] theorem State.stage_agenda (s : State) (w : BWrite) : (s.stage w).agenda = s.agenda := rfl
@[simp] theorem State.stage_free (s : State) (w : BWrite) : (s.stage w).free = s.free := rfl

/-! ## hold -/

@[simp] theorem State.hold_clk (s : State) (h : Hold) : (s.hold h).clk = s.clk := rfl
@[simp] theorem State.hold_gtime (s : State) (h : Hold) : (s.hold h).gtime = s.gtime := rfl
@[simp] theorem State.hold_locked (s : State) (h : Hold) : (s.hold h).locked = s.locked := rfl
@[simp] theorem State.hold_c (s : State) (h : Hold) : (s.hold h).c = s.c := rfl
@[simp] theorem State.hold_others (s : State) (h : Hold) : (s.hold h).others = s.others := rfl
@[simp] theorem State.hold_tiles (s : State) (h : Hold) : (s.hold h).tiles = s.tiles := rfl
@[simp] theorem State.hold_mem (s : State) (h : Hold) : (s.hold h).mem = s.mem := rfl
@[simp] theorem State.hold_full (s : State) (h : Hold) : (s.hold h).full = s.full := rfl
@[simp] theorem State.hold_bad (s : State) (h : Hold) : (s.hold h).bad = s.bad := rfl
@[simp] theorem State.hold_soft (s : State) (h : Hold) : (s.hold h).soft = s.soft := rfl
@[simp] theorem State.hold_reported (s : State) (h : Hold) : (s.hold h).reported = s.reported := rfl
@[simp] theorem State.hold_bankOwner (s : State) (h : Hold) : (s.hold h).bankOwner = s.bankOwner := rfl
@[simp] theorem State.hold_lastPort (s : State) (h : Hold) : (s.hold h).lastPort = s.lastPort := rfl
@[simp] theorem State.hold_hreg (s : State) (h : Hold) : (s.hold h).hreg = s.hreg := rfl
@[simp] theorem State.hold_split (s : State) (h : Hold) : (s.hold h).split = s.split := rfl
@[simp] theorem State.hold_hub (s : State) (h : Hold) : (s.hold h).hub = s.hub := rfl
@[simp] theorem State.hold_stamp (s : State) (h : Hold) : (s.hold h).stamp = s.stamp := rfl
@[simp] theorem State.hold_micro (s : State) (h : Hold) : (s.hold h).micro = s.micro := rfl
@[simp] theorem State.hold_bundle (s : State) (h : Hold) : (s.hold h).bundle = { s.bundle with holds := s.bundle.holds ++ [h] } := rfl
@[simp] theorem State.hold_agenda (s : State) (h : Hold) : (s.hold h).agenda = s.agenda := rfl
@[simp] theorem State.hold_free (s : State) (h : Hold) : (s.hold h).free = s.free := rfl

/-! ## raise -/

@[simp] theorem State.raise_clk (s : State) (i : Nat) (x : Cause) (v : Word) : (s.raise i x v).clk = s.clk := rfl
@[simp] theorem State.raise_gtime (s : State) (i : Nat) (x : Cause) (v : Word) : (s.raise i x v).gtime = s.gtime := rfl
@[simp] theorem State.raise_locked (s : State) (i : Nat) (x : Cause) (v : Word) : (s.raise i x v).locked = s.locked := rfl
@[simp] theorem State.raise_c (s : State) (i : Nat) (x : Cause) (v : Word) : (s.raise i x v).c = s.c := rfl
@[simp] theorem State.raise_others (s : State) (i : Nat) (x : Cause) (v : Word) : (s.raise i x v).others = s.others := rfl
@[simp] theorem State.raise_tiles (s : State) (i : Nat) (x : Cause) (v : Word) : (s.raise i x v).tiles = s.tiles := rfl
@[simp] theorem State.raise_mem (s : State) (i : Nat) (x : Cause) (v : Word) : (s.raise i x v).mem = s.mem := rfl
@[simp] theorem State.raise_full (s : State) (i : Nat) (x : Cause) (v : Word) : (s.raise i x v).full = s.full := rfl
@[simp] theorem State.raise_bad (s : State) (i : Nat) (x : Cause) (v : Word) : (s.raise i x v).bad = s.bad := rfl
@[simp] theorem State.raise_soft (s : State) (i : Nat) (x : Cause) (v : Word) : (s.raise i x v).soft = s.soft := rfl
@[simp] theorem State.raise_reported (s : State) (i : Nat) (x : Cause) (v : Word) : (s.raise i x v).reported = s.reported := rfl
@[simp] theorem State.raise_bankOwner (s : State) (i : Nat) (x : Cause) (v : Word) : (s.raise i x v).bankOwner = s.bankOwner := rfl
@[simp] theorem State.raise_lastPort (s : State) (i : Nat) (x : Cause) (v : Word) : (s.raise i x v).lastPort = s.lastPort := rfl
@[simp] theorem State.raise_hreg (s : State) (i : Nat) (x : Cause) (v : Word) : (s.raise i x v).hreg = s.hreg := rfl
@[simp] theorem State.raise_split (s : State) (i : Nat) (x : Cause) (v : Word) : (s.raise i x v).split = s.split := rfl
@[simp] theorem State.raise_hub (s : State) (i : Nat) (x : Cause) (v : Word) : (s.raise i x v).hub = s.hub := rfl
@[simp] theorem State.raise_stamp (s : State) (i : Nat) (x : Cause) (v : Word) : (s.raise i x v).stamp = s.stamp := rfl
@[simp] theorem State.raise_micro (s : State) (i : Nat) (x : Cause) (v : Word) : (s.raise i x v).micro = s.micro := rfl
@[simp] theorem State.raise_bundle (s : State) (i : Nat) (x : Cause) (v : Word) : (s.raise i x v).bundle = { s.bundle with traps := s.bundle.traps ++ [(i, x, v)] } := rfl
@[simp] theorem State.raise_agenda (s : State) (i : Nat) (x : Cause) (v : Word) : (s.raise i x v).agenda = s.agenda := rfl
@[simp] theorem State.raise_free (s : State) (i : Nat) (x : Cause) (v : Word) : (s.raise i x v).free = s.free := rfl

/-! ## setByte -/

@[simp] theorem State.setByte_clk (s : State) (k : Nat) (b : Byte) : (s.setByte k b).clk = s.clk := rfl
@[simp] theorem State.setByte_gtime (s : State) (k : Nat) (b : Byte) : (s.setByte k b).gtime = s.gtime := rfl
@[simp] theorem State.setByte_locked (s : State) (k : Nat) (b : Byte) : (s.setByte k b).locked = s.locked := rfl
@[simp] theorem State.setByte_c (s : State) (k : Nat) (b : Byte) : (s.setByte k b).c = s.c := rfl
@[simp] theorem State.setByte_others (s : State) (k : Nat) (b : Byte) : (s.setByte k b).others = s.others := rfl
@[simp] theorem State.setByte_tiles (s : State) (k : Nat) (b : Byte) : (s.setByte k b).tiles = s.tiles := rfl
@[simp] theorem State.setByte_mem (s : State) (k : Nat) (b : Byte) : (s.setByte k b).mem = NMap.set emptyByte s.mem k b := rfl
@[simp] theorem State.setByte_full (s : State) (k : Nat) (b : Byte) : (s.setByte k b).full = s.full := rfl
@[simp] theorem State.setByte_bad (s : State) (k : Nat) (b : Byte) : (s.setByte k b).bad = s.bad := rfl
@[simp] theorem State.setByte_soft (s : State) (k : Nat) (b : Byte) : (s.setByte k b).soft = s.soft := rfl
@[simp] theorem State.setByte_reported (s : State) (k : Nat) (b : Byte) : (s.setByte k b).reported = s.reported := rfl
@[simp] theorem State.setByte_bankOwner (s : State) (k : Nat) (b : Byte) : (s.setByte k b).bankOwner = s.bankOwner := rfl
@[simp] theorem State.setByte_lastPort (s : State) (k : Nat) (b : Byte) : (s.setByte k b).lastPort = s.lastPort := rfl
@[simp] theorem State.setByte_hreg (s : State) (k : Nat) (b : Byte) : (s.setByte k b).hreg = s.hreg := rfl
@[simp] theorem State.setByte_split (s : State) (k : Nat) (b : Byte) : (s.setByte k b).split = s.split := rfl
@[simp] theorem State.setByte_hub (s : State) (k : Nat) (b : Byte) : (s.setByte k b).hub = s.hub := rfl
@[simp] theorem State.setByte_stamp (s : State) (k : Nat) (b : Byte) : (s.setByte k b).stamp = s.stamp := rfl
@[simp] theorem State.setByte_micro (s : State) (k : Nat) (b : Byte) : (s.setByte k b).micro = s.micro := rfl
@[simp] theorem State.setByte_bundle (s : State) (k : Nat) (b : Byte) : (s.setByte k b).bundle = s.bundle := rfl
@[simp] theorem State.setByte_agenda (s : State) (k : Nat) (b : Byte) : (s.setByte k b).agenda = s.agenda := rfl
@[simp] theorem State.setByte_free (s : State) (k : Nat) (b : Byte) : (s.setByte k b).free = s.free := rfl

/-! ## writeBytes -/

@[simp] theorem State.writeBytes_clk (s : State) (k : Nat) (bs : List Byte) : (s.writeBytes k bs).clk = s.clk := rfl
@[simp] theorem State.writeBytes_gtime (s : State) (k : Nat) (bs : List Byte) : (s.writeBytes k bs).gtime = s.gtime := rfl
@[simp] theorem State.writeBytes_locked (s : State) (k : Nat) (bs : List Byte) : (s.writeBytes k bs).locked = s.locked := rfl
@[simp] theorem State.writeBytes_c (s : State) (k : Nat) (bs : List Byte) : (s.writeBytes k bs).c = s.c := rfl
@[simp] theorem State.writeBytes_others (s : State) (k : Nat) (bs : List Byte) : (s.writeBytes k bs).others = s.others := rfl
@[simp] theorem State.writeBytes_tiles (s : State) (k : Nat) (bs : List Byte) : (s.writeBytes k bs).tiles = s.tiles := rfl
@[simp] theorem State.writeBytes_mem (s : State) (k : Nat) (bs : List Byte) : (s.writeBytes k bs).mem = memWrite s.mem k bs := rfl
@[simp] theorem State.writeBytes_full (s : State) (k : Nat) (bs : List Byte) : (s.writeBytes k bs).full = s.full := rfl
@[simp] theorem State.writeBytes_bad (s : State) (k : Nat) (bs : List Byte) : (s.writeBytes k bs).bad = s.bad := rfl
@[simp] theorem State.writeBytes_soft (s : State) (k : Nat) (bs : List Byte) : (s.writeBytes k bs).soft = s.soft := rfl
@[simp] theorem State.writeBytes_reported (s : State) (k : Nat) (bs : List Byte) : (s.writeBytes k bs).reported = s.reported := rfl
@[simp] theorem State.writeBytes_bankOwner (s : State) (k : Nat) (bs : List Byte) : (s.writeBytes k bs).bankOwner = s.bankOwner := rfl
@[simp] theorem State.writeBytes_lastPort (s : State) (k : Nat) (bs : List Byte) : (s.writeBytes k bs).lastPort = s.lastPort := rfl
@[simp] theorem State.writeBytes_hreg (s : State) (k : Nat) (bs : List Byte) : (s.writeBytes k bs).hreg = s.hreg := rfl
@[simp] theorem State.writeBytes_split (s : State) (k : Nat) (bs : List Byte) : (s.writeBytes k bs).split = s.split := rfl
@[simp] theorem State.writeBytes_hub (s : State) (k : Nat) (bs : List Byte) : (s.writeBytes k bs).hub = s.hub := rfl
@[simp] theorem State.writeBytes_stamp (s : State) (k : Nat) (bs : List Byte) : (s.writeBytes k bs).stamp = s.stamp := rfl
@[simp] theorem State.writeBytes_micro (s : State) (k : Nat) (bs : List Byte) : (s.writeBytes k bs).micro = s.micro := rfl
@[simp] theorem State.writeBytes_bundle (s : State) (k : Nat) (bs : List Byte) : (s.writeBytes k bs).bundle = s.bundle := rfl
@[simp] theorem State.writeBytes_agenda (s : State) (k : Nat) (bs : List Byte) : (s.writeBytes k bs).agenda = s.agenda := rfl
@[simp] theorem State.writeBytes_free (s : State) (k : Nat) (bs : List Byte) : (s.writeBytes k bs).free = s.free := rfl

/-! ## setFull -/

@[simp] theorem State.setFull_clk (s : State) (k : Nat) (b : Bool) : (s.setFull k b).clk = s.clk := rfl
@[simp] theorem State.setFull_gtime (s : State) (k : Nat) (b : Bool) : (s.setFull k b).gtime = s.gtime := rfl
@[simp] theorem State.setFull_locked (s : State) (k : Nat) (b : Bool) : (s.setFull k b).locked = s.locked := rfl
@[simp] theorem State.setFull_c (s : State) (k : Nat) (b : Bool) : (s.setFull k b).c = s.c := rfl
@[simp] theorem State.setFull_others (s : State) (k : Nat) (b : Bool) : (s.setFull k b).others = s.others := rfl
@[simp] theorem State.setFull_tiles (s : State) (k : Nat) (b : Bool) : (s.setFull k b).tiles = s.tiles := rfl
@[simp] theorem State.setFull_mem (s : State) (k : Nat) (b : Bool) : (s.setFull k b).mem = s.mem := rfl
@[simp] theorem State.setFull_full (s : State) (k : Nat) (b : Bool) : (s.setFull k b).full = NMap.set false s.full (k / 8) b := rfl
@[simp] theorem State.setFull_bad (s : State) (k : Nat) (b : Bool) : (s.setFull k b).bad = s.bad := rfl
@[simp] theorem State.setFull_soft (s : State) (k : Nat) (b : Bool) : (s.setFull k b).soft = s.soft := rfl
@[simp] theorem State.setFull_reported (s : State) (k : Nat) (b : Bool) : (s.setFull k b).reported = s.reported := rfl
@[simp] theorem State.setFull_bankOwner (s : State) (k : Nat) (b : Bool) : (s.setFull k b).bankOwner = s.bankOwner := rfl
@[simp] theorem State.setFull_lastPort (s : State) (k : Nat) (b : Bool) : (s.setFull k b).lastPort = s.lastPort := rfl
@[simp] theorem State.setFull_hreg (s : State) (k : Nat) (b : Bool) : (s.setFull k b).hreg = s.hreg := rfl
@[simp] theorem State.setFull_split (s : State) (k : Nat) (b : Bool) : (s.setFull k b).split = s.split := rfl
@[simp] theorem State.setFull_hub (s : State) (k : Nat) (b : Bool) : (s.setFull k b).hub = s.hub := rfl
@[simp] theorem State.setFull_stamp (s : State) (k : Nat) (b : Bool) : (s.setFull k b).stamp = s.stamp := rfl
@[simp] theorem State.setFull_micro (s : State) (k : Nat) (b : Bool) : (s.setFull k b).micro = s.micro := rfl
@[simp] theorem State.setFull_bundle (s : State) (k : Nat) (b : Bool) : (s.setFull k b).bundle = s.bundle := rfl
@[simp] theorem State.setFull_agenda (s : State) (k : Nat) (b : Bool) : (s.setFull k b).agenda = s.agenda := rfl
@[simp] theorem State.setFull_free (s : State) (k : Nat) (b : Bool) : (s.setFull k b).free = s.free := rfl

/-! ## setTile -/

@[simp] theorem State.setTile_clk (s : State) (r : Tile) : (s.setTile r).clk = s.clk := rfl
@[simp] theorem State.setTile_gtime (s : State) (r : Tile) : (s.setTile r).gtime = s.gtime := rfl
@[simp] theorem State.setTile_locked (s : State) (r : Tile) : (s.setTile r).locked = s.locked := rfl
@[simp] theorem State.setTile_c (s : State) (r : Tile) : (s.setTile r).c = s.c := rfl
@[simp] theorem State.setTile_others (s : State) (r : Tile) : (s.setTile r).others = s.others := rfl
@[simp] theorem State.setTile_tiles (s : State) (r : Tile) : (s.setTile r).tiles = setTileIn r s.tiles := rfl
@[simp] theorem State.setTile_mem (s : State) (r : Tile) : (s.setTile r).mem = s.mem := rfl
@[simp] theorem State.setTile_full (s : State) (r : Tile) : (s.setTile r).full = s.full := rfl
@[simp] theorem State.setTile_bad (s : State) (r : Tile) : (s.setTile r).bad = s.bad := rfl
@[simp] theorem State.setTile_soft (s : State) (r : Tile) : (s.setTile r).soft = s.soft := rfl
@[simp] theorem State.setTile_reported (s : State) (r : Tile) : (s.setTile r).reported = s.reported := rfl
@[simp] theorem State.setTile_bankOwner (s : State) (r : Tile) : (s.setTile r).bankOwner = s.bankOwner := rfl
@[simp] theorem State.setTile_lastPort (s : State) (r : Tile) : (s.setTile r).lastPort = s.lastPort := rfl
@[simp] theorem State.setTile_hreg (s : State) (r : Tile) : (s.setTile r).hreg = s.hreg := rfl
@[simp] theorem State.setTile_split (s : State) (r : Tile) : (s.setTile r).split = s.split := rfl
@[simp] theorem State.setTile_hub (s : State) (r : Tile) : (s.setTile r).hub = s.hub := rfl
@[simp] theorem State.setTile_stamp (s : State) (r : Tile) : (s.setTile r).stamp = s.stamp := rfl
@[simp] theorem State.setTile_micro (s : State) (r : Tile) : (s.setTile r).micro = s.micro := rfl
@[simp] theorem State.setTile_bundle (s : State) (r : Tile) : (s.setTile r).bundle = s.bundle := rfl
@[simp] theorem State.setTile_agenda (s : State) (r : Tile) : (s.setTile r).agenda = s.agenda := rfl
@[simp] theorem State.setTile_free (s : State) (r : Tile) : (s.setTile r).free = s.free := rfl

/-! ## hubFault -/

@[simp] theorem State.hubFault_clk (s : State) (i p t c : Nat) (l : List Word) : (s.hubFault i p t c l).clk = s.clk := rfl
@[simp] theorem State.hubFault_gtime (s : State) (i p t c : Nat) (l : List Word) : (s.hubFault i p t c l).gtime = s.gtime := rfl
@[simp] theorem State.hubFault_locked (s : State) (i p t c : Nat) (l : List Word) : (s.hubFault i p t c l).locked = s.locked := rfl
@[simp] theorem State.hubFault_c (s : State) (i p t c : Nat) (l : List Word) : (s.hubFault i p t c l).c = s.c := rfl
@[simp] theorem State.hubFault_others (s : State) (i p t c : Nat) (l : List Word) : (s.hubFault i p t c l).others = s.others := rfl
@[simp] theorem State.hubFault_tiles (s : State) (i p t c : Nat) (l : List Word) : (s.hubFault i p t c l).tiles = s.tiles := rfl
@[simp] theorem State.hubFault_mem (s : State) (i p t c : Nat) (l : List Word) : (s.hubFault i p t c l).mem = s.mem := rfl
@[simp] theorem State.hubFault_full (s : State) (i p t c : Nat) (l : List Word) : (s.hubFault i p t c l).full = s.full := rfl
@[simp] theorem State.hubFault_bad (s : State) (i p t c : Nat) (l : List Word) : (s.hubFault i p t c l).bad = s.bad := rfl
@[simp] theorem State.hubFault_soft (s : State) (i p t c : Nat) (l : List Word) : (s.hubFault i p t c l).soft = s.soft := rfl
@[simp] theorem State.hubFault_reported (s : State) (i p t c : Nat) (l : List Word) : (s.hubFault i p t c l).reported = s.reported := rfl
@[simp] theorem State.hubFault_bankOwner (s : State) (i p t c : Nat) (l : List Word) : (s.hubFault i p t c l).bankOwner = s.bankOwner := rfl
@[simp] theorem State.hubFault_lastPort (s : State) (i p t c : Nat) (l : List Word) : (s.hubFault i p t c l).lastPort = s.lastPort := rfl
@[simp] theorem State.hubFault_hreg (s : State) (i p t c : Nat) (l : List Word) : (s.hubFault i p t c l).hreg = s.hreg := rfl
@[simp] theorem State.hubFault_split (s : State) (i p t c : Nat) (l : List Word) : (s.hubFault i p t c l).split = s.split := rfl
@[simp] theorem State.hubFault_hub (s : State) (i p t c : Nat) (l : List Word) : (s.hubFault i p t c l).hub = { s.hub with faults := s.hub.faults ++ [⟨i, p, t, c, l⟩] } := rfl
@[simp] theorem State.hubFault_stamp (s : State) (i p t c : Nat) (l : List Word) : (s.hubFault i p t c l).stamp = s.stamp := rfl
@[simp] theorem State.hubFault_micro (s : State) (i p t c : Nat) (l : List Word) : (s.hubFault i p t c l).micro = s.micro := rfl
@[simp] theorem State.hubFault_bundle (s : State) (i p t c : Nat) (l : List Word) : (s.hubFault i p t c l).bundle = s.bundle := rfl
@[simp] theorem State.hubFault_agenda (s : State) (i p t c : Nat) (l : List Word) : (s.hubFault i p t c l).agenda = s.agenda := rfl
@[simp] theorem State.hubFault_free (s : State) (i p t c : Nat) (l : List Word) : (s.hubFault i p t c l).free = s.free := rfl

/-! ## Fields of the bundle -/

@[simp] theorem State.stageReg_of_fixed (s : State) (r : Reg) (v m : Line) (lat : Nat) (h : r.fixed = true) :
    s.stageReg r v m lat = s := if_pos h
theorem State.stageReg_of_free (s : State) (r : Reg) (v m : Line) (lat : Nat) (h : r.fixed = false) :
    s.stageReg r v m lat = s.stage (.reg r v m lat) := if_neg (by simp [h])

/-! ## Trace records change the trace ring and its counts alone -/

theorem State.traceAt_eq (s : State) (cls code tile part ctx : Nat) (l : List TField) :
    ∃ tr dr, s.traceAt cls code tile part ctx l = { s with hub := { s.hub with trace := tr, drops := dr } } := by
  have either (p : Prop) [Decidable p] (a b : State)
      (ha : ∃ tr dr, a = { s with hub := { s.hub with trace := tr, drops := dr } })
      (hb : ∃ tr dr, b = { s with hub := { s.hub with trace := tr, drops := dr } }) :
      ∃ tr dr, (if p then a else b) = { s with hub := { s.hub with trace := tr, drops := dr } } := by
    by_cases h : p
    · rw [if_pos h]; exact ha
    · rw [if_neg h]; exact hb
  exact either _ _ _ ⟨s.hub.trace, s.hub.drops, rfl⟩ (either _ _ _ ⟨_, _, rfl⟩ ⟨_, _, rfl⟩)

@[simp] theorem State.traceAt_clk (s : State) (a b t p k : Nat) (l : List TField) : (s.traceAt a b t p k l).clk = s.clk := by
  obtain ⟨_, _, h⟩ := s.traceAt_eq a b t p k l; rw [h]
@[simp] theorem State.trc_clk (s : State) (a b : Nat) (c : Ctx) (l : List TField) : (s.trc a b c l).clk = s.clk :=
  State.traceAt_clk ..
@[simp] theorem State.trcPkg_clk (s : State) (a b p : Nat) (l : List TField) : (s.trcPkg a b p l).clk = s.clk :=
  State.traceAt_clk ..

@[simp] theorem State.traceAt_gtime (s : State) (a b t p k : Nat) (l : List TField) : (s.traceAt a b t p k l).gtime = s.gtime := by
  obtain ⟨_, _, h⟩ := s.traceAt_eq a b t p k l; rw [h]
@[simp] theorem State.trc_gtime (s : State) (a b : Nat) (c : Ctx) (l : List TField) : (s.trc a b c l).gtime = s.gtime :=
  State.traceAt_gtime ..
@[simp] theorem State.trcPkg_gtime (s : State) (a b p : Nat) (l : List TField) : (s.trcPkg a b p l).gtime = s.gtime :=
  State.traceAt_gtime ..

@[simp] theorem State.traceAt_locked (s : State) (a b t p k : Nat) (l : List TField) : (s.traceAt a b t p k l).locked = s.locked := by
  obtain ⟨_, _, h⟩ := s.traceAt_eq a b t p k l; rw [h]
@[simp] theorem State.trc_locked (s : State) (a b : Nat) (c : Ctx) (l : List TField) : (s.trc a b c l).locked = s.locked :=
  State.traceAt_locked ..
@[simp] theorem State.trcPkg_locked (s : State) (a b p : Nat) (l : List TField) : (s.trcPkg a b p l).locked = s.locked :=
  State.traceAt_locked ..

@[simp] theorem State.traceAt_c (s : State) (a b t p k : Nat) (l : List TField) : (s.traceAt a b t p k l).c = s.c := by
  obtain ⟨_, _, h⟩ := s.traceAt_eq a b t p k l; rw [h]
@[simp] theorem State.trc_c (s : State) (a b : Nat) (c : Ctx) (l : List TField) : (s.trc a b c l).c = s.c :=
  State.traceAt_c ..
@[simp] theorem State.trcPkg_c (s : State) (a b p : Nat) (l : List TField) : (s.trcPkg a b p l).c = s.c :=
  State.traceAt_c ..

@[simp] theorem State.traceAt_others (s : State) (a b t p k : Nat) (l : List TField) : (s.traceAt a b t p k l).others = s.others := by
  obtain ⟨_, _, h⟩ := s.traceAt_eq a b t p k l; rw [h]
@[simp] theorem State.trc_others (s : State) (a b : Nat) (c : Ctx) (l : List TField) : (s.trc a b c l).others = s.others :=
  State.traceAt_others ..
@[simp] theorem State.trcPkg_others (s : State) (a b p : Nat) (l : List TField) : (s.trcPkg a b p l).others = s.others :=
  State.traceAt_others ..

@[simp] theorem State.traceAt_tiles (s : State) (a b t p k : Nat) (l : List TField) : (s.traceAt a b t p k l).tiles = s.tiles := by
  obtain ⟨_, _, h⟩ := s.traceAt_eq a b t p k l; rw [h]
@[simp] theorem State.trc_tiles (s : State) (a b : Nat) (c : Ctx) (l : List TField) : (s.trc a b c l).tiles = s.tiles :=
  State.traceAt_tiles ..
@[simp] theorem State.trcPkg_tiles (s : State) (a b p : Nat) (l : List TField) : (s.trcPkg a b p l).tiles = s.tiles :=
  State.traceAt_tiles ..

@[simp] theorem State.traceAt_mem (s : State) (a b t p k : Nat) (l : List TField) : (s.traceAt a b t p k l).mem = s.mem := by
  obtain ⟨_, _, h⟩ := s.traceAt_eq a b t p k l; rw [h]
@[simp] theorem State.trc_mem (s : State) (a b : Nat) (c : Ctx) (l : List TField) : (s.trc a b c l).mem = s.mem :=
  State.traceAt_mem ..
@[simp] theorem State.trcPkg_mem (s : State) (a b p : Nat) (l : List TField) : (s.trcPkg a b p l).mem = s.mem :=
  State.traceAt_mem ..

@[simp] theorem State.traceAt_full (s : State) (a b t p k : Nat) (l : List TField) : (s.traceAt a b t p k l).full = s.full := by
  obtain ⟨_, _, h⟩ := s.traceAt_eq a b t p k l; rw [h]
@[simp] theorem State.trc_full (s : State) (a b : Nat) (c : Ctx) (l : List TField) : (s.trc a b c l).full = s.full :=
  State.traceAt_full ..
@[simp] theorem State.trcPkg_full (s : State) (a b p : Nat) (l : List TField) : (s.trcPkg a b p l).full = s.full :=
  State.traceAt_full ..

@[simp] theorem State.traceAt_bad (s : State) (a b t p k : Nat) (l : List TField) : (s.traceAt a b t p k l).bad = s.bad := by
  obtain ⟨_, _, h⟩ := s.traceAt_eq a b t p k l; rw [h]
@[simp] theorem State.traceAt_soft (s : State) (a b t p k : Nat) (l : List TField) : (s.traceAt a b t p k l).soft = s.soft := by
  obtain ⟨_, _, h⟩ := s.traceAt_eq a b t p k l; rw [h]
@[simp] theorem State.traceAt_reported (s : State) (a b t p k : Nat) (l : List TField) : (s.traceAt a b t p k l).reported = s.reported := by
  obtain ⟨_, _, h⟩ := s.traceAt_eq a b t p k l; rw [h]
@[simp] theorem State.trc_bad (s : State) (a b : Nat) (c : Ctx) (l : List TField) : (s.trc a b c l).bad = s.bad :=
  State.traceAt_bad ..
@[simp] theorem State.trc_soft (s : State) (a b : Nat) (c : Ctx) (l : List TField) : (s.trc a b c l).soft = s.soft :=
  State.traceAt_soft ..
@[simp] theorem State.trc_reported (s : State) (a b : Nat) (c : Ctx) (l : List TField) : (s.trc a b c l).reported = s.reported :=
  State.traceAt_reported ..
@[simp] theorem State.trcPkg_bad (s : State) (a b p : Nat) (l : List TField) : (s.trcPkg a b p l).bad = s.bad :=
  State.traceAt_bad ..
@[simp] theorem State.trcPkg_soft (s : State) (a b p : Nat) (l : List TField) : (s.trcPkg a b p l).soft = s.soft :=
  State.traceAt_soft ..
@[simp] theorem State.trcPkg_reported (s : State) (a b p : Nat) (l : List TField) : (s.trcPkg a b p l).reported = s.reported :=
  State.traceAt_reported ..

@[simp] theorem State.traceAt_bankOwner (s : State) (a b t p k : Nat) (l : List TField) : (s.traceAt a b t p k l).bankOwner = s.bankOwner := by
  obtain ⟨_, _, h⟩ := s.traceAt_eq a b t p k l; rw [h]
@[simp] theorem State.traceAt_lastPort (s : State) (a b t p k : Nat) (l : List TField) : (s.traceAt a b t p k l).lastPort = s.lastPort := by
  obtain ⟨_, _, h⟩ := s.traceAt_eq a b t p k l; rw [h]
@[simp] theorem State.trc_bankOwner (s : State) (a b : Nat) (c : Ctx) (l : List TField) : (s.trc a b c l).bankOwner = s.bankOwner :=
  State.traceAt_bankOwner ..
@[simp] theorem State.trc_lastPort (s : State) (a b : Nat) (c : Ctx) (l : List TField) : (s.trc a b c l).lastPort = s.lastPort :=
  State.traceAt_lastPort ..
@[simp] theorem State.trcPkg_bankOwner (s : State) (a b p : Nat) (l : List TField) : (s.trcPkg a b p l).bankOwner = s.bankOwner :=
  State.traceAt_bankOwner ..
@[simp] theorem State.trcPkg_lastPort (s : State) (a b p : Nat) (l : List TField) : (s.trcPkg a b p l).lastPort = s.lastPort :=
  State.traceAt_lastPort ..

@[simp] theorem State.traceAt_hreg (s : State) (a b t p k : Nat) (l : List TField) : (s.traceAt a b t p k l).hreg = s.hreg := by
  obtain ⟨_, _, h⟩ := s.traceAt_eq a b t p k l; rw [h]
@[simp] theorem State.trc_hreg (s : State) (a b : Nat) (c : Ctx) (l : List TField) : (s.trc a b c l).hreg = s.hreg :=
  State.traceAt_hreg ..
@[simp] theorem State.trcPkg_hreg (s : State) (a b p : Nat) (l : List TField) : (s.trcPkg a b p l).hreg = s.hreg :=
  State.traceAt_hreg ..

@[simp] theorem State.traceAt_split (s : State) (a b t p k : Nat) (l : List TField) : (s.traceAt a b t p k l).split = s.split := by
  obtain ⟨_, _, h⟩ := s.traceAt_eq a b t p k l; rw [h]
@[simp] theorem State.trc_split (s : State) (a b : Nat) (c : Ctx) (l : List TField) : (s.trc a b c l).split = s.split :=
  State.traceAt_split ..
@[simp] theorem State.trcPkg_split (s : State) (a b p : Nat) (l : List TField) : (s.trcPkg a b p l).split = s.split :=
  State.traceAt_split ..

@[simp] theorem State.traceAt_stamp (s : State) (a b t p k : Nat) (l : List TField) : (s.traceAt a b t p k l).stamp = s.stamp := by
  obtain ⟨_, _, h⟩ := s.traceAt_eq a b t p k l; rw [h]
@[simp] theorem State.trc_stamp (s : State) (a b : Nat) (c : Ctx) (l : List TField) : (s.trc a b c l).stamp = s.stamp :=
  State.traceAt_stamp ..
@[simp] theorem State.trcPkg_stamp (s : State) (a b p : Nat) (l : List TField) : (s.trcPkg a b p l).stamp = s.stamp :=
  State.traceAt_stamp ..

@[simp] theorem State.traceAt_micro (s : State) (a b t p k : Nat) (l : List TField) : (s.traceAt a b t p k l).micro = s.micro := by
  obtain ⟨_, _, h⟩ := s.traceAt_eq a b t p k l; rw [h]
@[simp] theorem State.trc_micro (s : State) (a b : Nat) (c : Ctx) (l : List TField) : (s.trc a b c l).micro = s.micro :=
  State.traceAt_micro ..
@[simp] theorem State.trcPkg_micro (s : State) (a b p : Nat) (l : List TField) : (s.trcPkg a b p l).micro = s.micro :=
  State.traceAt_micro ..

@[simp] theorem State.traceAt_bundle (s : State) (a b t p k : Nat) (l : List TField) : (s.traceAt a b t p k l).bundle = s.bundle := by
  obtain ⟨_, _, h⟩ := s.traceAt_eq a b t p k l; rw [h]
@[simp] theorem State.trc_bundle (s : State) (a b : Nat) (c : Ctx) (l : List TField) : (s.trc a b c l).bundle = s.bundle :=
  State.traceAt_bundle ..
@[simp] theorem State.trcPkg_bundle (s : State) (a b p : Nat) (l : List TField) : (s.trcPkg a b p l).bundle = s.bundle :=
  State.traceAt_bundle ..

@[simp] theorem State.traceAt_agenda (s : State) (a b t p k : Nat) (l : List TField) : (s.traceAt a b t p k l).agenda = s.agenda := by
  obtain ⟨_, _, h⟩ := s.traceAt_eq a b t p k l; rw [h]
@[simp] theorem State.trc_agenda (s : State) (a b : Nat) (c : Ctx) (l : List TField) : (s.trc a b c l).agenda = s.agenda :=
  State.traceAt_agenda ..
@[simp] theorem State.trcPkg_agenda (s : State) (a b p : Nat) (l : List TField) : (s.trcPkg a b p l).agenda = s.agenda :=
  State.traceAt_agenda ..

@[simp] theorem State.traceAt_free (s : State) (a b t p k : Nat) (l : List TField) : (s.traceAt a b t p k l).free = s.free := by
  obtain ⟨_, _, h⟩ := s.traceAt_eq a b t p k l; rw [h]
@[simp] theorem State.trc_free (s : State) (a b : Nat) (c : Ctx) (l : List TField) : (s.trc a b c l).free = s.free :=
  State.traceAt_free ..
@[simp] theorem State.trcPkg_free (s : State) (a b p : Nat) (l : List TField) : (s.trcPkg a b p l).free = s.free :=
  State.traceAt_free ..

/-! ## A change of a context -/

theorem State.onCtx_current (s : State) (f : Ctx → Ctx) : s.onCtx s.c.id f = { s with c := f s.c } := if_pos rfl
@[simp] theorem State.onCtx_clk (s : State) (k : CtxId) (f : Ctx → Ctx) : (s.onCtx k f).clk = s.clk := by
  unfold State.onCtx; split <;> rfl
@[simp] theorem State.onCtx_gtime (s : State) (k : CtxId) (f : Ctx → Ctx) : (s.onCtx k f).gtime = s.gtime := by
  unfold State.onCtx; split <;> rfl
@[simp] theorem State.onCtx_locked (s : State) (k : CtxId) (f : Ctx → Ctx) : (s.onCtx k f).locked = s.locked := by
  unfold State.onCtx; split <;> rfl
@[simp] theorem State.onCtx_tiles (s : State) (k : CtxId) (f : Ctx → Ctx) : (s.onCtx k f).tiles = s.tiles := by
  unfold State.onCtx; split <;> rfl
@[simp] theorem State.onCtx_mem (s : State) (k : CtxId) (f : Ctx → Ctx) : (s.onCtx k f).mem = s.mem := by
  unfold State.onCtx; split <;> rfl
@[simp] theorem State.onCtx_full (s : State) (k : CtxId) (f : Ctx → Ctx) : (s.onCtx k f).full = s.full := by
  unfold State.onCtx; split <;> rfl
@[simp] theorem State.onCtx_bad (s : State) (k : CtxId) (f : Ctx → Ctx) : (s.onCtx k f).bad = s.bad := by
  unfold State.onCtx; split <;> rfl
@[simp] theorem State.onCtx_soft (s : State) (k : CtxId) (f : Ctx → Ctx) : (s.onCtx k f).soft = s.soft := by
  unfold State.onCtx; split <;> rfl
@[simp] theorem State.onCtx_reported (s : State) (k : CtxId) (f : Ctx → Ctx) : (s.onCtx k f).reported = s.reported := by
  unfold State.onCtx; split <;> rfl
@[simp] theorem State.onCtx_bankOwner (s : State) (k : CtxId) (f : Ctx → Ctx) : (s.onCtx k f).bankOwner = s.bankOwner := by
  unfold State.onCtx; split <;> rfl
@[simp] theorem State.onCtx_lastPort (s : State) (k : CtxId) (f : Ctx → Ctx) : (s.onCtx k f).lastPort = s.lastPort := by
  unfold State.onCtx; split <;> rfl
@[simp] theorem State.onCtx_hreg (s : State) (k : CtxId) (f : Ctx → Ctx) : (s.onCtx k f).hreg = s.hreg := by
  unfold State.onCtx; split <;> rfl
@[simp] theorem State.onCtx_split (s : State) (k : CtxId) (f : Ctx → Ctx) : (s.onCtx k f).split = s.split := by
  unfold State.onCtx; split <;> rfl
@[simp] theorem State.onCtx_hub (s : State) (k : CtxId) (f : Ctx → Ctx) : (s.onCtx k f).hub = s.hub := by
  unfold State.onCtx; split <;> rfl
@[simp] theorem State.onCtx_stamp (s : State) (k : CtxId) (f : Ctx → Ctx) : (s.onCtx k f).stamp = s.stamp := by
  unfold State.onCtx; split <;> rfl
@[simp] theorem State.onCtx_micro (s : State) (k : CtxId) (f : Ctx → Ctx) : (s.onCtx k f).micro = s.micro := by
  unfold State.onCtx; split <;> rfl
@[simp] theorem State.onCtx_bundle (s : State) (k : CtxId) (f : Ctx → Ctx) : (s.onCtx k f).bundle = s.bundle := by
  unfold State.onCtx; split <;> rfl
@[simp] theorem State.onCtx_agenda (s : State) (k : CtxId) (f : Ctx → Ctx) : (s.onCtx k f).agenda = s.agenda := by
  unfold State.onCtx; split <;> rfl
@[simp] theorem State.onCtx_free (s : State) (k : CtxId) (f : Ctx → Ctx) : (s.onCtx k f).free = s.free := by
  unfold State.onCtx; split <;> rfl

/-! ## Codes of storage -/

@[simp] theorem State.renewCodes_clk (s : State) (ks : List Nat) : (s.renewCodes ks).clk = s.clk := rfl
@[simp] theorem State.renewCodes_gtime (s : State) (ks : List Nat) : (s.renewCodes ks).gtime = s.gtime := rfl
@[simp] theorem State.renewCodes_locked (s : State) (ks : List Nat) : (s.renewCodes ks).locked = s.locked := rfl
@[simp] theorem State.renewCodes_c (s : State) (ks : List Nat) : (s.renewCodes ks).c = s.c := rfl
@[simp] theorem State.renewCodes_others (s : State) (ks : List Nat) : (s.renewCodes ks).others = s.others := rfl
@[simp] theorem State.renewCodes_tiles (s : State) (ks : List Nat) : (s.renewCodes ks).tiles = s.tiles := rfl
@[simp] theorem State.renewCodes_mem (s : State) (ks : List Nat) : (s.renewCodes ks).mem = s.mem := rfl
@[simp] theorem State.renewCodes_full (s : State) (ks : List Nat) : (s.renewCodes ks).full = s.full := rfl
@[simp] theorem State.renewCodes_bankOwner (s : State) (ks : List Nat) : (s.renewCodes ks).bankOwner = s.bankOwner := rfl
@[simp] theorem State.renewCodes_lastPort (s : State) (ks : List Nat) : (s.renewCodes ks).lastPort = s.lastPort := rfl
@[simp] theorem State.renewCodes_hreg (s : State) (ks : List Nat) : (s.renewCodes ks).hreg = s.hreg := rfl
@[simp] theorem State.renewCodes_split (s : State) (ks : List Nat) : (s.renewCodes ks).split = s.split := rfl
@[simp] theorem State.renewCodes_hub (s : State) (ks : List Nat) : (s.renewCodes ks).hub = s.hub := rfl
@[simp] theorem State.renewCodes_stamp (s : State) (ks : List Nat) : (s.renewCodes ks).stamp = s.stamp := rfl
@[simp] theorem State.renewCodes_micro (s : State) (ks : List Nat) : (s.renewCodes ks).micro = s.micro := rfl
@[simp] theorem State.renewCodes_bundle (s : State) (ks : List Nat) : (s.renewCodes ks).bundle = s.bundle := rfl
@[simp] theorem State.renewCodes_agenda (s : State) (ks : List Nat) : (s.renewCodes ks).agenda = s.agenda := rfl
@[simp] theorem State.renewCodes_free (s : State) (ks : List Nat) : (s.renewCodes ks).free = s.free := rfl

/-- What every step of a fold keeps, the fold keeps. -/
theorem foldl_keeps {β γ : Type} (g : State → γ) (f : State → β → State) (h : ∀ s x, g (f s x) = g s) (l : List β) (s : State) :
    g (l.foldl f s) = g s := by
  induction l generalizing s with
  | nil => rfl
  | cons x r ih => rw [List.foldl_cons, ih, h]

/-- Correcting and reporting errors changes the marks of the codes and what the hub counts and holds, and nothing else. -/
theorem State.noteErrors_keeps {γ : Type} (g : State → γ)
    (h : ∀ (s : State) (a b : NMap Bool) (x : Hub), g { s with soft := a, reported := b, hub := x } = g s) (s : State) (ks : List Nat) :
    g (s.noteErrors ks) = g s := by
  unfold State.noteErrors State.reportErrors State.correctCodes
  rw [foldl_keeps g, foldl_keeps g]
  · intro s k
    exact h s _ s.reported _
  · intro s k
    split
    · exact h s s.soft _ _
    · rfl

@[simp] theorem State.noteErrors_clk (s : State) (ks : List Nat) : (s.noteErrors ks).clk = s.clk :=
  s.noteErrors_keeps State.clk (fun _ _ _ _ => rfl) ks
@[simp] theorem State.noteErrors_gtime (s : State) (ks : List Nat) : (s.noteErrors ks).gtime = s.gtime :=
  s.noteErrors_keeps State.gtime (fun _ _ _ _ => rfl) ks
@[simp] theorem State.noteErrors_locked (s : State) (ks : List Nat) : (s.noteErrors ks).locked = s.locked :=
  s.noteErrors_keeps State.locked (fun _ _ _ _ => rfl) ks
@[simp] theorem State.noteErrors_c (s : State) (ks : List Nat) : (s.noteErrors ks).c = s.c :=
  s.noteErrors_keeps State.c (fun _ _ _ _ => rfl) ks
@[simp] theorem State.noteErrors_others (s : State) (ks : List Nat) : (s.noteErrors ks).others = s.others :=
  s.noteErrors_keeps State.others (fun _ _ _ _ => rfl) ks
@[simp] theorem State.noteErrors_tiles (s : State) (ks : List Nat) : (s.noteErrors ks).tiles = s.tiles :=
  s.noteErrors_keeps State.tiles (fun _ _ _ _ => rfl) ks
@[simp] theorem State.noteErrors_mem (s : State) (ks : List Nat) : (s.noteErrors ks).mem = s.mem :=
  s.noteErrors_keeps State.mem (fun _ _ _ _ => rfl) ks
@[simp] theorem State.noteErrors_full (s : State) (ks : List Nat) : (s.noteErrors ks).full = s.full :=
  s.noteErrors_keeps State.full (fun _ _ _ _ => rfl) ks
@[simp] theorem State.noteErrors_bad (s : State) (ks : List Nat) : (s.noteErrors ks).bad = s.bad :=
  s.noteErrors_keeps State.bad (fun _ _ _ _ => rfl) ks
@[simp] theorem State.noteErrors_bankOwner (s : State) (ks : List Nat) : (s.noteErrors ks).bankOwner = s.bankOwner :=
  s.noteErrors_keeps State.bankOwner (fun _ _ _ _ => rfl) ks
@[simp] theorem State.noteErrors_lastPort (s : State) (ks : List Nat) : (s.noteErrors ks).lastPort = s.lastPort :=
  s.noteErrors_keeps State.lastPort (fun _ _ _ _ => rfl) ks
@[simp] theorem State.noteErrors_hreg (s : State) (ks : List Nat) : (s.noteErrors ks).hreg = s.hreg :=
  s.noteErrors_keeps State.hreg (fun _ _ _ _ => rfl) ks
@[simp] theorem State.noteErrors_split (s : State) (ks : List Nat) : (s.noteErrors ks).split = s.split :=
  s.noteErrors_keeps State.split (fun _ _ _ _ => rfl) ks
@[simp] theorem State.noteErrors_stamp (s : State) (ks : List Nat) : (s.noteErrors ks).stamp = s.stamp :=
  s.noteErrors_keeps State.stamp (fun _ _ _ _ => rfl) ks
@[simp] theorem State.noteErrors_micro (s : State) (ks : List Nat) : (s.noteErrors ks).micro = s.micro :=
  s.noteErrors_keeps State.micro (fun _ _ _ _ => rfl) ks
@[simp] theorem State.noteErrors_bundle (s : State) (ks : List Nat) : (s.noteErrors ks).bundle = s.bundle :=
  s.noteErrors_keeps State.bundle (fun _ _ _ _ => rfl) ks
@[simp] theorem State.noteErrors_agenda (s : State) (ks : List Nat) : (s.noteErrors ks).agenda = s.agenda :=
  s.noteErrors_keeps State.agenda (fun _ _ _ _ => rfl) ks
@[simp] theorem State.noteErrors_free (s : State) (ks : List Nat) : (s.noteErrors ks).free = s.free :=
  s.noteErrors_keeps State.free (fun _ _ _ _ => rfl) ks

theorem noteErrors_ctx? (s : State) (ks : List Nat) (k : CtxId) : (s.noteErrors ks).ctx? k = s.ctx? k :=
  s.noteErrors_keeps (·.ctx? k) (fun _ _ _ _ => rfl) ks

/-- What a read reaches keeps whether its words hold uncorrectable errors. -/
theorem noteErrors_badRead (s : State) (ks : List Nat) (key n : Nat) : (s.noteErrors ks).badRead key n = s.badRead key n := by
  simp [State.badRead]

/-! ## A change of the firing under way -/

theorem State.onMicro_some (s : State) (m : Micro) (f : Micro → Micro) (h : s.micro = some m) :
    s.onMicro f = { s with micro := some (f m) } := by simp [State.onMicro, h]
theorem State.onMicro_none (s : State) (f : Micro → Micro) (h : s.micro = none) : s.onMicro f = s := by
  simp [State.onMicro, h]

end Sys2Proof.Machine
end

