-- ==== Sys2Proof/Laws/Ops.lean ====
section
/-! SUPPORT. What each shared operation can do, said once. -/

namespace Sys2Proof.Machine

/-- A syllable does one of four things: it waits, it is guarded off, it traps POISON, or it has its own effect. -/
theorem syllableIf_cases (s : State) (slot : Nat) (g : BitVec 4) (srcs dsts : List Reg) (busy : List Hold) (body : State → State) :
    (∃ h hs, s.syllableIf slot g srcs dsts busy body = s.holdAll (h :: hs))
      ∨ (s.rdQ g = false ∧ s.syllableIf slot g srcs dsts busy body = s)
      ∨ (∃ o, s.c.files.firstPoison srcs = some o ∧ s.syllableIf slot g srcs dsts busy body = s.raise slot .poison (o.setWidth 64))
      ∨ (s.rdQ g = true ∧ s.c.files.firstPoison srcs = none ∧ s.syllableIf slot g srcs dsts busy body = body s) := by
  unfold State.syllableIf
  split
  · exact .inl ⟨_, _, rfl⟩
  · cases h2 : s.rdQ g with
    | false => exact .inr (.inl ⟨rfl, rfl⟩)
    | true =>
      cases h4 : s.c.files.firstPoison srcs with
      | some o => exact .inr (.inr (.inl ⟨o, rfl, rfl⟩))
      | none => exact .inr (.inr (.inr ⟨rfl, rfl, rfl⟩))

/-- The same of a syllable to which only the first row of Table 4.1 applies. -/
theorem syllable_cases (s : State) (slot : Nat) (g : BitVec 4) (srcs dsts : List Reg) (body : State → State) :
    (∃ h hs, s.syllable slot g srcs dsts body = s.holdAll (h :: hs))
      ∨ (s.rdQ g = false ∧ s.syllable slot g srcs dsts body = s)
      ∨ (∃ o, s.c.files.firstPoison srcs = some o ∧ s.syllable slot g srcs dsts body = s.raise slot .poison (o.setWidth 64))
      ∨ (s.rdQ g = true ∧ s.c.files.firstPoison srcs = none ∧ s.syllable slot g srcs dsts body = body s) :=
  syllableIf_cases s slot g srcs dsts [] body

/-- Registers of which none is in flight hold no bundle. -/
theorem rowOne_free (c : Ctx) (l : List Reg) (h : ∀ r ∈ l, r.fixed = true ∨ c.claimed r = false) : c.rowOne l = [] := by
  unfold Ctx.rowOne
  rw [if_neg]
  simp only [List.any_eq_true, not_exists, not_and, Bool.not_eq_true]
  intro r hr
  rcases h r hr with h | h <;> simp [h]

/-- With no register of it in flight, nothing else that holds it, a true guard and no marked source, a syllable has its own
effect. -/
theorem syllableIf_runs (s : State) (slot : Nat) (g : BitVec 4) (srcs dsts : List Reg) (body : State → State)
    (hg : s.c.claimed (s.regQ g) = false) (hd : ∀ r ∈ dsts, r.fixed = true ∨ s.c.claimed r = false)
    (ht : s.rdQ g = true) (hs : ∀ r ∈ srcs, r.fixed = true ∨ s.c.claimed r = false)
    (hp : s.c.files.firstPoison srcs = none) : s.syllableIf slot g srcs dsts [] body = body s := by
  have e : s.syllableHolds g srcs dsts [] = [] := by
    unfold State.syllableHolds
    rw [rowOne_free s.c (s.regQ g :: dsts) (by simpa [hg] using hd), rowOne_free s.c srcs hs]
    simp
  simp [State.syllableIf, e, ht, hp]

theorem syllable_runs (s : State) (slot : Nat) (g : BitVec 4) (srcs dsts : List Reg) (body : State → State)
    (hg : s.c.claimed (s.regQ g) = false) (hd : ∀ r ∈ dsts, r.fixed = true ∨ s.c.claimed r = false)
    (ht : s.rdQ g = true) (hs : ∀ r ∈ srcs, r.fixed = true ∨ s.c.claimed r = false)
    (hp : s.c.files.firstPoison srcs = none) : s.syllable slot g srcs dsts body = body s :=
  syllableIf_runs s slot g srcs dsts body hg hd ht hs hp

/-- A V syllable besides waits while page row 0 is on loan. -/
theorem vsyl_runs (s : State) (f : VF) (srcs dsts : List Reg) (body : State → State)
    (hg : s.c.claimed (s.regQ f.g) = false) (hd : ∀ r ∈ dsts, r.fixed = true ∨ s.c.claimed r = false)
    (ht : s.rdQ f.g = true) (hs : ∀ r ∈ srcs, r.fixed = true ∨ s.c.claimed r = false)
    (hp : s.c.files.firstPoison srcs = none) (hb : s.row0Busy = false) : s.vsyl f srcs dsts body = body s := by
  rw [State.vsyl, hb]
  exact syllableIf_runs s 2 f.g srcs dsts _ hg hd ht hs hp

/-- The trap of a bundle is one of those its syllables raised. -/
theorem firstTrap_mem (ts : List (Nat × Cause × Word)) (t : Nat × Cause × Word) (h : firstTrap ts = some t) : t ∈ ts := by
  unfold firstTrap at h
  split at h
  · rename_i u hu
    cases h
    exact List.mem_of_find?_eq_some hu
  · rw [List.findSome?_eq_some_iff] at h
    obtain ⟨_, i, _, _, hi, _⟩ := h
    exact List.mem_of_find?_eq_some hi

/-- A trap of the current context, in task mode, not under replay, with a handler: the saved registers, the mode and
the pc (R365). -/
theorem takeTrap_enters (s : State) (t : Trap) (hm : s.c.sys.hm = false) (hr : s.c.replay = false)
    (hx : t.cause ≠ .replayx) (hb : s.c.sys.tbase ≠ 0) :
    (s.takeTrap s.c.id t).c.sys.hm = true ∧ (s.takeTrap s.c.id t).c.pc = s.c.sys.tbase
      ∧ (s.takeTrap s.c.id t).c.sys.tpc = t.pc ∧ (s.takeTrap s.c.id t).c.sys.tval = t.tval := by
  have h : s.ctx? s.c.id = some s.c := if_pos rfl
  unfold State.takeTrap
  rw [h]
  simp only [hm, hr, Bool.false_and, Bool.false_eq_true, hx, hb, ↓reduceIte]
  unfold State.onCtx
  rw [if_pos (by rw [State.trc_c])]
  simp

/-- A changed context reads as the change made it, if that keeps its id. -/
theorem ctx?_onCtx (s : State) (k : CtxId) (f : Ctx → Ctx) (c : Ctx) (h : s.ctx? k = some c) (hf : (f c).id = k) :
    (s.onCtx k f).ctx? k = some (f c) := by
  unfold State.ctx? State.onCtx at *
  by_cases hc : s.c.id = k
  · simp_all
  · simp only [hc, if_false] at h ⊢
    revert h
    induction s.others with
    | nil => simp
    | cons d r ih =>
      by_cases hd : d.id = k
      · simp only [List.map_cons, hd, if_true, List.find?_cons, beq_self_eq_true]
        rintro ⟨⟩
        simp [hf]
      · have hb : (d.id == k) = false := by simpa using hd
        simpa only [List.map_cons, hd, if_false, List.find?_cons, hb] using ih

/-- Other contexts read as before. -/
theorem ctx?_onCtx_other (s : State) (k j : CtxId) (f : Ctx → Ctx) (h : j ≠ k) (hf : ∀ d, (f d).id = d.id) :
    (s.onCtx k f).ctx? j = s.ctx? j := by
  unfold State.ctx? State.onCtx
  by_cases hc : s.c.id = k
  · have : s.c.id ≠ j := fun e => h (e.symm.trans hc)
    simp [hc, hf, h.symm]
  · by_cases hj : s.c.id = j
    · simp [hj, h]
    · simp only [hc, hj, if_false]
      induction s.others with
      | nil => rfl
      | cons d r ih =>
        have hid : (if d.id = k then f d else d).id = d.id := by split <;> simp [hf]
        by_cases hd : d.id = j
        · have : d.id ≠ k := fun e => h (hd.symm.trans e)
          simp [hd, h]
        · have hb : (d.id == j) = false := by simpa using hd
          simp only [List.map_cons, List.find?_cons, hid, hb]
          exact ih

end Sys2Proof.Machine
end

