-- ==== Sys2Proof/Laws/Commands.lean ====
section
/-! SUPPORT. What the shared operations over contexts, sections, trace records and completion records can do, said once. -/

namespace Sys2Proof.Machine

/-! ## Contexts and sections -/

theorem find?_map_id (l : List Ctx) (k : CtxId) (g : Ctx → Ctx) (hg : ∀ d, (g d).id = d.id) :
    (l.map g).find? (fun c => c.id == k) = (l.find? (fun c => c.id == k)).map g := by
  induction l with
  | nil => rfl
  | cons d r ih => simp only [List.map_cons, List.find?_cons, hg]; cases h : (d.id == k) <;> simp [ih]

/-- A change of the task that issued a command changes the contexts that own the command and no other. -/
theorem ctx?_onOwner (s : State) (k j : CtxId) (n : Nat) (f : Ctx → Ctx) (c : Ctx) (h : s.ctx? j = some c)
    (hf : ∀ d, (f d).id = d.id) : (s.onOwner k n f).ctx? j = some (if c.owns k n then f c else c) := by
  have hg : ∀ d : Ctx, (if d.owns k n then f d else d).id = d.id := fun d => by split <;> simp [hf]
  unfold State.ctx? State.onOwner at *
  simp only [hg]
  by_cases hc : s.c.id = j
  · simp only [hc, if_true, Option.some.injEq] at h ⊢; rw [h]
  · simp only [hc, if_false] at h ⊢
    rw [find?_map_id _ _ (fun d => if d.owns k n then f d else d) hg, h]; rfl

theorem ctx?_id {s : State} {k : CtxId} {c : Ctx} (h : s.ctx? k = some c) : c.id = k := by
  unfold State.ctx? at h
  by_cases hc : s.c.id = k
  · simp only [hc, if_true, Option.some.injEq] at h; rw [← h, hc]
  · simp only [hc, if_false] at h
    have := List.find?_some h; simpa using this

@[simp] theorem onOwner_mem (s : State) (k : CtxId) (n : Nat) (f : Ctx → Ctx) : (s.onOwner k n f).mem = s.mem := rfl
@[simp] theorem onSec_mem (s : State) (k : CtxId) (h : Nat) (f : Section → Section) : (s.onSec k h f).mem = s.mem := State.onCtx_mem ..

/-- Equal bytes everywhere, because the memory is the same list. -/
theorem sameMemory_of_mem {s t : State} (h : t.mem = s.mem) : SameMemory s t := by
  intro i; unfold State.byte; rw [h]

theorem sec?_ctx {s : State} {k : CtxId} {h : Nat} {c : Ctx} {x : Section} (hs : s.sec? k h = some (c, x)) :
    s.ctx? k = some c ∧ c.sec? h = some x := by
  unfold State.sec? at hs
  cases hc : s.ctx? k with
  | none => rw [hc] at hs; cases hs
  | some c0 =>
    rw [hc] at hs
    cases hx : c0.sec? h with
    | none => simp [hx] at hs
    | some x0 => simp only [hx, Option.map_some, Option.some.injEq, Prod.mk.injEq] at hs; obtain ⟨rfl, rfl⟩ := hs; exact ⟨rfl, hx⟩

theorem sec?_of {s : State} {k : CtxId} {h : Nat} {c : Ctx} {x : Section} (hc : s.ctx? k = some c) (hx : c.sec? h = some x) :
    s.sec? k h = some (c, x) := by
  unfold State.sec?; rw [hc]; simp [hx]

/-- A changed section reads as the change made it, if that keeps its handle. -/
theorem sec?_onSec (s : State) (k : CtxId) (h : Nat) (f : Section → Section) (c : Ctx) (x : Section)
    (hs : s.sec? k h = some (c, x)) (hf : ∀ y, (f y).handle = y.handle) :
    (s.onSec k h f).sec? k h = some (c.onSec h f, f x) := by
  obtain ⟨hc, hx⟩ := sec?_ctx hs
  unfold State.onSec
  refine sec?_of (ctx?_onCtx s k _ c hc (by exact (ctx?_id hc :))) ?_
  unfold Ctx.sec? Ctx.onSec at *
  simp only
  revert hx
  induction c.secs with
  | nil => simp
  | cons y l ih =>
    by_cases hy : y.handle = h
    · simp only [List.map_cons, List.find?_cons, hy, if_true, beq_self_eq_true, hf, Option.some.injEq]
      rintro rfl; rfl
    · have hb : (y.handle == h) = false := by simpa using hy
      simp only [List.map_cons, List.find?_cons, hy, if_false, hb]; exact ih

/-! ## Trace records -/

/-- A trace record changes the trace ring and the counts of dropped records. -/
theorem trc_eq (s : State) (cls code : Nat) (c : Ctx) (fs : List TField) :
    ∃ tr dr, s.trc cls code c fs = { s with hub := { s.hub with trace := tr, drops := dr } } := s.traceAt_eq _ _ _ _ _ _
theorem trcPkg_eq (s : State) (cls code p : Nat) (fs : List TField) :
    ∃ tr dr, s.trcPkg cls code p fs = { s with hub := { s.hub with trace := tr, drops := dr } } := s.traceAt_eq _ _ _ _ _ _
@[simp] theorem trc_ctx? (s : State) (cls code : Nat) (c : Ctx) (fs : List TField) (k : CtxId) :
    (s.trc cls code c fs).ctx? k = s.ctx? k := by
  obtain ⟨_, _, e⟩ := trc_eq s cls code c fs; rw [e]; rfl
@[simp] theorem trcPkg_ctx? (s : State) (cls code p : Nat) (fs : List TField) (k : CtxId) :
    (s.trcPkg cls code p fs).ctx? k = s.ctx? k := by
  obtain ⟨_, _, e⟩ := trcPkg_eq s cls code p fs; rw [e]; rfl
@[simp] theorem trc_sec? (s : State) (cls code : Nat) (c : Ctx) (fs : List TField) (k : CtxId) (h : Nat) :
    (s.trc cls code c fs).sec? k h = s.sec? k h := by
  unfold State.sec?; rw [trc_ctx?]

/-! ## Completion records -/

@[simp] theorem pushRec_mem (s : State) (k : CtxId) (q : Nat) (r : Rec) (sl n : Option Nat) (e : Option EngEntry) :
    (s.pushRec k q r sl n e).mem = s.mem := by
  unfold State.pushRec
  split
  · cases n <;> simp
  · cases n <;> simp [State.retire]

/-- A record of a command joins the records that wait for its queue, and nothing else of the context changes (R250). -/
theorem pushRec_ctx? (s : State) (k : CtxId) (q : Nat) (r : Rec) (sl : Option Nat) (n : Nat) (e : Option EngEntry) (c : Ctx)
    (h : s.ctx? k = some c) (ho : c.owns k n = true) (hq : q < 8) :
    ∃ w : WaitRec, w.record.status = r.status ∧ (s.pushRec k q r sl (some n) e).ctx? k
      = some { c with cqs := NMap.set {} c.cqs q { NMap.get {} c.cqs q with waiting := (NMap.get {} c.cqs q).waiting ++ [w] } } := by
  unfold State.pushRec
  rw [if_pos hq]
  refine ⟨{ record := { r with actual := BitVec.ofNat 64 s.gtime }, slot := sl, seq := some n, entry := e }, rfl, ?_⟩
  simp only
  rw [ctx?_onOwner _ k k n _ c h ?_, if_pos ho]
  intro d; rfl

/-- So does a record that is no command's. -/
theorem pushRec_ctx?_none (s : State) (k : CtxId) (q : Nat) (r : Rec) (sl : Option Nat) (e : Option EngEntry) (c : Ctx)
    (h : s.ctx? k = some c) (hq : q < 8) :
    ∃ w : WaitRec, w.record.status = r.status ∧ (s.pushRec k q r sl none e).ctx? k
      = some { c with cqs := NMap.set {} c.cqs q { NMap.get {} c.cqs q with waiting := (NMap.get {} c.cqs q).waiting ++ [w] } } := by
  unfold State.pushRec
  rw [if_pos hq]
  refine ⟨{ record := { r with actual := BitVec.ofNat 64 s.gtime }, slot := sl, seq := none, entry := e }, rfl, ?_⟩
  simp only
  rw [ctx?_onCtx _ k _ c h ?_]
  exact (ctx?_id h :)

theorem recorded_of (s t : State) (k : CtxId) (q : Nat) (st : Status) (c d : Ctx) (w : WaitRec) (h : s.ctx? k = some c)
    (ht : t.ctx? k = some d) (hw : NMap.wf {} c.cqs = true) (hs : w.record.status = st)
    (hd : d.cqs = NMap.set {} c.cqs q { NMap.get {} c.cqs q with waiting := (NMap.get {} c.cqs q).waiting ++ [w] }) :
    Recorded s t k q st := by
  refine ⟨c, d, w, h, ht, ?_, hs⟩
  rw [hd, nmap_get_set_same _ _ 0 _ _ hw]

theorem finishCmd_ctx? (s : State) (r : Run) (x : Rec) (c : Ctx)
    (h : s.ctx? r.cmd.ctx = some c) (ho : c.owns r.cmd.ctx r.cmd.seq = true) (hq : r.cmd.f.q.toNat < 8) :
    ∃ (w : WaitRec) (d : Ctx), w.record.status = x.status ∧ (s.finishCmd r x).ctx? r.cmd.ctx = some d
      ∧ d.cqs = NMap.set {} c.cqs r.cmd.f.q.toNat { NMap.get {} c.cqs r.cmd.f.q.toNat with
          waiting := (NMap.get {} c.cqs r.cmd.f.q.toNat).waiting ++ [w] } := by
  unfold State.finishCmd
  simp only
  generalize hk : r.cmd.ctx = k at *
  rw [← noteErrors_ctx? s r.met] at h
  have h1 := ctx?_onOwner (s.noteErrors r.met) k k r.cmd.seq (fun c => { c with opens := c.opens.map fun o =>
    if o.seq = r.cmd.seq then { o with acc := false, sent := true } else o }) c h (fun d => rfl)
  rw [if_pos ho] at h1
  have h2 := ctx?_onOwner ((s.noteErrors r.met).accDone k r.cmd.seq) k k r.cmd.seq (fun c =>
    { c with runs := c.runs.filter fun q => q.cmd.seq != r.cmd.seq,
             hwait := c.hwait.filter fun q => q.cmd.seq != r.cmd.seq,
             waits := c.waits.filter fun q => q.cmd.seq != r.cmd.seq,
             sys := { c.sys with pwb := c.sys.pwb ||| r.pwb } }) _ h1 (fun d => rfl)
  rw [if_pos (by simpa [Ctx.owns] using ho)] at h2
  obtain ⟨w, hw, h3⟩ := pushRec_ctx? _ k r.cmd.f.q.toNat { x with promised := r.promised } r.cmd.slot r.cmd.seq
    r.engEntry _ h2 (by simpa [Ctx.owns] using ho) hq
  exact ⟨w, _, hw, h3, rfl⟩

/-- A command that completes leaves one record, of its status, in its queue (R243, R250). -/
theorem finishCmd_recorded (s0 s : State) (r : Run) (x : Rec) (c c' : Ctx) (h0 : s0.ctx? r.cmd.ctx = some c)
    (hc : s.ctx? r.cmd.ctx = some c') (hcq : c'.cqs = c.cqs) (ho : c'.owns r.cmd.ctx r.cmd.seq = true)
    (hq : r.cmd.f.q.toNat < 8) (hw : NMap.wf {} c.cqs = true) :
    Recorded s0 (s.finishCmd r x) r.cmd.ctx r.cmd.f.q.toNat x.status := by
  obtain ⟨w, d, e1, e2, e3⟩ := finishCmd_ctx? s r x c' hc ho hq
  exact recorded_of s0 _ _ _ _ c d w h0 e2 hw e1 (by rw [e3, hcq])

@[simp] theorem finishCmd_mem (s : State) (r : Run) (x : Rec) : (s.finishCmd r x).mem = s.mem := by
  unfold State.finishCmd; simp only [pushRec_mem, onOwner_mem]
  exact (onOwner_mem ..).trans (State.noteErrors_mem ..)

end Sys2Proof.Machine
end

