-- ==== Sys2Proof/Laws/PerInstr.lean ====
section
/-! SUPPORT. Laws for every instruction, one lemma a constructor. -/

namespace Sys2Proof.Laws.OneSlot

/-- An instruction has an encoding in one of the six formats at most: S, X, V, C, T, or A and M (R41, R57); an event has
none. -/
def Statement (i : Instr) : Prop :=
  ([encodeS i, encodeX i, encodeV i, encodeC i, encodeT i, encodeAM i].filter Option.isSome).length ≤ 1

theorem sNop (rp : Bool) : Statement (.sNop rp) := Nat.le_of_ble_eq_true rfl
theorem add (f : SR) : Statement (.add f) := Nat.le_of_ble_eq_true rfl
theorem sub (f : SR) : Statement (.sub f) := Nat.le_of_ble_eq_true rfl
theorem and (f : SR) : Statement (.and f) := Nat.le_of_ble_eq_true rfl
theorem or (f : SR) : Statement (.or f) := Nat.le_of_ble_eq_true rfl
theorem xor (f : SR) : Statement (.xor f) := Nat.le_of_ble_eq_true rfl
theorem andn (f : SR) : Statement (.andn f) := Nat.le_of_ble_eq_true rfl
theorem min (f : SR) : Statement (.min f) := Nat.le_of_ble_eq_true rfl
theorem max (f : SR) : Statement (.max f) := Nat.le_of_ble_eq_true rfl
theorem minu (f : SR) : Statement (.minu f) := Nat.le_of_ble_eq_true rfl
theorem maxu (f : SR) : Statement (.maxu f) := Nat.le_of_ble_eq_true rfl
theorem shl (f : SR) : Statement (.shl f) := Nat.le_of_ble_eq_true rfl
theorem shr (f : SR) : Statement (.shr f) := Nat.le_of_ble_eq_true rfl
theorem sar (f : SR) : Statement (.sar f) := Nat.le_of_ble_eq_true rfl
theorem ror (f : SR) : Statement (.ror f) := Nat.le_of_ble_eq_true rfl
theorem clz (f : SU) : Statement (.clz f) := Nat.le_of_ble_eq_true rfl
theorem ctz (f : SU) : Statement (.ctz f) := Nat.le_of_ble_eq_true rfl
theorem mul (f : SR) : Statement (.mul f) := Nat.le_of_ble_eq_true rfl
theorem mulh (f : SR) : Statement (.mulh f) := Nat.le_of_ble_eq_true rfl
theorem mulhu (f : SR) : Statement (.mulhu f) := Nat.le_of_ble_eq_true rfl
theorem div (f : SR) : Statement (.div f) := Nat.le_of_ble_eq_true rfl
theorem divu (f : SR) : Statement (.divu f) := Nat.le_of_ble_eq_true rfl
theorem rem (f : SR) : Statement (.rem f) := Nat.le_of_ble_eq_true rfl
theorem remu (f : SR) : Statement (.remu f) := Nat.le_of_ble_eq_true rfl
theorem popc (f : SU) : Statement (.popc f) := Nat.le_of_ble_eq_true rfl
theorem addi (f : SI) : Statement (.addi f) := Nat.le_of_ble_eq_true rfl
theorem andi (f : SI) : Statement (.andi f) := Nat.le_of_ble_eq_true rfl
theorem ori (f : SI) : Statement (.ori f) := Nat.le_of_ble_eq_true rfl
theorem xori (f : SI) : Statement (.xori f) := Nat.le_of_ble_eq_true rfl
theorem shli (f : SSh) : Statement (.shli f) := Nat.le_of_ble_eq_true rfl
theorem shri (f : SSh) : Statement (.shri f) := Nat.le_of_ble_eq_true rfl
theorem sari (f : SSh) : Statement (.sari f) := Nat.le_of_ble_eq_true rfl
theorem movi (f : SL) : Statement (.movi f) := Nat.le_of_ble_eq_true rfl
theorem movhi (f : SL) : Statement (.movhi f) := Nat.le_of_ble_eq_true rfl
theorem cmp (f : SCmp) : Statement (.cmp f) := Nat.le_of_ble_eq_true rfl
theorem cmpiCond03 (f : SCmpi) : Statement (.cmpiCond03 f) := Nat.le_of_ble_eq_true rfl
theorem cmpiCond47 (f : SCmpi) : Statement (.cmpiCond47 f) := Nat.le_of_ble_eq_true rfl
theorem plogAnd (f : SPl) : Statement (.plogAnd f) := Nat.le_of_ble_eq_true rfl
theorem plogOr (f : SPl) : Statement (.plogOr f) := Nat.le_of_ble_eq_true rfl
theorem plogXor (f : SPl) : Statement (.plogXor f) := Nat.le_of_ble_eq_true rfl
theorem plogAndn (f : SPl) : Statement (.plogAndn f) := Nat.le_of_ble_eq_true rfl
theorem plogNot (f : SPl) : Statement (.plogNot f) := Nat.le_of_ble_eq_true rfl
theorem plogMov (f : SPl) : Statement (.plogMov f) := Nat.le_of_ble_eq_true rfl
theorem plogSet (f : SPl) : Statement (.plogSet f) := Nat.le_of_ble_eq_true rfl
theorem plogClr (f : SPl) : Statement (.plogClr f) := Nat.le_of_ble_eq_true rfl
theorem ldb (f : SI) : Statement (.ldb f) := Nat.le_of_ble_eq_true rfl
theorem ldbu (f : SI) : Statement (.ldbu f) := Nat.le_of_ble_eq_true rfl
theorem ldh (f : SI) : Statement (.ldh f) := Nat.le_of_ble_eq_true rfl
theorem ldhu (f : SI) : Statement (.ldhu f) := Nat.le_of_ble_eq_true rfl
theorem ldw (f : SI) : Statement (.ldw f) := Nat.le_of_ble_eq_true rfl
theorem ldwu (f : SI) : Statement (.ldwu f) := Nat.le_of_ble_eq_true rfl
theorem ldd (f : SI) : Statement (.ldd f) := Nat.le_of_ble_eq_true rfl
theorem lds (f : SI) : Statement (.lds f) := Nat.le_of_ble_eq_true rfl
theorem ldp (f : SI) : Statement (.ldp f) := Nat.le_of_ble_eq_true rfl
theorem stb (f : SI) : Statement (.stb f) := Nat.le_of_ble_eq_true rfl
theorem sth (f : SI) : Statement (.sth f) := Nat.le_of_ble_eq_true rfl
theorem stw (f : SI) : Statement (.stw f) := Nat.le_of_ble_eq_true rfl
theorem std (f : SI) : Statement (.std f) := Nat.le_of_ble_eq_true rfl
theorem stf (f : SI) : Statement (.stf f) := Nat.le_of_ble_eq_true rfl
theorem empty (f : SEmp) : Statement (.empty f) := Nat.le_of_ble_eq_true rfl
theorem aadd (f : SR) : Statement (.aadd f) := Nat.le_of_ble_eq_true rfl
theorem amin (f : SR) : Statement (.amin f) := Nat.le_of_ble_eq_true rfl
theorem amax (f : SR) : Statement (.amax f) := Nat.le_of_ble_eq_true rfl
theorem aand (f : SR) : Statement (.aand f) := Nat.le_of_ble_eq_true rfl
theorem aor (f : SR) : Statement (.aor f) := Nat.le_of_ble_eq_true rfl
theorem axor (f : SR) : Statement (.axor f) := Nat.le_of_ble_eq_true rfl
theorem aswap (f : SR) : Statement (.aswap f) := Nat.le_of_ble_eq_true rfl
theorem atas (f : SU) : Statement (.atas f) := Nat.le_of_ble_eq_true rfl
theorem acas (f : SR) : Statement (.acas f) := Nat.le_of_ble_eq_true rfl
theorem afadd (f : SR) : Statement (.afadd f) := Nat.le_of_ble_eq_true rfl
theorem br (f : SJ) : Statement (.br f) := Nat.le_of_ble_eq_true rfl
theorem brl (f : SJ) : Statement (.brl f) := Nat.le_of_ble_eq_true rfl
theorem bri (f : SU) : Statement (.bri f) := Nat.le_of_ble_eq_true rfl
theorem loop (f : SL) : Statement (.loop f) := Nat.le_of_ble_eq_true rfl
theorem brtop (f : SJ) : Statement (.brtop f) := Nat.le_of_ble_eq_true rfl
theorem exit (f : SG) : Statement (.exit f) := Nat.le_of_ble_eq_true rfl
theorem trap (f : STrap) : Statement (.trap f) := Nat.le_of_ble_eq_true rfl
theorem tret (f : SG) : Statement (.tret f) := Nat.le_of_ble_eq_true rfl
theorem sleep (f : SA) : Statement (.sleep f) := Nat.le_of_ble_eq_true rfl
theorem waitg (f : SA) : Statement (.waitg f) := Nat.le_of_ble_eq_true rfl
theorem waitgL (f : SA) : Statement (.waitgL f) := Nat.le_of_ble_eq_true rfl
theorem joinm (f : SJoin) : Statement (.joinm f) := Nat.le_of_ble_eq_true rfl
theorem mfs (f : SSys) : Statement (.mfs f) := Nat.le_of_ble_eq_true rfl
theorem mts (f : SSys) : Statement (.mts f) := Nat.le_of_ble_eq_true rfl
theorem syncfC (f : SG) : Statement (.syncfC f) := Nat.le_of_ble_eq_true rfl
theorem syncfI (f : SG) : Statement (.syncfI f) := Nat.le_of_ble_eq_true rfl
theorem syncfCi (f : SG) : Statement (.syncfCi f) := Nat.le_of_ble_eq_true rfl
theorem xNop : Statement (.xNop) := Nat.le_of_ble_eq_true rfl
theorem xadd (f : XR) : Statement (.xadd f) := Nat.le_of_ble_eq_true rfl
theorem xsub (f : XR) : Statement (.xsub f) := Nat.le_of_ble_eq_true rfl
theorem xaddi (f : XI) : Statement (.xaddi f) := Nat.le_of_ble_eq_true rfl
theorem xshl (f : XN) : Statement (.xshl f) := Nat.le_of_ble_eq_true rfl
theorem xshr (f : XN) : Statement (.xshr f) := Nat.le_of_ble_eq_true rfl
theorem xand (f : XR) : Statement (.xand f) := Nat.le_of_ble_eq_true rfl
theorem xmul (f : XR) : Statement (.xmul f) := Nat.le_of_ble_eq_true rfl
theorem xlea (f : XLea) : Statement (.xlea f) := Nat.le_of_ble_eq_true rfl
theorem xmin (f : XR) : Statement (.xmin f) := Nat.le_of_ble_eq_true rfl
theorem xmax (f : XR) : Statement (.xmax f) := Nat.le_of_ble_eq_true rfl
theorem xcmp (f : XCmp) : Statement (.xcmp f) := Nat.le_of_ble_eq_true rfl
theorem cadv (f : XCadv) : Statement (.cadv f) := Nat.le_of_ble_eq_true rfl
theorem xpopc (f : XU) : Statement (.xpopc f) := Nat.le_of_ble_eq_true rfl
theorem xctz (f : XU) : Statement (.xctz f) := Nat.le_of_ble_eq_true rfl
theorem xbitSet (f : XN) : Statement (.xbitSet f) := Nat.le_of_ble_eq_true rfl
theorem xbitClr (f : XN) : Statement (.xbitClr f) := Nat.le_of_ble_eq_true rfl
theorem xbitFlip (f : XN) : Statement (.xbitFlip f) := Nat.le_of_ble_eq_true rfl
theorem xbitExt (f : XN) : Statement (.xbitExt f) := Nat.le_of_ble_eq_true rfl
theorem xmovs (f : XU) : Statement (.xmovs f) := Nat.le_of_ble_eq_true rfl
theorem xtos (f : XU) : Statement (.xtos f) := Nat.le_of_ble_eq_true rfl
theorem xclamp (f : XClamp) : Statement (.xclamp f) := Nat.le_of_ble_eq_true rfl
theorem xwrap (f : XR) : Statement (.xwrap f) := Nat.le_of_ble_eq_true rfl
theorem xbstepW (f : XBst) : Statement (.xbstepW f) := Nat.le_of_ble_eq_true rfl
theorem xbstepD (f : XBst) : Statement (.xbstepD f) := Nat.le_of_ble_eq_true rfl
theorem xldW (f : XLd) : Statement (.xldW f) := Nat.le_of_ble_eq_true rfl
theorem xldD (f : XLd) : Statement (.xldD f) := Nat.le_of_ble_eq_true rfl
theorem vNop : Statement (.vNop) := Nat.le_of_ble_eq_true rfl
theorem vadd (f : VF) : Statement (.vadd f) := Nat.le_of_ble_eq_true rfl
theorem vsub (f : VF) : Statement (.vsub f) := Nat.le_of_ble_eq_true rfl
theorem vmul (f : VF) : Statement (.vmul f) := Nat.le_of_ble_eq_true rfl
theorem vfma (f : VF) : Statement (.vfma f) := Nat.le_of_ble_eq_true rfl
theorem vfms (f : VF) : Statement (.vfms f) := Nat.le_of_ble_eq_true rfl
theorem vfnma (f : VF) : Statement (.vfnma f) := Nat.le_of_ble_eq_true rfl
theorem vmin (f : VF) : Statement (.vmin f) := Nat.le_of_ble_eq_true rfl
theorem vmax (f : VF) : Statement (.vmax f) := Nat.le_of_ble_eq_true rfl
theorem vabs (f : VF) : Statement (.vabs f) := Nat.le_of_ble_eq_true rfl
theorem vneg (f : VF) : Statement (.vneg f) := Nat.le_of_ble_eq_true rfl
theorem vcpys (f : VF) : Statement (.vcpys f) := Nat.le_of_ble_eq_true rfl
theorem vrcp (f : VF) : Statement (.vrcp f) := Nat.le_of_ble_eq_true rfl
theorem vrsq (f : VF) : Statement (.vrsq f) := Nat.le_of_ble_eq_true rfl
theorem vsqrt (f : VF) : Statement (.vsqrt f) := Nat.le_of_ble_eq_true rfl
theorem vexp2 (f : VF) : Statement (.vexp2 f) := Nat.le_of_ble_eq_true rfl
theorem vlog2 (f : VF) : Statement (.vlog2 f) := Nat.le_of_ble_eq_true rfl
theorem vcmpf (f : VF) : Statement (.vcmpf f) := Nat.le_of_ble_eq_true rfl
theorem vclass (f : VF) : Statement (.vclass f) := Nat.le_of_ble_eq_true rfl
theorem viadd (f : VF) : Statement (.viadd f) := Nat.le_of_ble_eq_true rfl
theorem visub (f : VF) : Statement (.visub f) := Nat.le_of_ble_eq_true rfl
theorem vimul (f : VF) : Statement (.vimul f) := Nat.le_of_ble_eq_true rfl
theorem vimulh (f : VF) : Statement (.vimulh f) := Nat.le_of_ble_eq_true rfl
theorem vand (f : VF) : Statement (.vand f) := Nat.le_of_ble_eq_true rfl
theorem vor (f : VF) : Statement (.vor f) := Nat.le_of_ble_eq_true rfl
theorem vxor (f : VF) : Statement (.vxor f) := Nat.le_of_ble_eq_true rfl
theorem vshl (f : VF) : Statement (.vshl f) := Nat.le_of_ble_eq_true rfl
theorem vshr (f : VF) : Statement (.vshr f) := Nat.le_of_ble_eq_true rfl
theorem vsar (f : VF) : Statement (.vsar f) := Nat.le_of_ble_eq_true rfl
theorem vimin (f : VF) : Statement (.vimin f) := Nat.le_of_ble_eq_true rfl
theorem vimax (f : VF) : Statement (.vimax f) := Nat.le_of_ble_eq_true rfl
theorem vicmp (f : VF) : Statement (.vicmp f) := Nat.le_of_ble_eq_true rfl
theorem vpopc (f : VF) : Statement (.vpopc f) := Nat.le_of_ble_eq_true rfl
theorem vsel (f : VF) : Statement (.vsel f) := Nat.le_of_ble_eq_true rfl
theorem vmov (f : VF) : Statement (.vmov f) := Nat.le_of_ble_eq_true rfl
theorem vbcast (f : VF) : Statement (.vbcast f) := Nat.le_of_ble_eq_true rfl
theorem vextr (f : VF) : Statement (.vextr f) := Nat.le_of_ble_eq_true rfl
theorem vins (f : VF) : Statement (.vins f) := Nat.le_of_ble_eq_true rfl
theorem vperm (f : VF) : Statement (.vperm f) := Nat.le_of_ble_eq_true rfl
theorem vshuf (f : VF) : Statement (.vshuf f) := Nat.le_of_ble_eq_true rfl
theorem vcvt (f : VF) : Statement (.vcvt f) := Nat.le_of_ble_eq_true rfl
theorem vpackb (f : VF) : Statement (.vpackb f) := Nat.le_of_ble_eq_true rfl
theorem vunpkb (f : VF) : Statement (.vunpkb f) := Nat.le_of_ble_eq_true rfl
theorem vdot8 (f : VF) : Statement (.vdot8 f) := Nat.le_of_ble_eq_true rfl
theorem vred (f : VF) : Statement (.vred f) := Nat.le_of_ble_eq_true rfl
theorem vscan (f : VF) : Statement (.vscan f) := Nat.le_of_ble_eq_true rfl
theorem vld (f : VF) : Statement (.vld f) := Nat.le_of_ble_eq_true rfl
theorem vst (f : VF) : Statement (.vst f) := Nat.le_of_ble_eq_true rfl
theorem vlds (f : VF) : Statement (.vlds f) := Nat.le_of_ble_eq_true rfl
theorem vstf (f : VF) : Statement (.vstf f) := Nat.le_of_ble_eq_true rfl
theorem vget (f : VF) : Statement (.vget f) := Nat.le_of_ble_eq_true rfl
theorem vput (f : VF) : Statement (.vput f) := Nat.le_of_ble_eq_true rfl
theorem mand (f : VF) : Statement (.mand f) := Nat.le_of_ble_eq_true rfl
theorem mor (f : VF) : Statement (.mor f) := Nat.le_of_ble_eq_true rfl
theorem mxor (f : VF) : Statement (.mxor f) := Nat.le_of_ble_eq_true rfl
theorem mnot (f : VF) : Statement (.mnot f) := Nat.le_of_ble_eq_true rfl
theorem mpopc (f : VF) : Statement (.mpopc f) := Nat.le_of_ble_eq_true rfl
theorem mfirst (f : VF) : Statement (.mfirst f) := Nat.le_of_ble_eq_true rfl
theorem cNop : Statement (.cNop) := Nat.le_of_ble_eq_true rfl
theorem saff (f : CF) : Statement (.saff f) := Nat.le_of_ble_eq_true rfl
theorem saffw (f : CF) : Statement (.saffw f) := Nat.le_of_ble_eq_true rfl
theorem sind (f : CF) : Statement (.sind f) := Nat.le_of_ble_eq_true rfl
theorem sindw (f : CF) : Statement (.sindw f) := Nat.le_of_ble_eq_true rfl
theorem srec (f : CF) : Statement (.srec f) := Nat.le_of_ble_eq_true rfl
theorem sconst (f : CF) : Statement (.sconst f) := Nat.le_of_ble_eq_true rfl
theorem sfill (f : CF) : Statement (.sfill f) := Nat.le_of_ble_eq_true rfl
theorem smcast (f : CF) : Statement (.smcast f) := Nat.le_of_ble_eq_true rfl
theorem sremw (f : CF) : Statement (.sremw f) := Nat.le_of_ble_eq_true rfl
theorem srema (f : CF) : Statement (.srema f) := Nat.le_of_ble_eq_true rfl
theorem scirc (f : CF) : Statement (.scirc f) := Nat.le_of_ble_eq_true rfl
theorem scopy (f : CF) : Statement (.scopy f) := Nat.le_of_ble_eq_true rfl
theorem scopyc (f : CF) : Statement (.scopyc f) := Nat.le_of_ble_eq_true rfl
theorem sarm (f : CF) : Statement (.sarm f) := Nat.le_of_ble_eq_true rfl
theorem sdisarm (f : CF) : Statement (.sdisarm f) := Nat.le_of_ble_eq_true rfl
theorem spost (f : CF) : Statement (.spost f) := Nat.le_of_ble_eq_true rfl
theorem gath (f : CF) : Statement (.gath f) := Nat.le_of_ble_eq_true rfl
theorem scat (f : CF) : Statement (.scat f) := Nat.le_of_ble_eq_true rfl
theorem greplay (f : CF) : Statement (.greplay f) := Nat.le_of_ble_eq_true rfl
theorem sbar (f : CF) : Statement (.sbar f) := Nat.le_of_ble_eq_true rfl
theorem smark (f : CF) : Statement (.smark f) := Nat.le_of_ble_eq_true rfl
theorem sord (f : CF) : Statement (.sord f) := Nat.le_of_ble_eq_true rfl
theorem scfg (f : CF) : Statement (.scfg f) := Nat.le_of_ble_eq_true rfl
theorem srunGo (f : CF) : Statement (.srunGo f) := Nat.le_of_ble_eq_true rfl
theorem srunBack (f : CF) : Statement (.srunBack f) := Nat.le_of_ble_eq_true rfl
theorem sstop (f : CF) : Statement (.sstop f) := Nat.le_of_ble_eq_true rfl
theorem swload (f : CF) : Statement (.swload f) := Nat.le_of_ble_eq_true rfl
theorem smm (f : CF) : Statement (.smm f) := Nat.le_of_ble_eq_true rfl
theorem sarmg (f : CF) : Statement (.sarmg f) := Nat.le_of_ble_eq_true rfl
theorem spub (f : CF) : Statement (.spub f) := Nat.le_of_ble_eq_true rfl
theorem svsw (f : CF) : Statement (.svsw f) := Nat.le_of_ble_eq_true rfl
theorem svstage (f : CF) : Statement (.svstage f) := Nat.le_of_ble_eq_true rfl
theorem scoll (f : CF) : Statement (.scoll f) := Nat.le_of_ble_eq_true rfl
theorem sslot (f : CF) : Statement (.sslot f) := Nat.le_of_ble_eq_true rfl
theorem konst (f : CF) : Statement (.konst f) := Nat.le_of_ble_eq_true rfl
theorem csysShootdown (f : CF) : Statement (.csysShootdown f) := Nat.le_of_ble_eq_true rfl
theorem csysReplay (f : CF) : Statement (.csysReplay f) := Nat.le_of_ble_eq_true rfl
theorem csysPantry (f : CF) : Statement (.csysPantry f) := Nat.le_of_ble_eq_true rfl
theorem tNop : Statement (.tNop) := Nat.le_of_ble_eq_true rfl
theorem move (f : TF) : Statement (.move f) := Nat.le_of_ble_eq_true rfl
theorem join (f : TF) : Statement (.join f) := Nat.le_of_ble_eq_true rfl
theorem fork (f : TF) : Statement (.fork f) := Nat.le_of_ble_eq_true rfl
theorem steer (f : TF) : Statement (.steer f) := Nat.le_of_ble_eq_true rfl
theorem selp (f : TF) : Statement (.selp f) := Nat.le_of_ble_eq_true rfl
theorem acc (f : TF) : Statement (.acc f) := Nat.le_of_ble_eq_true rfl
theorem ctr (f : TF) : Statement (.ctr f) := Nat.le_of_ble_eq_true rfl
theorem turn (f : TF) : Statement (.turn f) := Nat.le_of_ble_eq_true rfl
theorem edld (f : TF) : Statement (.edld f) := Nat.le_of_ble_eq_true rfl
theorem edst (f : TF) : Statement (.edst f) := Nat.le_of_ble_eq_true rfl
theorem edatm (f : TF) : Statement (.edatm f) := Nat.le_of_ble_eq_true rfl
theorem src (f : TF) : Statement (.src f) := Nat.le_of_ble_eq_true rfl
theorem sink (f : TF) : Statement (.sink f) := Nat.le_of_ble_eq_true rfl
theorem cnt (f : TF) : Statement (.cnt f) := Nat.le_of_ble_eq_true rfl
theorem mergeArr (f : TF) : Statement (.mergeArr f) := Nat.le_of_ble_eq_true rfl
theorem mergeAlt (f : TF) : Statement (.mergeAlt f) := Nat.le_of_ble_eq_true rfl
theorem drop (f : TF) : Statement (.drop f) := Nat.le_of_ble_eq_true rfl
theorem peElementwiseA (f : AM) : Statement (.peElementwiseA f) := Nat.le_of_ble_eq_true rfl
theorem peElementwiseM (f : AM) : Statement (.peElementwiseM f) := Nat.le_of_ble_eq_true rfl
theorem peDotStep (f : AM) : Statement (.peDotStep f) := Nat.le_of_ble_eq_true rfl
theorem registerWriteLands (k : CtxId) (i : Nat) : Statement (.registerWriteLands k i) := Nat.le_of_ble_eq_true rfl
theorem interlockedValueLands (k : CtxId) (i : Nat) : Statement (.interlockedValueLands k i) := Nat.le_of_ble_eq_true rfl
theorem bankReply (k : CtxId) (i : Nat) : Statement (.bankReply k i) := Nat.le_of_ble_eq_true rfl
theorem trapEntry (k : CtxId) : Statement (.trapEntry k) := Nat.le_of_ble_eq_true rfl
theorem handlerFiringStart (tile : Nat) : Statement (.handlerFiringStart tile) := Nat.le_of_ble_eq_true rfl
theorem haltedContextResume (k : CtxId) (addr : Word) : Statement (.haltedContextResume k addr) := Nat.le_of_ble_eq_true rfl
theorem haltedTaskEnd (k : CtxId) : Statement (.haltedTaskEnd k) := Nat.le_of_ble_eq_true rfl
theorem firingStart (tile : Nat) : Statement (.firingStart tile) := Nat.le_of_ble_eq_true rfl
theorem budget (k : CtxId) : Statement (.budget k) := Nat.le_of_ble_eq_true rfl
theorem pcSample (tile : Nat) : Statement (.pcSample tile) := Nat.le_of_ble_eq_true rfl
theorem bankAccessPerformed (k : CtxId) (i : Nat) : Statement (.bankAccessPerformed k i) := Nat.le_of_ble_eq_true rfl
theorem atomicPerformed (k : CtxId) (i : Nat) : Statement (.atomicPerformed k i) := Nat.le_of_ble_eq_true rfl
theorem deferredReadAnswered (k : CtxId) (i : Nat) : Statement (.deferredReadAnswered k i) := Nat.le_of_ble_eq_true rfl
theorem deferredReadEntry (k : CtxId) (i : Nat) : Statement (.deferredReadEntry k i) := Nat.le_of_ble_eq_true rfl
theorem bankRemap (bank : Nat) (owner : Option Nat) : Statement (.bankRemap bank owner) := Nat.le_of_ble_eq_true rfl
theorem bankShutterOpen (bank : Nat) : Statement (.bankShutterOpen bank) := Nat.le_of_ble_eq_true rfl
theorem patrolScrub (line : Nat) : Statement (.patrolScrub line) := Nat.le_of_ble_eq_true rfl
theorem commandQueueAccept (tile i : Nat) : Statement (.commandQueueAccept tile i) := Nat.le_of_ble_eq_true rfl
theorem streamAccept (tile slot : Nat) : Statement (.streamAccept tile slot) := Nat.le_of_ble_eq_true rfl
theorem doorBinding (tile slot : Nat) : Statement (.doorBinding tile slot) := Nat.le_of_ble_eq_true rfl
theorem streamServiceTurn (tile slot : Nat) : Statement (.streamServiceTurn tile slot) := Nat.le_of_ble_eq_true rfl
theorem streamComplete (tile slot : Nat) : Statement (.streamComplete tile slot) := Nat.le_of_ble_eq_true rfl
theorem recordWrite (k : CtxId) (q : Nat) : Statement (.recordWrite k q) := Nat.le_of_ble_eq_true rfl
theorem ringHeadReread (k : CtxId) (q : Nat) : Statement (.ringHeadReread k q) := Nat.le_of_ble_eq_true rfl
theorem copyAccept (engine : Nat) : Statement (.copyAccept engine) := Nat.le_of_ble_eq_true rfl
theorem copyTransfer (engine i : Nat) : Statement (.copyTransfer engine i) := Nat.le_of_ble_eq_true rfl
theorem circuitEntryMove (tile slot : Nat) : Statement (.circuitEntryMove tile slot) := Nat.le_of_ble_eq_true rfl
theorem templateFiring (k : CtxId) (t : Nat) : Statement (.templateFiring k t) := Nat.le_of_ble_eq_true rfl
theorem postPlaced (tile i : Nat) : Statement (.postPlaced tile i) := Nat.le_of_ble_eq_true rfl
theorem creditGrant (src dst lb : Nat) : Statement (.creditGrant src dst lb) := Nat.le_of_ble_eq_true rfl
theorem gatherBatchEnd (tile slot : Nat) : Statement (.gatherBatchEnd tile slot) := Nat.le_of_ble_eq_true rfl
theorem sordAccept (tile i : Nat) : Statement (.sordAccept tile i) := Nat.le_of_ble_eq_true rfl
theorem orderTokenOpen (k : CtxId) (door : Nat) : Statement (.orderTokenOpen k door) := Nat.le_of_ble_eq_true rfl
theorem markerReachesHead (k : CtxId) (i : Nat) : Statement (.markerReachesHead k i) := Nat.le_of_ble_eq_true rfl
theorem sbarSatisfied (k : CtxId) (i : Nat) : Statement (.sbarSatisfied k i) := Nat.le_of_ble_eq_true rfl
theorem graphNodeArm (k : CtxId) : Statement (.graphNodeArm k) := Nat.le_of_ble_eq_true rfl
theorem scfgComplete (k : CtxId) (h : Nat) : Statement (.scfgComplete k h) := Nat.le_of_ble_eq_true rfl
theorem pageMove (k : CtxId) (h py px : Nat) : Statement (.pageMove k h py px) := Nat.le_of_ble_eq_true rfl
theorem peFiring (k : CtxId) (h row col : Nat) : Statement (.peFiring k h row col) := Nat.le_of_ble_eq_true rfl
theorem loopBufferFill (k : CtxId) (h row col : Nat) : Statement (.loopBufferFill k h row col) := Nat.le_of_ble_eq_true rfl
theorem edgeElementReply (k : CtxId) (h i : Nat) : Statement (.edgeElementReply k h i) := Nat.le_of_ble_eq_true rfl
theorem edgeFaultFreeze (k : CtxId) (h i : Nat) : Statement (.edgeFaultFreeze k h i) := Nat.le_of_ble_eq_true rfl
theorem sectionQuiescent (k : CtxId) (h : Nat) : Statement (.sectionQuiescent k h) := Nat.le_of_ble_eq_true rfl
theorem sectionStopped (k : CtxId) (h : Nat) : Statement (.sectionStopped k h) := Nat.le_of_ble_eq_true rfl
theorem peSwitch (k : CtxId) (h row col : Nat) : Statement (.peSwitch k h row col) := Nat.le_of_ble_eq_true rfl
theorem regionSilent (k : CtxId) (h : Nat) : Statement (.regionSilent k h) := Nat.le_of_ble_eq_true rfl
theorem weightLoadComplete (tile slot : Nat) : Statement (.weightLoadComplete tile slot) := Nat.le_of_ble_eq_true rfl
theorem rowAdmission (k : CtxId) (h : Nat) : Statement (.rowAdmission k h) := Nat.le_of_ble_eq_true rfl
theorem outputEntryPush (k : CtxId) (h j : Nat) : Statement (.outputEntryPush k h j) := Nat.le_of_ble_eq_true rfl
theorem smmRetire (k : CtxId) (h : Nat) : Statement (.smmRetire k h) := Nat.le_of_ble_eq_true rfl
theorem currentGrant : Statement (.currentGrant) := Nat.le_of_ble_eq_true rfl
theorem grantLowering : Statement (.grantLowering) := Nat.le_of_ble_eq_true rfl
theorem launchIntake (p q : Nat) : Statement (.launchIntake p q) := Nat.le_of_ble_eq_true rfl
theorem dispatcherPass (p : Nat) : Statement (.dispatcherPass p) := Nat.le_of_ble_eq_true rfl
theorem effectivePriorityRaise (l : Nat) : Statement (.effectivePriorityRaise l) := Nat.le_of_ble_eq_true rfl
theorem taskPlacement (k : CtxId) : Statement (.taskPlacement k) := Nat.le_of_ble_eq_true rfl
theorem taskStart (k : CtxId) : Statement (.taskStart k) := Nat.le_of_ble_eq_true rfl
theorem taskEnd (k : CtxId) : Statement (.taskEnd k) := Nat.le_of_ble_eq_true rfl
theorem launchEnd (l : Nat) : Statement (.launchEnd l) := Nat.le_of_ble_eq_true rfl
theorem softPreemption (l : Nat) : Statement (.softPreemption l) := Nat.le_of_ble_eq_true rfl
theorem hardPreemption (k : CtxId) : Statement (.hardPreemption k) := Nat.le_of_ble_eq_true rfl
theorem preemptionDrainEnd (k : CtxId) : Statement (.preemptionDrainEnd k) := Nat.le_of_ble_eq_true rfl
theorem contextRestore (k : CtxId) : Statement (.contextRestore k) := Nat.le_of_ble_eq_true rfl
theorem pageWalkComplete (tile i : Nat) : Statement (.pageWalkComplete tile i) := Nat.le_of_ble_eq_true rfl
theorem divertedElementServed (tile i : Nat) : Statement (.divertedElementServed tile i) := Nat.le_of_ble_eq_true rfl
theorem periodicRewalk (tile i : Nat) : Statement (.periodicRewalk tile i) := Nat.le_of_ble_eq_true rfl
theorem unresolvable (tile i : Nat) : Statement (.unresolvable tile i) := Nat.le_of_ble_eq_true rfl
theorem shootdownComplete (tile i : Nat) : Statement (.shootdownComplete tile i) := Nat.le_of_ble_eq_true rfl
theorem spubPublish (set : Nat) : Statement (.spubPublish set) := Nat.le_of_ble_eq_true rfl
theorem versionSwitch (p launch n : Nat) : Statement (.versionSwitch p launch n) := Nat.le_of_ble_eq_true rfl
theorem slotFree (set slot : Nat) : Statement (.slotFree set slot) := Nat.le_of_ble_eq_true rfl
theorem packetArrival (w : Wire) : Statement (.packetArrival w) := Nat.le_of_ble_eq_true rfl
theorem ackArrival (a : WireAck) : Statement (.ackArrival a) := Nat.le_of_ble_eq_true rfl
theorem ackTimer (i : Nat) : Statement (.ackTimer i) := Nat.le_of_ble_eq_true rfl
theorem refusedPacketResend (i : Nat) : Statement (.refusedPacketResend i) := Nat.le_of_ble_eq_true rfl
theorem unackedPacketResend (i : Nat) : Statement (.unackedPacketResend i) := Nat.le_of_ble_eq_true rfl
theorem orderwin (i : Nat) : Statement (.orderwin i) := Nat.le_of_ble_eq_true rfl
theorem streamEntryReclaim (i : Nat) : Statement (.streamEntryReclaim i) := Nat.le_of_ble_eq_true rfl
theorem portDown (port : Nat) : Statement (.portDown port) := Nat.le_of_ble_eq_true rfl
theorem portUp (port : Nat) : Statement (.portUp port) := Nat.le_of_ble_eq_true rfl
theorem ptpSyncMessage (offset : BitVec 32) : Statement (.ptpSyncMessage offset) := Nat.le_of_ble_eq_true rfl
theorem syncTimeout : Statement (.syncTimeout) := Nat.le_of_ble_eq_true rfl
theorem timeSlotStart (p : Nat) : Statement (.timeSlotStart p) := Nat.le_of_ble_eq_true rfl
theorem collectiveStartTime (tile slot : Nat) : Statement (.collectiveStartTime tile slot) := Nat.le_of_ble_eq_true rfl
theorem collectiveChunk (tile slot : Nat) : Statement (.collectiveChunk tile slot) := Nat.le_of_ble_eq_true rfl
theorem peerReadRequest (p : Nat) (addr : Word) (a : HubAccess) : Statement (.peerReadRequest p addr a) := Nat.le_of_ble_eq_true rfl
theorem powerOnReset (r : BootRun) : Statement (.powerOnReset r) := Nat.le_of_ble_eq_true rfl
theorem firmwareUpload (image : List Byte) (r : BootRun) : Statement (.firmwareUpload image r) := Nat.le_of_ble_eq_true rfl
theorem statusQuery : Statement (.statusQuery) := Nat.le_of_ble_eq_true rfl
theorem linkRetryFailure (link : Nat) : Statement (.linkRetryFailure link) := Nat.le_of_ble_eq_true rfl
theorem partitionEnable (pr : Priv) (p : Nat) : Statement (.partitionEnable pr p) := Nat.le_of_ble_eq_true rfl
theorem partitionDisable (pr : Priv) (p : Nat) : Statement (.partitionDisable pr p) := Nat.le_of_ble_eq_true rfl
theorem hregWrite (pr : Priv) (p n : Nat) (v : Word) : Statement (.hregWrite pr p n v) := Nat.le_of_ble_eq_true rfl
theorem lqWrite (pr : Priv) (p n : Nat) (v : Word) : Statement (.lqWrite pr p n v) := Nat.le_of_ble_eq_true rfl
theorem wsetWrite (pr : Priv) (n : Nat) (v : Word) : Statement (.wsetWrite pr n v) := Nat.le_of_ble_eq_true rfl
theorem kownWrite (pr : Priv) (n : Nat) (v : Word) : Statement (.kownWrite pr n v) := Nat.le_of_ble_eq_true rfl
theorem hubRegisterWrite (pr : Priv) (r : HubReg) (v : Word) : Statement (.hubRegisterWrite pr r v) := Nat.le_of_ble_eq_true rfl
theorem keyLoad (n : Nat) (blob : List Byte) : Statement (.keyLoad n blob) := Nat.le_of_ble_eq_true rfl
theorem attestationRequest (nonce : BitVec 384) : Statement (.attestationRequest nonce) := Nat.le_of_ble_eq_true rfl
theorem apertureAccess (addr : Nat) (a : HubAccess) : Statement (.apertureAccess addr a) := Nat.le_of_ble_eq_true rfl
theorem walkAnswer (req : Nat) (a : WalkAnswer) : Statement (.walkAnswer req a) := Nat.le_of_ble_eq_true rfl
theorem faultAnswer (req : Nat) (retry : Bool) : Statement (.faultAnswer req retry) := Nat.le_of_ble_eq_true rfl
theorem spillAnswer (req : Nat) (buf : Option Nat) : Statement (.spillAnswer req buf) := Nat.le_of_ble_eq_true rfl
theorem saveAnswer (req image : Nat) (claim : List Nat) : Statement (.saveAnswer req image claim) := Nat.le_of_ble_eq_true rfl
theorem dispatchAnswer (req : Nat) (tiles : Option (List Nat)) : Statement (.dispatchAnswer req tiles) := Nat.le_of_ble_eq_true rfl
theorem pageallocAnswer (req py px : Nat) (moves : List (Nat × Nat × Nat)) : Statement (.pageallocAnswer req py px moves) := Nat.le_of_ble_eq_true rfl
theorem slewClk (n : Nat) : Statement (.slewClk n) := Nat.le_of_ble_eq_true rfl
theorem traceRingDrain (n : Nat) : Statement (.traceRingDrain n) := Nat.le_of_ble_eq_true rfl

end Sys2Proof.Laws.OneSlot
end

