-- ==== Sys2Proof/Tests/Slice0.lean ====
section
/-! SUPPORT. Tests: words of the encodings written field by field, ill-formed terms, single steps, and witnesses of the
hypotheses of the obligations. Expected results come from the spec's tables and examples. -/

namespace Sys2Proof.Machine.Tests

set_option Elab.async false

open Sys2Proof

/-! ## Words field by field (R41 to R57, Tables 2.2 to 2.13) -/

theorem test_word_add : decodeS (1#1 ++ 2#4 ++ 1#6 ++ 5#6 ++ 6#6 ++ 7#6 ++ 0#3).toNat = .ok (.add ⟨true, 2, 5, 6, 7⟩) := by decide
/-- R121: CMPI.LE q3, s4, -5 encodes as 0x01F1_89FB. -/
theorem test_word_cmpi : decodeS 0x01F189FB = .ok (.cmpiCond47 ⟨false, 0, 2, 3, 4, 0x1FB⟩) := by decide
theorem test_word_ldd : decodeS (0#1 ++ 0#4 ++ 0x17#6 ++ 9#6 ++ 10#6 ++ 3#9).toNat = .ok (.ldd ⟨false, 0, 9, 10, 3⟩) := by decide
theorem test_word_mfs : decodeS (0#1 ++ 0#4 ++ 0x2E#6 ++ 9#6 ++ 0#3 ++ 11#12).toNat = .ok (.mfs ⟨false, 0, 9, .clk⟩) := by decide
theorem test_word_s_reserved : decodeS (0#1 ++ 0#4 ++ 63#6 ++ 0#21).toNat = .error 21 := by decide
theorem test_word_xadd : decodeX (3#4 ++ 1#5 ++ 2#5 ++ 3#5 ++ 4#5 ++ 0#8).toNat = .ok (.xadd ⟨3, 2, 3, 4⟩) := by decide
theorem test_word_vadd :
    decodeV (1#8 ++ 0#4 ++ 1#4 ++ 8#9 ++ 9#9 ++ 10#9 ++ 0#9 ++ 0#3 ++ 0#1 ++ 0#4 ++ 0#4).toNat
      = .ok (.vadd ⟨0, 1, 8, 9, 10, 0, 0, false, 0, 0⟩) := by decide
theorem test_word_konst :
    decodeC (62#8 ++ 0#4 ++ 0#8 ++ 0#6 ++ 9#6 ++ 0#6 ++ 0#6 ++ 0#4 ++ 0#4 ++ 0#4 ++ 0#8 ++ 0x0123456789ABCDEF#64).toNat
      = .ok (.konst ⟨0, 0, 0, 9, 0, 0, 0, 0, 0, 0, 0x0123456789ABCDEF⟩) := by decide
theorem test_word_move : decodeT (1#5 ++ 2#5 ++ 16#5 ++ 0#5 ++ 0#12).toNat = .ok (.move ⟨2, 16, 0, 0⟩) := by decide
theorem test_word_am :
    decodeAM false (1#8 ++ 0#4 ++ 2#5 ++ 16#5 ++ 17#5 ++ 0#5).toNat = .ok (some (.peElementwiseA ⟨1, 0, 2, 16, 17, 0⟩)) := by decide
/-- R44: two destinations of one bundle with the same name are ILLEGAL; TVAL names the destination field of the later. -/
theorem test_duplicate_destination :
    decodeBundle ⟨(0#1 ++ 0#4 ++ 1#6 ++ 9#6 ++ 6#6 ++ 7#6 ++ 0#3).toNat, 0, 0,
      (62#8 ++ 0#4 ++ 0#8 ++ 0#6 ++ 9#6 ++ 0#6 ++ 0#6 ++ 0#4 ++ 0#4 ++ 0#4 ++ 0#8 ++ 5#64).toNat⟩ = .error (3 + 4 * 96) := by decide

/-! ## Ill-formed terms, one for each check -/

theorem test_ill_loop : (Instr.loop ⟨false, 0, 1, 0⟩).wf = false := by decide
theorem test_ill_plog : (Instr.plogNot ⟨false, 0, 1, 2, 3⟩).wf = false ∧ (Instr.plogSet ⟨false, 0, 1, 2, 0⟩).wf = false := by decide
theorem test_ill_pair : (Instr.cadv ⟨0, 0, 1, 2, 3⟩).wf = false ∧ (Instr.xbstepW ⟨0, 0, 1, 2⟩).wf = false := by decide
/-- VADD takes no integer type (Table 2.8). -/
theorem test_ill_v : (Instr.vadd ⟨8, 0, 1, 2, 3, 0, 0, false, 0, 0⟩).wf = false := by decide
/-- A command's reserved immediate (Table 2.10). -/
theorem test_ill_c : (Instr.smark ⟨0, 0, 0, 0, 0, 0, 0, 0, 0, 0, 0x8000⟩).wf = false := by decide
theorem test_ill_srun : (Instr.srunBack ⟨0, 0, 0, 0, 0, 0, 0, 0, 0, 0, 0⟩).wf = false := by decide
theorem test_ill_csys : (Instr.csysReplay ⟨0, 0, 0, 0, 0, 0, 0, 0, 8, 0, 2⟩).wf = false := by decide
/-- Destination codes 24, 25 and those from 27 name no place (R190). -/
theorem test_ill_t : (Instr.move ⟨24, 16, 0, 0⟩).wf = false ∧ (Instr.move ⟨2, 27, 0, 0⟩).wf = false := by decide
theorem test_ill_am : (Instr.peElementwiseA ⟨0x22, 10, 2, 16, 17, 0⟩).wf = false
    ∧ (Instr.peElementwiseM ⟨0x4A, 10, 2, 16, 17, 18⟩).wf = false ∧ (Instr.peDotStep ⟨0x22, 10, 2, 16, 17, 0⟩).wf = false := by decide
theorem test_ill_ctx : (Instr.trapEntry ⟨128, 0⟩).wf = false ∧ (Instr.trapEntry ⟨0, 4⟩).wf = false := by decide
theorem test_ill_slot : (Instr.streamAccept 0 48).wf = false ∧ (Instr.streamAccept 128 0).wf = false := by decide
theorem test_ill_pe : (Instr.peFiring ⟨0, 0⟩ 0 12 0).wf = false ∧ (Instr.peFiring ⟨0, 0⟩ 16 0 0).wf = false := by decide
theorem test_ill_hub : (Instr.hubRegisterWrite .debugger (.pctl 16) 0).wf = false ∧ (Instr.hregWrite .partitionManager 0 64 0).wf = false := by decide


/-! ## Small states -/

/-- A region of tile memory: offset 0, 2^LOG2 bytes, of a kind, for context 0. -/
def regionWord (log2 kind : Nat) : Word := BitVec.ofNat 64 (2 ^ 31 + kind * 2 ^ 27 + log2 * 2 ^ 22)

def c0 : Ctx := { live := true, firing := true, budget := 100, slotShare := 4 }
/-- A tile with a plain region of 4 KiB, and a running context. -/
def tileOf (kind : Nat) : Tile := { treg := [(0, regionWord 12 kind)] }
def on (c : Ctx) : State := { c := c, tiles := [tileOf 0] }
def st : State := on c0
def k0 : CtxId := ⟨0, 0⟩
def cmdOf (i : Instr) : Command :=
  { ctx := k0, seq := 5, op := i, f := ⟨0, 0, 0, 0, 0, 0, 0, 0, 1, 0, 0⟩, base := 0, pblk := 0, prom := none, rm := .rne, epoch := 0 }
def fillF : CF := ⟨0, 0, 0, 0, 0, 0, 0, 0, 1, 0, 0⟩

/-- What the bundle under issue will write after an act, and its traps. -/
def wrote (r : Out) : List BWrite := match r with
  | .next s => s.bundle.writes
  | _ => []
def trapped (r : Out) : List (Nat × Cause × Word) := match r with
  | .next s => s.bundle.traps
  | _ => []
def held (r : Out) : List Hold := match r with
  | .next s => s.bundle.holds
  | _ => []
def withS (n : Nat) (w : Word) (s : State) : State := { s with c := { s.c with files := s.c.files.write (.s n) (wordVal w) allBits 0 } }
def withX (n : Nat) (w : Word) (s : State) : State := { s with c := { s.c with files := s.c.files.write (.x n) (wordVal w) allBits 0 } }

/-! ## Single steps -/

/-- R120: MOVI s9, 0x24 followed by MOVHI s9, 0x3456 leaves s9 = 0x12_3456. -/
theorem test_movhi : wrote (exec (.movhi ⟨false, 0, 9, 0x3456⟩) (withS 9 0x24 st)) = [.reg (.s 9) (wordVal 0x123456) allBits 1] := by decide +kernel
/-- R119: ANDI with -8 clears the three lowest bits. -/
theorem test_andi : wrote (exec (.andi ⟨false, 0, 9, 8, 0x1F8⟩) (withS 8 0xFF st)) = [.reg (.s 9) (wordVal 0xF8) allBits 1] := by decide +kernel
theorem test_add_wraps : wrote (exec (.add ⟨false, 0, 9, 8, 8⟩) (withS 8 0x8000000000000001 st)) = [.reg (.s 9) (wordVal 2) allBits 1] := by
  decide +kernel
/-- Table 4.9: a division by zero gives all ones; its remainder is the dividend. -/
theorem test_div_zero : wrote (exec (.div ⟨false, 0, 9, 8, 0⟩) (withS 8 7 st)) = [.reg (.s 9) (wordVal (-1)) allBits 16] := by decide +kernel
theorem test_rem_sign : wrote (exec (.rem ⟨false, 0, 9, 8, 7⟩) (withS 7 3 (withS 8 (-7) st))) = [.reg (.s 9) (wordVal (-1)) allBits 16] := by
  decide +kernel
/-- R121: CMPI.LE q3, s4, -5 sets q3 exactly when SInt(s4) is at most -5. -/
theorem test_cmpi_le : wrote (exec (.cmpiCond47 ⟨false, 0, 2, 3, 4, 0x1FB⟩) (withS 4 (-5) st)) = [.reg (.q 3) (boolVal true) allBits 1]
    ∧ wrote (exec (.cmpiCond47 ⟨false, 0, 2, 3, 4, 0x1FB⟩) (withS 4 (-4) st)) = [.reg (.q 3) (boolVal false) allBits 1] := by decide +kernel
/-- R123: MTS of TBASE outside handler mode traps PRIV with the register's number. -/
theorem test_mts_priv : trapped (exec (.mts ⟨false, 0, 9, .tbase⟩) st) = [(0, .priv, 4)] := by decide +kernel
/-- R298: a load of 8 bytes at an address that is not a multiple of 8 traps ALIGN with the address. -/
theorem test_ldd_align : trapped (exec (.ldd ⟨false, 0, 9, 8, 0⟩) (withS 8 0x2000000000000004 st)) = [(0, .align, 0x2000000000000004)] := by
  decide +kernel
theorem test_ldd_access : trapped (exec (.ldd ⟨false, 0, 9, 8, 0⟩) (withS 8 0x2000000000001000 st)) = [(0, .access, 0x2000000000001000)] := by
  decide +kernel
theorem test_br_back : wrote (exec (.br ⟨false, 0, 0x1FFFFF⟩) { st with bundle := { pc := 64 } }) = [.jump 32 1] := by decide +kernel
theorem test_loop_zero : wrote (exec (.loop ⟨false, 0, 1, 3⟩) { st with bundle := { pc := 64 } })
    = [.lc 0, .frame 96 160 false, .jump 192 1] := by decide +kernel
theorem test_exit_handler : trapped (exec (.exit ⟨false, 0⟩) (on { c0 with sys := { hm := true } })) = [(0, .priv, 0)] := by decide +kernel
theorem test_trap : trapped (exec (.trap ⟨false, 0, 17⟩) st) = [(0, .soft, 17)] := by decide +kernel
theorem test_sleep_waits : held (exec (.sleep ⟨false, 0, 8⟩) (withS 8 1 st)) = [.sleep] := by decide +kernel
theorem test_waitg_skew : trapped (exec (.waitgL ⟨false, 0, 8⟩) (withS 8 9 st)) = [(0, .skew, 9)] := by decide +kernel
/-- R147: XMUL keeps 64 bits, with latency 3. -/
theorem test_xmul : wrote (exec (.xmul ⟨0, 3, 4, 4⟩) (withX 4 0x100000001 st)) = [.reg (.x 3) (wordVal 0x200000001) allBits 3] := by decide +kernel
theorem test_xwrap : wrote (exec (.xwrap ⟨0, 3, 4, 5⟩) (withX 5 6 (withX 4 7 st))) = [.reg (.x 3) (wordVal 1) allBits 1] := by decide +kernel
theorem test_cadv_equal : wrote (exec (.cadv ⟨0, 1, 4, 5, 2⟩) (withX 5 6 (withX 4 6 st)))
    = [.reg (.x (pairLo 1).toNat) (wordVal 1) allBits 1, .reg (.x (pairHi 1).toNat) (wordVal 1) allBits 1,
       .reg (.q 2) (boolVal true) allBits 1] := by decide +kernel
/-- R99: a write to s0 is discarded. -/
theorem test_s0 : (c0.files.write (.s 0) (wordVal 5) allBits 0).read (.s 0) = 0 := by decide +kernel
/-- R43: a false guard leaves a syllable without effect. -/
theorem test_false_guard : wrote (exec (.add ⟨false, 1, 9, 8, 8⟩) st) = [] := by decide +kernel
/-- R216: a marked source traps POISON with its origin. -/
theorem test_poison_source : trapped (exec (.add ⟨false, 0, 9, 8, 8⟩)
    (on { c0 with files := c0.files.write (.s 8) (wordVal 1) allBits 0x01000000 })) = [(0, .poison, 0x01000000)] := by decide +kernel
theorem test_mand : wrote (exec (.mnot ⟨0, 0, 3, 0, 0, 0, 0, false, 0, 0⟩) st) = [.reg (.m 3) (wordVal 0) allBits 1] := by decide +kernel
theorem test_konst : wrote (exec (.konst ⟨0, 0, 0, 9, 0, 0, 0, 0, 0, 0, 77⟩) st) = [.reg (.s 9) (wordVal 77) allBits 2] := by decide +kernel
def pe1 (ls : NMap Token) : Pe := { row := 0, col := 0, recNo := 0, copy := 0, tag := 1, locals := ls }
/-- R190, R191: MOVE from a local register to another. -/
theorem test_move : exec (.move ⟨3, 2, 0, 0⟩) { st with micro := some { pe := pe1 [(2, { payload := 9 })] } }
    = .next { st with micro := some { pe := pe1 [(2, { payload := 9 }), (3, { payload := 9, tag := 1 })] } } := by rfl

/-! ## Witnesses: syllables -/

theorem wit_NopsChangeNothing : (2 ^ 31 : Nat) % 2 ^ 31 = 0 ∧ (2 ^ 31 : Nat) < 2 ^ 32 := by decide

theorem free (s : State) (g : BitVec 4) (a b : List Reg)
    (h : (!s.c.claimed (s.regQ g) && b.all (fun r => r.fixed || !s.c.claimed r) && s.rdQ g
      && a.all (fun r => r.fixed || !s.c.claimed r) && s.c.files.firstPoison a == none) = true) : Unhindered s g a b := by
  simp only [Bool.and_eq_true, Bool.not_eq_true', List.all_eq_true, Bool.or_eq_true, beq_iff_eq] at h
  exact ⟨h.1.1.1.1, h.1.1.1.2, h.1.1.2, h.1.2, h.2⟩

theorem wit_ScalarArithmetic : Unhindered st 0 [st.regS 6, st.regS 7] [st.regS 5] := free _ _ _ _ (by decide +kernel)
theorem wit_ComparesSetPredicates : Unhindered st 0 [st.regS 6, st.regS 7] [st.regQ 0]
    ∧ ((0x0D * 2 ^ 21 + 2 ^ 19) / 2 ^ 21 % 64 = 0x0D ∧ (0x0D * 2 ^ 21 + 2 ^ 19) / 2 ^ 19 % 4 ≠ 0) :=
  ⟨free _ _ _ _ (by decide +kernel), by decide⟩
theorem wit_PredicateLogic : Unhindered st 0 [st.regQ 1, st.regQ 2] [st.regQ 3] := free _ _ _ _ (by decide +kernel)

/-- A load and a store that pass the checks, one that ALIGN stops and one outside every region. -/
theorem wit_ScalarMemory : Unhindered st 0 [st.regS 8] [st.regS 9] ∧ st.checkS .load 0x2000000000000FF8 8 = none
    ∧ st.checkS .load 0x2000000000000001 8 = some .align ∧ st.checkS .store 0x2000000000001000 8 = some .access
    ∧ st.checkS .store 0x2000000000000000 1 = none :=
  ⟨free _ _ _ _ (by decide +kernel), by decide +kernel⟩
/-- A Hall region of partition 0 and its bank. -/
def hallWord (kind : Nat) : Word := BitVec.ofNat 64 (2 ^ 63 + kind * 2 ^ 61 + 12 * 2 ^ 35)
def hallSt : State := { on c0 with hreg := [(0, hallWord 0)], bankOwner := [(0, 1)] }
theorem wit_HallAtomics : Unhindered hallSt 0 [hallSt.regS 8, hallSt.regS 7] [hallSt.regS 9]
    ∧ space 0x1000000000000008 = 1 ∧ zeroBitsOk 0x1000000000000008 = true
    ∧ hallSt.placeOf hallSt.c 0x1000000000000008 = some (.stored (hallKey 0 8) .plain) :=
  ⟨free _ _ _ _ (by decide +kernel), by decide +kernel⟩
theorem wit_HallAtomics_stops : space 0x2000000000000008 ≠ 1 ∧ space 0x1000000000000004 = 1
    ∧ (0x1000000000000004 : Word).toNat % 8 ≠ 0 := by decide +kernel

theorem wit_ControlTransfers : Unhindered st 0 [st.regS 8] [st.regS 62] ∧ (st.rdS 8).toNat % 32 = 0
    ∧ ((withS 8 31 st).rdS 8).toNat % 32 ≠ 0 := ⟨free _ _ _ _ (by decide +kernel), by decide +kernel, by decide +kernel⟩
def handlerSt : State := on { c0 with sys := { hm := true, tbase := 64 } }
def loopSt (lc ec : Word) : State := on { c0 with sys := { lc := lc, ec := ec } }
theorem wit_Loops : Unhindered handlerSt 0 [handlerSt.regS 8] [] ∧ handlerSt.c.sys.hm = true
    ∧ Unhindered (withS 8 1 st) 0 [st.regS 8] [] ∧ (withS 8 1 st).rdS 8 ≠ 0 ∧ st.rdS 8 = 0
    ∧ Unhindered (loopSt 1 0) 0 [] [] ∧ Unhindered (loopSt 0 1) 0 [] [] ∧ Unhindered (loopSt 1 1) 0 [] [] :=
  ⟨free _ _ _ _ (by decide +kernel), by decide, free _ _ _ _ (by decide +kernel), by decide +kernel, by decide +kernel,
    free _ _ _ _ (by decide +kernel), free _ _ _ _ (by decide +kernel), free _ _ _ _ (by decide +kernel)⟩
theorem wit_SystemSyllables : Unhindered handlerSt 0 [handlerSt.regS 8] [] ∧ mtsAllowed handlerSt.c.sys.hm .tbase = true
    ∧ Unhindered st 0 [st.regS 8] [] ∧ mtsAllowed st.c.sys.hm .tbase = false ∧ Unhindered st 0 [] [st.regS 8] :=
  ⟨free _ _ _ _ (by decide +kernel), by decide, free _ _ _ _ (by decide +kernel), by decide, free _ _ _ _ (by decide +kernel)⟩
/-- A register bound to a command that is not complete, in task mode and in handler mode; no binding; a locked servo. -/
def boundSt (hm : Bool) : State :=
  { on { c0 with sys := { hm := hm }, bindings := [(8, 5)], opens := [{ seq := 5, lane := 0 }] } with locked := true }
theorem wit_Waits : Unhindered (boundSt false) 0 [.s 8] [] ∧ (boundSt false).c.openBinding (.s 8) = true
    ∧ Unhindered (boundSt true) 0 [.s 8] [] ∧ (boundSt true).c.openBinding (.s 8) = true ∧ st.c.openBinding (.s 8) = false
    ∧ ¬((withS 8 1 st).rdS 8).toNat ≤ st.gtime ∧ (st.rdS 8).toNat ≤ st.gtime ∧ st.locked = false ∧ (boundSt true).locked = true
    ∧ st.markPending 1 = false ∧ (on { c0 with markers := [{ queue := 14, lane := 0, seq := 1 }] }).markPending 0x4000 = true :=
  ⟨free _ _ _ _ (by decide +kernel), by decide +kernel, free _ _ _ _ (by decide +kernel), by decide +kernel, by decide +kernel,
    by decide +kernel, by decide +kernel, by decide, by decide, by decide +kernel, by decide +kernel⟩
theorem wit_IndexResults : Unhindered st 0 [st.regX 3, st.regX 4] [st.regX 2] ∧ Unhindered st 0 [st.regS 3] [st.regX 2] :=
  ⟨free _ _ _ _ (by decide +kernel), free _ _ _ _ (by decide +kernel)⟩
theorem wit_CursorsAndIndexLoads :
    Unhindered st 0 [st.regX 4, st.regX 5, st.regX (pairLo 1), st.regX (pairHi 1)] [st.regX (pairLo 1), st.regX (pairHi 1), st.regQ 2]
    ∧ ((withX 5 1 st).rdX 4).toNat < ((withX 5 1 st).rdX 5).toNat ∧ ((withX 4 1 st).rdX 5).toNat < ((withX 4 1 st).rdX 4).toNat
    ∧ st.checkX 0x2000000000000FFC 4 = none ∧ st.checkX 0x2000000000000002 4 = some .align
    ∧ (st.rdX (pairLo 1)).toNat < ((withX (pairHi 1).toNat 4 st).rdX (pairHi 1)).toNat :=
  ⟨free _ _ _ _ (by decide +kernel), by decide +kernel⟩

def vf (ty sub : Nat) : VF := ⟨BitVec.ofNat 4 ty, 0, 8, 9, 10, 11, 0, false, 0, BitVec.ofNat 4 sub⟩
theorem freeV (s : State) (f : VF) (a b : List Reg) (h : Unhindered s f.g a b) (r : s.row0Busy = false) : UnhinderedV s f a b := ⟨h, r⟩
theorem wit_FloatLaneResults : UnhinderedV st (vf 0 0) [st.regV 9, st.regV 10, st.regV 11] [st.regV 8] :=
  freeV _ _ _ _ (free _ _ _ _ (by decide +kernel)) (by decide +kernel)
theorem wit_SignAndClassResults : UnhinderedV st (vf 1 0) [st.regV 9] [st.regV 8] :=
  freeV _ _ _ _ (free _ _ _ _ (by decide +kernel)) (by decide +kernel)
theorem wit_IntegerLaneResults : UnhinderedV st (vf 8 1) [st.regV 9, st.regV 10] [st.regV 8] :=
  freeV _ _ _ _ (free _ _ _ _ (by decide +kernel)) (by decide +kernel)
theorem wit_VectorComparesAndMoves : UnhinderedV st (vf 0 0) [st.regV 9, st.regV 10] [.m 8]
    ∧ UnhinderedV st (vf 0 0) [st.regS 9] [st.regV 8] ∧ UnhinderedV st (vf 0 0) [st.regV 9] [st.regS 8] :=
  ⟨freeV _ _ _ _ (free _ _ _ _ (by decide +kernel)) (by decide +kernel),
   freeV _ _ _ _ (free _ _ _ _ (by decide +kernel)) (by decide +kernel),
   freeV _ _ _ _ (free _ _ _ _ (by decide +kernel)) (by decide +kernel)⟩
theorem wit_ConversionAndPacking : UnhinderedV st (vf 4 0) [st.regV 9, st.regV 10] [st.regV 8] :=
  freeV _ _ _ _ (free _ _ _ _ (by decide +kernel)) (by decide +kernel)
theorem wit_DotsAndReductions :
    UnhinderedV st (vf 1 0) ([st.regV 9, st.regV 10, st.regV 8] ++ if ElemType.scaled (vElem (vf 1 0)) then [st.regV 11] else [])
      [st.regV 8] := freeV _ _ _ _ (free _ _ _ _ (by decide +kernel)) (by decide +kernel)
/-- An output door without room, and one with room. -/
def fullDoor : State := on { c0 with doorsIn := [(0, List.replicate 16 (.entry ⟨0, 0, 0⟩ 0))] }
theorem wit_VectorMemoryAndDoors : UnhinderedV st (vf 0 0) [st.regS 9] [st.regV 8] ∧ st.checkV .load 0x2000000000000FC0 = none
    ∧ st.checkV .store 0x2000000000000020 = some .align ∧ fullDoor.c.doorRoom 0 = false ∧ st.c.doorRoom 0 = true
    ∧ UnhinderedV st (vf 0 0) [] [st.regV 8] :=
  ⟨freeV _ _ _ _ (free _ _ _ _ (by decide +kernel)) (by decide +kernel), by decide +kernel, by decide +kernel, by decide +kernel,
   by decide +kernel, freeV _ _ _ _ (free _ _ _ _ (by decide +kernel)) (by decide +kernel)⟩
theorem wit_MaskOperations : UnhinderedV st (vf 0 0) [.m 9, .m 10] [.m 8] ∧ UnhinderedV st (vf 0 0) [.m 9] [st.regS 8] :=
  ⟨freeV _ _ _ _ (free _ _ _ _ (by decide +kernel)) (by decide +kernel),
   freeV _ _ _ _ (free _ _ _ _ (by decide +kernel)) (by decide +kernel)⟩
/-- A context with a share, an entry left and queue 1 of its table. -/
def cmdSt : State := on { c0 with cqs := [(1, { base := 64, log2 := 4 })] }
theorem wit_CommandsAndConstants : Unhindered cmdSt 0 ([cmdSt.regS 0] ++ [cmdSt.regS 0]) [cmdSt.regS 0]
    ∧ cmdSt.slotsHeld cmdSt.c < cmdSt.c.slotShare ∧ cmdSt.myTile.queue.length < 64 ∧ cmdSt.c.absent 1 = false :=
  ⟨free _ _ _ _ (by decide +kernel), by decide +kernel⟩

/-! ## Witnesses: micro-operations -/

/-- A firing: local 2 holds data with bit 0 set, local 3 data with bit 0 clear, local 4 poison; counter at 1. -/
def fire : Micro :=
  { pe := { pe1 [(2, { payload := 9 }), (3, { payload := 8 }), (4, poisonToken 7)] with tag := 0, counts := [(0, 1)] } }
def microSt : State := { st with micro := some fire }
theorem wit_TokenMoves : microSt.micro = some fire ∧ (fire.src 2).kind ≠ .poison ∧ (fire.src 3).kind ≠ .poison
    ∧ (fire.src 4).kind = .poison ∧ (fire.src (0x200 / 128)).kind = .poison ∧ (fire.src (0x100 / 128)).kind ≠ .poison := by
  decide +kernel
theorem wit_CountersMergesAndTurn : fire.count + 1 < 3 ∧ 2 ≤ fire.count + 1 ∧ (2 : BitVec 5) ≠ 26 ∧ (fire.count + 1) % 3 ≠ 0
    ∧ (fire.count + 1) % 2 = 0 ∧ (fire.src 2).kind ≠ .poison ∧ (fire.src 4).kind = .poison := by decide +kernel
theorem wit_MergesAndTurn : ({ fire with heads := [(16, {})] } : Micro).ready 16 = true ∧ fire.ready 16 = false
    ∧ fire.pe.halves.1.sealed = false ∧ fire.pe.halves.1.elems.length < 63 ∧ fire.closed.contains 16 = false ∧ isChan 2 = false := by
  decide +kernel
theorem wit_EdgeAccesses : microSt.micro = some fire ∧ edgeBytes 0 ≠ 64 ∧ (fire.addrSrc 2).kind ≠ .poison ∧ (fire.src 3).kind ≠ .poison
    ∧ (fire.addrSrc 4).kind = .poison := by decide +kernel
theorem wit_ArithmeticMicroOps : microSt.micro = some fire ∧ (fire.src 2).kind ≠ .poison ∧ (fire.src 3).kind ≠ .poison
    ∧ (fire.src 4).kind = .poison := by decide +kernel
theorem wit_MicroOpsOnlyFire : isMicroOp (.move ⟨3, 2, 0, 0⟩) = true ∧ isMicroOp (.peDotStep ⟨0x4A, 10, 2, 16, 17, 18⟩) = true
    ∧ st.micro = none ∧ microSt.micro = some fire := by decide +kernel

/-! ## Witnesses: the control core -/

def landSt : State := on { c0 with inflight := [⟨.s 3, 1, allBits, 2, false⟩], landings := [⟨7, [(.s 4, 1, allBits)], 0, 0, 0, none⟩] }
theorem wit_WritesLand : landSt.ctx? k0 = some landSt.c ∧ landSt.c.inflight[0]? = some ⟨.s 3, 1, allBits, 2, false⟩
    ∧ landSt.c.landings[0]? = some ⟨7, [(.s 4, 1, allBits)], 0, 0, 0, none⟩ ∧ landSt.c.landings.take 0 = [] ∧ 0 ≤ landSt.clk := by decide +kernel
def storeAcc : CoreAcc :=
  { seq := 0, bundle := 0, slot := 0, issued := 0, addr := 0x2000000000000008, size := 8, lane := 0,
    kind := .store 5 (lowBits 64) true, acquire := false, deferred := false }
def undec (n : Nat) : Undecided := ⟨32, false, 0, List.replicate n (storeAcc, none), []⟩
theorem wit_WritesAndRepliesLand : (∀ n ∈ [1, 2], (on { c0 with undecided := some (undec n) }).c.mayPresent
      { storeAcc with seq := c0.seq, bundle := c0.bundleNo } = true ∧ (undec n).stores[0]? = some (storeAcc, none)
      ∧ (on { c0 with undecided := some (undec n) }).heldElsewhere c0 storeAcc = false)
    ∧ (undec 2).stores[1]? = some (storeAcc, none) ∧ (undec 1).stores[1]? = none := by decide +kernel
def trapOf : Trap := ⟨.align, false, 4, 32⟩
theorem wit_TrapsHaltsAndBudgets :
    (on { c0 with trap := some trapOf }).drained { c0 with trap := some trapOf } = true
    ∧ ({ on { c0 with builtin := some .skew } with locked := true } : State).ctx? k0 = some { c0 with builtin := some .skew }
    ∧ (on { c0 with halted := some .align }).ctx? k0 = some { c0 with halted := some .align } := by decide +kernel
/-- A firing at its budget, in an actor's firing and in a handler's. -/
def overBudget (h : Bool) : Ctx := { c0 with budgetCount := 100, hfiring := h, sys := { tbase := 64 } }
theorem wit_BudgetIsTaken : ∀ h : Bool, (on (overBudget h)).ctx? k0 = some (overBudget h) ∧ (overBudget h).canIssue 0 = true
    ∧ (overBudget h).sys.hm = false ∧ (overBudget h).budget ≤ (overBudget h).budgetCount
    ∧ (on (overBudget h)).drained (overBudget h) = true := by decide +kernel
def actorNode : GNode :=
  { num := 0, kind := 0, prio := 0, count := 1, deps := [], addr := 0x2000000000000000, handle := 0, otype := 0, arg := 0, ins := [],
    outs := [], armed := true }
/-- A context between firings, with an armed actor or an event. -/
def idleCtx (ns : List GNode) (es : List AsyncEvent) : Ctx :=
  { c0 with firing := false, events := es, sys := { tbase := 64 }, task := { stage := .running, nodes := ns } }
theorem wit_FiringsAndSamples : (on (idleCtx [] [])).tileIdle 0 = true ∧ (on (idleCtx [] [])).toResume 0 = none
    ∧ (on (idleCtx [] [⟨.page, 5⟩])).toHandle 0 = some (idleCtx [] [⟨.page, 5⟩])
    ∧ (on (idleCtx [actorNode] [])).toHandle 0 = none := by decide +kernel
theorem wit_FiringsStart : (on (idleCtx [actorNode] [])).readyActors 0 = [(idleCtx [actorNode] [], actorNode)] := by decide +kernel
def sampled : State := { st with clk := 300, tiles := [{ sampcfg := 0x8000000000000006 }] }
theorem wit_SamplesAreTaken : wordField (sampled.tile 0).sampcfg 63 1 = 1
    ∧ sampleTime 0 (2 ^ wordField (sampled.tile 0).sampcfg 0 5) (sampled.tile 0).sampleNo ≤ sampled.clk := by decide +kernel

/-! ## Witnesses: the banks -/

def accSt (kind : Nat) (k : AccKind) : State := { on { c0 with accs := [{ storeAcc with kind := k }] } with tiles := [tileOf kind] }
theorem wit_CoreAccessesArePerformed : ∀ kind ∈ [0, 1, 2], ∀ k ∈ [AccKind.store 5 (lowBits 64) true, .empty],
    (accSt kind k).acc? k0 0 = some ((accSt kind k).c, { storeAcc with kind := k })
    ∧ (accSt kind k).c.mayPresent { storeAcc with kind := k } = true
    ∧ (accSt kind k).notHeld (accSt kind k).c { storeAcc with kind := k } = true
    ∧ (accSt kind k).placeOf (accSt kind k).c storeAcc.addr = some (.stored 8 (rkindOf kind))
    ∧ ((accSt kind k).foreign 0 8 || (accSt kind k).imageDenied (accSt kind k).c 8) = false
    ∧ Memory.wf (accSt kind k).mem = true := by decide +kernel
def readAcc : CoreAcc := { storeAcc with kind := .load (.s 3) 8 false true }
/-- A synchronising read of a FULL word is served; a read of an EMPTY word of a ONCE region takes an entry of its bank in its
turn, or waits while the bank has none free; a deferred one is answered. -/
def readSt (kind : Nat) (full : Bool) (deferred : Bool) (others : Nat) : State :=
  { on { c0 with accs := { readAcc with deferred := deferred } :: (List.range others).map fun i => { readAcc with seq := i + 1, deferred := true, entries := [0] } }
    with tiles := [tileOf kind], full := if full then [(1, true)] else [] }
def readC (kind : Nat) (full : Bool) (deferred : Bool) (others : Nat) : Ctx := (readSt kind full deferred others).c
theorem wit_ReadsArePerformed :
    (readSt 1 true false 0).presenceOk (readC 1 true false 0) readAcc = true
    ∧ (readSt 2 true true 0).newWords (readC 2 true true 0) { readAcc with deferred := true } = [(8, 0)]
    ∧ (readSt 2 true true 0).presenceOk (readC 2 true true 0) { readAcc with deferred := true, got := [(8, 0)] } = true
    ∧ (readSt 2 false true 0).presenceOk (readC 2 false true 0) { readAcc with deferred := true } = false
    ∧ (readSt 2 false false 0).acc? k0 0 = some (readC 2 false false 0, readAcc)
    ∧ (readSt 2 false false 0).notHeld (readC 2 false false 0) readAcc = true
    ∧ (readC 2 false false 0).mayPresent readAcc = true
    ∧ (readSt 2 false false 0).wouldDefer (readC 2 false false 0) readAcc = true
    ∧ ∀ n ∈ [0, 32], ((readSt 2 false false n).deferBanks (readC 2 false false n) readAcc).all
        (fun b => (readSt 2 false false n).storeTurn b (portOf 0 7) 0 0) = decide (n = 0) := by decide +kernel
def atomAcc : CoreAcc := { storeAcc with addr := 0x1000000000000008, kind := .atomic .add 8 (.s 3) 5 0 }
def atomSt (bad : Bool) : State :=
  { hallSt with c := { c0 with accs := [atomAcc] }, bad := if bad then [(hallKey 0 8 / 8, true)] else [] }
theorem wit_AtomicsArePerformed : ∀ bad : Bool, (atomSt bad).acc? k0 0 = some ((atomSt bad).c, atomAcc)
    ∧ (atomSt bad).c.mayPresent atomAcc = true ∧ (atomSt bad).notHeld (atomSt bad).c atomAcc = true
    ∧ (atomSt bad).placeOf (atomSt bad).c atomAcc.addr = some (.stored (hallKey 0 8) .plain)
    ∧ NMap.get false (atomSt bad).bad (hallKey 0 8 / 8) = bad := by decide +kernel
theorem wit_BanksChangeOwner : (st.hub.remaps.any fun r => r.bank == 0) = false ∧ st.ownerOff (NMap.get 0 st.bankOwner 0) = true
    ∧ st.ownerOff 1 = true ∧ ((({ hub := { remaps := [⟨0, 1⟩] } } : State).hub.remaps.find? fun r => r.bank == 0)).isSome = true := by
  decide +kernel
/-- An access to a bank of another partition; a word with an uncorrectable error, reported and not. -/
theorem wit_PatrolAndForeign : hallSt.foreign 1 (hallKey 0 8) = true ∧ hallSt.foreign 0 (hallKey 0 8) = false
    ∧ NMap.wf false ({ bad := [(9, true)], soft := [(9, true)] } : State).soft = true
    ∧ (codeKeys 64 64).any (fun k => NMap.get false ({ bad := [(9, true)] } : State).bad (k / 8)) = true
    ∧ NMap.get false ({ bad := [(9, true)] } : State).reported 9 = false
    ∧ (codeKeys 64 64).any (fun k => NMap.get false st.bad (k / 8)) = false := by decide +kernel

/-! ## Witnesses: streams, copies and posts -/

def onC (c : Ctx) (t : Tile) : State := { c := c, tiles := [t] }
def fillCmd : Command := { cmdOf (.sfill fillF) with slot := some 0 }
def queueSt : State := onC c0 { tileOf 0 with queue := [fillCmd] }
def badStatus (b : BlockRead) : Option Status := match b with
  | .bad st _ => some st
  | _ => none
/-- A command at the head of its queue, whose block cannot be read, and one whose block is good. -/
theorem wit_StreamsAdvance : (queueSt.tile 0).queue[0]? = some fillCmd ∧ queueSt.ctx? k0 = some c0 ∧ c0.live = true
    ∧ queueSt.engineRoom c0 fillCmd = true ∧ queueSt.readsReady c0 fillCmd = true ∧ (∀ x ∈ (queueSt.tile 0).queue.take 0, x.ctx ≠ k0) ∧ fillCmd.slot = some 0
    ∧ fillCmd.op = .sfill fillF ∧ fillCmd.ctx = k0 ∧ c0.owns k0 fillCmd.seq = true ∧ fillCmd.f.q.toNat < 8 ∧ NMap.wf {} c0.cqs = true
    ∧ badStatus (((queueSt.onTile 0 fun t => { t with queue := [] }).noteAccept c0 fillCmd).readBlock c0 fillCmd) = some .fault := by decide +kernel
def goodCmd : Command := { fillCmd with pblk := 0x2000000000000040 }
def ones : Nat := 1 + 2 ^ 32 + 2 ^ 64 + 2 ^ 96
def goodSt : State := (onC c0 { tileOf 0 with queue := [goodCmd] }).writeValue (tileKey 0 64) 16 ones
def goodBlock (b : BlockRead) : Option Line := match b with
  | .ok b => some b
  | _ => none
theorem wit_StreamAccepted :
    let s1 := (goodSt.onTile 0 fun t => { t with queue := t.queue.eraseIdx 0 }).noteAccept c0 goodCmd
    let b := BitVec.ofNat 512 ones
    goodSt.engineRoom c0 goodCmd = true ∧ goodSt.readsReady c0 goodCmd = true ∧ goodBlock (s1.readBlock c0 goodCmd) = some b
    ∧ ({ cmd := goodCmd, blk := b } : Run).rsvd = false ∧ s1.streamBadpb c0 { cmd := goodCmd, blk := b } = false
    ∧ s1.streamStep4 c0 { cmd := goodCmd, blk := b } = none := by decide +kernel
def affRun (ph : Phase) : Run := { cmd := { cmdOf (.saff fillF) with slot := some 3 }, phase := ph }
def runSt (r : Run) : State := on { c0 with runs := [r] }
theorem wit_DoorBinding : (runSt (affRun .queued)).runAt 0 3 = some ((runSt (affRun .queued)).c, affRun .queued)
    ∧ (runSt (affRun .queued)).ctx? k0 = some (runSt (affRun .queued)).c ∧ (affRun .queued).wload = false
    ∧ (runSt (affRun .queued)).c.owns (affRun .queued).cmd.ctx (affRun .queued).cmd.seq = true
    ∧ (affRun .queued).isGather = false
    ∧ (∀ d ∈ (runSt (affRun .queued)).producerDoors (runSt (affRun .queued)).c (affRun .queued),
        (runSt (affRun .queued)).doorTaken (runSt (affRun .queued)).c (affRun .queued) d true = false)
    ∧ (affRun .queued).consumerDoors (runSt (affRun .queued)).c = [] := by decide +kernel
/-- A slot that has had no turn in this clk, and one that has. -/
def turnSt (n : Nat) : State := { runSt (affRun .active) with clk := n, tiles := [{ tileOf 0 with turnClk := 7, turned := [3] }] }
theorem wit_ServiceTurn : (turnSt 8).runAt 0 3 = some ((turnSt 8).c, affRun .active) ∧ (affRun .active).phase ≠ .queued
    ∧ ((turnSt 8).turnedNow 0).length < 8 ∧ 3 ∉ (turnSt 8).turnedNow 0 ∧ 3 ∈ (turnSt 7).turnedNow 0 := by decide +kernel
/-- A completion queue of context 0: a ring of 16 records at the base of its tile memory, with a record that waits. -/
def ringQ (n : Nat) : CQueue :=
  { entry := 0x2000000000000800, base := 0x2000000000000000, log2 := 4, tail := n, waiting := [{ record := ⟨.ok, 0, 0, 0, 0, 0, 0, 0⟩, slot := none, seq := none }] }
def ringSt (n : Nat) : State := on { c0 with runs := [affRun .draining], cqs := [(1, ringQ n)] }
theorem wit_StreamsComplete : (ringSt 0).ctx? k0 = some (ringSt 0).c ∧ NMap.wf {} (ringSt 0).c.cqs = true
    ∧ (ringSt 0).runAt 0 3 = some ((ringSt 0).c, affRun .draining) ∧ (ringSt 0).streamDone (affRun .draining) = true
    ∧ (affRun .draining).cmd.f.q.toNat = 1
    ∧ (ringQ 0).waiting ≠ [] ∧ (ringSt 0).c.waits = [] ∧ (affRun .draining).cmd.ctx = k0
    ∧ (ringSt 0).c.owns k0 (affRun .draining).cmd.seq = true ∧ (ringQ 0).tail - (ringQ 0).head < 2 ^ (ringQ 0).log2
    ∧ Memory.wf (ringSt 0).mem = true
    ∧ (match (ringSt 0).engPlace (ringSt 0).c ((ringSt 0).viewerNow (ringSt 0).c) [] true
          ((ringQ 0).base + BitVec.ofNat 64 (32 * ((ringQ 0).tail % 2 ^ (ringQ 0).log2))) with
        | .stored key kind => key == 0 && kind == .plain
        | _ => false) = true
    ∧ (∀ x ∈ wordKeys 0 32, (ringSt 0).heldWords.contains x = false) ∧ 2 ^ (ringQ 16).log2 ≤ (ringQ 16).tail - (ringQ 16).head
    ∧ (ringSt 16).placeOf (ringSt 16).c ((ringQ 16).entry + 12) = some (.stored 2060 .plain) := by decide +kernel
/-- A copy that waits, one that has nothing to move, and one with a line to move. -/
def copyRun (run : Bool) (n : Nat) : Run :=
  { cmd := cmdOf (.scopy ⟨0, 0, 0, 0, 0, 0, 0, 0, 1, 0, BitVec.ofNat 64 n⟩), phase := .active, running := run, promised := BitVec.ofNat 64 n,
    blk := BitVec.ofNat 512 (n + 2 ^ 32) }
theorem wit_CopiesProceed : copyRun false 64 ∈ (runSt (copyRun false 64)).copiesOf 0 ∧ (copyRun false 64).running = false
    ∧ (((runSt (copyRun false 64)).copiesOf 0).filter fun q => q.running).length < 4
    ∧ (runSt (copyRun false 64)).c.owns (copyRun false 64).cmd.ctx (copyRun false 64).cmd.seq = true
    ∧ (runSt (copyRun true 0)).copyAt 0 0 = some ((runSt (copyRun true 0)).c, copyRun true 0)
    ∧ (runSt (copyRun true 0)).copyDone (copyRun true 0) = true ∧ (copyRun true 0).template = none
    ∧ (copyRun true 0).cmd.f.q.toNat < 8 ∧ NMap.wf {} (runSt (copyRun true 0)).c.cqs = true
    ∧ (runSt (copyRun true 64)).copyAt 0 0 = some ((runSt (copyRun true 64)).c, copyRun true 64)
    ∧ (runSt (copyRun true 64)).copyDone (copyRun true 64) = false ∧ (copyRun true 64).checks = false
    ∧ (copyRun true 64).template = none ∧ (copyRun true 64).diverted = []
    ∧ (runSt (copyRun true 64)).c.laneClear (copyRun true 64).f.lane 5 = true := by decide +kernel
/-- A circuit whose door is an input door, and one whose door is an output door; a gather with no element. -/
def doorF (d : Nat) : CF := { fillF with door := BitVec.ofNat 6 d }
def slotCmd (i : Instr) (f : CF) : Command := { cmdOf i with slot := some 3, f := f }
def circRun (d : Nat) : Run := { cmd := slotCmd (.scirc (doorF d)) (doorF d), phase := .active }
def gathRun : Run :=
  { cmd := slotCmd (.gath (doorF 63)) (doorF 63), phase := .active, blk := BitVec.ofNat 512 (0x2000000000000000 * 2 ^ 256) }
theorem wit_CircuitsAndBatches : (∀ d ∈ [3, 35], (runSt (circRun d)).runAt 0 3 = some ((runSt (circRun d)).c, circRun d))
    ∧ (circRun 3).f.door.toNat < 32 ∧ 32 ≤ (circRun 35).f.door.toNat
    ∧ (runSt gathRun).runAt 0 3 = some ((runSt gathRun).c, gathRun) ∧ gathRun.isGather = true ∧ gathRun.batchOver = true
    ∧ (runSt gathRun).bitmapWaits (runSt gathRun).c gathRun = false ∧ ((runSt gathRun).writeBitmap (runSt gathRun).c gathRun).2 = none
    ∧ (((runSt gathRun).writeBitmap (runSt gathRun).c gathRun).1.ctx? k0).map (fun d => (d.cqs, d.owns k0 5)) = some (c0.cqs, true)
    ∧ gathRun.cmd.f.q.toNat < 8 := by decide +kernel
/-- An armed template with a token in its letterbox; posts to tile 0 of a task that runs there, and to a tile without it. -/
def tmpl0 : Tmpl := ⟨2, 5, 0, 1, 0, 1, none⟩
/-- A template whose copy has 2^33 bytes. -/
def tmplBig : Tmpl := { tmpl0 with blk := BitVec.ofNat 512 (2 ^ 31 + 2 ^ 34) }
theorem wit_TemplateFiring : blkField tmpl0.blk 0 4 * blkField tmpl0.blk 4 4 < 2 ^ 32
    ∧ 2 ^ 32 ≤ blkField tmplBig.blk 0 4 * blkField tmplBig.blk 4 4 ∧ tmplBig.queue < 8 ∧ sameTask 0 (0 + 1) = true
    ∧ tmpl0.count = tmpl0.fired + 1 ∧ ({ tmpl0 with count := 0 } : Tmpl).count ≠ tmpl0.fired + 1 := by decide +kernel
def postOf (tile : Nat) : Post := ⟨{ cmdOf (.spost fillF) with f := ⟨0, 0, 0, 0, 0, 0, 0, 0, 1, 0, BitVec.ofNat 64 (5 + 256 * tile)⟩ }⟩
def postC : Ctx := { c0 with tmpls := [tmpl0], letters := [(5, [77])], task := { stage := .running } }
def postSt (tile : Nat) : State := onC postC { tileOf 0 with posts := [postOf tile] }
theorem wit_PostsAndTemplates : (postSt 0).ctx? k0 = some postC ∧ (postC.tmpls.find? fun y => y.num == 2) = some tmpl0
    ∧ postC.letterbox tmpl0.lb = [77] ∧ (postSt 0).copyRoom (copyEngineOf 0) = true ∧ NMap.wf [] postC.letters = true
    ∧ ((postSt 0).tile 0).posts[0]? = some (postOf 0) ∧ (postOf 0).cmd.ctx = k0
    ∧ postC.lanePassed (postOf 0).cmd.f.lane 5 = true ∧ postC.laneClear (postOf 0).cmd.f.lane 5 = true
    ∧ postC.owns k0 (postOf 0).cmd.seq = true ∧ (postSt 0).postDest (postOf 0).cmd = some k0 ∧ (postSt 0).taskOn 0 0 = some postC ∧ postC.live = true
    ∧ (postOf 0).cmd.postTile = 0 ∧ postC.letterRoom (postOf 0).cmd.postLb ≠ 0
    ∧ (∀ q ∈ ((postSt 0).tile 0).posts.take 0, ¬(q.cmd.ctx = k0 ∧ q.cmd.postLb = 5 ∧ q.cmd.postTile = 0))
    ∧ (postSt 1).postDest (postOf 1).cmd = none := by decide +kernel
def farCtx : Ctx := { c0 with id := ⟨1, 0⟩, task := { stage := .running } }
def creditSt : State :=
  { postSt 1 with others := [farCtx], tiles := [{ (postSt 1).tile 0 with posts := [postOf 1], credits := [⟨⟨1, 0⟩, 5, 0, k0, 0⟩] }] }
theorem wit_CreditGrant : creditSt.creditWant 0 1 5 = some (postC, farCtx, 1) ∧ (creditSt.tile 0).creditsFor 0 farCtx.id 5 < 1
    ∧ farCtx.letterRoom 5 ≠ 0 ∧ ((creditSt.tile 0).credits.any fun x => x.isFor 0 farCtx.id 5) = true := by decide +kernel
/-- A tile that holds n credits, none of them for the letterbox it wants; and a post to another tile with a credit. -/
def otherCredits (n : Nat) : State :=
  { creditSt with tiles := [{ creditSt.tile 0 with credits := (List.range n).map fun i => ⟨⟨2, 0⟩, i, 0, k0, 0⟩ }] }
theorem wit_CreditGrant_more : ∀ n ∈ [0, 31, 32], (otherCredits n).creditWant 0 1 5 = some (postC, farCtx, 1)
    ∧ (((otherCredits n).tile 0).credits.any fun x => x.isFor 0 farCtx.id 5) = false
    ∧ ((otherCredits n).tile 0).credits.length = n := by decide +kernel
def farSt : State := { creditSt with tiles := [{ creditSt.tile 0 with credits := [⟨⟨1, 0⟩, 5, 1, k0, 0⟩] }] }
theorem wit_FarPost : farSt.postDest (postOf 1).cmd = some ⟨1, 0⟩ ∧ farSt.taskOn 0 1 = some farCtx ∧ farSt.ctx? ⟨1, 0⟩ = some farCtx
    ∧ (postOf 1).cmd.postTile ≠ 0 ∧ (farSt.tile 0).creditsFor 0 farCtx.id 5 ≠ 0 ∧ NMap.wf [] farCtx.letters = true := by decide +kernel

/-! ## Witnesses: order, sections and the systolic engine -/

def sordCmd : Command := { cmdOf (.sord (doorF 3)) with f := doorF 3 }
def orderC : Ctx := { c0 with
  doorsOut := [(2, [.token 1 2 false []])], markers := [{ queue := 4, lane := 1, seq := 9 }], sbars := [{ seq := 4, noted := [3] }] }
def orderSt : State := onC orderC { tileOf 0 with queue := [sordCmd] }
theorem wit_OrderingProceeds : orderSt.ctx? k0 = some orderC ∧ (orderSt.tile 0).queue[0]? = some sordCmd
    ∧ orderC.doorRoom (doorF 3).door.toNat = true ∧ NMap.wf [] orderC.doorsOut = true ∧ NMap.wf [] orderC.doorsIn = true
    ∧ orderC.openToken (NMap.get [] orderC.doorsOut 2) = some (1, [.token 1 2 true []])
    ∧ orderSt.entriesLeft orderC { queue := 4, lane := 1, seq := 9 } = true ∧ orderC.lanePassed 1 9 = true
    ∧ (∀ n ∈ [3], orderSt.ownTileOpen orderC n = false) := by decide +kernel
def armC : Ctx := idleCtx [{ actorNode with armed := false }] []
theorem wit_GraphNodeArm : armC.task.nodes.filter (·.waiting) = [] ∧ armC.live = true ∧ armC.task.stage = .running ∧ armC.task.draining = none
    ∧ (armC.task.nodes.find? fun n => !n.armed).toList = [{ actorNode with armed := false }]
    ∧ armC.depNodes { actorNode with armed := false } = []
    ∧ ((on armC).sequence armC { actorNode with armed := false }).isSome = true := by decide +kernel

/-- A section of one page whose PE at the origin runs MOVE from local register 2 to local register 3. -/
def moveRec : PeRecord := ⟨0, 0, 1, 0, 0, [], [(0, 0, BitVec.ofNat 32 (1#5 ++ 3#5 ++ 2#5 ++ 0#5 ++ 0#12).toNat)]⟩
def img0 : Image := ⟨1, 1, .rne, false, 0, [moveRec], [], 64⟩
def secOf (z : SecState) (p : Pe) : Section :=
  { handle := 2, st := z, queue := 1, tag := 1, image := some img0, opened := true, org := some (1, 0), pes := [p] }
def secC (x : Section) : Ctx := { c0 with secs := [x] }
def secSt (x : Section) : State := { on (secC x) with clk := 100 }
def peL : Pe := { pe1 [(2, { payload := 9 })] with loaded := [(1, 1)] }
theorem wit_SectionsProceed : (secSt (secOf .running peL)).sec? k0 2 = some (secC (secOf .running peL), secOf .running peL)
    ∧ (secOf .running peL).pe? 0 0 = some peL ∧ (secOf .running peL).recordOf peL = some (img0, moveRec)
    ∧ (moveRec.entries[peL.ptr]?).bind entryOps = some [.move ⟨3, 2, 0, 0⟩] ∧ peL.freeAt ≤ 100 ∧ peL.holds = true
    ∧ NMap.get 0 (secOf .running peL).dealt peL.dealKey % moveRec.k = peL.copy ∧ (secOf .running peL).blocked moveRec = false
    ∧ (secOf .running peL).wants = 0 ∧ (secOf .running peL).still = false ∧ (secOf .running peL).sourcesOpen 100 = true
    ∧ (secC (secOf .running peL)).live = true := by decide +kernel
def movingSec : Section := { secOf .running peL with moving := some ⟨(1, 1), true, 90⟩ }
theorem wit_PageMove : (secSt movingSec).atRest movingSec = true ∧ (secSt movingSec).mayTake 0 (1, 1) = true := by decide +kernel
/-- A PE that waits for its record, before the fetch and when it has arrived; and one whose next record fits beside it. -/
def fetchPe (f : Option (Nat × Nat)) : Pe := { peL with loaded := [], fetching := f }
theorem wit_LoopBufferFill : ∀ f ∈ [none, some (1, 99)], (fetchPe f).holds = false ∧ (fetchPe f).fetching = f
    ∧ (secOf .running (fetchPe f)).toFetch (fetchPe f) moveRec = some (1, 1) ∧ 99 ≤ (secSt (secOf .running peL)).clk := by decide +kernel
/-- A section under reconfiguration: a PE of the old image with no channel left open has no switch token to send. -/
def switching (p : Pe) : Section := { secOf .running p with tag := 2, image := some img0, old := some (img0, 1) }
theorem wit_PeSwitch : (switching peL).old.isSome = true ∧ (switching peL).pe? 0 0 = some peL
    ∧ (switching peL).recordOf peL = some (img0, moveRec) ∧ peL.tag ≠ (switching peL).tag ∧ peL.copy = 0
    ∧ (∀ q ∈ (switching peL).pes, q.freeAt ≤ 100 ∧ q.turns = []) ∧ (switching peL).edges = []
    ∧ (secC (switching peL)).allClosed (switching peL) img0 moveRec 100 = true ∧ moveRec.outs true = []
    ∧ ¬ ({ peL with freeAt := 101 } : Pe).freeAt ≤ 100 := by decide +kernel
/-- A record that sends to a channel has a switch token to send. -/
def sendRec : PeRecord := { moveRec with entries := [(0, 0, BitVec.ofNat 32 (1#5 ++ 16#5 ++ 2#5 ++ 0#5 ++ 0#12).toNat)] }
theorem wit_PeSwitch_sends : sendRec.outs true = [16] ∧ peL.marked.contains 16 = false := by decide +kernel
def quietPe : Pe := { pe1 [] with recNo := 9 }
theorem wit_SectionsEnd : (secSt (secOf .ending quietPe)).quiet k0 (secOf .ending quietPe) true = true
    ∧ ((secC (secOf .ending quietPe)).flushSlots (secOf .ending quietPe) 100).isSome = true
    ∧ (secSt (secOf .stopping quietPe)).quiet k0 (secOf .stopping quietPe) false = true
    ∧ (secC (secOf .stopping quietPe)).waits = [] := by decide +kernel
theorem wit_ScfgComplete : ((secSt { secOf .loading peL with loading := some (affRun .active) }).sec? k0 2).bind (·.2.loading)
    = some (affRun .active) := by decide +kernel
/-- A section with an edge access that memory has answered, one in tile memory, and one outside every region. -/
def edgeRec : PeRecord := { moveRec with edges := [0] }
def edgeAcc0 (out : Option (List Token)) : EdgeAcc :=
  { seq := 3, row := 0, col := 0, desc := 0, op := 0, sub := 0, size := 4, offset := 0, data := 0, dst := 3, tag := 1, out := out }
def edgeSec (base : Word) (out : Option (List Token)) : Section :=
  { secOf .running peL with
    image := some { img0 with recs := [edgeRec], edges := [⟨2, 0, 0, base, 64, 1⟩] }, edges := [edgeAcc0 out] }
def edgeSt (x : Section) : State := { secSt x with tiles := [tileOf 0] }
def tried (r : EdgeTry) : Nat := match r with
  | .done .. => 1
  | .fault c => 2 + c
  | _ => 0
theorem wit_EdgeAccessesAndSilence (b : Word) (out : Option (List Token)) :
    (edgeSt (edgeSec b out)).sec? k0 2 = some (secC (edgeSec b out), edgeSec b out) ∧ (edgeSec b out).edges[0]? = some (edgeAcc0 out)
      ∧ (edgeSec b out).edgeBehind 0 (edgeAcc0 out) = false ∧ (edgeSec b out).tokensBehind 0 (edgeAcc0 out) = false ∧ (edgeAcc0 out).frozen = false ∧ (edgeAcc0 out).replay = none
      ∧ (secC (edgeSec b out)).events.length < 16 ∧ (edgeSec b out).queue < 8 ∧ NMap.wf {} (secC (edgeSec b out)).cqs = true :=
  ⟨rfl, rfl, rfl, rfl, rfl, rfl, Nat.zero_lt_succ _, (by decide : 1 < 8), rfl⟩
theorem wit_edgeTry_done : tried ((edgeSt (edgeSec 0x2000000000000000 none)).edgeTry
    (secC (edgeSec 0x2000000000000000 none)) (edgeSec 0x2000000000000000 none) (edgeAcc0 none)) = 1 := by decide +kernel
theorem wit_edgeTry_fault : tried ((edgeSt (edgeSec 0x2000000000001000 none)).edgeTry
    (secC (edgeSec 0x2000000000001000 none)) (edgeSec 0x2000000000001000 none) (edgeAcc0 none)) = 2 + codeAccess := by decide +kernel
/-- A silent region with a full output door that its section writes. -/
def fullItems : List DoorItem := List.replicate 16 (.entry ⟨0, 0, 0⟩ 0)
def doorRec : PeRecord := { moveRec with edges := [0] }
def silentSec (mark : List Nat) : Section :=
  { secOf .running peL with image := some { img0 with recs := [doorRec], edges := [⟨1, 35, 0, 0, 0, 0⟩] }, silence := 5000, mark := mark }
def silentC (n : Nat) (mark : List Nat) : Ctx := { c0 with secs := [silentSec mark], doorsOut := [(3, fullItems)], maxext := n }
def silentSt (n : Nat) (mark : List Nat) : State := onC (silentC n mark) (tileOf 0)
theorem wit_RegionSilent :
    let m := (silentSt 4 []).regionMark (silentC 4 []) (silentSec [])
    m ≠ [] ∧ (silentSec m).shrink (silentC 4 m) 0 = silentSec m
      ∧ (silentSt 4 m).regionMark (silentC 4 m) (silentSec m) = m
      ∧ (silentSt 4 m).buffersInOrder (silentC 4 m) (silentSec m) ≠ []
      ∧ (silentC 4 m).quiet ≤ (silentSec m).silence + ((silentSt 4 m).clk - (silentSec m).counted)
      ∧ (silentSec m).deadlocked = false ∧ (silentSec m).declined = false ∧ (secOf .stopped peL).st ≠ .running ∧ (silentSec m).spillReq = none
      ∧ (silentSec m).edges.any (·.frozen) = false ∧ (silentSec m).wants = 0 ∧ (silentC 4 m).events.length < 16
      ∧ (silentSt 4 m).mayExtend (silentC 4 m) (silentSec m) = true ∧ (silentSt 0 m).mayExtend (silentC 0 m) (silentSec m) = false
      ∧ (silentSt 4 m).splitBit 0 2 = false ∧ ({ silentSt 4 m with split := [(0, 4)] } : State).splitBit 0 2 = true := by decide +kernel
/-- A region that is frozen, one without a full buffer, one that has only begun to be silent. -/
theorem wit_RegionNotSilent : ({ edgeAcc0 none with frozen := true } : EdgeAcc).frozen = true
    ∧ (secSt (secOf .running peL)).buffersInOrder (secC (secOf .running peL)) (secOf .running peL) = []
    ∧ 0 + (100 - 0) < (silentC 4 []).quiet := by decide +kernel
/-- A frozen element at its third failed replay. -/
def replayed3 : EdgeAcc := { edgeAcc0 none with frozen := true, replay := some none, fails := 2 }
theorem wit_thirdReplay : tried ((edgeSt (edgeSec 0x2000000000001000 none)).edgeTry
    (secC (edgeSec 0x2000000000001000 none)) (edgeSec 0x2000000000001000 none) replayed3) = 2 + codeAccess
    ∧ replayed3.frozen = true ∧ replayed3.replay = some none ∧ 2 ≤ replayed3.fails := by decide +kernel

/-- A weight load that has read all it needs; an SMM with its rows in the doors, and one with an entry due. -/
def loadRun : Run := { cmd := slotCmd (.swload fillF) fillF, phase := .active, wload := true, fault := some (4, 0) }
def smm0 : Smm := { cmd := { cmdOf (.smm fillF) with f := fillF }, blk := BitVec.ofNat 512 (255 * 2 ^ 16), rows := 2 }
def sysSec (m : Smm) (z : SecState) : Section :=
  { secOf z peL with pes := [], image := none, credit := 100000, sys := some { wtype := .bf16, rm := .rne, sat := false, seed := 0, smm := some m } }
def oneEntry : List DoorItem := [.entry ⟨0, 0, 0⟩ 0]
def sysC (m : Smm) (z : SecState) : Ctx := { c0 with secs := [sysSec m z], doorsIn := [(0, oneEntry)] }
def sysSt (m : Smm) (z : SecState) : State := { onC (sysC m z) (tileOf 0) with clk := 200 }
theorem wit_SystolicProceeds : (runSt loadRun).runAt 0 3 = some ((runSt loadRun).c, loadRun)
    ∧ (sysSt smm0 .running).sec? k0 2 = some (sysC smm0 .running, sysSec smm0 .running)
    ∧ (sysSec smm0 .running).admitStall (sysC smm0 .running) smm0 = none ∧ smm0.next + 1 < smm0.rows
    ∧ ((sysC smm0 .running).popDoors ((sysSec smm0 .running).smmDoors smm0).1).isSome = true
    ∧ ((sysC smm0 .running).popDoors ((sysSec smm0 .running).smmDoors smm0).2).isSome = true := by decide +kernel
theorem wit_LoadDone : (runSt loadRun).loadDone (runSt loadRun).c loadRun = true := by decide +kernel
def smm1 : Smm := { smm0 with next := 2, out := [⟨0, 100, [], []⟩, ⟨1, 101, [], []⟩], lastPush := 150 }
theorem wit_OutputEntryPush : ((sysSec smm1 .running).nextOut smm1 0 200).isSome = true
    ∧ (sysC smm1 .running).doorRoom (32 + blkField smm1.blk 1 1 + 0) = true := by decide +kernel
def smm2 : Smm := { smm1 with pushed := [(0, 2), (1, 2)] }
/-- Nothing is pushed while the section is STOPPED; a row that lacks its inputs is not admitted. -/
theorem wit_OutputStopped : (sysSec smm1 .stopped).st = .stopped ∧ ((sysSec smm1 .stopped).nextOut smm1 0 200).isSome = true
    ∧ (sysSec smm0 .running).admitStall { c0 with doorsIn := [] } smm0 = some 0
    ∧ ({ smm0 with next := 1 } : Smm).rows = 1 + 1 ∧ (∀ r ∈ smm1.out, r.clk ≠ 200) := by decide +kernel
theorem wit_SmmRetire : (sysSec smm2 .ending).smmPushed smm2 = true ∧ smm2.lastPush + 16 ≤ (sysSt smm2 .ending).clk
    ∧ (sysSec smm2 .ending).taken = false ∧ ({ sysSec smm2 .ending with taken := true } : Section).taken = true := by decide +kernel
def grantSt : State :=
  let s := secSt { secOf .running peL with grant := 40 }
  { s with hub := { s.hub with grantReqs := [⟨k0, 2, 5⟩], lowerDue := true } }
/-- A request that gets all it wants, one that gets a part, one whose section is gone. -/
theorem wit_CurrentIsGranted : grantSt.hub.grantReqs = [⟨k0, 2, 5⟩] ∧ (grantSt.sec? k0 2).isSome = true
    ∧ Nat.min 5 (grantSt.hub.limit - grantSt.grantsHeld) = 5 ∧ grantSt.hub.lowerDue = true
    ∧ (grantSt.sec? k0 2).all (fun x => x.2.grant != 0) = true ∧ grantSt.sec? k0 3 = none
    ∧ Nat.min 5 (41 - 40) = 1 := by decide +kernel

/-! ## Witnesses: launches, pre-emption, translation -/

/-- Queue 0 of partition 0 with a ring at Hall address 128 and its header at 0; its first entry holds v. -/
def lqSt (v : Nat) : State :=
  let s := { hallSt with hub := { hallSt.hub with lq := [(0, BitVec.ofNat 64 (2 ^ 63 + 2 * 2 ^ 34 + 4 * 2 ^ 59))] } }
  if v = 0 then s else s.writeValue (hallKey 0 128) 8 v
def readOf (r : EResult) : Option Nat := match r with
  | .value v _ => some v
  | _ => none
def waits (r : DRead) : Bool := match r with
  | .wait => true
  | _ => false
/-- The entry is there, its word names a descriptor or none, and the banks are free. -/
theorem wit_LaunchesAreDispatched : ∀ v ∈ [0, 2 ^ 60 + 256],
    let r := (lqSt v).readLqEntry 0 0 128
    let u := ((r.1.noteDisp 0 (BitVec.ofNat 64 (2 ^ 60 + 128)) 8).lqReadOver 0 0).takeLqEntry 0 128 8 0
    wordField (NMap.get 0 (lqSt v).hub.lq (0 * 8 + 0)) 63 1 = 1 ∧ (lqSt v).lqHead 0 0 = some (128, 8, 0)
    ∧ readOf r.2 = some v ∧ r.1.hallBusy 0 8 8 = false
    ∧ (lqSt v).hallWord 0 (BitVec.ofNat 64 v) 256 = decide (v ≠ 0)
    ∧ u.hallBusy 0 (wordField (BitVec.ofNat 64 v) 0 28 + 16) 8 = false
    ∧ ((u.takeLaunch 0 0 (BitVec.ofNat 64 v)).bind fun w => w.hub.launches.getLast?).isSome = true := by decide +kernel
/-- An entry whose word has an uncorrectable error, and one that is EMPTY in its ONCE ring. -/
def poisonOf (r : EResult) : Bool := match r with
  | .poison _ => true
  | _ => false
theorem wit_PoisonedEntry : poisonOf (({ lqSt 0 with bad := [(hallKey 0 128 / 8, true)] } : State).readLqEntry 0 0 128).2 = true
    ∧ (match (({ lqSt 0 with hreg := [(0, hallWord 2)] } : State).readLqEntry 0 0 128).2 with
        | .wait => true
        | _ => false) = true := by decide +kernel
def launchOf (z : LaunchStage) : Launch :=
  { id := 1, part := 0, queue := 0, addr := 0, desc := [], stage := z, prio := 0, eff := 0, waitFrom := 0, order := 0, gang := [k0] }
def launchSt (z : LaunchStage) : State := { on c0 with clk := 2 ^ 20, hub := { ({} : Hub) with launches := [launchOf z] } }
theorem wit_EffectivePriorityRaise : (launchSt .queued).launch? 1 = some (launchOf .queued) ∧ (launchOf .queued).eff < 7
    ∧ (launchOf .queued).waitFrom + 2 ^ 20 * ((launchOf .queued).eff - (launchOf .queued).prio + 1) ≤ (launchSt .queued).clk := by
  decide +kernel
theorem wit_LaunchEnd : (launchSt .finishing).launch? 1 = some (launchOf .finishing)
    ∧ (launchSt .finishing).hallBusy 0 (wordField (launchOf .finishing).addr 0 28 + 16) 8 = false
    ∧ (launchSt .ended).launch? 1 = some (launchOf .ended) ∧ (launchSt .ended).recordsAhead (launchOf .ended) = false
    ∧ waits ((launchSt .ended).launchRing (launchOf .ended)).1 = false
    ∧ ((launchSt .ended).launchRing (launchOf .ended)).2 = none := by decide +kernel
/-- An ended launch with a ring of two records in its Hall, one of them taken or neither. -/
def ringL : Launch := { launchOf .ended with desc := List.replicate 24 0 ++ toBytes 8 (2 ^ 60 + 256) }
def ringLSt (tail : Nat) : State :=
  let s := { hallSt with hub := { hallSt.hub with launches := [ringL], lcqTails := if tail = 0 then [] else [(256, tail)] } }
  s.writeValue (hallKey 0 256) 16 (2 ^ 60 + 512 + 2 ^ 64)
theorem wit_RingRecords : ∀ n ∈ [0, 2], (ringLSt n).launch? 1 = some ringL ∧ ringL.stage = .ended
    ∧ (ringLSt n).recordsAhead ringL = false ∧ waits ((ringLSt n).launchRing ringL).1 = false
    ∧ ((ringLSt n).launchRing ringL).2.map (fun r => decide (2 ^ r.2.1 ≤ (n % 2 ^ 32 + 2 ^ 32 - r.2.2) % 2 ^ 32)) = some (decide (n = 2))
    ∧ NMap.wf 0 (ringLSt n).hub.lcqTails = true ∧ (ringLSt n).hallBusy 0 512 32 = false ∧ (ringLSt n).hallFull 0 512 32 = false := by
  decide +kernel
/-- A launch whose image of 1,024 bytes at Hall address 1,024 holds a graph of one actor. -/
def placed : Launch :=
  { launchOf .running with desc := List.replicate 32 0 ++ toBytes 8 (2 ^ 60 + 1024) ++ toBytes 4 1024 ++ toBytes 4 0 ++ toBytes 4 512,
                           regs := [(12, 0)] }
def placedC (z : TaskStage) : Ctx := { c0 with firing := false, task := { stage := z, launch := 1 } }
def placedSt (z : TaskStage) : State :=
  let s := { hallSt with c := placedC z, hub := { ({} : Hub) with launches := [placed] }, tiles := [{}] }
  (s.writeValue (hallKey 0 1024) 4 1).writeValue (hallKey 0 1352) 8 (2 ^ 64 - 1)
def imageOf (r : TaskImage) : Option (List Byte × List Byte) := match r with
  | .ok a b => some (a, b)
  | _ => none
theorem wit_TaskPlacement : (placedSt .placed).launch? 1 = some placed ∧ (placedSt .placed).ctx? k0 = some (placedC .placed)
    ∧ (imageOf ((placedSt .placed).taskImage placed 0)).map (·.2) = some []
    ∧ (laneList [] (placed.fld 10 1) laneTable).isSome = true
    ∧ ((imageOf ((placedSt .placed).taskImage placed 0)).bind fun p =>
        (((placedSt .placed).noteImage placed).writeImage (tileKey 0 0) false p.1).setupTask (placedC .placed) placed 0 p.1 []).isSome
        = true := by decide +kernel
/-- An image that is in no region. -/
theorem wit_TaskPlacement_bad : (match (launchSt .running).taskImage { launchOf .running with desc := List.replicate 40 255 } 0 with
    | .bad .. => true
    | _ => false) = true := by decide +kernel
theorem wit_TaskStart : (placedSt .ready).ctx? k0 = some (placedC .ready) ∧ (placedC .ready).task.stage = .ready ∧ placed.gang = [k0] := by
  decide +kernel
theorem wit_TaskEnd : (placedSt .running).taskDone (placedC .running) = true ∧ (placedC .running).task.endFault = none
    ∧ (placedC .running).live = true ∧ (placedC .running).task.draining = none
    ∧ ((((((placedSt .running).releaseCtx k0).putCtx (placedC .running).afterEnd).wantPass 0).onLaunch 1 fun l =>
        { l with tasksEnded := l.tasksEnded + 1, ends := l.ends ++ [(k0, 1)] }).launch? 1).isSome = true
    ∧ (((placedSt .running).releaseCtx k0).putCtx (placedC .running).afterEnd).savedOf 1 = [] := by decide +kernel
def victimSt : State := { on { c0 with task := { stage := .running, launch := 1 } } with
  hub := { ({} : Hub) with launches := [{ launchOf .running with victim := true }], psave := [(0, BitVec.ofNat 64 (2 ^ 48))] } }
def drainC : Ctx := { c0 with task := { stage := .running, launch := 1, draining := some 0 } }
def drainSt : State := { victimSt with c := drainC }
/-- A saved context, and the place that it returns to. -/
def savedSt : State :=
  { on { c0 with firing := false } with hub := { ({} : Hub) with saved := [{ ctx := { c0 with task := { launch := 0 } }, image := 0 }] } }
theorem wit_PreemptionAndAnswers : (victimSt.launch? 1).map (·.stage) = some .running ∧ (victimSt.launch? 1).map (·.victim) = some true
    ∧ drainSt.drainOver drainC 0 = true ∧ drainC.undecided = none ∧ drainC.task.saveReq = none ∧ drainSt.splitBit 0 3 = false
    ∧ ({ drainSt with split := [(0, 8)] } : State).splitBit 0 3 = true
    ∧ drainSt.freeImages 0 = [0]
    ∧ ((savedSt.hub.saved.find? fun v => v.ctx.id == k0 && v.ctx.task.launch == savedSt.c.task.launch).map fun v =>
        (savedSt.rebuild savedSt.c v).isSome) = some true := by decide +kernel
/-- A launch between two waves, which soft pre-emption takes at once. -/
theorem wit_SoftPreemption : ({ launchOf .queued with wave := 1 } : Launch).wave ≠ 0
    ∧ ({ launchOf .queued with wave := 1 } : Launch).preempted = false := by decide
/-- Requests of the hub: a SAVE, a DISPATCH, a SPILL and a PAGEALLOC, each with what waits for it. -/
def reqOf (kind : Nat) (args : List Word) : HubReq := ⟨7, kind, 0, 0, 0, args⟩
def reqSt (kind : Nat) (args : List Word) (s : State) : State := { s with hub := { s.hub with requests := [reqOf kind args] } }
def savingC : Ctx := { drainC with task := { drainC.task with saveReq := some 7 } }
theorem wit_SaveAnswer : ({ drainSt with c := savingC }.ctxs.find? fun c => c.task.saveReq == some 7) = some savingC
    ∧ ({ drainSt with c := savingC }.freeImages 0).contains 0 = true
    ∧ (reqSt 4 [] { drainSt with c := savingC }).hub.requests.find? (fun r => r.id == 7) = some (reqOf 4 []) := by decide +kernel
def askedL : Launch := { launchOf .queued with req := some 7, gang := [], levels := [], regs := [(12, 0)] }
def askedSt : State := { hallSt with c := {}, tiles := [], hub := { ({} : Hub) with launches := [askedL], requests := [reqOf 5 []] } }
theorem wit_DispatchAnswer : (askedSt.hub.launches.find? fun l => l.req == some 7) = some askedL ∧ (reqOf 5 []).kind = 5
    ∧ askedL.stage = .queued ∧ (askedSt.onLaunch 1 fun l => { l with req := none }).dstateBusy { askedL with req := none } = false
    ∧ ((askedSt.onLaunch 1 fun l => { l with req := none }).chosenGang { askedL with req := none } [0]).isSome = true := by decide +kernel
def spillSec (m : List Nat) : Section := { silentSec m with spillReq := some 7 }
def spillSt : State := onC { silentC 4 [] with secs := [spillSec []] } (tileOf 0)
theorem wit_SpillAnswer :
    let x := spillSec []
    let bs := (spillSt.onSec k0 2 fun x => { x with spillReq := none }).buffersInOrder spillSt.c x
    (spillSt.secWaiting fun x => x.spillReq == some 7).isSome = true ∧ bs ≠ []
      ∧ (bs.find? fun b => ([BitVec.ofNat 64 (bs.headD .spill).code] : List Word)[0]? == some (BitVec.ofNat 64 b.code)).isSome = true
      ∧ spillSt.mayExtend spillSt.c x = true := by decide +kernel
def pageSec : Section := { secOf .loading peL with loading := some (affRun .active), pageReq := some 7 }
theorem wit_PageallocAnswer : (((secSt pageSec).secWaiting fun x => x.pageReq == some 7).map (·.2)) = some pageSec
    ∧ orderOk 1 1 (1, 1) [] [] = true ∧ orderOk 1 1 (2, 1) [] [] = true
    ∧ orderOk 1 1 (1, 0) [(0, 2, (1, 1))] [(k0, secOf .running peL)] = true
    ∧ orderOk 1 1 (1, 0) [(0, 3, (1, 1))] [(k0, secOf .running peL)] = false := by decide +kernel
/-! ## Witnesses: translation, versions and links -/

/-- The ring of a partition has 64 entries at least (R430), so a request alone in it is posted. -/
theorem posted_alone (s : State) (r : HubReq) (h : s.hub.requests = [r]) : s.posted r.id = some r := by
  have : (2 : Nat) ^ 6 ≤ ringEntries r.part := Nat.pow_le_pow_right (by decide) (Nat.le_add_right 6 _)
  simp [State.posted, h, Option.filter]
  omega

def walkRun (assisted : Bool) (req : Option Nat) : Run :=
  { affRun .active with walk := some (.waiting 0x0000000000010000 false req assisted 0) }
def walkSt (assisted : Bool) : State := runSt (walkRun assisted none)
def div0 : Diverted := { n := 0, addr := 0x0000000000010000, va := 0x0000000000010000, write := false, data := 0, size := 4, since := 0 }
def divRun : Run := { affRun .active with diverted := [div0] }
def divSt : State := { runSt divRun with clk := 2 ^ 24 }
def served (r : Served) : Nat := match r with
  | .done .. => 1
  | .fault c => 2 + c
  | .wait _ => 0
def walked (r : WalkEnd) : Nat := match r with
  | .fault c .. => 2 + c
  | _ => 0
def episode0 (req : Option Nat) : Episode := { part := 0, base := 0x10000, log2 := 16, tile := 0, since := 0, lastWalk := 0, req := req }
def epiSt (req : Option Nat) : State := { divSt with hub := { divSt.hub with episodes := [episode0 req], requests := [reqOf 2 []] } }
theorem wit_TranslationIsServed : ∀ b : Bool, (((walkSt b).walkers 0)[0]?).map (fun w => (w.ask.req, w.ask.host, w.ofBase))
    = some (none, b, false) := by decide +kernel
theorem wit_DivertedElementServed : (divSt.divertedOf 0).map (fun p => (p.2.2.since, p.2.2.walk.isNone)) = [(0, true)]
    ∧ divSt.hub.episodes = [] ∧ (divSt.divertedOf 0).map (fun p => served (divSt.serve p.1 p.2.1 p.2.2)) = [0]
    ∧ walked (divSt.walkEnd (divSt.partViewer 0) 0x10000 false) = 2 + codePage := by decide +kernel
theorem wit_Episodes : ((epiSt none).hub.episodes.find? fun e => e.covers 0 0x10000 && e.req.isNone) = some (episode0 none)
    ∧ 0 + 2 ^ 24 ≤ (epiSt none).clk ∧ ((epiSt none).hub.episodes.filter fun e => e.tile == 0)[0]? = some (episode0 none)
    ∧ (episode0 none).lastWalk + 65536 ≤ (epiSt none).clk
    ∧ ((epiSt (some 7)).hub.episodes.find? fun e => e.req == some 7) = some (episode0 (some 7)) := by decide +kernel
theorem wit_Posted : (epiSt (some 7)).posted 7 = some (reqOf 2 []) ∧ askedSt.posted 7 = some (reqOf 5 [])
    ∧ (reqSt 4 [] { drainSt with c := savingC }).posted 7 = some (reqOf 4 []) ∧ (reqSt 3 [] spillSt).posted 7 = some (reqOf 3 [])
    ∧ (reqSt 1 [0x10000, 0] (walkSt true)).posted 7 = some (reqOf 1 [0x10000, 0]) :=
  ⟨posted_alone _ (reqOf 2 []) rfl, posted_alone _ (reqOf 5 []) rfl, posted_alone _ (reqOf 4 []) rfl,
   posted_alone _ (reqOf 3 []) rfl, posted_alone _ (reqOf 1 [0x10000, 0]) rfl⟩
/-- An element of a page in tile memory, which is served. -/
def divTile : Run := { affRun .active with diverted := [{ div0 with addr := 0x2000000000000000, va := 0x2000000000000000, write := true }] }
theorem wit_Served : ((runSt divTile).divertedOf 0).map (fun p => served ((runSt divTile).serve p.1 p.2.1 p.2.2)) = [1] := by decide +kernel
/-- An element whose page's fault is known stops its command. -/
def divFault : Run := { affRun .active with diverted := [{ div0 with write := true, walk := some (.fault 0x10000 codeAccess 16) }] }
theorem wit_Served_fault : ((runSt divFault).divertedOf 0).map (fun p => served ((runSt divFault).serve p.1 p.2.1 p.2.2)) = [2 + codeAccess] := by
  decide +kernel
theorem wit_UnresolvablePage : ({ on { c0 with builtin := some (.page 0x10000 true) } with clk := 2 ^ 24 } : State).servedPages 0
    = [({ c0 with builtin := some (.page 0x10000 true) }, 0x10000)] := by decide +kernel
def shootRun : Run := { cmd := cmdOf (.csysShootdown fillF) }
def shootSt : State := on { c0 with waits := [shootRun] }
theorem wit_Shootdown : (shootSt.shootdowns 0)[0]? = some (shootSt.c, shootRun) ∧ shootSt.c.writesPassed shootRun.cmd.seq = true
    ∧ (shootSt.dropEntries 0 shootRun.shootRange.1 shootRun.shootRange.2).1.hub.episodes = [] := by decide +kernel
def walkReqSt : State := reqSt 1 [0x10000, 0] (runSt (walkRun true (some 7)))
theorem wit_WalkAnswer : ((walkReqSt.everyCtx.flatMap walkReqSt.walkersOf).filter fun w => w.ask.req == some 7).length = 1 := by
  decide +kernel
/-- A table whose root entry names a table of level 1, with a leaf of 1 GiB. -/
def tableSt : State :=
  let s : State := { divSt with hub := { divSt.hub with proot := [(0, 0x200000)] } }
  (s.writeValue (cellarKey 0x200000) 8 (2 ^ 63 + 0x1000)).writeValue (cellarKey 0x1000) 8 (2 ^ 63 + 2 ^ 61 + 3)
def filled (r : WalkEnd) : Bool := match r with
  | .fill _ => true
  | _ => false
theorem wit_PageFilled : filled (tableSt.walkEnd (tableSt.partViewer 0) 0x10000 false) = true
    ∧ served (tableSt.serve tableSt.c divRun div0) = 0 := by decide +kernel

def spubRun : Run := { cmd := cmdOf (.spub fillF) }
def vop0 : VOp := ⟨spubRun, 0⟩
/-- Set 0 of partition 0 with slot 0 staging, and without one; a slot that retires. -/
def pubSt (z : Nat) : State :=
  on c0 |> fun s => { s with hub := { s.hub with vops := [vop0], wset := [(0, BitVec.ofNat 64 (2 ^ 63))], wslot := [(0, { st := z })] } }
theorem wit_VersionsAndPackets : ∀ z ∈ [1, 3], (pubSt z).vopsOf 0 = [vop0] ∧ vop0.run.cmd.op = .spub fillF
    ∧ (pubSt z).c.lanePassed 0 5 = true ∧ (pubSt z).switchBefore 0 0 = false
    ∧ ((pubSt z).spubCheck 0 0 vop0.run.cmd.vslot).isSome = decide (z = 3) := by decide +kernel
def freeSt : State := on c0 |> fun s => { s with hub := { s.hub with wslot := [(0, { st := 3 })] }, tiles := [] }
theorem wit_SlotFree : (freeSt.wslotOf 0 0).st = 3 ∧ (∀ c ∈ freeSt.ctxs, c.mayUse (freeSt.tile c.id.tile).queue 0 0 = false)
    ∧ freeSt.hub.saved = [] ∧ NMap.wf {} freeSt.hub.wslot = true := by decide +kernel
def arr0 : Arrival := ⟨k0, 1, 0, 0, 1, 1, 5, 0⟩
def switchSt : State :=
  { on { c0 with task := { stage := .running, launch := 1, arrivals := 1 } } with
    hub := { ({} : Hub) with arrivals := [arr0], wset := [(0, BitVec.ofNat 64 (2 ^ 63 + 2 ^ 43))], wslot := [(0, { st := 2, order := 1 })] } }
theorem wit_VersionSwitch : switchSt.switchReady 1 0 = some ([arr0], 0) ∧ switchSt.ctx? arr0.k = some switchSt.c
    ∧ switchSt.c.owns k0 arr0.seq = true ∧ arr0.part = 0 ∧ switchSt.hub.vops = [] ∧ arr0.queue < 8 ∧ NMap.wf {} switchSt.c.cqs = true
    ∧ (∀ i < 64, arr0.mask.getLsbD i = true → wordField (NMap.get 0 switchSt.hub.wset i) 63 1 ≠ 0
        ∧ wordField (NMap.get 0 switchSt.hub.wset i) (43 + 0) 1 ≠ 0 ∧ (switchSt.newest i).isSome = true) := by decide +kernel
/-- A set that is not the partition's. -/
theorem wit_VersionSwitch_state : ({ arr0 with mask := 2 } : Arrival).mask.getLsbD 1 = true
    ∧ wordField (NMap.get 0 switchSt.hub.wset 1) 63 1 = 0 := by decide +kernel
/-- Packets of a stream: the first, one in sequence, one beyond a gap, and a bad one. -/
def packet (first good : Bool) (seq : BitVec 32) : Packet := ⟨.write, first, false, false, false, 0, 8, 4, 1, 0, seq, 0, 0, good⟩
def ingr (held : List Packet) (n : Nat) : Ingress := { src := 1, gsid := 0, next := 5, held := held, uncovered := n, since := 0 }
def ingSt (e : List Ingress) : State :=
  { st with clk := 2 ^ 24, hub := { ({} : Hub) with ingress := e, pctl := [(0, 0x8000060000000000)] } }
theorem wit_Packets : (ingSt []).enabled 0 = true ∧ (packet true true 0).first = true
    ∧ (ingSt [ingr [] 0]).hub.ingress.find? (fun e => e.src == 1 && e.gsid == 0) = some (ingr [] 0)
    ∧ (ingr [] 0).next = (packet false true 5).seq ∧ 0 < ((packet false true 7).seq - (ingr [] 0).next).toNat
    ∧ ((packet false true 7).seq - (ingr [] 0).next).toNat < 2 ^ 20 ∧ (ingSt [ingr [] 0]).heldPackets < 65536
    ∧ (packet false false 5).good = false := by decide +kernel
/-- A packet on the wire is that packet again; a bit that flips fails its CHECK; a number 2^20 beyond is a committed one. -/
theorem wit_PacketsOnTheWire : wirePacket (packetWire (packet false true 5)) = packet false true 5
    ∧ (wirePacket { packetWire (packet false true 5) with data := 1 }).good = false
    ∧ (wirePacket (packetWire { packet false true 5 with op := .ack })).op = .ack
    ∧ 2 ^ 20 ≤ ((packet false true 4).seq - (ingr [] 0).next).toNat ∧ (packet false true 4).seq ≠ 0
    ∧ (ingr [packet false true 7] 0).held = [packet false true 7] ∧ (ingSt []).enabled 1 = false := by decide +kernel
/-- The check value of CRC-32C over the digits 1 to 9. -/
theorem test_crc32c : crc32c [0x31, 0x32, 0x33, 0x34, 0x35, 0x36, 0x37, 0x38, 0x39] = 0xE3069283 := by decide +kernel
/-- FIPS 197, 5.1.1 and 5.3.2: SubBytes of 53 is ed, and back; 4.2: 57 times 13 is fe. -/
theorem test_aes_bytes : sbox 0x53 = 0xed ∧ sboxInv 0xed = 0x53 ∧ gfMul 0x57 0x13 = 0xfe := by decide +kernel
/-- FIPS 197, appendix A.3: the first word that the expansion of a 256-bit key adds. -/
theorem test_aes_key : keyWord 8 ([[0x09, 0x14, 0xdf, 0xf4], [0x2d, 0x98, 0x10, 0xa3], [0x3b, 0x61, 0x08, 0xd7], [0x1f, 0x35, 0x2c, 0x07],
    [0x85, 0x7d, 0x77, 0x81], [0x2b, 0x73, 0xae, 0xf0], [0x15, 0xca, 0x71, 0xbe], [0x60, 0x3d, 0xeb, 0x10]] : List (List Byte))
    = [0x9b, 0xa3, 0x54, 0x11] := by decide +kernel
/-- FIPS 180-4, 4.2.3 and 5.3.4: the first and the last round constant, and the first word of the initial hash value. -/
theorem test_sha_constants : rootBits 3 2 = 0x428a2f98d728ae22 ∧ rootBits 3 409 = 0x6c44198c4a475817 ∧ rootBits 2 23 = 0xcbbb9d5dc1059ed8
    := by decide +kernel
/-- A blob has 72 bytes. -/
theorem test_unwrapBlob_none (k : BitVec 256) : unwrapBlob k [] = none := rfl
theorem wit_AckTimer : (ingSt [ingr [] 1]).hub.ingress[0]? = some (ingr [] 1)
    ∧ (((ingSt [ingr [] 1]).commitHeld 1 0 65537).hub.ingress[0]?).map (fun e => (e.uncovered, e.since)) = some (1, 0)
    ∧ 0 + 1024 ≤ ((ingSt [ingr [] 1]).commitHeld 1 0 65537).clk := by decide +kernel
theorem wit_StreamEntryReclaim : (ingr [] 0).held = [] ∧ (ingr [] 0).uncovered = 0
    ∧ (ingr [] 0).ackedAt + 2 ^ 24 ≤ (ingSt [ingr [] 0]).clk ∧ (∀ x ∈ (ingSt [ingr [] 0]).hub.ingress, 0 ≤ x.ackedAt) := by decide +kernel
def out0 (r : Option Nat) : OutPkt :=
  { k := k0, lane := 1, dpkg := 0, cmd := 5, elem := 0, pkt := packet false true 3, first := 0, sent := 0, plane := none, refused := r }
def outSt (r : Option Nat) : State := { st with clk := 2 ^ 26, hub := { ({} : Hub) with outbox := [out0 r] } }
theorem wit_Resends : ∀ r ∈ [none, some 0], (outSt r).hub.outbox[0]? = some (out0 r) ∧ (out0 r).sent + 65536 ≤ (outSt r).clk
    ∧ (out0 r).dpkg = (outSt r).hub.pkg ∧ (out0 r).late = false ∧ (out0 r).first + 2 ^ 26 ≤ (outSt r).clk
    ∧ ((outSt r).raiseOwner (out0 r).k 5 .orderwin (BitVec.ofNat 64 (1 + 3 * 2 ^ 32))).isSome = true
    ∧ ({ out0 r with dpkg := 1 } : OutPkt).dpkg ≠ (outSt r).hub.pkg := by decide +kernel
/-- A context whose event queue is full. -/
theorem wit_OrderwinWaits : (({ outSt none with c := { c0 with seq := 6, events := List.replicate 16 ⟨.page, 5⟩ } } : State).raiseOwner
    k0 5 .orderwin 1).isNone = true := by decide +kernel
def linkHub : Hub := { slew := 1, good := 15, portDown := [(3, true)], slots := [(0, { entries := [⟨1, 1, 0⟩] })] }
def linkSt (locked : Bool) : State := { st with clk := 2 ^ 33, locked := locked, hub := linkHub }
/-- A port in service beside one that is down; the servo locked and not; a slew towards 0 and one towards 2. -/
theorem wit_LinksTimeAndCollectives : NMap.wf false (linkSt true).hub.portDown = true
    ∧ ({ linkSt true with hub := { (linkSt true).hub with portDown := NMap.set false (linkSt true).hub.portDown 3 false } } : State).planeUp 3 = true
    ∧ (linkSt true).locked = true ∧ (linkSt false).locked = false ∧ (linkSt true).hub.lastSync + 8000000000 ≤ (linkSt true).clk
    ∧ (linkSt true).hub.slew = 1 ∧ (linkSt true).hub.lastSlew = none ∧ (linkSt true).hub.advance = 1
    ∧ (NMap.get {} (linkSt true).hub.slots 0).entries ≠ [] := by decide +kernel
/-- A collective of one chunk, before and after its result is there. -/
def collRun (rs : List (Line × Bool × BitVec 32)) : Run :=
  { cmd := slotCmd (.scoll fillF) fillF, phase := .active, blk := BitVec.ofNat 512 (16 * 2 ^ 64), results := rs }
theorem wit_Collectives : (runSt (collRun [])).runAt 0 3 = some ((runSt (collRun [])).c, collRun [])
    ∧ (collRun []).kStart ≤ (runSt (collRun [])).gtime ∧ (collRun []).results[(collRun []).outp]? = none
    ∧ (collRun []).pos < (collRun []).kChunks
    ∧ (collRun [(0, false, 0)]).results[0]? = some (0, false, 0) ∧ (collRun [(0, false, 0)]).kSkip = false := by decide +kernel
/-- All chunks taken, and the results not yet there: no word of its buffer is FULL. -/
def collDoneIn : Run := { collRun [] with pos := 1 }
theorem wit_CollectiveAcquires : collDoneIn.kChunks = 1 ∧ collDoneIn.results.length < collDoneIn.kChunks
    ∧ ({ hallSt with c := { c0 with runs := [collDoneIn] } } : State).takeRbuf c0 collDoneIn (collDoneIn.kHalf + 64 * 0) = none := by
  decide +kernel
def answers (r : HubResult) : Option (List Byte) := match r with
  | .done _ bs => some bs
  | _ => none
theorem wit_PeerReadRequest : answers (hallSt.hubAccess (hallSt.hallPlace 0 (wordField 64 0 28)) (.read 4)) = some [0, 0, 0, 0]
    ∧ answers (hallSt.hubAccess (hallSt.aperturePlace 0x1000000040) (.read 4)) = some [0, 0, 0, 0] ∧ 0x1000000040 < 0x2000000000 := by
  decide +kernel

/-! ## Witnesses: the hub -/

/-- A package at Ready whose partition 0 has a rectangle and a root; one before Ready; one that runs, with and without tasks. -/
def readySt : State := { ({} : State) with hub := { ({} : Hub) with bootstat := 7, proot := [(0, 0x200000)] } }
def runningSt (busy : Bool) : State :=
  { ({} : State) with c := { c0 with live := busy }, hub := { ({} : Hub) with pctl := [(0, 0x8000060000000000)] } }
theorem wit_HubRegistersAreWritten : readySt.enabled 0 = false ∧ readySt.hub.bootstat = 7 ∧ NMap.get 0 readySt.hub.proot 0 ≠ 0
    ∧ readySt.rectBad 0 (pctlOf readySt 0) = false ∧ NMap.wf pctlReset readySt.hub.pctl = true
    ∧ ({} : State).enabled 0 = false ∧ ({} : State).hub.bootstat ≠ 7
    ∧ (∀ b : Bool, (runningSt b).enabled 0 = true ∧ (runningSt b).partBusy 0 = b) := by decide +kernel
/-- A bank that is about to become the partition's, and one that is about to become another's. -/
theorem wit_PartitionEnable_remaps : (⟨0, 1⟩ : Remap).owner = 0 + 1 ∧ ¬ ((⟨5, 3⟩ : Remap).owner = 0 + 1 ∨ NMap.get 0 readySt.bankOwner 5 = 0 + 1)
    := by decide +kernel
theorem wit_RegionAndSetWrites :
    wordField (keepBits (2 ^ 63) hregMask) 63 1 = 1 ∧ ({} : State).hregBad 0 0 (keepBits (2 ^ 63) hregMask) = true
    ∧ wordField (keepBits 0 hregMask) 63 1 = 0 ∧ wordField (keepBits 0 lqMask) 63 1 = 0
    ∧ wordField (NMap.get 0 (pubSt 1).hub.wset 0) 63 1 = 1 ∧ (NMap.get {} (pubSt 1).hub.wslot (0 * 4 + 0)).st = 1
    ∧ wordField (NMap.get 0 ({} : State).hub.wset 0) 63 1 = 0 ∧ wordField (keepBits 0 wsetMask) 63 1 = 0
    ∧ kownPart (NMap.get 0 ({} : State).hub.kown 0) = kownPart (keepBits 0 0x800000000000000F)
    ∧ (Priv.debugger ≠ hubRegRight (.pctl 0)) := by decide +kernel
/-- A queue whose base is in no Hall region; a set that changes its partition while a slot stages; an enabled partition. -/
theorem wit_RefusedWrites : ({} : State).lqBad 0 (keepBits (2 ^ 63) lqMask) = true ∧ (runningSt false).enabled 0 = true
    ∧ kownPart (NMap.get 0 ({} : State).hub.kown 0) ≠ kownPart (keepBits 0x8000000000000001 0x800000000000000F)
    ∧ ({} : State).enabled 1 = false ∧ Priv.debugger ≠ .partitionManager := by decide +kernel
def deferred (r : HubResult) : Bool := match r with
  | .defer .. => true
  | _ => false
/-- A Hall of kind ONCE whose words are EMPTY. -/
def onceHall : State := { hallSt with hreg := [(0, hallWord 2)] }
theorem wit_ApertureWaits : deferred (onceHall.hubAccess (onceHall.aperturePlace 0x1000000040) (.read 4)) = true
    ∧ deferred (onceHall.hubAccess (onceHall.hallPlace 0 (wordField 64 0 28)) (.read 4)) = true := by decide +kernel
def goodRun : BootRun := ⟨none, [], []⟩
def bootOf (r : BootRun) (z : BitVec 8) : State := { ({} : State) with hub := { ({} : Hub) with booting := some r, bootstat := z } }
/-- A run without failures passes its stages; one whose stage 5 fails, and one whose self-test finds a failed unit, do not. -/
theorem wit_HubServices : ({ ({} : State) with hub := { ({} : Hub) with bootstat := 0x83 } } : State).talkative = true
    ∧ ({} : State).talkative = false ∧ (∀ z ∈ [1, 3, 4, 5, 6], (bootOf goodRun z).stageFails goodRun z.toNat = false)
    ∧ (bootOf { goodRun with fails := some 5 } 5).stageFails { goodRun with fails := some 5 } 5 = true
    ∧ (bootOf { goodRun with units := [7] } 3).stageFails { goodRun with units := [7] } 3 = true ∧ (bootOf goodRun 5).hub.booting = some goodRun := by decide +kernel
def stuck (r : HubResult) : Nat := match r with
  | .wait => 1
  | .fault => 2
  | _ => 0
/-- An access to a bank whose shutter is closed waits; one to no region is a fault. -/
theorem wit_HubServices_stops :
    let closed : State := { hallSt with hub := { hallSt.hub with remaps := [⟨0, 2⟩] } }
    stuck (closed.hubAccess (closed.aperturePlace 0x1000000040) (.read 4)) = 1
    ∧ stuck (closed.hubAccess (closed.hallPlace 0 (wordField 64 0 28)) (.read 4)) = 1
    ∧ stuck (hallSt.hubAccess (hallSt.aperturePlace 0x1200000000) (.read 4)) = 2
    ∧ stuck (hallSt.hubAccess (hallSt.hallPlace 1 (wordField 64 0 28)) (.read 4)) = 2 := by decide +kernel
/-! ## Witnesses: registers, bundles, traps, the step, memory and encodings -/

theorem wit_RegisterReadsAndWrites : (Reg.s 0).fixed = true ∧ (Reg.s 3 : Reg) ≠ .s 4 ∧ NMap.wf 0 c0.files.s = true
    ∧ NMap.wf 0 c0.files.x = true ∧ NMap.wf 0 c0.files.v = true := by decide
theorem wit_SyllablesOnlyStage : isSyllable (.add ⟨false, 0, 9, 8, 8⟩) = true ∧ isSyllable (.konst fillF) = true := by decide
def bundleSt (b : Staged) (hm : Bool) : State := { st with c := { c0 with sys := { hm := hm, tbase := 64 } }, bundle := b }
def oneWrite : BWrite := .reg (.s 3) 7 allBits 2
theorem wit_BundlesCommit : (bundleSt { holds := [.sleep] } false).bundle.holds = [.sleep]
    ∧ (bundleSt { writes := [oneWrite] } false).bundle.writes = [.reg (.s 3) 7 allBits 2]
    ∧ (bundleSt { writes := [oneWrite] } false).bundle.holds = [] ∧ (bundleSt { writes := [oneWrite] } false).bundle.traps = []
    ∧ (bundleSt { writes := [oneWrite] } false).c.frame.act = false := by decide +kernel
def trapSt (hm busy : Bool) : State :=
  let s := bundleSt { traps := [(0, .soft, 9)] } hm
  { s with c := { s.c with inflight := if busy then [⟨.s 3, 1, allBits, 2, false⟩] else [] } }
theorem wit_TrapsAreTaken : ∀ hm busy : Bool, (trapSt hm busy).bundle.holds = []
    ∧ firstTrap ((trapSt hm busy).bundle.traps ++ (trapSt hm busy).watchTraps (trapSt hm busy).bundle.pc) = some (0, .soft, 9)
    ∧ (trapSt hm busy).c.sys.hm = hm ∧ (trapSt hm busy).c.replay = false ∧ (trapSt hm busy).c.sys.tbase ≠ 0
    ∧ (trapSt hm busy).drained (trapSt hm busy).c = !busy := by decide +kernel
/-- The third trap of a replay; a task without a handler. -/
theorem wit_ReplayAndNoHandler : ({ c0 with replay := true, repCnt := 2 } : Ctx).repCnt = 2 ∧ c0.sys.tbase = 0
    ∧ (builtInOf c0 ⟨.soft, false, 9, 64⟩).isNone = true ∧ (builtInOf c0 ⟨.skew, false, 9, 64⟩).isSome = true := by decide +kernel
/-- A context at the base of its region: 32 bytes of zeros are four NOPs; with a reserved operation they are illegal. -/
def pcSt : State := on { c0 with pc := 0x2000000000000000 }
def illSt : State := pcSt.writeValue 0 4 (63 * 2 ^ 21)
def wordsAt (s : State) : BundleWords := bundleWords (s.bytesAt (tileKey s.c.id.tile (wordField s.c.pc 0 23)) 32)
def nop4 : Bundle := ⟨.sNop false, .xNop, .vNop, .cNop⟩
theorem wit_StepRunsTheDecodedBundle : pcSt.agenda = [] ∧ pcSt.c.canIssue pcSt.clk = true ∧ pcSt.c.events = []
    ∧ pcSt.c.budgetCount < pcSt.c.budget ∧ pcSt.c.entry = .done ∧ pcSt.c.syncf = none ∧ pcSt.c.stale = [] ∧ space pcSt.c.pc = 2
    ∧ zeroBitsOk pcSt.c.pc = true ∧ (pcSt.myTile.regionOf pcSt.c.id.num (wordField pcSt.c.pc 0 23)).isSome = true
    ∧ breakUnit pcSt.myTile pcSt.c pcSt.c.pc = none ∧ illSt.agenda = [] ∧ illSt.c = pcSt.c ∧ illSt.tiles = pcSt.tiles
    ∧ illSt.standing = [] ∧ st.standing = [] ∧ space st.c.pc ≠ 2
    ∧ ({ c0 with halted := some .align } : Ctx).canIssue 0 = false := by decide +kernel
/-- A bundle whose ONCE store awaits its decision, and a context that may not issue. -/
def undecidedSt : State := { pcSt with c := { pcSt.c with undecided := some ⟨0, false, 0, [], []⟩ } }
theorem wit_StepUndecided : undecidedSt.agenda = [] ∧ undecidedSt.c.undecided ≠ none ∧ st.agenda = []
    ∧ ({ st with c := { c0 with halted := some .align } } : State).c.canIssue 0 = false
    ∧ ({ c0 with halted := some .align } : Ctx).undecided = none := by decide +kernel
theorem wit_Decoded : decodeBundle (wordsAt pcSt) = .ok nop4 ∧ decodeBundle (wordsAt illSt) = .error (4 * 21) := by decide +kernel
def nextOf (r : Out) : Option State := match r with
  | .next s => some s
  | _ => none
theorem wit_FourSyllables : (((nextOf (exec nop4.s { pcSt with bundle := { pc := pcSt.c.pc } })).bind fun s => nextOf (exec nop4.x s)).bind
    fun s => (nextOf (exec nop4.v s)).bind fun s => nextOf (exec nop4.c s)).isSome = true := by decide +kernel
theorem wit_StepEvent : ({ st with agenda := [.event .statusQuery] } : State).agenda = .event .statusQuery :: [] := rfl
theorem wit_MemoryStaysCanonical : Memory.wf illSt.mem = true ∧ (nextOf (step { st with agenda := [.event .statusQuery] })).isSome = true := by
  decide +kernel
theorem wit_SyllablesSXRoundTrip : (Instr.add ⟨true, 2, 5, 6, 7⟩).wf = true ∧ (encodeS (.add ⟨true, 2, 5, 6, 7⟩)).isSome = true
    ∧ (Instr.xadd ⟨3, 2, 3, 4⟩).wf = true ∧ (encodeX (.xadd ⟨3, 2, 3, 4⟩)).isSome = true := by decide
theorem wit_SyllablesVCRoundTrip : (Instr.vadd ⟨0, 1, 8, 9, 10, 0, 0, false, 0, 0⟩).wf = true
    ∧ (encodeV (.vadd ⟨0, 1, 8, 9, 10, 0, 0, false, 0, 0⟩)).isSome = true ∧ (Instr.konst ⟨0, 0, 0, 9, 0, 0, 0, 0, 0, 0, 5⟩).wf = true
    ∧ (encodeC (.konst ⟨0, 0, 0, 9, 0, 0, 0, 0, 0, 0, 5⟩)).isSome = true := by decide
theorem wit_MicroOpsRoundTrip : (Instr.move ⟨2, 16, 0, 0⟩).wf = true ∧ (encodeT (.move ⟨2, 16, 0, 0⟩)).isSome = true
    ∧ (Instr.peElementwiseA ⟨1, 0, 2, 16, 17, 0⟩).wf = true ∧ (encodeAM (.peElementwiseA ⟨1, 0, 2, 16, 17, 0⟩)).isSome = true
    ∧ (Instr.peDotStep ⟨0x4A, 10, 2, 16, 17, 18⟩).wf = true ∧ (encodeAM (.peDotStep ⟨0x4A, 10, 2, 16, 17, 18⟩)).isSome = true := by decide
end Sys2Proof.Machine.Tests
end

section
/-! Reading and writing of values in memory (R6): the bytes of a value, and what a written value reads as. -/

namespace Sys2Proof

@[simp] theorem toBytes_length (n v : Nat) : (toBytes n v).length = n := by
  induction n generalizing v with
  | zero => rfl
  | succ n ih => simp [toBytes, ih]

/-- Byte i of a value is its 8 bits from bit 8 i up (R6). -/
theorem toBytes_getElem (n v i : Nat) (h : i < (toBytes n v).length) :
    (toBytes n v)[i] = BitVec.ofNat 8 (v / 2 ^ (8 * i)) := by
  induction n generalizing v i with
  | zero => simp [toBytes] at h
  | succ n ih =>
    cases i with
    | zero => simp [toBytes]
    | succ i =>
      simp only [toBytes, List.getElem_cons_succ, ih]
      rw [Nat.div_div_eq_div_mul, Nat.mul_succ, Nat.add_comm, Nat.pow_add]

/-- The bytes of a value give back its low bits. -/
theorem leBytes_toBytes (n v : Nat) : leBytes (toBytes n v) = v % 2 ^ (8 * n) := by
  induction n generalizing v with
  | zero => simp [toBytes, leBytes, Nat.mod_one]
  | succ n ih =>
    simp only [toBytes, leBytes, ih, BitVec.toNat_ofNat]
    rw [Nat.mul_succ, Nat.add_comm (8 * n), Nat.pow_add, Nat.mod_mul]

end Sys2Proof

namespace Sys2Proof.Machine

/-- Bytes that read one by one as a list are that list. -/
theorem bytesAt_eq (s : State) (key : Nat) (bs : List Byte) (h : ∀ i (hi : i < bs.length), s.byte (key + i) = bs[i]) :
    s.bytesAt key bs.length = bs := by
  induction bs generalizing key with
  | nil => rfl
  | cons b r ih =>
    simp only [List.length_cons, State.bytesAt, List.cons.injEq]
    refine ⟨h 0 (Nat.zero_lt_succ _), ih (key + 1) fun i hi => ?_⟩
    have := h (i + 1) (Nat.succ_lt_succ hi)
    rwa [← Nat.add_assoc, Nat.add_right_comm] at this

/-- A byte of a written value reads as the value's byte. -/
theorem byte_writeValue (s : State) (key n v i : Nat) (w : s.Canonical) (h : i < n) :
    (s.writeValue key n v).byte (key + i) = BitVec.ofNat 8 (v / 2 ^ (8 * i)) := by
  have hi : i < (toBytes n v).length := by rwa [toBytes_length]
  exact (memWrite_same s.mem key i _ hi w).trans (toBytes_getElem n v i hi)

/-- The bytes of a written value read back as written. -/
theorem bytesAt_writeValue (s : State) (key n v : Nat) (w : s.Canonical) :
    (s.writeValue key n v).bytesAt key n = toBytes n v := by
  have := bytesAt_eq (s.writeValue key n v) key (toBytes n v) fun i hi => memWrite_same s.mem key i _ hi w
  rwa [toBytes_length] at this

/-- A written value leaves every byte outside it alone. -/
theorem sameOutside_writeValue (s : State) (key n v : Nat) : SameOutside s (s.writeValue key n v) key n :=
  fun i hi => memWrite_other s.mem key i _ (by rwa [toBytes_length])

/-- Settles O56: byte by byte, from the laws of a write of bytes. -/
theorem writtenValuesReadBack : Obligations.WrittenValuesReadBack := by
  intro s key n v w
  refine ⟨?_, sameOutside_writeValue s key n v, fun i hi => byte_writeValue s key n v i w hi⟩
  rw [State.valueAt, bytesAt_writeValue s key n v w, leBytes_toBytes]

end Sys2Proof.Machine
end

section
/-! FRAME LAYER of O55. What a function of the model leaves of the memory: every function that is named here keeps it.
The parts follow the files of the model. -/

namespace Sys2Proof.Machine

/-- The memory of the next state of an outcome is m. -/
def Out.MemIs (m : List Host.Cell) : Out → Prop
  | .next t => t.mem = m
  | .fault _ | .refused _ => True

@[simp] theorem Out.memIs_next (m : List Host.Cell) (t : State) : Out.MemIs m (.next t) ↔ t.mem = m := Iff.rfl

/-- The states that an attempt to move a piece of a copy leaves have the memory m. -/
def Moved.MemIs (m : List Host.Cell) : Moved → Prop
  | .on t _ | .stop t _ => t.mem = m
  | .wait _ => True

/-- The state that an attempt to arm leaves has the memory m. -/
def Armed.MemIs (m : List Host.Cell) : Armed → Prop
  | .done t => t.mem = m
  | .wait | .status .. => True

@[simp] theorem Armed.memIs_done (m : List Host.Cell) (t : State) : Armed.MemIs m (.done t) ↔ t.mem = m := Iff.rfl
@[simp] theorem Armed.memIs_wait (m : List Host.Cell) : Armed.MemIs m .wait := trivial
@[simp] theorem Armed.memIs_status (m : List Host.Cell) (st : Status) (n : Nat) : Armed.MemIs m (.status st n) := trivial

/-- The states in which a plan issues have the memory m. -/
def Plan.MemIs (m : List Host.Cell) : Plan → Prop
  | .idle t | .run t _ _ => t.mem = m
  | .look t u _ => t.mem = m ∧ u.mem = m

@[simp] theorem State.mem_ite (p : Prop) [Decidable p] (a b : State) :
    (if p then a else b).mem = if p then a.mem else b.mem := apply_ite ..

/-- A fold whose steps keep the memory keeps it. -/
@[simp] theorem foldl_mem {β : Type} (f : State → β → State) (l : List β) (s : State) (h : ∀ t x, (f t x).mem = t.mem) :
    (l.foldl f s).mem = s.mem := foldl_keeps State.mem f h l s

/-- A syllable changes the memory through its own effect alone. -/
@[simp] theorem State.syllableIf_mem (s : State) (slot : Nat) (g : BitVec 4) (srcs dsts : List Reg) (busy : List Hold)
    (body : State → State) (h : (body s).mem = s.mem) : (s.syllableIf slot g srcs dsts busy body).mem = s.mem := by
  rcases syllableIf_cases s slot g srcs dsts busy body with ⟨_, _, e⟩ | ⟨_, e⟩ | ⟨_, _, e⟩ | ⟨_, _, e⟩ <;> rw [e]
  · rfl
  · rfl
  · exact h

@[simp] theorem State.syllable_mem (s : State) (slot : Nat) (g : BitVec 4) (srcs dsts : List Reg)
    (body : State → State) (h : (body s).mem = s.mem) : (s.syllable slot g srcs dsts body).mem = s.mem :=
  s.syllableIf_mem _ _ _ _ _ _ h

@[simp] theorem State.vsyl_mem (s : State) (f : VF) (srcs dsts : List Reg) (body : State → State)
    (h : (body s).mem = s.mem) : (s.vsyl f srcs dsts body).mem = s.mem :=
  s.syllableIf_mem _ _ _ _ _ _ h

/-! ### Memory kept: the operations of the state -/

@[simp] theorem State.onTile_mem (s : State) (t : Nat) (f : Tile → Tile) : (s.onTile t f).mem = s.mem := rfl

@[simp] theorem State.draw_mem (s : State) (n : Nat) : (s.draw n).2.mem = s.mem := rfl

@[simp] theorem State.stageReg_mem (s : State) (r : Reg) (val mask : Line) (lat : Nat) :
    (s.stageReg r val mask lat).mem = s.mem := by
  unfold State.stageReg
  split <;> rfl

@[simp] theorem State.putS_mem (s : State) (n : BitVec 6) (w : Word) (lat : Nat) :
    (s.putS n w lat).mem = s.mem := by simp [State.putS]

@[simp] theorem State.putX_mem (s : State) (n : BitVec 5) (w : Word) (lat : Nat) :
    (s.putX n w lat).mem = s.mem := by simp [State.putX]

@[simp] theorem State.putRowS_mem (s : State) (n : BitVec 6) (w : Word) (lat : Nat) :
    (s.putRowS n w lat).mem = s.mem := by
  unfold State.putRowS
  split <;> rfl

@[simp] theorem State.putQ_mem (s : State) (n : BitVec 4) (b : Bool) (lat : Nat) :
    (s.putQ n b lat).mem = s.mem := by simp [State.putQ]

@[simp] theorem State.putM_mem (s : State) (n : Nat) (w : Word) (lat : Nat) : (s.putM n w lat).mem = s.mem := by
  simp [State.putM]

@[simp] theorem State.putV_mem (s : State) (n : BitVec 9) (v mask : Line) (lat : Nat) :
    (s.putV n v mask lat).mem = s.mem := rfl

@[simp] theorem State.haltCtx_mem (s : State) (k : CtxId) (t : Trap) : (s.haltCtx k t).mem = s.mem := by
  unfold State.haltCtx
  split <;> simp

@[simp] theorem State.takeTrap_mem (s : State) (k : CtxId) (t : Trap) : (s.takeTrap k t).mem = s.mem := by
  unfold State.takeTrap
  (repeat' split) <;> simp

/-! ### Memory kept: the issue of bundles -/

@[simp] theorem State.submit_mem (s : State) (k : CtxId) (cmd : Command) : (s.submit k cmd).mem = s.mem := by
  unfold State.submit
  split <;> simp

@[simp] theorem State.drawWords_mem (s : State) (n : Nat) : (s.drawWords n).2.mem = s.mem := by
  induction n generalizing s with
  | zero => rfl
  | succ n ih => exact ih _

@[simp] theorem State.fillOutput_mem (s : State) (k : CtxId) (p : ActPort) : (s.fillOutput k p).mem = s.mem := by
  unfold State.fillOutput
  split
  · simp
  · split <;> simp

@[simp] theorem State.firingEnds_mem (s : State) (k : CtxId) (n : Nat) (advance : Bool) :
    (s.firingEnds k n advance).mem = s.mem := by
  unfold State.firingEnds
  split <;> simp

@[simp] theorem State.commitWrite_mem (s : State) (k : CtxId) (n : Nat) (w : BWrite) :
    (s.commitWrite k n w).mem = s.mem := by
  unfold State.commitWrite
  (repeat' split) <;> simp

@[simp] theorem State.commit_mem (s : State) (k : CtxId) (n : Nat) (pc : Word) (rp : Bool) (ws : List BWrite) :
    (s.commit k n pc rp ws).mem = s.mem := by simp [State.commit]

@[simp] theorem State.decideTrap_mem (s : State) (k : CtxId) (t : Trap) : (s.decideTrap k t).mem = s.mem := by
  unfold State.decideTrap
  split <;> simp

@[simp] theorem State.finish_mem (s : State) (rp : Bool) : (s.finish rp).mem = s.mem := by
  unfold State.finish
  dsimp only
  (repeat' split) <;> simp

@[simp] theorem State.fetchBytes_mem (s : State) (key : Nat) : (s.fetchBytes key).2.mem = s.mem := by
  unfold State.fetchBytes
  dsimp only
  (repeat' split) <;> simp

@[simp] theorem State.syncDone_mem (s : State) (instr config : Bool) :
    (s.syncDone instr config).mem = s.mem := by
  unfold State.syncDone
  split <;> rfl

@[simp] theorem State.loosen_mem (s : State) (k : CtxId) (rs : List Reg) : (s.loosen k rs).mem = s.mem := by
  induction rs generalizing s with
  | nil => rfl
  | cons r rest ih => simp [State.loosen, ih]

@[simp] theorem State.enter_mem (s : State) : s.enter.mem = s.mem := by
  unfold State.enter
  split <;> simp

@[simp] theorem State.takeBudget_mem (s : State) (k : CtxId) : (s.takeBudget k).mem = s.mem := by
  unfold State.takeBudget
  split <;> simp

@[simp] theorem State.traceTokens_mem (s : State) (before : Ctx) : (s.traceTokens before).mem = s.mem := by
  unfold State.traceTokens
  split <;> simp

@[simp] theorem State.tick_mem (s : State) : s.tick.mem = s.mem := by simp [State.tick]

/-! ### Memory kept: boot -/

@[simp] theorem State.swapTo_mem (s : State) (k : CtxId) : (s.swapTo k).mem = s.mem := by
  unfold State.swapTo
  split
  · rfl
  · split <;> rfl

/-! ### Memory kept: scalar syllables -/

@[simp] theorem State.alu_mem (s : State) (f : SR) (lat : Nat) (op : Word → Word → Word) :
    (s.alu f lat op).mem = s.mem := by simp [State.alu]

@[simp] theorem State.alu1_mem (s : State) (f : SU) (lat : Nat) (op : Word → Word) :
    (s.alu1 f lat op).mem = s.mem := by simp [State.alu1]

@[simp] theorem State.aluImm_mem (s : State) (f : SI) (op : Word → Word → Word) :
    (s.aluImm f op).mem = s.mem := by simp [State.aluImm]

@[simp] theorem State.aluShift_mem (s : State) (f : SSh) (op : Word → Nat → Word) :
    (s.aluShift f op).mem = s.mem := by simp [State.aluShift]

@[simp] theorem State.cmpi_mem (s : State) (f : SCmpi) (code : Nat) : (s.cmpi f code).mem = s.mem := by
  simp [State.cmpi]

@[simp] theorem State.plog_mem (s : State) (f : SPl) (srcs : List (BitVec 4)) (op : Bool → Bool → Bool) :
    (s.plog f srcs op).mem = s.mem := by simp [State.plog]

@[simp] theorem State.sync_mem (s : State) (f : SG) (instr config : Bool) : (s.sync f instr config).mem = s.mem :=
  s.syllable_mem _ _ _ _ _ rfl

/-! ### Memory kept: the control core's accesses -/

@[simp] theorem State.stagePwb_mem (s : State) (b : BitVec 8) : (s.stagePwb b).mem = s.mem := by
  unfold State.stagePwb
  split <;> rfl

@[simp] theorem State.load_mem (s : State) (f : SI) (size : Nat) (signed sync : Bool) (eaOf : Word → Word) :
    (s.load f size signed sync eaOf).mem = s.mem := by
  refine s.syllable_mem _ _ _ _ _ ?_
  dsimp only
  split
  · rfl
  · exact State.stagePwb_mem ..

@[simp] theorem State.store_mem (s : State) (f : SI) (size : Nat) (full : Bool) : (s.store f size full).mem = s.mem := by
  refine s.syllable_mem _ _ _ _ _ ?_
  dsimp only
  split <;> rfl

theorem execEmpty_memIs (f : SEmp) (s : State) : (execEmpty f s).MemIs s.mem := by
  refine s.syllable_mem _ _ _ _ _ ?_
  dsimp only
  split <;> rfl

@[simp] theorem State.atomic_mem (s : State) (g : BitVec 4) (d a : BitVec 6) (srcs : List Reg) (op : BankOp) (size : Nat)
    (b cmp : State → Word) : (s.atomic g d a srcs op size b cmp).mem = s.mem := by
  refine s.syllable_mem _ _ _ _ _ ?_
  dsimp only
  split <;> rfl

@[simp] theorem State.atomicR_mem (s : State) (f : SR) (op : BankOp) (size : Nat) :
    (s.atomicR f op size).mem = s.mem := by simp [State.atomicR]

@[simp] theorem State.serveRead_mem (s : State) (k : CtxId) (c : Ctx) (a a' : CoreAcc) :
    (s.serveRead k c a a').mem = s.mem := by simp [State.serveRead]

@[simp] theorem State.renewCode_mem (s : State) (key : Nat) (mask : Line) (size : Nat) :
    (s.renewCode key mask size).mem = s.mem := rfl

@[simp] theorem State.fillWords_mem (s : State) (keys : List Nat) : (s.fillWords keys).mem = s.mem := by
  simp [State.fillWords, setFullAll_mem]

@[simp] theorem State.performEmpty_mem (s : State) (k : CtxId) (c : Ctx) (a : CoreAcc) :
    (s.performEmpty k c a).mem = s.mem := by
  unfold State.performEmpty
  split <;> simp

@[simp] theorem State.leavePort_mem (s : State) (k : CtxId) (i : Nat) : (s.leavePort k i).mem = s.mem := by
  unfold State.leavePort
  split
  · rfl
  · extract_lets writes put
    split
    · rfl
    · exact State.onCtx_mem ..

@[simp] theorem State.onRead_mem (s : State) (w : Reader) (f : Deferral → Deferral) :
    (s.onRead w f).mem = s.mem := by
  unfold State.onRead
  split <;> simp

@[simp] theorem State.takeEntryOf_mem (s : State) (c : Option Ctx) (bank port : Nat) (waited : Option Nat) :
    (s.takeEntryOf c bank port waited).mem = s.mem := by
  unfold State.takeEntryOf
  split <;> simp

@[simp] theorem State.enterRead_mem (s : State) (i : Nat) : (s.enterRead i).mem = s.mem := by
  unfold State.enterRead
  split <;> simp

theorem execDeferredReadEntry_memIs (k : CtxId) (i : Nat) (s : State) :
    (execDeferredReadEntry k i s).MemIs s.mem := by
  unfold execDeferredReadEntry
  split
  · simp
  · split <;> simp

theorem execDeferredReadAnswered_memIs (k : CtxId) (i : Nat) (s : State) :
    (execDeferredReadAnswered k i s).MemIs s.mem := by
  unfold execDeferredReadAnswered
  dsimp only
  (repeat' split) <;> simp

theorem execRegisterWriteLands_memIs (k : CtxId) (i : Nat) (s : State) :
    (execRegisterWriteLands k i s).MemIs s.mem := by simp [execRegisterWriteLands]

theorem execInterlockedValueLands_memIs (k : CtxId) (i : Nat) (s : State) :
    (execInterlockedValueLands k i s).MemIs s.mem := by simp [execInterlockedValueLands]

/-! ### Memory kept: the engines' accesses -/

@[simp] theorem State.useL1_mem (s : State) (tile part : Nat) (a : Word) :
    (s.useL1 tile part a).mem = s.mem := by
  unfold State.useL1
  dsimp only
  (repeat' split) <;> simp

@[simp] theorem State.noteRead_mem (s : State) (c : Ctx) (v : Viewer) (tlb : List TEntry) (a : Word) (n : Nat) :
    (s.noteRead c v tlb a n).mem = s.mem := by simp [State.noteRead]

@[simp] theorem State.noteOp_mem (s : State) (p : EPlace) (size : Nat) : (s.noteOp p size).mem = s.mem := by
  unfold State.noteOp
  split <;> simp

@[simp] theorem State.reachFetch_mem (s : State) (k : CtxId) (seq : Nat) : (s.reachFetch k seq).mem = s.mem := rfl

@[simp] theorem State.accepted_mem (s : State) (m : Command) (p : Word) : (s.accepted m p).mem = s.mem := by
  unfold State.accepted
  split <;> simp

@[simp] theorem State.promise_mem (s : State) (m : Command) (p : Word) : (s.promise m p).mem = s.mem := by
  unfold State.promise
  split <;> simp

@[simp] theorem State.accDone_mem (s : State) (k : CtxId) (seq : Nat) : (s.accDone k seq).mem = s.mem := rfl

@[simp] theorem State.sentDone_mem (s : State) (k : CtxId) (seq : Nat) : (s.sentDone k seq).mem = s.mem := rfl

@[simp] theorem State.retire_mem (s : State) (k : CtxId) (seq : Nat) : (s.retire k seq).mem = s.mem := rfl

@[simp] theorem State.traceHeld_mem (s : State) (r : Run) : (s.traceHeld r).mem = s.mem := by
  unfold State.traceHeld
  split <;> simp

@[simp] theorem State.putRun_mem (s : State) (r : Run) : (s.putRun r).mem = s.mem := by simp [State.putRun]

@[simp] theorem State.traceFault_mem (s : State) (r : Run) (st : Status) (f : Nat) :
    (s.traceFault r st f).mem = s.mem := by
  unfold State.traceFault
  split <;> simp

@[simp] theorem State.traceOnce_mem (s : State) (c : Ctx) (engine code : Nat) (a : Word) :
    (s.traceOnce c engine code a).mem = s.mem := by simp [State.traceOnce]

@[simp] theorem State.failCmd_mem (s : State) (r : Run) (st : Status) (fault : Nat) :
    (s.failCmd r st fault).mem = s.mem := by simp [State.failCmd]

@[simp] theorem State.hubRequest_mem (s : State) (kind part tile ctx : Nat) (args : List Word) :
    (s.hubRequest kind part tile ctx args).2.mem = s.mem := rfl

@[simp] theorem State.takeRequest_mem (s : State) (id : Nat) : (s.takeRequest id).2.mem = s.mem := by
  unfold State.takeRequest
  split <;> rfl

@[simp] theorem State.settleDisarms_mem (s : State) (k : CtxId) : (s.settleDisarms k).mem = s.mem := by
  unfold State.settleDisarms
  split <;> simp

theorem execRingHeadReread_memIs (k : CtxId) (q : Nat) (s : State) : (execRingHeadReread k q s).MemIs s.mem := by
  unfold execRingHeadReread
  dsimp only
  (repeat' split) <;> simp

/-! ### Memory kept: remote sends -/

@[simp] theorem State.traceLane_mem (s : State) (c : Ctx) (lane dpkg : Nat) :
    (s.traceLane c lane dpkg).mem = s.mem := by simp [State.traceLane]

@[simp] theorem State.traceRefusal_mem (s : State) (c : Ctx) (lane dpkg : Nat) (st : Status) :
    (s.traceRefusal c lane dpkg st).mem = s.mem := by simp [State.traceRefusal]

@[simp] theorem State.attach_mem (s : State) (k : CtxId) (lane dpkg : Nat) :
    (s.attach k lane dpkg).mem = s.mem := by
  unfold State.attach
  split <;> simp

@[simp] theorem State.sendPkt_mem (s : State) (c : Ctx) (lane dpkg cmd elem tag : Nat) (body : Packet) :
    (s.sendPkt c lane dpkg cmd elem tag body).mem = s.mem := by
  unfold State.sendPkt
  dsimp only
  (repeat' split) <;> simp

/-! ### Memory kept: streams -/

@[simp] theorem State.traceDoors_mem (s : State) (c : Ctx) (r : Run) : (s.traceDoors c r).mem = s.mem := by
  simp [State.traceDoors]

@[simp] theorem State.addRun_mem (s : State) (r : Run) : (s.addRun r).mem = s.mem := by simp [State.addRun]

@[simp] theorem State.acceptStream_mem (s : State) (c : Ctx) (m : Command) :
    (s.acceptStream c m).mem = s.mem := by
  unfold State.acceptStream
  dsimp only
  (repeat' split) <;> simp

theorem execDoorBinding_memIs (tile slot : Nat) (s : State) : (execDoorBinding tile slot s).MemIs s.mem := by
  unfold execDoorBinding
  dsimp only
  (repeat' split) <;> simp

@[simp] theorem State.traceSpillFull_mem (s : State) (c : Ctx) (r : Run) :
    (s.traceSpillFull c r).mem = s.mem := by simp [State.traceSpillFull]

@[simp] theorem State.openEpisode_mem (s : State) (k : CtxId) (part : Nat) (va : Word) (log2 : Nat) (write : Bool) (slot : Nat) :
    (s.openEpisode k part va log2 write slot).mem = s.mem := by
  unfold State.openEpisode
  dsimp only
  (repeat' split) <;> simp

@[simp] theorem State.beginDiversion_mem (s : State) (c : Ctx) (r : Run) (write : Bool) :
    (s.beginDiversion c r write).mem = s.mem := by simp [State.beginDiversion]

@[simp] theorem State.useTlb_mem (s : State) (c : Ctx) (r : Run) (a : Word) : (s.useTlb c r a).mem = s.mem := by
  unfold State.useTlb
  dsimp only
  (repeat' split) <;> simp

@[simp] theorem State.useTlbs_mem (s : State) (c : Ctx) (r : Run) (n : Nat) (raw : Word) :
    (s.useTlbs c r n raw).mem = s.mem := by simp [State.useTlbs]

@[simp] theorem State.readUnits_mem (s : State) (c : Ctx) (r : Run) (line : Option Word) (n : Nat) :
    (s.readUnits c r line n).1.mem = s.mem := by
  induction n generalizing s r line with
  | zero => rfl
  | succ n ih =>
    unfold State.readUnits
    dsimp only
    split
    · rfl
    · split
      · rfl
      · split
        · exact State.beginDiversion_mem ..
        · split <;> rfl
      · split
        · rfl
        · simp [ih]

theorem State.pushAll_mem {s t : State} {doors : List DoorId} {e : DoorEntry} (h : s.pushAll doors e = some t) :
    t.mem = s.mem := by
  unfold State.pushAll at h
  dsimp only at h
  split at h
  · cases h
    simp
  · cases h

@[simp] theorem State.turnRead_mem (s : State) (c : Ctx) (r : Run) : (s.turnRead c r).mem = s.mem := by
  unfold State.turnRead
  split
  · split
    · rfl
    · rename_i t ht
      simp [State.pushAll_mem ht]
  · split <;> simp

@[simp] theorem State.turnConst_mem (s : State) (c : Ctx) (r : Run) : (s.turnConst c r).mem = s.mem := by
  unfold State.turnConst
  dsimp only
  split
  · rfl
  · rename_i t ht
    simp [State.pushAll_mem ht]

@[simp] theorem State.turnRec_mem (s : State) (c : Ctx) (r : Run) : (s.turnRec c r).mem = s.mem := by
  unfold State.turnRec
  split
  · simp
  · split <;> simp

@[simp] theorem State.takeEntry_mem (s : State) (c : Ctx) (r : Run) : (s.takeEntry c r).1.mem = s.mem := by
  unfold State.takeEntry
  dsimp only
  (repeat' split) <;> simp

@[simp] theorem State.sendUnits_mem (s : State) (c : Ctx) (r : Run) (a : Word) (m : Nat) (st : BitVec 32) :
    (s.sendUnits c r a m st).mem = s.mem := by simp [State.sendUnits]

@[simp] theorem State.completeStream_mem (s : State) (c : Ctx) (r : Run) :
    (s.completeStream c r).mem = s.mem := by simp [State.completeStream]

/-! ### Memory kept: gathers -/

@[simp] theorem State.acceptGather_mem (s : State) (c : Ctx) (m : Command) :
    (s.acceptGather c m).mem = s.mem := by
  unfold State.acceptGather
  split <;> simp

@[simp] theorem State.replayBits_mem (s : State) (c : Ctx) (r : Run) : (s.replayBits c r).mem = s.mem := by
  unfold State.replayBits
  split <;> simp

@[simp] theorem State.formElem_mem (s : State) (c : Ctx) (r : Run) (n : Nat) (rest : List Nat) :
    (s.formElem c r n rest).mem = s.mem := by
  unfold State.formElem
  dsimp only
  (repeat' split) <;> simp

@[simp] theorem State.readElem_mem (s : State) (c : Ctx) (r : Run) (e : GElem) :
    (s.readElem c r e).mem = s.mem := by
  unfold State.readElem
  dsimp only
  (repeat' split) <;> simp

@[simp] theorem State.operandElem_mem (s : State) (c : Ctx) (r : Run) (e : GElem) :
    (s.operandElem c r e).mem = s.mem := by
  unfold State.operandElem
  dsimp only
  (repeat' split) <;> simp

/-! ### Memory kept: copies -/

@[simp] theorem State.acceptCopy_mem (s : State) (c : Ctx) (m : Command) : (s.acceptCopy c m).mem = s.mem := by
  unfold State.acceptCopy
  dsimp only
  (repeat' split) <;> simp

theorem execCopyAccept_memIs (engine : Nat) (s : State) : (execCopyAccept engine s).MemIs s.mem := by
  unfold execCopyAccept
  dsimp only
  (repeat' split) <;> simp

@[simp] theorem State.keepPage_mem (s : State) (c : Ctx) (old : Option TEntry) (a : Word) :
    (s.keepPage c old a).1.mem = s.mem := by
  unfold State.keepPage
  dsimp only
  (repeat' split) <;> simp

@[simp] theorem State.keepSrc_mem (s : State) (c : Ctx) (r : Run) (a : Word) :
    (s.keepSrc c r a).1.mem = s.mem := by simp [State.keepSrc]

@[simp] theorem State.keepDst_mem (s : State) (c : Ctx) (r : Run) (a : Word) :
    (s.keepDst c r a).1.mem = s.mem := by simp [State.keepDst]

/-- A fault of a piece writes nothing. -/
theorem State.copyFault_memIs (s : State) (c : Ctx) (r : Run) (p n code : Nat) (data : Option (List Byte)) :
    (s.copyFault c r p n code data).MemIs s.mem := by
  unfold State.copyFault
  split
  · split
    · exact State.beginDiversion_mem ..
    · trivial
  · exact State.traceOnce_mem ..

@[simp] theorem State.gatherPacket_mem (s : State) (c : Ctx) (r : Run) (p : Nat) (acc : List Byte) (n : Nat) :
    (s.gatherPacket c r p acc n).1.mem = s.mem := by
  induction n generalizing s r p acc with
  | zero => rfl
  | succ n ih =>
    unfold State.gatherPacket
    dsimp only
    (repeat' split) <;> simp [ih]

@[simp] theorem State.moveRemote_mem (s : State) (c : Ctx) (r : Run) : (s.moveRemote c r).1.mem = s.mem := by
  unfold State.moveRemote
  dsimp only
  split
  · rfl
  · split
    · rfl
    · split
      · rfl
      · have hg := s.gatherPacket_mem c r r.pos [] 64
        split
        · rename_i t q code hq
          rw [hq] at hg
          have hf := t.copyFault_memIs c q q.pos (q.piece q.pos) code none
          split <;> rename_i hm <;> rw [hm] at hf
          · exact hf.trans hg
          · exact hg
          · exact hf.trans hg
        · rename_i hq
          rw [hq] at hg
          exact hg
        · rename_i hq
          rw [hq] at hg
          simpa using hg

@[simp] theorem State.completeCopy_mem (s : State) (c : Ctx) (r : Run) : (s.completeCopy c r).mem = s.mem := by
  unfold State.completeCopy
  (repeat' split) <;> simp

/-! ### Memory kept: posts and templates -/

@[simp] theorem State.acceptPost_mem (s : State) (c : Ctx) (m : Command) : (s.acceptPost c m).mem = s.mem := by
  simp [State.acceptPost]

@[simp] theorem State.postOver_mem (s : State) (tile i : Nat) (c : Ctx) (m : Command) (st : Status) :
    (s.postOver tile i c m st).mem = s.mem := by simp [State.postOver]

theorem execPostPlaced_memIs (tile i : Nat) (s : State) : (execPostPlaced tile i s).MemIs s.mem := by
  unfold execPostPlaced
  dsimp only
  (repeat' split) <;> simp

@[simp] theorem State.onTask_mem (s : State) (k : CtxId) (launch : Nat) (f : Ctx → Ctx) :
    (s.onTask k launch f).mem = s.mem := rfl

@[simp] theorem State.returnCredits_mem (s : State) (xs : List Credit) : (s.returnCredits xs).mem = s.mem :=
  foldl_mem _ _ _ fun _ _ => State.onTask_mem ..

theorem execCreditGrant_memIs (src dst lb : Nat) (s : State) : (execCreditGrant src dst lb s).MemIs s.mem := by
  unfold execCreditGrant
  dsimp only
  (repeat' split) <;> simp

@[simp] theorem State.acceptSarm_mem (s : State) (c : Ctx) (m : Command) : (s.acceptSarm c m).mem = s.mem := by
  unfold State.acceptSarm
  split <;> simp

@[simp] theorem State.acceptSdisarm_mem (s : State) (c : Ctx) (m : Command) :
    (s.acceptSdisarm c m).mem = s.mem := by
  unfold State.acceptSdisarm
  split <;> simp

theorem execTemplateFiring_memIs (k : CtxId) (t : Nat) (s : State) : (execTemplateFiring k t s).MemIs s.mem := by
  unfold execTemplateFiring
  dsimp only
  (repeat' split) <;> simp

/-! ### Memory kept: order and barriers -/

@[simp] theorem State.acceptSmark_mem (s : State) (c : Ctx) (m : Command) : (s.acceptSmark c m).mem = s.mem := by
  simp [State.acceptSmark]

theorem execMarkerReachesHead_memIs (k : CtxId) (i : Nat) (s : State) :
    (execMarkerReachesHead k i s).MemIs s.mem := by
  unfold execMarkerReachesHead
  dsimp only
  (repeat' split) <;> simp

theorem execSordAccept_memIs (tile i : Nat) (s : State) : (execSordAccept tile i s).MemIs s.mem := by
  unfold execSordAccept
  dsimp only
  (repeat' split) <;> simp

theorem execOrderTokenOpen_memIs (k : CtxId) (door : Nat) (s : State) :
    (execOrderTokenOpen k door s).MemIs s.mem := by
  unfold execOrderTokenOpen
  split
  · simp
  · split <;> simp

@[simp] theorem State.acceptSbar_mem (s : State) (c : Ctx) (m : Command) : (s.acceptSbar c m).mem = s.mem := by
  unfold State.acceptSbar
  dsimp only
  (repeat' split) <;> simp

theorem execSbarSatisfied_memIs (k : CtxId) (i : Nat) (s : State) : (execSbarSatisfied k i s).MemIs s.mem := by
  unfold execSbarSatisfied
  dsimp only
  (repeat' split) <;> simp

/-! ### Memory kept: vector syllables -/

@[simp] theorem State.stageFlags_mem (s : State) (f : VF) (fl : FlagBits) (rounds : Bool) :
    (s.stageFlags f fl rounds).mem = s.mem := by simp [State.stageFlags]

@[simp] theorem State.putLanes_mem (s : State) (d : VF) (t : ElemType) (lat : Nat) (rounds : Bool) (g : Nat → Nat × FlagBits) :
    (s.putLanes d t lat rounds g).mem = s.mem := by simp [State.putLanes]

@[simp] theorem State.vf2_mem (s : State) (f : VF) (lat : Nat) (op : Fmt → FVal → FVal → Rnd → Nat × FlagBits) :
    (s.vf2 f lat op).mem = s.mem := by simp [State.vf2]

@[simp] theorem State.vf3_mem (s : State) (f : VF) (negP negC : Bool) : (s.vf3 f negP negC).mem = s.mem := by
  simp [State.vf3]

@[simp] theorem State.vf1_mem (s : State) (f : VF) (op : Fmt → FVal → Rnd → Nat × FlagBits) :
    (s.vf1 f op).mem = s.mem := by simp [State.vf1]

@[simp] theorem State.vbits2_mem (s : State) (f : VF) (lat : Nat) (op : Nat → Nat → Nat × FlagBits) :
    (s.vbits2 f lat op).mem = s.mem := by simp [State.vbits2]

@[simp] theorem State.vbits1_mem (s : State) (f : VF) (lat : Nat) (op : Nat → Nat) :
    (s.vbits1 f lat op).mem = s.mem := by simp [State.vbits1]

@[simp] theorem State.vcompare_mem (s : State) (f : VF) (lat : Nat) (cmp : Nat → Nat → Bool × FlagBits) :
    (s.vcompare f lat cmp).mem = s.mem := by simp [State.vcompare]

@[simp] theorem State.vint_mem (s : State) (f : VF) (lat : Nat) (op : Nat → Nat → Nat → Nat) :
    (s.vint f lat op).mem = s.mem := by simp [State.vint]

@[simp] theorem State.vload_mem (s : State) (f : VF) (sync : Bool) : (s.vload f sync).mem = s.mem := by
  refine s.vsyl_mem _ _ _ _ ?_
  dsimp only
  split
  · rfl
  · exact State.stagePwb_mem ..

@[simp] theorem State.vstore_mem (s : State) (f : VF) (full : Bool) : (s.vstore f full).mem = s.mem := by
  refine s.vsyl_mem _ _ _ _ ?_
  dsimp only
  split <;> rfl

theorem execVput_memIs (f : VF) (s : State) : (execVput f s).MemIs s.mem := by
  unfold execVput
  split
  · rfl
  · exact s.vsyl_mem _ _ _ _ rfl

@[simp] theorem State.mop_mem (s : State) (f : VF) (op : Word → Word → Word) : (s.mop f op).mem = s.mem := by
  simp [State.mop]

@[simp] theorem State.mscalar_mem (s : State) (f : VF) (op : Word → Word) : (s.mscalar f op).mem = s.mem := by
  simp [State.mscalar]

/-! ### Memory kept: micro-operations -/

@[simp] theorem State.onMicro_mem (s : State) (f : Micro → Micro) : (s.onMicro f).mem = s.mem := by
  unfold State.onMicro
  split <;> rfl

/-! ### Memory kept: the fabric -/

@[simp] theorem State.traceReleased_mem (s : State) (c : Ctx) (x : Section) :
    (s.traceReleased c x).mem = s.mem := by simp [State.traceReleased]

theorem runMicro_memIs (i : Instr) (s : State) : (runMicro i s).MemIs s.mem := by
  unfold runMicro
  split
  case h_21 => rfl
  all_goals exact s.onMicro_mem _

theorem runEntry_memIs (ops : List Instr) (s : State) : (runEntry ops s).MemIs s.mem := by
  induction ops generalizing s with
  | nil => rfl
  | cons i r ih =>
    have hi := runMicro_memIs i s
    unfold runEntry
    split
    · rename_i t ht
      rw [ht] at hi
      exact hi ▸ ih t
    · exact hi

@[simp] theorem State.recordPoison_mem (s : State) (k : CtxId) (h : Nat) (o : BitVec 32) (q : Nat) :
    (s.recordPoison k h o q).mem = s.mem := by
  unfold State.recordPoison
  dsimp only
  (repeat' split) <;> simp

@[simp] theorem State.dropGrant_mem (s : State) (k : CtxId) (h : Nat) : (s.dropGrant k h).mem = s.mem := by
  simp [State.dropGrant]

@[simp] theorem State.countTiles_mem (s : State) (k : CtxId) (h n : Nat) : (s.countTiles k h n).mem = s.mem := by
  unfold State.countTiles
  split <;> simp

@[simp] theorem State.commitFiring_mem (s : State) (m : Micro) (g : Image) (r : PeRecord) (srcs : List Nat) (o : Nat) :
    (s.commitFiring m g r srcs o).mem = s.mem := by simp [State.commitFiring]

@[simp] theorem State.mismatch_mem (s : State) (k : CtxId) (x : Section) (g : Image) (r : PeRecord) (opened : List Nat) :
    (s.mismatch k x g r opened).mem = s.mem := by
  unfold State.mismatch
  dsimp only
  (repeat' split) <;> simp

theorem execPeFiring_memIs (k : CtxId) (h row col : Nat) (s : State) : (execPeFiring k h row col s).MemIs s.mem := by
  unfold execPeFiring
  split
  · rfl
  · split
    · rfl
    · extract_lets ops srcs heads closed waitsGrant shuttered skip finished need isTurn m
      have hs : skip.mem = s.mem := onSec_mem ..
      split
      · rfl
      · split
        · simp [hs]
        · split
          · split
            · rfl
            · exact hs
          · split
            · exact State.mismatch_mem ..
            · split
              · rfl
              · have hr := runEntry_memIs ops { s with micro := some m }
                split
                · rename_i t ht
                  rw [ht] at hr
                  dsimp only
                  split
                  · exact (State.commitFiring_mem ..).trans hr
                  · exact hr
                · exact hr

theorem execLoopBufferFill_memIs (k : CtxId) (h row col : Nat) (s : State) :
    (execLoopBufferFill k h row col s).MemIs s.mem := by
  unfold execLoopBufferFill
  dsimp only
  (repeat' split) <;> simp

@[simp] theorem State.replayed_mem (s : State) (k : CtxId) (e : EdgeAcc) (failed : Bool) :
    (s.replayed k e failed).mem = s.mem := by
  unfold State.replayed
  (repeat' split) <;> simp

@[simp] theorem State.deliverEdge_mem (s : State) (k : CtxId) (h i n : Nat) : (s.deliverEdge k h i n).mem = s.mem := by
  induction n generalizing s with
  | zero => rfl
  | succ n ih =>
    unfold State.deliverEdge
    split
    · rfl
    · split
      · split
        · rfl
        · exact onSec_mem ..
        · dsimp only
          split
          · simp [ih]
          · split
            · simp [ih]
            · split
              · rfl
              · simp [ih]
      · exact onSec_mem ..
      · rfl

@[simp] theorem State.freezeEvent_mem (s : State) (k : CtxId) (h i : Nat) (c : Ctx) (x : Section) (e : EdgeAcc) :
    (s.freezeEvent k h i c x e).mem = s.mem := by simp [State.freezeEvent]

/-! ### Memory kept: sections -/

@[simp] theorem State.updateRow0_mem (s : State) (tile : Nat) : (s.updateRow0 tile).mem = s.mem := rfl

@[simp] theorem State.startMove_mem (s : State) (k : CtxId) (h : Nat) (org : Nat × Nat) :
    (s.startMove k h org).mem = s.mem := by
  unfold State.startMove
  split <;> simp

@[simp] theorem State.endMove_mem (s : State) (k : CtxId) (h : Nat) (m : Move) :
    (s.endMove k h m).mem = s.mem := by
  unfold State.endMove
  split <;> simp

theorem execPageMove_memIs (k : CtxId) (h py px : Nat) (s : State) : (execPageMove k h py px s).MemIs s.mem := by
  unfold execPageMove
  split
  · rfl
  · split
    · simp
    · rfl

@[simp] theorem State.endNode_mem (s : State) (k : CtxId) (n : Option Nat) (poison : BitVec 32) :
    (s.endNode k n poison).mem = s.mem := by
  unfold State.endNode
  split <;> simp

@[simp] theorem State.keepCached_mem (s : State) (tile : Nat) (xs : List Cached) :
    (s.keepCached tile xs).mem = s.mem := rfl

@[simp] theorem State.releaseSection_mem (s : State) (k : CtxId) (h : Nat) :
    (s.releaseSection k h).mem = s.mem := by
  unfold State.releaseSection
  split <;> simp

@[simp] theorem State.secRec_mem (s : State) (k : CtxId) (q h : Nat) (st : Status) :
    (s.secRec k q h st).mem = s.mem := by simp [State.secRec]

@[simp] theorem State.scfgOver_mem (s : State) (r : Run) (h : Nat) (st : Status) (fault : Nat) :
    (s.scfgOver r h st fault).mem = s.mem := by
  unfold State.scfgOver
  dsimp only
  (repeat' split) <;> simp

@[simp] theorem State.beginSwitch_mem (s : State) (k : CtxId) (h : Nat) (g : Image) (e : Cached) :
    (s.beginSwitch k h g e).mem = s.mem := by
  unfold State.beginSwitch
  split <;> simp

@[simp] theorem State.askPages_mem (s : State) (c : Ctx) (x : Section) (pr pc : Nat) :
    (s.askPages c x pr pc).mem = s.mem := by simp [State.askPages]

@[simp] theorem State.findPages_mem (s : State) (c : Ctx) (x : Section) (pr pc : Nat) :
    (s.findPages c x pr pc).mem = s.mem := by
  unfold State.findPages
  dsimp only
  (repeat' split) <;> simp

@[simp] theorem State.scfgReject_mem (s : State) (r : Run) (h : Nat) (st : Status) (fault : Nat) :
    (s.scfgReject r h st fault).mem = s.mem := by simp [State.scfgReject]

@[simp] theorem State.scfgAccept_mem (s : State) (c : Ctx) (x : Section) (r : Run) (g : Image) (e : Cached) :
    (s.scfgAccept c x r g e).mem = s.mem := by simp [State.scfgAccept]

@[simp] theorem State.scfgLine_mem (s : State) (c : Ctx) (x : Section) (r : Run) :
    (s.scfgLine c x r).mem = s.mem := by
  unfold State.scfgLine
  dsimp only
  (repeat' split) <;> simp

@[simp] theorem State.scfgRoom_mem (s : State) (c : Ctx) (x : Section) (r : Run) :
    (s.scfgRoom c x r).mem = s.mem := by
  unfold State.scfgRoom
  dsimp only
  (repeat' split) <;> simp

@[simp] theorem State.scfgCheck_mem (s : State) (c : Ctx) (x : Section) (r : Run) (e : Cached) :
    (s.scfgCheck c x r e).mem = s.mem := by
  unfold State.scfgCheck
  dsimp only
  (repeat' split) <;> simp

@[simp] theorem State.scfgRead_mem (s : State) (c : Ctx) (x : Section) (r : Run) : (s.scfgRead c x r).mem = s.mem := by
  unfold State.scfgRead
  split
  · simp
  · split <;> simp

@[simp] theorem State.scfgPlace_mem (s : State) (c : Ctx) (x : Section) (r : Run) (g : Image) (e : Cached) :
    (s.scfgPlace c x r g e).mem = s.mem := by
  unfold State.scfgPlace
  dsimp only
  split
  · simp
  · split
    · rfl
    · split
      · exact State.findPages_mem ..
      · split <;> simp

@[simp] theorem State.scfgStep_mem (s : State) (c : Ctx) (x : Section) (r : Run) :
    (s.scfgStep c x r).mem = s.mem := by
  unfold State.scfgStep
  split <;> simp

theorem State.actScfg_mem {s t : State} {c : Ctx} {r : Run} {h : Nat} (e : s.actScfg c r h = some t) : t.mem = s.mem := by
  unfold State.actScfg at e
  dsimp only at e
  repeat' split at e
  all_goals cases e <;> simp

@[simp] theorem State.askGrant_mem (s : State) (k : CtxId) (h g : Nat) : (s.askGrant k h g).mem = s.mem := by
  unfold State.askGrant
  split <;> simp

@[simp] theorem State.armSection_mem (s : State) (k : CtxId) (h : Nat) (count node : Option Nat) :
    (s.armSection k h count node).mem = s.mem := by
  unfold State.armSection
  split <;> simp

@[simp] theorem State.sstopOver_mem (s : State) (r : Run) (h : Nat) (st : Status) :
    (s.sstopOver r h st).mem = s.mem := by simp [State.sstopOver]

theorem State.actSstop_mem {s t : State} {c : Ctx} {r : Run} {h : Nat} (e : s.actSstop c r h = some t) : t.mem = s.mem := by
  unfold State.actSstop at e
  dsimp only at e
  repeat' split at e
  all_goals cases e <;> simp

@[simp] theorem State.endSection_mem (s : State) (k : CtxId) (h : Nat) : (s.endSection k h).mem = s.mem := by
  unfold State.endSection
  split <;> simp

@[simp] theorem State.endSwitch_mem (s : State) (k : CtxId) (h : Nat) : (s.endSwitch k h).mem = s.mem := by
  unfold State.endSwitch
  split <;> simp

@[simp] theorem State.switchPe_mem (s : State) (k : CtxId) (h : Nat) (p : Pe) (g : Image) (r : PeRecord) :
    (s.switchPe k h p g r).mem = s.mem := by
  unfold State.switchPe
  split
  · rfl
  · simp only [State.endSwitch_mem, onSec_mem]
    refine foldl_mem _ _ _ fun t q => ?_
    split <;> simp

@[simp] theorem State.sendSwitch_mem (s : State) (k : CtxId) (h row col d : Nat) :
    (s.sendSwitch k h row col d).mem = s.mem := by
  unfold State.sendSwitch
  split
  · simp
  · split <;> simp

/-! ### Memory kept: the systolic part -/

@[simp] theorem State.traceLoad_mem (s : State) (c : Ctx) (r : Run) (st : Status) (set : Nat) :
    (s.traceLoad c r st set).mem = s.mem := by simp [State.traceLoad]

@[simp] theorem State.loadRefused_mem (s : State) (c : Ctx) (r : Run) (st : Status) :
    (s.loadRefused c r st).mem = s.mem := by simp [State.loadRefused]

@[simp] theorem State.failLoad_mem (s : State) (c : Ctx) (r : Run) (st : Status) (fault : Nat) :
    (s.failLoad c r st fault).mem = s.mem := by simp [State.failLoad]

theorem State.actSwload_mem {s t : State} {c : Ctx} {r : Run} (e : s.actSwload c r = some t) : t.mem = s.mem := by
  unfold State.actSwload at e
  dsimp only at e
  split at e <;> cases e <;> simp

@[simp] theorem State.acceptSwload_mem (s : State) (c : Ctx) (m : Command) :
    (s.acceptSwload c m).mem = s.mem := by
  unfold State.acceptSwload
  split <;> simp

@[simp] theorem State.readWeights_mem (s : State) (c : Ctx) (r : Run) (k n : Nat) (line : Option Word) (fuel : Nat) :
    (s.readWeights c r k n line fuel).1.mem = s.mem := by
  induction fuel generalizing s r line with
  | zero => rfl
  | succ fuel ih =>
    unfold State.readWeights
    dsimp only
    (repeat' split) <;> simp [ih]

@[simp] theorem State.placeLoad_mem (s : State) (c : Ctx) (x : Section) : (s.placeLoad c x).mem = s.mem := by
  unfold State.placeLoad
  dsimp only
  (repeat' split) <;> simp

@[simp] theorem State.loadTurn_mem (s : State) (c : Ctx) (r : Run) : (s.loadTurn c r).mem = s.mem := by
  unfold State.loadTurn
  dsimp only
  (repeat' split) <;> simp

@[simp] theorem State.setBank_mem (s : State) (k : CtxId) (h bank : Nat) (f : Bank → Bank) :
    (s.setBank k h bank f).mem = s.mem := by simp [State.setBank]

@[simp] theorem State.endLoad_mem (s : State) (c : Ctx) (r : Run) : (s.endLoad c r).mem = s.mem := by
  simp [State.endLoad]

@[simp] theorem State.smmRecord_mem (s : State) (r : Run) (h : Nat) (st : Status) (fault : BitVec 32) (version bytes : Nat) :
    (s.smmRecord r h st fault version bytes).mem = s.mem := by simp [State.smmRecord]

@[simp] theorem State.armSmm_mem (s : State) (c : Ctx) (x : Section) (y : Systolic) (m : Smm) (count : Option Nat) :
    (s.armSmm c x y m count).mem = s.mem := by simp [State.armSmm]

@[simp] theorem State.smmEnds_mem (s : State) (c : Ctx) (r : Run) (st : Status) (fault : BitVec 32) :
    (s.smmEnds c r st fault).mem = s.mem := by simp [State.smmEnds]

theorem State.actSmm_mem {s t : State} {c : Ctx} {r : Run} (e : s.actSmm c r = some t) : t.mem = s.mem := by
  unfold State.actSmm at e
  dsimp only at e
  split at e <;> cases e <;> simp

@[simp] theorem State.acceptSmm_mem (s : State) (c : Ctx) (m : Command) : (s.acceptSmm c m).mem = s.mem := by
  unfold State.acceptSmm
  (repeat' split) <;> simp

@[simp] theorem State.reopen_mem (s : State) (k : CtxId) (h : Nat) : (s.reopen k h).mem = s.mem := by
  unfold State.reopen
  split
  · simp
  · split <;> simp

theorem State.actSrun_mem {s t : State} {c : Ctx} {r : Run} {h : Nat} {back : Bool} (e : s.actSrun c r h back = some t) :
    t.mem = s.mem := by
  unfold State.actSrun at e
  dsimp only at e
  repeat' split at e
  all_goals cases e <;> simp

theorem execRowAdmission_memIs (k : CtxId) (h : Nat) (s : State) : (execRowAdmission k h s).MemIs s.mem := by
  unfold execRowAdmission
  dsimp only
  (repeat' split) <;> simp

theorem execOutputEntryPush_memIs (k : CtxId) (h j : Nat) (s : State) :
    (execOutputEntryPush k h j s).MemIs s.mem := by
  unfold execOutputEntryPush
  dsimp only
  (repeat' split) <;> simp

@[simp] theorem State.retireSmm_mem (s : State) (c : Ctx) (x : Section) (m : Smm) :
    (s.retireSmm c x m).mem = s.mem := by
  unfold State.retireSmm
  (repeat' split) <;> simp

/-! ### Memory kept: handles -/

@[simp] theorem State.nodeArmed_mem (s : State) (k : CtxId) (n count : Nat) :
    (s.nodeArmed k n count).mem = s.mem := by simp [State.nodeArmed]

theorem State.armSystolicNode_memIs (s : State) (c : Ctx) (n : GNode) (count seq : Nat) (o : BitVec 32) :
    (s.armSystolicNode c n count seq o).MemIs s.mem := by
  unfold State.armSystolicNode
  dsimp only
  split
  · trivial
  · trivial
  · split
    · trivial
    · split
      · trivial
      · split
        · trivial
        · trivial
        · simp

theorem State.armDataflowNode_memIs (s : State) (c : Ctx) (n : GNode) (count : Nat) :
    (s.armDataflowNode c n count).MemIs s.mem := by
  unfold State.armDataflowNode
  split
  · trivial
  · (repeat' split) <;> simp

theorem State.armTemplateNode_memIs (s : State) (c : Ctx) (n : GNode) (count q : Nat) :
    (s.armTemplateNode c n count q).MemIs s.mem := by
  unfold State.armTemplateNode
  split
  · trivial
  · trivial
  · dsimp only
    (repeat' split) <;> simp

theorem State.armNode_memIs (s : State) (c : Ctx) (n : GNode) (count seq : Nat) (o : BitVec 32) (q : Nat) :
    (s.armNode c n count seq o q).MemIs s.mem := by
  unfold State.armNode
  split
  · simp
  · split
    · simp
    · split
      · exact s.armTemplateNode_memIs ..
      · split
        · exact s.armSystolicNode_memIs ..
        · exact s.armDataflowNode_memIs ..

@[simp] theorem State.closeNode_mem (s : State) (k : CtxId) (n : Nat) (o : BitVec 32) :
    (s.closeNode k n o).mem = s.mem := by simp [State.closeNode]

theorem State.armBehind_memIs (s : State) (c : Ctx) (n : GNode) (count seq q : Nat) :
    (s.armBehind c n count seq q).MemIs s.mem := by
  unfold State.armBehind
  extract_lets deps poison
  by_cases hw : count ≠ 0 ∧ (deps.any fun m => if n.kind = 2 then !m.ended else m.waiting) = true
  · rw [if_pos hw]
    trivial
  · rw [if_neg hw]
    split
    · simp
    · exact s.armNode_memIs ..

theorem State.actSarmg_mem {s t : State} {c : Ctx} {r : Run} (e : s.actSarmg c r = some t) : t.mem = s.mem := by
  unfold State.actSarmg at e
  dsimp only at e
  split at e
  · cases e
    simp
  · rename_i n _
    split at e
    · cases e
      simp
    · have ha := s.armBehind_memIs c n (r.f.imm.toNat / 2 ^ 32) r.cmd.seq r.f.q.toNat
      split at e
      · cases e
      · cases e
        simp
      · rename_i hm
        rw [hm] at ha
        cases e
        simpa [Armed.MemIs] using ha

theorem State.actOne_mem {s t : State} {c : Ctx} {r : Run} (e : s.actOne c r = some t) : t.mem = s.mem := by
  unfold State.actOne at e
  split at e
  · cases e
  · split at e
    · exact State.actScfg_mem e
    · exact State.actSrun_mem e
    · exact State.actSrun_mem e
    · exact State.actSstop_mem e
    · exact State.actSmm_mem e
    · exact State.actSarmg_mem e
    · exact State.actSwload_mem e
    · cases e

@[simp] theorem State.pump_mem (s : State) (k : CtxId) (n : Nat) : (s.pump k n).mem = s.mem := by
  induction n generalizing s with
  | zero => rfl
  | succ n ih =>
    unfold State.pump
    split
    · rfl
    · dsimp only
      split
      · rfl
      · rename_i ht
        obtain ⟨r, _, hr⟩ := List.exists_of_findSome?_eq_some ht
        rw [ih, State.actOne_mem hr]

@[simp] theorem State.pumpAll_mem (s : State) : s.pumpAll.mem = s.mem := by simp [State.pumpAll]

theorem execScfgComplete_memIs (k : CtxId) (h : Nat) (s : State) : (execScfgComplete k h s).MemIs s.mem := by
  unfold execScfgComplete
  split
  · rfl
  · split <;> simp

theorem execSectionQuiescent_memIs (k : CtxId) (h : Nat) (s : State) : (execSectionQuiescent k h s).MemIs s.mem := by
  unfold execSectionQuiescent
  split
  · rfl
  · split
    · rfl
    · split <;> simp

theorem execSectionStopped_memIs (k : CtxId) (h : Nat) (s : State) : (execSectionStopped k h s).MemIs s.mem := by
  unfold execSectionStopped
  dsimp only
  (repeat' split) <;> simp

theorem execPeSwitch_memIs (k : CtxId) (h row col : Nat) (s : State) :
    (execPeSwitch k h row col s).MemIs s.mem := by
  unfold execPeSwitch
  dsimp only
  (repeat' split) <;> simp

theorem execWeightLoadComplete_memIs (tile slot : Nat) (s : State) : (execWeightLoadComplete tile slot s).MemIs s.mem := by
  unfold execWeightLoadComplete
  split
  · rfl
  · split <;> simp

theorem execSmmRetire_memIs (k : CtxId) (h : Nat) (s : State) : (execSmmRetire k h s).MemIs s.mem := by
  unfold execSmmRetire
  dsimp only
  (repeat' split) <;> simp

/-! ### Memory kept: versions -/

@[simp] theorem State.setWslot_mem (s : State) (n i : Nat) (w : WSlot) : (s.setWslot n i w).mem = s.mem := rfl

@[simp] theorem State.retireSlots_mem (s : State) (n : Nat) : (s.retireSlots n).mem = s.mem := by
  simp [State.retireSlots]

@[simp] theorem State.svstageNow_mem (s : State) (part n : Nat) : (s.svstageNow part n).1.mem = s.mem := by
  unfold State.svstageNow
  dsimp only
  (repeat' split) <;> simp

@[simp] theorem State.publish_mem (s : State) (part n i : Nat) : (s.publish part n i).1.mem = s.mem := by
  simp [State.publish]

@[simp] theorem State.versionRec_mem (s : State) (r : Run) (sid : Nat) (a : VAnswer) :
    (s.versionRec r sid a).mem = s.mem := by simp [State.versionRec]

@[simp] theorem State.dropVop_mem (s : State) (o : VOp) : (s.dropVop o).mem = s.mem := rfl

theorem State.raiseOwner_mem {s t : State} {k : CtxId} {seq : Nat} {cause : Cause} {tval : Word}
    (e : s.raiseOwner k seq cause tval = some t) : t.mem = s.mem := by
  unfold State.raiseOwner at e
  split at e
  · cases e
    rfl
  · split at e <;> cases e
    simp

theorem State.raiseEvent_mem {s t : State} {k : CtxId} {cause : Cause} {tval : Word}
    (e : s.raiseEvent k cause tval = some t) : t.mem = s.mem := by
  unfold State.raiseEvent at e
  split at e
  · cases e
    rfl
  · split at e <;> cases e
    simp

theorem State.slotbusyEvent_mem {s t : State} {r : Run} {a : VAnswer} (e : s.slotbusyEvent r a = some t) :
    t.mem = s.mem := by
  unfold State.slotbusyEvent at e
  split at e
  · exact State.raiseOwner_mem e
  · cases e
    rfl

@[simp] theorem State.pumpVersions_mem (s : State) (n fuel : Nat) : (s.pumpVersions n fuel).mem = s.mem := by
  induction fuel generalizing s with
  | zero => rfl
  | succ fuel ih =>
    unfold State.pumpVersions
    split
    · rfl
    · split
      · rfl
      · dsimp only
        split
        · split
          · rename_i ht
            simp [ih, State.slotbusyEvent_mem ht]
          · rfl
        · split
          · simp [ih]
          · rfl

@[simp] theorem State.acceptVersion_mem (s : State) (c : Ctx) (m : Command) :
    (s.acceptVersion c m).mem = s.mem := by
  unfold State.acceptVersion
  split <;> simp

theorem execSpubPublish_memIs (set : Nat) (s : State) : (execSpubPublish set s).MemIs s.mem := by
  unfold execSpubPublish
  dsimp only
  (repeat' split) <;> simp

/-- A fold whose steps keep the memory of a state beside another value keeps it. -/
theorem foldl_pair_mem {β γ : Type} (f : State × γ → β → State × γ) (l : List β) (p : State × γ)
    (h : ∀ q x, (f q x).1.mem = q.1.mem) : (l.foldl f p).1.mem = p.1.mem := by
  induction l generalizing p with
  | nil => rfl
  | cons x r ih => rw [List.foldl_cons, ih, h]

@[simp] theorem State.switchViews_mem (s : State) (p : Nat) (mask : Word) : (s.switchViews p mask).1.mem = s.mem := by
  refine foldl_pair_mem _ _ _ fun q n => ?_
  dsimp only
  split
  · rfl
  · split
    · rfl
    · exact State.retireSlots_mem ..

theorem execVersionSwitch_memIs (p launch n : Nat) (s : State) :
    (execVersionSwitch p launch n s).MemIs s.mem := by
  unfold execVersionSwitch
  dsimp only
  (repeat' split) <;> simp

theorem execSlotFree_memIs (set slot : Nat) (s : State) : (execSlotFree set slot s).MemIs s.mem := by
  unfold execSlotFree
  dsimp only
  (repeat' split) <;> simp

/-! ### Memory kept: translation -/

@[simp] theorem State.noteWalk_mem (s : State) (part va : Nat) : (s.noteWalk part va).mem = s.mem := by
  simp [State.noteWalk]

@[simp] theorem State.fillL2_mem (s : State) (part va : Nat) (e : TEntry) :
    (s.fillL2 part va e).mem = s.mem := rfl

@[simp] theorem State.fillBase_mem (s : State) (tile : Nat) (e : TEntry) : (s.fillBase tile e).mem = s.mem := rfl

@[simp] theorem State.traceSlice_mem (s : State) (part va : Nat) (host : Bool) (result : Nat) :
    (s.traceSlice part va host result).mem = s.mem := by simp [State.traceSlice]

@[simp] theorem State.sliceOver_mem (s : State) (part va : Nat) (host : Bool) (x : Walk) (vs : List (Viewer × Bool)) :
    (s.sliceOver part va host x vs).1.mem = s.mem := by
  unfold State.sliceOver
  dsimp only
  (repeat' split) <;> simp

@[simp] theorem State.sliceWalk_mem (s : State) (part va : Nat) (write : Bool) (vs : List (Viewer × Bool)) :
    (s.sliceWalk part va write vs).1.mem = s.mem := by
  unfold State.sliceWalk
  dsimp only
  (repeat' split) <;> simp

@[simp] theorem State.onRun_mem (s : State) (r : Run) (f : Run → Run) : (s.onRun r f).mem = s.mem := rfl

@[simp] theorem State.onDiverted_mem (s : State) (r : Run) (d : Diverted) (f : Diverted → Diverted) :
    (s.onDiverted r d f).mem = s.mem := rfl

@[simp] theorem State.onEdge_mem (s : State) (c : Ctx) (h i : Nat) (e : EdgeAcc) :
    (s.onEdge c h i e).mem = s.mem := rfl

@[simp] theorem State.setWalk_mem (s : State) (w : Walker) (x : Option WalkState) :
    (s.setWalk w x).mem = s.mem := by
  unfold State.setWalk
  split <;> rfl

@[simp] theorem State.traceWalk_mem (s : State) (w : Walker) (host : Bool) (result : Nat) :
    (s.traceWalk w host result).mem = s.mem := by simp [State.traceWalk]

@[simp] theorem State.fillFor_mem (s : State) (w : Walker) (e : TEntry) : (s.fillFor w e).mem = s.mem := by
  unfold State.fillFor
  dsimp only
  split
  · rfl
  · split <;> rfl

@[simp] theorem State.endWalk_mem (s : State) (w : Walker) (host : Bool) (x : WalkEnd) :
    (s.endWalk w host x).mem = s.mem := by
  unfold State.endWalk
  dsimp only
  split
  · simp
  · simp
  · split
    · split <;> simp
    · simp

theorem execPageWalkComplete_memIs (tile i : Nat) (s : State) : (execPageWalkComplete tile i s).MemIs s.mem := by
  unfold execPageWalkComplete
  dsimp only
  (repeat' split) <;> simp

theorem execWalkAnswer_memIs (req : Nat) (a : WalkAnswer) (s : State) : (execWalkAnswer req a s).MemIs s.mem := by
  have hr := s.takeRequest_mem req
  unfold execWalkAnswer
  split <;> rename_i hq <;> rw [hq] at hr
  · exact hr
  · split
    · exact hr
    · dsimp only
      refine (foldl_mem _ _ _ fun t w => State.endWalk_mem ..).trans hr

@[simp] theorem State.closeEpisodes_mem (s : State) : s.closeEpisodes.mem = s.mem := rfl

@[simp] theorem State.stopDiverted_mem (s : State) (c : Ctx) (r : Run) (d : Diverted) (code : Nat) :
    (s.stopDiverted c r d code).mem = s.mem := by simp [State.stopDiverted]

@[simp] theorem State.rewalk_mem (s : State) (e : Episode) : (s.rewalk e).mem = s.mem := by
  unfold State.rewalk
  dsimp only
  have hw := s.sliceWalk_mem e.part e.base ((s.pageWaiters e).headD (s.partViewer e.part, false)).2 (s.pageWaiters e)
  split <;> rename_i hq <;> rw [hq] at hw
  · exact hw
  · split <;> exact hw

theorem execPeriodicRewalk_memIs (tile i : Nat) (s : State) : (execPeriodicRewalk tile i s).MemIs s.mem := by
  unfold execPeriodicRewalk
  dsimp only
  (repeat' split) <;> simp

@[simp] theorem State.haltPage_mem (s : State) (c : Ctx) : (s.haltPage c).mem = s.mem := by simp [State.haltPage]

@[simp] theorem State.unresolvedPage_mem (s : State) (e : Episode) : (s.unresolvedPage e).mem = s.mem := by
  refine (foldl_mem _ _ _ fun t c => State.haltPage_mem ..).trans (foldl_mem _ _ _ fun t x => ?_)
  dsimp only
  split
  · exact State.stopDiverted_mem ..
  · rfl

theorem execUnresolvable_memIs (tile i : Nat) (s : State) : (execUnresolvable tile i s).MemIs s.mem := by
  unfold execUnresolvable
  dsimp only
  (repeat' split) <;> simp

theorem execFaultAnswer_memIs (req : Nat) (retry : Bool) (s : State) : (execFaultAnswer req retry s).MemIs s.mem := by
  have hr := s.takeRequest_mem req
  unfold execFaultAnswer
  split <;> rename_i hq <;> rw [hq] at hr
  · exact hr
  · split
    · exact hr
    · split
      · exact hr
      · split
        · exact hr
        · exact (State.unresolvedPage_mem ..).trans hr

@[simp] theorem State.dropEntries_mem (s : State) (part lo hi : Nat) :
    (s.dropEntries part lo hi).1.mem = s.mem := rfl

@[simp] theorem State.sysRec_mem (s : State) (r : Run) (st : Status) (fault version bytes : Nat) :
    (s.sysRec r st fault version bytes).mem = s.mem := by simp [State.sysRec]

@[simp] theorem State.acceptCsys_mem (s : State) (c : Ctx) (m : Command) : (s.acceptCsys c m).mem = s.mem := by
  unfold State.acceptCsys
  (repeat' split) <;> simp

theorem execShootdownComplete_memIs (tile i : Nat) (s : State) :
    (execShootdownComplete tile i s).MemIs s.mem := by
  unfold execShootdownComplete
  dsimp only
  split
  · rfl
  · split
    · rfl
    · simp

/-! ### Memory kept: links and packets -/

@[simp] theorem State.arrivalPlace_mem (s : State) (part : Nat) (daddr : Word) : (s.arrivalPlace part daddr).1.mem = s.mem := by
  unfold State.arrivalPlace
  extract_lets va v walked h
  have hw : walked.1.mem = s.mem := by
    have hs := s.sliceWalk_mem part va true [(v, true)]
    simp only [walked]
    split <;> rename_i hq <;> rw [hq] at hs <;> exact hs
  split
  · rfl
  · split
    · split
      · exact hw
      · exact State.onTile_mem ..
    · exact hw

@[simp] theorem State.ingressPoison_mem (s : State) (cause : Nat) : (s.ingressPoison cause).1.mem = s.mem := rfl

theorem State.commitVersion_mem {s : State} {p : Packet} {t : State × AckStatus} (e : s.commitVersion p = some t) :
    t.1.mem = s.mem := by
  unfold State.commitVersion at e
  dsimp only at e
  split at e
  · cases e
  · cases e
    split
    · simp
    · split <;> simp

@[simp] theorem State.setIngress_mem (s : State) (e : Ingress) : (s.setIngress e).mem = s.mem := rfl

@[simp] theorem State.sendAck_mem (s : State) (e : Ingress) (upto : BitVec 32) :
    (s.sendAck e upto).mem = s.mem := by
  unfold State.sendAck
  split <;> rfl

@[simp] theorem State.askArrival_mem (s : State) (p : Packet) : (s.askArrival p).mem = s.mem := by
  unfold State.askArrival
  split <;> simp

@[simp] theorem State.noteRefusal_mem (s : State) (dpkg : Nat) (gsid : BitVec 16) (seq : BitVec 32) :
    (s.noteRefusal dpkg gsid seq).mem = s.mem := rfl

@[simp] theorem State.refuse_mem (s : State) (p : Packet) (why : Nat) : (s.refuse p why).mem = s.mem := by
  simp [State.refuse]

theorem execStreamEntryReclaim_memIs (i : Nat) (s : State) : (execStreamEntryReclaim i s).MemIs s.mem := by
  unfold execStreamEntryReclaim
  dsimp only
  (repeat' split) <;> simp

@[simp] theorem State.reportAck_mem (s : State) (a : Ack) (covered : List OutPkt) :
    (s.reportAck a covered).mem = s.mem := by
  unfold State.reportAck
  dsimp only
  (repeat' split) <;> simp

@[simp] theorem State.takeAck_mem (s : State) (a : Ack) : (s.takeAck a).mem = s.mem := by
  unfold State.takeAck
  split <;> simp

theorem execAckArrival_memIs (a : WireAck) (s : State) : (execAckArrival a s).MemIs s.mem := by
  unfold execAckArrival
  dsimp only
  (repeat' split) <;> simp

@[simp] theorem State.assignPlanes_mem (s : State) : s.assignPlanes.mem = s.mem := rfl

@[simp] theorem State.setOut_mem (s : State) (i : Nat) (o : OutPkt) : (s.setOut i o).mem = s.mem := rfl

@[simp] theorem State.resend_mem (s : State) (i : Nat) (o : OutPkt) : (s.resend i o).mem = s.mem := by
  simp [State.resend]

theorem execRefusedPacketResend_memIs (i : Nat) (s : State) : (execRefusedPacketResend i s).MemIs s.mem := by
  unfold execRefusedPacketResend
  split
  · rfl
  · split
    · split <;> simp
    · rfl

theorem execUnackedPacketResend_memIs (i : Nat) (s : State) : (execUnackedPacketResend i s).MemIs s.mem := by
  unfold execUnackedPacketResend
  split
  · simp
  · split <;> simp

theorem execOrderwin_memIs (i : Nat) (s : State) : (execOrderwin i s).MemIs s.mem := by
  unfold execOrderwin
  split
  · rfl
  · split
    · rfl
    · split
      · rfl
      · rename_i ht
        simp [State.raiseOwner_mem ht]

theorem execPortDown_memIs (port : Nat) (s : State) : (execPortDown port s).MemIs s.mem := by simp [execPortDown]

theorem execPortUp_memIs (port : Nat) (s : State) : (execPortUp port s).MemIs s.mem := by simp [execPortUp]

theorem execPtpSyncMessage_memIs (offset : BitVec 32) (s : State) :
    (execPtpSyncMessage offset s).MemIs s.mem := by simp [execPtpSyncMessage]

theorem execSyncTimeout_memIs (s : State) : (execSyncTimeout s).MemIs s.mem := by
  unfold execSyncTimeout
  split <;> simp

theorem execSlewClk_memIs (n : Nat) (s : State) : (execSlewClk n s).MemIs s.mem := by
  unfold execSlewClk
  split <;> rfl

theorem execTimeSlotStart_memIs (p : Nat) (s : State) : (execTimeSlotStart p s).MemIs s.mem := by
  unfold execTimeSlotStart
  split <;> rfl

@[simp] theorem State.acceptSslot_mem (s : State) (c : Ctx) (m : Command) : (s.acceptSslot c m).mem = s.mem := by
  unfold State.acceptSslot
  split <;> simp

/-! ### Memory kept: collectives -/

@[simp] theorem State.acceptScoll_mem (s : State) (c : Ctx) (m : Command) : (s.acceptScoll c m).mem = s.mem := by
  unfold State.acceptScoll
  dsimp only
  (repeat' split) <;> simp

theorem execCollectiveStartTime_memIs (tile slot : Nat) (s : State) : (execCollectiveStartTime tile slot s).MemIs s.mem := by
  unfold execCollectiveStartTime
  split
  · rfl
  · split
    · split <;> simp
    · rfl

theorem State.takeRbuf_mem {s : State} {c : Ctx} {r : Run} {off : Nat} {t : State × Chunk} (e : s.takeRbuf c r off = some t) :
    t.1.mem = s.mem := by
  unfold State.takeRbuf at e
  split at e
  · dsimp only at e
    split at e
    · cases e
    · cases e
      exact (setFullAll_mem ..).trans (State.noteErrors_mem ..)
  · cases e
  · cases e
    rfl

@[simp] theorem State.sendChunk_mem (s : State) (k : CtxId) (r : Run) (dpkg n off : Nat) (last : Bool) (x : Chunk) :
    (s.sendChunk k r dpkg n off last x).mem = s.mem := by
  unfold State.sendChunk
  split <;> simp

theorem State.inputChunk_mem {s t : State} {c : Ctx} {r q : Run} {v : Line} {o : BitVec 32}
    (e : s.inputChunk c r = .got (t, v, o) q) : t.mem = s.mem := by
  unfold State.inputChunk at e
  dsimp only at e
  repeat' split at e
  all_goals cases e <;> simp

@[simp] theorem State.chunkStep_mem (s : State) (c : Ctx) (r : Run) : (s.chunkStep c r).mem = s.mem := by
  unfold State.chunkStep
  dsimp only
  split
  · rfl
  · split
    · rfl
    · rename_i t y hy
      have ht : t.mem = s.mem := by
        split at hy
        · exact State.takeRbuf_mem hy
        · cases hy
          rfl
      split
      · simp
      · simp
      · rename_i hu
        simp [State.inputChunk_mem hu, ht]

@[simp] theorem State.completeColl_mem (s : State) (c : Ctx) (r : Run) : (s.completeColl c r).mem = s.mem := by
  simp [State.completeColl]

/-! ### Memory kept: the acceptance of commands -/

@[simp] theorem State.acceptScfg_mem (s : State) (c : Ctx) (m : Command) : (s.acceptScfg c m).mem = s.mem := by
  unfold State.acceptScfg
  dsimp only
  (repeat' split) <;> simp

@[simp] theorem State.holdConfig_mem (s : State) (c : Ctx) (m : Command) : (s.holdConfig c m).mem = s.mem := by
  simp [State.holdConfig]

@[simp] theorem State.acceptCmd_mem (s : State) (c : Ctx) (m : Command) : (s.acceptCmd c m).mem = s.mem := by
  unfold State.acceptCmd
  split <;> simp

@[simp] theorem State.noteAccept_mem (s : State) (c : Ctx) (m : Command) : (s.noteAccept c m).mem = s.mem := by
  unfold State.noteAccept
  dsimp only
  split
  · simp
  · cases ({ cmd := m } : Run).imageAddr <;> simp
  · split <;> simp
  · split <;> simp

@[simp] theorem State.acceptAt_mem (s : State) (tile i : Nat) : (s.acceptAt tile i).mem = s.mem := by
  unfold State.acceptAt
  split
  · simp
  · split <;> simp

theorem execCommandQueueAccept_memIs (tile i : Nat) (s : State) :
    (execCommandQueueAccept tile i s).MemIs s.mem := by simp [execCommandQueueAccept]

theorem execStreamAccept_memIs (tile slot : Nat) (s : State) : (execStreamAccept tile slot s).MemIs s.mem := by
  unfold execStreamAccept
  split <;> simp

@[simp] theorem State.settleSlot_mem (s : State) (k : CtxId) (seq : Nat) : (s.settleSlot k seq).mem = s.mem := by
  unfold State.settleSlot
  split
  · rfl
  · split
    · rfl
    · split
      · rfl
      · split <;> simp

@[simp] theorem State.countTurn_mem (s : State) (tile slot : Nat) (r : Run) :
    (s.countTurn tile slot r).mem = s.mem := by
  unfold State.countTurn
  split <;> rfl

theorem execStreamComplete_memIs (tile slot : Nat) (s : State) : (execStreamComplete tile slot s).MemIs s.mem := by
  unfold execStreamComplete
  split
  · rfl
  · split
    · split <;> simp
    · split <;> simp

/-! ### Memory kept: the issue of commands -/

@[simp] theorem State.cissue_mem (s : State) (op : Instr) (f : CF) (u : CUse) :
    (s.cissue op f u).mem = s.mem := by simp [State.cissue]

/-! ### Memory kept: regions -/

@[simp] theorem State.copyPresence_mem (s : State) (src dst n : Nat) :
    (s.copyPresence src dst n).mem = s.mem := rfl

@[simp] theorem State.regionBack_mem (s : State) (v : Saved) (r : Nat × Word) (reg : Nat) :
    (s.regionBack v r reg).mem = s.mem := rfl

theorem foldSome_mem {β : Type} {f : State → β → Option State} (hf : ∀ s x t, f s x = some t → t.mem = s.mem) (l : List β)
    {s t : State} (e : foldSome f s l = some t) : t.mem = s.mem := by
  induction l generalizing s with
  | nil =>
    cases e
    rfl
  | cons x r ih =>
    unfold foldSome at e
    split at e
    · rename_i hx
      exact (ih e).trans (hf _ _ _ hx)
    · cases e

/-! ### Memory kept: launches -/

@[simp] theorem State.noteDisp_mem (s : State) (p : Nat) (a : Word) (n : Nat) :
    (s.noteDisp p a n).mem = s.mem := by simp [State.noteDisp]

@[simp] theorem State.onLaunch_mem (s : State) (id : Nat) (f : Launch → Launch) :
    (s.onLaunch id f).mem = s.mem := rfl

@[simp] theorem State.finishLaunch_mem (s : State) (id : Nat) (st : Status) (fault : BitVec 32) :
    (s.finishLaunch id st fault).mem = s.mem := rfl

@[simp] theorem State.wantPass_mem (s : State) (p : Nat) : (s.wantPass p).mem = s.mem := rfl

@[simp] theorem State.noteIntake_mem (s : State) (p : Nat) (e : Word) (l : Launch) :
    (s.noteIntake p e l).mem = s.mem := by simp [State.noteIntake]

@[simp] theorem State.readLqEntry_mem (s : State) (p q ea : Nat) : (s.readLqEntry p q ea).1.mem = s.mem := by
  unfold State.readLqEntry
  dsimp only
  (repeat' split) <;> simp

@[simp] theorem State.lqReadOver_mem (s : State) (p q : Nat) : (s.lqReadOver p q).mem = s.mem := rfl

@[simp] theorem State.putCtx_mem (s : State) (c : Ctx) : (s.putCtx c).mem = s.mem := by
  unfold State.putCtx
  split <;> rfl

@[simp] theorem State.failPreds_mem (s : State) (p : Nat) : (s.failPreds p).mem = s.mem := by simp [State.failPreds]

@[simp] theorem State.chooseVictims_mem (s : State) (w : Launch) : (s.chooseVictims w).mem = s.mem := by
  unfold State.chooseVictims
  dsimp only
  (repeat' split) <;> simp

theorem execEffectivePriorityRaise_memIs (l : Nat) (s : State) :
    (execEffectivePriorityRaise l s).MemIs s.mem := by
  unfold execEffectivePriorityRaise
  split
  · simp
  · split <;> simp

/-! ### Memory kept: tasks -/

@[simp] theorem State.dropVersionOps_mem (s : State) (k : CtxId) (c : Ctx) :
    (s.dropVersionOps k c).mem = s.mem := rfl

@[simp] theorem State.releaseCtx_mem (s : State) (k : CtxId) : (s.releaseCtx k).mem = s.mem := by
  unfold State.releaseCtx
  split <;> simp

@[simp] theorem State.refuseGang_mem (s : State) (l : Launch) (st : Status) (fault : BitVec 32) :
    (s.refuseGang l st fault).mem = s.mem := by simp [State.refuseGang]

theorem State.setupTask_mem {s t : State} {c : Ctx} {l : Launch} {base : Nat} {image : List Byte} {lanes : NMap Lane}
    (e : s.setupTask c l base image lanes = some t) : t.mem = s.mem := by
  unfold State.setupTask at e
  dsimp only at e
  split at e <;> cases e
  exact State.onCtx_mem ..

@[simp] theorem State.noteImage_mem (s : State) (l : Launch) : (s.noteImage l).mem = s.mem := by simp [State.noteImage]

theorem execTaskStart_memIs (k : CtxId) (s : State) : (execTaskStart k s).MemIs s.mem := by
  unfold execTaskStart
  dsimp only
  (repeat' split) <;> simp

@[simp] theorem State.loadNode_mem (s : State) (c : Ctx) (n : GNode) : (s.loadNode c n).mem = s.mem := by
  simp [State.loadNode]

theorem State.sequence_mem {s t : State} {c : Ctx} {n : GNode} (e : s.sequence c n = some t) : t.mem = s.mem := by
  unfold State.sequence at e
  dsimp only at e
  have ha := s.armBehind_memIs c n n.count c.seq 8
  split at e
  · cases e
  · split at e
    · split at e <;> cases e
      exact State.onCtx_mem ..
    · split at e
      · split at e <;> cases e <;> simp
      · split at e
        · rename_i hm
          rw [hm] at ha
          cases e
          exact (State.onCtx_mem ..).trans ha
        · cases e
        · cases e
        · cases e
          simp

theorem execGraphNodeArm_memIs (k : CtxId) (s : State) : (execGraphNodeArm k s).MemIs s.mem := by
  unfold execGraphNodeArm
  split
  · rfl
  · dsimp only
    split
    · rfl
    · split
      · rename_i ht
        obtain ⟨n, _, hn⟩ := List.exists_of_findSome?_eq_some ht
        simp [State.sequence_mem hn]
      · rfl

@[simp] theorem State.takeAside_mem (s : State) (c : Ctx) (e : AsyncEvent) : (s.takeAside c e).mem = s.mem := by
  simp [State.takeAside]

theorem execHandlerFiringStart_memIs (tile : Nat) (s : State) : (execHandlerFiringStart tile s).MemIs s.mem := by
  unfold execHandlerFiringStart
  dsimp only
  (repeat' split) <;> simp

@[simp] theorem State.enterFiring_mem (s : State) (c : Ctx) (n : GNode) : (s.enterFiring c n).mem = s.mem := by
  simp [State.enterFiring]

theorem execFiringStart_memIs (tile : Nat) (s : State) : (execFiringStart tile s).MemIs s.mem := by
  unfold execFiringStart
  dsimp only
  (repeat' split) <;> simp

@[simp] theorem State.softReport_mem (s : State) (l : Launch) (wave : Nat) :
    (s.softReport l wave).mem = s.mem := by simp [State.softReport]

@[simp] theorem State.waveOver_mem (s : State) (l : Launch) : (s.waveOver l).mem = s.mem := by simp [State.waveOver]

theorem execTaskEnd_memIs (k : CtxId) (s : State) : (execTaskEnd k s).MemIs s.mem := by
  unfold execTaskEnd
  dsimp only
  (repeat' split) <;> simp

theorem execHaltedTaskEnd_memIs (k : CtxId) (s : State) : (execHaltedTaskEnd k s).MemIs s.mem := by
  unfold execHaltedTaskEnd
  dsimp only
  split
  · rfl
  · split <;> simp

theorem execHaltedContextResume_memIs (k : CtxId) (addr : Word) (s : State) :
    (execHaltedContextResume k addr s).MemIs s.mem := by
  unfold execHaltedContextResume
  split
  · simp
  · split <;> simp

/-! ### Memory kept: pre-emption -/

theorem execSoftPreemption_memIs (l : Nat) (s : State) : (execSoftPreemption l s).MemIs s.mem := by
  unfold execSoftPreemption
  split
  · rfl
  · split
    · simp
    · split <;> simp

theorem execHardPreemption_memIs (k : CtxId) (s : State) : (execHardPreemption k s).MemIs s.mem := by
  unfold execHardPreemption
  split
  · simp
  · split <;> simp

@[simp] theorem State.saveCtx_mem (s : State) (c : Ctx) (image : Nat) : (s.saveCtx c image).mem = s.mem := by
  simp [State.saveCtx]

theorem execPreemptionDrainEnd_memIs (k : CtxId) (s : State) : (execPreemptionDrainEnd k s).MemIs s.mem := by
  unfold execPreemptionDrainEnd
  dsimp only
  (repeat' split) <;> simp

theorem recache_mem {tile : Nat} {images live : List Cached} {s : State} {x : Section} {t : State × Section}
    (e : recache tile images live s x = some t) : t.1.mem = s.mem := by
  induction images generalizing live s x with
  | nil =>
    cases e
    rfl
  | cons i r ih =>
    unfold recache at e
    split at e
    · cases e
    · exact (ih e).trans (State.onTile_mem ..)

theorem State.restoreSection_mem {s t : State} {k : CtxId} {x : Section} (e : s.restoreSection k x = some t) :
    t.mem = s.mem := by
  unfold State.restoreSection at e
  extract_lets org images at e
  split at e
  · rename_i u y _ hu
    have hu := recache_mem hu
    cases e
    split
    · split <;> simpa using hu
    · split <;> simpa using hu
  · cases e

/-! ### Memory kept: traps -/

@[simp] theorem State.servePage_mem (s : State) (c : Ctx) (a : Word) (begun aside : Bool) :
    (s.servePage c a begun aside).mem = s.mem := by
  unfold State.servePage
  extract_lets hit write mine known t
  split
  · have ht : t.mem = s.mem := (State.openEpisode_mem ..).trans (State.onCtx_mem ..)
    split
    · exact (State.rewalk_mem ..).trans ht
    · exact ht
  · split
    · rfl
    · have hw := s.sliceWalk_mem c.part a.toNat write [(s.viewerNow c, write)]
      split <;> rename_i hq <;> rw [hq] at hw
      · exact hw
      · split
        · split <;> simpa using hw
        · simpa using hw
        · simpa using hw

@[simp] theorem State.serveAside_mem (s : State) (k : CtxId) : (s.serveAside k).mem = s.mem := by
  unfold State.serveAside
  split
  · rfl
  · split
    · exact State.servePage_mem ..
    · rfl

theorem execTrapEntry_memIs (k : CtxId) (s : State) : (execTrapEntry k s).MemIs s.mem := by
  unfold execTrapEntry
  split
  · rfl
  · (repeat' split) <;> simp

theorem execBudget_memIs (k : CtxId) (s : State) : (execBudget k s).MemIs s.mem := by
  unfold execBudget
  split
  · simp
  · split <;> simp

@[simp] theorem State.extend_mem (s : State) (c : Ctx) (x : Section) (b : Buffer) :
    (s.extend c x b).mem = s.mem := by simp [State.extend]

@[simp] theorem State.deadlock_mem (s : State) (c : Ctx) (x : Section) : (s.deadlock c x).mem = s.mem := by
  unfold State.deadlock
  split
  · rfl
  · rename_i ht
    simp [State.raiseEvent_mem ht]

theorem execRegionSilent_memIs (k : CtxId) (h : Nat) (s : State) : (execRegionSilent k h s).MemIs s.mem := by
  unfold execRegionSilent
  split
  · rfl
  · extract_lets x s1 mark paused put n s2
    have h1 : s1.mem = s.mem := by simp [s1]
    have hp (y : Section) : (put y).mem = s.mem := (onSec_mem ..).trans h1
    split
    · exact h1
    · split
      · exact hp _
      · split
        · exact hp _
        · split
          · exact hp _
          · extract_lets s3
            have h3 : s3.mem = s.mem := by simp [s3, s2, hp]
            split
            · exact hp _
            · split
              · exact (State.deadlock_mem ..).trans h3
              · split
                · exact (onSec_mem ..).trans h3
                · exact (State.extend_mem ..).trans h3

theorem execSpillAnswer_memIs (req : Nat) (buf : Option Nat) (s : State) : (execSpillAnswer req buf s).MemIs s.mem := by
  have hr := s.takeRequest_mem req
  unfold execSpillAnswer
  split <;> rename_i hq <;> rw [hq] at hr
  · exact hr
  · split
    · exact hr
    · dsimp only
      split
      · simpa using hr
      · split
        · split <;> simpa using hr
        · exact (onSec_mem ..).trans hr

theorem execPageallocAnswer_memIs (req py px : Nat) (moves : List (Nat × Nat × Nat)) (s : State) :
    (execPageallocAnswer req py px moves s).MemIs s.mem := by
  have hr := s.takeRequest_mem req
  unfold execPageallocAnswer
  split <;> rename_i hq <;> rw [hq] at hr
  · exact hr
  · split
    · exact hr
    · exact (onSec_mem ..).trans hr

/-! ### Memory kept: the hub's registers -/

@[simp] theorem State.violation_mem (s : State) (part reg : Nat) : (s.violation part reg).mem = s.mem := rfl

@[simp] theorem State.refuseWrite_mem (s : State) (part reg rule : Nat) :
    (s.refuseWrite part reg rule).mem = s.mem := rfl

@[simp] theorem State.releaseDeferred_mem (s : State) (bank : Nat) : (s.releaseDeferred bank).mem = s.mem := by
  simp [State.releaseDeferred]

@[simp] theorem State.setPctl_mem (s : State) (p : Nat) (w : Word) : (s.setPctl p w).mem = s.mem := rfl

@[simp] theorem State.dropPartition_mem (s : State) (p : Nat) : (s.dropPartition p).mem = s.mem := rfl

theorem execPartitionDisable_memIs (pr : Priv) (p : Nat) (s : State) :
    (execPartitionDisable pr p s).MemIs s.mem := by
  unfold execPartitionDisable
  dsimp only
  (repeat' split) <;> simp

theorem execHregWrite_memIs (pr : Priv) (p n : Nat) (v : Word) (s : State) : (execHregWrite pr p n v s).MemIs s.mem := by
  unfold execHregWrite
  dsimp only
  split
  · simp
  · split
    · simp
    · split
      · simp
      · split
        · rfl
        · exact foldl_mem _ _ _ fun t i => rfl

theorem execLqWrite_memIs (pr : Priv) (p n : Nat) (v : Word) (s : State) :
    (execLqWrite pr p n v s).MemIs s.mem := by
  unfold execLqWrite
  dsimp only
  (repeat' split) <;> simp

theorem execWsetWrite_memIs (pr : Priv) (n : Nat) (v : Word) (s : State) :
    (execWsetWrite pr n v s).MemIs s.mem := by
  unfold execWsetWrite
  dsimp only
  (repeat' split) <;> simp

@[simp] theorem State.writePctl_mem (s : State) (p : Nat) (v : Word) : (s.writePctl p v).mem = s.mem := by
  simp [State.writePctl]

@[simp] theorem State.writeProot_mem (s : State) (p : Nat) (v : Word) : (s.writeProot p v).mem = s.mem := by
  simp [State.writeProot]

@[simp] theorem State.writePsave_mem (s : State) (p : Nat) (v : Word) : (s.writePsave p v).mem = s.mem := by
  simp [State.writePsave]

@[simp] theorem State.writeSampcfg_mem (s : State) (tile : Nat) (v : Word) :
    (s.writeSampcfg tile v).mem = s.mem := by simp [State.writeSampcfg]

@[simp] theorem State.writeWctl_mem (s : State) (tile n : Nat) (v : Word) :
    (s.writeWctl tile n v).mem = s.mem := by simp [State.writeWctl]

/-! ### Memory kept: index syllables -/

@[simp] theorem State.xop_mem (s : State) (f : XR) (lat : Nat) (op : Word → Word → Word) :
    (s.xop f lat op).mem = s.mem := by simp [State.xop]

@[simp] theorem State.xnum_mem (s : State) (f : XN) (op : Word → Nat → Word) : (s.xnum f op).mem = s.mem := by
  simp [State.xnum]

@[simp] theorem State.xld_mem (s : State) (f : XLd) (size : Nat) : (s.xld f size).mem = s.mem := by
  refine s.syllable_mem _ _ _ _ _ ?_
  dsimp only
  split <;> rfl

@[simp] theorem State.xbstep_mem (s : State) (f : XBst) (size : Nat) : (s.xbstep f size).mem = s.mem := by
  refine s.syllable_mem _ _ _ _ _ ?_
  dsimp only
  split
  · rfl
  · split
    · rfl
    · split <;> rfl

/-! ### Memory kept: boot and the host's services -/

@[simp] theorem State.bootStep_mem (s : State) : s.bootStep.mem = s.mem := by
  unfold State.bootStep
  split <;> rfl

theorem execStatusQuery_memIs (s : State) : (execStatusQuery s).MemIs s.mem := rfl

theorem execAttestationRequest_memIs (nonce : BitVec 384) (s : State) :
    (execAttestationRequest nonce s).MemIs s.mem := rfl

theorem execBankRemap_memIs (bank : Nat) (owner : Option Nat) (s : State) :
    (execBankRemap bank owner s).MemIs s.mem := by
  unfold execBankRemap
  dsimp only
  (repeat' split) <;> simp

theorem execPatrolScrub_memIs (line : Nat) (s : State) : (execPatrolScrub line s).MemIs s.mem := by
  simp [execPatrolScrub]

@[simp] theorem State.noteHub_mem (s : State) (place : EPlace) (a : HubAccess) :
    (s.noteHub place a).mem = s.mem := by
  unfold State.noteHub
  split <;> simp

@[simp] theorem State.hartReply_mem (s : State) (fault : Bool) (bytes : List Byte) :
    (s.hartReply fault bytes).mem = s.mem := rfl

@[simp] theorem State.deferHub_mem (s : State) (key n : Nat) (peer : Bool) :
    (s.deferHub key n peer).mem = s.mem := rfl

@[simp] theorem State.answerHub_mem (s : State) (i : Nat) : (s.answerHub i).mem = s.mem := by
  unfold State.answerHub
  split <;> simp

@[simp] theorem State.remoteAperture_mem (s : State) (o : Nat) (a : HubAccess) :
    (s.remoteAperture o a).mem = s.mem := by
  unfold State.remoteAperture
  split <;> simp

theorem execCurrentGrant_memIs (s : State) : (execCurrentGrant s).MemIs s.mem := by
  unfold execCurrentGrant
  dsimp only
  (repeat' split) <;> simp

theorem execGrantLowering_memIs (s : State) : (execGrantLowering s).MemIs s.mem := by
  unfold execGrantLowering
  split <;> simp

theorem execPcSample_memIs (tile : Nat) (s : State) : (execPcSample tile s).MemIs s.mem := by
  unfold execPcSample
  dsimp only
  (repeat' split) <;> simp

theorem execTraceRingDrain_memIs (n : Nat) (s : State) : (execTraceRingDrain n s).MemIs s.mem := rfl

/-! ### Memory kept: steps -/

@[simp] theorem State.planned_mem (s : State) : s.planned.mem = s.mem := rfl

end Sys2Proof.Machine
end

section
/-! CANONICAL LAYER of O55, first part: the functions that write memory keep its canonical form. Accesses, records, streams. -/

namespace Sys2Proof.Machine

/-! ## The canonical form in states and outcomes -/

/-- A state whose memory is that of a state in canonical form is in canonical form. -/
theorem State.Canonical.of_mem {s t : State} (w : s.Canonical) (h : t.mem = s.mem) : t.Canonical := by
  unfold State.Canonical
  rw [h]
  exact w

theorem State.Canonical.ite {p : Prop} [Decidable p] {s t : State} (hs : s.Canonical) (ht : t.Canonical) :
    (if p then s else t).Canonical := by
  split
  · exact hs
  · exact ht

/-- The next state of an outcome is in canonical form. -/
def Out.Canonical : Out → Prop
  | .next t => t.Canonical
  | .fault _ | .refused _ => True

theorem Out.MemIs.canonical {r : Out} {s : State} (h : r.MemIs s.mem) (w : s.Canonical) : r.Canonical := by
  cases r with
  | next t => exact w.of_mem h
  | fault x => trivial
  | refused x => trivial

/-- The states that an attempt to move a piece leaves are in canonical form. -/
def Moved.Canonical : Moved → Prop
  | .on t _ | .stop t _ => t.Canonical
  | .wait _ => True

theorem Moved.MemIs.canonical {m : Moved} {s : State} (h : m.MemIs s.mem) (w : s.Canonical) : m.Canonical := by
  cases m with
  | on t q => exact w.of_mem h
  | wait q => trivial
  | stop t q => exact w.of_mem h

theorem foldl_canonical {β : Type} {f : State → β → State} {s : State} (w : s.Canonical)
    (h : ∀ t x, t.Canonical → (f t x).Canonical) (l : List β) : (l.foldl f s).Canonical := by
  induction l generalizing s with
  | nil => exact w
  | cons x r ih => exact ih (h s x w)

theorem foldSome_canonical {β : Type} {f : State → β → Option State} {s t : State} {l : List β} (w : s.Canonical)
    (h : ∀ u x v, u.Canonical → f u x = some v → v.Canonical) (e : foldSome f s l = some t) : t.Canonical := by
  induction l generalizing s with
  | nil =>
    cases e
    exact w
  | cons x r ih =>
    unfold foldSome at e
    split at e
    · rename_i hx
      exact ih (h _ _ _ w hx) e
    · cases e

theorem andThen_canonical {r : Out} {f : State → Out} (hr : r.Canonical) (hf : ∀ t, t.Canonical → (f t).Canonical) :
    (andThen r f).Canonical := by
  cases r with
  | next t => exact hf t hr
  | fault x => trivial
  | refused x => trivial

/-! ## Accesses of the control core -/

theorem State.writeMasked_canonical {s : State} (w : s.Canonical) (key : Nat) (data mask : Line) (size : Nat) :
    (s.writeMasked key data mask size).Canonical := by
  refine foldl_canonical w (fun t i ht => ?_) _
  split
  · exact setByte_wf _ _ _ ht
  · exact ht

theorem State.performStore_canonical {s : State} (w : s.Canonical) (k : CtxId) (c : Ctx) (a : CoreAcc) (data mask : Line)
    (full : Bool) : (s.performStore k c a data mask full).Canonical := by
  unfold State.performStore
  split
  · rename_i key kind _
    split
    · exact w.of_mem (by simp)
    · have hw := State.writeMasked_canonical w key data mask a.size
      dsimp only
      split <;> exact hw.of_mem (by simp)
  · exact w.of_mem (by simp)

theorem execBankAccessPerformed_canonical {s : State} (w : s.Canonical) (k : CtxId) (i : Nat) :
    (execBankAccessPerformed k i s).Canonical := by
  unfold execBankAccessPerformed
  split
  · exact w
  · split
    · exact w
    · rename_i c a _ _
      generalize a.kind = kind
      cases kind with
      | store data mask full => exact State.performStore_canonical w ..
      | empty => exact w.of_mem (State.performEmpty_mem ..)
      | atomic op size dst b x => exact w
      | _ =>
        refine Out.MemIs.canonical (s := s) ?_ w
        dsimp only
        split
        · exact State.serveRead_mem ..
        · rfl

theorem execAtomicPerformed_canonical {s : State} (w : s.Canonical) (k : CtxId) (i : Nat) :
    (execAtomicPerformed k i s).Canonical := by
  unfold execAtomicPerformed
  split
  · exact w
  · split
    · split
      · exact w
      · split
        · rename_i key kind _
          extract_lets old cause s1 s2 s3 s4
          split
          · exact w.of_mem (by simp [s1])
          · have h2 : s2.Canonical := w.of_mem (by simp [s2, s1])
            have h3 : s3.Canonical := writeValue_wf s2 _ _ _ h2
            have h4 : s4.Canonical := h3.of_mem (State.onCtx_mem ..)
            split
            · exact h4.of_mem (by simp)
            · exact h4
        · exact w.of_mem (by simp)
    · exact w

/-- What acts for a pre-empted context keeps the canonical form, if it does so for a context. -/
theorem State.withSaved_canonical {s : State} (w : s.Canonical) (i : Nat) {f : CtxId → State → State}
    (hf : ∀ k t, t.Canonical → (f k t).Canonical) : (s.withSaved i f).Canonical := by
  unfold State.withSaved
  split
  · exact w
  · dsimp only
    split
    · exact w
    · exact hf _ _ w

theorem State.parkedAccess_canonical {s : State} (w : s.Canonical) (i j : Nat) : (s.parkedAccess i j).Canonical := by
  refine State.withSaved_canonical w i fun k t ht => ?_
  split
  · exact ht
  · rename_i c a _
    extract_lets sync reads
    split
    · exact ht
    · have hr : (if a.kind.isAtomic then execAtomicPerformed k j t
          else execBankAccessPerformed k j (t.leavePort k j)).Canonical := by
        split
        · exact execAtomicPerformed_canonical ht ..
        · exact execBankAccessPerformed_canonical (ht.of_mem (by simp)) ..
      split
      · rename_i hu
        rw [hu] at hr
        exact hr
      · exact ht

theorem State.performHeld_canonical {s : State} (w : s.Canonical) (k : CtxId) : (s.performHeld k).Canonical := by
  unfold State.performHeld
  split
  · exact w
  · refine foldl_canonical w (fun t a ht => ?_) _
    split
    · split
      · exact State.performStore_canonical ht ..
      · exact ht
    · exact ht

theorem State.decideBundle_canonical {s : State} (w : s.Canonical) (k : CtxId) (c : Ctx) (u : Undecided) :
    (s.decideBundle k c u).Canonical := by
  unfold State.decideBundle
  dsimp only
  split
  · exact w.of_mem (by simp)
  · refine State.Canonical.of_mem (State.performHeld_canonical (s := State.commit _ k _ _ _ _) ?_ k) (State.onCtx_mem ..)
    exact w.of_mem (by simp)

theorem execBankReply_canonical {s : State} (w : s.Canonical) (k : CtxId) (i : Nat) : (execBankReply k i s).Canonical := by
  unfold execBankReply
  split
  · exact w
  · split
    · exact w
    · split
      · split
        · exact w
        · dsimp only
          split
          · exact State.decideBundle_canonical (w.of_mem (by simp)) ..
          · exact w.of_mem (by simp)
      · exact w

/-! ## Writes of the engines -/

theorem State.writePlace_canonical {s t : State} (w : s.Canonical) {p : EPlace} {bs : List Byte}
    {who : Option (CtxId × Nat)} (e : s.writePlace p bs who = .done t) : t.Canonical := by
  unfold State.writePlace at e
  split at e
  case h_7 key kind =>
    have hs : (s.storeBytes key bs who).Canonical := storeBytes_wf _ _ _ _ w
    dsimp only at e
    split at e
    · cases e
    · split at e
      · cases e
      · cases e
        split
        · exact hs
        · exact hs.of_mem (by simp)
  all_goals cases e

theorem State.opPlace_canonical {s t : State} (w : s.Canonical) {p : EPlace} {op : BankOp} {size b : Nat}
    (e : s.opPlace p op size b = .done t) : t.Canonical := by
  unfold State.opPlace at e
  split at e
  case h_1 key kind =>
    split at e
    · cases e
    · split at e
      · cases e
      · split at e
        · cases e
        · have hn : (s.noteErrors (codeKeys key size)).Canonical := w.of_mem (by simp)
          cases e
          split
          · refine State.Canonical.of_mem ?_ (State.fillWords_mem ..)
            exact storeBytes_wf _ key _ none hn
          · exact storeBytes_wf _ key _ none hn
  all_goals cases e

theorem execRecordWrite_canonical {s : State} (w : s.Canonical) (k : CtxId) (q : Nat) : (execRecordWrite k q s).Canonical := by
  unfold execRecordWrite
  split
  · exact w
  · extract_lets z t a
    split
    · exact w
    · split
      · split
        · exact w
        · exact w.of_mem (by simp [t])
      · extract_lets written
        have hwr (t : State) (ht : t.Canonical) : (written t).Canonical := by
          refine ht.of_mem ?_
          simp only [written]
          split <;> simp
        split
        · rename_i hd
          exact hwr _ (State.writePlace_canonical w hd)
        · exact w
        · split
          · exact w
          · exact hwr _ w
        · exact hwr _ w

/-! ## Streams -/

/-- An access that asks for a walk gives no value but the poison of the walk. -/
theorem walkPoison_askWalk_got {α : Type} {s : State} {c d : Ctx} {r q : Run} {a : Word} {write : Bool} {f : BitVec 32 → α}
    {x : α} (e : walkPoison c (s.askWalk d r a write) f = .got x q) : ∃ o, x = f o := by
  unfold walkPoison at e
  split at e
  · split at e <;> cases e
    exact ⟨_, rfl⟩
  · unfold State.askWalk at e
    repeat' split at e
    all_goals cases e

theorem State.runWriteAligned_canonical {s t : State} (w : s.Canonical) {c : Ctx} {r q : Run} {sp : Nat} {raw : Word}
    {size : Nat} {bs : List Byte} {o : BitVec 32} (e : s.runWriteAligned c r sp raw size bs = .got (t, o) q) : t.Canonical := by
  unfold State.runWriteAligned at e
  split at e
  · cases e
  · split at e
    · cases e
    · split at e
      · cases e
      · split at e
        · cases e
        · split at e
          · cases e
          · split at e
            · rename_i hd
              cases e
              exact (State.writePlace_canonical w hd).of_mem (by simp)
            · cases e
            · cases e
            · obtain ⟨_, hx⟩ := walkPoison_askWalk_got e
              cases hx
              exact w
            · cases e
              exact w
            · cases e

theorem State.writeOr_canonical {s : State} (w : s.Canonical) (c : Ctx) (r : Run) (n sp : Nat) (raw : Word) (bs : List Byte) :
    (s.writeOr c r n sp raw bs).1.Canonical := by
  unfold State.writeOr
  split
  · rename_i hg
    exact State.runWriteAligned_canonical w hg
  · exact w
  · split
    · exact w.of_mem (by simp)
    · split
      · exact w
      · exact w.of_mem (by simp)

theorem State.writeScale_canonical {s : State} (w : s.Canonical) (c : Ctx) (r : Run) (n : Nat) :
    (s.writeScale c r n).1.Canonical := by
  unfold State.writeScale
  split
  · exact State.writeOr_canonical w ..
  · exact w

theorem State.writeBoth_canonical {s : State} (w : s.Canonical) (c : Ctx) (r : Run) (n : Nat) (raw : Word) (stamp : BitVec 32) :
    (s.writeBoth c r n raw stamp).1.Canonical := by
  unfold State.writeBoth
  extract_lets scale
  have hscale (t : State) (q : Run) (ht : t.Canonical) : (scale t q).1.Canonical := by
    have hs := State.writeScale_canonical ht c q n
    simp only [scale]
    split
    · rename_i h
      rw [h] at hs
      exact hs
    · exact hs
  split
  · exact hscale s r w
  · split
    · rename_i t o q hg
      have ht := State.runWriteAligned_canonical w hg
      dsimp only
      have hs (q : Run) := State.writeScale_canonical ht c q n
      split
      · rename_i h
        have := hs (if r.scaled ∧ n % r.blkUnits = 0 then if o = 0 then q else q.poisonBy o
          else (if o = 0 then q else q.poisonBy o).fresh)
        rw [h] at this
        exact this
      · exact w.of_mem (by simp)
    · exact w
    · have ho := State.writeOr_canonical w c r n r.sp raw (toBytes r.usize (r.stored n stamp))
      split <;> rename_i h <;> rw [h] at ho
      · exact ho
      · exact hscale _ _ ho

theorem State.writeUnit_canonical {s : State} (w : s.Canonical) (c : Ctx) (r : Run) (n : Nat) (stamp : BitVec 32) :
    (s.writeUnit c r n stamp).1.Canonical := by
  unfold State.writeUnit
  split
  · exact w
  · split
    · exact w.of_mem (by simp)
    · split <;> exact w
  · split
    · exact w
    · split
      · exact w
      · exact State.writeBoth_canonical (w.of_mem (by simp)) ..

theorem State.writeUnits_canonical {s : State} (w : s.Canonical) (c : Ctx) (r : Run) (stamp : BitVec 32) (line : Option Word)
    (fuel : Nat) : (s.writeUnits c r stamp line fuel).1.Canonical := by
  induction fuel generalizing s c r line with
  | zero => exact w
  | succ fuel ih =>
    unfold State.writeUnits
    split
    · exact w
    · dsimp only
      split
      · exact w
      · have hu := State.writeUnit_canonical w c r r.pos stamp
        split <;> rename_i h <;> rw [h] at hu
        · exact hu
        · exact ih hu ..

theorem State.turnWrite_canonical {s : State} (w : s.Canonical) (c : Ctx) (r : Run) : (s.turnWrite c r).Canonical := by
  unfold State.turnWrite
  split
  · exact w
  · split
    · exact w.of_mem (by simp)
    · split
      · exact w
      · split
        · split
          · exact w
          · exact (State.writeUnits_canonical w c r 0 none 64).of_mem (by simp)
        · rename_i st _
          exact (State.writeUnits_canonical w c r st none 64).of_mem (by simp)

theorem State.remoteScales_canonical {s : State} (w : s.Canonical) (c : Ctx) (r : Run) (l : List Nat) :
    (s.remoteScales c r l).1.Canonical := by
  induction l generalizing s r with
  | nil => exact w
  | cons n rest ih =>
    unfold State.remoteScales
    split
    · exact ih w r
    · have hs := State.writeScale_canonical w c r n
      split
      · rename_i h
        rw [h] at hs
        exact ih hs _
      · exact hs

theorem State.turnRemote_canonical {s : State} (w : s.Canonical) (c : Ctx) (r : Run) : (s.turnRemote c r).Canonical := by
  unfold State.turnRemote
  extract_lets lane isA m
  split
  · exact w
  · split
    · exact w.of_mem (by simp)
    · refine w.ite ?_
      split
      · exact w.of_mem (by simp)
      · exact w
      · split
        · exact w.of_mem (by simp)
        · split
          · exact w.of_mem (by simp)
          · split
            · exact w
            · have hs := State.remoteScales_canonical w c r ((List.range m).map (r.pos + ·))
              split <;> rename_i h <;> rw [h] at hs
              · split <;> exact hs.of_mem (by simp)
              · dsimp only
                split <;> exact hs.of_mem (by simp)

theorem State.streamTurn_canonical {s : State} (w : s.Canonical) (c : Ctx) (r : Run) : (s.streamTurn c r).Canonical := by
  unfold State.streamTurn
  split
  case h_6 | h_7 | h_8 => exact State.turnWrite_canonical w ..
  case h_9 | h_10 => exact State.turnRemote_canonical w ..
  all_goals exact w.of_mem (by simp)

theorem execCircuitEntryMove_canonical {s : State} (w : s.Canonical) (tile slot : Nat) :
    (execCircuitEntryMove tile slot s).Canonical := by
  unfold execCircuitEntryMove
  split
  · exact w
  · split
    · split
      · exact w
      · split
        · exact w.of_mem (by simp)
        · exact State.turnWrite_canonical w ..
    · exact w

end Sys2Proof.Machine
end

section
/-! CANONICAL LAYER of O55, second part: gathers, copies, edge accesses, packets, collectives. -/

namespace Sys2Proof.Machine

/-! ## Gathers, copies, edge accesses, diverted elements -/

theorem State.deliverElem_canonical {s : State} (w : s.Canonical) (c : Ctx) (r : Run) (e : GElem) :
    (s.deliverElem c r e).Canonical := by
  unfold State.deliverElem
  dsimp only
  split
  · split
    · exact w.of_mem (by simp)
    · exact w.of_mem (by simp)
    · rename_i hg
      exact State.Canonical.of_mem (State.runWriteAligned_canonical w hg) (State.putRun_mem ..)
  · exact w.of_mem (by simp)

theorem State.applyElem_canonical {s : State} (w : s.Canonical) (c : Ctx) (r : Run) (e : GElem) :
    (s.applyElem c r e).Canonical := by
  unfold State.applyElem
  extract_lets next
  split
  · exact w.of_mem (by simp)
  · split
    · split
      · exact w.of_mem (by simp)
      · exact w.of_mem (by simp)
      · rename_i hg
        exact State.Canonical.of_mem (State.runWriteAligned_canonical w hg) (State.putRun_mem ..)
    · split
      · exact w.of_mem (by simp)
      · split
        · exact w.of_mem (by simp)
        · split
          · rename_i hd
            exact State.Canonical.of_mem (State.opPlace_canonical w hd) (State.putRun_mem ..)
          all_goals exact w.of_mem (by simp)

theorem State.gatherTurn_canonical {s : State} (w : s.Canonical) (c : Ctx) (r : Run) : (s.gatherTurn c r).Canonical := by
  unfold State.gatherTurn
  refine State.Canonical.ite (w.of_mem (by simp)) (State.Canonical.ite w ?_)
  split
  · exact w.of_mem (by simp)
  · exact w.of_mem (by simp)
  · split <;> exact w.of_mem (by simp)
  · split
    · exact State.applyElem_canonical w ..
    · exact State.deliverElem_canonical w ..
  · exact w

theorem State.writeBitmap_canonical {s : State} (w : s.Canonical) (c : Ctx) (r : Run) : (s.writeBitmap c r).1.Canonical := by
  unfold State.writeBitmap
  dsimp only
  split
  · exact w
  · refine foldl_canonical w (fun t i ht => ?_) _
    split
    · rename_i hd
      exact State.writePlace_canonical ht hd
    · exact ht

theorem execGatherBatchEnd_canonical {s : State} (w : s.Canonical) (tile slot : Nat) :
    (execGatherBatchEnd tile slot s).Canonical := by
  unfold execGatherBatchEnd
  split
  · exact w
  · rename_i c r _
    split
    · exact w
    · have hb := State.writeBitmap_canonical w c r
      generalize s.writeBitmap c r = b at hb ⊢
      exact hb.of_mem (by simp)

theorem State.pieceOut_canonical {s : State} (w : s.Canonical) (c : Ctx) (r : Run) (p : Nat) (bs : List Byte) :
    (s.pieceOut c r p bs).Canonical := by
  unfold State.pieceOut
  split
  · trivial
  · exact (s.copyFault_memIs ..).canonical w
  · rename_i t o q hg
    unfold State.copyWrite at hg
    dsimp only at hg
    split at hg
    · cases hg
    · exact State.Canonical.of_mem (State.runWriteAligned_canonical w hg) (State.keepDst_mem ..)

theorem State.movePiece_canonical {s : State} (w : s.Canonical) (c : Ctx) (r : Run) (p n : Nat) :
    (s.movePiece c r p n).Canonical := by
  unfold State.movePiece
  split
  · trivial
  · exact (s.copyFault_memIs ..).canonical w
  · dsimp only
    split
    · exact w.of_mem (State.keepSrc_mem ..)
    · exact State.pieceOut_canonical (w.of_mem (State.keepSrc_mem ..)) ..

theorem State.moveLine_canonical {s : State} (w : s.Canonical) (c : Ctx) (r : Run) (fuel : Nat) :
    (s.moveLine c r fuel).1.Canonical := by
  induction fuel generalizing s c r with
  | zero => exact w
  | succ fuel ih =>
    unfold State.moveLine
    split
    · exact w
    · dsimp only
      have hm := State.movePiece_canonical w c r r.pos (r.piece r.pos)
      split <;> rename_i h <;> rw [h] at hm
      · exact w
      · exact hm
      · split
        · exact hm
        · exact ih hm ..

theorem Out.Canonical.ite {p : Prop} [Decidable p] {a b : Out} (ha : a.Canonical) (hb : b.Canonical) :
    (if p then a else b).Canonical := by
  split
  · exact ha
  · exact hb

theorem execCopyTransfer_canonical {s : State} (w : s.Canonical) (engine i : Nat) :
    (execCopyTransfer engine i s).Canonical := by
  unfold execCopyTransfer
  split
  · exact w
  · rename_i c r _
    have hm : (if (r.startChain c).remoteCopy then s.moveRemote c (r.startChain c)
        else s.moveLine c (r.startChain c) 64).1.Canonical := by
      split
      · exact w.of_mem (State.moveRemote_mem ..)
      · exact State.moveLine_canonical w ..
    refine Out.Canonical.ite (w.of_mem (State.completeCopy_mem ..)) (Out.Canonical.ite w ?_)
    dsimp only
    generalize (if (r.startChain c).remoteCopy then s.moveRemote c (r.startChain c)
      else s.moveLine c (r.startChain c) 64) = m at hm ⊢
    exact hm.of_mem (by simp)

theorem State.edgeTry_canonical {s t : State} (w : s.Canonical) {c : Ctx} {x : Section} {a : EdgeAcc} {out : List Token}
    (e : s.edgeTry c x a = .done t out) : t.Canonical := by
  unfold State.edgeTry at e
  split at e
  · cases e
  · extract_lets ea v tlb used bad outs poisonWalk p at e
    have hused (u : State) (hu : u.Canonical) : (used u).Canonical := by
      exact State.Canonical.ite (hu.of_mem (State.useL1_mem ..)) hu
    split at e
    · cases e
    · split at e
      · split at e
        · simp only [poisonWalk] at e
          split at e <;> cases e
          exact w
        · cases e
      · cases e
      · split at e
        · split at e <;> cases e
          · exact hused _ (w.of_mem (by simp))
          · exact w.of_mem (by simp)
        · split at e
          · split at e <;> cases e
            · rename_i hd
              exact hused _ (State.writePlace_canonical w hd)
            · exact w
          · split at e <;> cases e
            · rename_i hd
              exact State.opPlace_canonical w hd
            · exact w.of_mem (by simp)

theorem execEdgeElementReply_canonical {s : State} (w : s.Canonical) (k : CtxId) (h i : Nat) :
    (execEdgeElementReply k h i s).Canonical := by
  unfold execEdgeElementReply
  split
  · exact w
  · split
    · exact w
    · split
      · exact w
      · split
        · split
          · exact w
          · exact w.of_mem (by simp)
        · split
          · rename_i hd
            have ht := State.edgeTry_canonical w hd
            dsimp only
            split <;> exact ht.of_mem (by simp)
          · exact w.of_mem (by simp)
          · exact w.of_mem (by simp)
          · exact w.of_mem (by simp)
          · exact w.of_mem (by simp)
          · exact w

theorem State.parkedEdge_canonical {s : State} (w : s.Canonical) (i j : Nat) : (s.parkedEdge i j).Canonical := by
  refine State.withSaved_canonical w i fun k t ht => ?_
  split
  · exact ht
  · rename_i h n _
    split
    · exact ht
    · split
      · exact ht
      · have hr := execEdgeElementReply_canonical ht k h n
        split
        · rename_i hu
          rw [hu] at hr
          exact hr
        · exact ht

theorem execEdgeFaultFreeze_canonical {s : State} (w : s.Canonical) (k : CtxId) (h i : Nat) :
    (execEdgeFaultFreeze k h i s).Canonical := by
  unfold execEdgeFaultFreeze
  split
  · exact w
  · split
    · exact w
    · split
      · exact w
      · split
        · split
          · exact w.of_mem (by simp)
          · exact w
        · split
          · dsimp only
            split <;> exact w.of_mem (by simp)
          · exact w

theorem Served.ofMoved_canonical {m : Moved} (w : m.Canonical) {t : State} {q : Run} (e : Served.ofMoved m = .done t q) :
    t.Canonical := by
  cases m with
  | on u r =>
    cases e
    exact w
  | wait r => cases e
  | stop u r => cases e

theorem State.serveIndex_canonical {s t : State} (w : s.Canonical) {c : Ctx} {r q : Run} {d : Diverted}
    (e : s.serveIndex c r d = .done t q) : t.Canonical := by
  unfold State.serveIndex at e
  dsimp only at e
  split at e
  · cases e
  · cases e
  · split at e
    · cases e
      exact w
    · split at e
      · cases e
      · split at e <;> cases e
        rename_i hg
        exact State.runWriteAligned_canonical w hg

theorem State.serveCopy_canonical {s t : State} (w : s.Canonical) {c : Ctx} {r q : Run} {d : Diverted}
    (e : s.serveCopy c r d = .done t q) : t.Canonical := by
  unfold State.serveCopy at e
  split at e
  · exact Served.ofMoved_canonical (State.pieceOut_canonical w ..) e
  · split at e
    · cases e
    · cases e
    · split at e
      · dsimp only at e
        split at e
        · cases e
        · split at e
          · cases e
            exact w
          · split at e <;> cases e
            exact w.of_mem (by simp)
      · split at e
        · cases e
          exact w
        · exact Served.ofMoved_canonical (State.pieceOut_canonical w ..) e

theorem State.serve_canonical {s t : State} (w : s.Canonical) {c : Ctx} {r q : Run} {d : Diverted}
    (e : s.serve c r d = .done t q) : t.Canonical := by
  unfold State.serve at e
  extract_lets r0 at e
  split at e
  · exact State.serveIndex_canonical w e
  · split at e
    · exact State.serveCopy_canonical w e
    · split at e
      · split at e
        · rename_i hd
          injection e with ht
          subst ht
          exact (State.writePlace_canonical w hd).of_mem (State.useTlb_mem ..)
        · injection e with ht
          subst ht
          exact w
        · cases e
        · cases e
        · split at e <;> cases e
          exact w
        · cases e
      · split at e
        · dsimp only at e
          split at e <;> cases e
          exact w.of_mem (by simp)
        · split at e <;> cases e
          exact w.of_mem (by simp)

theorem execDivertedElementServed_canonical {s : State} (w : s.Canonical) (tile i : Nat) :
    (execDivertedElementServed tile i s).Canonical := by
  unfold execDivertedElementServed
  split
  · exact w
  · split
    · exact w
    · split
      · rename_i hd
        exact (State.serve_canonical w hd).of_mem (by simp)
      · dsimp only
        split <;> exact w.of_mem (by simp)
      · exact w.of_mem (by simp)

/-! ## Packets and collectives -/

theorem committed_canonical {s : State} (w : s.Canonical) {x : WResult} (hx : ∀ t, x = .done t → t.Canonical)
    {seq : BitVec 32} {t : State × AckStatus} (e : committed s x seq = some t) : t.1.Canonical := by
  unfold committed at e
  split at e
  · cases e
    exact hx _ rfl
  · cases e
  · cases e
  · cases e
  · cases e
    exact w.of_mem (by simp)
  · split at e <;> cases e
    · exact w.of_mem (by simp)
    · exact w

theorem State.commitWrite'_canonical {s : State} (w : s.Canonical) {p : Packet} {t : State × AckStatus}
    (e : s.commitWrite' p = some t) : t.1.Canonical := by
  have ha : (s.arrivalPlace (p.gsid.toNat / 4096) p.daddr).1.Canonical := w.of_mem (State.arrivalPlace_mem ..)
  exact committed_canonical ha (fun u hu => State.writePlace_canonical ha hu) e

theorem State.commitOps_canonical {s : State} (w : s.Canonical) {p : Packet} {size n i : Nat} {a : AckStatus}
    {t : State × AckStatus} (e : s.commitOps p size n a i = some t) : t.1.Canonical := by
  induction n generalizing s a i with
  | zero =>
    cases e
    exact w
  | succ n ih =>
    have ha : (s.arrivalPlace (p.gsid.toNat / 4096) (p.daddr + BitVec.ofNat 64 (i * size))).1.Canonical :=
      w.of_mem (State.arrivalPlace_mem ..)
    unfold State.commitOps at e
    dsimp only at e
    split at e
    · cases e
    · rename_i hc
      exact ih (committed_canonical (ha.of_mem (State.noteOp_mem ..)) (fun u hu => State.opPlace_canonical ha hu) hc) e

theorem State.commitColl_canonical {s : State} (w : s.Canonical) {p : Packet} {t : State × AckStatus}
    (e : s.commitColl p = some t) : t.1.Canonical := by
  have ha : (s.arrivalPlace (p.gsid.toNat / 4096) p.daddr).1.Canonical := w.of_mem (State.arrivalPlace_mem ..)
  unfold State.commitColl at e
  dsimp only at e
  split at e
  · rename_i hd _
    cases e
    have ht := State.writePlace_canonical ha hd
    exact ht
  · exact committed_canonical ha (fun u hu => State.writePlace_canonical ha hu) e

theorem State.commitPacket_canonical {s : State} (w : s.Canonical) {p : Packet} {t : State × AckStatus}
    (e : s.commitPacket p = some t) : t.1.Canonical := by
  unfold State.commitPacket at e
  split at e
  · split at e
    · cases e
      exact w
    · exact State.commitWrite'_canonical w e
  · exact State.commitOps_canonical w e
  · exact w.of_mem (State.commitVersion_mem e)
  · exact State.commitColl_canonical w e
  · cases e

theorem State.commitHeld_canonical {s : State} (w : s.Canonical) (src : Nat) (gsid : BitVec 16) (fuel : Nat) :
    (s.commitHeld src gsid fuel).Canonical := by
  induction fuel generalizing s with
  | zero => exact w
  | succ fuel ih =>
    unfold State.commitHeld
    split
    · exact w
    · split
      · exact w
      · split
        · exact w.of_mem (by simp)
        · rename_i hc
          refine ih (State.Canonical.of_mem (State.commitPacket_canonical w hc) ?_)
          simp

theorem State.arrive_canonical {s : State} (w : s.Canonical) (p : Packet) : (s.arrive p).Canonical := by
  unfold State.arrive
  extract_lets hub s1 found
  have h1 : s1.Canonical := w
  clear_value s1 found
  split
  · exact h1.of_mem (State.refuse_mem ..)
  · split
    · split
      · exact h1.of_mem (State.refuse_mem ..)
      · refine State.commitHeld_canonical ?_ ..
        exact h1
    · dsimp only
      split
      · exact State.commitHeld_canonical (h1.of_mem (State.setIngress_mem ..)) ..
      · split
        · exact State.commitHeld_canonical (h1.of_mem (State.setIngress_mem ..)) ..
        · split
          · split
            · exact h1
            · split
              · exact h1.of_mem (State.setIngress_mem ..)
              · exact h1.of_mem (State.refuse_mem ..)
          · exact h1.of_mem (State.sendAck_mem ..)

theorem execPacketArrival_canonical {s : State} (w : s.Canonical) (x : Wire) : (execPacketArrival x s).Canonical := by
  unfold execPacketArrival
  split
  · exact (execAckArrival_memIs ..).canonical w
  · exact State.arrive_canonical w _

theorem execAckTimer_canonical {s : State} (w : s.Canonical) (i : Nat) : (execAckTimer i s).Canonical := by
  unfold execAckTimer
  split
  · exact w
  · rename_i e _
    have hc := State.commitHeld_canonical w e.src e.gsid 65537
    dsimp only
    split
    · exact hc
    · split
      · exact hc.of_mem (by simp)
      · exact hc

theorem State.writeChunk_canonical {s : State} (w : s.Canonical) (c : Ctx) (r : Run) (n : Nat) (v : Line) (i fuel : Nat) :
    (s.writeChunk c r n v i fuel).1.Canonical := by
  induction fuel generalizing s c r i with
  | zero => exact w
  | succ fuel ih =>
    unfold State.writeChunk
    extract_lets size off a sp piece k
    split
    · exact w
    · split
      · exact w
      · exact w.of_mem (by simp)
      · rename_i hg
        exact ih (State.runWriteAligned_canonical w hg) ..

theorem State.deliverChunk_canonical {s : State} (w : s.Canonical) (c : Ctx) (r : Run) (x : Line × Bool × BitVec 32) :
    (s.deliverChunk c r x).Canonical := by
  unfold State.deliverChunk
  extract_lets n done
  have hdone (t : State) (q : Run) (ht : t.Canonical) : (done t q).Canonical := ht.of_mem (State.putRun_mem ..)
  split
  · exact hdone _ _ w
  · split
    · split
      · exact w
      · rename_i hp
        exact hdone _ _ (w.of_mem (State.pushAll_mem hp))
    · split
      · exact hdone _ _ w
      · have hc := State.writeChunk_canonical w c r n x.1 0 128
        split
        · rename_i h
          rw [h] at hc
          exact hdone _ _ hc
        · exact w.of_mem (by simp)

theorem execCollectiveChunk_canonical {s : State} (w : s.Canonical) (tile slot : Nat) :
    (execCollectiveChunk tile slot s).Canonical := by
  unfold execCollectiveChunk
  split
  · exact w
  · split
    · extract_lets whole ready clear
      clear_value ready
      split
      · exact w
      · split
        · split
          · exact State.deliverChunk_canonical w ..
          · exact w
        · split
          · exact w
          · split
            · exact w.of_mem (by simp)
            · split
              · exact w
              · split
                · exact w
                · rename_i hb
                  exact (w.of_mem (State.takeRbuf_mem hb)).of_mem (by simp)
    · exact w

theorem execStreamServiceTurn_canonical {s : State} (w : s.Canonical) (tile slot : Nat) :
    (execStreamServiceTurn tile slot s).Canonical := by
  unfold execStreamServiceTurn
  split
  · exact w
  · rename_i c r _
    have ht : (if r.wload then s.loadTurn c r else s.streamTurn c r).Canonical :=
      State.Canonical.ite (w.of_mem (State.loadTurn_mem ..)) (State.streamTurn_canonical w ..)
    refine Out.Canonical.ite w (Out.Canonical.ite ?_ (Out.Canonical.ite w ?_))
    · exact State.Canonical.of_mem (State.gatherTurn_canonical w c r) (State.settleSlot_mem ..)
    · exact ht.of_mem ((State.countTurn_mem ..).trans (State.settleSlot_mem ..))

end Sys2Proof.Machine
end

section
/-! CANONICAL LAYER of O55, third part: regions, the dispatcher, tasks, the hub. -/

namespace Sys2Proof.Machine

/-! ## Regions and the images of saved contexts -/

theorem State.giveStorage_canonical {s : State} (w : s.Canonical) (tile part off n : Nat) :
    (s.giveStorage tile part off n).Canonical := by
  unfold State.giveStorage
  extract_lets pages owners foreign key t
  have ht : t.Canonical := w.of_mem (emptyRange_mem ..)
  have hd : (t.draw 2).2.Canonical := ht.of_mem (State.draw_mem ..)
  exact State.Canonical.of_mem (State.Canonical.ite (zeroRange_wf _ _ _ hd) hd) (State.onTile_mem ..)

theorem State.giveRegion_canonical {s : State} (w : s.Canonical) (tile num part log2 kind off : Nat) :
    (s.giveRegion tile num part log2 kind off).Canonical :=
  State.Canonical.of_mem (State.giveStorage_canonical w tile part off (2 ^ log2)) (State.onTile_mem ..)

theorem State.claimRegion_canonical {s : State} (w : s.Canonical) (tile : Nat) (r : Parked) :
    (s.claimRegion tile r).Canonical := by
  unfold State.claimRegion
  split
  rename_i off n _
  extract_lets num key
  split
  · exact w.of_mem (State.onTile_mem ..)
  · rename_i v _
    extract_lets dst t u claimed final
    have ht : t.Canonical := w.of_mem (State.trc_mem ..)
    have hu : u.Canonical :=
      State.Canonical.of_mem (State.Canonical.ite ht (copyRange_wf t key dst n ht)) (State.copyPresence_mem ..)
    have hf : final.Canonical := hu.of_mem (State.onTile_mem ..)
    exact hf

theorem State.restoreRegion_canonical {s t : State} (w : s.Canonical) {v : Saved} {r : Nat × Word}
    (e : s.restoreRegion v r = some t) : t.Canonical := by
  unfold State.restoreRegion at e
  dsimp only at e
  obtain ⟨_, e⟩ := Option.ite_none_left_eq_some.mp e
  split at e
  · cases e
    exact w.of_mem (by simp)
  · obtain ⟨_, e⟩ := Option.ite_none_left_eq_some.mp e
    cases e
    refine State.Canonical.of_mem ?_ ((State.regionBack_mem ..).trans ((emptyRange_mem ..).trans (State.copyPresence_mem ..)))
    have hc (l : List Parked) : (l.foldl (fun u q => u.claimRegion v.ctx.id.tile q) s).Canonical :=
      foldl_canonical w (fun u q hu => State.claimRegion_canonical hu v.ctx.id.tile q) l
    have hg (l : List Parked) (fs : List TField) (p off n : Nat) := State.giveStorage_canonical
      ((hc l).of_mem (State.trc_mem _ 8 5 v.ctx fs)) v.ctx.id.tile p off n
    exact State.Canonical.ite (zeroRange_wf _ _ _ (hg ..)) (copyRange_wf _ _ _ _ (hg ..))

/-! ## The dispatcher -/

theorem State.hallStore_canonical {s : State} (w : s.Canonical) (p a : Nat) (bs : List Byte) :
    (s.hallStore p a bs).Canonical := by
  unfold State.hallStore
  split
  · rename_i hd
    exact State.writePlace_canonical w hd
  · exact w.of_mem (State.traceOnce_mem ..)
  · exact w

theorem State.setDstate_canonical {s : State} (w : s.Canonical) (l : Launch) (state : Nat) (st : Status) :
    (s.setDstate l state st).Canonical := State.hallStore_canonical w ..

theorem State.takeLaunch_canonical {s t : State} (w : s.Canonical) {p q : Nat} {a : Word}
    (e : s.takeLaunch p q a = some t) : t.Canonical := by
  unfold State.takeLaunch at e
  extract_lets l0 u add broken at e
  have hu : u.Canonical := State.setDstate_canonical w ..
  have hadd (l : Launch) (st : Status) (f : BitVec 32) : (add l st f).Canonical := hu.of_mem (State.trcPkg_mem ..)
  have hbroken (l : Launch) (st : Status) : (broken l st).Canonical := (hadd _ st 0).of_mem (State.hubFault_mem ..)
  clear_value add broken
  split at e
  · cases e
  · cases e
    exact hbroken ..
  · cases e
    exact hbroken ..
  · dsimp only at e
    split at e
    · cases e
    · cases e
      exact hbroken ..
    · obtain ⟨x, _, rfl⟩ := Option.map_eq_some_iff.mp e
      exact hadd ..

theorem State.takeLqEntry_canonical {s : State} (w : s.Canonical) (p ea at_ head : Nat) :
    (s.takeLqEntry p ea at_ head).Canonical := by
  unfold State.takeLqEntry
  refine State.hallStore_canonical ?_ ..
  split
  · exact w.of_mem rfl
  · exact w

theorem execLaunchIntake_canonical {s : State} (w : s.Canonical) (p q : Nat) : (execLaunchIntake p q s).Canonical := by
  unfold execLaunchIntake
  refine Out.Canonical.ite w ?_
  split
  · exact w
  · rename_i ea at_ head _
    have hr : (s.readLqEntry p q ea).1.Canonical := w.of_mem (State.readLqEntry_mem ..)
    split <;> rename_i hq <;> rw [hq] at hr
    · exact hr
    · exact hr
    · exact hr
    · exact hr
    · rename_i t x _ _ _ _
      refine Out.Canonical.ite hr ?_
      extract_lets u
      have hu : u.Canonical := State.takeLqEntry_canonical (hr.of_mem (by simp)) ..
      clear_value u
      split
      · extract_lets e
        refine Out.Canonical.ite hu (Out.Canonical.ite hr ?_)
        split
        · rename_i v ht
          have hv := State.takeLaunch_canonical hu ht
          refine State.Canonical.of_mem ?_ (State.wantPass_mem ..)
          cases v.hub.launches.getLast? with
          | none => exact hv
          | some l => exact hv.of_mem (State.noteIntake_mem ..)
        · exact hr
      · exact hu

theorem State.layOut_canonical {s : State} (w : s.Canonical) (k : CtxId) (l : Launch) : (s.layOut k l).Canonical := by
  unfold State.layOut
  split
  · exact w
  · refine State.Canonical.of_mem ?_ (State.onCtx_mem ..)
    refine foldl_canonical (foldl_canonical w (fun t r ht => State.claimRegion_canonical ht k.tile r) _) ?_ _
    exact fun t r ht => State.giveRegion_canonical ht ..

theorem State.placeGang_canonical {s : State} (w : s.Canonical) (l : Launch) (ks : List CtxId) :
    (s.placeGang l ks).Canonical := by
  unfold State.placeGang
  extract_lets s1 s2 s3
  have h1 : s1.Canonical := w.of_mem (State.trcPkg_mem ..)
  have h2 : s2.Canonical := foldl_canonical h1 (fun t x ht =>
    State.layOut_canonical (State.Canonical.of_mem (s := { t with stamp := t.stamp + 1 }) ht (State.putCtx_mem ..)) ..) _
  have h3 : s3.Canonical := State.Canonical.ite (State.setDstate_canonical h2 ..) h2
  exact h3.of_mem (State.onLaunch_mem ..)

/-- What a step that may fail leaves, or else the state itself. -/
theorem foldSome_getD_canonical {β : Type} {f : State → β → Option State} {s : State} (w : s.Canonical)
    (h : ∀ u x v, u.Canonical → f u x = some v → v.Canonical) (l : List β) : ((foldSome f s l).getD s).Canonical := by
  cases e : foldSome f s l with
  | none => exact w
  | some t => exact foldSome_canonical w h e

theorem State.recallGang_canonical {s : State} (w : s.Canonical) (l : Launch) (ks : List CtxId) :
    (s.recallGang l ks).Canonical := by
  unfold State.recallGang
  extract_lets s1 s2
  have h1 : s1.Canonical := w.of_mem (State.trcPkg_mem ..)
  refine State.Canonical.of_mem (s := s2) ?_ (State.onLaunch_mem ..)
  exact foldl_canonical h1 (fun t v ht => foldSome_getD_canonical (ht.of_mem (State.putCtx_mem ..))
    (fun _ _ _ hu e => State.restoreRegion_canonical hu e) _) _

theorem State.tryLaunch_canonical {s : State} (w : s.Canonical) (l : Launch) : (s.tryLaunch l).1.Canonical := by
  unfold State.tryLaunch
  split
  · exact w.of_mem (State.chooseVictims_mem ..)
  · split
    · exact State.recallGang_canonical w ..
    · split
      · split
        · exact w
        · exact w.of_mem (by simp)
      · split
        · exact w
        · exact State.placeGang_canonical w ..

theorem State.passOver_canonical {s : State} (w : s.Canonical) (held : Option Nat) (ls : List Launch) :
    (s.passOver held ls).Canonical := by
  induction ls generalizing s held with
  | nil => exact w
  | cons l rest ih =>
    unfold State.passOver
    split
    · exact ih w held
    · exact ih (State.tryLaunch_canonical w l) _

theorem execDispatcherPass_canonical {s : State} (w : s.Canonical) (p : Nat) : (execDispatcherPass p s).Canonical := by
  refine State.passOver_canonical (State.Canonical.of_mem w ?_) ..
  simp

theorem State.completeLaunch_canonical {s : State} (w : s.Canonical) (x : Launch) : (s.completeLaunch x).Canonical :=
  State.Canonical.of_mem (State.setDstate_canonical w x 3 x.status) (by simp [State.completeLaunch])

theorem State.recordLaunch_canonical {s : State} (w : s.Canonical) (x : Launch) : (s.recordLaunch x).Canonical := by
  unfold State.recordLaunch
  extract_lets ends
  have hends (t : State) (ht : t.Canonical) : (ends t).Canonical := ht
  clear_value ends
  refine w.ite ?_
  split
  · exact w
  · exact hends _ (w.of_mem (State.noteDisp_mem ..))
  · have hn : (s.noteDisp x.part x.lcq 16).Canonical := w.of_mem (State.noteDisp_mem ..)
    exact State.Canonical.ite hn (hends _ (State.hallStore_canonical hn ..))

theorem execLaunchEnd_canonical {s : State} (w : s.Canonical) (l : Nat) : (execLaunchEnd l s).Canonical := by
  unfold execLaunchEnd
  split
  · exact w
  · rename_i x _
    refine Out.Canonical.ite (State.recordLaunch_canonical w x) (Out.Canonical.ite w ?_)
    have hc := State.completeLaunch_canonical w x
    dsimp only
    split
    · exact State.recordLaunch_canonical hc _
    · exact hc

theorem execDispatchAnswer_canonical {s : State} (w : s.Canonical) (req : Nat) (tiles : Option (List Nat)) :
    (execDispatchAnswer req tiles s).Canonical := by
  have hr : (s.takeRequest req).2.Canonical := w.of_mem (State.takeRequest_mem ..)
  unfold execDispatchAnswer
  split <;> rename_i hq <;> rw [hq] at hr
  · exact hr
  · split
    · exact hr
    · rename_i l _
      have hl (f : Launch → Launch) := hr.of_mem (State.onLaunch_mem _ l.id f)
      refine Out.Canonical.ite (hl _) ?_
      split
      · exact State.placeGang_canonical (hl _) ..
      · exact hl _

/-! ## Tasks placed, saved and restored -/

theorem State.writeImage_canonical {s : State} (w : s.Canonical) (key : Nat) (sync : Bool) (bs : List Byte) :
    (s.writeImage key sync bs).Canonical := by
  have hb : (s.writeBytes key bs).Canonical := writeBytes_wf s key bs w
  exact State.Canonical.ite (hb.of_mem (State.fillWords_mem ..)) hb

theorem execTaskPlacement_canonical {s : State} (w : s.Canonical) (k : CtxId) : (execTaskPlacement k s).Canonical := by
  unfold execTaskPlacement
  split
  · exact w
  · split
    · exact w
    · refine Out.Canonical.ite w ?_
      split
      · exact w
      · exact w.of_mem (by simp)
      · rename_i image lanes _
        extract_lets s1 s2
        have h1 : s1.Canonical := w.of_mem (by simp [s1])
        have h2 : s2.Canonical := State.writeImage_canonical h1 ..
        split
        · exact h2.of_mem (State.refuseGang_mem ..)
        · split
          · exact h2.of_mem (State.refuseGang_mem ..)
          · rename_i ht
            exact h2.of_mem (State.setupTask_mem ht)

theorem execSaveAnswer_canonical {s : State} (w : s.Canonical) (req image : Nat) (claim : List Nat) :
    (execSaveAnswer req image claim s).Canonical := by
  have hr : (s.takeRequest req).2.Canonical := w.of_mem (State.takeRequest_mem ..)
  unfold execSaveAnswer
  split <;> rename_i hq <;> rw [hq] at hr
  · exact hr
  · split
    · exact hr
    · rename_i c _
      refine Out.Canonical.ite (hr.of_mem (State.onCtx_mem ..)) ?_
      exact foldl_canonical (hr.of_mem (State.saveCtx_mem ..)) (fun t r ht => State.claimRegion_canonical ht c.id.tile r) _

theorem State.rebuild_canonical {s t : State} (w : s.Canonical) {hold : Ctx} {v : Saved} (e : s.rebuild hold v = some t) :
    t.Canonical := by
  unfold State.rebuild at e
  dsimp only at e
  split at e
  · cases e
  · split at e
    · cases e
    · split at e
      · cases e
      · rename_i u hu
        have hu : u.Canonical := by
          refine foldSome_canonical w (fun a x b ha hx => ?_) hu
          split at hx
          · cases hx
            exact ha
          · exact State.restoreRegion_canonical ha hx
        split at e
        · cases e
        · rename_i hx
          cases e
          have hm := foldSome_mem (fun a x b hb => State.restoreSection_mem hb) _ hx
          exact hu.of_mem (by simp [hm])

theorem execContextRestore_canonical {s : State} (w : s.Canonical) (k : CtxId) : (execContextRestore k s).Canonical := by
  unfold execContextRestore
  split
  · exact w
  · split
    · exact w
    · refine Out.Canonical.ite w ?_
      split
      · rename_i hr
        exact State.rebuild_canonical w hr
      · split
        · exact w.of_mem (State.startMove_mem ..)
        · exact w

/-! ## Banks, keys, resets and the host's accesses -/

theorem State.openShutter_canonical {s : State} (w : s.Canonical) (bank : Nat) : (s.openShutter bank).Canonical := by
  unfold State.openShutter
  split
  · exact w
  · refine State.Canonical.of_mem ?_ (State.trcPkg_mem ..)
    refine State.Canonical.of_mem ?_ (emptyRange_mem ..)
    exact zeroRange_wf _ _ _ (w.of_mem (State.releaseDeferred_mem ..))

theorem State.endRemaps_canonical {s : State} (w : s.Canonical) (p : Nat) : (s.endRemaps p).Canonical :=
  foldl_canonical w (fun _ b ht => State.openShutter_canonical ht b) _

theorem execPartitionEnable_canonical {s : State} (w : s.Canonical) (pr : Priv) (p : Nat) :
    (execPartitionEnable pr p s).Canonical := by
  refine Out.Canonical.ite (w.of_mem rfl) (Out.Canonical.ite w (Out.Canonical.ite (w.of_mem ?_)
    (Out.Canonical.ite (w.of_mem ?_) ?_)))
  · exact State.refuseWrite_mem ..
  · exact State.refuseWrite_mem ..
  · exact State.Canonical.of_mem (State.endRemaps_canonical w p) (State.setPctl_mem ..)

theorem State.rekeyFrom_canonical (old : State) {s : State} (w : s.Canonical) (g : Nat) : (old.rekeyFrom s g).Canonical :=
  State.Canonical.ite w (foldl_canonical w (fun _ _ ht => writeBytes_wf _ _ _ ht) _)

theorem State.scramble_canonical {s : State} (w : s.Canonical) (g : Nat) : (s.scramble g).Canonical :=
  foldl_canonical w (fun _ _ ht => setByte_wf _ _ _ ht) _

theorem execKownWrite_canonical {s : State} (w : s.Canonical) (pr : Priv) (n : Nat) (v : Word) :
    (execKownWrite pr n v s).Canonical := by
  refine Out.Canonical.ite (w.of_mem rfl) (Out.Canonical.ite (w.of_mem rfl) (Out.Canonical.ite (w.of_mem ?_) ?_))
  · exact State.refuseWrite_mem ..
  · refine foldl_canonical ?_ (fun _ g ht => State.scramble_canonical ht g) _
    exact w

theorem execKeyLoad_canonical {s : State} (w : s.Canonical) (n : Nat) (blob : List Byte) :
    (execKeyLoad n blob s).Canonical := by
  unfold execKeyLoad
  split
  · exact w
  · refine foldl_canonical ?_ (fun _ g ht => State.rekeyFrom_canonical s ht g) _
    exact w

theorem State.writeHubReg_canonical {s : State} (w : s.Canonical) (r : HubReg) (v : Word) : (s.writeHubReg r v).Canonical := by
  cases r with
  | keymap g =>
    refine State.rekeyFrom_canonical s ?_ g
    exact w
  | _ => exact w.of_mem (by simp [State.writeHubReg])

theorem execHubRegisterWrite_canonical {s : State} (w : s.Canonical) (pr : Priv) (r : HubReg) (v : Word) :
    (execHubRegisterWrite pr r v s).Canonical :=
  Out.Canonical.ite (State.writeHubReg_canonical w r v) (w.of_mem rfl)

/-- A state with no byte in its memory is in canonical form. -/
theorem State.canonical_of_mem_nil {s : State} (h : s.mem = []) : s.Canonical := by
  unfold State.Canonical
  rw [h]
  rfl

theorem State.boot_canonical (s : State) (r : BootRun) : (s.boot r).Canonical := State.canonical_of_mem_nil rfl

theorem execFirmwareUpload_canonical {s : State} (w : s.Canonical) (image : List Byte) (r : BootRun) :
    (execFirmwareUpload image r s).Canonical := Out.Canonical.ite (State.boot_canonical _ r) w

theorem execLinkRetryFailure_canonical {s : State} (w : s.Canonical) (link : Nat) : (execLinkRetryFailure link s).Canonical :=
  Out.Canonical.ite w (State.canonical_of_mem_nil rfl)

theorem State.hubAtomic_canonical {s t : State} (w : s.Canonical) {key : Nat} {kind : RKind} {op size : Nat} {v : Word}
    {bytes : List Byte} (e : s.hubAtomic key kind op size v = .done t bytes) : t.Canonical := by
  unfold State.hubAtomic at e
  split at e <;> cases e
  rename_i hd
  exact State.opPlace_canonical w hd

theorem State.hubRead_canonical {s t : State} (w : s.Canonical) {key : Nat} {kind : RKind} {n : Nat} {bytes : List Byte}
    (e : s.hubRead key kind n = .done t bytes) : t.Canonical := by
  unfold State.hubRead at e
  repeat' split at e
  all_goals cases e
  exact w.of_mem (State.noteErrors_mem ..)

theorem State.hubAccess_canonical {s t : State} (w : s.Canonical) {place : EPlace} {a : HubAccess} {bytes : List Byte}
    (e : s.hubAccess place a = .done t bytes) : t.Canonical := by
  unfold State.hubAccess at e
  split at e
  · cases e
  · split at e
    · exact State.hubRead_canonical w e
    · cases e
  · split at e
    · cases e
    · split at e <;> cases e
      rename_i hd
      exact State.writePlace_canonical w hd
  · split at e
    · cases e
    · exact State.hubAtomic_canonical w e
  · cases e

theorem execApertureAccess_canonical {s : State} (w : s.Canonical) (addr : Nat) (a : HubAccess) :
    (execApertureAccess addr a s).Canonical := by
  refine Out.Canonical.ite (w.of_mem (State.remoteAperture_mem ..)) ?_
  split
  · rename_i hd
    exact (State.hubAccess_canonical w hd).of_mem (State.hartReply_mem ..)
  · exact w.of_mem (State.deferHub_mem ..)
  · exact w
  · exact w.of_mem (by simp)

theorem execPeerReadRequest_canonical {s : State} (w : s.Canonical) (p : Nat) (addr : Word) (a : HubAccess) :
    (execPeerReadRequest p addr a s).Canonical := by
  unfold execPeerReadRequest
  split
  · exact w
  · split
    · rename_i hd
      have ht := State.hubAccess_canonical w hd
      exact ht
    · exact w.of_mem (State.deferHub_mem ..)
    · exact w
    · exact w.of_mem (State.noteHub_mem ..)

end Sys2Proof.Machine
end

section
/-! O55: from the instructions and events to the step. -/

namespace Sys2Proof.Machine

/-! ## The next bundle -/

theorem State.fetch_memIs (s : State) : s.fetch.MemIs s.mem := by
  unfold State.fetch
  extract_lets c held sync t pc trap
  have ht : t.mem = s.mem := by
    change (match s.c.syncf with
      | some (_, i, cf) => if held.contains .syncf then s else s.syncDone i cf
      | none => s).mem = s.mem
    split <;> simp
  have htrap (u : State) (x : Trap) (hu : u.mem = s.mem) : (trap u x).MemIs s.mem := by
    dsimp only [trap]
    clear_value held
    split
    · exact (State.decideTrap_mem ..).trans hu
    · exact hu
  clear_value t trap
  split
  · exact htrap _ _ ht
  · have hb := (t.fetchBytes_mem (tileKey c.id.tile (wordField pc 0 23))).trans ht
    dsimp only
    split
    · exact htrap _ _ hb
    · split
      · exact htrap _ _ hb
      · exact hb

theorem State.lookAhead_memIs (s : State) (u : Undecided) : (s.lookAhead u).MemIs s.mem := by
  unfold State.lookAhead
  extract_lets c t0 t none_
  have ht : t.mem = s.mem := by simp [t, t0]
  have hf := t.fetch_memIs
  split
  · rfl
  · split
    · rename_i he
      rw [he] at hf
      exact ⟨rfl, hf.trans ht⟩
    · rfl
    · rfl

theorem State.prepare_memIs (s : State) : s.prepare.MemIs s.mem := by
  unfold State.prepare
  extract_lets c
  split
  · split
    · split
      · exact s.lookAhead_memIs _
      · rfl
    · rfl
  · split
    · split
      · exact State.takeTrap_mem ..
      · rfl
    · split
      · exact State.takeBudget_mem ..
      · split
        · split
          · exact s.enter_mem ▸ s.enter.fetch_memIs
          · rfl
        · exact s.fetch_memIs

theorem chooseAfter_memIs (k : CtxId) (fired : Bool) (s : State) : (chooseAfter k fired s).MemIs s.mem := by
  unfold chooseAfter
  split
  · have hh := execHandlerFiringStart_memIs k.tile s
    unfold andThen
    split
    · rename_i t ht
      rw [ht] at hh
      exact hh ▸ execFiringStart_memIs k.tile t
    · trivial
    · trivial
  · rfl

/-! ## Every act -/

/-- Every instruction and every event keeps the canonical form. -/
theorem exec_canonical {s : State} (w : s.Canonical) (i : Instr) : Out.Canonical (exec i s) := by
  cases i with
  | sNop _ | xNop | vNop | cNop | tNop =>
    exact w
  | add _ | sub _ | and _ | or _ | xor _ | andn _ | min _ | max _ | minu _ | maxu _ | shl _ | shr _ | sar _ | ror _
  | mul _ | mulh _ | mulhu _ | div _ | divu _ | rem _ | remu _ =>
    exact w.of_mem (State.alu_mem ..)
  | clz _ | ctz _ | popc _ =>
    exact w.of_mem (State.alu1_mem ..)
  | addi _ | andi _ | ori _ | xori _ =>
    exact w.of_mem (State.aluImm_mem ..)
  | shli _ | shri _ | sari _ =>
    exact w.of_mem (State.aluShift_mem ..)
  | movi _ | movhi _ | cmp _ | br _ | brl _ | bri _ | loop _ | brtop _ | exit _ | trap _ | tret _ | sleep _ | waitg _
  | waitgL _ | joinm _ | mfs _ | mts _ | xaddi _ | xlea _ | xcmp _ | cadv _ | xpopc _ | xctz _ | xmovs _ | xtos _
  | xclamp _ | konst _ =>
    exact w.of_mem (State.syllable_mem _ _ _ _ _ _ (by simp))
  | cmpiCond03 _ | cmpiCond47 _ =>
    exact w.of_mem (State.cmpi_mem ..)
  | plogAnd _ | plogOr _ | plogXor _ | plogAndn _ | plogNot _ | plogMov _ | plogSet _ | plogClr _ =>
    exact w.of_mem (State.plog_mem ..)
  | ldb _ | ldbu _ | ldh _ | ldhu _ | ldw _ | ldwu _ | ldd _ | lds _ | ldp _ =>
    exact w.of_mem (State.load_mem ..)
  | stb _ | sth _ | stw _ | std _ | stf _ =>
    exact w.of_mem (State.store_mem ..)
  | empty _ => exact (execEmpty_memIs ..).canonical w
  | aadd _ | amin _ | amax _ | aand _ | aor _ | axor _ | aswap _ | afadd _ =>
    exact w.of_mem (State.atomicR_mem ..)
  | atas _ | acas _ =>
    exact w.of_mem (State.atomic_mem ..)
  | syncfC _ | syncfI _ | syncfCi _ =>
    exact w.of_mem (State.sync_mem ..)
  | xadd _ | xsub _ | xand _ | xmul _ | xmin _ | xmax _ | xwrap _ =>
    exact w.of_mem (State.xop_mem ..)
  | xshl _ | xshr _ | xbitSet _ | xbitClr _ | xbitFlip _ | xbitExt _ =>
    exact w.of_mem (State.xnum_mem ..)
  | xbstepW _ | xbstepD _ =>
    exact w.of_mem (State.xbstep_mem ..)
  | xldW _ | xldD _ =>
    exact w.of_mem (State.xld_mem ..)
  | vadd _ | vsub _ | vmul _ =>
    exact w.of_mem (State.vf2_mem ..)
  | vfma _ | vfms _ | vfnma _ =>
    exact w.of_mem (State.vf3_mem ..)
  | vmin _ | vmax _ | vcpys _ =>
    exact w.of_mem (State.vbits2_mem ..)
  | vabs _ | vneg _ | vclass _ | vpopc _ | vmov _ =>
    exact w.of_mem (State.vbits1_mem ..)
  | vrcp _ | vrsq _ | vsqrt _ | vexp2 _ | vlog2 _ =>
    exact w.of_mem (State.vf1_mem ..)
  | vcmpf _ | vicmp _ =>
    exact w.of_mem (State.vcompare_mem ..)
  | viadd _ | visub _ | vimul _ | vimulh _ | vand _ | vor _ | vxor _ | vshl _ | vshr _ | vsar _ | vimin _ | vimax _ =>
    exact w.of_mem (State.vint_mem ..)
  | vsel _ | vbcast _ | vextr _ | vins _ | vperm _ | vshuf _ | vcvt _ | vpackb _ | vunpkb _ | vdot8 _ | vred _ | vscan _
  | vget _ | mnot _ =>
    exact w.of_mem (State.vsyl_mem _ _ _ _ _ (by simp))
  | vld _ | vlds _ =>
    exact w.of_mem (State.vload_mem ..)
  | vst _ | vstf _ =>
    exact w.of_mem (State.vstore_mem ..)
  | vput _ => exact (execVput_memIs ..).canonical w
  | mand _ | mor _ | mxor _ =>
    exact w.of_mem (State.mop_mem ..)
  | mpopc _ | mfirst _ =>
    exact w.of_mem (State.mscalar_mem ..)
  | saff _ | saffw _ | sind _ | sindw _ | srec _ | sconst _ | sfill _ | smcast _ | sremw _ | srema _ | scirc _ | scopy _
  | scopyc _ | sarm _ | sdisarm _ | spost _ | gath _ | scat _ | greplay _ | sbar _ | smark _ | sord _ | scfg _ | srunGo _
  | srunBack _ | sstop _ | swload _ | smm _ | sarmg _ | spub _ | svsw _ | svstage _ | scoll _ | sslot _ | csysShootdown _
  | csysReplay _ | csysPantry _ =>
    exact w.of_mem (State.cissue_mem ..)
  | move _ | join _ | fork _ | steer _ | selp _ | acc _ | ctr _ | turn _ | edld _ | edst _ | edatm _ | src _ | sink _
  | cnt _ | mergeArr _ | mergeAlt _ | drop _ | peElementwiseA _ | peElementwiseM _ | peDotStep _ =>
    exact w.of_mem (State.onMicro_mem ..)
  | registerWriteLands _ _ => exact (execRegisterWriteLands_memIs ..).canonical w
  | interlockedValueLands _ _ => exact (execInterlockedValueLands_memIs ..).canonical w
  | bankReply _ _ => exact execBankReply_canonical w ..
  | trapEntry _ => exact (execTrapEntry_memIs ..).canonical w
  | handlerFiringStart _ => exact (execHandlerFiringStart_memIs ..).canonical w
  | haltedContextResume _ _ => exact (execHaltedContextResume_memIs ..).canonical w
  | haltedTaskEnd _ => exact (execHaltedTaskEnd_memIs ..).canonical w
  | firingStart _ => exact (execFiringStart_memIs ..).canonical w
  | budget _ => exact (execBudget_memIs ..).canonical w
  | pcSample _ => exact (execPcSample_memIs ..).canonical w
  | bankAccessPerformed _ _ => exact execBankAccessPerformed_canonical w ..
  | atomicPerformed _ _ => exact execAtomicPerformed_canonical w ..
  | deferredReadAnswered _ _ => exact (execDeferredReadAnswered_memIs ..).canonical w
  | deferredReadEntry _ _ => exact (execDeferredReadEntry_memIs ..).canonical w
  | bankRemap _ _ => exact (execBankRemap_memIs ..).canonical w
  | bankShutterOpen _ => exact State.openShutter_canonical w ..
  | patrolScrub _ => exact (execPatrolScrub_memIs ..).canonical w
  | commandQueueAccept _ _ => exact (execCommandQueueAccept_memIs ..).canonical w
  | streamAccept _ _ => exact (execStreamAccept_memIs ..).canonical w
  | doorBinding _ _ => exact (execDoorBinding_memIs ..).canonical w
  | streamServiceTurn _ _ => exact execStreamServiceTurn_canonical w ..
  | streamComplete _ _ => exact (execStreamComplete_memIs ..).canonical w
  | recordWrite _ _ => exact execRecordWrite_canonical w ..
  | ringHeadReread _ _ => exact (execRingHeadReread_memIs ..).canonical w
  | copyAccept _ => exact (execCopyAccept_memIs ..).canonical w
  | copyTransfer _ _ => exact execCopyTransfer_canonical w ..
  | circuitEntryMove _ _ => exact execCircuitEntryMove_canonical w ..
  | templateFiring _ _ => exact (execTemplateFiring_memIs ..).canonical w
  | postPlaced _ _ => exact (execPostPlaced_memIs ..).canonical w
  | creditGrant _ _ _ => exact (execCreditGrant_memIs ..).canonical w
  | gatherBatchEnd _ _ => exact execGatherBatchEnd_canonical w ..
  | sordAccept _ _ => exact (execSordAccept_memIs ..).canonical w
  | orderTokenOpen _ _ => exact (execOrderTokenOpen_memIs ..).canonical w
  | markerReachesHead _ _ => exact (execMarkerReachesHead_memIs ..).canonical w
  | sbarSatisfied _ _ => exact (execSbarSatisfied_memIs ..).canonical w
  | graphNodeArm _ => exact (execGraphNodeArm_memIs ..).canonical w
  | scfgComplete _ _ => exact (execScfgComplete_memIs ..).canonical w
  | pageMove _ _ _ _ => exact (execPageMove_memIs ..).canonical w
  | peFiring _ _ _ _ => exact (execPeFiring_memIs ..).canonical w
  | loopBufferFill _ _ _ _ => exact (execLoopBufferFill_memIs ..).canonical w
  | edgeElementReply _ _ _ => exact execEdgeElementReply_canonical w ..
  | edgeFaultFreeze _ _ _ => exact execEdgeFaultFreeze_canonical w ..
  | sectionQuiescent _ _ => exact (execSectionQuiescent_memIs ..).canonical w
  | sectionStopped _ _ => exact (execSectionStopped_memIs ..).canonical w
  | peSwitch _ _ _ _ => exact (execPeSwitch_memIs ..).canonical w
  | regionSilent _ _ => exact (execRegionSilent_memIs ..).canonical w
  | weightLoadComplete _ _ => exact (execWeightLoadComplete_memIs ..).canonical w
  | rowAdmission _ _ => exact (execRowAdmission_memIs ..).canonical w
  | outputEntryPush _ _ _ => exact (execOutputEntryPush_memIs ..).canonical w
  | smmRetire _ _ => exact (execSmmRetire_memIs ..).canonical w
  | currentGrant => exact (execCurrentGrant_memIs ..).canonical w
  | grantLowering => exact (execGrantLowering_memIs ..).canonical w
  | launchIntake _ _ => exact execLaunchIntake_canonical w ..
  | dispatcherPass _ => exact execDispatcherPass_canonical w ..
  | effectivePriorityRaise _ => exact (execEffectivePriorityRaise_memIs ..).canonical w
  | taskPlacement _ => exact execTaskPlacement_canonical w ..
  | taskStart _ => exact (execTaskStart_memIs ..).canonical w
  | taskEnd _ => exact (execTaskEnd_memIs ..).canonical w
  | launchEnd _ => exact execLaunchEnd_canonical w ..
  | softPreemption _ => exact (execSoftPreemption_memIs ..).canonical w
  | hardPreemption _ => exact (execHardPreemption_memIs ..).canonical w
  | preemptionDrainEnd _ => exact (execPreemptionDrainEnd_memIs ..).canonical w
  | contextRestore _ => exact execContextRestore_canonical w ..
  | pageWalkComplete _ _ => exact (execPageWalkComplete_memIs ..).canonical w
  | divertedElementServed _ _ => exact execDivertedElementServed_canonical w ..
  | periodicRewalk _ _ => exact (execPeriodicRewalk_memIs ..).canonical w
  | unresolvable _ _ => exact (execUnresolvable_memIs ..).canonical w
  | shootdownComplete _ _ => exact (execShootdownComplete_memIs ..).canonical w
  | spubPublish _ => exact (execSpubPublish_memIs ..).canonical w
  | versionSwitch _ _ _ => exact (execVersionSwitch_memIs ..).canonical w
  | slotFree _ _ => exact (execSlotFree_memIs ..).canonical w
  | packetArrival _ => exact execPacketArrival_canonical w ..
  | ackArrival _ => exact (execAckArrival_memIs ..).canonical w
  | ackTimer _ => exact execAckTimer_canonical w ..
  | refusedPacketResend _ => exact (execRefusedPacketResend_memIs ..).canonical w
  | unackedPacketResend _ => exact (execUnackedPacketResend_memIs ..).canonical w
  | orderwin _ => exact (execOrderwin_memIs ..).canonical w
  | streamEntryReclaim _ => exact (execStreamEntryReclaim_memIs ..).canonical w
  | portDown _ => exact (execPortDown_memIs ..).canonical w
  | portUp _ => exact (execPortUp_memIs ..).canonical w
  | ptpSyncMessage _ => exact (execPtpSyncMessage_memIs ..).canonical w
  | syncTimeout => exact (execSyncTimeout_memIs ..).canonical w
  | timeSlotStart _ => exact (execTimeSlotStart_memIs ..).canonical w
  | collectiveStartTime _ _ => exact (execCollectiveStartTime_memIs ..).canonical w
  | collectiveChunk _ _ => exact execCollectiveChunk_canonical w ..
  | peerReadRequest _ _ _ => exact execPeerReadRequest_canonical w ..
  | powerOnReset r => exact State.boot_canonical s r
  | firmwareUpload _ _ => exact execFirmwareUpload_canonical w ..
  | statusQuery => exact (execStatusQuery_memIs ..).canonical w
  | linkRetryFailure _ => exact execLinkRetryFailure_canonical w ..
  | partitionEnable _ _ => exact execPartitionEnable_canonical w ..
  | partitionDisable _ _ => exact (execPartitionDisable_memIs ..).canonical w
  | hregWrite _ _ _ _ => exact (execHregWrite_memIs ..).canonical w
  | lqWrite _ _ _ _ => exact (execLqWrite_memIs ..).canonical w
  | wsetWrite _ _ _ => exact (execWsetWrite_memIs ..).canonical w
  | kownWrite _ _ _ => exact execKownWrite_canonical w ..
  | hubRegisterWrite _ _ _ => exact execHubRegisterWrite_canonical w ..
  | keyLoad _ _ => exact execKeyLoad_canonical w ..
  | attestationRequest _ => exact (execAttestationRequest_memIs ..).canonical w
  | apertureAccess _ _ => exact execApertureAccess_canonical w ..
  | walkAnswer _ _ => exact (execWalkAnswer_memIs ..).canonical w
  | faultAnswer _ _ => exact (execFaultAnswer_memIs ..).canonical w
  | spillAnswer _ _ => exact (execSpillAnswer_memIs ..).canonical w
  | saveAnswer _ _ _ => exact execSaveAnswer_canonical w ..
  | dispatchAnswer _ _ => exact execDispatchAnswer_canonical w ..
  | pageallocAnswer _ _ _ _ => exact (execPageallocAnswer_memIs ..).canonical w
  | slewClk _ => exact (execSlewClk_memIs ..).canonical w
  | traceRingDrain _ => exact (execTraceRingDrain_memIs ..).canonical w

/-- Every act that is due keeps the canonical form. -/
theorem runDue_canonical {s : State} (w : s.Canonical) (d : DueKind) (k : CtxId) (a b : Nat) :
    Out.Canonical (runDue d k a b s) := by
  cases d with
  | registerWriteLands =>
    have hd : (s.draw 2).2.Canonical := w.of_mem (State.draw_mem ..)
    exact Out.Canonical.ite hd ((execRegisterWriteLands_memIs ..).canonical hd)
  | interlockedValueLands => exact (execInterlockedValueLands_memIs ..).canonical w
  | bankReply => exact execBankReply_canonical w ..
  | accessLeaves => exact w.of_mem (State.leavePort_mem ..)
  | parkedAccess => exact State.Canonical.ite (State.parkedAccess_canonical w ..) (State.parkedEdge_canonical w ..)
  | deferredReadEntry => exact Out.Canonical.ite (w.of_mem (State.enterRead_mem ..)) ((execDeferredReadEntry_memIs ..).canonical w)
  | deferredReadAnswered => exact Out.Canonical.ite (w.of_mem (State.answerHub_mem ..)) ((execDeferredReadAnswered_memIs ..).canonical w)
  | atomicPerformed => exact execAtomicPerformed_canonical w ..
  | bankAccessPerformed => exact execBankAccessPerformed_canonical w ..
  | trapEntry => exact Out.Canonical.ite (w.of_mem (State.serveAside_mem ..)) ((execTrapEntry_memIs ..).canonical w)
  | handlerFiringStart => exact (execHandlerFiringStart_memIs ..).canonical w
  | firingStart => exact (execFiringStart_memIs ..).canonical w
  | commandQueueAccept => exact (execCommandQueueAccept_memIs ..).canonical w
  | doorBinding => exact (execDoorBinding_memIs ..).canonical w
  | streamServiceTurn => exact execStreamServiceTurn_canonical w ..
  | streamComplete => exact (execStreamComplete_memIs ..).canonical w
  | recordWrite => exact execRecordWrite_canonical w ..
  | ringHeadReread => exact (execRingHeadReread_memIs ..).canonical w
  | copyAccept => exact (execCopyAccept_memIs ..).canonical w
  | copyTransfer => exact execCopyTransfer_canonical w ..
  | circuitEntryMove => exact execCircuitEntryMove_canonical w ..
  | templateFiring => exact (execTemplateFiring_memIs ..).canonical w
  | postPlaced => exact (execPostPlaced_memIs ..).canonical w
  | creditGrant => exact (execCreditGrant_memIs ..).canonical w
  | gatherBatchEnd => exact execGatherBatchEnd_canonical w ..
  | sordAccept => exact (execSordAccept_memIs ..).canonical w
  | orderTokenOpen => exact (execOrderTokenOpen_memIs ..).canonical w
  | markerReachesHead => exact (execMarkerReachesHead_memIs ..).canonical w
  | sbarSatisfied => exact (execSbarSatisfied_memIs ..).canonical w
  | graphNodeArm => exact (execGraphNodeArm_memIs ..).canonical w
  | scfgComplete => exact (execScfgComplete_memIs ..).canonical w
  | peFiring => exact (execPeFiring_memIs ..).canonical w
  | loopBufferFill => exact (execLoopBufferFill_memIs ..).canonical w
  | pageMove =>
    unfold runDue
    dsimp only
    split
    · exact (execPageMove_memIs ..).canonical w
    · exact w
  | edgeElementReply => exact execEdgeElementReply_canonical w ..
  | edgeFaultFreeze => exact execEdgeFaultFreeze_canonical w ..
  | sectionQuiescent => exact (execSectionQuiescent_memIs ..).canonical w
  | sectionStopped => exact (execSectionStopped_memIs ..).canonical w
  | peSwitch => exact (execPeSwitch_memIs ..).canonical w
  | regionSilent => exact (execRegionSilent_memIs ..).canonical w
  | weightLoadComplete => exact (execWeightLoadComplete_memIs ..).canonical w
  | rowAdmission => exact (execRowAdmission_memIs ..).canonical w
  | outputEntryPush => exact (execOutputEntryPush_memIs ..).canonical w
  | smmRetire => exact (execSmmRetire_memIs ..).canonical w
  | currentGrant => exact (execCurrentGrant_memIs ..).canonical w
  | grantLowering => exact (execGrantLowering_memIs ..).canonical w
  | launchIntake => exact execLaunchIntake_canonical w ..
  | dispatcherPass => exact execDispatcherPass_canonical w ..
  | effectivePriorityRaise => exact (execEffectivePriorityRaise_memIs ..).canonical w
  | taskPlacement => exact execTaskPlacement_canonical w ..
  | taskStart => exact (execTaskStart_memIs ..).canonical w
  | taskEnd => exact (execTaskEnd_memIs ..).canonical w
  | launchEnd => exact execLaunchEnd_canonical w ..
  | hardPreemption => exact (execHardPreemption_memIs ..).canonical w
  | preemptionDrainEnd => exact (execPreemptionDrainEnd_memIs ..).canonical w
  | contextRestore => exact execContextRestore_canonical w ..
  | pageWalkComplete => exact (execPageWalkComplete_memIs ..).canonical w
  | divertedElementServed => exact execDivertedElementServed_canonical w ..
  | periodicRewalk => exact (execPeriodicRewalk_memIs ..).canonical w
  | unresolvable => exact (execUnresolvable_memIs ..).canonical w
  | shootdownComplete => exact (execShootdownComplete_memIs ..).canonical w
  | spubPublish => exact (execSpubPublish_memIs ..).canonical w
  | versionSwitch => exact (execVersionSwitch_memIs ..).canonical w
  | slotFree => exact (execSlotFree_memIs ..).canonical w
  | packetArrival =>
    unfold runDue
    dsimp only
    split
    · exact State.arrive_canonical w _
    · exact w
  | ackArrival =>
    unfold runDue
    dsimp only
    split
    · exact w.of_mem (State.takeAck_mem ..)
    · exact w
  | ackTimer => exact execAckTimer_canonical w ..
  | refusedPacketResend => exact (execRefusedPacketResend_memIs ..).canonical w
  | unackedPacketResend => exact (execUnackedPacketResend_memIs ..).canonical w
  | orderwin => exact (execOrderwin_memIs ..).canonical w
  | streamEntryReclaim => exact (execStreamEntryReclaim_memIs ..).canonical w
  | collectiveStartTime => exact (execCollectiveStartTime_memIs ..).canonical w
  | collectiveChunk => exact execCollectiveChunk_canonical w ..
  | bootStage => exact w.of_mem (State.bootStep_mem ..)
  | patrolScrub => exact (execPatrolScrub_memIs ..).canonical w
  | timeSlotStart => exact (execTimeSlotStart_memIs ..).canonical w
  | bankShutterOpen => exact State.openShutter_canonical w ..
  | syncTimeout => exact (execSyncTimeout_memIs ..).canonical w
  | slewClk =>
    have hd : (s.draw 2).2.Canonical := w.of_mem (State.draw_mem ..)
    exact Out.Canonical.ite hd ((execSlewClk_memIs ..).canonical hd)
  | pcSample => exact (execPcSample_memIs ..).canonical w
  | traceRingDrain => exact (execTraceRingDrain_memIs ..).canonical w

theorem syllables_canonical {s : State} (w : s.Canonical) (b : Bundle) : Out.Canonical (syllables b s) :=
  andThen_canonical (andThen_canonical (andThen_canonical (exec_canonical w b.s) fun _ h => exec_canonical h b.x)
    fun _ h => exec_canonical h b.v) fun _ h => exec_canonical h b.c

theorem runBundle_canonical {s : State} (w : s.Canonical) (b : Bundle) (rp : Bool) : Out.Canonical (runBundle b rp s) :=
  andThen_canonical (syllables_canonical w b) fun _ h => h.of_mem (State.finish_mem ..)

theorem issue_canonical {s : State} (w : s.Canonical) : Out.Canonical (issue s) := by
  have hp := s.prepare_memIs
  unfold issue
  split <;> rename_i he <;> rw [he] at hp
  · exact w.of_mem hp
  · exact runBundle_canonical (w.of_mem hp) ..
  · obtain ⟨hs, ht⟩ := hp
    exact andThen_canonical (syllables_canonical (w.of_mem ht) _) fun _ _ => w.of_mem hs

theorem issueCurrent_canonical {s : State} (w : s.Canonical) : Out.Canonical (issueCurrent s) :=
  andThen_canonical (issue_canonical w) fun _ h => (chooseAfter_memIs ..).canonical h

theorem issueOther_canonical {s : State} (w : s.Canonical) (k : CtxId) : Out.Canonical (issueOther k s) :=
  andThen_canonical (issueCurrent_canonical (w.of_mem (State.swapTo_mem ..))) fun _ h => h.of_mem (State.swapTo_mem ..)

/-- Every act keeps the canonical form. -/
theorem step_canonical {s : State} (w : s.Canonical) : Out.Canonical (step s) := by
  unfold step
  split
  · exact andThen_canonical (issueCurrent_canonical w) fun t h => h.of_mem ((State.planned_mem _).trans t.tick_mem)
  · rename_i a rest _
    extract_lets t
    have ht : t.Canonical := w
    split
    · exact exec_canonical ht _
    · exact issueOther_canonical ht _
    · exact ht.of_mem t.tick_mem
    · exact runDue_canonical ht ..

/-- Settles O55: a write to memory goes through one of the functions that keep the canonical form, and every other
function leaves the memory as it is. -/
theorem memoryStaysCanonical : Obligations.MemoryStaysCanonical := by
  intro s t w e
  have ht := step_canonical w
  rw [e] at ht
  exact ht

end Sys2Proof.Machine
end

section
/-! Current (R435, R436): a grant to the first request in line, and the lowering of the grants of sections. -/

namespace Sys2Proof.Machine

/-! ## A change of every section -/

/-- A change of every section of a context. -/
def Ctx.mapSecs (g : Section → Section) (c : Ctx) : Ctx := { c with secs := c.secs.map g }

/-- A change of every section of the resident contexts. -/
def State.mapSecs (g : Section → Section) (s : State) : State :=
  { s with c := s.c.mapSecs g, others := s.others.map (Ctx.mapSecs g) }

theorem Ctx.sec?_mapSecs (g : Section → Section) (hg : ∀ x, (g x).handle = x.handle) (c : Ctx) (h : Nat) :
    (c.mapSecs g).sec? h = (c.sec? h).map g := by
  simp [Ctx.sec?, Ctx.mapSecs, List.find?_map, hg]

theorem State.ctx?_mapSecs (g : Section → Section) (s : State) (k : CtxId) :
    (s.mapSecs g).ctx? k = (s.ctx? k).map (Ctx.mapSecs g) := by
  change (if s.c.id = k then some (s.c.mapSecs g) else (s.others.map (Ctx.mapSecs g)).find? (fun c => c.id == k))
    = (if s.c.id = k then some s.c else s.others.find? (fun c => c.id == k)).map (Ctx.mapSecs g)
  rw [find?_map_id s.others k (Ctx.mapSecs g) fun _ => rfl]
  split <;> rfl

/-- A section that was there is there, changed, if the change keeps handles. -/
theorem State.sec?_mapSecs (g : Section → Section) (hg : ∀ x, (g x).handle = x.handle) {s : State} {k : CtxId} {h : Nat}
    {c : Ctx} {x : Section} (hs : s.sec? k h = some (c, x)) : (s.mapSecs g).sec? k h = some (c.mapSecs g, g x) := by
  obtain ⟨hc, hx⟩ := sec?_ctx hs
  refine sec?_of ?_ ?_
  · rw [State.ctx?_mapSecs, hc]
    rfl
  · rw [Ctx.sec?_mapSecs g hg, hx]
    rfl

/-! ## A grant -/

/-- The trace record of a grant leaves every section as it is. -/
theorem sec?_traceIf (b : Bool) (s : State) (cls code : Nat) (c : Ctx) (fs : List TField) (k : CtxId) (h : Nat) :
    (if b then s.trc cls code c fs else s).sec? k h = s.sec? k h := by
  split
  · exact trc_sec? ..
  · rfl

theorem execCurrentGrant_gone {s : State} {r : GrantReq} {rest : List GrantReq} (hq : s.hub.grantReqs = r :: rest)
    (hs : s.sec? r.k r.h = none) :
    execCurrentGrant s = .next { s with hub := { s.hub with grantReqs := rest } } := by
  simp [execCurrentGrant, hq, hs]

/-- A request whose section stands gets some current: its section has it, and what it still wants stays in front (R435). -/
theorem execCurrentGrant_grants {s : State} {r : GrantReq} {rest : List GrantReq} {c : Ctx} {x : Section}
    (hq : s.hub.grantReqs = r :: rest) (hs : s.sec? r.k r.h = some (c, x)) {g : Nat}
    (hg : g = Nat.min r.want (s.hub.limit - s.grantsHeld)) (h0 : g ≠ 0) :
    ∃ t, execCurrentGrant s = .next t ∧ (t.sec? r.k r.h).map (·.2) = some { x with grant := x.grant + g }
      ∧ t.hub.grantReqs = if g = r.want then rest else { r with want := r.want - g } :: rest := by
  unfold execCurrentGrant
  simp only [hq, hs, ← hg, if_neg h0]
  refine ⟨_, rfl, ?_, rfl⟩
  have hu := (sec?_traceIf x.sys.isSome s 3 2 c [.word r.h, .word x.wants, .word (x.grant + g)] r.k r.h).trans hs
  exact congrArg (Option.map (·.2)) (sec?_onSec _ r.k r.h (fun y => { y with grant := y.grant + g }) c x hu fun _ => rfl)

/-! ## Lowering -/

/-- A section whose grant is lowered in proportion, to 1 at least, to what LIMIT leaves above the base grants (R436). -/
def State.lowerGrant (s : State) (x : Section) : Section :=
  if x.grant = 0 then x
  else { x with grant := Nat.max 1 (x.grant * (s.hub.limit - s.baseGrants) / (s.grantsHeld - s.baseGrants)) }

theorem State.lowerGrant_handle (s : State) (x : Section) : (s.lowerGrant x).handle = x.handle := by
  unfold State.lowerGrant
  split <;> rfl

/-- Trace records change the trace ring and the counts of dropped records. -/
theorem foldl_trc_eq {β : Type} (cls code : Nat) (c : β → Ctx) (fs : β → List TField) (l : List β) (s : State) :
    ∃ tr dr, l.foldl (fun t p => t.trc cls code (c p) (fs p)) s = { s with hub := { s.hub with trace := tr, drops := dr } } := by
  induction l generalizing s with
  | nil => exact ⟨_, _, rfl⟩
  | cons p l ih =>
    obtain ⟨tr, dr, e⟩ := trc_eq s cls code (c p) (fs p)
    obtain ⟨tr', dr', e'⟩ := ih (s.trc cls code (c p) (fs p))
    exact ⟨tr', dr', by rw [List.foldl_cons, e', e]⟩

/-- The lowering lowers the grant of every section and writes trace records. -/
theorem execGrantLowering_due {s : State} (hd : s.hub.lowerDue = true) :
    ∃ tr dr, execGrantLowering s
      = .next { s.mapSecs s.lowerGrant with hub := { s.hub with lowerDue := false, trace := tr, drops := dr } } := by
  unfold execGrantLowering
  rw [if_neg (by simp [hd])]
  extract_lets b h less low ctx changed hub t
  obtain ⟨tr, dr, e⟩ := foldl_trc_eq 3 2 Prod.fst (fun p : Ctx × Section =>
    [.word p.2.handle, .word p.2.wants, .word (less p.2.grant)]) changed t
  exact ⟨tr, dr, congrArg Host.Outcome.next e⟩

/-- The lowering leaves a section with its lowered grant. -/
theorem execGrantLowering_lowers {s : State} (hd : s.hub.lowerDue = true) :
    ∃ t, execGrantLowering s = .next t ∧ t.mem = s.mem ∧ t.hub.lowerDue = false
      ∧ ∀ k h c x, s.sec? k h = some (c, x) → (t.sec? k h).map (·.2) = some (s.lowerGrant x) := by
  obtain ⟨tr, dr, e⟩ := execGrantLowering_due hd
  exact ⟨_, e, rfl, rfl, fun k h c x hs => congrArg (Option.map (·.2)) (State.sec?_mapSecs _ s.lowerGrant_handle hs)⟩

/-- Settles O38: the three cases of a grant, and the lowering section by section. -/
theorem currentIsGranted : Obligations.CurrentIsGranted := by
  intro s
  refine ⟨fun r rest hq => ⟨execCurrentGrant_gone hq, ?_⟩, fun hd => ?_⟩
  · intro c x hs g h0
    obtain ⟨t, e, hx, hr⟩ := execCurrentGrant_grants hq hs (g := g) rfl h0
    have hm := execCurrentGrant_memIs s
    rw [e] at hm
    exact ⟨t, e, sameMemory_of_mem hm, hx, fun h => by rw [hr, if_pos h], fun h => by rw [hr, if_neg h]⟩
  · obtain ⟨t, e, hm, ht, hl⟩ := execGrantLowering_lowers hd
    refine ⟨t, e, sameMemory_of_mem hm, ht, fun k h c x hs => ⟨fun h0 => ?_, fun h0 => ?_⟩⟩
    · rw [hl k h c x hs, State.lowerGrant, if_pos h0]
    · rw [hl k h c x hs, State.lowerGrant, if_neg h0]

end Sys2Proof.Machine
end

section
/-! Hub registers with a row of their own (R424, R428): what a write of each of them does, case by case. -/

namespace Sys2Proof.Machine

/-! ## Changes of owner (R292) -/

@[simp] theorem State.trcPkg_pctl (s : State) (cls code p : Nat) (fs : List TField) :
    (s.trcPkg cls code p fs).hub.pctl = s.hub.pctl := by
  obtain ⟨_, _, e⟩ := trcPkg_eq s cls code p fs
  rw [e]

@[simp] theorem State.trcPkg_remaps (s : State) (cls code p : Nat) (fs : List TField) :
    (s.trcPkg cls code p fs).hub.remaps = s.hub.remaps := by
  obtain ⟨_, _, e⟩ := trcPkg_eq s cls code p fs
  rw [e]

/-- A change to the read of a reader changes, of the hub, at most its own reads. -/
theorem State.onRead_hub (s : State) (w : Reader) (f : Deferral → Deferral) :
    ∃ rs, (s.onRead w f).hub = { s.hub with reads := rs } := by
  cases w with
  | hub i => exact ⟨_, rfl⟩
  | _ => exact ⟨s.hub.reads, State.onCtx_hub ..⟩

/-- What the hub holds besides its reads stays when the deferred reads of a bank are released. -/
theorem State.releaseDeferred_keeps {γ : Type} (g : Hub → γ) (hg : ∀ (b : Hub) rs, g { b with reads := rs } = g b) (s : State)
    (bank : Nat) : g (s.releaseDeferred bank).hub = g s.hub := by
  refine foldl_keeps (fun s => g s.hub) _ (fun u r => ?_) s.reads s
  split
  · obtain ⟨rs, e⟩ := u.onRead_hub r.1 fun d => { d with out := true }
    rw [e, hg]
  · rfl

@[simp] theorem State.openShutter_pctl (s : State) (bank : Nat) : (s.openShutter bank).hub.pctl = s.hub.pctl := by
  unfold State.openShutter
  split
  · rfl
  · exact (State.trcPkg_pctl ..).trans (s.releaseDeferred_keeps Hub.pctl (fun _ _ => rfl) _)

/-- A shutter that opens ends the change of owner of its bank and no other. -/
@[simp] theorem State.openShutter_remaps (s : State) (bank : Nat) :
    (s.openShutter bank).hub.remaps = s.hub.remaps.filter fun q => q.bank != bank := by
  unfold State.openShutter
  split
  · rename_i hn
    symm
    rw [List.filter_eq_self]
    simpa using hn
  · exact congrArg (List.filter fun q : Remap => q.bank != bank)
      ((State.trcPkg_remaps ..).trans (s.releaseDeferred_keeps Hub.remaps (fun _ _ => rfl) _))

theorem State.mem_foldl_openShutter_remaps (l : List Nat) (s : State) (r : Remap) :
    r ∈ (l.foldl State.openShutter s).hub.remaps ↔ r ∈ s.hub.remaps ∧ r.bank ∉ l := by
  induction l generalizing s with
  | nil => simp
  | cons b l ih => simp [ih, and_assoc]

@[simp] theorem State.endRemaps_pctl (s : State) (p : Nat) : (s.endRemaps p).hub.pctl = s.hub.pctl :=
  foldl_keeps (fun s => s.hub.pctl) State.openShutter State.openShutter_pctl _ s

/-- Of the changes of owner under way, only those that do not concern the partition stay. -/
theorem State.mem_endRemaps {s : State} {p : Nat} {r : Remap} (h : r ∈ (s.endRemaps p).hub.remaps) :
    r ∈ s.hub.remaps ∧ ¬ (r.owner = p + 1 ∨ NMap.get 0 s.bankOwner r.bank = p + 1) := by
  obtain ⟨hr, hb⟩ := (State.mem_foldl_openShutter_remaps ..).mp h
  exact ⟨hr, fun hm => hb (List.mem_map_of_mem (List.mem_filter.mpr ⟨hr, by simpa using hm⟩))⟩

theorem State.endRemaps_of_none {s : State} {p : Nat}
    (h : ∀ r ∈ s.hub.remaps, ¬ (r.owner = p + 1 ∨ NMap.get 0 s.bankOwner r.bank = p + 1)) : s.endRemaps p = s := by
  have hf : (s.hub.remaps.filter fun r => r.owner == p + 1 || NMap.get 0 s.bankOwner r.bank == p + 1) = [] := by
    rw [List.filter_eq_nil_iff]
    simpa using h
  rw [State.endRemaps, hf]
  rfl

/-! ## Partitions (R23, R425, R428) -/

theorem pctlOf_setPctl (s : State) (p : Nat) (w : Word) (h : NMap.wf pctlReset s.hub.pctl = true) :
    pctlOf (s.setPctl p w) p = w := nmap_get_set_same _ _ 0 _ _ h

section
variable {s : State} {p : Nat}

theorem execPartitionEnable_early (he : s.enabled p = false) (hb : s.hub.bootstat ≠ 7) :
    execPartitionEnable .partitionManager p s = .next (s.refuseWrite p p 425) := by
  unfold execPartitionEnable
  rw [if_neg (by simp), if_neg (by simp [he]), if_pos hb]

theorem execPartitionEnable_refused (he : s.enabled p = false) (hb : s.hub.bootstat = 7)
    (hr : NMap.get 0 s.hub.proot p = 0 ∨ s.rectBad p (pctlOf s p) = true) :
    execPartitionEnable .partitionManager p s = .next (s.refuseWrite p p 428) := by
  unfold execPartitionEnable
  rw [if_neg (by simp), if_neg (by simp [he]), if_neg (not_not.mpr hb), if_pos hr]

theorem execPartitionEnable_ready (he : s.enabled p = false) (hb : s.hub.bootstat = 7) (hp : NMap.get 0 s.hub.proot p ≠ 0)
    (hr : s.rectBad p (pctlOf s p) = false) :
    execPartitionEnable .partitionManager p s = .next ((s.endRemaps p).setPctl p (pctlOf s p ||| 0x8000000000000000)) := by
  unfold execPartitionEnable
  rw [if_neg (by simp), if_neg (by simp [he]), if_neg (not_not.mpr hb), if_neg (not_or.mpr ⟨hp, by simp [hr]⟩)]

theorem execPartitionDisable_busy (he : s.enabled p = true) (hb : s.partBusy p = true) :
    execPartitionDisable .partitionManager p s
      = .next { s with hub := { s.hub with reply := toBytes 1 Status.busy.code } } := by
  simp [execPartitionDisable, he, hb]

theorem execPartitionDisable_idle (he : s.enabled p = true) (hb : s.partBusy p = false) :
    execPartitionDisable .partitionManager p s = .next
      ((({ s with hub := { s.hub with reply := toBytes 1 Status.ok.code } } : State).setPctl p
        (keepBits (pctlOf s p) 0x7FFFFFFFFFFFFFFF)).dropPartition p) := by
  simp [execPartitionDisable, he, hb]

end

/-- A partition is enabled with the changes of owner made that concern it, and no other (R23, R292). -/
theorem execPartitionEnable_enables {s : State} {p : Nat} (he : s.enabled p = false) (hb : s.hub.bootstat = 7)
    (hp : NMap.get 0 s.hub.proot p ≠ 0) (hr : s.rectBad p (pctlOf s p) = false) (hw : NMap.wf pctlReset s.hub.pctl = true) :
    ∃ t, execPartitionEnable .partitionManager p s = .next t
      ∧ pctlOf t p = pctlOf s p ||| 0x8000000000000000
      ∧ (∀ r ∈ t.hub.remaps, r ∈ s.hub.remaps ∧ ¬ (r.owner = p + 1 ∨ NMap.get 0 s.bankOwner r.bank = p + 1))
      ∧ ((∀ r ∈ s.hub.remaps, ¬ (r.owner = p + 1 ∨ NMap.get 0 s.bankOwner r.bank = p + 1)) →
        SameMemory s t ∧ t.hub.remaps = s.hub.remaps) := by
  refine ⟨_, execPartitionEnable_ready he hb hp hr, ?_, fun r h => State.mem_endRemaps h, fun hn => ?_⟩
  · exact pctlOf_setPctl _ p _ ((congrArg _ (State.endRemaps_pctl s p)).trans hw)
  · rw [State.endRemaps_of_none hn]
    exact ⟨sameMemory_of_mem (State.setPctl_mem ..), rfl⟩

/-! ## Regions, queues, sets and key slots (R290, R331, R411, R437) -/

section
variable {s : State} {p n : Nat} {v : Word}

theorem execHregWrite_enabled (he : s.enabled p = true) :
    execHregWrite .partitionManager p n v s = .next (s.refuseWrite p (hregCode p n) 23) := by
  simp [execHregWrite, he]

theorem execHregWrite_refused (he : s.enabled p = false) (hv : wordField (keepBits v hregMask) 63 1 = 1)
    (hb : s.hregBad p n (keepBits v hregMask) = true) :
    execHregWrite .partitionManager p n v s = .next (s.refuseWrite p (hregCode p n) 290) := by
  simp [execHregWrite, he, hv, hb]

theorem execHregWrite_valid (he : s.enabled p = false) (hv : wordField (keepBits v hregMask) 63 1 = 1)
    (hb : s.hregBad p n (keepBits v hregMask) = false) :
    let w := keepBits v hregMask
    execHregWrite .partitionManager p n v s = .next ((List.range (hregSpan w).2.1.2).foldl
      (fun s i => s.emptyRange (hallKey ((hregSpan w).2.1.1 + i) (hregSpan w).2.2.1) (hregSpan w).2.2.2)
      { s with hreg := NMap.set 0 s.hreg (hregKey p n) w }) := by
  simp [execHregWrite, he, hv, hb]

theorem execHregWrite_invalid (he : s.enabled p = false) (hv : wordField (keepBits v hregMask) 63 1 = 0) :
    execHregWrite .partitionManager p n v s
      = .next { s with hreg := NMap.set 0 s.hreg (hregKey p n) (keepBits v hregMask) } := by
  simp [execHregWrite, he, hv]

theorem execLqWrite_enabled (he : s.enabled p = true) :
    execLqWrite .partitionManager p n v s = .next (s.refuseWrite p (lqCode p n) 23) := by
  simp [execLqWrite, he]

theorem execLqWrite_refused (he : s.enabled p = false) (hv : wordField (keepBits v lqMask) 63 1 = 1)
    (hb : s.lqBad p (keepBits v lqMask) = true) :
    execLqWrite .partitionManager p n v s = .next (s.refuseWrite p (lqCode p n) 411) := by
  simp [execLqWrite, he, hv, hb]

theorem execLqWrite_written (he : s.enabled p = false)
    (hv : wordField (keepBits v lqMask) 63 1 = 0 ∨ s.lqBad p (keepBits v lqMask) = false) :
    execLqWrite .partitionManager p n v s
      = .next { s with hub := { s.hub with lq := NMap.set 0 s.hub.lq (p * 8 + n) (keepBits v lqMask) } } := by
  have hn : ¬ (wordField (keepBits v lqMask) 63 1 = 1 ∧ s.lqBad p (keepBits v lqMask) = true) := by
    rintro ⟨h1, h2⟩
    rcases hv with h | h <;> simp_all
  simp [execLqWrite, he, hn]

/-- A slot of weight set n is STAGING or RETIRING. -/
def State.slotMoves (s : State) (n : Nat) : Prop :=
  ∃ i < 4, (NMap.get {} s.hub.wslot (n * 4 + i)).st = 1 ∨ (NMap.get {} s.hub.wslot (n * 4 + i)).st = 3

theorem State.slotMoves_iff (s : State) (n : Nat) :
    ((List.range 4).any fun i =>
      (NMap.get {} s.hub.wslot (n * 4 + i)).st == 1 || (NMap.get {} s.hub.wslot (n * 4 + i)).st == 3) = true ↔ s.slotMoves n := by
  simp [State.slotMoves]

theorem execWsetWrite_refused (hv : wordField (NMap.get 0 s.hub.wset n) 63 1 = 1) (hm : s.slotMoves n) :
    execWsetWrite .partitionManager n v s = .next (s.refuseWrite 0 (wsetCode n) 331) := by
  rw [← State.slotMoves_iff] at hm
  unfold execWsetWrite
  rw [if_neg (by simp), if_pos ⟨hv, hm⟩]

theorem execWsetWrite_kept (hm : wordField (NMap.get 0 s.hub.wset n) 63 1 = 0 ∨ ¬ s.slotMoves n)
    (hv : wordField (NMap.get 0 s.hub.wset n) 63 1 = 1 ∨ wordField (keepBits v wsetMask) 63 1 = 0) :
    execWsetWrite .partitionManager n v s
      = .next { s with hub := { s.hub with wset := NMap.set 0 s.hub.wset n (keepBits v wsetMask) } } := by
  rw [← State.slotMoves_iff] at hm
  unfold execWsetWrite
  rw [if_neg (by simp), if_neg (fun h => hm.elim (by omega) (absurd h.2)), if_neg (by omega)]

theorem execWsetWrite_validated (ho : wordField (NMap.get 0 s.hub.wset n) 63 1 = 0)
    (hv : wordField (keepBits v wsetMask) 63 1 = 1) :
    execWsetWrite .partitionManager n v s = .next { s with hub := { s.hub with
      wset := NMap.set 0 s.hub.wset n (keepBits v wsetMask), wslot := NMap.cut s.hub.wslot (n * 4) (n * 4 + 4),
      views := s.hub.views.filter fun x => x.1 % 64 != n } } := by
  unfold execWsetWrite
  rw [if_neg (by simp), if_neg (by omega), if_pos ⟨ho, hv⟩]

/-- An owner of a key slot, as a partition plus one, is enabled. -/
def State.ownerOn (s : State) (o : Nat) : Prop := o ≠ 0 ∧ s.enabled (o - 1) = true

theorem State.ownerOn_iff (s : State) (o : Nat) : (o != 0 && s.enabled (o - 1)) = true ↔ s.ownerOn o := by
  simp [State.ownerOn]

theorem execKownWrite_sameOwner (h : kownPart (NMap.get 0 s.hub.kown n) = kownPart (keepBits v 0x800000000000000F)) :
    execKownWrite .partitionManager n v s
      = .next { s with hub := { s.hub with kown := NMap.set 0 s.hub.kown n (keepBits v 0x800000000000000F) } } := by
  unfold execKownWrite
  rw [if_neg (by simp), if_pos h]

theorem execKownWrite_enabled (h : kownPart (NMap.get 0 s.hub.kown n) ≠ kownPart (keepBits v 0x800000000000000F))
    (ho : s.ownerOn (kownPart (NMap.get 0 s.hub.kown n)) ∨ s.ownerOn (kownPart (keepBits v 0x800000000000000F))) :
    execKownWrite .partitionManager n v s = .next (s.refuseWrite 0 (kownCode n) 23) := by
  rw [← State.ownerOn_iff, ← State.ownerOn_iff] at ho
  unfold execKownWrite
  rw [if_neg (by simp), if_neg h, if_pos ho]

/-- A key slot whose owner changes is zeroed, and the granules that name it are scrambled (R437, R445). -/
theorem execKownWrite_reassigned (h : kownPart (NMap.get 0 s.hub.kown n) ≠ kownPart (keepBits v 0x800000000000000F))
    (ho : ¬ s.ownerOn (kownPart (NMap.get 0 s.hub.kown n))) (hn : ¬ s.ownerOn (kownPart (keepBits v 0x800000000000000F))) :
    execKownWrite .partitionManager n v s = .next ((s.granulesOf n).foldl State.scramble { s with hub := { s.hub with
      kown := NMap.set 0 s.hub.kown n (keepBits v 0x800000000000000F), keys := NMap.set 0 s.hub.keys n 0,
      reassigned := s.hub.reassigned + if s.granulesOf n = [] then 0 else 1 } }) := by
  rw [← State.ownerOn_iff] at ho hn
  unfold execKownWrite
  rw [if_neg (by simp), if_neg h, if_neg (not_or.mpr ⟨ho, hn⟩)]

end

/-! ## Writes without the right (R424) -/

section
variable {pr : Priv} (h : pr ≠ .partitionManager) (s : State) (p n : Nat) (v : Word)
include h

theorem execPartitionEnable_violation : execPartitionEnable pr p s = .next (s.violation p p) := if_pos h
theorem execPartitionDisable_violation : execPartitionDisable pr p s = .next (s.violation p p) := if_pos h
theorem execHregWrite_violation : execHregWrite pr p n v s = .next (s.violation p (hregCode p n)) := if_pos h
theorem execLqWrite_violation : execLqWrite pr p n v s = .next (s.violation p (lqCode p n)) := if_pos h
theorem execWsetWrite_violation : execWsetWrite pr n v s = .next (s.violation 0 (wsetCode n)) := if_pos h
theorem execKownWrite_violation : execKownWrite pr n v s = .next (s.violation 0 (kownCode n)) := if_pos h

end

theorem execHubRegisterWrite_right (r : HubReg) (v : Word) (s : State) :
    execHubRegisterWrite (hubRegRight r) r v s = .next (s.writeHubReg r v) := if_pos rfl

theorem execHubRegisterWrite_violation {pr : Priv} {r : HubReg} (h : pr ≠ hubRegRight r) (v : Word) (s : State) :
    execHubRegisterWrite pr r v s = .next (s.violation 0 (hubRegCode r)) := if_neg h

/-- Settles O44: for each register the cases of a write with the right, then the writes without it. -/
theorem hubRegistersAreWritten : Obligations.HubRegistersAreWritten := by
  intro s p n v
  refine ⟨fun he hb => ⟨fun hp hr hw => execPartitionEnable_enables he hb hp hr hw, execPartitionEnable_refused he hb⟩,
    execPartitionEnable_early, fun he hb => ?_, execPartitionDisable_idle, ?_, ?_, ?_, ?_, fun pr h => ?_, fun r => ?_⟩
  · exact ⟨_, execPartitionDisable_busy he hb, sameMemory_of_mem rfl, rfl, rfl⟩
  · exact ⟨execHregWrite_enabled, fun he hv => ⟨execHregWrite_refused he hv, execHregWrite_valid he hv⟩, execHregWrite_invalid⟩
  · exact ⟨execLqWrite_enabled, execLqWrite_refused, execLqWrite_written⟩
  · exact ⟨execWsetWrite_refused, execWsetWrite_kept, execWsetWrite_validated⟩
  · exact ⟨execKownWrite_sameOwner, execKownWrite_enabled, execKownWrite_reassigned⟩
  · exact ⟨execPartitionEnable_violation h s p, execPartitionDisable_violation h s p, execHregWrite_violation h s p n v,
      execLqWrite_violation h s p n v, execWsetWrite_violation h s n v, execKownWrite_violation h s n v⟩
  · exact ⟨execHubRegisterWrite_right r v s, fun pr h => ⟨_, _, execHubRegisterWrite_violation h v s,
      sameMemory_of_mem (State.violation_mem ..), rfl, rfl⟩⟩

end Sys2Proof.Machine
end

section
/-! Encodings (R40 to R63): fields of words and lists of checks; the forms of S and X syllables, read both ways. -/

namespace Sys2Proof

/-! ## Fields of a word and lists of checks -/

theorem fld_eq_iff {w lo n : Nat} {v : BitVec n} : fld w lo n = v ↔ fldNat w lo n = v.toNat := by
  rw [fld, fldNat, ← BitVec.toNat_inj, BitVec.toNat_ofNat]

theorem fldNat_lt (w lo n : Nat) : fldNat w lo n < 2 ^ n := Nat.mod_lt _ (Nat.two_pow_pos n)

/-- Two fields next to each other are one field. -/
theorem fldNat_add (w lo m n : Nat) : fldNat w lo (m + n) = fldNat w lo m + 2 ^ m * fldNat w (lo + m) n := by
  simp only [fldNat, Nat.pow_add, Nat.mod_mul, Nat.div_div_eq_div_mul]

/-- A word is its one field. -/
theorem fldNat_all {w n : Nat} (h : w < 2 ^ n) : fldNat w 0 n = w := by
  rw [fldNat, Nat.pow_zero, Nat.div_one, Nat.mod_eq_of_lt h]

@[simp] theorem nz_eq_false {w lo n : Nat} : nz w lo n = false ↔ fld w lo n = 0#n := by simp [nz, fld_eq_iff]

@[simp] theorem nz_eq_true {w lo n : Nat} : nz w lo n = true ↔ fld w lo n ≠ 0#n := by
  rw [← Bool.not_eq_false, nz_eq_false]

theorem nz_bit_eq_iff {w lo : Nat} {b : Bool} : nz w lo 1 = b ↔ fldNat w lo 1 = b.toNat := by
  have := fldNat_lt w lo 1
  rcases (by omega : fldNat w lo 1 = 0 ∨ fldNat w lo 1 = 1) with h | h <;> cases b <;> simp [nz, h]

/-- What is accepted satisfies a predicate. -/
def Accepts (P : Instr → Prop) (r : Except Nat Instr) : Prop := ∀ i, r = .ok i → P i

section
variable {P : Instr → Prop}

@[simp] theorem accepts_ok {i : Instr} : Accepts P (.ok i) ↔ P i := by simp [Accepts]

@[simp] theorem accepts_error {lo : Nat} : Accepts P (.error lo) := by simp [Accepts]

@[simp] theorem accepts_checked {l : List (Bool × Nat)} {i : Instr} :
    Accepts P (checked l i) ↔ (firstBad l = none → P i) := by
  unfold checked
  cases firstBad l <;> simp

end

@[simp] theorem checked_eq_ok {l : List (Bool × Nat)} {i j : Instr} :
    checked l i = .ok j ↔ firstBad l = none ∧ i = j := by
  unfold checked
  cases firstBad l <;> simp

@[simp] theorem firstBad_nil : firstBad [] = none := rfl

@[simp] theorem firstBad_cons (b : Bool) (lo : Nat) (r : List (Bool × Nat)) :
    firstBad ((b, lo) :: r) = none ↔ b = false ∧ firstBad r = none := by cases b <;> simp [firstBad]

theorem Cond.code_lt (c : Cond) : c.code < 8 := by cases c <;> decide

theorem Cond.ofCode_eq_iff {x : Nat} (h : x < 8) {c : Cond} : Cond.ofCode x = c ↔ x = c.code := by
  interval_cases x <;> cases c <;> decide

theorem SysReg.ofCode?_eq_some {x : Nat} {n : SysReg} : SysReg.ofCode? x = some n ↔ x = n.code := by
  constructor
  · intro h
    unfold SysReg.ofCode? at h
    split at h <;> cases h <;> rfl
  · rintro rfl
    cases n <;> rfl

theorem SysReg.code_lt (n : SysReg) : n.code < 2 ^ 12 := by cases n <;> decide

/-! ## The forms of the S syllable (R42, R43, R46): a word has a form exactly when its fields hold what the form says -/

/-- The 21 bits below the major opcode are zero when the fields of the register form are. -/
@[simp] theorem low21_eq_zero_iff {w : Nat} : fld w 0 21 = 0#21 ↔
    fld w 15 6 = 0#6 ∧ fld w 9 6 = 0#6 ∧ fld w 3 6 = 0#6 ∧ fldNat w 0 3 = 0 := by
  simp only [fld_eq_iff, BitVec.toNat_zero, fldNat]
  omega

/-- RP, guard and major opcode of a word of 32 bits. -/
def SHead (w : Nat) (rp : Bool) (g : BitVec 4) (M : Nat) : Prop :=
  w < 2 ^ 32 ∧ nz w 31 1 = rp ∧ fld w 27 4 = g ∧ fldNat w 21 6 = M

section
variable {M m w : Nat}

/-- A word of the head and 21 bits below it holds the head, and those bits in their fields. -/
theorem encHead_add_eq_iff {rp : Bool} {g : BitVec 4} {x : Nat} {P : Prop} (hM : M < 64) (hx : x < 2 ^ 21)
    (h : fldNat w 0 21 = x ↔ P) : encHead rp g M + x = w ↔ SHead w rp g M ∧ P := by
  have := rp.toNat_lt
  rw [← h]
  simp only [SHead, fld_eq_iff, nz_bit_eq_iff, fldNat, encHead]
  exact ⟨by rintro rfl; omega, by omega⟩

@[simp] theorem sNop_eq_iff {rp : Bool} : rp.toNat * 2 ^ 31 = w ↔
    w < 2 ^ 32 ∧ nz w 31 1 = rp ∧ fld w 27 4 = 0#4 ∧ fldNat w 21 6 = 0 ∧ fld w 0 21 = 0#21 := by
  have := rp.toNat_lt
  simp only [fld_eq_iff, nz_bit_eq_iff, BitVec.toNat_zero, fldNat]
  exact ⟨by rintro rfl; omega, by omega⟩

@[simp] theorem encR_eq_iff {f : SR} (hM : M < 64) (hm : m < 8) : encR f M m = w ↔ SHead w f.rp f.g M
    ∧ fld w 15 6 = f.d ∧ fld w 9 6 = f.a ∧ fld w 3 6 = f.b ∧ fldNat w 0 3 = m := by
  simp only [encR, Nat.add_assoc]
  refine encHead_add_eq_iff hM (by omega) ?_
  simp only [fld_eq_iff, fldNat]
  omega

@[simp] theorem encU_eq_iff {f : SU} (hM : M < 64) (hm : m < 8) : encU f M m = w ↔ SHead w f.rp f.g M
    ∧ fld w 15 6 = f.d ∧ fld w 9 6 = f.a ∧ fld w 3 6 = 0#6 ∧ fldNat w 0 3 = m := by
  simp only [encU, Nat.add_assoc]
  refine encHead_add_eq_iff hM (by omega) ?_
  simp only [fld_eq_iff, BitVec.toNat_zero, fldNat]
  omega

@[simp] theorem encI_eq_iff {f : SI} (hM : M < 64) : encI f M = w ↔ SHead w f.rp f.g M
    ∧ fld w 15 6 = f.d ∧ fld w 9 6 = f.a ∧ fld w 0 9 = f.imm := by
  simp only [encI, Nat.add_assoc]
  refine encHead_add_eq_iff hM (by omega) ?_
  simp only [fld_eq_iff, fldNat]
  omega

@[simp] theorem encSh_eq_iff {f : SSh} (hM : M < 64) : encSh f M = w ↔ SHead w f.rp f.g M
    ∧ fld w 15 6 = f.d ∧ fld w 9 6 = f.a ∧ fld w 6 3 = 0#3 ∧ fld w 0 6 = f.cnt := by
  simp only [encSh, Nat.add_assoc]
  refine encHead_add_eq_iff hM (by omega) ?_
  simp only [fld_eq_iff, BitVec.toNat_zero, fldNat]
  omega

@[simp] theorem encL_eq_iff {f : SL} (hM : M < 64) : encL f M = w ↔ SHead w f.rp f.g M
    ∧ fld w 15 6 = f.d ∧ fld w 0 15 = f.imm := by
  simp only [encL, Nat.add_assoc]
  refine encHead_add_eq_iff hM (by omega) ?_
  simp only [fld_eq_iff, fldNat]
  omega

@[simp] theorem encJ_eq_iff {f : SJ} (hM : M < 64) : encJ f M = w ↔ SHead w f.rp f.g M ∧ fld w 0 21 = f.disp := by
  rw [encJ]
  refine encHead_add_eq_iff hM (by omega) ?_
  exact fld_eq_iff.symm

@[simp] theorem encCmp_eq_iff {f : SCmp} : encCmp f = w ↔ SHead w f.rp f.g 13
    ∧ fld w 19 2 = 0#2 ∧ fld w 15 4 = f.p ∧ fld w 9 6 = f.a ∧ fld w 3 6 = f.b ∧ Cond.ofCode (fldNat w 0 3) = f.c := by
  have := f.c.code_lt
  rw [Cond.ofCode_eq_iff (fldNat_lt w 0 3)]
  simp only [encCmp, Nat.add_assoc]
  refine encHead_add_eq_iff (by decide) (by omega) ?_
  simp only [fld_eq_iff, BitVec.toNat_zero, fldNat]
  omega

@[simp] theorem encCmpi_eq_iff {f : SCmpi} (hM : M < 64) : encCmpi f M = w ↔ SHead w f.rp f.g M
    ∧ fld w 19 2 = f.c ∧ fld w 15 4 = f.p ∧ fld w 9 6 = f.a ∧ fld w 0 9 = f.imm := by
  simp only [encCmpi, Nat.add_assoc]
  refine encHead_add_eq_iff hM (by omega) ?_
  simp only [fld_eq_iff, fldNat]
  omega

@[simp] theorem encPl_eq_iff {f : SPl} (hm : m < 8) : encPl f m = w ↔ SHead w f.rp f.g 16
    ∧ fld w 19 2 = 0#2 ∧ fld w 15 4 = f.d ∧ fld w 13 2 = 0#2 ∧ fld w 9 4 = f.a ∧ fld w 7 2 = 0#2
    ∧ fld w 3 4 = f.b ∧ fldNat w 0 3 = m := by
  simp only [encPl, Nat.add_assoc]
  refine encHead_add_eq_iff (by decide) (by omega) ?_
  simp only [fld_eq_iff, BitVec.toNat_zero, fldNat]
  omega

@[simp] theorem encEmp_eq_iff {f : SEmp} : encEmp f = w ↔ SHead w f.rp f.g 31
    ∧ fld w 15 6 = 0#6 ∧ fld w 9 6 = f.a ∧ fld w 0 9 = f.off := by
  simp only [encEmp, Nat.add_assoc]
  refine encHead_add_eq_iff (by decide) (by omega) ?_
  simp only [fld_eq_iff, BitVec.toNat_zero, fldNat]
  omega

@[simp] theorem encA_eq_iff {f : SA} (hM : M < 64) (hm : m < 8) : encA f M m = w ↔ SHead w f.rp f.g M
    ∧ fld w 15 6 = 0#6 ∧ fld w 9 6 = f.a ∧ fld w 3 6 = 0#6 ∧ fldNat w 0 3 = m := by
  simp only [encA, Nat.add_assoc]
  refine encHead_add_eq_iff hM (by omega) ?_
  simp only [fld_eq_iff, BitVec.toNat_zero, fldNat]
  omega

@[simp] theorem encG_eq_iff {f : SG} (hM : M < 64) (hm : m < 8) : encG f M m = w ↔ SHead w f.rp f.g M
    ∧ fld w 15 6 = 0#6 ∧ fld w 9 6 = 0#6 ∧ fld w 3 6 = 0#6 ∧ fldNat w 0 3 = m := by
  rw [encG]
  refine encHead_add_eq_iff hM (by omega) ?_
  simp only [fld_eq_iff, BitVec.toNat_zero, fldNat]
  omega

@[simp] theorem encTrap_eq_iff {f : STrap} : encTrap f = w ↔ SHead w f.rp f.g 41
    ∧ fld w 15 6 = 0#6 ∧ fld w 9 6 = 0#6 ∧ fld w 0 9 = f.n := by
  rw [encTrap]
  refine encHead_add_eq_iff (by decide) (by omega) ?_
  simp only [fld_eq_iff, BitVec.toNat_zero, fldNat]
  omega

@[simp] theorem encJoinm_eq_iff {f : SJoin} : encJoinm f = w ↔ SHead w f.rp f.g 45
    ∧ fld w 15 6 = 0#6 ∧ fld w 0 15 = f.m := by
  rw [encJoinm]
  refine encHead_add_eq_iff (by decide) (by omega) ?_
  simp only [fld_eq_iff, BitVec.toNat_zero, fldNat]
  omega

@[simp] theorem encSys_eq_iff {f : SSys} (hM : M < 64) : encSys f M = w ↔ SHead w f.rp f.g M
    ∧ fld w 15 6 = f.d ∧ fld w 12 3 = 0#3 ∧ SysReg.ofCode? (fldNat w 0 12) = some f.n := by
  have := f.n.code_lt
  simp only [encSys, Nat.add_assoc]
  refine encHead_add_eq_iff hM (by omega) ?_
  simp only [fld_eq_iff, BitVec.toNat_zero, SysReg.ofCode?_eq_some, fldNat]
  omega

end

/-- The word of a well-formed S syllable has 32 bits and decodes to it: its fields are the form's, and no check fails. -/
theorem decodeS_of_encodeS {i : Instr} {w : Nat} (hwf : i.wf = true) (h : encodeS i = some w) :
    w < 2 ^ 32 ∧ decodeS w = .ok i := by
  unfold encodeS at h
  split at h
  all_goals simp only [Option.some.injEq, sNop_eq_iff, encR_eq_iff, encU_eq_iff, encI_eq_iff, encSh_eq_iff,
    encL_eq_iff, encJ_eq_iff, encCmp_eq_iff, encCmpi_eq_iff, encPl_eq_iff, encEmp_eq_iff, encA_eq_iff, encG_eq_iff,
    encTrap_eq_iff, encJoinm_eq_iff, encSys_eq_iff, SHead, Nat.reduceLT, reduceCtorEq] at h
  all_goals simp [decodeS, decodeSReg, h, -Nat.reducePow]
  all_goals simpa [Instr.wf] using hwf

/-- What the register forms of an S word decode to has that word. -/
theorem encodeS_of_decodeSReg {w : Nat} (hw : w < 2 ^ 32) : Accepts (fun i => encodeS i = some w ∧ i.wf = true)
    (decodeSReg w (nz w 31 1) (fld w 27 4) (fld w 15 6) (fld w 9 6) (fld w 3 6)) := by
  unfold decodeSReg
  split
  all_goals simp only [accepts_ok, accepts_error, accepts_checked, firstBad_cons, nz_eq_false]
  all_goals simp +contextual [encodeS, Instr.wf, SHead, -Nat.reducePow, *]

/-- What an S word decodes to is well formed and has that word: the decoder read the form's fields and its checks found
the others zero. -/
theorem encodeS_of_decodeS {w : Nat} (hw : w < 2 ^ 32) :
    Accepts (fun i => encodeS i = some w ∧ i.wf = true) (decodeS w) := by
  have hm := fldNat_lt w 0 3
  unfold decodeS
  dsimp only
  split
  case h_2 | h_3 | h_4 | h_5 | h_6 | h_7 | h_8 => exact encodeS_of_decodeSReg hw
  all_goals try split
  all_goals simp only [accepts_ok, accepts_error, accepts_checked, List.cons_append, List.nil_append, firstBad_cons, nz_eq_false]
  all_goals simp +contextual [encodeS, Instr.wf, SHead, -Nat.reducePow, *]
  all_goals grind

/-! ## The forms of the X syllable (R50) -/

/-- Guard and opcode of an X word. -/
def XHead (w : Nat) (g : BitVec 4) (op : Nat) : Prop := w < 2 ^ 32 ∧ fld w 28 4 = g ∧ fldNat w 23 5 = op

section
variable {op w : Nat}

/-- A word of the head and 23 bits below it holds the head, and those bits in their fields. -/
theorem encXHead_add_eq_iff {g : BitVec 4} {x : Nat} {P : Prop} (hop : op < 32) (hx : x < 2 ^ 23)
    (h : fldNat w 0 23 = x ↔ P) : encXHead g op + x = w ↔ XHead w g op ∧ P := by
  rw [← h]
  simp only [XHead, fld_eq_iff, fldNat, encXHead]
  exact ⟨by rintro rfl; omega, by omega⟩

@[simp] theorem encXR_eq_iff {f : XR} (h : op < 32) : encXR f op = w ↔
    XHead w f.g op ∧ fld w 18 5 = f.d ∧ fld w 13 5 = f.a ∧ fld w 8 5 = f.b ∧ fld w 0 8 = 0#8 := by
  simp only [encXR, Nat.add_assoc]
  refine encXHead_add_eq_iff h (by omega) ?_
  simp only [fld_eq_iff, BitVec.toNat_zero, fldNat]
  omega

@[simp] theorem encXU_eq_iff {f : XU} (h : op < 32) : encXU f op = w ↔
    XHead w f.g op ∧ fld w 18 5 = f.d ∧ fld w 13 5 = f.a ∧ fld w 8 5 = 0#5 ∧ fld w 0 8 = 0#8 := by
  simp only [encXU, Nat.add_assoc]
  refine encXHead_add_eq_iff h (by omega) ?_
  simp only [fld_eq_iff, BitVec.toNat_zero, fldNat]
  omega

@[simp] theorem encXN_eq_iff {f : XN} {sub : Nat} (h : op < 32) (hs : sub < 4) : encXN f op sub = w ↔
    XHead w f.g op ∧ fld w 18 5 = f.d ∧ fld w 13 5 = f.a ∧ fld w 8 5 = 0#5 ∧ fldNat w 6 2 = sub ∧ fld w 0 6 = f.n := by
  simp only [encXN, Nat.add_assoc]
  refine encXHead_add_eq_iff h (by omega) ?_
  simp only [fld_eq_iff, BitVec.toNat_zero, fldNat]
  omega

@[simp] theorem encXLd_eq_iff {f : XLd} {size : Nat} (h : size < 2) : encXLd f size = w ↔ XHead w f.g 21
    ∧ fld w 18 5 = f.d ∧ fld w 13 5 = f.a ∧ fld w 8 5 = 0#5 ∧ fld w 7 1 = BitVec.ofNat 1 size ∧ fld w 0 7 = f.off := by
  simp only [encXLd, Nat.add_assoc]
  refine encXHead_add_eq_iff (by decide) (by omega) ?_
  simp only [fld_eq_iff, BitVec.toNat_ofNat, fldNat]
  omega

@[simp] theorem encXBst_eq_iff {f : XBst} {size : Nat} (h : size < 4) : encXBst f size = w ↔
    XHead w f.g 20 ∧ fld w 19 4 = f.pair ∧ fld w 18 1 = 0#1 ∧ fld w 13 5 = f.a ∧ fld w 8 5 = f.b ∧ fld w 2 6 = 0#6
      ∧ fldNat w 0 2 = size := by
  simp only [encXBst, Nat.add_assoc]
  refine encXHead_add_eq_iff (by decide) (by omega) ?_
  simp only [fld_eq_iff, BitVec.toNat_zero, fldNat]
  omega

@[simp] theorem encXaddi_eq_iff {f : XI} : encXaddi f = w ↔
    XHead w f.g 3 ∧ fld w 18 5 = f.d ∧ fld w 13 5 = f.a ∧ fld w 8 5 = 0#5 ∧ fld w 0 8 = f.imm := by
  simp only [encXaddi, Nat.add_assoc]
  refine encXHead_add_eq_iff (by decide) (by omega) ?_
  simp only [fld_eq_iff, BitVec.toNat_zero, fldNat]
  omega

@[simp] theorem encXlea_eq_iff {f : XLea} : encXlea f = w ↔
    XHead w f.g 8 ∧ fld w 18 5 = f.d ∧ fld w 13 5 = f.a ∧ fld w 8 5 = f.b ∧ fld w 3 5 = 0#5 ∧ fld w 0 3 = f.n := by
  simp only [encXlea, Nat.add_assoc]
  refine encXHead_add_eq_iff (by decide) (by omega) ?_
  simp only [fld_eq_iff, BitVec.toNat_zero, fldNat]
  omega

@[simp] theorem encXcmp_eq_iff {f : XCmp} : encXcmp f = w ↔
    XHead w f.g 11 ∧ fld w 22 1 = 0#1 ∧ fld w 18 4 = f.p ∧ fld w 13 5 = f.a ∧ fld w 8 5 = f.b ∧ fld w 3 5 = 0#5
      ∧ Cond.ofCode (fldNat w 0 3) = f.c := by
  have := f.c.code_lt
  rw [Cond.ofCode_eq_iff (fldNat_lt w 0 3)]
  simp only [encXcmp, Nat.add_assoc]
  refine encXHead_add_eq_iff (by decide) (by omega) ?_
  simp only [fld_eq_iff, BitVec.toNat_zero, fldNat]
  omega

@[simp] theorem encCadv_eq_iff {f : XCadv} : encCadv f = w ↔
    XHead w f.g 12 ∧ fld w 19 4 = f.pair ∧ fld w 18 1 = 0#1 ∧ fld w 13 5 = f.a ∧ fld w 8 5 = f.b ∧ fld w 4 4 = 0#4
      ∧ fld w 0 4 = f.p := by
  simp only [encCadv, Nat.add_assoc]
  refine encXHead_add_eq_iff (by decide) (by omega) ?_
  simp only [fld_eq_iff, BitVec.toNat_zero, fldNat]
  omega

@[simp] theorem encXclamp_eq_iff {f : XClamp} : encXclamp f = w ↔
    XHead w f.g 18 ∧ fld w 18 5 = f.d ∧ fld w 13 5 = f.a ∧ fld w 8 5 = f.b ∧ fld w 0 8 = f.imm := by
  simp only [encXclamp, Nat.add_assoc]
  refine encXHead_add_eq_iff (by decide) (by omega) ?_
  simp only [fld_eq_iff, fldNat]
  omega

/-- XNOP's word is the one of zero fields. -/
theorem zero_eq_iff : 0 = w ↔ XHead w 0#4 0
    ∧ fld w 18 5 = 0#5 ∧ fld w 13 5 = 0#5 ∧ fld w 8 5 = 0#5 ∧ fld w 0 8 = 0#8 :=
  encXR_eq_iff (f := ⟨0#4, 0#5, 0#5, 0#5⟩) (op := 0) (by decide)

end

/-- The word of a well-formed X syllable has 32 bits and decodes to it. -/
theorem decodeX_of_encodeX {i : Instr} {w : Nat} (hwf : i.wf = true) (h : encodeX i = some w) :
    w < 2 ^ 32 ∧ decodeX w = .ok i := by
  unfold encodeX at h
  split at h
  all_goals simp only [Option.some.injEq, zero_eq_iff, encXR_eq_iff, encXU_eq_iff, encXN_eq_iff, encXLd_eq_iff, encXBst_eq_iff,
    encXaddi_eq_iff, encXlea_eq_iff, encXcmp_eq_iff, encCadv_eq_iff, encXclamp_eq_iff, XHead, Nat.reduceLT, reduceCtorEq] at h
  all_goals simp [decodeX, h, -Nat.reducePow]
  case h_10 | h_11 => simp [fld_eq_iff, h]
  all_goals simpa [Instr.wf] using hwf

/-- What an X word decodes to is well formed and has that word. -/
theorem encodeX_of_decodeX {w : Nat} (hw : w < 2 ^ 32) :
    Accepts (fun i => encodeX i = some w ∧ i.wf = true) (decodeX w) := by
  have hn := fldNat_lt w 6 2
  have hs := fldNat_lt w 0 2
  have hl := fldNat_lt w 7 1
  unfold decodeX
  dsimp only
  split
  all_goals try split
  all_goals simp only [accepts_ok, accepts_error, accepts_checked, List.cons_append, List.nil_append, firstBad_cons, nz_eq_false]
  all_goals simp +contextual [encodeX, Instr.wf, XHead, zero_eq_iff, -Nat.reducePow, *]
  all_goals simp only [nz_eq_true, ne_eq, fld_eq_iff, BitVec.toNat_ofNat] at *
  all_goals grind

/-- Settles O58: form by form, a word has a form exactly when its fields hold what the form says. -/
theorem syllablesSXRoundTrip : Obligations.SyllablesSXRoundTrip :=
  ⟨fun _ _ => decodeS_of_encodeS, fun _ _ => decodeX_of_encodeX, fun i _ hw => encodeS_of_decodeS hw i,
    fun i _ hw => encodeX_of_decodeX hw i⟩

end Sys2Proof
end

section
/-! Encodings (R51 to R59): V and C syllables and micro-operations, by their opcode tables. -/

namespace Sys2Proof

/-! ## The V syllable (R51 to R53) -/

/-- The fields that a V word holds. -/
def VF.ofWord (w : Nat) : VF :=
  ⟨fld w 52 4, fld w 48 4, fld w 39 9, fld w 30 9, fld w 21 9, fld w 12 9, fld w 9 3, nz w 8 1, fld w 4 4, fld w 0 4⟩

/-- The V word of an opcode and fields. -/
def VF.word (op : Nat) (f : VF) : Nat :=
  op * 2 ^ 56 + f.ty.toNat * 2 ^ 52 + f.mask.toNat * 2 ^ 48 + f.d.toNat * 2 ^ 39 + f.a.toNat * 2 ^ 30
    + f.b.toNat * 2 ^ 21 + f.c.toNat * 2 ^ 12 + f.rm.toNat * 2 ^ 9 + f.sat.toNat * 2 ^ 8 + f.g.toNat * 2 ^ 4 + f.sub.toNat

/-- A word of 64 bits is its fields in their places. -/
theorem vWord_eq {w : Nat} (h : w < 2 ^ 64) : w = fldNat w 56 8 * 2 ^ 56 + fldNat w 52 4 * 2 ^ 52
    + fldNat w 48 4 * 2 ^ 48 + fldNat w 39 9 * 2 ^ 39 + fldNat w 30 9 * 2 ^ 30 + fldNat w 21 9 * 2 ^ 21
    + fldNat w 12 9 * 2 ^ 12 + fldNat w 9 3 * 2 ^ 9 + fldNat w 8 1 * 2 ^ 8 + fldNat w 4 4 * 2 ^ 4 + fldNat w 0 4 := by
  have h0 := fldNat_all h
  have h1 := fldNat_add w 0 4 60
  have h2 := fldNat_add w 4 4 56
  have h3 := fldNat_add w 8 1 55
  have h4 := fldNat_add w 9 3 52
  have h5 := fldNat_add w 12 9 43
  have h6 := fldNat_add w 21 9 34
  have h7 := fldNat_add w 30 9 25
  have h8 := fldNat_add w 39 9 16
  have h9 := fldNat_add w 48 4 12
  have h10 := fldNat_add w 52 4 8
  simp only [Nat.reduceAdd] at h1 h2 h3 h4 h5 h6 h7 h8 h9 h10
  omega

theorem VF.word_eq_iff {op w : Nat} {f : VF} (h : op < 256) :
    f.word op = w ↔ w < 2 ^ 64 ∧ fldNat w 56 8 = op ∧ VF.ofWord w = f := by
  obtain ⟨ty, mask, d, a, b, c, rm, sat, g, sub⟩ := f
  have := sat.toNat_lt
  simp only [VF.ofWord, VF.mk.injEq, fld_eq_iff, nz_bit_eq_iff, VF.word]
  constructor
  · rintro rfl
    simp only [fldNat]
    refine ⟨?_, ?_, ?_, ?_, ?_, ?_, ?_, ?_, ?_, ?_, ?_, ?_⟩ <;> omega
  · rintro ⟨hw, hf⟩
    have := vWord_eq hw
    omega

/-- A word of opcode 0 that the checks of VNOP pass is zero. -/
theorem vWord_eq_zero {w : Nat} (hw : w < 2 ^ 64) (h0 : fldNat w 56 8 = 0)
    (h : firstBad [(nz w 52 4, 52), (nz w 48 4, 48), (nz w 39 9, 39), (nz w 30 9, 30), (nz w 21 9, 21), (nz w 12 9, 12),
      (nz w 9 3, 9), (nz w 8 1, 8), (nz w 4 4, 4), (nz w 0 4, 0)] = none) : w = 0 := by
  simp only [firstBad_cons, firstBad_nil, and_true, nz_eq_false, fld_eq_iff, BitVec.toNat_zero] at h
  have := vWord_eq hw
  omega

/-- The decoder's table of V opcodes is the inverse of the encoder's. -/
theorem vInstr?_eq_some {op : Nat} {f : VF} {i : Instr} :
    vInstr? op f = some i ↔ vOpcode i = some (op, f) := by
  constructor <;> intro h
  · unfold vInstr? at h
    split at h <;> cases h <;> rfl
  · unfold vOpcode at h
    split at h <;> cases h <;> rfl

theorem vOpcode_range {op : Nat} {f : VF} {i : Instr} (h : vOpcode i = some (op, f)) : op ≠ 0 ∧ op < 256 := by
  unfold vOpcode at h
  split at h <;> cases h <;> decide

theorem wf_of_vOpcode {op : Nat} {f : VF} {i : Instr} (h : vOpcode i = some (op, f)) :
    i.wf = (firstBad (vChecks i f)).isNone := by
  unfold vOpcode at h
  split at h <;> cases h <;> rfl

theorem decodeV_eq_of_ne_zero {w : Nat} (h : fldNat w 56 8 ≠ 0) : decodeV w =
    match vInstr? (fldNat w 56 8) (VF.ofWord w) with
    | some i => checked (vChecks i (VF.ofWord w)) i
    | none => .error 56 := by
  unfold decodeV
  dsimp only
  split
  · contradiction
  · rfl

theorem encodeV_eq_some {i : Instr} {w : Nat} : encodeV i = some w ↔
    (i = .vNop ∧ w = 0) ∨ ∃ op f, vOpcode i = some (op, f) ∧ f.word op = w := by
  unfold encodeV
  split
  · simp [vOpcode, eq_comm]
  · simp_all [VF.word]

theorem decodeV_of_encodeV {i : Instr} {w : Nat} (hwf : i.wf = true) (h : encodeV i = some w) :
    w < 2 ^ 64 ∧ decodeV w = .ok i := by
  obtain ⟨rfl, rfl⟩ | ⟨op, f, ho, hw⟩ := encodeV_eq_some.1 h
  · decide
  · obtain ⟨h0, hop⟩ := vOpcode_range ho
    rw [wf_of_vOpcode ho, Option.isNone_iff_eq_none] at hwf
    obtain ⟨hlt, rfl, rfl⟩ := (VF.word_eq_iff hop).1 hw
    rw [decodeV_eq_of_ne_zero h0, vInstr?_eq_some.2 ho]
    exact ⟨hlt, checked_eq_ok.2 ⟨hwf, rfl⟩⟩

theorem encodeV_of_decodeV {w : Nat} (hw : w < 2 ^ 64) :
    Accepts (fun i => encodeV i = some w ∧ i.wf = true) (decodeV w) := by
  by_cases h0 : fldNat w 56 8 = 0
  · simp only [decodeV, h0, accepts_checked]
    intro h
    rw [vWord_eq_zero hw h0 h]
    exact ⟨rfl, rfl⟩
  · rw [decodeV_eq_of_ne_zero h0]
    split
    next i hi =>
      have ho := vInstr?_eq_some.1 hi
      rw [accepts_checked, encodeV_eq_some, wf_of_vOpcode ho, Option.isNone_iff_eq_none]
      exact fun hc => ⟨.inr ⟨_, _, ho, (VF.word_eq_iff (fldNat_lt w 56 8)).2 ⟨hw, rfl, rfl⟩⟩, hc⟩
    next => exact accepts_error

/-! ## The C syllable (R54 to R56) -/

/-- The fields that a C word holds. -/
def CF.ofWord (w : Nat) : CF :=
  ⟨fld w 116 4, fld w 108 8, fld w 102 6, fld w 96 6, fld w 90 6, fld w 84 6, fld w 80 4, fld w 76 4, fld w 72 4,
    fld w 64 8, fld w 0 64⟩

/-- The C word of an opcode and fields. -/
def CF.word (op : Nat) (f : CF) : Nat :=
  op * 2 ^ 120 + f.g.toNat * 2 ^ 116 + f.lane.toNat * 2 ^ 108 + f.door.toNat * 2 ^ 102 + f.base.toNat * 2 ^ 96
    + f.pblk.toNat * 2 ^ 90 + f.prom.toNat * 2 ^ 84 + f.ty.toNat * 2 ^ 80 + f.space.toNat * 2 ^ 76
    + f.q.toNat * 2 ^ 72 + f.flags.toNat * 2 ^ 64 + f.imm.toNat

/-- A word of 128 bits is its fields in their places. -/
theorem cWord_eq {w : Nat} (h : w < 2 ^ 128) : w = fldNat w 120 8 * 2 ^ 120 + fldNat w 116 4 * 2 ^ 116
    + fldNat w 108 8 * 2 ^ 108 + fldNat w 102 6 * 2 ^ 102 + fldNat w 96 6 * 2 ^ 96 + fldNat w 90 6 * 2 ^ 90
    + fldNat w 84 6 * 2 ^ 84 + fldNat w 80 4 * 2 ^ 80 + fldNat w 76 4 * 2 ^ 76 + fldNat w 72 4 * 2 ^ 72
    + fldNat w 64 8 * 2 ^ 64 + fldNat w 0 64 := by
  have h0 := fldNat_all h
  have h1 := fldNat_add w 0 64 64
  have h2 := fldNat_add w 64 8 56
  have h3 := fldNat_add w 72 4 52
  have h4 := fldNat_add w 76 4 48
  have h5 := fldNat_add w 80 4 44
  have h6 := fldNat_add w 84 6 38
  have h7 := fldNat_add w 90 6 32
  have h8 := fldNat_add w 96 6 26
  have h9 := fldNat_add w 102 6 20
  have h10 := fldNat_add w 108 8 12
  have h11 := fldNat_add w 116 4 8
  simp only [Nat.reduceAdd] at h1 h2 h3 h4 h5 h6 h7 h8 h9 h10 h11
  omega

theorem CF.word_eq_iff {op w : Nat} {f : CF} (h : op < 256) :
    f.word op = w ↔ w < 2 ^ 128 ∧ fldNat w 120 8 = op ∧ CF.ofWord w = f := by
  obtain ⟨g, lane, door, base, pblk, prom, ty, space, q, flags, imm⟩ := f
  simp only [CF.ofWord, CF.mk.injEq, fld_eq_iff, CF.word]
  constructor
  · rintro rfl
    simp only [fldNat]
    refine ⟨?_, ?_, ?_, ?_, ?_, ?_, ?_, ?_, ?_, ?_, ?_, ?_, ?_⟩ <;> omega
  · rintro ⟨hw, hf⟩
    have := cWord_eq hw
    omega

/-- A word of opcode 0 that the checks of CNOP pass is zero. -/
theorem cWord_eq_zero {w : Nat} (hw : w < 2 ^ 128) (h0 : fldNat w 120 8 = 0)
    (h : firstBad [(nz w 116 4, 116), (nz w 108 8, 108), (nz w 102 6, 102), (nz w 96 6, 96), (nz w 90 6, 90),
      (nz w 84 6, 84), (nz w 80 4, 80), (nz w 76 4, 76), (nz w 72 4, 72), (nz w 64 8, 64), (nz w 0 64, 0)] = none) :
    w = 0 := by
  simp only [firstBad_cons, firstBad_nil, and_true, nz_eq_false, fld_eq_iff, BitVec.toNat_zero] at h
  have := cWord_eq hw
  omega

theorem cOpcode_range {op : Nat} {f : CF} {i : Instr} (h : cOpcode i = some (op, f)) : op ≠ 0 ∧ op < 256 := by
  unfold cOpcode at h
  split at h <;> cases h <;> decide

/-- The function of a shootdown is 0. -/
theorem csysShootdown_function {f : CF} (h : firstBad (cChecks (.csysShootdown f) f) = none) : f.imm.toNat % 256 = 0 := by
  simp only [cChecks, cImmChecks, List.cons_append, List.nil_append, firstBad_cons] at h
  simp only [decide_eq_false_iff_not, not_not] at h
  tauto

/-- The decoder finds a C instruction by its opcode, SRUN and CSYS besides by their immediate, which a well-formed one
keeps. -/
theorem cInstr?_eq_some {op : Nat} {f : CF} {i : Instr} :
    cInstr? op f = some i ∧ firstBad (cChecks i f) = none ↔ cOpcode i = some (op, f) ∧ i.wf = true := by
  constructor
  · rintro ⟨h, hc⟩
    unfold cInstr? at h
    split at h
    case h_34 | h_35 =>
      rw [Option.some.injEq] at h
      subst h
      split_ifs at hc ⊢ <;> simp_all [cOpcode, Instr.wf, cWf, noneBad]
    all_goals cases h <;> exact ⟨rfl, Option.isNone_iff_eq_none.2 hc⟩
  · rintro ⟨h, hwf⟩
    unfold cOpcode at h
    split at h
    case h_34 | h_35 | h_36 | h_37 | h_38 =>
      cases h
      simp only [Instr.wf, cWf, noneBad, Bool.and_eq_true, Option.isNone_iff_eq_none, decide_eq_true_eq] at hwf
      simp_all [cInstr?, csysShootdown_function, -Nat.reducePow]
    all_goals cases h <;> exact ⟨rfl, Option.isNone_iff_eq_none.1 hwf⟩

theorem decodeC_eq_of_ne_zero {w : Nat} (h : fldNat w 120 8 ≠ 0) : decodeC w =
    match cInstr? (fldNat w 120 8) (CF.ofWord w) with
    | some i => checked (cChecks i (CF.ofWord w)) i
    | none => .error 120 := by
  unfold decodeC
  dsimp only
  split
  · contradiction
  · rfl

theorem encodeC_eq_some {i : Instr} {w : Nat} : encodeC i = some w ↔
    (i = .cNop ∧ w = 0) ∨ ∃ op f, cOpcode i = some (op, f) ∧ f.word op = w := by
  unfold encodeC
  split
  · simp [cOpcode, eq_comm]
  · simp_all [CF.word]

theorem decodeC_of_encodeC {i : Instr} {w : Nat} (hwf : i.wf = true) (h : encodeC i = some w) :
    w < 2 ^ 128 ∧ decodeC w = .ok i := by
  obtain ⟨rfl, rfl⟩ | ⟨op, f, ho, hw⟩ := encodeC_eq_some.1 h
  · decide
  · obtain ⟨h0, hop⟩ := cOpcode_range ho
    obtain ⟨hi, hc⟩ := cInstr?_eq_some.2 ⟨ho, hwf⟩
    obtain ⟨hlt, rfl, rfl⟩ := (CF.word_eq_iff hop).1 hw
    rw [decodeC_eq_of_ne_zero h0, hi]
    exact ⟨hlt, checked_eq_ok.2 ⟨hc, rfl⟩⟩

theorem encodeC_of_decodeC {w : Nat} (hw : w < 2 ^ 128) :
    Accepts (fun i => encodeC i = some w ∧ i.wf = true) (decodeC w) := by
  by_cases h0 : fldNat w 120 8 = 0
  · simp only [decodeC, h0, accepts_checked]
    intro h
    rw [cWord_eq_zero hw h0 h]
    exact ⟨rfl, rfl⟩
  · rw [decodeC_eq_of_ne_zero h0]
    split
    next i hi =>
      rw [accepts_checked, encodeC_eq_some]
      intro hc
      obtain ⟨ho, hwf⟩ := cInstr?_eq_some.1 ⟨hi, hc⟩
      exact ⟨.inr ⟨_, _, ho, (CF.word_eq_iff (fldNat_lt w 120 8)).2 ⟨hw, rfl, rfl⟩⟩, hwf⟩
    next => exact accepts_error

/-- Settles O59: a word is its opcode and its fields, and the opcode tables of decoder and encoder are inverse. -/
theorem syllablesVCRoundTrip : Obligations.SyllablesVCRoundTrip :=
  ⟨fun _ _ => decodeV_of_encodeV, fun _ _ => decodeC_of_encodeC, fun i _ hw => encodeV_of_decodeV hw i,
    fun i _ hw => encodeC_of_decodeC hw i⟩

/-! ## The T micro-operation (R59) -/

/-- The fields that a T word holds. -/
def TF.ofWord (w : Nat) : TF := ⟨fld w 22 5, fld w 17 5, fld w 12 5, fld w 0 12⟩

/-- The T word of an opcode and fields. -/
def TF.word (op : Nat) (f : TF) : Nat :=
  op * 2 ^ 27 + f.d.toNat * 2 ^ 22 + f.a.toNat * 2 ^ 17 + f.b.toNat * 2 ^ 12 + f.p.toNat

theorem TF.word_eq_iff {op w : Nat} {f : TF} (h : op < 32) :
    f.word op = w ↔ w < 2 ^ 32 ∧ fldNat w 27 5 = op ∧ TF.ofWord w = f := by
  obtain ⟨d, a, b, p⟩ := f
  simp only [TF.ofWord, TF.mk.injEq, fld_eq_iff, fldNat, TF.word]
  exact ⟨by rintro rfl; omega, by omega⟩

/-- A word of opcode 0 that the checks of TNOP pass is zero. -/
theorem tWord_eq_zero {w : Nat} (hw : w < 2 ^ 32) (h0 : fldNat w 27 5 = 0)
    (h : firstBad [(nz w 22 5, 22), (nz w 17 5, 17), (nz w 12 5, 12), (nz w 0 12, 0)] = none) : w = 0 := by
  simp only [firstBad_cons, firstBad_nil, and_true, nz_eq_false, fld_eq_iff, BitVec.toNat_zero, fldNat] at h h0
  omega

theorem tOpcode_range {op : Nat} {f : TF} {i : Instr} (h : tOpcode i = some (op, f)) : op ≠ 0 ∧ op < 32 := by
  unfold tOpcode at h
  split at h <;> cases h <;> decide

/-- The decoder finds a T micro-operation by its opcode, MERGE besides by its parameter, which a well-formed one keeps. -/
theorem tInstr?_eq_some {op : Nat} {f : TF} {i : Instr} :
    tInstr? op f = some i ∧ firstBad (tChecks i f) = none ↔ tOpcode i = some (op, f) ∧ i.wf = true := by
  constructor
  · rintro ⟨h, hc⟩
    unfold tInstr? at h
    split at h
    case h_16 =>
      cases h
      split_ifs at hc ⊢ <;> simp_all [tOpcode, Instr.wf, tWf, noneBad]
    all_goals cases h <;> exact ⟨rfl, Option.isNone_iff_eq_none.2 hc⟩
  · rintro ⟨h, hwf⟩
    unfold tOpcode at h
    split at h
    case h_16 | h_17 =>
      cases h
      simp_all [Instr.wf, tWf, noneBad, tInstr?]
    all_goals cases h <;> exact ⟨rfl, Option.isNone_iff_eq_none.1 hwf⟩

theorem decodeT_eq_of_ne_zero {w : Nat} (h : fldNat w 27 5 ≠ 0) : decodeT w =
    match tInstr? (fldNat w 27 5) (TF.ofWord w) with
    | some i => checked (tChecks i (TF.ofWord w)) i
    | none => .error 27 := by
  unfold decodeT
  dsimp only
  split
  · contradiction
  · rfl

theorem encodeT_eq_some {i : Instr} {w : Nat} : encodeT i = some w ↔
    (i = .tNop ∧ w = 0) ∨ ∃ op f, tOpcode i = some (op, f) ∧ f.word op = w := by
  unfold encodeT
  split
  · simp [tOpcode, eq_comm]
  · simp_all [TF.word]

theorem decodeT_of_encodeT {i : Instr} {w : Nat} (hwf : i.wf = true) (h : encodeT i = some w) :
    w < 2 ^ 32 ∧ decodeT w = .ok i := by
  obtain ⟨rfl, rfl⟩ | ⟨op, f, ho, hw⟩ := encodeT_eq_some.1 h
  · decide
  · obtain ⟨h0, hop⟩ := tOpcode_range ho
    obtain ⟨hi, hc⟩ := tInstr?_eq_some.2 ⟨ho, hwf⟩
    obtain ⟨hlt, rfl, rfl⟩ := (TF.word_eq_iff hop).1 hw
    rw [decodeT_eq_of_ne_zero h0, hi]
    exact ⟨hlt, checked_eq_ok.2 ⟨hc, rfl⟩⟩

theorem encodeT_of_decodeT {w : Nat} (hw : w < 2 ^ 32) :
    Accepts (fun i => encodeT i = some w ∧ i.wf = true) (decodeT w) := by
  by_cases h0 : fldNat w 27 5 = 0
  · simp only [decodeT, h0, accepts_checked]
    intro h
    rw [tWord_eq_zero hw h0 h]
    exact ⟨rfl, rfl⟩
  · rw [decodeT_eq_of_ne_zero h0]
    split
    next i hi =>
      rw [accepts_checked, encodeT_eq_some]
      intro hc
      obtain ⟨ho, hwf⟩ := tInstr?_eq_some.1 ⟨hi, hc⟩
      exact ⟨.inr ⟨_, _, ho, (TF.word_eq_iff (fldNat_lt w 27 5)).2 ⟨hw, rfl, rfl⟩⟩, hwf⟩
    next => exact accepts_error

/-! ## The A and M micro-operations (R57) -/

/-- The fields that an A or M word holds. -/
def AM.ofWord (w : Nat) : AM := ⟨fld w 24 8, fld w 20 4, fld w 15 5, fld w 10 5, fld w 5 5, fld w 0 5⟩

/-- The A or M word of fields. -/
def AM.word (f : AM) : Nat :=
  f.op.toNat * 2 ^ 24 + f.ty.toNat * 2 ^ 20 + f.d.toNat * 2 ^ 15 + f.a.toNat * 2 ^ 10 + f.b.toNat * 2 ^ 5 + f.c.toNat

theorem AM.word_eq_iff {w : Nat} {f : AM} : f.word = w ↔ w < 2 ^ 32 ∧ AM.ofWord w = f := by
  obtain ⟨op, ty, d, a, b, c⟩ := f
  simp only [AM.ofWord, AM.mk.injEq, fld_eq_iff, fldNat, AM.word]
  exact ⟨by rintro rfl; omega, by omega⟩

/-- The instruction of an A (isM false) or M word. -/
def AM.instr (isM : Bool) (f : AM) : Instr :=
  if f.op = 0x4A then .peDotStep f else if isM then .peElementwiseM f else .peElementwiseA f

theorem decodeAM_of_noneBad {isM : Bool} {w : Nat} (hw : w ≠ 0) (h : firstBad (amChecks isM (AM.ofWord w)) = none) :
    decodeAM isM w = .ok (some ((AM.ofWord w).instr isM)) := by
  unfold decodeAM
  rw [if_neg hw]
  unfold AM.ofWord at h
  simp only [h]
  rfl

/-- Fields that the checks pass have an opcode of the unit. -/
theorem amTypes_of_noneBad {isM : Bool} {f : AM} (h : firstBad (amChecks isM f) = none) :
    amTypes isM f.op.toNat ≠ none := by
  intro h0
  rw [amChecks, firstBad_cons, h0] at h
  cases h.1

/-- The word of fields that the checks pass decodes to them: it is not the NOP, whose opcode is no opcode of the unit. -/
theorem decodeAM_word {isM : Bool} {f : AM} {w : Nat} (h : firstBad (amChecks isM f) = none) (hw : f.word = w) :
    w < 2 ^ 32 ∧ decodeAM isM w = .ok (some (f.instr isM)) := by
  obtain ⟨hlt, rfl⟩ := AM.word_eq_iff.1 hw
  refine ⟨hlt, decodeAM_of_noneBad ?_ h⟩
  rintro rfl
  exact amTypes_of_noneBad h (by cases isM <;> rfl)

/-- Fields that the checks of the A unit pass are no dot step. -/
theorem instr_false_of_noneBad {f : AM} (h : firstBad (amChecks false f) = none) : f.instr false = .peElementwiseA f := by
  refine if_neg fun h0 => amTypes_of_noneBad h ?_
  rw [h0]
  rfl

/-- Settles O60: T words by the opcode table and its inverse, A and M words by the fields that the checks pass. -/
theorem microOpsRoundTrip : Obligations.MicroOpsRoundTrip := by
  unfold Obligations.MicroOpsRoundTrip
  refine ⟨fun _ _ => decodeT_of_encodeT, fun i _ hw => encodeT_of_decodeT hw i, fun f w hwf h => ?_, fun f w hwf h => ?_,
    fun f w hwf h => ?_⟩
  · have hc := Option.isNone_iff_eq_none.1 hwf
    rw [← instr_false_of_noneBad hc]
    exact decodeAM_word hc (Option.some.inj h)
  · simp only [Instr.wf, noneBad, Bool.and_eq_true, Option.isNone_iff_eq_none, bne_iff_ne] at hwf
    rw [show Instr.peElementwiseM f = f.instr true from (if_neg hwf.2).symm]
    exact decodeAM_word hwf.1 (Option.some.inj h)
  · simp only [Instr.wf, noneBad, Bool.and_eq_true, Option.isNone_iff_eq_none, beq_iff_eq] at hwf
    rw [show Instr.peDotStep f = f.instr true from (if_pos hwf.2).symm]
    exact decodeAM_word hwf.1 (Option.some.inj h)

/-- Settles O57: each word decodes by its fields. -/
theorem wordsDecode : Obligations.WordsDecode := ⟨by decide, by decide, by decide, by decide, by decide, by decide, by decide⟩

end Sys2Proof
end

section
/-! Lanes and mask bits of the V slot (R70, R154, R155, R157): what a fold over lanes leaves in each lane, each bit and the
flags; then the compares and the moves (R157, R160 to R162). -/

namespace Sys2Proof.Machine

/-! ## Folds over lanes -/

section
variable (w : Nat) (on : Nat → Bool) (f : Nat → Nat × FlagBits) (i n : Nat)

theorem laneFold_fst_succ : (laneFold w on f i (n + 1)).1
    = (if on i then (f i).1 % 2 ^ w else 0) + 2 ^ w * (laneFold w on f (i + 1) n).1 := by
  simp only [laneFold]
  split <;> simp

theorem laneFold_snd_succ : (laneFold w on f i (n + 1)).2
    = (if on i then (f i).2 else 0) ||| (laneFold w on f (i + 1) n).2 := by
  simp only [laneFold]
  split <;> simp

/-- One lane of a fold is below 2^w. -/
theorem lane_lt : (if on i then (f i).1 % 2 ^ w else 0) < 2 ^ w := by
  have := Nat.two_pow_pos w
  split
  · exact Nat.mod_lt _ this
  · exact this

theorem laneFold_lt : (laneFold w on f i n).1 < 2 ^ (w * n) := by
  induction n generalizing i with
  | zero => simp [laneFold]
  | succ n ih =>
    rw [laneFold_fst_succ, Nat.mul_succ, Nat.add_comm (w * n), Nat.pow_add]
    have := lane_lt w on f i
    calc _ < 2 ^ w * ((laneFold w on f (i + 1) n).1 + 1) := by rw [Nat.mul_succ]; omega
      _ ≤ _ := Nat.mul_le_mul_left _ (ih (i + 1))

/-- Lane j of a fold is what the lane function gives where the lane is on, and zero elsewhere. -/
theorem laneFold_lane {j : Nat} (h : j < n) : (laneFold w on f i n).1 / 2 ^ (w * j) % 2 ^ w
    = if on (i + j) then (f (i + j)).1 % 2 ^ w else 0 := by
  induction n generalizing i j with
  | zero => omega
  | succ n ih =>
    rw [laneFold_fst_succ]
    have hl := lane_lt w on f i
    cases j with
    | zero => rw [Nat.mul_zero, Nat.pow_zero, Nat.div_one, Nat.add_mul_mod_self_left, Nat.mod_eq_of_lt hl, Nat.add_zero]
    | succ j =>
      rw [Nat.mul_succ, Nat.add_comm (w * j), Nat.pow_add, ← Nat.div_div_eq_div_mul,
        Nat.add_mul_div_left _ _ (Nat.two_pow_pos w), Nat.div_eq_of_lt hl, Nat.zero_add, ih (i + 1) (by omega),
        Nat.add_assoc, Nat.add_comm 1 j]

/-- A fold raises the flags of the lanes that are on. -/
theorem laneFold_flags (b : Nat) : (laneFold w on f i n).2.getLsbD b = true
    ↔ ∃ j < n, on (i + j) = true ∧ (f (i + j)).2.getLsbD b = true := by
  induction n generalizing i with
  | zero => simp [laneFold]
  | succ n ih =>
    rw [laneFold_snd_succ, BitVec.getLsbD_or, Bool.or_eq_true, ih, Nat.exists_lt_succ_left]
    refine or_congr ?_ (exists_congr fun j => ?_)
    · cases on i <;> simp
    · rw [Nat.add_right_comm, Nat.add_assoc]

end

/-- The bits of the lanes that are on are a fold of lanes of ones. -/
theorem laneBits_eq_laneFold (w : Nat) (on : Nat → Bool) (i n : Nat) :
    laneBits w on i n = (laneFold w on (fun _ => (2 ^ w - 1, 0)) i n).1 := by
  induction n generalizing i with
  | zero => rfl
  | succ n ih =>
    rw [laneBits, ih, laneFold_fst_succ, Nat.mod_eq_of_lt (Nat.sub_lt (Nat.two_pow_pos w) one_pos)]

theorem ElemType.bits_mul_lanes (t : ElemType) : ElemType.bits t * ElemType.lanes t = 512 := by cases t <;> rfl

/-- A lane of a line that a fold fills. -/
theorem elem_laneFold (t : ElemType) (on : Nat → Bool) (f : Nat → Nat × FlagBits) {j : Nat} (h : j < ElemType.lanes t) :
    elem (ElemType.bits t) (BitVec.ofNat 512 (laneFold (ElemType.bits t) on f 0 (ElemType.lanes t)).1) j
      = if on j then (f j).1 % 2 ^ ElemType.bits t else 0 := by
  have hlt := laneFold_lt (ElemType.bits t) on f 0 (ElemType.lanes t)
  rw [ElemType.bits_mul_lanes] at hlt
  rw [elem, BitVec.toNat_ofNat, Nat.mod_eq_of_lt hlt, laneFold_lane _ _ _ _ _ h, Nat.zero_add]

theorem elem_laneMask (t : ElemType) (m : Word) {j : Nat} (h : j < ElemType.lanes t) :
    elem (ElemType.bits t) (laneMask t m) j
      = if maskBit m (ElemType.lanes t) j then 2 ^ ElemType.bits t - 1 else 0 := by
  rw [laneMask, laneBits_eq_laneFold, elem_laneFold t _ _ h,
    Nat.mod_eq_of_lt (Nat.sub_lt (Nat.two_pow_pos _) one_pos)]

/-- Bit k of element j. -/
theorem testBit_elem (w : Nat) (v : Line) (j k : Nat) :
    (elem w v j).testBit k = (decide (k < w) && v.getLsbD (w * j + k)) := by
  rw [elem, Nat.testBit_mod_two_pow, Nat.testBit_div_two_pow, BitVec.testBit_toNat, Nat.add_comm]

/-- Each lane of a line chosen by the mask of two lines is that of the one or of the other. -/
theorem elem_select (t : ElemType) (m : Word) (a b : Line) {j : Nat} (h : j < ElemType.lanes t) :
    elem (ElemType.bits t) ((a &&& laneMask t m) ||| (b &&& ~~~(laneMask t m))) j
      = if maskBit m (ElemType.lanes t) j then elem (ElemType.bits t) a j else elem (ElemType.bits t) b j := by
  refine Nat.eq_of_testBit_eq fun k => ?_
  have hm := congrArg (Nat.testBit · k) (elem_laneMask t m h)
  simp only [testBit_elem] at hm
  by_cases hk : k < ElemType.bits t
  · have hp : ElemType.bits t * j + k < 512 := by
      have := Nat.mul_le_mul_left (ElemType.bits t) h
      rw [ElemType.bits_mul_lanes, Nat.mul_succ] at this
      omega
    split at hm <;> simp_all [testBit_elem, Nat.testBit_two_pow_sub_one]
  · split <;> simp [testBit_elem, hk]

/-! ## Folds over mask bits -/

/-- Bit j of a mask result is the outcome of lane j. -/
theorem maskFold_testBit (f : Nat → Bool × FlagBits) (i n j : Nat) :
    (maskFold f i n).1.testBit j = (decide (j < n) && (f (i + j)).1) := by
  induction n generalizing i j with
  | zero => simp [maskFold]
  | succ n ih =>
    simp only [maskFold]
    cases j with
    | zero => cases (f i).1 <;> simp [Nat.testBit_zero]
    | succ j =>
      have hd : ((if (f i).1 = true then 1 else 0) + 2 * (maskFold f (i + 1) n).1) / 2 = (maskFold f (i + 1) n).1 := by
        split <;> omega
      rw [Nat.testBit_succ, hd, ih, Nat.add_right_comm, Nat.add_assoc]
      simp

theorem maskFold_flags (f : Nat → Bool × FlagBits) (i n b : Nat) :
    (maskFold f i n).2.getLsbD b = true ↔ ∃ j < n, (f (i + j)).2.getLsbD b = true := by
  induction n generalizing i with
  | zero => simp [maskFold]
  | succ n ih =>
    simp only [maskFold, BitVec.getLsbD_or, Bool.or_eq_true, ih, Nat.exists_lt_succ_left, Nat.add_zero]
    refine or_congr_right (exists_congr fun j => ?_)
    rw [Nat.add_right_comm, Nat.add_assoc]

/-! ## V syllables that nothing hinders -/

section
variable {i : Instr} {s : State} {f : VF}

theorem UnhinderedV.runs {srcs dsts : List Reg} (h : UnhinderedV s f srcs dsts) (body : State → State) :
    s.vsyl f srcs dsts body = body s :=
  vsyl_runs s f srcs dsts body h.free.guardFree h.free.dstsFree h.free.guardTrue h.free.srcsFree h.free.clean h.row0

theorem writesLanes_of_putLanes {t : ElemType} {lat : Nat} {rounds : Bool} {g : Nat → Nat × FlagBits}
    (h : exec i s = .next (s.putLanes f t lat rounds g)) : WritesLanes i s f t lat rounds g := by
  refine ⟨_, _, h, fun j hj hon => ?_, fun b => ?_⟩
  · rw [elem_laneFold t _ _ hj, if_pos hon]
  · simpa using laneFold_flags _ _ g 0 (ElemType.lanes t) b

/-- A compare writes the outcomes of the lanes whose mask bit is 1. -/
theorem writesMask_of_vcompare {lat : Nat} {cmp : Nat → Nat → Bool × FlagBits}
    (hu : UnhinderedV s f [s.regV f.a, s.regV f.b] [s.regM f.d.toNat]) (h : exec i s = .next (s.vcompare f lat cmp)) :
    WritesMask i s f lat fun j => cmp (elA s f j) (elB s f j) := by
  rw [State.vcompare, hu.runs] at h
  refine ⟨_, _, h, fun j hj => ?_, fun b => ?_⟩
  · rw [BitVec.getLsbD_ofNat, maskFold_testBit, Nat.zero_add, decide_eq_true hj, Bool.true_and, Bool.and_assoc]
    cases (s.vmask f).getLsbD j <;> rfl
  · rw [maskFold_flags]
    refine exists_congr fun j => and_congr_right fun _ => ?_
    cases hm : (s.vmask f).getLsbD j <;> simp [hm, elA, elB, vWidth]

end

theorem vectorCompares : Piece.VectorCompares := fun f _ hu =>
  ⟨writesMask_of_vcompare
      (cmp := fun x y => FVal.compare (fcondOf f.sub.toNat) ((fmtOf (vElem f)).decode x) ((fmtOf (vElem f)).decode y)) hu rfl,
    writesMask_of_vcompare (cmp := fun x y => (intCond (vWidth f) (Cond.ofCode f.sub.toNat) x y, 0)) hu rfl⟩

theorem vectorMoves : Piece.VectorMoves := by
  intro f s
  refine ⟨fun hu => ⟨_, congrArg Host.Outcome.next (hu.runs _), fun j hj => elem_select _ _ _ _ hj⟩, fun hu => ⟨?_, ?_⟩,
    fun hu => congrArg Host.Outcome.next (hu.runs _), fun hu => ?_, fun hu => ?_⟩
  · exact writesLanes_of_putLanes (congrArg Host.Outcome.next (hu.runs _))
  · exact congrArg Host.Outcome.next (hu.runs _)
  · exact writesLanes_of_putLanes (congrArg Host.Outcome.next (hu.runs _))
  · exact writesLanes_of_putLanes (congrArg Host.Outcome.next (hu.runs _))

/-- Settles O15, from what the folds over lanes and mask bits leave. -/
theorem vectorComparesAndMoves : Obligations.VectorComparesAndMoves := ⟨vectorCompares, vectorMoves⟩

end Sys2Proof.Machine
end

section
/-! Issue of commands (R217 to R219, R226, R245): what holds an unhindered command, what it traps and what it stages. -/

namespace Sys2Proof.Machine

section
variable {s : State} {g : BitVec 4} {srcs dsts : List Reg}

/-- Only its further rows hold an unhindered syllable. -/
theorem Unhindered.syllableHolds (h : Unhindered s g srcs dsts) (busy : List Hold) :
    s.syllableHolds g srcs dsts busy = busy := by
  unfold State.syllableHolds
  rw [rowOne_free s.c (s.regQ g :: dsts) (by simpa [h.guardFree] using h.dstsFree), rowOne_free s.c srcs h.srcsFree]
  simp [h.guardFree, h.guardTrue]

theorem Unhindered.holds (h : Unhindered s g srcs dsts) (slot : Nat) (b : Hold) (bs : List Hold) (body : State → State) :
    s.syllableIf slot g srcs dsts (b :: bs) body = s.holdAll (b :: bs) := by
  rw [State.syllableIf, h.syllableHolds]

theorem Unhindered.runs (h : Unhindered s g srcs dsts) (slot : Nat) (body : State → State) :
    s.syllableIf slot g srcs dsts [] body = body s :=
  syllableIf_runs s slot g srcs dsts body h.guardFree h.dstsFree h.guardTrue h.srcsFree h.clean

end

/-- The register number that a command keeps of its promise register. -/
theorem promise_eq_some (used : Bool) (x : BitVec 6) (r : Reg) (n : Nat) :
    (if used && x != 0 then (match r with
      | .s k => some k
      | _ => none) else none) = some n ↔ used = true ∧ x ≠ 0 ∧ r = .s n := by
  cases used <;> by_cases hx : x = 0 <;> cases r <;> simp [hx]

/-- A command whose opcode uses the fields of its row enters with them: it waits for a share of the slots and for an entry
of the queue, traps at an absent queue, and is staged with what it reads. -/
theorem enters_of_cissue {i : CF → Instr} {slot base pblk prom queue : Bool}
    (h : ∀ f s, exec (i f) s = .next (s.cissue (i f) f ⟨slot, base, pblk, prom, queue⟩)) :
    Enters i slot base pblk prom queue := by
  intro f s hu share there
  have hshare : (slot && decide (s.c.slotShare ≤ s.slotsHeld s.c)) = true ↔ ¬ share := by
    simp [share]
  have hthere : (queue && s.c.absent f.q.toNat) = true ↔ ¬ there := by
    simp [there]
  rw [h, State.cissue]
  simp only [hshare]
  refine ⟨fun hs hq ht => ?_, fun hs => ?_, fun hs hq => ?_, fun hs hq ht => ?_⟩
  · rw [if_neg (not_not.2 hs), if_neg (Nat.not_le.2 hq), List.append_nil, hu.runs, if_neg (mt hthere.1 (not_not.2 ht))]
    exact ⟨_, rfl, rfl, rfl, rfl, rfl, rfl, by cases slot <;> rfl, rfl, fun n => promise_eq_some prom f.prom (s.regS f.prom) n⟩
  · rw [if_pos hs]
    exact congrArg _ (hu.holds 3 _ _ _)
  · rw [if_neg (not_not.2 hs), if_pos hq]
    exact congrArg _ (hu.holds 3 _ _ _)
  · rw [if_neg (not_not.2 hs), if_neg (Nat.not_le.2 hq), List.append_nil, hu.runs, if_pos (hthere.2 ht)]
    rfl

theorem commandsEnter : Piece.CommandsEnter := by
  unfold Piece.CommandsEnter
  refine ⟨?_, ?_, ?_, ?_, ?_, ?_, ?_, ?_, ?_, ?_, ?_, ?_, ?_, ?_, ?_, ?_, ?_, ?_, ?_, ?_, ?_, ?_, ?_, ?_, ?_, ?_, ?_, ?_,
    ?_, ?_, ?_, ?_, ?_, ?_, ?_, ?_, ?_⟩ <;> exact enters_of_cissue fun _ _ => rfl

theorem konstResult : Piece.KonstResult := fun _ _ hu => congrArg Host.Outcome.next (hu.runs 3 _)

/-- Settles O20: the commands by their issue, which all share, and KONST by its own effect. -/
theorem commandsAndConstants : Obligations.CommandsAndConstants := ⟨commandsEnter, konstResult⟩

end Sys2Proof.Machine
end

section
/-! The step (R41, R63, R96): what a bundle decodes to runs, what fetch answers, and what comes of it in one step. -/

namespace Sys2Proof

/-- The value of bytes is below 2^8 to their number. -/
theorem leBytes_lt (l : List Byte) : leBytes l < 2 ^ (8 * l.length) := by
  induction l with
  | nil => decide
  | cons b r ih =>
    rw [leBytes, List.length_cons, Nat.mul_succ, Nat.pow_add]
    have := b.isLt
    omega

/-- The first n bytes of a list have a value below 2^(8 n). -/
theorem leBytes_take_lt (l : List Byte) (n : Nat) : leBytes (l.take n) < 2 ^ (8 * n) :=
  (leBytes_lt _).trans_le (Nat.pow_le_pow_right two_pos (Nat.mul_le_mul_left _ (List.length_take_le n l)))

theorem checkSyllable_ok {slot : Nat} {r : Except Nat Instr} {seen : List Dest} {x : Instr × List Dest}
    (h : checkSyllable slot r seen = .ok x) : r = .ok x.1 := by
  unfold checkSyllable at h
  split at h
  · cases h
  · split at h <;> cases h
    rfl

/-- The syllables of a decoded bundle are what its words decode to. -/
theorem decodeBundle_ok {w : BundleWords} {b : Bundle} (h : decodeBundle w = .ok b) :
    decodeS w.s = .ok b.s ∧ decodeX w.x = .ok b.x ∧ decodeV w.v = .ok b.v ∧ decodeC w.c = .ok b.c := by
  simp only [decodeBundle, bind, Except.bind, pure, Except.pure] at h
  split at h
  · cases h
  rename_i h0
  split at h
  · cases h
  rename_i h1
  split at h
  · cases h
  rename_i h2
  split at h
  · cases h
  rename_i h3
  cases h
  exact ⟨checkSyllable_ok h0, checkSyllable_ok h1, checkSyllable_ok h2, checkSyllable_ok h3⟩

end Sys2Proof

namespace Sys2Proof.Machine

/-! ## Syllables run -/

/-- An instruction that answers a next state in every state. -/
def Runs (i : Instr) : Prop := ∀ s, ∃ t, exec i s = .next t

theorem runs_of_encodeS {i : Instr} {w : Nat} (h : encodeS i = some w) : Runs i := by
  unfold encodeS at h
  split at h <;> cases h <;> exact fun s => ⟨_, rfl⟩

theorem runs_of_encodeX {i : Instr} {w : Nat} (h : encodeX i = some w) : Runs i := by
  unfold encodeX at h
  split at h <;> cases h <;> exact fun s => ⟨_, rfl⟩

/-- VPUT waits for its door, or runs. -/
theorem runs_vput (f : VF) : Runs (.vput f) := by
  intro s
  change ∃ t, execVput f s = .next t
  unfold execVput
  split <;> exact ⟨_, rfl⟩

theorem runs_of_vOpcode {i : Instr} {op : Nat} {f : VF} (h : vOpcode i = some (op, f)) : Runs i := by
  unfold vOpcode at h
  split at h
  case h_51 f => exact runs_vput f
  all_goals cases h <;> exact fun s => ⟨_, rfl⟩

theorem runs_of_cOpcode {i : Instr} {op : Nat} {f : CF} (h : cOpcode i = some (op, f)) : Runs i := by
  unfold cOpcode at h
  split at h <;> cases h <;> exact fun s => ⟨_, rfl⟩

theorem runs_of_encodeV {i : Instr} {w : Nat} (h : encodeV i = some w) : Runs i := by
  obtain ⟨rfl, -⟩ | ⟨op, f, ho, -⟩ := encodeV_eq_some.1 h
  · exact fun s => ⟨s, rfl⟩
  · exact runs_of_vOpcode ho

theorem runs_of_encodeC {i : Instr} {w : Nat} (h : encodeC i = some w) : Runs i := by
  obtain ⟨rfl, -⟩ | ⟨op, f, ho, -⟩ := encodeC_eq_some.1 h
  · exact fun s => ⟨s, rfl⟩
  · exact runs_of_cOpcode ho

/-- The syllables of a bundle that decodes from bytes run in every state. -/
theorem syllables_next {bytes : List Byte} {b : Bundle} (h : decodeBundle (bundleWords bytes) = .ok b) (s : State) :
    ∃ t, syllables b s = .next t := by
  obtain ⟨h0, h1, h2, h3⟩ := decodeBundle_ok h
  obtain ⟨s1, e1⟩ := runs_of_encodeS (encodeS_of_decodeS (leBytes_take_lt _ 4) _ h0).1 s
  obtain ⟨s2, e2⟩ := runs_of_encodeX (encodeX_of_decodeX (leBytes_take_lt _ 4) _ h1).1 s1
  obtain ⟨s3, e3⟩ := runs_of_encodeV (encodeV_of_decodeV (leBytes_take_lt _ 8) _ h2).1 s2
  obtain ⟨s4, e4⟩ := runs_of_encodeC (encodeC_of_decodeC (leBytes_take_lt _ 16) _ h3).1 s3
  exact ⟨s4, by simp only [syllables, andThen, e1, e2, e3, e4]⟩

/-! ## Fetch -/

/-- The pc stands in a bundle storage of the task (R40). -/
def State.pcThere (s : State) : Prop :=
  space s.c.pc = 2 ∧ zeroBitsOk s.c.pc = true ∧ (s.myTile.regionOf s.c.id.num (wordField s.c.pc 0 23)).isSome = true

/-- The words of the bundle at pc. -/
def State.pcWords (s : State) : BundleWords :=
  bundleWords (s.bytesAt (tileKey s.c.id.tile (wordField s.c.pc 0 23)) 32)

/-- A bundle that fetch answers has been decoded from bytes. -/
theorem decoded_of_fetch {s t : State} {b : Bundle} {rp : Bool} (h : s.fetch = .run t b rp) :
    ∃ bytes, decodeBundle (bundleWords bytes) = .ok b := by
  unfold State.fetch at h
  extract_lets c held sync u pc trap at h
  have htrap (v : State) (x : Trap) : trap v x ≠ .run t b rp := by
    dsimp only [trap]
    clear_value held
    split <;> exact Plan.noConfusion
  clear_value u trap
  split at h
  · exact absurd h (htrap _ _)
  · dsimp only at h
    split at h
    · exact absurd h (htrap _ _)
    · rename_i hb
      split at h
      · exact absurd h (htrap _ _)
      · cases h
        exact ⟨_, hb⟩

section
variable {s : State} (hy : s.c.syncf = none)
include hy

/-- Outside the bundle storage of its task, a pc that nothing holds traps ACCESS. -/
theorem fetch_access (hp : ¬ s.pcThere) (hh : s.standing = []) :
    s.fetch = .idle (s.decideTrap s.c.id ⟨.access, false, s.c.pc, s.c.pc⟩) := by
  have hn : space s.c.pc ≠ 2 ∨ (!zeroBitsOk s.c.pc) = true
      ∨ (s.myTile.regionOf s.c.id.num (wordField s.c.pc 0 23)).isNone = true := by
    simp only [State.pcThere, not_and_or] at hp
    simpa using hp
  unfold State.fetch
  simp only [hy, hh]
  rw [if_pos hn]

variable (ht : s.c.stale = [])
include ht

/-- A bundle that does not decode traps ILLEGAL where nothing holds it. -/
theorem fetch_illegal (hp : s.pcThere) (hh : s.standing = []) {tv : Nat} (hd : decodeBundle s.pcWords = .error tv) :
    s.fetch = .idle (s.decideTrap s.c.id ⟨.illegal, false, BitVec.ofNat 64 tv, s.c.pc⟩) := by
  obtain ⟨h1, h2, h3⟩ := hp
  have h3' := Option.isSome_iff_ne_none.1 h3
  unfold State.pcWords at hd
  unfold State.fetch
  simp [hy, hh, h1, h2, h3', State.fetchBytes, ht, hd]

/-- A bundle that decodes and stands at no breakpoint is run beside the conditions that hold it. -/
theorem fetch_run (hp : s.pcThere) {b : Bundle} (hd : decodeBundle s.pcWords = .ok b)
    (hb : s.c.skip = some s.c.pc ∨ breakUnit s.myTile s.c s.c.pc = none) :
    s.fetch = .run { s with bundle := { pc := s.c.pc, holds := s.standing } } b (restartPoint s.pcWords) := by
  obtain ⟨h1, h2, h3⟩ := hp
  have h3' := Option.isSome_iff_ne_none.1 h3
  have hk : (if s.c.skip = some s.c.pc then none else breakUnit s.myTile s.c s.c.pc) = none := by
    split <;> simp_all
  unfold State.pcWords at hd
  unfold State.fetch
  simp [hy, h1, h2, h3', State.fetchBytes, ht, hd, hk, State.pcWords]

end

/-! ## What precedes the syllables -/

/-- A context that may issue, in handler mode or with no event pending and its budget not reached, past the first bundle of
its firing, fetches. -/
theorem prepare_eq_fetch {s : State} (hi : s.c.canIssue s.clk = true)
    (hm : s.c.sys.hm = true ∨ s.c.events = [] ∧ s.c.budgetCount < s.c.budget) (he : s.c.entry = .done) :
    s.prepare = s.fetch := by
  have ha : s.c.atEntry = false := by simp [Ctx.atEntry, he]
  unfold State.prepare
  obtain hm | ⟨hv, hb⟩ := hm
  · simp [hi, hm, ha]
  · simp [hi, hv, hb, ha]

/-- A context whose bundle waits for its decision makes no bundle ready; it looks ahead, or lets the clk pass. -/
theorem prepare_undecided {s : State} (hu : s.c.undecided ≠ none) :
    (∃ t, s.prepare = .idle t ∧ (t = s ∨ ∃ h, t = s.stalled h))
      ∨ ∃ t b bytes, s.prepare = .look s t b ∧ decodeBundle (bundleWords bytes) = .ok b := by
  obtain ⟨u, hu⟩ := Option.ne_none_iff_exists'.1 hu
  have hi : s.c.canIssue s.clk = false := by simp [Ctx.canIssue, hu]
  unfold State.prepare
  simp only [hi, hu, Bool.not_false, if_true]
  split
  · unfold State.lookAhead
    extract_lets c waiting ahead wait
    have hn : wait = Plan.idle (s.stalled .decision) := rfl
    clear_value ahead wait
    subst hn
    split
    · exact .inl ⟨_, rfl, .inr ⟨_, rfl⟩⟩
    · split
      · rename_i hf
        obtain ⟨bytes, hb⟩ := decoded_of_fetch hf
        exact .inr ⟨_, _, bytes, rfl, hb⟩
      · exact .inl ⟨_, rfl, .inr ⟨_, rfl⟩⟩
      · exact .inl ⟨_, rfl, .inr ⟨_, rfl⟩⟩
  · exact .inl ⟨s, rfl, .inl rfl⟩

/-! ## The choice after a bundle -/

/-- A context of a state is firing, or has halted: its tile has no firing to choose. -/
def State.busyOrHalted (s : State) (k : CtxId) : Prop := ∃ c, s.ctx? k = some c ∧ (c.firing = true ∨ c.halted ≠ none)

theorem chooseAfter_of_busyOrHalted {s : State} {k : CtxId} (h : s.busyOrHalted k) (fired : Bool) :
    chooseAfter k fired s = .next s := by
  obtain ⟨c, hc, hf⟩ := h
  unfold chooseAfter
  rw [if_neg]
  simp only [hc, Option.any_some, Bool.and_eq_true, Bool.not_eq_true', Option.isNone_iff_eq_none, not_and]
  rintro - ⟨-, hn⟩
  obtain hf | hf := hf
  · simp [hf] at hn
  · exact hf

theorem ctx?_self (s : State) : s.ctx? s.c.id = some s.c := if_pos rfl

/-- Where the current context was not firing, or still is, nothing is chosen. -/
theorem chooseAfter_same {s t : State} (hc : t.c.id = s.c.id) (hf : t.c.firing = s.c.firing) :
    chooseAfter s.c.id s.c.firing t = .next t := by
  cases h : s.c.firing
  · rfl
  · exact chooseAfter_of_busyOrHalted ⟨t.c, hc ▸ ctx?_self t, .inl (hf.trans h)⟩ _

theorem haltCtx_busyOrHalted {s : State} {k : CtxId} {c : Ctx} (h : s.ctx? k = some c) (t : Trap) :
    (s.haltCtx k t).busyOrHalted k := by
  unfold State.haltCtx
  rw [h]
  refine ⟨_, ctx?_onCtx _ k _ c ?_ (by exact (ctx?_id h :)), .inr (Option.some_ne_none _)⟩
  rw [trc_ctx?]
  exact h

theorem takeTrap_busyOrHalted {s : State} {k : CtxId} {c : Ctx} (h : s.ctx? k = some c) (hf : c.firing = true) (t : Trap) :
    (s.takeTrap k t).busyOrHalted k := by
  have hid := ctx?_id h
  unfold State.takeTrap
  rw [h]
  dsimp only
  split
  · exact haltCtx_busyOrHalted h _
  split
  · exact haltCtx_busyOrHalted h _
  split
  · exact haltCtx_busyOrHalted h _
  split
  · split
    · exact ⟨_, ctx?_onCtx _ k _ c (by rw [trc_ctx?, h]) hid, .inl hf⟩
    · exact haltCtx_busyOrHalted (ctx?_onCtx _ k _ c (by rw [trc_ctx?, h]) hid) _
  · exact ⟨_, ctx?_onCtx _ k _ c (by rw [trc_ctx?, h]) hid, .inl hf⟩

/-- A decided trap leaves a firing context firing, or halts it. -/
theorem decideTrap_busyOrHalted {s : State} {k : CtxId} {c : Ctx} (h : s.ctx? k = some c) (hf : c.firing = true) (t : Trap) :
    (s.decideTrap k t).busyOrHalted k := by
  have hid := ctx?_id h
  unfold State.decideTrap
  rw [h]
  dsimp only
  split
  · exact takeTrap_busyOrHalted h hf t
  · exact ⟨_, ctx?_onCtx _ k _ c h hid, .inl hf⟩

/-! ## The step -/

section
variable {s t : State} (ha : s.agenda = [])
include ha

/-- With nothing left to do in the clk, a step is the issue of the current context, then one clk. -/
theorem step_of_issue {r : Out} (h : issue s = r) :
    step s = andThen (andThen r (chooseAfter s.c.id s.c.firing)) fun t => .next t.tick.planned := by
  unfold step
  rw [ha]
  subst h
  rfl

theorem step_of_next (h : issue s = .next t) (hc : chooseAfter s.c.id s.c.firing t = .next t) :
    step s = .next t.tick.planned := by
  rw [step_of_issue ha h, andThen, hc, andThen]

theorem step_of_idle (h : s.prepare = .idle t) (hc : chooseAfter s.c.id s.c.firing t = .next t) :
    step s = .next t.tick.planned :=
  step_of_next ha (by rw [issue, h]) hc

/-- A trap of a firing context before its syllables is decided, and the clk passes. -/
theorem step_of_trap {x : Trap} (hf : s.c.firing = true) (h : s.prepare = .idle (s.decideTrap s.c.id x)) :
    step s = .next (s.decideTrap s.c.id x).tick.planned :=
  step_of_idle ha h (chooseAfter_of_busyOrHalted (decideTrap_busyOrHalted (ctx?_self s) hf x) _)

end

theorem firing_of_canIssue {c : Ctx} {now : Nat} (h : c.canIssue now = true) : c.firing = true := by
  simp only [Ctx.canIssue, Bool.and_eq_true] at h
  tauto

theorem step_undecided {s : State} (ha : s.agenda = []) (hu : s.c.undecided ≠ none) :
    ∃ t, step s = .next t.tick.planned ∧ (t = s ∨ ∃ h, t = s.stalled h) := by
  obtain ⟨t, hp, ht⟩ | ⟨t, b, bytes, hp, hb⟩ := prepare_undecided hu
  · refine ⟨t, step_of_idle ha hp (chooseAfter_same ?_ ?_), ht⟩ <;> obtain rfl | ⟨h, rfl⟩ := ht <;> rfl
  · obtain ⟨u, hr⟩ := syllables_next hb t
    have hi : issue s = .next (s.stalled (firstHold .decision u.bundle.holds)) := by rw [issue, hp]; simp only [hr, andThen]
    refine ⟨s.stalled (firstHold .decision u.bundle.holds), ?_, .inr ⟨_, rfl⟩⟩
    exact step_of_next ha hi (chooseAfter_same rfl rfl)

/-- Settles O51, from what fetch answers and what the choice after a bundle leaves. -/
theorem stepRunsTheDecodedBundle : Obligations.StepRunsTheDecodedBundle := by
  intro s
  refine ⟨fun i rest ha => by rw [step, ha], fun ha hi hu => ?_, step_undecided, fun ha hi hm he hy ht => ?_⟩
  · refine step_of_idle ha ?_ (chooseAfter_same rfl rfl)
    simp [State.prepare, hi, hu]
  · have hp := prepare_eq_fetch hi hm he
    have hf := firing_of_canIssue hi
    refine ⟨fun hth b hd hb s1 s2 s3 s4 e1 e2 e3 e4 => ?_, fun hth hh tv hd => ?_, fun hth hh => ?_⟩
    · have hr : issue s = .next (s4.finish (restartPoint s.pcWords)) := by
        rw [issue, hp, fetch_run hy ht hth hd hb]
        simp only [runBundle, syllables, andThen, e1, e2, e3, e4]
      rw [step_of_issue ha hr, andThen, hf]
      rfl
    · exact step_of_trap ha hf (hp.trans (fetch_illegal hy ht hth hh hd))
    · exact step_of_trap ha hf (hp.trans (fetch_access hy hth hh))

/-! ## NOPs (R41) -/

/-- A word whose bits 30:0 are zero holds bit 31 alone. -/
theorem bit31_of_mod_eq_zero {w : Nat} (hm : w % 2 ^ 31 = 0) (hw : w < 2 ^ 32) : (w == 2 ^ 31).toNat * 2 ^ 31 = w := by
  obtain rfl | rfl : w = 0 ∨ w = 2 ^ 31 := by omega
  · rfl
  · rfl

/-- Settles O1: an S NOP is the word of its bit 31, and a NOP runs to the state itself. -/
theorem nopsChangeNothing : Obligations.NopsChangeNothing := by
  refine ⟨rfl, rfl, rfl, fun w hm hw => ?_, fun _ => rfl, fun rp s => ⟨rfl, rfl, rfl, rfl, rfl⟩⟩
  have he : encodeS (.sNop (w == 2 ^ 31)) = some w := congrArg some (bit31_of_mod_eq_zero hm hw)
  exact (decodeS_of_encodeS rfl he).2

end Sys2Proof.Machine
end

section
/-! The results of the V slot in floating point (R79, R82, R91, R92, R154 to R158, R166 to R168): what each shared form of a
lane operation writes, and what a line packed from a list of elements holds; then the operations that round, the sign and
class operations, and the dot products, reductions and scans. -/

namespace Sys2Proof.Machine

/-! ## The shared forms of a lane operation -/

section
variable {i : Instr} {s : State} {f : VF} {lat : Nat}

/-- A V syllable that nothing hinders, and whose effect on the state is a write of lanes, writes those lanes. -/
theorem UnhinderedV.writesLanes {srcs dsts : List Reg} {body : State → State} {t : ElemType} {rounds : Bool}
    {g : Nat → Nat × FlagBits} (hu : UnhinderedV s f srcs dsts) (h : exec i s = .next (s.vsyl f srcs dsts body))
    (hb : body s = s.putLanes f t lat rounds g) : WritesLanes i s f t lat rounds g :=
  writesLanes_of_putLanes (h.trans (congrArg Host.Outcome.next ((hu.runs body).trans hb)))

theorem writesLanes_of_vf2 (op : Fmt → FVal → FVal → Rnd → Nat × FlagBits)
    (hu : UnhinderedV s f [s.regV f.a, s.regV f.b] [s.regV f.d]) (h : exec i s = .next (s.vf2 f lat op)) :
    WritesLanes i s f (vElem f) lat true fun j => op (fmtOf (vElem f)) (valA s f j) (valB s f j) (s.vrnd f j) :=
  hu.writesLanes h rfl

theorem writesLanes_of_vf3 (negP negC : Bool)
    (hu : UnhinderedV s f [s.regV f.a, s.regV f.b, s.regV f.c] [s.regV f.d]) (h : exec i s = .next (s.vf3 f negP negC)) :
    WritesLanes i s f (vElem f) 5 true fun j =>
      (fmtOf (vElem f)).fma (if negP then (valA s f j).negate else valA s f j) (valB s f j)
        (if negC then (valC s f j).negate else valC s f j) (s.vrnd f j) :=
  hu.writesLanes h rfl

theorem writesLanes_of_vf1 (op : Fmt → FVal → Rnd → Nat × FlagBits)
    (hu : UnhinderedV s f [s.regV f.a] [s.regV f.d]) (h : exec i s = .next (s.vf1 f op)) :
    WritesLanes i s f (vElem f) 12 true fun j => op (fmtOf (vElem f)) (valA s f j) (s.vrnd f j) :=
  hu.writesLanes h rfl

theorem writesLanes_of_vbits2 (op : Nat → Nat → Nat × FlagBits)
    (hu : UnhinderedV s f [s.regV f.a, s.regV f.b] [s.regV f.d]) (h : exec i s = .next (s.vbits2 f lat op)) :
    WritesLanes i s f (vElem f) lat false fun j => op (elA s f j) (elB s f j) :=
  hu.writesLanes h rfl

theorem writesLanes_of_vbits1 (op : Nat → Nat)
    (hu : UnhinderedV s f [s.regV f.a] [s.regV f.d]) (h : exec i s = .next (s.vbits1 f lat op)) :
    WritesLanes i s f (vElem f) lat false fun j => (op (elA s f j), 0) :=
  hu.writesLanes h rfl

end

/-! ## Operations that round, sign and class operations -/

/-- Settles O12: each operation is one of the three forms that round, at its own operation of the format. -/
theorem floatLaneResults : Obligations.FloatLaneResults := fun _ _ =>
  ⟨fun hu =>
    ⟨writesLanes_of_vf2 (fun F x y r => F.add x y r) hu rfl,
      writesLanes_of_vf2 (fun F x y r => F.add x y.negate r) hu rfl,
      writesLanes_of_vf2 (fun F x y r => F.mul x y r) hu rfl⟩,
    fun hu =>
      ⟨writesLanes_of_vf3 false false hu rfl, writesLanes_of_vf3 false true hu rfl, writesLanes_of_vf3 true false hu rfl⟩,
    fun hu =>
      ⟨writesLanes_of_vf1 (fun F x r => F.rcp x r) hu rfl, writesLanes_of_vf1 (fun F x r => F.rsq x r) hu rfl,
        writesLanes_of_vf1 (fun F x r => F.sqrt x r) hu rfl, writesLanes_of_vf1 (fun F x r => F.exp2 x r) hu rfl,
        writesLanes_of_vf1 (fun F x r => F.log2 x r) hu rfl⟩⟩

/-- Settles O13: each operation is one of the two forms on patterns, which do not round. -/
theorem signAndClassResults : Obligations.SignAndClassResults := fun f _ =>
  let F := fmtOf (vElem f)
  ⟨fun hu =>
    ⟨writesLanes_of_vbits2 (F.minMax false) hu rfl, writesLanes_of_vbits2 (F.minMax true) hu rfl,
      writesLanes_of_vbits2 (fun x y => (fcpys F x y, 0)) hu rfl⟩,
    fun hu =>
      ⟨writesLanes_of_vbits1 (signOp F (fabs F)) hu rfl, writesLanes_of_vbits1 (signOp F (fneg F)) hu rfl,
        writesLanes_of_vbits1 (fun x => 2 ^ classBit F x) hu rfl⟩⟩

/-! ## Lines packed from a list of elements -/

theorem ofElems_lt (w : Nat) (l : List Nat) : ofElems w l < 2 ^ (w * l.length) := by
  induction l with
  | nil => simp [ofElems]
  | cons e l ih =>
    have he : e % 2 ^ w < 2 ^ w := Nat.mod_lt _ (Nat.two_pow_pos w)
    calc ofElems w (e :: l) < 2 ^ w * (ofElems w l + 1) := by rw [ofElems, Nat.mul_succ]; omega
      _ ≤ 2 ^ w * 2 ^ (w * l.length) := Nat.mul_le_mul_left _ ih
      _ = 2 ^ (w * (e :: l).length) := by rw [← Nat.pow_add, List.length_cons, Nat.mul_succ, Nat.add_comm]

/-- Element j of the packed number is element j of the list, or zero past its end. -/
theorem ofElems_element (w : Nat) (l : List Nat) (j : Nat) :
    ofElems w l / 2 ^ (w * j) % 2 ^ w = (l[j]?).getD 0 % 2 ^ w := by
  induction l generalizing j with
  | nil => simp [ofElems]
  | cons e l ih =>
    cases j with
    | zero => simp [ofElems]
    | succ j =>
      have he : e % 2 ^ w / 2 ^ w = 0 := Nat.div_eq_of_lt (Nat.mod_lt _ (Nat.two_pow_pos w))
      rw [ofElems, Nat.mul_succ, Nat.add_comm (w * j), Nat.pow_add, ← Nat.div_div_eq_div_mul,
        Nat.add_mul_div_left _ _ (Nat.two_pow_pos w), he, Nat.zero_add, ih, List.getElem?_cons_succ]

/-- An element of a line packed from no more elements than it has lanes. -/
theorem elem_ofElems (t : ElemType) {l : List Nat} (h : l.length ≤ ElemType.lanes t) (j : Nat) :
    elem (ElemType.bits t) (BitVec.ofNat 512 (ofElems (ElemType.bits t) l)) j = (l[j]?).getD 0 % 2 ^ ElemType.bits t := by
  have hlt := (ofElems_lt (ElemType.bits t) l).trans_le (Nat.pow_le_pow_right two_pos (Nat.mul_le_mul_left _ h))
  rw [ElemType.bits_mul_lanes] at hlt
  rw [elem, BitVec.toNat_ofNat, Nat.mod_eq_of_lt hlt, ofElems_element]

/-- A scan gives one value for each input. -/
theorem length_scanLanes (node : Nat → Nat → Nat → Nat × FlagBits) (i : Nat) (run : Option Nat) (l : List (Option Nat)) :
    (scanLanes node i run l).1.length = l.length := by
  induction l generalizing i run with
  | nil => rfl
  | cons x l ih => cases x <;> cases run <;> simp [scanLanes, ih]

/-! ## Dot products, reductions and scans -/

/-- The elements of va, each where its mask bit is 1: what VRED and VSCAN take (R91, R92). -/
def maskedLanes (s : State) (f : VF) : List (Option Nat) :=
  (List.range (ElemType.lanes (vElem f))).map fun j =>
    if maskBit (s.vmask f) (ElemType.lanes (vElem f)) j then some (elA s f j) else none

/-- The result and the flags of VRED's tree; none where no lane is on (R91). -/
def vredTree (s : State) (f : VF) : Option Nat × FlagBits :=
  redTree (fun k i x y => redNode (vElem f) (redOf f.sub.toNat) x y (s.vrnd f (64 * k + i))) 8 0 (maskedLanes s f)

section
variable {s : State} {f : VF}

/-- VRED writes the result of its tree into every lane, whatever the mask holds (R167). -/
theorem exec_vred (hu : UnhinderedV s f [s.regV f.a] [s.regV f.d]) :
    exec (.vred f) s = .next ((s.putV f.d (BitVec.ofNat 512 (ofElems (vWidth f) (List.replicate (ElemType.lanes (vElem f))
      ((vredTree s f).1.getD (redEmpty (vElem f) (redOf f.sub.toNat)))))) allBits 10).stageFlags f (vredTree s f).2 true) := by
  refine (congrArg Host.Outcome.next (hu.runs _)).trans ?_
  dsimp only [vredTree, maskedLanes, elA, vWidth]

/-- VSCAN writes its running values into the lanes that are on (R168). -/
theorem exec_vscan (hu : UnhinderedV s f [s.regV f.a] [s.regV f.d]) :
    let scan := scanLanes (fun i x y => redNode (vElem f) (redOf f.sub.toNat) x y (s.vrnd f i)) 0 none (maskedLanes s f)
    exec (.vscan f) s = .next ((s.putV f.d (BitVec.ofNat 512 (ofElems (vWidth f) scan.1))
      (laneMask (vElem f) (s.vmask f)) 10).stageFlags f scan.2 true) :=
  congrArg Host.Outcome.next (hu.runs _)

end

/-- Settles O17: the dot products lane by lane, the reduction as a line of equal elements, the scan as a line of its running
values. -/
theorem dotsAndReductions : Obligations.DotsAndReductions := by
  intro f s
  refine ⟨fun hu => hu.writesLanes rfl rfl, fun hu =>
    ⟨⟨_, _, exec_vred hu, fun j hj => ?_⟩, ⟨_, _, exec_vscan hu, fun j _ _ => ?_⟩⟩⟩
  · rw [vWidth, elem_ofElems _ List.length_replicate.le, List.getElem?_replicate_of_lt hj]
    rfl
  · exact elem_ofElems _ (by rw [length_scanLanes, maskedLanes, List.length_map, List.length_range]) j

end Sys2Proof.Machine
end

section
/-! The S slot's register, immediate, compare, predicate and system-register operations (R48, R111, R118 to R125, R138, R139,
R368): the results of Table 4.9 as arithmetic, and what an unhindered syllable of each shared form leaves. -/

namespace Sys2Proof.Machine

/-! ## Results of Table 4.9 as arithmetic (R118, Table 3.8) -/

section
variable (a b : Word) (n : Nat)

theorem minS_eq : minS a b = if a.toInt < b.toInt then a else b := by simp [minS, BitVec.slt]

theorem maxS_eq : maxS a b = if a.toInt < b.toInt then b else a := by simp [maxS, BitVec.slt]

theorem minU_eq : minU a b = if a.toNat < b.toNat then a else b := by simp [minU, BitVec.ult]

theorem maxU_eq : maxU a b = if a.toNat < b.toNat then b else a := by simp [maxU, BitVec.ult]

theorem shlW_eq : shlW a n = BitVec.ofNat 64 (a.toNat * 2 ^ n) :=
  BitVec.eq_of_toNat_eq (by simp [shlW, Nat.shiftLeft_eq])

/-- A number no greater than a dword is the dword of that number. -/
theorem eq_ofNat_of_le {w x : Word} {m : Nat} (h : w.toNat = m) (hm : m ≤ x.toNat) : w = BitVec.ofNat 64 m :=
  BitVec.eq_of_toNat_eq (by rw [h, BitVec.toNat_ofNat, Nat.mod_eq_of_lt (hm.trans_lt x.isLt)])

theorem shrW_eq : shrW a n = BitVec.ofNat 64 (a.toNat / 2 ^ n) :=
  eq_ofNat_of_le (by rw [shrW, BitVec.toNat_ushiftRight, Nat.shiftRight_eq_div_pow]) (Nat.div_le_self _ _)

theorem sarW_eq : sarW a n = BitVec.ofInt 64 (a.toInt / 2 ^ n) := by
  rw [sarW, BitVec.sshiftRight, Int.shiftRight_eq_div_pow]
  norm_cast

theorem mulW_eq : a * b = BitVec.ofNat 64 (a.toNat * b.toNat) := BitVec.eq_of_toNat_eq (by simp)

theorem divS_eq : divS a b = if b = 0 then -1 else BitVec.ofInt 64 (a.toInt.tdiv b.toInt) :=
  if_congr Iff.rfl rfl (BitVec.eq_of_toInt_eq (by rw [BitVec.toInt_sdiv, BitVec.toInt_ofInt]))

theorem divU_eq : divU a b = if b = 0 then -1 else BitVec.ofNat 64 (a.toNat / b.toNat) :=
  if_congr Iff.rfl rfl (eq_ofNat_of_le BitVec.toNat_udiv (Nat.div_le_self _ _))

theorem remS_eq : remS a b = if b = 0 then a else BitVec.ofInt 64 (a.toInt.tmod b.toInt) := by
  rw [remS, ← BitVec.toInt_srem, BitVec.ofInt_toInt]

theorem remU_eq : remU a b = if b = 0 then a else BitVec.ofNat 64 (a.toNat % b.toNat) :=
  if_congr Iff.rfl rfl (eq_ofNat_of_le BitVec.toNat_umod (Nat.mod_le _ _))

end

/-- The fifteen bits that MOVHI shifts in stand below the old value (R120). -/
theorem movhiW_eq (a : Word) (i : BitVec 15) :
    a * 2 ^ 15 + i.setWidth 64 = BitVec.ofNat 64 (a.toNat * 2 ^ 15 + i.toNat) :=
  BitVec.eq_of_toNat_eq (by simp [BitVec.toNat_add, BitVec.toNat_mul])

/-! ## Bit counts -/

theorem lt_two_pow_bitLen (m : Nat) : m < 2 ^ bitLen m := by
  unfold bitLen
  split
  · omega
  · exact Nat.lt_log2_self

theorem two_pow_le_of_bitLen {m : Nat} (h : 0 < bitLen m) : 2 ^ (bitLen m - 1) ≤ m := by
  unfold bitLen at *
  split at h
  · omega
  · rw [if_neg ‹_›]
    exact Nat.log2_self_le ‹_›

theorem bitLen_le_of_lt {m n : Nat} (h : m < 2 ^ n) : bitLen m ≤ n := by
  unfold bitLen
  split
  · omega
  · exact (Nat.log2_lt ‹_›).2 h

section
variable (a : Word) (i n : Nat)

theorem trailing_le : trailing a i n ≤ n := by
  induction n generalizing i with
  | zero => exact Nat.le_refl 0
  | succ n ih =>
    have := ih (i + 1)
    rw [trailing]
    split <;> omega

/-- The bits that trailing counts are zero. -/
theorem getLsbD_of_lt_trailing {j : Nat} (h : j < trailing a i n) : a.getLsbD (i + j) = false := by
  induction n generalizing i j with
  | zero => simp [trailing] at h
  | succ n ih =>
    rw [trailing] at h
    split at h
    · omega
    · cases j with
      | zero => exact Bool.not_eq_true _ ▸ ‹¬ _›
      | succ j => rw [← ih (i + 1) (j := j) (by omega), Nat.add_right_comm, Nat.add_assoc]

/-- The bit behind them is one, if it is among those looked at. -/
theorem getLsbD_trailing (h : trailing a i n < n) : a.getLsbD (i + trailing a i n) = true := by
  induction n generalizing i with
  | zero => omega
  | succ n ih =>
    rw [trailing] at *
    split at h
    · simp [*]
    · rw [if_neg ‹_›, ← Nat.add_assoc]
      exact ih (i + 1) (by omega)

end

theorem onesOf_eq_countP (x n : Nat) : onesOf x n = (List.range n).countP x.testBit := by
  induction n generalizing x with
  | zero => rfl
  | succ n ih =>
    rw [onesOf, ih, List.range_succ_eq_map, List.countP_cons, List.countP_map, Nat.testBit_zero]
    have hs : x.testBit ∘ Nat.succ = (x / 2).testBit := funext fun j => Nat.testBit_succ x j
    rw [hs, Nat.add_comm]
    congr 1
    obtain h | h := Nat.mod_two_eq_zero_or_one x <;> simp [h]

theorem popcW_eq (a : Word) : popcW a = BitVec.ofNat 64 ((List.range 64).countP a.getLsbD) := by
  rw [popcW, onesOf_eq_countP]
  rfl

/-! ## Unhindered syllables of the S slot -/

section
variable {i : Instr} {s t : State} {g : BitVec 4} {srcs dsts : List Reg} {lat : Nat}

/-- An S syllable that nothing hinders has its own effect. -/
theorem next_of_syllable {body : State → State} (hu : Unhindered s g srcs dsts)
    (h : exec i s = .next (s.syllable 0 g srcs dsts body)) (hb : body s = t) : exec i s = .next t :=
  hb ▸ h.trans (congrArg Host.Outcome.next (hu.runs 0 body))

/-- One that writes a scalar register writes the value that it computes. -/
theorem next_of_putS {d : BitVec 6} {val : State → Word} {r : Word} (hu : Unhindered s g srcs dsts)
    (h : exec i s = .next (s.syllable 0 g srcs dsts fun s => s.putS d (val s) lat)) (hr : val s = r) :
    exec i s = .next (s.putS d r lat) :=
  next_of_syllable hu h (congrArg (s.putS d · lat) hr)

/-- One that writes a predicate writes the truth that it computes. -/
theorem next_of_putQ {d : BitVec 4} {val : State → Bool} {r : Bool} (hu : Unhindered s g srcs dsts)
    (h : exec i s = .next (s.syllable 0 g srcs dsts fun s => s.putQ d (val s) lat)) (hr : val s = r) :
    exec i s = .next (s.putQ d r lat) :=
  next_of_syllable hu h (congrArg (s.putQ d · lat) hr)

end

theorem scalarRegisterResults : Piece.ScalarRegisterResults := fun _ _ hu =>
  ⟨next_of_putS hu rfl rfl, next_of_putS hu rfl rfl, next_of_putS hu rfl rfl, next_of_putS hu rfl rfl, next_of_putS hu rfl rfl,
    next_of_putS hu rfl rfl, next_of_putS hu rfl (minS_eq _ _), next_of_putS hu rfl (maxS_eq _ _),
    next_of_putS hu rfl (minU_eq _ _), next_of_putS hu rfl (maxU_eq _ _), next_of_putS hu rfl (shlW_eq _ _),
    next_of_putS hu rfl (shrW_eq _ _), next_of_putS hu rfl (sarW_eq _ _), next_of_putS hu rfl rfl,
    next_of_putS hu rfl (mulW_eq _ _), next_of_putS hu rfl rfl, next_of_putS hu rfl rfl, next_of_putS hu rfl (divS_eq _ _),
    next_of_putS hu rfl (divU_eq _ _), next_of_putS hu rfl (remS_eq _ _), next_of_putS hu rfl (remU_eq _ _)⟩

theorem bitCountResults : Piece.BitCountResults := by
  intro f s hu a
  have hl : bitLen a.toNat ≤ 64 := bitLen_le_of_lt a.isLt
  refine ⟨⟨64 - bitLen a.toNat, Nat.sub_le _ _, next_of_putS hu rfl rfl, ?_, fun hn => ?_⟩,
    ⟨trailing a 0 64, trailing_le a 0 64, next_of_putS hu rfl rfl, fun j hj => ?_, fun hn => ?_⟩,
    next_of_putS hu rfl (popcW_eq _)⟩
  · rw [Nat.sub_sub_self hl]
    exact lt_two_pow_bitLen _
  · have he : 63 - (64 - bitLen a.toNat) = bitLen a.toNat - 1 := by omega
    rw [he]
    exact two_pow_le_of_bitLen (by omega)
  · simpa using getLsbD_of_lt_trailing a 0 64 hj
  · simpa using getLsbD_trailing a 0 64 hn

theorem scalarImmediateResults : Piece.ScalarImmediateResults :=
  ⟨fun _ _ hu =>
      ⟨next_of_putS hu rfl rfl, next_of_putS hu rfl rfl, next_of_putS hu rfl rfl, next_of_putS hu rfl rfl⟩,
    fun _ _ hu =>
      ⟨next_of_putS hu rfl (shlW_eq _ _), next_of_putS hu rfl (shrW_eq _ _), next_of_putS hu rfl (sarW_eq _ _)⟩,
    fun _ _ hu => next_of_putS hu rfl rfl, fun _ _ hu => next_of_putS hu rfl (movhiW_eq _ _)⟩

/-- Settles O2: the register and immediate forms by their shared effect and the arithmetic of their results, the counts by
the bits that they count. -/
theorem scalarArithmetic : Obligations.ScalarArithmetic :=
  ⟨scalarRegisterResults, bitCountResults, scalarImmediateResults⟩

/-! ## Compares (R48, R121) -/

theorem Cond.holds_eq_conditionOf (c : Cond) (a b : Word) : Cond.holds c a b = conditionOf c.code a b := by
  rw [Bool.eq_iff_iff]
  cases c <;> simp [Cond.holds, Cond.code, conditionOf, BitVec.slt, BitVec.ult]

theorem Cond.holds_ofCode {n : Nat} (h : n < 8) (a b : Word) : Cond.holds (Cond.ofCode n) a b = conditionOf n a b := by
  rw [Cond.holds_eq_conditionOf, ← (Cond.ofCode_eq_iff h).1 rfl]

/-- A fixed register discards what is written to it (R99). -/
theorem Files.read_write_fixed (f : Files) {r : Reg} (h : r.fixed = true) (v m : Line) (o : BitVec 32) (q : Reg) :
    (f.write r v m o).read q = f.read q := by
  unfold Files.write Files.put
  rw [if_pos h]
  cases q <;> rfl

/-- An S syllable that does not decode makes its bundle ILLEGAL, with the lowest bit of the field at fault (R63). -/
theorem decodeBundle_of_decodeS_error {w : BundleWords} {lo : Nat} (h : decodeS w.s = .error lo) :
    decodeBundle w = .error (illegalTval 0 lo) := by
  rw [decodeBundle, h]
  rfl

/-- A CMP whose bits 20:19 are not zero does not decode (R46). -/
theorem decodeS_cmp_reserved {w : Nat} (ho : fldNat w 21 6 = 13) (hb : fldNat w 19 2 ≠ 0) : decodeS w = .error 19 := by
  have hn : nz w 19 2 = true := bne_iff_ne.2 hb
  simp only [decodeS, ho, hn, checked, firstBad, if_true]

/-- Settles O3: the conditions by their codes, the write to q0 as that to a fixed register, the illegal CMP by its field. -/
theorem comparesSetPredicates : Obligations.ComparesSetPredicates := by
  refine ⟨fun f s hu => ?_, fun f s hu => ⟨?_, ?_⟩, fun f v m o r => f.read_write_fixed rfl v m o r, fun w ho hb => ?_⟩
  · exact next_of_putQ hu rfl (Cond.holds_eq_conditionOf _ _ _)
  · exact next_of_putQ hu rfl (Cond.holds_ofCode (by omega) _ _)
  · exact next_of_putQ hu rfl (Cond.holds_ofCode (by omega) _ _)
  · exact decodeBundle_of_decodeS_error (decodeS_cmp_reserved ho hb)

/-! ## Predicates (R122) -/

/-- The names below a rotating range name themselves (Table 4.3). -/
theorem rotName_of_lt {lo n : Nat} (h : n < lo) (size base : Nat) : rotName lo size base n = n :=
  if_neg fun hn => absurd hn.1 (Nat.not_le.2 h)

/-- No name but that of q0 is mapped to q0. -/
theorem rotName_ne_zero {lo n : Nat} (hlo : 0 < lo) (hn : n ≠ 0) (size base : Nat) : rotName lo size base n ≠ 0 := by
  unfold rotName
  split <;> omega

theorem physQ_zero (rrb : Word) : physQ rrb 0 = .q 0 := congrArg Reg.q (rotName_of_lt (by decide) _ _)

theorem physQ_not_fixed (rrb : Word) {n : Nat} (h : n ≠ 0) : (physQ rrb n).fixed = false :=
  beq_eq_false_iff_ne.2 (rotName_ne_zero (by decide) h _ _)

theorem State.regQ_zero (s : State) : s.regQ 0 = .q 0 := physQ_zero _

theorem Files.read_q (f : Files) (n : Nat) : f.read (.q n) = if n = 0 then 1 else if f.q.get false n then 1 else 0 := rfl

theorem State.rdQ_zero (s : State) : s.rdQ 0 = true := by
  rw [State.rdQ, s.regQ_zero, Files.read_q, if_pos rfl]
  simp

theorem State.putQ_zero (s : State) (v : Bool) (lat : Nat) : s.putQ 0 v lat = s := by
  rw [State.putQ, s.regQ_zero]
  rfl

theorem State.putQ_of_ne_zero (s : State) {n : BitVec 4} (h : n ≠ 0) (v : Bool) (lat : Nat) :
    s.putQ n v lat = s.stage (.reg (s.regQ n) (boolVal v) allBits lat) := by
  have hn : n.toNat ≠ 0 := fun e => h (BitVec.eq_of_toNat_eq e)
  exact if_neg (by rw [State.regQ, physQ_not_fixed _ hn]; decide)

/-- Settles O4: PLOG by its shared effect, the predicates by the mapping of their names. -/
theorem predicateLogic : Obligations.PredicateLogic :=
  ⟨fun _ _ =>
      ⟨fun hu => ⟨next_of_putQ hu rfl rfl, next_of_putQ hu rfl rfl,
          next_of_putQ hu rfl (Bool.bne_eq_xor ▸ rfl), next_of_putQ hu rfl rfl⟩,
        fun hu => ⟨next_of_putQ hu rfl rfl, next_of_putQ hu rfl rfl⟩,
        fun hu => ⟨next_of_putQ hu rfl rfl, next_of_putQ hu rfl rfl⟩⟩,
    fun s => ⟨s.rdQ_zero, fun v => s.putQ_zero v 1⟩,
    fun s _ v => ⟨rfl, fun hn => s.putQ_of_ne_zero hn v 1⟩⟩

/-! ## System registers, SYNCF, EXIT, TRAP and TRET (R111, R123 to R125, R138, R139, R368) -/

theorem systemRegisterMoves : Piece.SystemRegisterMoves :=
  ⟨fun _ _ hu => next_of_syllable hu rfl rfl,
    fun _ _ hu => ⟨fun hm => next_of_syllable hu rfl (if_pos hm),
      fun hm => next_of_syllable hu rfl (if_neg (Bool.eq_false_iff.1 hm))⟩⟩

theorem syncfIsStaged : Piece.SyncfIsStaged := fun _ _ hu =>
  ⟨next_of_syllable hu rfl rfl, next_of_syllable hu rfl rfl, next_of_syllable hu rfl rfl⟩

theorem exitTrapAndReturn : Piece.ExitTrapAndReturn :=
  ⟨fun _ _ hu =>
      ⟨fun hm => ⟨next_of_syllable hu rfl (if_neg (Bool.eq_false_iff.1 hm)),
          next_of_syllable hu rfl (if_neg (Bool.eq_false_iff.1 hm))⟩,
        fun hm => ⟨next_of_syllable hu rfl (if_pos hm), next_of_syllable hu rfl (if_pos hm)⟩⟩,
    fun _ _ hu => next_of_syllable hu rfl rfl⟩

/-- Settles O8: each syllable by its own effect, in the mode that chooses it. -/
theorem systemSyllables : Obligations.SystemSyllables := ⟨systemRegisterMoves, syncfIsStaged, exitTrapAndReturn⟩

end Sys2Proof.Machine
end

section
/-! Register writes, interlocked values and bank replies (R103 to R105, R108, R293): what one landing leaves of its context,
and which replies decide a bundle. -/

namespace Sys2Proof.Machine

/-! ## Landings (R103 to R105) -/

/-- Writes that land one after the other change the register files alone. -/
theorem foldl_landOne (l : List PendW) (c : Ctx) :
    l.foldl landOne c = { c with files := l.foldl (fun f q => f.write q.reg q.val q.mask 0) c.files } := by
  induction l generalizing c with
  | nil => rfl
  | cons p l ih => exact ih (landOne c p)

theorem landAt_of_some {c : Ctx} {i : Nat} {p : PendW} (h : c.inflight[i]? = some p) : c.landAt i =
    { c with
      files := ((c.inflight.take (i + 1)).filter fun q => q.reg == p.reg).foldl (fun f q => f.write q.reg q.val q.mask 0) c.files
      inflight := ((c.inflight.take (i + 1)).filter fun q => q.reg != p.reg) ++ c.inflight.drop (i + 1) } := by
  simp only [Ctx.landAt, h, foldl_landOne]

theorem landValue_eq (c : Ctx) (l : Landing) : c.landValue l =
    { c with
      files := l.regs.foldl (fun f r => f.write r.1 r.2.1 r.2.2 l.poison)
        ((c.inflight.filter fun p => (l.regs.map (·.1)).contains p.reg).foldl (fun f q => f.write q.reg q.val q.mask 0) c.files)
      inflight := c.inflight.filter fun p => !(l.regs.map (·.1)).contains p.reg
      claims := c.claims.filter fun q => q.id != l.id } := by
  simp only [Ctx.landValue, Ctx.landEarlier, foldl_landOne]

/-- The last of the first writes of a register up to a place is the one at that place. -/
theorem getLast?_filter_take {l : List PendW} {i : Nat} {p : PendW} (h : l[i]? = some p) :
    ((l.take (i + 1)).filter fun q => q.reg == p.reg).getLast? = some p := by
  rw [List.take_add_one, h]
  simp

/-- The change of one context leaves the memory, and the context is what the change makes of it. -/
theorem next_onCtx {s : State} {k : CtxId} {c d : Ctx} {f : Ctx → Ctx} (h : s.ctx? k = some c) (hf : f c = d) (hd : d.id = c.id) :
    ∃ t, (Host.Outcome.next (s.onCtx k f) : Out) = .next t ∧ SameMemory s t ∧ t.ctx? k = some d :=
  ⟨_, rfl, sameMemory_of_mem (State.onCtx_mem ..), hf ▸ ctx?_onCtx s k f c h (by rw [hf, hd, ctx?_id h])⟩

theorem writesLand : Piece.WritesLand := by
  intro s k i c hc
  refine ⟨fun p hp => ?_, fun l hl he ho => ?_⟩
  · obtain ⟨t, ht, hm, hk⟩ := next_onCtx (f := (·.landAt i)) hc (landAt_of_some hp) rfl
    exact ⟨t, ht, hm, getLast?_filter_take hp, hk⟩
  · have hfree : (decide (s.clk < l.earliest) || (c.landings.take i).any fun p => l.order != 0 && p.order == l.order) = false := by
      simp only [Bool.or_eq_false_iff, decide_eq_false_iff_not, Nat.not_lt, List.any_eq_false]
      refine ⟨he, fun p hp => ?_⟩
      obtain h | h := ho p hp <;> simp [h]
    refine next_onCtx hc ?_ rfl
    simp only [hl, hfree, landValue_eq]
    rfl

/-! ## Replies of banks (R108, R293) -/

/-- A bank refuses a store to a FULL word. -/
theorem onceReply_of_full {s : State} {c : Ctx} {u : Undecided} {a : CoreAcc} {w : Nat × RKind} (hw : w ∈ s.touched c a)
    (hf : s.isFull w.1 = true) : s.onceReply c u a = false := by
  refine List.all_eq_false.2 ⟨w.1, List.mem_map_of_mem hw, ?_⟩
  simp [hf]

/-- With the reply at place i, every store is answered exactly where no other waits for its reply. -/
theorem all_answered_set {l : List (CoreAcc × Option Bool)} {i : Nat} {a : CoreAcc} {r : Bool} :
    (l.set i (a, some r)).all (fun p => p.2.isSome) = true ↔ ∀ j b, j ≠ i → l[j]? ≠ some (b, none) := by
  simp only [List.all_eq_true, List.mem_iff_getElem?, forall_exists_index]
  refine ⟨fun h j b hj hb => ?_, fun h p j hp => ?_⟩
  · have := h (b, none) j (by rw [List.getElem?_set_ne hj.symm, hb])
    cases this
  · obtain rfl | hj := eq_or_ne j i
    · rw [List.getElem?_set] at hp
      split at hp <;> simp_all
      obtain ⟨-, rfl⟩ := hp
      rfl
    · rw [List.getElem?_set_ne hj.symm] at hp
      obtain ⟨b, _ | r⟩ := p
      · exact absurd hp (h j b hj)
      · rfl

theorem bankReplies : Piece.BankReplies := by
  intro s k i c u a hc hu hi hp hh u'
  have he : exec (.bankReply k i) s = if u'.stores.all (fun p => p.2.isSome) then
      .next ((s.onCtx k fun c => { c with undecided := some u' }).decideBundle k c u')
    else .next (s.onCtx k fun c => { c with undecided := some u' }) := by
    simp [exec, execBankReply, hc, hu, hi, hp, hh, u']
  refine ⟨fun w hw hf => onceReply_of_full hw hf, fun ⟨j, hj, b, hb⟩ => ?_, fun h => ?_⟩
  · rw [he, if_neg fun h => all_answered_set.1 h j b hj hb]
    exact next_onCtx hc rfl rfl
  · rw [he, if_pos (all_answered_set.2 h)]

/-- Settles O25: a landing by what it leaves of its context, a reply by whether it is the last. -/
theorem writesAndRepliesLand : Obligations.WritesAndRepliesLand := ⟨writesLand, bankReplies⟩

/-! ## Reset -/

/-- Settles O53: no map of the reset state lists a key. -/
theorem resetState : Obligations.ResetState :=
  ⟨rfl, rfl, rfl, rfl, rfl, rfl, fun _ => ⟨rfl, (by decide : pctlReset.getLsbD 63 = false), BitVec.getLsbD_zero⟩, fun _ _ => ⟨rfl, rfl⟩,
    fun _ => ⟨rfl, rfl, rfl, rfl⟩, fun _ => rfl⟩

end Sys2Proof.Machine
end

section
/-! Every instruction answers a next state (R96, R188, R363): the branches of every meaning end in one. -/

namespace Sys2Proof.Machine

/-- The outcome is a next state: no fault and no refusal. -/
def Out.IsNext : Out → Prop
  | .next _ => True
  | .fault _ | .refused _ => False

theorem Out.IsNext.exists {r : Out} (h : r.IsNext) : ∃ t, r = .next t := by
  cases r with
  | next t => exact ⟨t, rfl⟩
  | fault _ => exact h.elim
  | refused _ => exact h.elim

/-! ## Acts with steps of their own -/

theorem runMicro_isNext (i : Instr) (s : State) : (runMicro i s).IsNext := by
  unfold runMicro
  split <;> trivial

/-- The micro-operations of an entry run one after the other. -/
theorem runEntry_isNext (ops : List Instr) (s : State) : (runEntry ops s).IsNext := by
  induction ops generalizing s with
  | nil => trivial
  | cons i ops ih =>
    obtain ⟨t, ht⟩ := (runMicro_isNext i s).exists
    rw [runEntry, ht]
    exact ih t

/-- A PE passes its entry over, waits, or runs the entry. -/
theorem execPeFiring_isNext (k : CtxId) (h row col : Nat) (s : State) : (execPeFiring k h row col s).IsNext := by
  unfold execPeFiring
  split
  · trivial
  · split
    · trivial
    · extract_lets ops srcs heads closed waitsGrant shuttered skip finished need isTurn m
      obtain ⟨t, ht⟩ := (runEntry_isNext ops { s with micro := some m }).exists
      rw [ht]
      dsimp only
      (repeat' split) <;> trivial

theorem execRegionSilent_isNext (k : CtxId) (h : Nat) (s : State) : (execRegionSilent k h s).IsNext := by
  unfold execRegionSilent
  split
  · trivial
  · extract_lets x s1 mark paused put n s2
    (repeat' split) <;> trivial

/-- A bank performs an access by its kind. -/
theorem execBankAccessPerformed_isNext (k : CtxId) (i : Nat) (s : State) : (execBankAccessPerformed k i s).IsNext := by
  unfold execBankAccessPerformed
  split
  · trivial
  · split
    · trivial
    · rename_i c a _ _
      generalize a.kind = kind
      cases kind <;> dsimp only <;> (repeat' split) <;> trivial

theorem State.arrive_isNext (s : State) (p : Packet) : (s.arrive p).IsNext := by
  unfold State.arrive
  dsimp only
  (repeat' split) <;> trivial

theorem execPacketArrival_isNext (w : Wire) (s : State) : (execPacketArrival w s).IsNext := by
  unfold execPacketArrival
  split
  · unfold execAckArrival
    dsimp only
    split <;> trivial
  · exact s.arrive_isNext _

/-! ## Every instruction -/

/-- A syllable, a micro-operation and many an event answer at once; the other events first look for what they act on and
whether they may, and answer in each case. -/
theorem exec_isNext (i : Instr) (s : State) : Out.IsNext (exec i s) := by
  cases i
  case peFiring k h row col => exact execPeFiring_isNext k h row col s
  case regionSilent k h => exact execRegionSilent_isNext k h s
  case bankAccessPerformed k n => exact execBankAccessPerformed_isNext k n s
  case packetArrival w => exact execPacketArrival_isNext w s
  all_goals
    dsimp only [exec, execVput, execBankReply, execTrapEntry, execHandlerFiringStart, execHaltedContextResume,
      execHaltedTaskEnd, execFiringStart, execBudget, execPcSample, execAtomicPerformed,
      execDeferredReadAnswered, execDeferredReadEntry, execBankRemap, execStreamAccept, execDoorBinding,
      execStreamServiceTurn, execStreamComplete, execRecordWrite, execRingHeadReread, execCopyAccept,
      execCopyTransfer, execCircuitEntryMove, execTemplateFiring, execPostPlaced, execCreditGrant, execGatherBatchEnd,
      execSordAccept, execOrderTokenOpen, execMarkerReachesHead, execSbarSatisfied, execGraphNodeArm,
      execScfgComplete, execPageMove, execLoopBufferFill, execEdgeElementReply, execEdgeFaultFreeze,
      execSectionQuiescent, execSectionStopped, execPeSwitch, execWeightLoadComplete, execRowAdmission,
      execOutputEntryPush, execSmmRetire, execCurrentGrant, execGrantLowering, execLaunchIntake,
      execEffectivePriorityRaise, execTaskPlacement, execTaskStart, execTaskEnd, execLaunchEnd, execSoftPreemption,
      execHardPreemption, execPreemptionDrainEnd, execContextRestore, execPageWalkComplete, execDivertedElementServed,
      execPeriodicRewalk, execUnresolvable, execShootdownComplete, execSpubPublish, execVersionSwitch, execSlotFree,
      execAckArrival, execAckTimer, execRefusedPacketResend, execUnackedPacketResend, execOrderwin,
      execStreamEntryReclaim, execSyncTimeout, execTimeSlotStart, execCollectiveStartTime, execCollectiveChunk,
      execPeerReadRequest, execFirmwareUpload, execLinkRetryFailure, execPartitionEnable, execPartitionDisable,
      execHregWrite, execLqWrite, execWsetWrite, execKownWrite, execHubRegisterWrite, execKeyLoad, execApertureAccess,
      execWalkAnswer, execFaultAnswer, execSpillAnswer, execSaveAnswer, execDispatchAnswer, execPageallocAnswer,
      execSlewClk]
    (repeat' split) <;> trivial

/-- Settles O52, from the branches of every meaning. -/
theorem everyInstructionRuns : Obligations.EveryInstructionRuns := fun i s => (exec_isNext i s).exists

end Sys2Proof.Machine
end

section
/-! What a syllable changes (R96, log 6): nothing but the bundle under issue, to which it adds. -/

namespace Sys2Proof.Machine

/-! ## Bundles that grow -/

/-- A bundle under issue holds all that another holds, in its place, and more behind it. -/
structure Staged.GrowsTo (a b : Staged) : Prop where
  pc : b.pc = a.pc
  holds : a.holds <+: b.holds
  traps : a.traps <+: b.traps
  writes : a.writes <+: b.writes

/-- A state follows another by additions to the bundle under issue alone. -/
def State.Stages (s t : State) : Prop := ∃ b, t = { s with bundle := b } ∧ s.bundle.GrowsTo b

namespace State

@[refl] theorem Stages.refl (s : State) : s.Stages s :=
  ⟨s.bundle, rfl, rfl, List.prefix_rfl, List.prefix_rfl, List.prefix_rfl⟩

theorem Stages.trans {s t u : State} (h : s.Stages t) (h' : t.Stages u) : s.Stages u := by
  obtain ⟨b, rfl, hb⟩ := h
  obtain ⟨d, rfl, hd⟩ := h'
  exact ⟨d, rfl, hd.pc.trans hb.pc, hb.holds.trans hd.holds, hb.traps.trans hd.traps, hb.writes.trans hd.writes⟩

variable (s : State)

theorem Stages.ite {p : Prop} [Decidable p] {s t u : State} (ht : s.Stages t) (hu : s.Stages u) :
    s.Stages (if p then t else u) := by
  split
  · exact ht
  · exact hu

theorem stages_holdAll (hs : List Hold) : s.Stages (s.holdAll hs) :=
  ⟨_, rfl, rfl, List.prefix_append .., List.prefix_rfl, List.prefix_rfl⟩

theorem stages_raise (slot : Nat) (c : Cause) (v : Word) : s.Stages (s.raise slot c v) :=
  ⟨_, rfl, rfl, List.prefix_rfl, List.prefix_append .., List.prefix_rfl⟩

theorem stages_stage (w : BWrite) : s.Stages (s.stage w) :=
  ⟨_, rfl, rfl, List.prefix_rfl, List.prefix_rfl, List.prefix_append ..⟩

theorem stages_stageReg (r : Reg) (v m : Line) (lat : Nat) : s.Stages (s.stageReg r v m lat) :=
  .ite (.refl s) (s.stages_stage _)

theorem stages_putS (n : BitVec 6) (w : Word) (lat : Nat) : s.Stages (s.putS n w lat) := s.stages_stageReg ..

theorem stages_putX (n : BitVec 5) (w : Word) (lat : Nat) : s.Stages (s.putX n w lat) := s.stages_stageReg ..

theorem stages_putQ (n : BitVec 4) (b : Bool) (lat : Nat) : s.Stages (s.putQ n b lat) := s.stages_stageReg ..

theorem stages_putM (n : Nat) (w : Word) (lat : Nat) : s.Stages (s.putM n w lat) := s.stages_stageReg ..

theorem stages_putV (n : BitVec 9) (v m : Line) (lat : Nat) : s.Stages (s.putV n v m lat) := s.stages_stageReg ..

theorem stages_putRowS (n : BitVec 6) (w : Word) (lat : Nat) : s.Stages (s.putRowS n w lat) :=
  .ite (.refl s) (s.stages_stage _)

theorem stages_stageFlags (f : VF) (fl : FlagBits) (rounds : Bool) : s.Stages (s.stageFlags f fl rounds) :=
  .ite (.refl s) (s.stages_stage _)

theorem stages_stagePwb (b : BitVec 8) : s.Stages (s.stagePwb b) := .ite (.refl s) (s.stages_stage _)

theorem stages_putLanes (f : VF) (t : ElemType) (lat : Nat) (rounds : Bool) (g : Nat → Nat × FlagBits) :
    s.Stages (s.putLanes f t lat rounds g) := (s.stages_putV ..).trans (stages_stageFlags ..)

/-! ## Syllables -/

variable {s}

/-- A syllable waits, is guarded off, traps POISON, or has its own effect: it only adds where that does. -/
theorem Stages.syllableIf {slot : Nat} {g : BitVec 4} {srcs dsts : List Reg} {busy : List Hold} {body : State → State}
    (hb : s.Stages (body s)) : s.Stages (s.syllableIf slot g srcs dsts busy body) := by
  obtain ⟨h, hs, e⟩ | ⟨-, e⟩ | ⟨o, -, e⟩ | ⟨-, -, e⟩ := syllableIf_cases s slot g srcs dsts busy body <;> rw [e]
  · exact s.stages_holdAll _
  · exact s.stages_raise ..
  · exact hb

theorem Stages.syllable {slot : Nat} {g : BitVec 4} {srcs dsts : List Reg} {body : State → State} (hb : s.Stages (body s)) :
    s.Stages (s.syllable slot g srcs dsts body) := .syllableIf hb

theorem Stages.vsyl {f : VF} {srcs dsts : List Reg} {body : State → State} (hb : s.Stages (body s)) :
    s.Stages (s.vsyl f srcs dsts body) := .syllableIf hb

variable (s)

theorem stages_load (f : SI) (size : Nat) (signed sync : Bool) (eaOf : Word → Word) :
    s.Stages (s.load f size signed sync eaOf) := by
  refine .syllable ?_
  dsimp only
  split
  · exact s.stages_raise ..
  · exact (s.stages_stagePwb _).trans (stages_stage ..)

theorem stages_store (f : SI) (size : Nat) (full : Bool) : s.Stages (s.store f size full) := by
  refine .syllable ?_
  dsimp only
  split
  · exact s.stages_raise ..
  · exact s.stages_stage _

theorem stages_empty (f : SEmp) : ∃ t, execEmpty f s = .next t ∧ s.Stages t := by
  refine ⟨_, rfl, .syllable ?_⟩
  dsimp only
  split
  · exact s.stages_raise ..
  · exact s.stages_stage _

theorem stages_atomic (g : BitVec 4) (d a : BitVec 6) (srcs : List Reg) (op : BankOp) (size : Nat) (b cmp : State → Word) :
    s.Stages (s.atomic g d a srcs op size b cmp) := by
  refine .syllable ?_
  dsimp only
  split
  · exact s.stages_raise ..
  · exact s.stages_stage _

theorem stages_xld (f : XLd) (size : Nat) : s.Stages (s.xld f size) := by
  refine .syllable ?_
  dsimp only
  split
  · exact s.stages_raise ..
  · exact s.stages_stage _

theorem stages_xbstep (f : XBst) (size : Nat) : s.Stages (s.xbstep f size) := by
  refine .syllable (.ite (.refl s) ?_)
  dsimp only
  split
  · exact s.stages_raise ..
  · split
    · exact s.stages_raise ..
    · exact s.stages_stage _

theorem stages_vload (f : VF) (sync : Bool) : s.Stages (s.vload f sync) := by
  refine .vsyl ?_
  dsimp only
  split
  · exact s.stages_raise ..
  · exact (s.stages_stagePwb _).trans (stages_stage ..)

theorem stages_vstore (f : VF) (full : Bool) : s.Stages (s.vstore f full) := by
  refine .vsyl ?_
  dsimp only
  split
  · exact s.stages_raise ..
  · exact s.stages_stage _

theorem stages_vcompare (f : VF) (lat : Nat) (cmp : Nat → Nat → Bool × FlagBits) : s.Stages (s.vcompare f lat cmp) :=
  .vsyl ((s.stages_putM ..).trans (stages_stageFlags ..))

theorem stages_vint (f : VF) (lat : Nat) (op : Nat → Nat → Nat → Nat) : s.Stages (s.vint f lat op) := by
  unfold State.vint
  exact .vsyl (s.stages_putLanes ..)

theorem stages_cissue (op : Instr) (f : CF) (u : CUse) : s.Stages (s.cissue op f u) := by
  unfold State.cissue
  exact .syllableIf (.ite (s.stages_raise ..) (s.stages_stage _))

/-- LOOP traps PRIV, skips its body or enters it. -/
theorem stages_loop (f : SL) : ∃ t, execLoop f s = .next t ∧ s.Stages t := by
  refine ⟨_, rfl, .syllable (.ite (s.stages_raise ..) ?_)⟩
  dsimp only
  split
  · exact ((s.stages_stage _).trans (stages_stage ..)).trans (stages_stage ..)
  · exact (s.stages_stage _).trans (stages_stage ..)

/-- BRTOP counts LC and EC down where it takes its branch, rotates, and writes the stage predicate. -/
theorem stages_brtop (f : SJ) : ∃ t, execBrtop f s = .next t ∧ s.Stages t := by
  refine ⟨_, rfl, .syllable ?_⟩
  dsimp only
  split
  · split
    · exact ((((s.stages_stage _).trans (stages_stage ..)).trans (stages_stage ..)).trans (stages_stage ..)).trans (stages_stage ..)
    · exact (((s.stages_stage _).trans (stages_stage ..)).trans (stages_stage ..)).trans (stages_stage ..)
  · split
    · exact ((s.stages_stage _).trans (stages_stage ..)).trans (stages_stage ..)
    · exact (s.stages_stage _).trans (stages_stage ..)

/-- CADV writes each cursor that advances, and its predicate. -/
theorem stages_cadv (f : XCadv) : ∃ t, execCadv f s = .next t ∧ s.Stages t := by
  refine ⟨_, rfl, .syllable ?_⟩
  dsimp only
  refine .trans ?_ (stages_putQ ..)
  refine .trans (.ite (.refl s) (s.stages_putX ..)) (.ite (.refl _) (stages_putX ..))

/-- VPUT waits for its door, or pushes its entry. -/
theorem stages_vput (f : VF) : ∃ t, execVput f s = .next t ∧ s.Stages t := by
  unfold execVput
  split
  · exact ⟨_, rfl, s.stages_holdAll _⟩
  · exact ⟨_, rfl, .vsyl (s.stages_stage _)⟩

end State

/-! ## Every syllable -/

/-- A syllable answers a state that follows by additions to the bundle under issue alone. -/
theorem exec_stages {i : Instr} (h : isSyllable i = true) (s : State) : ∃ t, exec i s = .next t ∧ s.Stages t := by
  cases i with
  | sNop _ | xNop | vNop | cNop => exact ⟨_, rfl, .refl s⟩
  | add _ | sub _ | and _ | or _ | xor _ | andn _ | min _ | max _ | minu _ | maxu _ | shl _ | shr _ | sar _ | ror _
  | mul _ | mulh _ | mulhu _ | div _ | divu _ | rem _ | remu _ | clz _ | ctz _ | popc _ | addi _ | andi _ | ori _ | xori _
  | shli _ | shri _ | sari _ | movi _ | movhi _ | mfs _ | xtos _ | konst _ =>
    exact ⟨_, rfl, .syllable (s.stages_putS ..)⟩
  | cmp _ | cmpiCond03 _ | cmpiCond47 _ | plogAnd _ | plogOr _ | plogXor _ | plogAndn _ | plogNot _ | plogMov _
  | plogSet _ | plogClr _ | xcmp _ =>
    exact ⟨_, rfl, .syllable (s.stages_putQ ..)⟩
  | xadd _ | xsub _ | xaddi _ | xshl _ | xshr _ | xand _ | xmul _ | xlea _ | xmin _ | xmax _ | xpopc _ | xctz _
  | xbitSet _ | xbitClr _ | xbitFlip _ | xbitExt _ | xmovs _ | xclamp _ | xwrap _ =>
    exact ⟨_, rfl, .syllable (s.stages_putX ..)⟩
  | ldb _ | ldbu _ | ldh _ | ldhu _ | ldw _ | ldwu _ | ldd _ | lds _ | ldp _ => exact ⟨_, rfl, s.stages_load ..⟩
  | stb _ | sth _ | stw _ | std _ | stf _ => exact ⟨_, rfl, s.stages_store ..⟩
  | empty f => exact s.stages_empty f
  | aadd _ | amin _ | amax _ | aand _ | aor _ | axor _ | aswap _ | atas _ | acas _ | afadd _ =>
    exact ⟨_, rfl, s.stages_atomic ..⟩
  | br _ | syncfC _ | syncfI _ | syncfCi _ => exact ⟨_, rfl, .syllable (s.stages_stage _)⟩
  | brl _ => exact ⟨_, rfl, .syllable ((s.stages_putS ..).trans (State.stages_stage ..))⟩
  | bri _ => exact ⟨_, rfl, .syllable (.ite (s.stages_raise ..) ((s.stages_putS ..).trans (State.stages_stage ..)))⟩
  | loop f => exact s.stages_loop f
  | brtop f => exact s.stages_brtop f
  | exit _ => exact ⟨_, rfl, .syllable (.ite (s.stages_raise ..) (s.stages_stage _))⟩
  | tret _ | mts _ => exact ⟨_, rfl, .syllable (.ite (s.stages_stage _) (s.stages_raise ..))⟩
  | trap _ => exact ⟨_, rfl, .syllable (s.stages_raise ..)⟩
  | sleep _ =>
    exact ⟨_, rfl, .syllable (.ite (s.stages_holdAll _) (.ite (.ite (s.stages_holdAll _) (s.stages_raise ..)) (.refl s)))⟩
  | waitg _ | joinm _ => exact ⟨_, rfl, .syllable (.ite (s.stages_holdAll _) (.refl s))⟩
  | waitgL _ => exact ⟨_, rfl, .syllable (.ite (s.stages_raise ..) (.ite (s.stages_holdAll _) (.refl s)))⟩
  | cadv f => exact s.stages_cadv f
  | xldW _ | xldD _ => exact ⟨_, rfl, s.stages_xld ..⟩
  | xbstepW _ | xbstepD _ => exact ⟨_, rfl, s.stages_xbstep ..⟩
  | vadd _ | vsub _ | vmul _ | vfma _ | vfms _ | vfnma _ | vmin _ | vmax _ | vabs _ | vneg _ | vcpys _ | vrcp _ | vrsq _
  | vsqrt _ | vexp2 _ | vlog2 _ | vclass _ | vpopc _ | vmov _ | vbcast _ | vperm _ | vshuf _ | vunpkb _ | vdot8 _ =>
    exact ⟨_, rfl, .vsyl (s.stages_putLanes ..)⟩
  | viadd _ | visub _ | vimul _ | vimulh _ | vand _ | vor _ | vxor _ | vshl _ | vshr _ | vsar _ | vimin _ | vimax _ =>
    exact ⟨_, rfl, s.stages_vint ..⟩
  | vcmpf _ | vicmp _ => exact ⟨_, rfl, s.stages_vcompare ..⟩
  | vsel _ | vins _ => exact ⟨_, rfl, .vsyl (s.stages_putV ..)⟩
  | vcvt _ | vpackb _ | vred _ | vscan _ =>
    exact ⟨_, rfl, .vsyl ((s.stages_putV ..).trans (State.stages_stageFlags ..))⟩
  | vextr _ | mpopc _ | mfirst _ => exact ⟨_, rfl, .vsyl (s.stages_putRowS ..)⟩
  | vld _ | vlds _ => exact ⟨_, rfl, s.stages_vload ..⟩
  | vst _ | vstf _ => exact ⟨_, rfl, s.stages_vstore ..⟩
  | vget _ => exact ⟨_, rfl, .vsyl (s.stages_stage _)⟩
  | vput f => exact s.stages_vput f
  | mand _ | mor _ | mxor _ | mnot _ => exact ⟨_, rfl, .vsyl (s.stages_putM ..)⟩
  | saff _ | saffw _ | sind _ | sindw _ | srec _ | sconst _ | sfill _ | smcast _ | sremw _ | srema _ | scirc _ | scopy _
  | scopyc _ | sarm _ | sdisarm _ | spost _ | gath _ | scat _ | greplay _ | sbar _ | smark _ | sord _ | scfg _ | srunGo _
  | srunBack _ | sstop _ | swload _ | smm _ | sarmg _ | spub _ | svsw _ | svstage _ | scoll _ | sslot _ | csysShootdown _
  | csysReplay _ | csysPantry _ =>
    exact ⟨_, rfl, s.stages_cissue ..⟩
  | _ => exact (Bool.false_ne_true h).elim

/-- Settles O47, by the writes that the syllables stage. -/
theorem syllablesOnlyStage : Obligations.SyllablesOnlyStage := by
  intro i s h
  obtain ⟨_, he, b, rfl, hb⟩ := exec_stages h s
  exact ⟨b, he, hb.pc, hb.holds, hb.traps, hb.writes⟩

end Sys2Proof.Machine
end

section
/-! Traps (R107, R109, R365, R366, R370): what a trap that a bundle takes leaves of the state. -/

namespace Sys2Proof.Machine

/-! ## A trap of the current context -/

/-- A context that halts with a cause (R366). -/
def Ctx.halts (c : Ctx) (cause : Cause) : Ctx := { c with halted := some cause, trap := none, builtin := none }

/-- A context that has saved a trap and is in handler mode (R365). -/
def Ctx.savesTrap (c : Ctx) (t : Trap) : Ctx :=
  { c with
    trap := none
    trapAddr := t.pc
    handling := if t.async then some ⟨t.cause, t.tval⟩ else none
    repCnt := if c.replay then c.repCnt + 1 else c.repCnt
    sys := { c.sys with tcause := BitVec.ofNat 8 ((if t.async then 128 else 0) + t.cause.num), tval := t.tval,
                        tpc := t.pc, hm := true } }

/-- A context after it has entered a trap from task mode: in its handler, in the built-in handling, or halted. -/
def Ctx.entersTrap (c : Ctx) (now : Nat) (t : Trap) : Ctx :=
  if c.sys.tbase = 0 then
    match builtInOf c t with
    | some b => { c.savesTrap t with builtin := some b }
    | none => (c.savesTrap t).halts t.cause
  else { c.savesTrap t with pc := c.sys.tbase, notBefore := if c.trap.isSome then c.notBefore else now + 4 }

/-- A context after it has taken a trap (R365, R366, R370). -/
def Ctx.takesTrap (c : Ctx) (now : Nat) (t : Trap) : Ctx :=
  if c.sys.hm then c.halts t.cause
  else if c.replay && c.repCnt + 1 == 3 then c.halts .replayx
  else if t.cause = .replayx then c.halts t.cause
  else c.entersTrap now t

section
variable (s : State) (t : Trap)

/-- A halt changes the hub's rings and the context. -/
theorem haltCtx_current : ∃ h, s.haltCtx s.c.id t = { s with hub := h, c := s.c.halts t.cause } := by
  unfold State.haltCtx
  rw [ctx?_self]
  dsimp only
  obtain ⟨_, _, e⟩ := trc_eq (s.hubFault 0 s.c.sys.partid.toNat s.c.id.tile s.c.id.num [BitVec.ofNat 64 t.cause.num, t.tval, t.pc])
    8 1 s.c [.word s.c.id.num, .word t.cause.num, .word 0]
  rw [e]
  exact ⟨_, State.onCtx_current _ _⟩

/-- A trace record and then a change of the current context: the hub's ring and the context change, and the clk stands. -/
theorem trc_onCtx_current (cls code : Nat) (c : Ctx) (fs : List TField) (f : Ctx → Ctx) :
    ∃ h, (s.trc cls code c fs).onCtx s.c.id f = { s with hub := h, c := f s.c } := by
  obtain ⟨_, _, e⟩ := trc_eq s cls code c fs
  rw [e]
  exact ⟨_, State.onCtx_current _ _⟩

/-- A halt after a change of the hub and of the current context. -/
theorem haltCtx_changed {u : State} {c : Ctx} (hc : c.id = s.c.id) (hu : ∃ h, u = { s with hub := h, c := c }) :
    ∃ h, u.haltCtx s.c.id t = { s with hub := h, c := c.halts t.cause } := by
  obtain ⟨h, rfl⟩ := hu
  rw [← hc]
  exact haltCtx_current { s with hub := h, c := c } t

/-- A trap that is taken changes the hub's rings and the context. -/
theorem takeTrap_current : ∃ h, s.takeTrap s.c.id t = { s with hub := h, c := s.c.takesTrap s.clk t } := by
  unfold State.takeTrap Ctx.takesTrap
  rw [ctx?_self]
  dsimp only
  split
  · exact haltCtx_current s t
  split
  · exact haltCtx_current s { t with cause := .replayx }
  split
  · exact haltCtx_current s t
  unfold Ctx.entersTrap
  split
  · cases builtInOf s.c t with
    | some b => exact trc_onCtx_current s _ _ _ _ fun _ => { s.c.savesTrap t with builtin := some b }
    | none => exact haltCtx_changed s t rfl (trc_onCtx_current s _ _ _ _ fun _ => s.c.savesTrap t)
  · rw [State.trc_clk]
    exact trc_onCtx_current s ..

/-- A decided trap is taken, or waits for the writes in flight. -/
theorem decideTrap_current : ∃ h, s.decideTrap s.c.id t = { s with
    hub := h, c := if s.drained s.c then s.c.takesTrap s.clk t else { s.c with trap := some t, notBefore := s.clk + 4 } } := by
  unfold State.decideTrap
  rw [ctx?_self]
  dsimp only
  split
  · exact takeTrap_current s t
  · exact ⟨s.hub, State.onCtx_current _ _⟩

end

/-- A trap leaves the registers, the accesses, the writes in flight and the open commands of its context. -/
theorem Ctx.takesTrap_keeps (c : Ctx) (now : Nat) (t : Trap) : (c.takesTrap now t).files = c.files
    ∧ (c.takesTrap now t).accs = c.accs ∧ (c.takesTrap now t).inflight = c.inflight ∧ (c.takesTrap now t).opens = c.opens := by
  unfold Ctx.takesTrap Ctx.entersTrap
  (repeat' split) <;> exact ⟨rfl, rfl, rfl, rfl⟩

/-! ## The four outcomes of a trap -/

section
variable {c : Ctx} {now : Nat} {t : Trap}

theorem Ctx.takesTrap_handler (h : c.sys.hm = true) : c.takesTrap now t = c.halts t.cause := if_pos h

theorem Ctx.takesTrap_thirdReplay (hm : c.sys.hm = false) (hr : c.replay = true) (hn : c.repCnt = 2) :
    c.takesTrap now t = c.halts .replayx := by
  simp [Ctx.takesTrap, hm, hr, hn]

theorem Ctx.takesTrap_task (hm : c.sys.hm = false) (hr : c.replay = false ∨ c.repCnt ≠ 2) (hc : t.cause ≠ .replayx) :
    c.takesTrap now t = c.entersTrap now t := by
  rcases hr with hr | hn
  · simp [Ctx.takesTrap, hm, hr, hc]
  · simp [Ctx.takesTrap, hm, hn, hc]

/-- The trap that a context enters from task mode is saved, whatever serves it. -/
theorem Ctx.entersTrap_sys : (c.entersTrap now t).sys = (c.savesTrap t).sys := by
  unfold Ctx.entersTrap
  (repeat' split) <;> rfl

theorem Ctx.entersTrap_handler (h : c.sys.tbase ≠ 0) : (c.entersTrap now t).pc = c.sys.tbase
    ∧ (c.entersTrap now t).halted = c.halted ∧ (c.trap = none → (c.entersTrap now t).notBefore = now + 4) := by
  unfold Ctx.entersTrap
  rw [if_neg h]
  exact ⟨rfl, rfl, fun hn => by simp [hn]⟩

/-- Without a handler the built-in handling serves the trap, or the context halts with its cause. -/
theorem Ctx.entersTrap_builtIn (h : c.sys.tbase = 0) : (c.entersTrap now t).pc = c.pc
    ∧ (∀ b, builtInOf c t = some b → (c.entersTrap now t).builtin = some b ∧ (c.entersTrap now t).halted = c.halted)
    ∧ (builtInOf c t = none → (c.entersTrap now t).halted = some t.cause) := by
  unfold Ctx.entersTrap
  rw [if_pos h]
  cases builtInOf c t with
  | some b => exact ⟨rfl, by rintro _ ⟨⟩; exact ⟨rfl, rfl⟩, nofun⟩
  | none => exact ⟨rfl, nofun, fun _ => rfl⟩

end

/-- A bundle that waits for nothing and traps ends with the decision of its trap. -/
theorem State.finish_of_trap {s : State} {t : Nat × Cause × Word} (rp : Bool) (hh : s.bundle.holds = [])
    (ht : firstTrap (s.bundle.traps ++ s.watchTraps s.bundle.pc) = some t) :
    s.finish rp = ({ s with bundle := {}, c := { s.c with stall := none } } : State).decideTrap s.c.id
      ⟨t.2.1, false, t.2.2, s.bundle.pc⟩ := by
  unfold State.finish
  simp only [hh, ht]

/-- Settles O50: the bundle ends with the decision of its trap, and the context then is what `Ctx.takesTrap` says, or waits. -/
theorem trapsAreTaken : Obligations.TrapsAreTaken := by
  unfold Obligations.TrapsAreTaken
  intro s rp t hh ht s1 u saved
  let tr : Trap := ⟨t.2.1, false, t.2.2, s.bundle.pc⟩
  have hmem : SameMemory s u := sameMemory_of_mem (State.finish_mem ..)
  obtain ⟨h, hu⟩ : ∃ h, u = { s1 with
      hub := h, c := if s1.drained s1.c then s1.c.takesTrap s.clk tr else { s1.c with trap := some tr, notBefore := s.clk + 4 } } := by
    obtain ⟨h, e⟩ := decideTrap_current s1 tr
    exact ⟨h, (State.finish_of_trap rp hh ht).trans e⟩
  have hothers : u.others = s.others := by rw [hu]
  have hc : u.c = if s1.drained s1.c then s1.c.takesTrap s.clk tr else { s1.c with trap := some tr, notBefore := s.clk + 4 } := by
    rw [hu]
  clear_value u
  clear hu
  cases hd : s1.drained s1.c with
  | false =>
    rw [hd, if_neg Bool.false_ne_true] at hc
    rw [hc]
    exact ⟨hmem, hothers, rfl, rfl, rfl, rfl, nofun, nofun, nofun, fun _ => ⟨rfl, rfl, rfl⟩⟩
  | true =>
    rw [hd, if_pos rfl] at hc
    rw [hc]
    obtain ⟨hfiles, haccs, hinflight, hopens⟩ := s1.c.takesTrap_keeps s.clk tr
    refine ⟨hmem, hothers, hfiles, haccs, hinflight, hopens, fun _ hm hr hcause => ?_, fun _ hm hr hn => ?_, fun _ hm => ?_, nofun⟩
    · rw [Ctx.takesTrap_task (c := s1.c) (t := tr) hm hr hcause]
      have hsys : (s1.c.entersTrap s.clk tr).sys = saved := Ctx.entersTrap_sys.trans (by simp [Ctx.savesTrap, tr, saved, s1])
      exact ⟨hsys, Ctx.entersTrap_handler (c := s1.c), Ctx.entersTrap_builtIn (c := s1.c)⟩
    · rw [Ctx.takesTrap_thirdReplay (c := s1.c) hm hr hn]
      exact ⟨rfl, rfl⟩
    · rw [Ctx.takesTrap_handler (c := s1.c) hm]
      exact ⟨rfl, rfl⟩

end Sys2Proof.Machine
end

section
/-! The control transfers and waits of the S slot (R127 to R136, R143 to R145) and the index operations of the X slot (R147 to
R150): what each unhindered syllable does in each of its cases. -/

namespace Sys2Proof.Machine

/-! ## Branches and loops (R127 to R136) -/

theorem branches : Piece.Branches :=
  ⟨fun _ _ hu => next_of_syllable hu rfl rfl, fun _ _ hu => next_of_syllable hu rfl rfl,
    fun _ _ hu => ⟨fun ha => next_of_syllable hu rfl (if_neg (not_not.2 ha)), fun ha => next_of_syllable hu rfl (if_pos ha)⟩⟩

theorem loops : Piece.Loops := by
  constructor
  · intro f s hu
    refine ⟨fun hm => next_of_syllable hu rfl (if_pos hm), fun hm hn => ?_, fun hm hn => ?_⟩
    all_goals refine next_of_syllable hu rfl ((if_neg (Bool.eq_false_iff.1 hm)).trans ?_)
    · exact if_neg hn
    · exact if_pos hn
  · intro f s hu
    refine ⟨fun hl => next_of_syllable hu rfl (by simp [hl]), fun hl he => ?_, fun hl he => ?_⟩
    all_goals
      refine next_of_syllable hu rfl ?_
      simp only [hl, he, ne_eq, not_true, not_false_eq_true, and_true, and_false, if_true, if_false, decide_true, decide_false]
      rfl

/-- Settles O7: each transfer by its own effect, in the case that its operand, the mode or the counters LC and EC choose. -/
theorem controlTransfers : Obligations.ControlTransfers := ⟨branches, loops⟩

/-! ## Waits (R143 to R145) -/

/-- Settles O9: each wait by whether its time has come and by what stands behind that: the binding, the mode, the servo. -/
theorem waits : Obligations.Waits := by
  constructor
  · intro f s hu late isOpen
    have now (h : late) : ¬ s.gtime < (s.rdS f.a).toNat := Nat.not_lt.2 h
    have early (h : ¬ late) : s.gtime < (s.rdS f.a).toNat := Nat.lt_of_not_le h
    refine ⟨fun hl ho => ?_, fun hl => ?_, fun hl ho hm => ?_, fun hl ho hm => ?_, fun hl => ?_, fun hl => ?_, fun hk => ?_,
      fun hk hl => ?_, fun hk hl => ?_⟩
    all_goals refine next_of_syllable hu rfl ?_
    · exact (if_neg (now hl)).trans (if_neg (Bool.eq_false_iff.1 ho))
    · exact if_pos (early hl)
    · exact (if_neg (now hl)).trans ((if_pos ho).trans (if_pos hm))
    · exact (if_neg (now hl)).trans ((if_pos ho).trans (if_neg (Bool.eq_false_iff.1 hm)))
    · exact if_neg (now hl)
    · exact if_pos (early hl)
    · exact if_pos (by rw [hk]; rfl)
    · exact (if_neg (by rw [hk]; decide)).trans (if_neg (now hl))
    · exact (if_neg (by rw [hk]; decide)).trans (if_pos (early hl))
  · intro f s hu
    exact ⟨fun hp => next_of_syllable hu rfl (if_neg (Bool.eq_false_iff.1 hp)), fun hp => next_of_syllable hu rfl (if_pos hp)⟩

/-! ## Index operations (R147, Table 5.3) -/

section
variable {i : Instr} {s t : State} {g : BitVec 4} {srcs dsts : List Reg} {lat : Nat}

/-- An X syllable that nothing hinders has its own effect. -/
theorem next_of_xsyllable {body : State → State} (hu : Unhindered s g srcs dsts)
    (h : exec i s = .next (s.syllable 1 g srcs dsts body)) (hb : body s = t) : exec i s = .next t :=
  hb ▸ h.trans (congrArg Host.Outcome.next (hu.runs 1 body))

/-- One that writes an index register writes the value that it computes. -/
theorem next_of_putX {d : BitVec 5} {val : State → Word} {r : Word} (hu : Unhindered s g srcs dsts)
    (h : exec i s = .next (s.syllable 1 g srcs dsts fun s => s.putX d (val s) lat)) (hr : val s = r) :
    exec i s = .next (s.putX d r lat) :=
  next_of_xsyllable hu h (congrArg (s.putX d · lat) hr)

end

section
variable (a : Word) {n i : Nat}

theorem shlW_one_getLsbD (hi : i < 64) : (shlW 1 n).getLsbD i = decide (i = n) := by
  simp [shlW, hi]
  grind

theorem setBit_getLsbD (hi : i < 64) : (a ||| shlW 1 n).getLsbD i = if i = n then true else a.getLsbD i := by
  rw [BitVec.getLsbD_or, shlW_one_getLsbD hi]
  split <;> simp [*]

theorem clearBit_getLsbD (hi : i < 64) : (a &&& ~~~shlW 1 n).getLsbD i = if i = n then false else a.getLsbD i := by
  rw [BitVec.getLsbD_and, BitVec.getLsbD_not, shlW_one_getLsbD hi]
  split <;> simp [*]

theorem flipBit_getLsbD (hi : i < 64) : (a ^^^ shlW 1 n).getLsbD i = if i = n then !a.getLsbD i else a.getLsbD i := by
  rw [BitVec.getLsbD_xor, shlW_one_getLsbD hi]
  split <;> simp [*]

theorem extractBit_eq : shrW a n &&& 1 = if a.getLsbD n then 1 else 0 := by
  have h := BitVec.and_one_eq_setWidth_ofBool_getLsbD (x := shrW a n)
  rw [shrW, BitVec.getLsbD_ushiftRight, Nat.add_zero] at h
  refine h.trans ?_
  cases a.getLsbD n <;> rfl

theorem clampS_eq (lo hi : Word) : minS (maxS a lo) hi = BitVec.ofInt 64 (min (max a.toInt lo.toInt) hi.toInt) := by
  have self (x : Word) : BitVec.ofInt 64 x.toInt = x := BitVec.ofInt_toInt
  rw [minS_eq, maxS_eq]
  grind

theorem ult_ite_eq {α : Type} (b : Word) (x y : α) : (if a.ult b then x else y) = if a.toNat < b.toNat then x else y := by
  simp [BitVec.ult]

end

/-- Settles O10: each operation by the value it puts, the bit operations and the counts by the bits of that value. -/
theorem indexResults : Obligations.IndexResults := by
  refine ⟨fun f s hu => ?_, fun f s hu => next_of_putX hu rfl rfl, fun f s hu => ?_,
    fun f s hu => next_of_putX hu rfl (congrArg _ (shlW_eq _ _)),
    fun f s hu => next_of_xsyllable hu rfl (congrArg (s.putQ f.p · 1) (Cond.holds_eq_conditionOf _ _ _)),
    fun f s hu => ⟨next_of_putX hu rfl (popcW_eq _), trailing (s.rdX f.a) 0 64, trailing_le _ _ _, next_of_putX hu rfl rfl,
      fun i hi => ?_, fun hn => ?_⟩,
    fun f s hu => next_of_putX hu rfl rfl, fun f s hu => next_of_xsyllable hu rfl rfl,
    fun f s hu => next_of_putX hu rfl (clampS_eq _ _ _)⟩
  · exact ⟨next_of_putX hu rfl rfl, next_of_putX hu rfl rfl, next_of_putX hu rfl rfl, next_of_putX hu rfl (mulW_eq _ _),
      next_of_putX hu rfl (minS_eq _ _), next_of_putX hu rfl (maxS_eq _ _), next_of_putX hu rfl (ult_ite_eq _ _ _ _)⟩
  · exact ⟨next_of_putX hu rfl (shlW_eq _ _), next_of_putX hu rfl (shrW_eq _ _),
      ⟨_, next_of_putX hu rfl rfl, fun _ hi => setBit_getLsbD _ hi⟩,
      ⟨_, next_of_putX hu rfl rfl, fun _ hi => clearBit_getLsbD _ hi⟩,
      ⟨_, next_of_putX hu rfl rfl, fun _ hi => flipBit_getLsbD _ hi⟩, next_of_putX hu rfl (extractBit_eq _)⟩
  · simpa using getLsbD_of_lt_trailing (s.rdX f.a) 0 64 hi
  · simpa using getLsbD_trailing (s.rdX f.a) 0 64 hn

/-! ## CADV, XLD and XBSTEP (R148 to R150) -/

theorem ult_eq_true {a b : Word} (h : a.toNat < b.toNat) : a.ult b = true := decide_eq_true h

theorem ult_eq_false {a b : Word} (h : b.toNat ≤ a.toNat) : a.ult b = false := decide_eq_false (Nat.not_lt.2 h)

theorem sendsLoad_of_xld {i : Instr} {s : State} {f : XLd} {size : Nat} (hu : Unhindered s f.g [s.regX f.a] [s.regX f.d])
    (h : exec i s = .next (s.xld f size)) :
    SendsLoad i s (s.rdX f.a + f.off.signExtend 64 * BitVec.ofNat 64 size) size (s.regX f.d) := by
  refine ⟨fun c hc => ?_, fun hc => ?_⟩
  all_goals exact next_of_xsyllable hu h (by simp only [hc])

theorem stepsSearch_of_xbstep {i : Instr} {s : State} {f : XBst} {size : Nat}
    (hu : Unhindered s f.g [s.regX f.a, s.regX f.b, s.regX (pairLo f.pair), s.regX (pairHi f.pair)]
      [s.regX (pairLo f.pair), s.regX (pairHi f.pair)])
    (h : exec i s = .next (s.xbstep f size)) : StepsSearch i s f size := by
  refine ⟨fun hl => ?_, fun c hl ha => ?_, fun c hl ha hb => ?_, fun hl ha hb => ?_⟩
  · exact next_of_xsyllable hu h (if_pos (by rw [ult_eq_false hl]; rfl))
  all_goals refine next_of_xsyllable hu h ((if_neg (by rw [ult_eq_true hl]; decide)).trans ?_)
  · simp only [ha]
  · simp only [ha, hb]
  · simp only [ha, hb]

/-- A value staged for an index register is not read before the bundle commits (R97). -/
theorem State.rdX_putX (s : State) (n m : BitVec 5) (w : Word) (lat : Nat) : (s.putX n w lat).rdX m = s.rdX m := by
  obtain ⟨b, h, -⟩ := s.stages_putX n w lat
  rw [h]
  rfl

/-- Settles O11: CADV by the comparison of its keys, the loads by the checks of their addresses, ea before eb. -/
theorem cursorsAndIndexLoads : Obligations.CursorsAndIndexLoads := by
  refine ⟨?_, fun f s hu => ⟨sendsLoad_of_xld hu rfl, sendsLoad_of_xld hu rfl⟩, ?_⟩
  · intro f s hu
    refine ⟨fun h => ?_, fun h => ?_, fun h => ?_⟩
    all_goals refine next_of_xsyllable hu rfl ?_
    · have ne : (s.rdX f.a == s.rdX f.b) = false := beq_eq_false_iff_ne.2 fun e => h.ne (congrArg BitVec.toNat e)
      simp [ult_eq_true h, ult_eq_false h.le, ne]
    · have ne : (s.rdX f.a == s.rdX f.b) = false := beq_eq_false_iff_ne.2 fun e => h.ne' (congrArg BitVec.toNat e)
      simp [ult_eq_true h, ult_eq_false h.le, ne]
    · simp [h, ult_eq_false (Nat.le_refl (s.rdX f.b).toNat), State.rdX_putX]
  · intro f s lo hi hu
    exact ⟨stepsSearch_of_xbstep hu rfl, stepsSearch_of_xbstep hu rfl⟩

end Sys2Proof.Machine
end

section
/-! The actor scheduler and the PC sampler (R140, R369, R420, R442): which firing starts, and what a sample leaves. -/

namespace Sys2Proof.Machine

/-! ## Firings start (R140, R369, R383, R420) -/

/-- Of two ready actors, neither of which has waited too long, the second fires if it stands before the first (R420). -/
theorem firesFirst_pair {now : Nat} {a b : Ctx × GNode} (h : mustPass [a, b] = false) :
    firesFirst now a [b] = if firesBefore now b a then b else a := by
  simp [firesFirst, h]

section
variable {s : State} {tile : Nat} {c : Ctx}

theorem execHandlerFiringStart_builtIn {e : AsyncEvent} {rest : List AsyncEvent} (hc : s.toHandle tile = some c)
    (he : c.events = e :: rest) (hb : c.sys.tbase = 0) :
    execHandlerFiringStart tile s = .next ((s.onCtx c.id fun c => { c with events := rest }).takeAside c e) := by
  simp only [execHandlerFiringStart, hc, he, hb, if_true]

theorem execHandlerFiringStart_enters {e : AsyncEvent} {rest : List AsyncEvent} (hc : s.toHandle tile = some c)
    (he : c.events = e :: rest) (hb : c.sys.tbase ≠ 0) (hi : s.tileIdle tile = true) (hr : s.toResume tile = none) :
    execHandlerFiringStart tile s = .next
      ((((s.onCtx c.id fun c => { c with events := rest }).onCtx c.id fun c =>
        { c with firing := true, hfiring := true, entry := .handler, budgetCount := 0, frame := { c.frame with act := false } }).trc
          10 3 c [.word c.id.num, .word c.sys.act.toNat, .long s.clk]).takeTrap c.id ⟨e.cause, true, e.tval, 0⟩) := by
  have hn : ¬ ((!s.tileIdle tile) = true ∨ (s.toResume tile).isSome = true) := by simp [hi, hr]
  simp only [execHandlerFiringStart, hc, he, if_neg hb, if_neg hn]

theorem execFiringStart_resumes (hi : s.tileIdle tile = true) (hr : s.toResume tile = some c) :
    execFiringStart tile s = .next (s.onCtx c.id Ctx.goOn) := by
  simp [execFiringStart, hi, hr]

theorem execFiringStart_enters {x : Ctx × GNode} {rest : List (Ctx × GNode)} {n : GNode} (hi : s.tileIdle tile = true)
    (hr : s.toResume tile = none) (hh : s.toHandle tile = none) (ha : s.readyActors tile = x :: rest)
    (hx : firesFirst s.clk x rest = (c, n)) : execFiringStart tile s = .next (s.enterFiring c n) := by
  simp [execFiringStart, hi, hr, hh, ha, hx]

end

theorem firingsStart : Piece.FiringsStart := by
  intro s tile c
  refine ⟨fun e rest hc he hb => execHandlerFiringStart_builtIn hc he hb, fun hi => ⟨execFiringStart_resumes hi, fun hr => ?_⟩⟩
  refine ⟨fun n hh ha => execFiringStart_enters hi hr hh ha rfl, fun n x hh ha hp => ?_,
    fun e rest hc he hb => execHandlerFiringStart_enters hc he hb hi hr⟩
  have hx := firesFirst_pair (now := s.clk) hp
  split
  · exact execFiringStart_enters hi hr hh ha (hx.trans (if_pos ‹_›))
  · exact execFiringStart_enters hi hr hh ha (hx.trans (if_neg ‹_›))

/-! ## The PC sampler (R442) -/

theorem find?_setTileIn (r : Tile) (l : List Tile) : (setTileIn r l).find? (fun t => t.id == r.id) = some r := by
  induction l with
  | nil => simp [setTileIn]
  | cons t rest ih =>
    rw [setTileIn]
    split
    · simp
    · split
      · simp
      · rwa [List.find?_cons_of_neg (by simpa using ‹¬ t.id = r.id›)]

/-- A changed tile reads as the change made it. -/
theorem State.tile_onTile (s : State) (n : Nat) (f : Tile → Tile) : (s.onTile n f).tile n = { f (s.tile n) with id := n } := by
  rw [State.tile]
  exact congrArg (Option.getD · _) (find?_setTileIn { f (s.tile n) with id := n } s.tiles)

theorem State.tile_traceAt (s : State) (a b t p k : Nat) (l : List TField) (n : Nat) : (s.traceAt a b t p k l).tile n = s.tile n := by
  rw [State.tile, State.traceAt_tiles]
  rfl

theorem samplesAreTaken : Piece.SamplesAreTaken := by
  intro s tile he hd
  have hn : ¬ (wordField (s.tile tile).sampcfg 63 1 = 0
      ∨ s.clk < sampleTime tile (2 ^ wordField (s.tile tile).sampcfg 0 5) (s.tile tile).sampleNo) := by omega
  refine ⟨_, if_neg hn, ?_⟩
  refine ⟨State.traceAt_c .., State.traceAt_others .., sameMemory_of_mem (State.traceAt_mem ..), ?_, ?_⟩
  · rw [State.tile_onTile]
  · rw [State.tile_onTile, State.tile_traceAt]

/-- Settles O27: each start by the choice that the scheduler makes, the sample by what its record and its tile keep. -/
theorem firingsAndSamples : Obligations.FiringsAndSamples := ⟨firingsStart, samplesAreTaken⟩

end Sys2Proof.Machine
end

section
/-! Order (R145, R319 to R325) and the graph sequencer (R36): what the acceptance of a SORD, the opening of a token, the leaving
of a marker, the end of an SBAR and the arming of a node leave of their context. -/

namespace Sys2Proof.Machine

/-- An act that leaves the list of memory as it is leaves every byte as it is. -/
theorem Out.MemIs.sameMemory {o : Out} {s t : State} (h : o.MemIs s.mem) (ho : o = .next t) : SameMemory s t := by
  subst ho
  exact sameMemory_of_mem h

/-! ## What the order unit changes of a context -/

theorem State.ctx?_accepted (s : State) (m : Command) (p : Word) (k : CtxId) : (s.accepted m p).ctx? k = s.ctx? k := by
  unfold State.accepted
  split
  · exact trc_ctx? ..
  · rfl

/-- The end of a command takes its entry from the open commands of its task (R143). -/
theorem State.ctx?_retire {s : State} {k : CtxId} {c : Ctx} {n : Nat} (h : s.ctx? k = some c) :
    (s.retire k n).ctx? k = some (if c.owns k n then { c with opens := c.opens.filter fun o => o.seq != n } else c) :=
  ctx?_onOwner s k k n _ c h fun _ => rfl

theorem Ctx.door_retired (c : Ctx) (k : CtxId) (n code : Nat) :
    (if c.owns k n then { c with opens := c.opens.filter fun o => o.seq != n } else c).door code = c.door code := by
  split <;> rfl

/-- What SORD changes of the VGETs of its door is no more than which of them acquire (R322). -/
theorem Ctx.markAcquire_eq (c : Ctx) (door : Nat) : ∃ v, c.markAcquire door = { c with vgets := v } := by
  unfold Ctx.markAcquire
  dsimp only
  split
  · exact ⟨c.vgets, rfl⟩
  · exact ⟨_, rfl⟩

theorem Ctx.setDoor_id (c : Ctx) (code : Nat) (l : List DoorItem) : (c.setDoor code l).id = c.id := by
  unfold Ctx.setDoor
  split <;> rfl

/-- A door holds what it is set to. -/
theorem Ctx.door_setDoor {c : Ctx} (hin : NMap.wf [] c.doorsIn = true) (hout : NMap.wf [] c.doorsOut = true) (code : Nat)
    (l : List DoorItem) : (c.setDoor code l).door code = l := by
  by_cases h : code < 32
  · simp [Ctx.setDoor, Ctx.door, h, nmap_get_set_same _ _ 0 _ _ hin]
  · simp [Ctx.setDoor, Ctx.door, h, nmap_get_set_same _ _ 0 _ _ hout]

/-! ## SORD (R323) -/

section
variable {s : State} {k : CtxId} {c : Ctx}

/-- A command with no earlier one of its context and unit before it stands at the head of the tile's queue. -/
theorem State.queueHead_of {i : Nat} {m : Command} {same : Command → Bool} (hc : s.ctx? k = some c)
    (hm : (s.tile k.tile).queue[i]? = some m) (hk : m.ctx = k)
    (hb : ∀ x ∈ (s.tile k.tile).queue.take i, ¬(x.ctx = k ∧ same x = true)) :
    s.queueHead k.tile i same = some (c, m) := by
  subst hk
  have hn : ¬ ((s.tile m.ctx.tile).queue.take i).any (fun x => x.ctx == m.ctx && same x) = true := by
    simpa using hb
  simp only [State.queueHead, hm, if_neg hn, hc, Option.map_some]

/-- A context with the token of an accepted SORD behind the other entries of its door (R323). -/
def Ctx.withToken (c : Ctx) (f : CF) (seq : Nat) (edges : List Nat) : Ctx :=
  (c.markAcquire (f.door.toNat - 32)).setDoor f.door.toNat (c.door f.door.toNat ++ [.token f.lane seq (f.lane == 0) edges])

theorem Ctx.withToken_id (c : Ctx) (f : CF) (seq : Nat) (edges : List Nat) : (c.withToken f seq edges).id = c.id := by
  obtain ⟨v, hv⟩ := c.markAcquire_eq (f.door.toNat - 32)
  rw [Ctx.withToken, Ctx.setDoor_id, hv]

theorem Ctx.door_withToken (hin : NMap.wf [] c.doorsIn = true) (hout : NMap.wf [] c.doorsOut = true) (f : CF) (seq : Nat)
    (edges : List Nat) :
    (c.withToken f seq edges).door f.door.toNat = c.door f.door.toNat ++ [.token f.lane seq (f.lane == 0) edges] := by
  obtain ⟨v, hv⟩ := c.markAcquire_eq (f.door.toNat - 32)
  rw [Ctx.withToken, hv]
  exact Ctx.door_setDoor (c := { c with vgets := v }) hin hout ..

/-- The token of a SORD at the head of its queue enters its door, and the SORD is over (R323). -/
theorem execSordAccept_places {i : Nat} {m : Command} {f : CF} (hc : s.ctx? c.id = some c)
    (hq : s.queueHead c.id.tile i (fun x => orderUnit x.op) = some (c, m)) (hop : m.op = .sord f)
    (hr : c.doorRoom f.door.toNat = true) :
    ∃ (t : State) (edges : List Nat), t.ctx? c.id = some c
      ∧ execSordAccept c.id.tile i s = .next ((t.onCtx c.id fun c => c.withToken f m.seq edges).retire c.id m.seq) := by
  unfold execSordAccept
  simp only [hq, hop, hr, Bool.not_true, Bool.false_eq_true, if_false]
  refine ⟨_, _, ?_, rfl⟩
  rw [← hc]
  change State.ctx? (ite _ _ _) _ = _
  split <;> simp [State.ctx?_accepted]

theorem sordAccept_places {i : Nat} {m : Command} {f : CF} (hc : s.ctx? k = some c) (hid : c.id = k)
    (hm : (s.tile k.tile).queue[i]? = some m) (hk : m.ctx = k) (hop : m.op = .sord f)
    (hb : ∀ x ∈ (s.tile k.tile).queue.take i, ¬(x.ctx = k ∧ orderUnit x.op = true)) (hr : c.doorRoom f.door.toNat = true)
    (hin : NMap.wf [] c.doorsIn = true) (hout : NMap.wf [] c.doorsOut = true) :
    ∃ t d, execSordAccept k.tile i s = .next t ∧ SameMemory s t ∧ t.ctx? k = some d
      ∧ ∃ edges, d.door f.door.toNat = c.door f.door.toNat ++ [.token f.lane m.seq (f.lane == 0) edges] := by
  subst hid
  obtain ⟨s', edges, hs, he⟩ := execSordAccept_places hc (State.queueHead_of hc hm hk hb) hop hr
  refine ⟨_, _, he, (execSordAccept_memIs ..).sameMemory he, State.ctx?_retire (ctx?_onCtx _ _ _ c hs ?_), edges, ?_⟩
  · exact c.withToken_id ..
  · rw [Ctx.door_retired, Ctx.door_withToken hin hout]

/-! ## Tokens, markers and SBAR (R319 to R322, R324, R325) -/

/-- A change of a context behind a record of the trace reads as the change made it. -/
theorem ctx?_trc_onCtx (hc : s.ctx? k = some c) (cls code : Nat) (fs : List TField) {f : Ctx → Ctx} (hf : (f c).id = c.id) :
    ((s.trc cls code c fs).onCtx k f).ctx? k = some (f c) :=
  ctx?_onCtx _ _ _ c ((trc_ctx? ..).trans hc) (hf.trans (ctx?_id hc))

theorem orderTokenOpen_opens {n : Nat} {l : BitVec 8} {q : List DoorItem} (hc : s.ctx? k = some c)
    (ho : c.openToken (NMap.get [] c.doorsOut n) = some (l, q)) (hw : NMap.wf [] c.doorsOut = true) :
    ∃ t d, exec (.orderTokenOpen k n) s = .next t ∧ SameMemory s t ∧ t.ctx? k = some d ∧ NMap.get [] d.doorsOut n = q := by
  have he : exec (.orderTokenOpen k n) s = .next ((s.trc 5 0 c [.word k.num, .word (32 + n), .word l.toNat]).onCtx k fun c =>
      { c with doorsOut := NMap.set [] c.doorsOut n q }) := by
    simp only [exec, execOrderTokenOpen, hc, ho]
  exact ⟨_, _, he, (execOrderTokenOpen_memIs ..).sameMemory he,
    ctx?_trc_onCtx hc 5 0 _ rfl, nmap_get_set_same _ _ 0 _ _ hw⟩

theorem markerReachesHead_leaves {i : Nat} {m : Marker} (hc : s.ctx? k = some c) (hm : c.markers[i]? = some m)
    (he : s.entriesLeft c m = true) (hl : c.lanePassed m.lane m.seq = true) :
    ∃ t, exec (.markerReachesHead k i) s = .next t ∧ SameMemory s t
      ∧ t.ctx? k = some { c with markers := c.markers.eraseIdx i } := by
  have hx : exec (.markerReachesHead k i) s = .next ((s.trc 5 1 c [.word k.num, .word m.queue, .word m.lane.toNat,
      .word (s.clk - m.since)]).onCtx k fun c => { c with markers := c.markers.eraseIdx i }) := by
    simp [exec, execMarkerReachesHead, hc, hm, he, hl]
  exact ⟨_, hx, (execMarkerReachesHead_memIs ..).sameMemory hx, ctx?_trc_onCtx hc 5 1 _ rfl⟩

theorem sbarSatisfied_ends {i : Nat} {b : Sbar} (hc : s.ctx? k = some c) (hb : c.sbars[i]? = some b)
    (ho : c.owns k b.seq = true) (hn : ∀ n ∈ b.noted, s.ownTileOpen c n = false) :
    ∃ t, exec (.sbarSatisfied k i) s = .next t ∧ SameMemory s t
      ∧ t.ctx? k = some { c with sbars := c.sbars.eraseIdx i, opens := c.opens.filter fun o => o.seq != b.seq } := by
  have hany : ¬ b.noted.any (s.ownTileOpen c) = true := by simpa using hn
  have hx : exec (.sbarSatisfied k i) s = .next (((s.trc 5 2 c [.word k.num, .word b.mask, .word (s.clk - b.since)]).onCtx k
      fun c => { c with sbars := c.sbars.eraseIdx i }).retire k b.seq) := by
    simp only [exec, execSbarSatisfied, hc, hb, if_neg hany]
  exact ⟨_, hx, (execSbarSatisfied_memIs ..).sameMemory hx,
    (State.ctx?_retire (ctx?_trc_onCtx hc 5 2 _ rfl)).trans (congrArg some (if_pos ho))⟩

/-! ## The graph sequencer (R36) -/

theorem graphNodeArm_arms {s1 : State} (hc : s.ctx? k = some c) (hl : c.live = true) (hr : c.task.stage = .running)
    (hd : c.task.draining = none)
    (h1 : (c.task.nodes.filter (·.waiting) ++ (c.task.nodes.find? fun n => !n.armed).toList).findSome? (s.sequence c) = some s1) :
    exec (.graphNodeArm k) s = .next s1.pumpAll := by
  have hgo : ¬ ((!c.live) = true ∨ c.task.stage ≠ .running ∨ c.task.draining.isSome = true) := by simp [hl, hr, hd]
  simp only [exec, execGraphNodeArm, hc, if_neg hgo, h1]

/-- An actor that depends on no node is armed with its count at once (R36). -/
theorem sequence_of_independent_actor {n : GNode} (hk : n.kind = 0) (hn : n.count ≠ 0) (hd : c.depNodes n = []) :
    s.sequence c n = some ((s.nodeArmed c.id n.num n.count).onCtx c.id fun c => c.onNode n.num fun m =>
      { m with waiting := false }) := by
  simp [State.sequence, State.armBehind, State.armNode, hk, hn, hd]

end

/-- A changed node reads as the change made it, if that keeps its number. -/
theorem Ctx.node?_onNode {c : Ctx} {n : Nat} {m : GNode} {f : GNode → GNode} (hf : ∀ x, (f x).num = x.num)
    (h : c.node? n = some m) : (c.onNode n f).node? n = some (f m) := by
  have hg : ((fun x : GNode => x.num == n) ∘ fun x => if x.num = n then f x else x) = fun x => x.num == n := by
    funext x
    simp only [Function.comp_apply]
    split <;> simp [hf]
  have hm : m.num = n := by simpa using List.find?_some h
  rw [Ctx.node?] at h ⊢
  rw [Ctx.onNode, List.find?_map, hg, h, Option.map_some, if_pos hm]

/-- What the sequencer makes of an actor that depends on no node: its context has it armed (R36). -/
theorem sequence_arms_independent_actor {s : State} {c : Ctx} {n : GNode} (hc : s.ctx? c.id = some c) (hmem : n ∈ c.task.nodes)
    (hk : n.kind = 0) (hn : n.count ≠ 0) (hd : c.depNodes n = []) :
    ∃ s1 d m, s.sequence c n = some s1 ∧ SameMemory s s1 ∧ s1.ctx? c.id = some d ∧ d.node? n.num = some m ∧ m.armed = true := by
  have hs := sequence_of_independent_actor (s := s) hk hn hd
  have hfound : (c.node? n.num).isSome := List.find?_isSome.2 ⟨n, hmem, beq_self_eq_true n.num⟩
  obtain ⟨m, hm⟩ := Option.isSome_iff_exists.1 hfound
  exact ⟨_, _, _, hs, sameMemory_of_mem (State.sequence_mem hs), ctx?_onCtx _ _ _ _ (ctx?_onCtx _ _ _ c hc rfl) rfl,
    Ctx.node?_onNode (fun _ => rfl) (Ctx.node?_onNode (fun _ => rfl) hm), rfl⟩

/-- Settles O34: the order unit's acts by what each changes of its context, the sequencer by the node that it arms. -/
theorem orderingProceeds : Obligations.OrderingProceeds := by
  intro s k c hc hid
  refine ⟨fun i m f hm hk hop hb hr hin hout => sordAccept_places hc hid hm hk hop hb hr hin hout,
    fun n l q ho hw => orderTokenOpen_opens hc ho hw, fun i m hm he hl => markerReachesHead_leaves hc hm he hl,
    fun i b hb ho hn => sbarSatisfied_ends hc hb ho hn, fun hl hr hd => ⟨fun s1 h1 => graphNodeArm_arms hc hl hr hd h1, ?_⟩⟩
  intro n _ hf hk hn hdep
  subst hid
  have hmem : n ∈ c.task.nodes := List.mem_of_find?_eq_some (Option.toList_eq_singleton_iff.1 hf)
  exact sequence_arms_independent_actor hc hmem hk hn hdep

end Sys2Proof.Machine
end

section
/-! The V slot's integers (R159, R160, Table 6.7), conversion and block packing (R163 to R165), memory and doors (R169 to
R172) and masks (R174): the integer operations as arithmetic modulo 2^w, the lines that are written in part, and what each
form leaves of a syllable that nothing hinders. -/

namespace Sys2Proof.Machine

/-! ## Integers of w bits (Table 6.7) -/

section
variable (w : Nat)

theorem wrapInt_natCast (n : Nat) : wrapInt w n = n % 2 ^ w := by
  rw [wrapInt]
  norm_cast

theorem elem_lt (v : Line) (j : Nat) : elem w v j < 2 ^ w := Nat.mod_lt _ (Nat.two_pow_pos w)

theorem wrapInt_clampNat (z : Int) : wrapInt w (clampNat w z) = clampedTo w true z := by
  have hpos : (0 : Int) < 2 ^ w := by positivity
  have hrange : clampNat w z = max 0 (min z (2 ^ w - 1)) := by
    unfold clampNat
    generalize (2 : Int) ^ w = p at *
    omega
  rw [wrapInt, hrange, Int.emod_eq_of_lt (by omega) (by omega)]
  rfl

theorem wrapInt_clampInt (z : Int) : wrapInt w (clampInt w z) = clampedTo w false z := by
  have hpos : (0 : Int) < 2 ^ (w - 1) := by positivity
  have hrange : clampInt w z = max (-2 ^ (w - 1)) (min z (2 ^ (w - 1) - 1)) := by
    unfold clampInt
    generalize (2 : Int) ^ (w - 1) = p at *
    omega
  rw [wrapInt, hrange]
  rfl

variable (uns sat : Bool) (x y : Nat)

theorem intAddSub_add_modEq : intAddSub w false uns sat x y
    ≡ (if !sat then x + y else clampedTo w uns (if uns then (x : Int) + y else sintOf w x + sintOf w y)) [MOD 2 ^ w] := by
  cases sat
  · exact (congrArg (· % 2 ^ w) (wrapInt_natCast w (x + y))).trans (Nat.mod_mod _ _)
  · cases uns
    · exact congrArg (· % 2 ^ w) (wrapInt_clampInt w _)
    · exact congrArg (· % 2 ^ w) (wrapInt_clampNat w _)

/-- A difference wraps to that of the patterns, with a carry lent where the second is the greater. -/
theorem wrapInt_sub {y : Nat} (hy : y < 2 ^ w) : wrapInt w ((x : Int) - y) = (x + 2 ^ w - y) % 2 ^ w := by
  have hlent : ((x : Int) - y) % 2 ^ w = ((x + 2 ^ w - y : Nat) : Int) % 2 ^ w := by
    rw [← Int.add_emod_right, Nat.cast_sub (by omega)]
    push_cast
    ring_nf
  rw [← wrapInt_natCast, wrapInt, wrapInt, hlent]

theorem intAddSub_sub_modEq {y : Nat} (hy : y < 2 ^ w) : intAddSub w true uns sat x y
    ≡ (if !sat then x + 2 ^ w - y else clampedTo w uns (if uns then (x : Int) - y else sintOf w x - sintOf w y))
      [MOD 2 ^ w] := by
  cases sat
  · exact (congrArg (· % 2 ^ w) (wrapInt_sub w x hy)).trans (Nat.mod_mod _ _)
  · cases uns
    · exact congrArg (· % 2 ^ w) (wrapInt_clampInt w _)
    · exact congrArg (· % 2 ^ w) (wrapInt_clampNat w _)

theorem intMin_eq : intMinMax w false uns x y
    = if (if uns then decide (x < y) else decide (sintOf w x < sintOf w y)) then x else y := by
  simp only [intMinMax, Bool.bne_false]

theorem intMax_eq : intMinMax w true uns x y
    = if (if uns then decide (x < y) else decide (sintOf w x < sintOf w y)) then y else x := by
  simp only [intMinMax, Bool.bne_true, Bool.not_eq_true', ← Bool.not_eq_true, ite_not]

end

/-! ## Integer lane operations, VPOPC and VMOV (R159, R160) -/

section
variable {i : Instr} {s : State} {f : VF} {lat : Nat}

/-- An integer operation writes any lanes that agree with its results modulo 2^w. -/
theorem writesLanes_of_vint {op : Nat → Nat → Nat → Nat} {r : Nat → Nat}
    (hu : UnhinderedV s f [s.regV f.a, s.regV f.b] [s.regV f.d]) (h : exec i s = .next (s.vint f lat op))
    (hr : ∀ j, op (vWidth f) (elA s f j) (elB s f j) ≡ r j [MOD 2 ^ vWidth f]) :
    WritesLanes i s f (vElem f) lat false fun j => (r j, 0) := by
  obtain ⟨v, fl, he, hv, hfl⟩ := writesLanes_of_vbits2 (fun x y => (op (vWidth f) x y, 0)) hu h
  exact ⟨v, fl, he, fun j hj hon => (hv j hj hon).trans (hr j), hfl⟩

end

/-- Settles O14: each two-source operation by the arithmetic of its results modulo 2^w, the others by their bits. -/
theorem integerLaneResults : Obligations.IntegerLaneResults := by
  intro f s
  refine ⟨fun hu => ⟨?viadd, ?visub, ?vimul, ?vimulh, ?vand, ?vor, ?vxor, ?vshl, ?vshr, ?vsar, ?vimin, ?vimax⟩,
    fun hu => ⟨?vpopc, ?vmov⟩⟩
  case viadd => exact writesLanes_of_vint hu rfl fun j => intAddSub_add_modEq ..
  case visub => exact writesLanes_of_vint hu rfl fun j => intAddSub_sub_modEq _ _ _ _ (elem_lt ..)
  case vimul => exact writesLanes_of_vint hu rfl fun j => Nat.mod_modEq ..
  case vshl => exact writesLanes_of_vint hu rfl fun j => Nat.mod_modEq ..
  case vimin => exact writesLanes_of_vint hu rfl fun j => congrArg (· % _) (intMin_eq ..)
  case vimax => exact writesLanes_of_vint hu rfl fun j => congrArg (· % _) (intMax_eq ..)
  case vpopc =>
    have := writesLanes_of_vbits1 (fun x => onesOf x 64) hu (i := .vpopc f) rfl
    simpa only [onesOf_eq_countP] using this
  case vmov => exact writesLanes_of_vbits1 id hu rfl
  all_goals exact writesLanes_of_vint hu rfl fun j => .rfl

/-! ## Conversion and block packing (R163 to R165) -/

/-- A lane of the bits that a choice of lanes covers. -/
theorem elem_laneBits (t : ElemType) (on : Nat → Bool) {j : Nat} (h : j < ElemType.lanes t) :
    elem (ElemType.bits t) (BitVec.ofNat 512 (laneBits (ElemType.bits t) on 0 (ElemType.lanes t))) j
      = if on j then 2 ^ ElemType.bits t - 1 else 0 := by
  rw [laneBits_eq_laneFold, elem_laneFold t _ _ h, Nat.mod_eq_of_lt (Nat.sub_lt (Nat.two_pow_pos _) one_pos)]

/-- A line of which only the lanes with p are written, under their mask: a lane of its write mask, and one that is written. -/
theorem elem_of_part (t : ElemType) (p : Nat → Prop) [DecidablePred p] (on : Nat → Bool) (g : Nat → Nat × FlagBits) {j : Nat}
    (h : j < ElemType.lanes t) :
    let w := ElemType.bits t
    let part (i : Nat) : Bool := decide (p i) && on i
    elem w (BitVec.ofNat 512 (laneBits w part 0 (ElemType.lanes t))) j = (if p j ∧ on j = true then 2 ^ w - 1 else 0)
      ∧ (p j → on j = true →
          elem w (BitVec.ofNat 512 (laneFold w part g 0 (ElemType.lanes t)).1) j = (g j).1 % 2 ^ w) := by
  intro w part
  have hpart : part j = true ↔ p j ∧ on j = true := by rw [Bool.and_eq_true, decide_eq_true_iff]
  exact ⟨(elem_laneBits t part h).trans (if_congr hpart rfl rfl),
    fun hp hon => (elem_laneFold t part g h).trans (if_pos (hpart.2 ⟨hp, hon⟩))⟩

/-- Settles O16: VCVT and VPACKB by the lanes of a line that is written in part, VUNPKB as a write of lanes. -/
theorem conversionAndPacking : Obligations.ConversionAndPacking := by
  intro f s
  refine ⟨fun hu => ⟨_, _, _, congrArg Host.Outcome.next (hu.runs _), fun j hj => ?_⟩,
    fun hu => ⟨⟨_, _, _, congrArg Host.Outcome.next (hu.runs _), fun j hj => elem_of_part _ (· / 16 = _) _ _ hj⟩,
      hu.writesLanes rfl rfl⟩⟩
  obtain ⟨hmask, hval⟩ := elem_of_part (vElem f)
    (· < Nat.min (ElemType.lanes (vElem f)) (ElemType.lanes (elemOfCode f.sub.toNat))) _ _ hj
  have hmin : j < Nat.min (ElemType.lanes (vElem f)) (ElemType.lanes (elemOfCode f.sub.toNat))
      ↔ j < ElemType.lanes (elemOfCode f.sub.toNat) := lt_min_iff.trans (and_iff_right hj)
  exact ⟨hmask.trans (if_congr (and_congr_left' hmin) rfl rfl), fun hsrc => hval (hmin.2 hsrc)⟩

/-! ## Memory and doors (R169 to R172) -/

/-- A V syllable that nothing hinders has its own effect. -/
theorem UnhinderedV.next {i : Instr} {s t : State} {f : VF} {srcs dsts : List Reg} {body : State → State}
    (hu : UnhinderedV s f srcs dsts) (h : exec i s = .next (s.vsyl f srcs dsts body)) (hb : body s = t) :
    exec i s = .next t :=
  hb ▸ h.trans (congrArg Host.Outcome.next (hu.runs body))

/-- Settles O18: loads and stores by the check of their line, VPUT by the room of its door, which it looks at first. -/
theorem vectorMemoryAndDoors : Obligations.VectorMemoryAndDoors := by
  intro f s
  refine ⟨fun hu => ⟨fun c hc => ⟨?_, ?_⟩, fun hc => ⟨?_, ?_⟩⟩, fun hu => ⟨fun c hc => ⟨?_, ?_⟩, fun hc => ⟨?_, ?_⟩⟩,
    fun hu => hu.next rfl rfl, fun hr => if_pos (by rw [hr]; rfl), fun hu hr => hu.next (if_neg (by rw [hr]; decide)) rfl⟩
  all_goals exact hu.next rfl (by simp only [State.vaddr, hc])

/-! ## Mask operations (R174) -/

/-- The count of trailing zeros is the place of the lowest one bit, or 64 where there is none. -/
theorem ctzW_spec (a : Word) : ∃ n ≤ 64, ctzW a = BitVec.ofNat 64 n
    ∧ (∀ i < n, a.getLsbD i = false) ∧ (n < 64 → a.getLsbD n = true) := by
  refine ⟨trailing a 0 64, trailing_le a 0 64, rfl, fun i hi => ?_, fun hn => ?_⟩
  · simpa using getLsbD_of_lt_trailing a 0 64 hi
  · simpa using getLsbD_trailing a 0 64 hn

/-- Settles O19: the logic by its own effect, the count and the place of the lowest bit by the bits of the mask. -/
theorem maskOperations : Obligations.MaskOperations := by
  intro f s
  refine ⟨fun hu => ⟨hu.next rfl rfl, hu.next rfl rfl, hu.next rfl rfl⟩, fun hu => hu.next rfl rfl, fun hu => ⟨?_, ?_⟩⟩
  · exact hu.next rfl (congrArg (s.putRowS _ · 2) (popcW_eq _))
  · obtain ⟨n, hn, he, hzero, hone⟩ := ctzW_spec (s.rdM f.a.toNat)
    exact ⟨n, hn, hu.next rfl (congrArg (s.putRowS _ · 2) he), hzero, hone⟩

end Sys2Proof.Machine
end

section
/-! The T micro-operations (R190 to R202): each changes the firing under way and nothing else; the moves of tokens, the
counters and merges, and the edge elements. -/

namespace Sys2Proof.Machine

/-! ## What a micro-operation keeps of its firing (R188, R193) -/

/-- The context of a firing, its section, the place of its PE, and the heads. -/
def Micro.site (m : Micro) : CtxId × Nat × Nat × Nat × List (Nat × Token) := (m.k, m.h, m.pe.row, m.pe.col, m.heads)

section
variable (m : Micro)

@[simp] theorem Micro.site_put (x : Nat) (t : Token) : (m.put x t).site = m.site := by
  unfold Micro.put
  dsimp only
  (repeat' split) <;> rfl

@[simp] theorem Micro.site_keepHead (x : Nat) : (m.keepHead x).site = m.site := rfl

@[simp] theorem Micro.site_record (t : Token) (q : Nat) : (m.record t q).site = m.site := by
  unfold Micro.record
  split <;> rfl

@[simp] theorem Micro.site_edge (f : TF) (op : Nat) (addr : Token) (data : List Token) (outs : Nat) :
    (m.edge f op addr data outs).site = m.site := by
  unfold Micro.edge
  dsimp only
  split <;> rfl

@[simp] theorem site_withHalves (h : TurnHalf × TurnHalf) : (withHalves m h).site = m.site := rfl

theorem Micro.site_elementwise (u : Nat) (f : AM) : (m.elementwise u f).site = m.site := by
  unfold Micro.elementwise
  dsimp only
  split <;> exact m.site_put ..

end

/-- An instruction whose whole effect is a change of the firing under way, which keeps its site. -/
def ActsOnFiring (i : Instr) : Prop :=
  ∃ F : Micro → Micro, (∀ s, exec i s = .next (s.onMicro F)) ∧ ∀ m, (F m).site = m.site

theorem actsOnFiring_tNop : ActsOnFiring .tNop := by
  refine ⟨id, fun s => ?_, fun _ => rfl⟩
  change Host.Outcome.next s = _
  cases h : s.micro with
  | none => rw [s.onMicro_none _ h]
  | some m => rw [s.onMicro_some m _ h, id, ← h]

theorem actsOnFiring_steer (f : TF) : ActsOnFiring (.steer f) := by
  refine ⟨_, fun _ => rfl, fun m => ?_⟩
  dsimp only
  split <;> exact m.site_put ..

theorem actsOnFiring_acc (f : TF) : ActsOnFiring (.acc f) := by
  refine ⟨_, fun _ => rfl, fun m => ?_⟩
  dsimp only
  split
  · rfl
  · split <;> exact (m.setCount 0).site_put ..

theorem actsOnFiring_cnt (f : TF) : ActsOnFiring (.cnt f) := by
  refine ⟨_, fun _ => rfl, fun m => ?_⟩
  dsimp only
  split
  · exact m.site_put ..
  · split
    · exact (m.setCount _).site_put ..
    · rfl

theorem actsOnFiring_mergeArr (f : TF) : ActsOnFiring (.mergeArr f) := by
  refine ⟨_, fun _ => rfl, fun m => ?_⟩
  dsimp only
  split <;> exact m.site_put ..

theorem actsOnFiring_mergeAlt (f : TF) : ActsOnFiring (.mergeAlt f) := by
  refine ⟨_, fun _ => rfl, fun m => ?_⟩
  dsimp only
  split <;> exact Micro.site_put ..

/-- TURN lets tokens in, without a change of the site, and then emits one or does not. -/
theorem actsOnFiring_turn (f : TF) : ActsOnFiring (.turn f) := by
  refine ⟨_, fun _ => rfl, fun m => ?_⟩
  dsimp only
  change Micro.site (withHalves _ _) = _
  rw [site_withHalves]
  (repeat' split) <;> simp

theorem actsOnFiring_edst (f : TF) : ActsOnFiring (.edst f) := by
  refine ⟨_, fun _ => rfl, fun m => ?_⟩
  dsimp only
  split
  · exact m.site_edge ..
  · split
    · rfl
    · split
      · rfl
      · exact Micro.site_edge ..

/-- Each T micro-operation of Table 2.12 acts on the firing alone. -/
theorem actsOnFiring_of_tOpcode {i : Instr} {op : Nat} {f : TF} (h : tOpcode i = some (op, f)) : ActsOnFiring i := by
  unfold tOpcode at h
  split at h
  case h_3 => exact ⟨_, fun _ => rfl, fun m => (Micro.site_put ..).trans (m.site_put ..)⟩
  case h_4 f => exact actsOnFiring_steer f
  case h_6 f => exact actsOnFiring_acc f
  case h_8 f => exact actsOnFiring_turn f
  case h_9 | h_11 => exact ⟨_, fun _ => rfl, fun m => m.site_edge ..⟩
  case h_10 f => exact actsOnFiring_edst f
  case h_13 | h_15 => exact ⟨_, fun _ => rfl, fun m => m.site_record ..⟩
  case h_14 f => exact actsOnFiring_cnt f
  case h_16 f => exact actsOnFiring_mergeArr f
  case h_17 f => exact actsOnFiring_mergeAlt f
  case h_18 => cases h
  all_goals exact ⟨_, fun _ => rfl, fun m => m.site_put ..⟩

theorem actsOnFiring_peDotStep (f : AM) : ActsOnFiring (.peDotStep f) := by
  refine ⟨_, fun _ => rfl, fun m => ?_⟩
  dsimp only
  split <;> exact m.site_put ..

/-- So does every micro-operation. -/
theorem actsOnFiring_of_isMicroOp {i : Instr} (h : isMicroOp i = true) : ActsOnFiring i := by
  rw [isMicroOp, Bool.or_eq_true, Option.isSome_iff_exists, Option.isSome_iff_exists] at h
  obtain ⟨w, hw⟩ | ⟨w, hw⟩ := h
  · obtain ⟨rfl, -⟩ | ⟨op, f, ho, -⟩ := encodeT_eq_some.1 hw
    · exact actsOnFiring_tNop
    · exact actsOnFiring_of_tOpcode ho
  · unfold encodeAM at hw
    split at hw
    case h_1 | h_2 => exact ⟨_, fun _ => rfl, fun m => m.site_elementwise ..⟩
    case h_3 f => exact actsOnFiring_peDotStep f
    case h_4 => cases hw

/-- Settles O48: every micro-operation is a change of the firing under way that keeps its site. -/
theorem microOpsOnlyFire : Obligations.MicroOpsOnlyFire := by
  intro i s h
  obtain ⟨F, he, hF⟩ := actsOnFiring_of_isMicroOp h
  refine ⟨fun hn => ?_, fun m hm => ⟨F m, ?_, ?_⟩⟩
  · rw [he, s.onMicro_none F hn]
  · rw [he, s.onMicro_some m F hm]
  · simpa only [Micro.site, Prod.mk.injEq] using hF m

/-! ## Moves of tokens (R190, R197, R199) -/

/-- What an instruction that acts on the firing under way makes of it. -/
theorem exec_of_onMicro {i : Instr} {s : State} {m n : Micro} {F : Micro → Micro} (hm : s.micro = some m)
    (h : exec i s = .next (s.onMicro F)) (hF : F m = n) : exec i s = .next { s with micro := some n } := by
  rw [h, s.onMicro_some m F hm, hF]

theorem firstOrigin_poison {t : Token} (r : List Token) (h : t.kind = .poison) :
    firstOrigin (t :: r) = some (t.payload.setWidth 32) := if_pos h

theorem firstOrigin_clean {t : Token} (r : List Token) (h : t.kind ≠ .poison) : firstOrigin (t :: r) = firstOrigin r :=
  if_neg h

/-- The first poison token of a list gives its origin. -/
theorem firstOrigin_append {before after : List Token} {t : Token} (hb : ∀ x ∈ before, x.kind ≠ .poison)
    (ht : t.kind = .poison) : firstOrigin (before ++ t :: after) = some (t.payload.setWidth 32) := by
  induction before with
  | nil => exact firstOrigin_poison after ht
  | cons x l ih =>
    obtain ⟨hx, hl⟩ := List.forall_mem_cons.1 hb
    rw [List.cons_append, firstOrigin_clean _ hx, ih hl]

theorem yield_poison {t u : Token} {r : List Token} (h : t.kind = .poison) :
    yield (t :: r) u = poisonToken (t.payload.setWidth 32) := by
  rw [yield, firstOrigin_poison r h]

theorem yield_clean {t u : Token} {r : List Token} (h : t.kind ≠ .poison) : yield (t :: r) u = yield r u := by
  rw [yield, firstOrigin_clean r h, yield]

theorem firstOrigin_eq_none {l : List Token} (h : ∀ t ∈ l, t.kind ≠ .poison) : firstOrigin l = none := by
  induction l with
  | nil => rfl
  | cons t l ih =>
    obtain ⟨ht, hl⟩ := List.forall_mem_cons.1 h
    rw [firstOrigin_clean l ht, ih hl]

/-- Settles O21: each operation by what its sources make of the token that it sends. -/
theorem tokenMoves : Obligations.TokenMoves := by
  intro f s m hm a b p sent
  have sends {i : Instr} {F : Micro → Micro} {d : Nat} {t : Token} (h : exec i s = .next (s.onMicro F))
      (hF : F m = m.put d t) : sent i d t := exec_of_onMicro hm h hF
  refine ⟨sends rfl rfl, exec_of_onMicro hm rfl rfl, ?join, ?joinA, ?joinB, fun hb => sends rfl (if_neg hb), ?steerB, ?steerA,
    fun hp => sends rfl (congrArg (m.put _) (if_neg hp)), ?selpA, ?selpB, ?selpP⟩
  case join => exact fun ha hb => sends rfl (congrArg (m.put _) ((yield_clean ha).trans (yield_clean hb)))
  case joinA => exact fun ha => sends rfl (congrArg (m.put _) (yield_poison ha))
  case joinB => exact fun ha hb => sends rfl (congrArg (m.put _) ((yield_clean ha).trans (yield_poison hb)))
  case steerB =>
    exact fun hb ha => sends rfl ((if_pos hb).trans (congrArg (m.put _) ((yield_clean ha).trans (yield_poison hb))))
  case steerA => exact fun hb ha => sends rfl ((if_pos hb).trans (congrArg (m.put _) (yield_poison ha)))
  case selpA => exact fun hp ha => sends rfl (congrArg (m.put _) ((if_pos hp).trans (yield_poison ha)))
  case selpB =>
    exact fun hp ha hb => sends rfl (congrArg (m.put _) ((if_pos hp).trans ((yield_clean ha).trans (yield_poison hb))))
  case selpP =>
    exact fun hp ha hb => sends rfl (congrArg (m.put _)
      ((if_pos hp).trans ((yield_clean ha).trans ((yield_clean hb).trans (yield_poison hp)))))

/-! ## MERGE.ALT and its memory of turns (R197) -/

/-- A firing whose list of the entries that take b next names entry 0 twice. -/
def twiceB : Micro := { pe := { row := 0, col := 0, recNo := 0, copy := 0, tag := 0, alts := [0, 0] } }

/-- Refutes O22, at its clause on MERGE.ALT: nothing in the statement keeps the list of entries that take b next from naming an
entry twice; a firing then takes one of the two names from the list, so that the entry takes b again and not a. -/
theorem not_countersMergesAndTurn : ¬ Obligations.CountersMergesAndTurn := by
  intro h
  obtain ⟨-, -, ⟨m', he, -, -, halts⟩, -⟩ := h.2 ⟨0, 0, 0, 0⟩ { micro := some twiceB } twiceB rfl
  have hleft : exec (.mergeAlt ⟨0, 0, 0, 0⟩) { micro := some twiceB }
      = .next { micro := some (({ twiceB with pe := twiceB.pe.flipAlt } : Micro).put 0 (twiceB.src 0) |>.keepHead 0) } := rfl
  rw [hleft] at he
  cases he
  exact absurd (halts 0) (by decide)

/-! ## Edge elements (R201, R202) -/

/-- An instruction that has an edge access made presents it. -/
theorem presentsEdge_of_edge {i : Instr} {s : State} {m : Micro} {f : TF} {op outs : Nat} {addr : Token} {data : List Token}
    (h : exec i s = .next { s with micro := some (m.edge f op addr data outs) }) :
    PresentsEdge i s m f op addr data outs := by
  refine ⟨fun hc => ?_, fun before t after hl hb ht => ?_⟩
  · rw [h, Micro.edge, firstOrigin_eq_none hc]
  · have ho : firstOrigin (addr :: data) = some (t.payload.setWidth 32) := hl ▸ firstOrigin_append hb ht
    rw [h, Micro.edge, ho]

/-- Settles O23: EDST.L by what its entry has gathered, the others by their one access. -/
theorem edgeAccesses : Obligations.EdgeAccesses := by
  intro f s m hm a b line
  have presents {i : Instr} {F : Micro → Micro} {n : Micro} {op outs : Nat} {addr : Token} {data : List Token}
      (h : exec i s = .next (s.onMicro F)) (hF : F m = n.edge f op addr data outs) :
      PresentsEdge i s n f op addr data outs := presentsEdge_of_edge (exec_of_onMicro hm h hF)
  refine ⟨presents rfl rfl, presents rfl rfl, fun hl => presents rfl (if_pos hl), fun hl => ⟨fun h0 => ?_, fun x ds h hd => ?_,
    fun x ds h hd => ?_⟩⟩
  · refine exec_of_onMicro hm rfl ((if_neg (not_not.2 hl)).trans ?_)
    dsimp only
    rw [show m.pe.line = [] from h0]
    rfl
  · refine exec_of_onMicro hm rfl ((if_neg (not_not.2 hl)).trans ?_)
    dsimp only
    rw [show m.pe.line = x :: ds from h]
    exact if_pos hd
  · refine presents (n := withLine (m.keepHead f.a.toNat) []) rfl ((if_neg (not_not.2 hl)).trans ?_)
    dsimp only
    rw [show m.pe.line = x :: ds from h]
    exact if_neg (by omega)

end Sys2Proof.Machine
end

section
/-! The A and M micro-operations and the dot step (R195, R197, R202): the lanes of a result, and what each opcode sends. -/

namespace Sys2Proof.Machine

section
variable {i : Instr} {s : State} {m : Micro} {f : AM}

/-! ## Lanes of a token -/

/-- The lanes of a token that a fold fills fit in it. -/
theorem laneFold_lt_token {w n : Nat} (hn : n ≤ 128 / w) (on : Nat → Bool) (g : Nat → Nat × FlagBits) :
    (laneFold w on g 0 n).1 < 2 ^ 128 :=
  (laneFold_lt w on g 0 n).trans_le
    (Nat.pow_le_pow_right two_pos ((Nat.mul_le_mul_left w hn).trans (Nat.mul_div_le 128 w)))

/-- Lane j of a token of n lanes is what the lane function gives; the lanes from n on are zero. -/
theorem lanesOf_lane {w n : Nat} (hn : n ≤ 128 / w) (g : Nat → Nat × FlagBits) (j : Nat) :
    (lanesOf w n g).1.toNat / 2 ^ (w * j) % 2 ^ w = if j < n then (g j).1 % 2 ^ w else 0 := by
  have hv : (lanesOf w n g).1.toNat = (laneFold w (fun _ => true) g 0 n).1 := by
    rw [lanesOf, BitVec.toNat_ofNat, Nat.mod_eq_of_lt (laneFold_lt_token hn _ g)]
  rw [hv]
  split
  case isTrue h => rw [laneFold_lane _ _ _ _ _ h, if_pos rfl, Nat.zero_add]
  case isFalse h =>
    have hlt := (laneFold_lt w (fun _ => true) g 0 n).trans_le
      (Nat.pow_le_pow_right two_pos (Nat.mul_le_mul_left w (Nat.le_of_not_lt h)))
    rw [Nat.div_eq_of_lt hlt, Nat.zero_mod]

theorem lanesOf_flags (w n : Nat) (g : Nat → Nat × FlagBits) (b : Nat) :
    (lanesOf w n g).2.getLsbD b = true ↔ ∃ j < n, (g j).2.getLsbD b = true := by
  simpa [lanesOf] using laneFold_flags w (fun _ => true) g 0 n b

/-! ## The forms of what is sent -/

/-- Any lanes that agree modulo 2^w with those of the token sent, where the flags are the lanes'. -/
theorem sendsLanes_of_lanesOf {w : Nat} {g r : Nat → Nat × FlagBits} {fl : FlagBits}
    (h : exec i s = .next { s with micro := some (withFlags (m.put f.d.toNat { payload := (lanesOf w (128 / w) g).1 }) fl) })
    (hr : ∀ j, (g j).1 ≡ (r j).1 [MOD 2 ^ w])
    (hfl : ∀ b, fl.getLsbD b = true ↔ ∃ j < 128 / w, (r j).2.getLsbD b = true) : SendsLanes i s m f w r := by
  refine ⟨_, _, h, fun j hj => ?_, hfl⟩
  rw [lanesOf_lane le_rfl, if_pos hj]
  exact hr j

theorem sendsBits_of_maskFold {w : Nat} {g : Nat → Bool × FlagBits} {fl : FlagBits}
    (h : exec i s = .next { s with micro := some (withFlags
      (m.put f.d.toNat { payload := BitVec.ofNat 128 (maskFold g 0 (128 / w)).1 }) fl) })
    (hfl : ∀ b, fl.getLsbD b = true ↔ ∃ j < 128 / w, (g j).2.getLsbD b = true) : SendsBits i s m f w g := by
  refine ⟨_, _, h, fun j hj => ?_, hfl⟩
  rw [BitVec.getLsbD_ofNat, maskFold_testBit, Nat.zero_add, decide_eq_true hj, Bool.true_and]

/-- Lanes that raise no flag raise none together. -/
theorem noFlags (n b : Nat) : (0 : FlagBits).getLsbD b = true ↔ ∃ j < n, (0 : FlagBits).getLsbD b = true := by simp

/-! ## Element-wise micro-operations -/

/-- The operands that an element-wise micro-operation reads. -/
def Micro.operands (m : Micro) (f : AM) : List Token :=
  m.src f.a.toNat :: ((if amUsesB f.op.toNat then [m.src f.b.toNat] else [])
    ++ if amUsesC f.op.toNat then [m.src f.c.toNat] else [])

/-- The value and the flags that an element-wise micro-operation makes of clean operands. -/
def Micro.lanewise (m : Micro) (u : Nat) (f : AM) : BitVec 128 × FlagBits :=
  let op := f.op.toNat
  let t := elemOfCode f.ty.toNat
  let w := ElemType.bits t
  let a := m.src f.a.toNat
  let b := m.src f.b.toNat
  let c := m.src f.c.toNat
  if op = 0x40 then
    ((lanesOf w (128 / w) fun i => (if c.payload.getLsbD i then telem w a i else telem w b i, 0)).1, 0)
  else if op = 0x41 then (a.payload, 0)
  else if op = 0x47 then
    let ts := elemOfCode f.c.toNat
    lanesOf w (Nat.min (128 / w) (128 / ElemType.bits ts)) fun i =>
      convert ts t (telem (ElemType.bits ts) a i) (m.rnd u i)
  else if op < 0x20 then m.floatOp op u (fmtOf t) w f.c.toNat a b c
  else m.intOp op w f.c.toNat a b

theorem Micro.flags_put (m : Micro) (x : Nat) (t : Token) : (m.put x t).flags = m.flags := by
  unfold Micro.put
  dsimp only
  (repeat' split) <;> rfl

/-- A firing that sends a result and raises its flags, or, where an operand is poison, sends its origin (R195, R202). -/
def Micro.result (m : Micro) (d : Nat) (operands : List Token) (r : BitVec 128 × FlagBits) : Micro :=
  (firstOrigin operands).elim (withFlags (m.put d { payload := r.1 }) r.2) fun o => m.put d (poisonToken o)

theorem Micro.result_poison {d : Nat} {l : List Token} {o : BitVec 32} (h : firstOrigin l = some o)
    (r : BitVec 128 × FlagBits) : m.result d l r = m.put d (poisonToken o) := by
  rw [Micro.result, h, Option.elim_some]

theorem Micro.result_clean {d : Nat} {l : List Token} (h : firstOrigin l = none) (r : BitVec 128 × FlagBits) :
    m.result d l r = withFlags (m.put d { payload := r.1 }) r.2 := by
  rw [Micro.result, h, Option.elim_none]

theorem Micro.elementwise_eq (m : Micro) (u : Nat) (f : AM) :
    m.elementwise u f = m.result f.d.toNat (m.operands f) (m.lanewise u f) := by
  change (match firstOrigin (m.operands f) with
    | some o => m.put f.d.toNat (poisonToken o)
    | none => { m.put f.d.toNat { payload := (m.lanewise u f).1 } with flags := m.flags ||| (m.lanewise u f).2 }) = _
  rw [Micro.result, withFlags, Micro.flags_put]
  cases firstOrigin (m.operands f) <;> rfl

section
variable (ha : (m.src f.a.toNat).kind ≠ .poison)
include ha

theorem firstOrigin_operands_b (hu : amUsesB f.op.toNat = true) (hb : (m.src f.b.toNat).kind = .poison) :
    firstOrigin (m.operands f) = some ((m.src f.b.toNat).payload.setWidth 32) := by
  rw [Micro.operands, firstOrigin_clean _ ha, if_pos hu]
  exact firstOrigin_poison _ hb

theorem firstOrigin_operands_rest (hb : amUsesB f.op.toNat = true → (m.src f.b.toNat).kind ≠ .poison) :
    firstOrigin (m.operands f) = firstOrigin (if amUsesC f.op.toNat then [m.src f.c.toNat] else []) := by
  rw [Micro.operands, firstOrigin_clean _ ha]
  split
  case isTrue hu => exact firstOrigin_clean _ (hb hu)
  case isFalse => rfl

theorem firstOrigin_operands_c (hb : amUsesB f.op.toNat = true → (m.src f.b.toNat).kind ≠ .poison)
    (hu : amUsesC f.op.toNat = true) (hc : (m.src f.c.toNat).kind = .poison) :
    firstOrigin (m.operands f) = some ((m.src f.c.toNat).payload.setWidth 32) := by
  rw [firstOrigin_operands_rest ha hb, if_pos hu, firstOrigin_poison _ hc]

theorem firstOrigin_operands_clean (hb : amUsesB f.op.toNat = true → (m.src f.b.toNat).kind ≠ .poison)
    (hc : amUsesC f.op.toNat = true → (m.src f.c.toNat).kind ≠ .poison) : firstOrigin (m.operands f) = none := by
  rw [firstOrigin_operands_rest ha hb]
  split
  case isTrue hu => exact firstOrigin_clean _ (hc hu)
  case isFalse => rfl

end

/-! ## The opcodes -/

theorem withFlags_zero (m : Micro) : withFlags m 0 = m :=
  congrArg (fun fl => ({ m with flags := fl } : Micro)) BitVec.or_zero

section
variable {u : Nat} (he : exec i s = .next { s with
  micro := some (withFlags (m.put f.d.toNat { payload := (m.lanewise u f).1 }) (m.lanewise u f).2) })
include he

/-- An opcode whose result is a token of lanes sends those lanes. -/
theorem sendsLanes_of_lanewise {w : Nat} {g : Nat → Nat × FlagBits} (hg : m.lanewise u f = lanesOf w (128 / w) g) :
    SendsLanes i s m f w g := by
  rw [hg] at he
  exact sendsLanes_of_lanesOf he (fun _ => .rfl) (lanesOf_flags w _ g)

/-- An integer opcode sends any lanes that agree with its results modulo 2^w. -/
theorem sendsLanes_of_modEq {w : Nat} {g r : Nat → Nat} (hg : m.lanewise u f = lanesOf w (128 / w) fun j => (g j, 0))
    (hr : ∀ j, g j ≡ r j [MOD 2 ^ w]) : SendsLanes i s m f w fun j => (r j, 0) := by
  rw [hg] at he
  exact sendsLanes_of_lanesOf he hr (lanesOf_flags w _ fun j => (g j, 0))

/-- SEL sends lanes and raises no flag. -/
theorem sendsLanes_of_value {w : Nat} {g : Nat → Nat} (hg : m.lanewise u f = ((lanesOf w (128 / w) fun j => (g j, 0)).1, 0)) :
    SendsLanes i s m f w fun j => (g j, 0) := by
  rw [hg] at he
  exact sendsLanes_of_lanesOf he (fun _ => .rfl) (noFlags _)

/-- A floating-point compare sends its outcomes and raises the flags of its lanes. -/
theorem sendsBits_of_lanewise {w : Nat} {g : Nat → Bool × FlagBits}
    (hg : m.lanewise u f = (BitVec.ofNat 128 (maskFold g 0 (128 / w)).1, (maskFold g 0 (128 / w)).2)) :
    SendsBits i s m f w g := by
  rw [hg] at he
  exact sendsBits_of_maskFold he fun b => by simpa using maskFold_flags g 0 (128 / w) b

/-- An integer compare sends its outcomes and raises no flag. -/
theorem sendsBits_of_value {w : Nat} {g : Nat → Bool}
    (hg : m.lanewise u f = (BitVec.ofNat 128 (maskFold (fun j => (g j, 0)) 0 (128 / w)).1, 0)) :
    SendsBits i s m f w fun j => (g j, 0) := by
  rw [hg] at he
  exact sendsBits_of_maskFold he (noFlags _)

theorem sendsConverted_of_lanewise
    (hg : m.lanewise u f = lanesOf (ElemType.bits (elemOfCode f.ty.toNat))
      (min (128 / ElemType.bits (elemOfCode f.ty.toNat)) (128 / ElemType.bits (elemOfCode f.c.toNat)))
      fun j => convert (elemOfCode f.c.toNat) (elemOfCode f.ty.toNat)
        (telem (ElemType.bits (elemOfCode f.c.toNat)) (m.src f.a.toNat) j) (m.rnd u j)) :
    SendsConverted i s m f u := by
  rw [hg] at he
  exact ⟨_, _, he, fun j _ => lanesOf_lane (min_le_left ..) _ j, fun b => lanesOf_flags ..⟩

/-- An opcode that sends a payload and raises no flag. -/
theorem exec_of_value {v : BitVec 128} (hg : m.lanewise u f = (v, 0)) :
    exec i s = .next { s with micro := some (m.put f.d.toNat { payload := v }) } := by
  rw [he, hg, withFlags_zero]

end

/-- The low bit of the sub-operation, which makes an integer opcode unsigned. -/
theorem unsigned_eq (c : BitVec 5) : (c.toNat % 2 == 1) = c.getLsbD 0 := by
  rw [BitVec.getLsbD, Nat.testBit_zero]
  rfl

theorem telem_lt (w : Nat) (t : Token) (j : Nat) : telem w t j < 2 ^ w := Nat.mod_lt _ (Nat.two_pow_pos w)

end

/-! ## The dot step (R88, R89, R195) -/

/-- What the dot step adds to its addend, with its flags. -/
def Micro.dotStep (m : Micro) (f : AM) : Nat × FlagBits :=
  let t := elemOfCode f.ty.toNat
  let a := m.src f.a.toNat
  let b := m.src f.b.toNat
  let p := (m.src f.c.toNat).payload.toNat % 2 ^ 32
  if t = .i8 then (dotStepInt ((List.range 16).map fun i => (sintOf 8 (telem 8 a i), sintOf 8 (telem 8 b i))) p m.sat, 0)
  else dotStepFloat (groupPairs t a b) p (m.rnd 0 0)

theorem exec_peDotStep (f : AM) (s : State) : exec (.peDotStep f) s = .next (s.onMicro fun m =>
    m.result f.d.toNat [m.src f.a.toNat, m.src f.b.toNat, m.src f.c.toNat]
      (BitVec.ofNat 128 (m.dotStep f).1, (m.dotStep f).2)) := by
  refine congrArg Host.Outcome.next (congrArg s.onMicro (funext fun m => ?_))
  change (match firstOrigin [m.src f.a.toNat, m.src f.b.toNat, m.src f.c.toNat] with
    | some o => m.put f.d.toNat (poisonToken o)
    | none => { m.put f.d.toNat { payload := BitVec.ofNat 128 (m.dotStep f).1 } with
        flags := m.flags ||| (m.dotStep f).2 }) = _
  rw [Micro.result, withFlags, Micro.flags_put]
  cases firstOrigin [m.src f.a.toNat, m.src f.b.toNat, m.src f.c.toNat] <;> rfl

/-- Settles O24: poison by the first poison operand, then opcode by opcode the lanes that it makes of clean operands. -/
theorem arithmeticMicroOps : Obligations.ArithmeticMicroOps := by
  intro f s m hm t w F a b c x y z un sx sy dot
  refine ⟨fun i u hi => ?_, ?_⟩
  · have he : exec i s = .next (s.onMicro fun m => m.elementwise u f) := by
      obtain ⟨rfl, rfl⟩ | ⟨rfl, rfl⟩ := hi <;> rfl
    have poisons {o : BitVec 32} (h : firstOrigin (m.operands f) = some o) :
        exec i s = .next { s with micro := some (m.put f.d.toNat (poisonToken o)) } :=
      exec_of_onMicro hm he ((m.elementwise_eq u f).trans (Micro.result_poison h _))
    refine ⟨fun ha => poisons (firstOrigin_poison _ ha), fun ha hu hb => poisons (firstOrigin_operands_b ha hu hb),
      fun ha hb hu hc => poisons (firstOrigin_operands_c ha hb hu hc), fun ha hb hc => ?_⟩
    have clean := exec_of_onMicro hm he
      ((m.elementwise_eq u f).trans (Micro.result_clean (firstOrigin_operands_clean ha hb hc) _))
    clear he poisons hb hc
    obtain ⟨op, ty, d, fa, fb, fc⟩ := f
    dsimp only [un]
    simp only [← unsigned_eq]
    refine ⟨?op01, ?op02, ?op03, ?op04, ?op05, ?op06, ?op07, ?op08, ?op09, ?op0A, ?op0B, ?op11, ?op12, ?op20, ?op21, ?op22,
      ?op23, ?op24, ?op25, ?op26, ?op27, ?op28, ?op29, ?op2A, ?op2B, ?op2C, ?op2D, ?op47, ?op40, ?op41⟩
    all_goals rintro rfl
    case op11 => exact sendsBits_of_lanewise clean rfl
    case op20 => exact sendsLanes_of_modEq clean rfl fun j => intAddSub_add_modEq ..
    case op21 => exact sendsLanes_of_modEq clean rfl fun j => intAddSub_sub_modEq _ _ _ _ (telem_lt ..)
    case op22 => exact sendsLanes_of_modEq clean rfl fun j => Nat.mod_modEq ..
    case op27 => exact sendsLanes_of_modEq clean rfl fun j => Nat.mod_modEq ..
    case op2A => exact sendsLanes_of_modEq clean rfl fun j => congrArg (· % _) (intMin_eq ..)
    case op2B => exact sendsLanes_of_modEq clean rfl fun j => congrArg (· % _) (intMax_eq ..)
    case op2C => exact sendsBits_of_value clean rfl
    case op2D =>
      have ones := sendsLanes_of_lanewise clean (g := fun j => (onesOf (x j) 64, 0)) rfl
      simpa only [onesOf_eq_countP] using ones
    case op47 => exact sendsConverted_of_lanewise clean rfl
    case op40 => exact sendsLanes_of_value clean rfl
    case op41 => exact exec_of_value clean rfl
    all_goals exact sendsLanes_of_lanewise clean rfl
  · have poisons {o : BitVec 32} (h : firstOrigin [a, b, c] = some o) :
        exec (.peDotStep f) s = .next { s with micro := some (m.put f.d.toNat (poisonToken o)) } :=
      exec_of_onMicro hm (exec_peDotStep f s) (Micro.result_poison h _)
    refine ⟨fun ha => poisons (firstOrigin_poison _ ha), fun ha hb => poisons ?_, fun ha hb hc => poisons ?_,
      fun ha hb hc => exec_of_onMicro hm (exec_peDotStep f s) (Micro.result_clean ?_ _)⟩
    · rw [firstOrigin_clean _ ha, firstOrigin_poison _ hb]
    · rw [firstOrigin_clean _ ha, firstOrigin_clean _ hb, firstOrigin_poison _ hc]
    · rw [firstOrigin_clean _ ha, firstOrigin_clean _ hb, firstOrigin_clean _ hc, firstOrigin]

end Sys2Proof.Machine
end

section
/-! Pre-emption and restore (R380 to R383) and the answers of application cores (R180, R377, R382, R430): what each act leaves
of its launch or its context, and which choices are refused. -/

namespace Sys2Proof.Machine

/-! ## A change of a launch -/

theorem State.launch?_id {s : State} {n : Nat} {l : Launch} (h : s.launch? n = some l) : l.id = n := by
  simpa using List.find?_some h

/-- A changed launch reads as the change made it, if that keeps numbers. -/
theorem State.launch?_onLaunch {s : State} {n : Nat} {l : Launch} (h : s.launch? n = some l) {f : Launch → Launch}
    (hf : ∀ x, (f x).id = x.id) : (s.onLaunch n f).launch? n = some (f l) := by
  have hid : (fun x : Launch => x.id == n) ∘ (fun x => if x.id = n then f x else x) = fun x => x.id == n := by
    funext x
    dsimp only [Function.comp]
    split <;> simp [hf]
  change (s.hub.launches.map fun x => if x.id = n then f x else x).find? (fun x => x.id == n) = _
  rw [List.find?_map, hid, show s.hub.launches.find? _ = some l from h, Option.map_some, if_pos (State.launch?_id h)]

/-! ## Pre-emption (R380 to R382) -/

section
variable {s : State} {k : CtxId} {c : Ctx} {l : Launch} {n : Nat}

theorem softPreemption_marks (h : s.launch? n = some l) (hr : l.stage = .running) :
    ∃ t, exec (.softPreemption n) s = .next t ∧ SameMemory s t ∧ t.launch? n = some { l with soft := true } := by
  have he : exec (.softPreemption n) s = .next (s.onLaunch n fun x => { x with soft := true }) := by
    simp only [exec, execSoftPreemption, h, hr, if_true]
  exact ⟨_, he, (execSoftPreemption_memIs n s).sameMemory he, State.launch?_onLaunch h fun _ => rfl⟩

theorem softPreemption_between (h : s.launch? n = some l) (hq : l.stage = .queued) (hw : l.wave ≠ 0)
    (hp : l.preempted = false) :
    exec (.softPreemption n) s = .next ((s.softReport l l.wave).onLaunch n fun x => { x with order := 0 }) := by
  simp [exec, execSoftPreemption, h, hq, hw, hp]

/-- The trace of the shutters of a context that close (R381). -/
def State.traceShut (s : State) (c : Ctx) : State :=
  c.secs.foldl (fun s x => if x.opened then s.trc 1 2 c [.word x.handle, .word 4] else s) s

/-- It changes nothing that trace records leave. -/
theorem State.traceShut_keeps {γ : Type} (g : State → γ) (hg : ∀ (s : State) (c : Ctx) (fs : List TField), g (s.trc 1 2 c fs) = g s)
    (s : State) (c : Ctx) : g (s.traceShut c) = g s := by
  refine foldl_keeps g _ (fun t x => ?_) _ s
  split
  · exact hg ..
  · rfl

theorem hardPreemption_shuts (hc : s.ctx? k = some c) (hl : c.live = true) (hs : c.task.stage ≠ .none)
    (hd : c.task.draining = none) (h : s.launch? c.task.launch = some l) (hv : l.victim = true) :
    ∃ t, exec (.hardPreemption k) s = .next t ∧ SameMemory s t ∧ t.ctx? k = some
      { c with secs := c.secs.map Section.shut, task := { c.task with draining := some s.clk } } := by
  let s1 := (s.trc 8 4 c [.word k.num, .word 0, .word 0, .word 0]).traceShut c
  have he : exec (.hardPreemption k) s = .next (s1.onCtx k fun c =>
      { c with secs := c.secs.map Section.shut, task := { c.task with draining := some s1.clk } }) := by
    simp [exec, execHardPreemption, hc, hl, hs, hd, h, hv, s1, State.traceShut]
  have hclk : s1.clk = s.clk := (State.traceShut_keeps State.clk (fun _ _ _ => State.trc_clk ..) _ c).trans (State.trc_clk ..)
  have hctx : s1.ctx? k = some c :=
    ((State.traceShut_keeps (·.ctx? k) (fun _ _ _ => trc_ctx? ..) _ c).trans (trc_ctx? ..)).trans hc
  refine ⟨_, he, (execHardPreemption_memIs k s).sameMemory he, ?_⟩
  rw [← hclk]
  exact ctx?_onCtx s1 k _ c hctx (ctx?_id hc :)

section
variable {since : Nat} (hc : s.ctx? k = some c) (hd : c.task.draining = some since) (ho : s.drainOver c since = true)
  (hu : c.undecided = none) (hr : c.task.saveReq = none)
include hc hd ho hu hr

/-- In host-assisted mode the end of a drain posts one request, of kind SAVE (R382). -/
theorem preemptionDrainEnd_asks (hid : c.id = k) (hb : s.splitBit c.part 3 = true) :
    ∃ t, exec (.preemptionDrainEnd k) s = .next t ∧ SameMemory s t
      ∧ t.ctx? k = some { c with task := { c.task with saveReq := some s.hub.nextReq } }
      ∧ ∃ r, t.hub.requests = s.hub.requests ++ [r] ∧ r.id = s.hub.nextReq ∧ r.kind = 4 ∧ r.args = [BitVec.ofNat 64 k.num] := by
  let s1 := (s.hubRequest 4 c.part k.tile k.num [BitVec.ofNat 64 k.num]).2
  have he : exec (.preemptionDrainEnd k) s
      = .next (s1.onCtx k fun c => { c with task := { c.task with saveReq := some s.hub.nextReq } }) := by
    simp [exec, execPreemptionDrainEnd, hc, hd, ho, hu, hr, hb, s1, State.hubRequest]
  have hr : (s1.onCtx k fun c => { c with task := { c.task with saveReq := some s.hub.nextReq } }).hub.requests
      = s.hub.requests ++ [⟨s.hub.nextReq, 4, c.part, k.tile, k.num, [BitVec.ofNat 64 k.num]⟩] := by
    rw [State.onCtx_hub]
    rfl
  exact ⟨_, he, (execPreemptionDrainEnd_memIs k s).sameMemory he, ctx?_onCtx s1 k _ c hc hid, _, hr, rfl, rfl, rfl⟩

theorem preemptionDrainEnd_saves {i : Nat} {rest : List Nat} (hb : s.splitBit c.part 3 = false)
    (hi : s.freeImages c.part = i :: rest) : exec (.preemptionDrainEnd k) s = .next (s.saveCtx c i) := by
  simp [exec, execPreemptionDrainEnd, hc, hd, ho, hu, hr, hb, hi]

end

theorem contextRestore_rebuilds {v : Saved} {s1 : State} (hc : s.ctx? k = some c)
    (hv : (s.hub.saved.find? fun v => v.ctx.id == k && v.ctx.task.launch == c.task.launch) = some v) (hl : c.live = true)
    (hs : c.task.stage = .none) (hr : s.rebuild c v = some s1) : exec (.contextRestore k) s = .next s1 := by
  simp [exec, execContextRestore, hc, hv, hl, hs, hr]

end

/-! ## Answers (R180, R377, R382, R430) -/

/-- A request that stands in its ring leaves it with its answer (R430). -/
theorem State.takeRequest_posted {s : State} {n : Nat} {q : HubReq} (h : s.posted n = some q) : s.takeRequest n
    = (some q, { s with hub := { s.hub with requests := s.hub.requests.filter fun r => r.id != n } }) := by
  simp only [State.takeRequest, h]

section
variable {s s0 s1 : State} {n : Nat} {q : HubReq} (hq : s.takeRequest n = (some q, s0))
include hq

section
variable {c : Ctx} {image : Nat} (claim : List Nat) (hc : (s0.ctxs.find? fun c => c.task.saveReq == some n) = some c)
include hc

theorem saveAnswer_saves (hi : (s0.freeImages c.part).contains image = true) (hs : s0.saveCtx c image = s1) :
    exec (.saveAnswer n image claim) s = .next (((s1.tile c.id.tile).parked.filter fun r =>
      r.launch == c.task.launch && wordField r.word 29 2 == c.id.num && claim.contains r.reg).foldl
      (fun s r => s.claimRegion c.id.tile r) s1) := by
  simp only [exec, execSaveAnswer, hq, hc, hi, hs, Bool.not_true, Bool.false_eq_true, if_false]

theorem saveAnswer_refused (hi : (s0.freeImages c.part).contains image = false) :
    exec (.saveAnswer n image claim) s
      = .next (s0.onCtx c.id fun c => { c with task := { c.task with saveReq := none } }) := by
  simp only [exec, execSaveAnswer, hq, hc, hi, Bool.not_false, if_true]

end

section
variable {l : Launch} (hl : (s0.hub.launches.find? fun l => l.req == some n) = some l)
  (h1 : (s0.onLaunch l.id fun l => { l with req := none }) = s1)
include hl h1

theorem dispatchAnswer_waits : exec (.dispatchAnswer n none) s = .next s1 := by
  simp only [exec, execDispatchAnswer, hq, hl, h1, Option.bind_none, ite_self]

variable {ts : List Nat} (hk : q.kind = 5) (hs : l.stage = .queued) (hb : s1.dstateBusy l = false)
include hk hs hb

theorem dispatchAnswer_places {ks : List CtxId} (ht : s1.chosenGang l ts = some ks) :
    exec (.dispatchAnswer n (some ts)) s = .next (s1.placeGang l ks) := by
  simp [exec, execDispatchAnswer, hq, hl, h1, hk, hs, hb, ht]

theorem dispatchAnswer_refused (ht : s1.chosenGang l ts = none) : exec (.dispatchAnswer n (some ts)) s = .next s1 := by
  simp [exec, execDispatchAnswer, hq, hl, h1, hk, hs, hb, ht]

end

section
variable {c : Ctx} {x : Section} (hx : s0.secWaiting (fun x => x.spillReq == some n) = some (c, x))
  (h1 : (s0.onSec c.id x.handle fun x => { x with spillReq := none }) = s1)
include hx h1

theorem spillAnswer_declines : exec (.spillAnswer n none) s
    = .next ((s1.onSec c.id x.handle fun x => { x with declined := true }).deadlock c x) := by
  simp only [exec, execSpillAnswer, hq, hx, h1]

/-- A named buffer is extended where the region may take another extension; else DEADLOCK is raised (R377, R378). -/
theorem spillAnswer_names {i : Nat} {b : Buffer} (hb : ((s1.buffersInOrder c x).find? fun b =>
      (q.args.drop 1)[i]? == some (BitVec.ofNat 64 b.code)) = some b) :
    exec (.spillAnswer n (some i)) s
      = if s1.mayExtend c x = true then .next (s1.extend c x b) else .next (s1.deadlock c x) := by
  simp only [exec, execSpillAnswer, hq, hx, h1, hb]

end

section
variable {c : Ctx} {x : Section} {py px : Nat} {moves : List (Nat × Nat × Nat)}
  (hx : s0.secWaiting (fun x => x.pageReq == some n) = some (c, x)) {ms : List (Nat × Nat × (Nat × Nat))}
  (hms : (moves.map fun m => (m.1 / 16, m.1 % 16, m.2)) = ms)
include hx hms

theorem pageallocAnswer_taken (ho : orderOk x.shape.1 x.shape.2 (py, px) ms (s0.tileSecs c.id.tile) = true) :
    exec (.pageallocAnswer n py px moves) s = .next (s0.onSec c.id x.handle fun x =>
      { x with pageReq := none, hostOrg := some (py, px), hostMoves := ms }) := by
  simp only [exec, execPageallocAnswer, hq, hx, hms, ho, if_true]

theorem pageallocAnswer_refused (ho : orderOk x.shape.1 x.shape.2 (py, px) ms (s0.tileSecs c.id.tile) = false) :
    exec (.pageallocAnswer n py px moves) s = .next (s0.onSec c.id x.handle fun x => { x with pageReq := none }) := by
  simp only [exec, execPageallocAnswer, hq, hx, hms, ho, Bool.false_eq_true, if_false]

end

end

/-- Settles O40: pre-emption by what becomes of the launch and of the context, the answers each by the choice that they
bring. -/
theorem preemptionAndAnswers : Obligations.PreemptionAndAnswers := by
  intro s
  refine ⟨fun n l h => ⟨softPreemption_marks h, softPreemption_between h⟩, fun k c hc hid => ⟨?_, ?_, ?_⟩, fun n q hp => ?_⟩
  · exact fun l hl hs hd h hv => hardPreemption_shuts hc hl hs hd h hv
  · exact fun since hd ho hu hr =>
      ⟨preemptionDrainEnd_asks hc hd ho hu hr hid, fun i rest => preemptionDrainEnd_saves hc hd ho hu hr⟩
  · exact fun v s1 hv hl hs hr => contextRestore_rebuilds hc hv hl hs hr
  · have hq := State.takeRequest_posted hp
    refine ⟨fun c image claim hc => ⟨fun hi => saveAnswer_saves hq claim hc hi rfl, saveAnswer_refused hq claim hc⟩,
      fun l hl => ⟨dispatchAnswer_waits hq hl rfl, fun ts hk hs hb => ⟨fun ks => ?_, ?_⟩⟩,
      fun c x hx => ⟨spillAnswer_declines hq hx rfl, fun i b hb => ⟨fun hm => ?_, fun hm => ?_⟩⟩,
      fun py px moves c x hx => ⟨pageallocAnswer_taken hq hx rfl, pageallocAnswer_refused hq hx rfl⟩⟩
    · exact dispatchAnswer_places hq hl rfl hk hs hb
    · exact dispatchAnswer_refused hq hl rfl hk hs hb
    · exact (spillAnswer_names hq hx rfl hb).trans (if_pos hm)
    · exact (spillAnswer_names hq hx rfl hb).trans (if_neg (by rw [hm]; decide))

end Sys2Proof.Machine
end

section
/-! Sections (R179, R184, R186, R189, R203 to R205, R207, R279): moves, records fetched, a firing of MOVE, the switch of a PE,
the end and the stop of a section. -/

namespace Sys2Proof.Machine

/-! ## PEs of a section and sections of a state -/

theorem Section.pe?_place {x : Section} {row col : Nat} {p : Pe} (h : x.pe? row col = some p) : p.row = row ∧ p.col = col := by
  simpa using List.find?_some h

/-- A PE that takes the place of another is found there. -/
theorem Section.pe?_setPe {x : Section} {row col : Nat} {p q : Pe} (h : x.pe? row col = some p) (hr : q.row = row)
    (hc : q.col = col) : (x.setPe q).pe? row col = some q := by
  have hplace : (fun p : Pe => p.row == row && p.col == col) ∘ (fun p => if p.row = q.row ∧ p.col = q.col then q else p)
      = fun p => p.row == row && p.col == col := by
    funext p
    dsimp only [Function.comp]
    split
    case isTrue hp => simp [hp.1, hp.2, hr, hc]
    case isFalse => rfl
  change (x.pes.map fun p => if p.row = q.row ∧ p.col = q.col then q else p).find? _ = _
  rw [List.find?_map, hplace, show x.pes.find? _ = some p from h, Option.map_some, if_pos]
  rw [hr, hc]
  exact Section.pe?_place h

section
variable {s : State} {k : CtxId} {h : Nat} {c : Ctx} {x : Section}

theorem State.sec?_onTile (s : State) (n : Nat) (f : Tile → Tile) (k : CtxId) (h : Nat) :
    (s.onTile n f).sec? k h = s.sec? k h := rfl

theorem State.onCtx_id (s : State) (k : CtxId) : s.onCtx k (fun c => c) = s := by
  unfold State.onCtx
  split
  · rfl
  · simp

/-- What a change of a section leaves there. -/
theorem sec?_map_onSec (hs : s.sec? k h = some (c, x)) {f : Section → Section} (hf : ∀ y, (f y).handle = y.handle) :
    ((s.onSec k h f).sec? k h).map (·.2) = some (f x) := by
  rw [sec?_onSec s k h f c x hs hf]
  rfl

end

/-- Whether a command is the SSTOP of a handle. -/
def stopsHandle (h : Nat) (r : Run) : Bool :=
  (match r.cmd.op with
    | .sstop _ => true
    | _ => false) && r.lHandle == h

/-! ## SCFG, moves and fetches (R179, R186, R205) -/

section
variable {s : State} {k : CtxId} {h : Nat} {c : Ctx} {x : Section} (hs : s.sec? k h = some (c, x))
include hs

theorem scfgComplete_steps {r : Run} (hl : x.loading = some r) :
    exec (.scfgComplete k h) s = .next (s.scfgStep c x r).pumpAll := by
  simp only [exec, execScfgComplete, hs, hl]

theorem sec?_endMove (m : Move) : ((s.endMove k h m).sec? k h).map (·.2)
    = some { x with org := some m.org, opened := m.was, moving := none } := by
  unfold State.endMove
  simp only [hs]
  rw [State.updateRow0, State.sec?_onTile]
  refine sec?_map_onSec (c := c) (x := x) ?_
    (f := fun x => { x with org := some m.org, opened := m.was, moving := none }) fun _ => rfl
  split <;> simp only [trc_sec?, hs]

theorem pageMove_ends {m : Move} (hm : x.moving = some m) (hr : s.atRest x = true) (ht : s.mayTake k.tile m.org = true) :
    ∃ t, exec (.pageMove k h m.org.1 m.org.2) s = .next t ∧ SameMemory s t
      ∧ (t.sec? k h).map (·.2) = some { x with org := some m.org, opened := m.was, moving := none } := by
  have he : exec (.pageMove k h m.org.1 m.org.2) s = .next (s.endMove k h m) := by
    simp [exec, execPageMove, hs, hm, hr, ht]
  exact ⟨_, he, (execPageMove_memIs k h m.org.1 m.org.2 s).sameMemory he, sec?_endMove hs m⟩

section
variable {row col : Nat} {p : Pe} {g : Image} {r : PeRecord} (hp : x.pe? row col = some p) (hr : x.recordOf p = some (g, r))
  {t n : Nat} (ht : x.toFetch p r = some (t, n))
include hp hr ht

theorem loopBufferFill_begins (hf : p.fetching = none) :
    ∃ u, exec (.loopBufferFill k h row col) s = .next u ∧ SameMemory s u
      ∧ (u.sec? k h).map (·.2) = some (x.setPe { p with fetching := some (t, s.clk + 8 + n) }) := by
  let s1 := if t = p.tag then s.trc 1 5 c [.word row, .word col, .word t, .word (8 + n)] else s
  have he : exec (.loopBufferFill k h row col) s
      = .next (s1.onSec k h fun x => x.setPe { p with fetching := some (t, s1.clk + 8 + n) }) := by
    simp only [exec, execLoopBufferFill, hs, hp, hr, ht, hf, Option.bind_some, Option.map_some, s1]
  have h1 : s1.clk = s.clk ∧ s1.sec? k h = some (c, x) := by
    dsimp only [s1]
    split
    · exact ⟨State.trc_clk .., (trc_sec? ..).trans hs⟩
    · exact ⟨rfl, hs⟩
  refine ⟨_, he, (execLoopBufferFill_memIs k h row col s).sameMemory he, ?_⟩
  rw [← h1.1]
  exact sec?_map_onSec h1.2 fun _ => rfl

theorem loopBufferFill_ends {at_ : Nat} (hf : p.fetching = some (t, at_)) (hc : at_ ≤ s.clk) :
    exec (.loopBufferFill k h row col) s = .next (s.onSec k h fun x => x.setPe (p.fill t n)) := by
  simp only [exec, execLoopBufferFill, hs, hp, hr, ht, hf, Option.bind_some, Option.map_some, if_neg (Nat.not_lt.2 hc), if_true]

end

/-! ## The end and the stop of a section (R184, R189, R207, R279) -/

theorem sectionQuiescent_ends {d : Ctx} (he : x.st = .ending) (hy : x.sys = none) (hq : s.quiet k x true = true)
    (hf : c.flushSlots x s.clk = some d) :
    exec (.sectionQuiescent k h) s = .next ((s.onCtx k fun _ => d).endSection k h).pumpAll := by
  simp [exec, execSectionQuiescent, hs, he, hy, hq, hf]

section
variable (hst : x.st = .stopping) (hd : x.sys = none → s.quiet k x false = true)
  (hy : x.sys ≠ none → x.systolicQuiet c s.clk = true)
include hst hd hy

/-- A STOPPING section that is quiescent is STOPPED, and the SSTOP that waits for it, if one does, is over. -/
theorem exec_sectionStopped : exec (.sectionStopped k h) s = .next
    ((c.waits.find? (stopsHandle h)).elim (s.onSec k h fun x => { x with st := .stopped })
      fun r => (s.onSec k h fun x => { x with st := .stopped }).sstopOver r h .stopped).pumpAll := by
  have hstill : (if x.sys.isSome then x.systolicQuiet c s.clk else s.quiet k x false) = true := by
    split
    case isTrue h1 => exact hy (Option.isSome_iff_ne_none.1 h1)
    case isFalse h1 => exact hd (by simpa using h1)
  have hgo : ¬ (x.st ≠ .stopping ∨ (!if x.sys.isSome then x.systolicQuiet c s.clk else s.quiet k x false) = true) := by
    simp [hst, hstill]
  change execSectionStopped k h s = _
  simp only [execSectionStopped, hs]
  rw [if_neg hgo]
  change Host.Outcome.next (State.pumpAll (match c.waits.find? (stopsHandle h) with
    | some r => _
    | none => _)) = _
  cases c.waits.find? (stopsHandle h) <;> rfl

theorem sectionStopped_alone (hw : ∀ r ∈ c.waits, ∀ f, r.cmd.op ≠ .sstop f) :
    exec (.sectionStopped k h) s = .next (s.onSec k h fun x => { x with st := .stopped }).pumpAll := by
  have hn : c.waits.find? (stopsHandle h) = none := List.find?_eq_none.2 fun r hr => by
    unfold stopsHandle
    split
    case h_1 f hop => exact absurd hop (hw r hr f)
    case h_2 => simp
  rw [exec_sectionStopped hs hst hd hy, hn, Option.elim_none]

theorem sectionStopped_records {r : Run} {rest : List Run} {f : CF} (hw : c.waits = r :: rest) (ho : r.cmd.op = .sstop f)
    (hh : r.lHandle = h) : exec (.sectionStopped k h) s
      = .next ((s.onSec k h fun x => { x with st := .stopped }).sstopOver r h .stopped).pumpAll := by
  have hf : c.waits.find? (stopsHandle h) = some r := by
    rw [hw, List.find?_cons_of_pos]
    simp [stopsHandle, ho, hh]
  rw [exec_sectionStopped hs hst hd hy, hf, Option.elim_some]

end
end

/-! ## The switch of a PE (R203, R204) -/

section
variable {s : State} {k : CtxId} {h row col : Nat} {c : Ctx} {x : Section} {p : Pe} {g : Image} {r : PeRecord}

/-- The PEs that run the record of a PE, itself among them (R196). -/
def Section.copiesOf (x : Section) (p : Pe) : List Pe := x.pes.filter fun q => q.tag == p.tag && q.recNo == p.recNo

/-- Whether the copies of a PE are occupied, hold tokens of a TURN, or have edge accesses under way (R204). -/
def Section.copiesBusy (x : Section) (p : Pe) (now : Nat) : Bool :=
  (x.copiesOf p).any (fun q => decide (now < q.freeAt) || q.turning)
    || x.edges.any fun e => (x.copiesOf p).any fun q => e.row == q.row && e.col == q.col

theorem Section.copiesBusy_eq_false {now : Nat} : x.copiesBusy p now = false
    ↔ (∀ q ∈ x.copiesOf p, q.freeAt ≤ now ∧ ∀ t ∈ q.turns, t.2.1.elems = [] ∧ t.2.2.elems = [])
      ∧ ∀ e ∈ x.edges, ∀ q ∈ x.copiesOf p, ¬(e.row = q.row ∧ e.col = q.col) := by
  simp [Section.copiesBusy, Pe.turning]

/-- The state once a PE has sent the switch tokens that it can send. -/
def State.sentSwitches (s : State) (k : CtxId) (h row col : Nat) (r : PeRecord) (all : Bool) : State :=
  (r.outs all).foldl (fun s d => s.sendSwitch k h row col d) s

/-- A PE of the old tag sends its switch tokens, all of them once its links are closed; when it has sent them, it switches. -/
theorem exec_peSwitch (hs : s.sec? k h = some (c, x)) (hp : x.pe? row col = some p) (hr : x.recordOf p = some (g, r))
    (ho : x.old.isSome = true) (ht : p.tag ≠ x.tag) (hc : p.copy = 0) {closing : Bool}
    (hcl : (!x.copiesBusy p s.clk && c.allClosed x g r s.clk) = closing) :
    exec (.peSwitch k h row col) s = .next
      ((((s.sentSwitches k h row col r closing).sec? k h).bind fun y => y.2.pe? row col).elim
        (s.sentSwitches k h row col r closing) fun q =>
          if closing && (r.outs true).all q.marked.contains then
            ((s.sentSwitches k h row col r closing).switchPe k h q g r).pumpAll
          else s.sentSwitches k h row col r closing) := by
  obtain ⟨old, hold⟩ := Option.isSome_iff_exists.1 ho
  change execPeSwitch k h row col s = _
  simp only [execPeSwitch, hs, hold, hp, hr, Option.bind_some, Option.map_some]
  rw [if_neg (not_or.2 ⟨ht, not_not.2 hc⟩)]
  unfold Section.copiesBusy Section.copiesOf at hcl
  rw [hcl]
  change (match ((s.sentSwitches k h row col r closing).sec? k h).bind fun y => y.2.pe? row col with
    | some q => _
    | none => _) = _
  cases ((s.sentSwitches k h row col r closing).sec? k h).bind fun y => y.2.pe? row col with
  | none => rfl
  | some q => exact (apply_ite Host.Outcome.next _ _ _).symm

section
variable (hs : s.sec? k h = some (c, x)) (hp : x.pe? row col = some p) (hr : x.recordOf p = some (g, r))
  (ho : x.old.isSome = true) (ht : p.tag ≠ x.tag) (hc : p.copy = 0)
include hs hp hr ho ht hc

theorem peSwitch_waits (hcl : ¬ (x.copiesBusy p s.clk = false ∧ c.allClosed x g r s.clk = true)) :
    exec (.peSwitch k h row col) s = .next (s.sentSwitches k h row col r false) := by
  have hf : (!x.copiesBusy p s.clk && c.allClosed x g r s.clk) = false := by
    rw [← Bool.not_eq_true, Bool.and_eq_true, Bool.not_eq_true']
    exact hcl
  rw [exec_peSwitch hs hp hr ho ht hc hf]
  cases ((s.sentSwitches k h row col r false).sec? k h).bind fun y => y.2.pe? row col <;> rfl

/-- A PE whose links are closed switches when it has marked every destination. -/
theorem peSwitch_closing (hb : x.copiesBusy p s.clk = false) (ha : c.allClosed x g r s.clk = true) {d : Ctx} {y : Section}
    {q : Pe} (hd : (s.sentSwitches k h row col r true).sec? k h = some (d, y)) (hq : y.pe? row col = some q) :
    exec (.peSwitch k h row col) s = .next (if (r.outs true).all q.marked.contains then
      ((s.sentSwitches k h row col r true).switchPe k h q g r).pumpAll else s.sentSwitches k h row col r true) := by
  have hcl : (!x.copiesBusy p s.clk && c.allClosed x g r s.clk) = true := by
    rw [hb, ha]
    rfl
  rw [exec_peSwitch hs hp hr ho ht hc hcl, hd, Option.bind_some, hq]
  rfl

end
end

/-! ## A firing of MOVE between local registers (R192 to R196) -/

section
variable {s : State} {k : CtxId} {h row col : Nat} {c : Ctx} {x : Section} {p : Pe} {g : Image} {r : PeRecord}

/-- The firing of a PE whose entry reads no channel and writes none. -/
def localFiring (k : CtxId) (h : Nat) (g : Image) (r : PeRecord) (p : Pe) : Micro :=
  { k := k, h := h, pe := p, c0 := r.c0, c1 := r.c1, rm := g.rm, sat := g.sat, seed := g.seed, descs := g.edges }

theorem Micro.put_local {m : Micro} {d : Nat} (hd : d < 16) (t : Token) : m.put d t
    = { m with pe := { m.pe with locals := NMap.set {} m.pe.locals d { t with tag := m.pe.tag } } } := if_pos hd

theorem Micro.src_local {m : Micro} {a : Nat} (ha : a < 16) : m.src a = NMap.get {} m.pe.locals a := if_pos ha

theorem isChan_local {d : Nat} (hd : d < 16) : isChan d = false := by
  rw [isChan, decide_eq_false (Nat.not_le.2 hd), Bool.false_and]

/-- A PE that may fire an entry which reads no channel: its context is resident, it is free and has its record, the deal is
its own, no edge access and no grant keeps it, its section is armed, and the shutters are open. -/
structure MayFire (s : State) (c : Ctx) (x : Section) (p : Pe) (r : PeRecord) : Prop where
  live : c.live = true
  free : p.freeAt ≤ s.clk
  holds : p.holds = true
  dealt : NMap.get 0 x.dealt p.dealKey % r.k = p.copy
  unblocked : x.blocked r = false
  granted : x.wants = 0 ∨ x.powered = true
  armed : x.still = false
  open_ : x.sourcesOpen s.clk = true

/-- A PE after a MOVE from one local register to another. -/
def Pe.moveLocal (p : Pe) (a d : Nat) : Pe :=
  { p with locals := NMap.set {} p.locals d { NMap.get {} p.locals a with tag := p.tag } }

variable (hs : s.sec? k h = some (c, x)) (hp : x.pe? row col = some p)
include hs hp

/-- An entry that is a MOVE between local registers fires whenever its PE may fire. -/
theorem exec_peFiring_move {f : TF} (hr : x.recordOf p = some (g, r))
    (hop : (r.entries[p.ptr]?).bind entryOps = some [.move f]) (ha : f.a.toNat < 16) (hd : f.d.toNat < 16)
    (hm : MayFire s c x p r) :
    exec (.peFiring k h row col) s = .next (({ s with micro := none } : State).commitFiring
      (localFiring k h g r (p.moveLocal f.a.toNat f.d.toNat)) g r [] 1) := by
  have hgrant : (x.wants != 0 && !x.powered) = false := by
    obtain h | h := hm.granted <;> simp [h]
  change execPeFiring k h row col s = _
  simp only [execPeFiring, hs, hp, hr, hop, Option.bind_some, Option.map_some, Option.getD_some]
  simp [sourcesOf, targetsOf, neededOf, canAct, isChan_local ha, isChan_local hd, hm.live, Nat.not_lt.2 hm.free, hm.holds,
    hm.dealt, hm.unblocked, hgrant, hm.armed, hm.open_, runEntry, runMicro, execMove, State.onMicro, Micro.put_local hd,
    Micro.src_local ha, localFiring, Pe.moveLocal, occupancy]

/-- What a firing that stages nothing outside its PE leaves of its section. -/
def Section.fired (x : Section) (p : Pe) (r : PeRecord) (now o : Nat) : Section :=
  let ptr := (p.ptr + 1) % r.entries.length
  let pe := { p with ptr := ptr, firings := (p.firings + 1) % 2 ^ 32, freeAt := now + o }
  { x.setPe pe with
    lastEvent := Nat.max x.lastEvent now, silence := 0
    dealt := if 1 < r.k ∧ ptr = 0 then NMap.set 0 x.dealt pe.dealKey (NMap.get 0 x.dealt pe.dealKey + 1) else x.dealt }

omit hs in
theorem Section.pe?_fired {q : Pe} (hr : q.row = p.row) (hc : q.col = p.col) (now o : Nat) :
    (x.fired q r now o).pe? row col = some { q with
      ptr := (q.ptr + 1) % r.entries.length, firings := (q.firings + 1) % 2 ^ 32, freeAt := now + o } :=
  Section.pe?_setPe (q := { q with
    ptr := (q.ptr + 1) % r.entries.length, firings := (q.firings + 1) % 2 ^ 32, freeAt := now + o }) hp
    (hr.trans (Section.pe?_place hp).1) (hc.trans (Section.pe?_place hp).2)

omit hp

/-- A firing of no SINK leaves the count of tiles. -/
theorem sec?_countTiles_zero : ((s.countTiles k h 0).sec? k h).map (·.2) = some x := by
  unfold State.countTiles
  simp only [hs]
  rw [if_neg fun h0 => h0.1 rfl]
  exact sec?_map_onSec hs (f := fun y => { y with tiles := x.tiles + 0 }) fun _ => rfl

theorem sec?_commitFiring_local (q : Pe) (o : Nat) :
    ((s.commitFiring (localFiring k h g r q) g r [] o).sec? k h).map (·.2) = some (x.fired q r s.clk o) := by
  have hfired : x.fired q r s.clk o = { x.fired q r s.clk o with edges := x.edges ++ [], flags := x.flags ||| 0 } := by
    simp [Section.fired, Section.setPe]
  rw [hfired]
  unfold State.commitFiring
  simp only [localFiring, List.filter_nil, List.eraseDups_nil, List.foldl_nil, State.onCtx_id]
  exact sec?_countTiles_zero (sec?_onSec _ k h _ c x hs fun _ => rfl)

theorem peFiring_moves {f : TF} (hp : x.pe? row col = some p) (hr : x.recordOf p = some (g, r))
    (hop : (r.entries[p.ptr]?).bind entryOps = some [.move f]) (ha : f.a.toNat < 16) (hd : f.d.toNat < 16)
    (hm : MayFire s c x p r) :
    ∃ t y q, exec (.peFiring k h row col) s = .next t ∧ SameMemory s t ∧ (t.sec? k h).map (·.2) = some y
      ∧ y.pe? row col = some q ∧ q.ptr = (p.ptr + 1) % r.entries.length ∧ q.freeAt = s.clk + 1
      ∧ q.locals = NMap.set {} p.locals f.d.toNat { NMap.get {} p.locals f.a.toNat with tag := p.tag } := by
  have he := exec_peFiring_move hs hp hr hop ha hd hm
  have hsec : ({ s with micro := none } : State).sec? k h = some (c, x) := hs
  exact ⟨_, _, _, he, (execPeFiring_memIs k h row col s).sameMemory he, sec?_commitFiring_local hsec _ _,
    Section.pe?_fired hp (q := p.moveLocal f.a.toNat f.d.toNat) rfl rfl _ _, rfl, rfl, rfl⟩

end

/-- Settles O35: each act of a section by its own lemma; a switch by whether the links of its PE are closed. -/
theorem sectionsProceed : Obligations.SectionsProceed := by
  intro s k h row col c x hs
  refine ⟨fun r => scfgComplete_steps hs, fun m => pageMove_ends hs, fun p g r hp hr => ⟨?fetched, ?fetch, ?fires, ?switch⟩,
    fun d he hy hq hf => sectionQuiescent_ends hs he hy hq hf, fun hst hd hy => ⟨sectionStopped_alone hs hst hd hy, ?stop⟩⟩
  case fetched => exact fun hh => if_pos (by rw [hh]; rfl)
  case fetch => exact fun t n ht => ⟨loopBufferFill_begins hs hp hr ht, fun at_ => loopBufferFill_ends hs hp hr ht⟩
  case fires =>
    exact fun f hop ha hd hl hf hh hk hb hw hst ho => peFiring_moves hs hp hr hop ha hd ⟨hl, hf, hh, hk, hb, hw, hst, ho⟩
  case switch =>
    intro ho ht hc copies idle closing sent
    have hidle : idle ↔ x.copiesBusy p s.clk = false := Section.copiesBusy_eq_false.symm
    refine ⟨fun hcl d y q hd hq => ?_, fun hcl => ?_⟩
    · have he := peSwitch_closing hs hp hr ho ht hc (hidle.1 hcl.1) hcl.2 hd hq
      refine ⟨fun hall => he.trans ?_, fun ⟨e, hmem, hne⟩ => he.trans ?_⟩
      · rw [if_pos (List.all_eq_true.2 hall)]
        rfl
      · rw [if_neg fun hall => absurd (List.all_eq_true.1 hall e hmem) (by rw [hne]; decide)]
        rfl
    · exact peSwitch_waits hs hp hr ho ht hc fun hn => hcl ⟨hidle.2 hn.1, hn.2⟩
  case stop => exact fun r rest f hw ho hh => sectionStopped_records hs hst hd hy hw ho hh

end Sys2Proof.Machine
end

section
/-! Streams and records (R243, R249, R250, R408): what an operation over contexts leaves of each of them, what the completion of a
stream and the write of a record leave of their queue. -/

namespace Sys2Proof.Machine

/-! ## What an operation over contexts leaves of a context -/

section
variable {s : State} {j k : CtxId} {c : Ctx}

/-- A change of every resident context reads as the change made it. -/
theorem State.ctx?_mapped {t : State} {f : Ctx → Ctx} (hf : ∀ d, (f d).id = d.id) (hc : t.c = f s.c)
    (ho : t.others = s.others.map f) (h : s.ctx? k = some c) : t.ctx? k = some (f c) := by
  unfold State.ctx? at *
  rw [hc, ho, hf, find?_map_id _ _ f hf]
  split at h
  case isTrue hk => rw [if_pos hk, Option.some.inj h]
  case isFalse hk => rw [if_neg hk, h, Option.map_some]

theorem State.ctx?_traceAt (s : State) (a b t p n : Nat) (l : List TField) (k : CtxId) :
    (s.traceAt a b t p n l).ctx? k = s.ctx? k := by
  unfold State.ctx?
  rw [State.traceAt_c, State.traceAt_others]

theorem State.ctx?_traceIf (s : State) (b : Prop) [Decidable b] (cls code : Nat) (c : Ctx) (fs : List TField) (k : CtxId) :
    (if b then s.trc cls code c fs else s).ctx? k = s.ctx? k := by
  split
  · exact trc_ctx? ..
  · rfl

theorem State.ctx?_traceFault (s : State) (r : Run) (st : Status) (f : Nat) (k : CtxId) :
    (s.traceFault r st f).ctx? k = s.ctx? k := by
  unfold State.traceFault
  split
  · exact State.ctx?_traceIf ..
  · rfl

theorem State.ctx?_traceDoors (s : State) (c : Ctx) (r : Run) (k : CtxId) : (s.traceDoors c r).ctx? k = s.ctx? k :=
  foldl_keeps (·.ctx? k) _ (fun _ _ => State.ctx?_traceAt ..) _ s

theorem State.ctx?_traceHeld (s : State) (r : Run) (k : CtxId) : (s.traceHeld r).ctx? k = s.ctx? k := by
  unfold State.traceHeld
  split
  · exact State.ctx?_traceIf ..
  · rfl

/-- An accepted command whose record is replaced stands so among the accepted commands of its task. -/
theorem State.ctx?_putRun {r : Run} (h : s.ctx? r.cmd.ctx = some c) (ho : c.owns r.cmd.ctx r.cmd.seq = true) :
    (s.putRun r).ctx? r.cmd.ctx
      = some { c with runs := c.runs.map fun q => if q.cmd.seq = r.cmd.seq then { r with met := [] } else q } := by
  have h1 : ((s.traceHeld r).noteErrors r.met).ctx? r.cmd.ctx = some c :=
    (noteErrors_ctx? ..).trans ((State.ctx?_traceHeld ..).trans h)
  exact (ctx?_onOwner _ r.cmd.ctx r.cmd.ctx r.cmd.seq (fun c => { c with
    runs := c.runs.map fun q => if q.cmd.seq = r.cmd.seq then { r with met := [] } else q }) c h1 fun _ => rfl).trans
    (congrArg some (if_pos ho))

variable {γ : Type} (g : Ctx → γ)

/-- What a change of one context leaves of each context, every context keeps. -/
theorem ctx?_onCtx_keeps {f : Ctx → Ctx} (hf : ∀ d, (f d).id = d.id) (hg : ∀ d, g (f d) = g d) (h : s.ctx? j = some c) :
    ∃ d, (s.onCtx k f).ctx? j = some d ∧ g d = g c := by
  by_cases hj : j = k
  · subst hj
    exact ⟨f c, ctx?_onCtx s j f c h ((hf c).trans (ctx?_id h)), hg c⟩
  · exact ⟨c, (ctx?_onCtx_other s k j f hj hf).trans h, rfl⟩

/-- So it is with a change of the task that issued a command. -/
theorem ctx?_onOwner_keeps {n : Nat} {f : Ctx → Ctx} (hf : ∀ d, (f d).id = d.id) (hg : ∀ d, g (f d) = g d)
    (h : s.ctx? j = some c) : ∃ d, (s.onOwner k n f).ctx? j = some d ∧ g d = g c := by
  refine ⟨_, ctx?_onOwner s k j n f c h hf, ?_⟩
  split
  · exact hg c
  · rfl

/-- A command that completes changes of a context its commands, its special registers and its queues, and nothing else. -/
theorem ctx?_finishCmd_keeps (r : Run) (x : Rec) (hid : ∀ c : Ctx, ∀ o rs hw ws sy zs, g { c with
      opens := o, runs := rs, hwait := hw, waits := ws, sys := sy, cqs := zs } = g c) (h : s.ctx? j = some c) :
    ∃ d, (s.finishCmd r x).ctx? j = some d ∧ g d = g c := by
  rw [← noteErrors_ctx? s r.met] at h
  obtain ⟨c1, h1, e1⟩ := ctx?_onOwner_keeps (k := r.cmd.ctx) (n := r.cmd.seq) g
    (f := fun c => { c with opens := c.opens.map fun o => if o.seq = r.cmd.seq then { o with acc := false, sent := true } else o })
    (fun _ => rfl) (fun d => hid d _ d.runs d.hwait d.waits d.sys d.cqs) h
  obtain ⟨c2, h2, e2⟩ := ctx?_onOwner_keeps (k := r.cmd.ctx) (n := r.cmd.seq) g
    (f := fun c => { c with
      runs := c.runs.filter fun q => q.cmd.seq != r.cmd.seq
      hwait := c.hwait.filter fun q => q.cmd.seq != r.cmd.seq
      waits := c.waits.filter fun q => q.cmd.seq != r.cmd.seq
      sys := { c.sys with pwb := c.sys.pwb ||| r.pwb } })
    (fun _ => rfl) (fun d => hid d d.opens _ _ _ _ d.cqs) h1
  have hput : ∃ d, (s.finishCmd r x).ctx? j = some d ∧ g d = g c2 := by
    unfold State.finishCmd State.pushRec
    split
    · exact ctx?_onOwner_keeps g (fun _ => rfl) (fun d => hid d d.opens d.runs d.hwait d.waits d.sys _) h2
    · exact ctx?_onOwner_keeps g (fun _ => rfl) (fun d => hid d _ d.runs d.hwait d.waits d.sys d.cqs) h2
  obtain ⟨d, hd, e3⟩ := hput
  exact ⟨d, hd, e3.trans (e2.trans e1)⟩

end

/-! ## Streams complete (R243, R408) -/

section
variable {s : State} {tile slot : Nat} {c : Ctx} {r : Run}

theorem completeStream_recorded (hc : s.ctx? r.cmd.ctx = some c) (ho : c.owns r.cmd.ctx r.cmd.seq = true)
    (hq : r.cmd.f.q.toNat < 8) (hw : NMap.wf {} c.cqs = true) (d : Ctx) :
    Recorded s (s.completeStream d r) r.cmd.ctx r.cmd.f.q.toNat r.outcome.1 :=
  finishCmd_recorded s _ r _ c c hc
    ((State.ctx?_traceDoors ..).trans ((State.ctx?_traceFault ..).trans hc)) rfl ho hq hw

theorem streamComplete_ends (hr : s.runAt tile slot = some (c, r)) (hop : ∀ f, r.cmd.op ≠ .scoll f) (hg : r.isGather = false)
    (hl : r.wload = false) (hd : s.streamDone r = true) :
    exec (.streamComplete tile slot) s = .next (s.completeStream c r) := by
  simp [exec, execStreamComplete, hr, hg, hl, hd]

theorem streamComplete_collective {f : CF} (hr : s.runAt tile slot = some (c, r)) (hop : r.cmd.op = .scoll f)
    (hd : s.collDone r = true) : exec (.streamComplete tile slot) s = .next (s.completeColl c r) := by
  simp [exec, execStreamComplete, hr, hop, hd]

end

/-! ## Records (R249, R250) -/

/-- A context whose queue q is z. -/
def Ctx.withQueue (c : Ctx) (q : Nat) (z : CQueue) : Ctx := { c with cqs := NMap.set {} c.cqs q z }

theorem Ctx.withQueue_get {c : Ctx} (hw : NMap.wf {} c.cqs = true) (q : Nat) (z : CQueue) :
    NMap.get {} (c.withQueue q z).cqs q = z := nmap_get_set_same _ _ 0 _ _ hw

section
variable {s : State} {k : CtxId} {c : Ctx} {q : Nat} {γ : Type} (g : Ctx → γ)

/-- What a write of bytes leaves of every context: all but what its fetches have not seen (R45). -/
theorem ctx?_storeBytes_keeps (hg : ∀ (c : Ctx) st, g { c with stale := st } = g c) (key : Nat) (bs : List Byte)
    (who : Option (CtxId × Nat)) (h : s.ctx? k = some c) : ∃ d, (s.storeBytes key bs who).ctx? k = some d ∧ g d = g c := by
  unfold State.storeBytes State.markStale
  dsimp only
  split
  · exact ⟨c, h, rfl⟩
  · refine ⟨_, State.ctx?_mapped (fun d => ?_) rfl rfl h, ?_⟩
    · split <;> rfl
    · split
      · rfl
      · exact hg ..

/-- What the waking of reads leaves of every context: all but its accesses, its commands and its sections (R294). -/
theorem ctx?_fillWords_keeps (hg : ∀ (c : Ctx) rs xs as, g { c with runs := rs, secs := xs, accs := as } = g c)
    (keys : List Nat) (h : s.ctx? k = some c) : ∃ d, (s.fillWords keys).ctx? k = some d ∧ g d = g c := by
  let s1 := s.setFullAll keys true
  have hset : s1.c = s.c ∧ s1.others = s.others :=
    ⟨foldl_keeps State.c (fun t k => t.setFull k true) (fun _ _ => rfl) keys s,
      foldl_keeps State.others (fun t k => t.setFull k true) (fun _ _ => rfl) keys s⟩
  refine ⟨s1.releaseReads c, State.ctx?_mapped (fun _ => rfl) ?_ ?_ h, hg c _ _ _⟩
  · exact congrArg s1.releaseReads hset.1
  · exact congrArg (List.map s1.releaseReads) hset.2

/-- The write of a record at a place that takes it: its bytes and no others, and each context keeps its queues and the
commands that wait for firings. -/
theorem writePlace_stored {key : Nat} {kind : RKind} {bs : List Byte} (hc : s.ctx? k = some c)
    (hw : ∀ x ∈ wordKeys key bs.length, s.heldWords.contains x = false ∧ (kind = .once → s.isFull x = false)) :
    ∃ t d, s.writePlace (.stored key kind) bs = .done t ∧ t.mem = memWrite s.mem key bs ∧ t.ctx? k = some d
      ∧ d.cqs = c.cqs ∧ d.waits = c.waits := by
  have hheld : ¬ (wordKeys key bs.length).any s.heldWords.contains = true := by
    simpa using fun x hx => (hw x hx).1
  have hfull : ¬ (kind = .once ∧ (wordKeys key bs.length).any (fun x => s.isFull x) = true) := by
    simpa using fun ho x hx => (hw x hx).2 ho
  let g (c : Ctx) := (c.cqs, c.waits)
  obtain ⟨d, hd, ed⟩ := ctx?_storeBytes_keeps g (fun _ _ => rfl) key bs none hc
  simp only [State.writePlace, if_neg hheld, if_neg hfull]
  by_cases hk : kind = .plain
  · obtain ⟨e1, e2⟩ := Prod.mk.inj ed
    exact ⟨_, d, by rw [if_pos hk], storeBytes_mem .., hd, e1, e2⟩
  · obtain ⟨e, he, ee⟩ := ctx?_fillWords_keeps g (fun _ _ _ _ => rfl) (wordKeys key bs.length) hd
    obtain ⟨e1, e2⟩ := Prod.mk.inj (ee.trans ed)
    exact ⟨_, e, by rw [if_neg hk], (State.fillWords_mem ..).trans (storeBytes_mem ..), he, e1, e2⟩

/-- With no command that waits for firings to end, none is settled (R242). -/
theorem State.settleDisarms_of_none (hc : s.ctx? k = some c) (hw : c.waits = []) : s.settleDisarms k = s := by
  simp [State.settleDisarms, hc, hw]

/-- The end of the command of a record that is written. -/
def State.recordOver (s : State) (k : CtxId) (seq : Option Nat) : State :=
  (match seq with
    | some n => (s.retire k n).reachFetch k n
    | none => s).settleDisarms k

/-- It leaves the queues of its context as they are. -/
theorem recordOver_cqs (seq : Option Nat) (hc : s.ctx? k = some c) (hw : c.waits = []) :
    ∃ d, (s.recordOver k seq).ctx? k = some d ∧ d.cqs = c.cqs := by
  cases seq with
  | none => exact ⟨c, by rw [State.recordOver, State.settleDisarms_of_none hc hw, hc], rfl⟩
  | some n =>
    let g (c : Ctx) := (c.cqs, c.waits)
    obtain ⟨d, hd, ed⟩ := ctx?_onOwner_keeps (k := k) (n := n) g
      (f := fun c => { c with opens := c.opens.filter fun o => o.seq != n }) (fun _ => rfl) (fun _ => rfl) hc
    let e : Ctx := { d with stale := forgetStale (k, n) d.stale }
    have hr : ((s.retire k n).reachFetch k n).ctx? k = some e :=
      State.ctx?_mapped (s := s.retire k n) (f := fun c => { c with stale := forgetStale (k, n) c.stale }) (fun _ => rfl) rfl rfl hd
    obtain ⟨e1, e2⟩ := Prod.mk.inj ed
    exact ⟨e, (congrArg (·.ctx? k) (State.settleDisarms_of_none hr (e2.trans hw))).trans hr, e1⟩

theorem recordOver_mem (seq : Option Nat) : (s.recordOver k seq).mem = s.mem := by
  unfold State.recordOver
  split <;> simp

variable {z : CQueue} {w : WaitRec} {rest : List WaitRec} (hc : s.ctx? k = some c) (hwf : NMap.wf {} c.cqs = true)
  (hz : NMap.get {} c.cqs q = z)
include hc hwf hz

theorem recordWrite_writes (hr : z.waiting = w :: rest) (hroom : z.tail - z.head < 2 ^ z.log2) (hm : s.Canonical)
    (hn : c.waits = []) {key : Nat} {kind : RKind}
    (hp : s.engPlace c (s.viewerNow c) [] true (z.base + BitVec.ofNat 64 (32 * (z.tail % 2 ^ z.log2))) = .stored key kind)
    (hwords : ∀ x ∈ wordKeys key 32, s.heldWords.contains x = false ∧ (kind = .once → s.isFull x = false)) :
    ∃ t d, exec (.recordWrite k q) s = .next t ∧ t.ctx? k = some d
      ∧ NMap.get {} d.cqs q = { z with waiting := rest, tail := z.tail + 1 }
      ∧ (∀ j < 32, some (t.byte (key + j)) = (w.record.bytesOf k.num z.tail z.log2)[j]?) ∧ SameOutside s t key 32 := by
  let bs := w.record.bytesOf k.num z.tail z.log2
  let z' : CQueue := { z with waiting := rest, tail := z.tail + 1 }
  have hlen : bs.length = 32 := toBytes_length ..
  obtain ⟨s1, c1, hdone, hmem, hc1, hq1, hw1⟩ := writePlace_stored (bs := bs) hc (by rwa [hlen])
  have hc2 : (s1.onCtx k fun c => c.withQueue q z').ctx? k = some (c1.withQueue q z') :=
    ctx?_onCtx s1 k _ c1 hc1 (ctx?_id hc1 :)
  obtain ⟨d, hd, hdq⟩ := recordOver_cqs w.seq hc2 (hw1.trans hn)
  have hex : exec (.recordWrite k q) s = .next ((s1.onCtx k fun c => c.withQueue q z').recordOver k w.seq) := by
    change execRecordWrite k q s = _
    simp only [execRecordWrite, hc, hz, hr, if_neg (Nat.not_le.2 hroom), hp]
    rw [hdone]
    rfl
  have hmem' : ((s1.onCtx k fun c => c.withQueue q z').recordOver k w.seq).mem = memWrite s.mem key bs :=
    (recordOver_mem w.seq).trans ((State.onCtx_mem ..).trans hmem)
  refine ⟨_, d, hex, hd, ?_, fun j hj => ?_, fun i hi => ?_⟩
  · rw [hdq]
    exact Ctx.withQueue_get (hq1 ▸ hwf) q z'
  · rw [State.byte, hmem', memWrite_same _ _ _ _ (hlen ▸ hj) hm]
    exact (List.getElem?_eq_getElem _).symm
  · rw [State.byte, hmem']
    exact memWrite_other _ _ _ _ (hlen ▸ hi)

theorem recordWrite_delays (hr : z.waiting = w :: rest) (hfull : 2 ^ z.log2 ≤ z.tail - z.head) :
    ∃ t d, exec (.recordWrite k q) s = .next t ∧ SameMemory s t ∧ t.ctx? k = some d
      ∧ NMap.get {} d.cqs q = { z with waiting := { w with delayed := true } :: rest } := by
  by_cases hd : w.delayed = true
  · have hex : exec (.recordWrite k q) s = .next s := by
      change execRecordWrite k q s = _
      simp only [execRecordWrite, hc, hz, hr, if_pos hfull, if_pos hd]
    refine ⟨s, c, hex, fun _ => rfl, hc, ?_⟩
    rw [hz, ← hd, ← hr]
  · let z' : CQueue := { z with waiting := { w with delayed := true } :: rest }
    have hex : exec (.recordWrite k q) s
        = .next ((s.trc 2 7 c [.word k.num, .word q]).onCtx k fun c => c.withQueue q z') := by
      change execRecordWrite k q s = _
      simp only [execRecordWrite, hc, hz, hr, if_pos hfull, if_neg hd]
      rfl
    exact ⟨_, _, hex, sameMemory_of_mem ((State.onCtx_mem ..).trans (State.trc_mem ..)), ctx?_trc_onCtx hc 2 7 _ rfl,
      Ctx.withQueue_get hwf q z'⟩

theorem ringHeadReread_reads (hr : z.waiting ≠ []) (hfull : 2 ^ z.log2 ≤ z.tail - z.head) {key : Nat} {kind : RKind}
    (hp : s.placeOf c (z.entry + 12) = some (.stored key kind)) :
    ∃ t d, exec (.ringHeadReread k q) s = .next t ∧ SameMemory s t ∧ t.ctx? k = some d
      ∧ NMap.get {} d.cqs q = { z with head := z.tail - (z.tail % 2 ^ 32 + 2 ^ 32 - s.valueAt key 4) % 2 ^ 32 } := by
  let z' : CQueue := { z with head := z.tail - (z.tail % 2 ^ 32 + 2 ^ 32 - s.valueAt key 4) % 2 ^ 32 }
  have hgo : ¬ (z.waiting.isEmpty || decide (z.tail - z.head < 2 ^ z.log2)) = true := by
    simp [hr, hfull]
  have hex : exec (.ringHeadReread k q) s = .next (s.onCtx k fun c => c.withQueue q z') := by
    change execRingHeadReread k q s = _
    simp only [execRingHeadReread, hc, hz, if_neg hgo, hp]
    rfl
  exact ⟨_, _, hex, (execRingHeadReread_memIs k q s).sameMemory hex, ctx?_onCtx s k _ c hc (ctx?_id hc :),
    Ctx.withQueue_get hwf q z'⟩

end

/-- Settles O31: a completion by its one record, a record written by its one write, a full ring by what it changes of its
queue. -/
theorem streamsComplete : Obligations.StreamsComplete := by
  intro s tile slot q k c r hc hwf z
  refine ⟨fun hr ho hk => ⟨?ends, ?collective⟩, ?writes, ?delays, ?rereads⟩
  case ends =>
    intro hop hg hl hd hq hq8
    subst hk hq
    have he := streamComplete_ends hr hop hg hl hd
    exact ⟨_, he, (execStreamComplete_memIs tile slot s).sameMemory he, completeStream_recorded hc ho hq8 hwf c⟩
  case collective => exact fun f hop hd => streamComplete_collective hr hop hd
  case writes =>
    exact fun w rest key kind hw hroom hm hn hp hx => recordWrite_writes hc hwf rfl hw hroom hm hn hp hx
  case delays => exact fun w rest hw hfull => recordWrite_delays hc hwf rfl hw hfull
  case rereads => exact fun key kind hw hfull hp => ringHeadReread_reads hc hwf rfl hw hfull hp

end Sys2Proof.Machine
end

section
/-! Templates, posts and credits (R238, R239, R241): what a firing, a post that is placed or discarded, and a grant leave of their
contexts and of their tile. -/

namespace Sys2Proof.Machine

/-! ## Templates (R241) -/

/-- The index of a token is its low half, signed. -/
theorem sintOf_wordField_low (w : Word) : sintOf 32 (wordField w 0 32) = (w.setWidth 32 : BitVec 32).toInt := by
  rw [sintOf, wordField, BitVec.toInt_eq_toNat_cond, BitVec.toNat_setWidth]
  simp only [pow_zero, Nat.div_one, Nat.mod_mod]
  split <;> split <;> omega

section
variable {s : State} {c : Ctx}

/-- The command of a firing of a template: the copy of its block, from and to the places that its token names. -/
def Tmpl.copy (x : Tmpl) (s : State) (c : Ctx) (n : Nat) (tok : Word) : Run :=
  let i := sintOf 32 (wordField tok 0 32)
  { cmd := x.command s c, blk := x.blk, engine := copyEngineOf c.id.tile, template := some n, token := tok,
    src := blkWord x.blk 16 + BitVec.ofInt 64 (i * blkSigned x.blk 40 4),
    dst := blkWord x.blk 24 + BitVec.ofInt 64 (i * blkSigned x.blk 44 4) }

/-- The record of a firing whose copy is too long (model, log 26). -/
def Rec.tooLong (n : Nat) (tok : Word) : Rec :=
  { status := .size, kind := 2, sid := 0x8000 + n, version := BitVec.ofNat 32 (wordField tok 32 32) }

/-- A context whose template n, of record x, has fired once more for the token at the head of its letterbox. -/
def Ctx.fire (c : Ctx) (x : Tmpl) (n : Nat) (rest : List Word) : Ctx :=
  { c with
    seq := c.seq + 1, opens := c.opens ++ [⟨c.seq, 0, true, c.bundleNo, false, true⟩]
    letters := NMap.set [] c.letters x.lb rest
    tmpls := if x.count = x.fired + 1 then c.tmpls.filter (fun y => y.num != n)
             else c.tmpls.map fun y => if y.num = n then { x with fired := x.fired + 1 } else y }

theorem Ctx.letterbox_fire (x : Tmpl) (n : Nat) (rest : List Word) (hw : NMap.wf [] c.letters = true) :
    (c.fire x n rest).letterbox x.lb = rest := nmap_get_set_same _ _ 0 _ _ hw

/-- The last of COUNT firings disarms its template. -/
theorem Ctx.tmpls_fire_last {x : Tmpl} {n : Nat} (rest : List Word) (h : x.count = x.fired + 1) :
    ∀ y ∈ (c.fire x n rest).tmpls, y.num ≠ n := by
  simp [Ctx.fire, h]

theorem Ctx.tmpls_fire {x : Tmpl} {n : Nat} (rest : List Word) (hx : (c.tmpls.find? fun y => y.num == n) = some x)
    (h : x.count ≠ x.fired + 1) : { x with fired := x.fired + 1 } ∈ (c.fire x n rest).tmpls := by
  have hn : x.num = n := by simpa using List.find?_some hx
  rw [Ctx.fire, if_neg h]
  exact List.mem_map.2 ⟨x, List.mem_of_find?_eq_some hx, if_pos hn⟩

/-- The state in which a template has fired, and its copy has still to be accepted. -/
def State.fired (s : State) (c : Ctx) (x : Tmpl) (n : Nat) (tok : Word) (rest : List Word) : State :=
  (s.trc 2 5 c [.word c.id.num, .word n, .word tok.toNat]).onCtx c.id fun c => c.fire x n rest

theorem State.ctx?_fired (hc : s.ctx? c.id = some c) (x : Tmpl) (n : Nat) (tok : Word) (rest : List Word) :
    (s.fired c x n tok rest).ctx? c.id = some (c.fire x n rest) := ctx?_trc_onCtx hc 2 5 _ rfl

section
variable {n : Nat} {x : Tmpl} {tok : Word} {rest : List Word} (hc : s.ctx? c.id = some c)
include hc

/-- The copy of a firing joins the commands of its context. -/
theorem ctx?_addRun_fired : ∃ r, ((s.fired c x n tok rest).addRun (x.copy s c n tok)).ctx? c.id
      = some { c.fire x n rest with runs := c.runs ++ [r] } ∧ r.blk = x.blk ∧ r.template = some n
    ∧ r.src = (x.copy s c n tok).src ∧ r.dst = (x.copy s c n tok).dst :=
  ⟨_, ctx?_onCtx _ c.id _ _ (State.ctx?_fired hc x n tok rest) rfl, rfl, rfl, rfl, rfl⟩

/-- The record of a firing joins the queue that its template names. -/
theorem finishCmd_fired_recorded (x0 : Rec) (hq : x.queue < 8) (hw : NMap.wf {} c.cqs = true)
    (ht : sameTask c.seq (c.seq + 1) = true) :
    Recorded s ((s.fired c x n tok rest).finishCmd (x.copy s c n tok) x0) c.id x.queue x0.status := by
  have hqn : (x.copy s c n tok).cmd.f.q.toNat = x.queue := Nat.mod_eq_of_lt (by omega)
  have h := finishCmd_recorded s (s.fired c x n tok rest) (x.copy s c n tok) x0 c (c.fire x n rest) hc
    (State.ctx?_fired hc x n tok rest) rfl (by simpa [Ctx.owns, Ctx.fire, Tmpl.copy, Tmpl.command] using ht) (by rwa [hqn]) hw
  rwa [hqn] at h

variable (hx : (c.tmpls.find? fun y => y.num == n) = some x) (hl : c.letterbox x.lb = tok :: rest) (hv : c.live = true)
  (hr : s.copyRoom (copyEngineOf c.id.tile) = true)
include hx hl hv hr

/-- The copy of a firing is accepted, or too long and over at once. -/
theorem exec_templateFiring : exec (.templateFiring c.id n) s
    = .next (if 2 ^ 32 - 1 < (x.copy s c n tok).total then
        (s.fired c x n tok rest).finishCmd (x.copy s c n tok) (Rec.tooLong n tok)
      else (s.fired c x n tok rest).addRun (x.copy s c n tok)) := by
  have hgo : ¬ (!c.live || !s.copyRoom (copyEngineOf c.id.tile)) = true := by simp [hv, hr]
  change execTemplateFiring c.id n s = _
  simp only [execTemplateFiring, hc, hx, hl, if_neg hgo]
  exact (apply_ite Host.Outcome.next _ _ _).symm

/-- What a firing leaves: a context that has fired, and its copy or the record of one that is too long (R241; model, log 26). -/
theorem templateFiring_fires : ∃ t d, exec (.templateFiring c.id n) s = .next t ∧ t.ctx? c.id = some d
    ∧ d.letters = (c.fire x n rest).letters ∧ d.tmpls = (c.fire x n rest).tmpls
    ∧ ((x.copy s c n tok).total < 2 ^ 32 → ∃ r, d.runs = c.runs ++ [r] ∧ r.blk = x.blk ∧ r.template = some n
        ∧ r.src = (x.copy s c n tok).src ∧ r.dst = (x.copy s c n tok).dst)
    ∧ (2 ^ 32 ≤ (x.copy s c n tok).total → x.queue < 8 → NMap.wf {} c.cqs = true → sameTask c.seq (c.seq + 1) = true →
        Recorded s t c.id x.queue .size) := by
  have he := exec_templateFiring hc hx hl hv hr
  by_cases hbig : 2 ^ 32 - 1 < (x.copy s c n tok).total
  · rw [if_pos hbig] at he
    obtain ⟨d, hd, ed⟩ := ctx?_finishCmd_keeps (fun c => (c.letters, c.tmpls)) (x.copy s c n tok) (Rec.tooLong n tok)
      (fun _ _ _ _ _ _ _ => rfl) (State.ctx?_fired hc x n tok rest)
    obtain ⟨hletters, htmpls⟩ := Prod.mk.inj ed
    exact ⟨_, d, he, hd, hletters, htmpls, fun h => absurd h (by omega), fun _ => finishCmd_fired_recorded hc _⟩
  · rw [if_neg hbig] at he
    obtain ⟨r, hd, hrun⟩ := ctx?_addRun_fired (s := s) (n := n) (x := x) (tok := tok) (rest := rest) hc
    exact ⟨_, { c.fire x n rest with runs := c.runs ++ [r] }, he, hd, rfl, rfl, fun _ => ⟨r, rfl, hrun⟩,
      fun h => absurd h (by omega)⟩

end
end

/-! ## Posts (R238, R239) -/

theorem State.tile_onCtx (s : State) (k : CtxId) (f : Ctx → Ctx) (n : Nat) : (s.onCtx k f).tile n = s.tile n := by
  rw [State.tile, State.onCtx_tiles]
  rfl

theorem State.tile_finishCmd (s : State) (r : Run) (x : Rec) (n : Nat) : (s.finishCmd r x).tile n = s.tile n := by
  have h : (s.finishCmd r x).tiles = s.tiles := by
    unfold State.finishCmd State.pushRec
    split <;> exact State.noteErrors_tiles ..
  rw [State.tile, h]
  rfl

section
variable {s : State} {k : CtxId} {c : Ctx} {i : Nat} {m : Command}

/-- A post that leaves its engine leaves it the others. -/
theorem State.tile_postOver (s : State) (n i : Nat) (c : Ctx) (m : Command) (st : Status) :
    (s.postOver n i c m st).tile n = { s.tile n with posts := (s.tile n).posts.eraseIdx i, id := n } := by
  rw [State.postOver, State.tile_finishCmd, State.tile_onTile, State.trc, State.tile_traceAt]

/-- Only its record tells a context of the end of a post. -/
theorem ctx?_postOver_keeps {γ : Type} (g : Ctx → γ) (n i : Nat) (c : Ctx) (m : Command) (st : Status) (hid : ∀ c : Ctx,
      ∀ o rs hw ws sy zs, g { c with opens := o, runs := rs, hwait := hw, waits := ws, sys := sy, cqs := zs } = g c)
    {d : Ctx} (h : s.ctx? k = some d) : ∃ e, (s.postOver n i c m st).ctx? k = some e ∧ g e = g d :=
  ctx?_finishCmd_keeps g _ _ hid ((trc_ctx? ..).trans h)

theorem postOver_recorded {s0 : State} {c0 : Ctx} (h0 : s0.ctx? m.ctx = some c0) (h : s.ctx? m.ctx = some c)
    (hcq : c.cqs = c0.cqs) (ho : c.owns m.ctx m.seq = true) (hq : m.f.q.toNat < 8) (hw : NMap.wf {} c0.cqs = true)
    (n : Nat) (d : Ctx) (st : Status) : Recorded s0 (s.postOver n i d m st) m.ctx m.f.q.toNat st :=
  finishCmd_recorded s0 _ { cmd := m } _ c0 c h0 ((trc_ctx? ..).trans h) hcq ho hq hw

/-- A post of a tile puts its token in a letterbox of a context, and is over. -/
def State.placePost (s : State) (n i : Nat) (c : Ctx) (k : CtxId) (m : Command) : State :=
  (s.onCtx k fun d => d.pushLetter m.postLb m.base).postOver n i c m .ok

/-- Its token is the last of its letterbox. -/
theorem ctx?_placePost {d : Ctx} (hd : s.ctx? k = some d) (hw : NMap.wf [] d.letters = true) (n i : Nat) (c : Ctx) (m : Command) :
    ∃ e, (s.placePost n i c k m).ctx? k = some e ∧ e.letterbox m.postLb = d.letterbox m.postLb ++ [m.base] := by
  have hpush : (s.onCtx k fun d => d.pushLetter m.postLb m.base).ctx? k = some (d.pushLetter m.postLb m.base) :=
    ctx?_onCtx s k _ d hd (ctx?_id hd :)
  obtain ⟨e, he, hletters⟩ := ctx?_postOver_keeps (·.letterbox m.postLb) n i c m .ok (fun _ _ _ _ _ _ _ => rfl) hpush
  exact ⟨e, he, hletters.trans (nmap_get_set_same _ _ 0 _ _ hw)⟩

theorem placePost_recorded {s0 : State} {c0 : Ctx} (h0 : s0.ctx? m.ctx = some c0) (h : s.ctx? m.ctx = some c)
    (hcq : c.cqs = c0.cqs) (ho : c.owns m.ctx m.seq = true) (hq : m.f.q.toNat < 8) (hw : NMap.wf {} c0.cqs = true)
    (n : Nat) (d : Ctx) : Recorded s0 (s.placePost n i d k m) m.ctx m.f.q.toNat .ok := by
  obtain ⟨c1, h1, e1⟩ := ctx?_onCtx_keeps (k := k) (fun c => (c.cqs, c.owns m.ctx m.seq))
    (f := fun d => d.pushLetter m.postLb m.base) (fun _ => rfl) (fun _ => rfl) h
  obtain ⟨hcq1, ho1⟩ := Prod.mk.inj e1
  exact postOver_recorded h0 h1 (hcq1.trans hcq) (ho1.trans ho) hq hw n d .ok

/-- What the place of a post leaves of the posts and the credits of its tile. -/
theorem State.tile_placePost (s : State) (n i : Nat) (c : Ctx) (k : CtxId) (m : Command) :
    (s.placePost n i c k m).tile n = { s.tile n with posts := (s.tile n).posts.eraseIdx i, id := n } := by
  rw [State.placePost, State.tile_postOver, State.tile_onCtx]

/-- A post engine spends a credit for a letterbox of a context, and the letterbox has one grant less to await. -/
def State.spendCredit (s : State) (n launch : Nat) (k : CtxId) (lb : Nat) : State :=
  (s.onTile n fun t => { t with credits := t.credits.map fun x =>
    if x.launch = launch ∧ x.dst = k ∧ x.lb = lb then { x with n := x.n - 1 } else x }).onCtx k fun d =>
      { d with granted := NMap.set 0 d.granted lb (NMap.get 0 d.granted lb - 1) }

/-- The credits that are left. -/
theorem creditsFor_spendCredit (s : State) (n launch : Nat) (k : CtxId) (lb : Nat) :
    ((s.spendCredit n launch k lb).tile n).creditsFor launch k lb = (s.tile n).creditsFor launch k lb - 1 := by
  rw [State.spendCredit, State.tile_onCtx, State.tile_onTile]
  unfold Tile.creditsFor
  dsimp only
  have hsame : (fun x : Credit => x.launch == launch && x.dst == k && x.lb == lb)
      ∘ (fun x => if x.launch = launch ∧ x.dst = k ∧ x.lb = lb then { x with n := x.n - 1 } else x)
      = fun x => x.launch == launch && x.dst == k && x.lb == lb := by
    funext x
    dsimp only [Function.comp]
    split <;> rfl
  rw [List.find?_map, hsame]
  cases hf : (s.tile n).credits.find? fun x => x.launch == launch && x.dst == k && x.lb == lb with
  | none => rfl
  | some x =>
    have hx : x.launch = launch ∧ x.dst = k ∧ x.lb = lb := by simpa [and_assoc] using List.find?_some hf
    simp only [Option.map_some, if_pos hx]

/-- A post to another tile spends a credit of its tile; one to its own tile needs none. -/
def State.payPost (s : State) (n launch : Nat) (k : CtxId) (m : Command) : State :=
  if m.postTile = n then s else s.spendCredit n launch k m.postLb

theorem ctx?_payPost_keeps {γ : Type} (g : Ctx → γ) (hg : ∀ (c : Ctx) x, g { c with granted := x } = g c) (n launch : Nat)
    (m : Command) {j : CtxId} (h : s.ctx? j = some c) : ∃ d, (s.payPost n launch k m).ctx? j = some d ∧ g d = g c := by
  unfold State.payPost
  split
  · exact ⟨c, h, rfl⟩
  · exact ctx?_onCtx_keeps g (fun _ => rfl) (fun _ => hg ..) h

theorem State.posts_payPost (s : State) (n launch : Nat) (k : CtxId) (m : Command) :
    ((s.payPost n launch k m).tile n).posts = (s.tile n).posts := by
  unfold State.payPost
  split
  · rfl
  · rw [State.spendCredit, State.tile_onCtx, State.tile_onTile]

theorem creditsFor_payPost {n : Nat} (launch : Nat) (k : CtxId) (h : m.postTile ≠ n) :
    ((s.payPost n launch k m).tile n).creditsFor launch k m.postLb = (s.tile n).creditsFor launch k m.postLb - 1 := by
  rw [State.payPost, if_neg h, creditsFor_spendCredit]

section
variable {p : Post} (hc : s.ctx? k = some c) (hp : (s.tile k.tile).posts[i]? = some p) (hk : p.cmd.ctx = k)
  (hfirst : ∀ q ∈ (s.tile k.tile).posts.take i,
    ¬(q.cmd.ctx = k ∧ q.cmd.postLb = p.cmd.postLb ∧ q.cmd.postTile = p.cmd.postTile))
  (hpass : c.lanePassed p.cmd.f.lane p.cmd.seq = true) (hclear : c.laneClear p.cmd.f.lane p.cmd.seq = true)
include hc hp hk hfirst hpass hclear

/-- The first post of its letterbox, with its lane reached, is placed or discarded by where its launch has a task. -/
theorem exec_postPlaced : exec (.postPlaced k.tile i) s = match s.postDest p.cmd, s.taskOn c.task.launch p.cmd.postTile with
    | none, _ => .next (s.postOver k.tile i c p.cmd .notask)
    | some _, none => .next s
    | some _, some d =>
      if p.cmd.postTile = k.tile then
        if d.letterRoom p.cmd.postLb = 0 then .next s else .next (s.placePost k.tile i c d.id p.cmd)
      else if (s.tile k.tile).creditsFor c.task.launch d.id p.cmd.postLb = 0 then .next s
      else .next ((s.spendCredit k.tile c.task.launch d.id p.cmd.postLb).placePost k.tile i c d.id p.cmd) := by
  have hearly : ¬ ((((s.tile k.tile).posts.take i).any fun q => q.cmd.ctx == p.cmd.ctx && q.cmd.postLb == p.cmd.postLb
      && q.cmd.postTile == p.cmd.postTile) || !c.lanePassed p.cmd.f.lane p.cmd.seq
      || !c.laneClear p.cmd.f.lane p.cmd.seq) = true := by
    simpa [hpass, hclear, hk, and_assoc] using hfirst
  subst hk
  change execPostPlaced p.cmd.ctx.tile i s = _
  simp only [execPostPlaced, hp, hc, if_neg hearly]
  rfl

variable (ho : c.owns k p.cmd.seq = true) (hq : p.cmd.f.q.toNat < 8) (hw : NMap.wf {} c.cqs = true)
include ho hq hw

theorem postPlaced_discards (hd : s.postDest p.cmd = none) :
    ∃ t, exec (.postPlaced k.tile i) s = .next t ∧ SameMemory s t ∧ Recorded s t k p.cmd.f.q.toNat .notask
      ∧ (t.tile k.tile).posts = (s.tile k.tile).posts.eraseIdx i := by
  have he : exec (.postPlaced k.tile i) s = .next (s.postOver k.tile i c p.cmd .notask) := by
    rw [exec_postPlaced hc hp hk hfirst hpass hclear, hd]
  subst hk
  exact ⟨_, he, (execPostPlaced_memIs ..).sameMemory he, postOver_recorded hc hc rfl ho hq hw _ c .notask,
    by rw [State.tile_postOver]⟩

variable {j : CtxId} {d : Ctx} (hd : s.postDest p.cmd = some j) (ht : s.taskOn c.task.launch p.cmd.postTile = some d)
include hd ht

/-- A post to its own tile needs room, one to another tile a credit, which it spends. -/
theorem postPlaced_places (hcd : s.ctx? d.id = some d) (hl : NMap.wf [] d.letters = true)
    (hroom : p.cmd.postTile = k.tile → d.letterRoom p.cmd.postLb ≠ 0)
    (hcred : p.cmd.postTile ≠ k.tile → (s.tile k.tile).creditsFor c.task.launch d.id p.cmd.postLb ≠ 0) :
    ∃ t e, exec (.postPlaced k.tile i) s = .next t ∧ SameMemory s t ∧ Recorded s t k p.cmd.f.q.toNat .ok
      ∧ (t.tile k.tile).posts = (s.tile k.tile).posts.eraseIdx i
      ∧ t.ctx? d.id = some e ∧ e.letterbox p.cmd.postLb = d.letterbox p.cmd.postLb ++ [p.cmd.base]
      ∧ (p.cmd.postTile ≠ k.tile → (t.tile k.tile).creditsFor c.task.launch d.id p.cmd.postLb
          = (s.tile k.tile).creditsFor c.task.launch d.id p.cmd.postLb - 1) := by
  have he : exec (.postPlaced k.tile i) s = .next
      ((s.payPost k.tile c.task.launch d.id p.cmd).placePost k.tile i c d.id p.cmd) := by
    rw [exec_postPlaced hc hp hk hfirst hpass hclear, hd, ht]
    unfold State.payPost
    dsimp only
    split
    case isTrue h => rw [if_neg (hroom h)]
    case isFalse h => rw [if_neg (hcred h)]
  subst hk
  obtain ⟨c1, hc1, e1⟩ := ctx?_payPost_keeps (k := d.id) (fun x => (x.cqs, x.owns p.cmd.ctx p.cmd.seq)) (fun _ _ => rfl)
    p.cmd.ctx.tile c.task.launch p.cmd hc
  obtain ⟨hcq, hown⟩ := Prod.mk.inj e1
  obtain ⟨d1, hd1, hletters⟩ := ctx?_payPost_keeps (k := d.id) (·.letters) (fun _ _ => rfl)
    p.cmd.ctx.tile c.task.launch p.cmd hcd
  obtain ⟨e, hce, hlast⟩ := ctx?_placePost hd1 (by rwa [hletters]) p.cmd.ctx.tile i c p.cmd
  refine ⟨_, e, he, (execPostPlaced_memIs ..).sameMemory he, placePost_recorded hc hc1 hcq (hown.trans ho) hq hw _ c, ?_, hce, ?_,
    fun hfar => ?_⟩
  · rw [State.tile_placePost, State.posts_payPost]
  · rw [hlast, Ctx.letterbox, hletters]
    rfl
  · rw [State.tile_placePost]
    exact creditsFor_payPost c.task.launch d.id hfar

end

/-! ## Credits (R239) -/

section
variable {src dst lb want : Nat} {w d : Ctx} (hw : s.creditWant src dst lb = some (w, d, want)) (hne : src ≠ dst)
  (hlack : (s.tile src).creditsFor w.task.launch d.id lb < want) (hroom : d.letterRoom lb ≠ 0)
include hw hne hlack hroom

/-- A tile that lacks credits is granted the lesser of 8 and what is free, and keeps them. -/
theorem exec_creditGrant : exec (.creditGrant src dst lb) s = .next (
    let n := Nat.min 8 (d.letterRoom lb)
    let t := s.tile src
    let s1 := s.onCtx d.id (grantLetters lb n)
    let out := if t.credits.length < 32 then [] else t.credits.take 1
    if t.credits.any (fun x => x.isFor w.task.launch d.id lb) then s1.onTile src (gainCredits w.task.launch d.id lb n)
    else (s1.returnCredits out).onTile src fun t =>
      { t with credits := t.credits.drop out.length ++ [⟨d.id, lb, n, w.id, w.task.launch⟩] }) := by
  have hgo : ¬ (src = dst ∨ want ≤ (s.tile src).creditsFor w.task.launch d.id lb ∨ Nat.min 8 (d.letterRoom lb) = 0) := by
    have hmin : Nat.min 8 (d.letterRoom lb) ≠ 0 := by simp [Nat.min_def]; split <;> omega
    omega
  change execCreditGrant src dst lb s = _
  simp only [execCreditGrant, hw, if_neg hgo]
  exact (apply_ite Host.Outcome.next _ _ _).symm

theorem creditGrant_gains (hh : ((s.tile src).credits.any fun x => x.isFor w.task.launch d.id lb) = true) :
    exec (.creditGrant src dst lb) s = .next ((s.onCtx d.id (grantLetters lb (Nat.min 8 (d.letterRoom lb)))).onTile src
      (gainCredits w.task.launch d.id lb (Nat.min 8 (d.letterRoom lb)))) := by
  rw [exec_creditGrant hw hne hlack hroom]
  exact congrArg _ (if_pos hh)

theorem creditGrant_keeps (hh : ((s.tile src).credits.any fun x => x.isFor w.task.launch d.id lb) = false)
    (hlen : (s.tile src).credits.length < 32) :
    exec (.creditGrant src dst lb) s = .next ((s.onCtx d.id (grantLetters lb (Nat.min 8 (d.letterRoom lb)))).onTile src fun t =>
      { t with credits := t.credits ++ [⟨d.id, lb, Nat.min 8 (d.letterRoom lb), w.id, w.task.launch⟩] }) := by
  rw [exec_creditGrant hw hne hlack hroom]
  dsimp only
  rw [if_neg (by simp [hh]), if_pos hlen]
  rfl

theorem creditGrant_returns {x : Credit} {rest : List Credit}
    (hh : ((s.tile src).credits.any fun x => x.isFor w.task.launch d.id lb) = false)
    (hx : (s.tile src).credits = x :: rest) (hlen : 32 ≤ (s.tile src).credits.length) :
    exec (.creditGrant src dst lb) s = .next (((s.onCtx d.id (grantLetters lb (Nat.min 8 (d.letterRoom lb)))).returnCredits
      [x]).onTile src fun t =>
        { t with credits := t.credits.drop 1 ++ [⟨d.id, lb, Nat.min 8 (d.letterRoom lb), w.id, w.task.launch⟩] }) := by
  rw [exec_creditGrant hw hne hlack hroom]
  dsimp only
  rw [if_neg (by simp [hh]), if_neg (Nat.not_lt.2 hlen), hx]
  rfl

end
end

/-- Settles O33: a firing by the context that it leaves, a post by the place that it finds, a grant by the credits that the tile
holds. -/
theorem postsAndTemplates : Obligations.PostsAndTemplates := by
  intro s k c hc hid
  refine ⟨?fires, ?posts, ?grants⟩
  case fires =>
    subst hid
    intro n x tok rest hx hl hv hr hw i
    obtain ⟨t, d, he, hd, hletters, htmpls, hcopy, hlong⟩ := templateFiring_fires hc hx hl hv hr
    have hi : sintOf 32 (wordField tok 0 32) = i := sintOf_wordField_low tok
    refine ⟨t, d, he, (execTemplateFiring_memIs ..).sameMemory he, hd, ?_, ?_, ?_, ?_, hlong⟩
    · exact (congrArg (NMap.get [] · x.lb) hletters).trans (Ctx.letterbox_fire x n rest hw)
    · exact fun h => htmpls ▸ Ctx.tmpls_fire_last rest h
    · exact fun h => htmpls ▸ Ctx.tmpls_fire rest hx h
    · rw [← hi]
      exact hcopy
  case posts =>
    intro i p hp hk ho hq hfirst hpass hclear hw
    exact ⟨postPlaced_discards hc hp hk hfirst hpass hclear ho hq hw,
      fun j d hd ht hcd hl => postPlaced_places hc hp hk hfirst hpass hclear ho hq hw hd ht hcd hl⟩
  case grants =>
    intro src dst lb want w d hw hne hlack hroom
    exact ⟨creditGrant_gains hw hne hlack hroom, creditGrant_keeps hw hne hlack hroom,
      fun x rest => creditGrant_returns hw hne hlack hroom⟩

end Sys2Proof.Machine
end

section
/-! Copies, circuits and batches (R232, R234, R236, R303): which copy starts, what one that moves or ends does, and the record of a
batch. -/

namespace Sys2Proof.Machine

/-! ## Copies (R232, R234) -/

/-- Of two copies the one that came first. -/
def olderOf (a b : Run) : Run := if b.stamp < a.stamp then b else a

theorem olderOf_cases (a b : Run) : (olderOf a b = a ∨ olderOf a b = b) ∧ (olderOf a b).stamp ≤ a.stamp
    ∧ (olderOf a b).stamp ≤ b.stamp := by
  unfold olderOf
  split
  case isTrue h => exact ⟨.inr rfl, h.le, le_rfl⟩
  case isFalse h => exact ⟨.inl rfl, le_rfl, not_lt.1 h⟩

/-- What goes over copies for the one that came first finds one of them, which none precedes. -/
theorem foldl_olderOf (l : List Run) (a : Run) :
    l.foldl olderOf a ∈ a :: l ∧ ∀ q ∈ a :: l, (l.foldl olderOf a).stamp ≤ q.stamp := by
  induction l generalizing a with
  | nil => simp
  | cons b l ih =>
    obtain ⟨hmem, hle⟩ := ih (olderOf a b)
    obtain ⟨heq, ha, hb⟩ := olderOf_cases a b
    have hfirst : (l.foldl olderOf (olderOf a b)).stamp ≤ (olderOf a b).stamp := hle _ List.mem_cons_self
    rw [List.foldl_cons]
    constructor
    · rcases List.mem_cons.1 hmem with h | h
      · rw [h]
        rcases heq with e | e <;> simp [e]
      · exact List.mem_cons_of_mem a (List.mem_cons_of_mem b h)
    · simp only [List.forall_mem_cons] at hle ⊢
      exact ⟨hfirst.trans ha, hfirst.trans hb, hle.2⟩

section
variable {s : State} {e : Nat} {c : Ctx} {r : Run}

theorem execCopyAccept_oldest (hr : r ∈ s.copiesOf e) (hi : r.running = false)
    (hold : ∀ q ∈ s.copiesOf e, q.running = false → q = r ∨ r.stamp < q.stamp)
    (hroom : ((s.copiesOf e).filter fun q => q.running).length < 4) (hc : s.ctx? r.cmd.ctx = some c) :
    exec (.copyAccept e) s = .next ((s.trc 2 3 c [.word e, .word (s.streamId r), .word 0, .word 0]).putRun
      { r with running := true, phase := .active }) := by
  have hmem : r ∈ (s.copiesOf e).filter fun q => !q.running := List.mem_filter.2 ⟨hr, by simp [hi]⟩
  change execCopyAccept e s = _
  unfold execCopyAccept
  dsimp only
  split
  case h_1 he => simp [he] at hmem
  case h_2 a l he =>
    obtain ⟨hin, hle⟩ := foldl_olderOf l a
    rw [← he] at hin hle
    obtain ⟨hx, hxi⟩ := List.mem_filter.1 hin
    have hxr : l.foldl olderOf a = r := by
      rcases hold _ hx (by simpa using hxi) with h | h
      · exact h
      · exact absurd (hle r hmem) (by omega)
    rw [if_neg (by omega), show l.foldl (fun a b => if b.stamp < a.stamp then b else a) a = r from hxr]
    simp only [hc]

theorem copyAccept_starts (hr : r ∈ s.copiesOf e) (hi : r.running = false)
    (hold : ∀ q ∈ s.copiesOf e, q.running = false → q = r ∨ r.stamp < q.stamp)
    (hroom : ((s.copiesOf e).filter fun q => q.running).length < 4) (hc : s.ctx? r.cmd.ctx = some c)
    (ho : c.owns r.cmd.ctx r.cmd.seq = true) :
    ∃ t d, exec (.copyAccept e) s = .next t ∧ SameMemory s t ∧ t.ctx? r.cmd.ctx = some d
      ∧ d.runs = c.runs.map fun q => if q.cmd.seq = r.cmd.seq then { r with running := true, phase := .active, met := [] } else q := by
  have he := execCopyAccept_oldest hr hi hold hroom hc
  exact ⟨_, _, he, (execCopyAccept_memIs e s).sameMemory he,
    State.ctx?_putRun (r := { r with running := true, phase := .active }) ((trc_ctx? ..).trans hc) ho, rfl⟩

/-- What the end of a copy leaves before its record: its trace records, and the value of its chain (R236). -/
def State.copyNoted (s : State) (c : Ctx) (r : Run) : State :=
  let s := s.trc 2 3 c [.word r.engine, .word (s.streamId r), .word r.bytes, .word r.copyOutcome.1.code]
  let s := if r.copyOutcome.1 = .chkfail then s.trc 2 4 c [.word r.engine, .word r.chainNo, .word r.checkValue.toNat] else s
  let s := if r.copyOutcome.1 = .fault ∨ r.copyOutcome.1 = .poison then s.trc 2 2 c [.word 48, .word r.copyOutcome.2.toNat] else s
  if r.checks then s.onCtx c.id fun c => { c with chains := NMap.set 0 c.chains r.chainNo r.chainEnd } else s

theorem ctx?_copyNoted_keeps {γ : Type} (g : Ctx → γ) (hg : ∀ (c : Ctx) x, g { c with chains := x } = g c) {d : Ctx} {k : CtxId}
    (h : s.ctx? k = some d) : ∃ d', (s.copyNoted c r).ctx? k = some d' ∧ g d' = g d := by
  rw [← trc_ctx? s 2 3 c [.word r.engine, .word (s.streamId r), .word r.bytes, .word r.copyOutcome.1.code],
    ← State.ctx?_traceIf _ (r.copyOutcome.1 = .chkfail) 2 4 c [.word r.engine, .word r.chainNo, .word r.checkValue.toNat],
    ← State.ctx?_traceIf _ (r.copyOutcome.1 = .fault ∨ r.copyOutcome.1 = .poison) 2 2 c [.word 48, .word r.copyOutcome.2.toNat]] at h
  unfold State.copyNoted
  dsimp only
  split
  · exact ctx?_onCtx_keeps g (fun _ => rfl) (fun _ => hg ..) h
  · exact ⟨d, h, rfl⟩

/-- A copy of a command is over with one record, of its outcome. -/
theorem completeCopy_of_command (ht : r.template = none) : ∃ x : Rec, x.status = r.copyOutcome.1
    ∧ s.completeCopy c r = (s.copyNoted c r).finishCmd r x := by
  unfold State.completeCopy
  dsimp only
  rw [ht]
  exact ⟨_, rfl, rfl⟩

theorem completeCopy_recorded (hc : s.ctx? r.cmd.ctx = some c) (ht : r.template = none)
    (ho : c.owns r.cmd.ctx r.cmd.seq = true) (hw : NMap.wf {} c.cqs = true) (hq : r.cmd.f.q.toNat < 8) :
    Recorded s (s.completeCopy c r) r.cmd.ctx r.cmd.f.q.toNat r.copyOutcome.1 := by
  obtain ⟨x, hx, he⟩ := completeCopy_of_command (s := s) (c := c) ht
  obtain ⟨d, hd, ed⟩ := ctx?_copyNoted_keeps (c := c) (r := r) (fun y => (y.cqs, y.owns r.cmd.ctx r.cmd.seq)) (fun _ _ => rfl) hc
  obtain ⟨hcq, hown⟩ := Prod.mk.inj ed
  rw [he, ← hx]
  exact finishCmd_recorded s _ r x c d hc hd hcq (hown.trans ho) hq hw

end

section
variable {s : State} {e i : Nat} {c : Ctx} {r : Run} (hr : s.copyAt e i = some (c, r))
include hr

theorem copyAt_ctx? : s.ctx? r.cmd.ctx = some c := by
  unfold State.copyAt at hr
  split at hr
  case h_1 => cases hr
  case h_2 q _ =>
    obtain ⟨d, hd, he⟩ := Option.map_eq_some_iff.1 hr
    cases he
    exact hd

theorem copyTransfer_ends (hd : s.copyDone r = true) : exec (.copyTransfer e i) s = .next (s.completeCopy c r) := by
  simp only [exec, execCopyTransfer, hr, if_pos hd]

theorem copyTransfer_moves (hd : s.copyDone r = false) (hrun : r.running = true) (hch : r.checks = true → c.chainBusy r = false)
    (hlane : c.laneClear (if r.template.isSome then 0 else r.f.lane) r.cmd.seq = true) (hord : r.inOrder = true → r.diverted = []) :
    let x := r.startChain c
    let p := if x.remoteCopy then s.moveRemote c x else s.moveLine c x 64
    let q := p.2.present (s.viewerNow c)
    let s1 := p.1.putRun q
    let s2 := if q.remoteCopy && decide (q.copyEnd ≤ q.pos) && q.diverted.isEmpty then s1.sentDone c.id q.cmd.seq else s1
    exec (.copyTransfer e i) s = .next (if s2.copyDone q then s2.completeCopy c q else s2) := by
  have hgo : ¬ (!r.running || (r.checks && c.chainBusy r)
      || !c.laneClear (if r.template.isSome then 0 else r.f.lane) r.cmd.seq || (r.inOrder && !r.diverted.isEmpty)) = true := by
    simpa [hrun] using ⟨⟨hch, hlane⟩, hord⟩
  change execCopyTransfer e i s = _
  simp only [execCopyTransfer, hr]
  rw [if_neg (by simp [hd]), if_neg hgo]

end

/-! ## Circuits and batches (R232, R303) -/

/-- Status and FAULT of a batch, whose bitmap met a fault of a code or none. -/
def Run.batchOutcome (r : Run) (bad : Option Nat) : Status × BitVec 32 :=
  match bad with
  | some code => (.fault, faultField code 0xFFFFFF)
  | none => r.outcome

theorem Run.batchOutcome_status (r : Run) (bad : Option Nat) :
    (r.batchOutcome bad).1 = if bad.isSome then .fault else r.outcome.1 := by
  cases bad <;> rfl

section
variable {s : State} {tile slot : Nat} {c : Ctx} {r : Run} (hr : s.runAt tile slot = some (c, r))
include hr

theorem circuitEntryMove_fills {f : CF} (ho : r.cmd.op = .scirc f) (hp : r.phase = .active) (hd : r.f.door.toNat < 32) :
    exec (.circuitEntryMove tile slot) s = .next (s.turnRead c r) := by
  simp [exec, execCircuitEntryMove, hr, ho, hp, hd]

theorem circuitEntryMove_empties {f : CF} (ho : r.cmd.op = .scirc f) (hp : r.phase = .active) (hd : 32 ≤ r.f.door.toNat) :
    exec (.circuitEntryMove tile slot) s = .next (s.turnWrite c r) := by
  simp [exec, execCircuitEntryMove, hr, ho, hp, Nat.not_lt.2 hd]

/-- A batch whose elements are over leaves one record behind its bitmap: FAULT where the bitmap could not be written. -/
theorem gatherBatchEnd_records {d : Ctx} (hg : r.isGather = true) (hb : r.batchOver = true) (hw : s.bitmapWaits c r = false)
    (hq : r.cmd.f.q.toNat < 8) (hd : (s.writeBitmap c r).1.ctx? r.cmd.ctx = some d) (ho : d.owns r.cmd.ctx r.cmd.seq = true)
    (hwf : NMap.wf {} d.cqs = true) :
    ∃ t, exec (.gatherBatchEnd tile slot) s = .next t
      ∧ Recorded (s.writeBitmap c r).1 t r.cmd.ctx r.cmd.f.q.toNat
          (if (s.writeBitmap c r).2.isSome then .fault else r.outcome.1) := by
  have hgo : ¬ (!r.isGather || !r.batchOver || s.bitmapWaits c r) = true := by simp [hg, hb, hw]
  change ∃ t, execGatherBatchEnd tile slot s = .next t ∧ _
  simp only [execGatherBatchEnd, hr, if_neg hgo]
  refine ⟨_, rfl, ?_⟩
  have hctx : ∀ t : State, t.ctx? r.cmd.ctx = some d →
      ∀ st f, ((t.traceFault r st f).traceDoors c r).ctx? r.cmd.ctx = some d := fun t ht st f =>
    (State.ctx?_traceDoors ..).trans ((State.ctx?_traceFault ..).trans ht)
  rw [← Run.batchOutcome_status]
  refine finishCmd_recorded _ _ r _ d d hd (hctx _ ?_ _ _) rfl ho hq hwf
  split <;> exact (trc_ctx? ..).trans hd

end

/-- Settles O32: the start of a copy by the choice of the oldest, the ends by their one record, the moves by the acts that they
are. -/
theorem copiesProceed : Obligations.CopiesProceed := by
  intro s e i tile slot c r
  refine ⟨copyAccept_starts, fun hr => ⟨copyTransfer_ends hr, ?ends, copyTransfer_moves hr⟩, fun hr => ⟨?circuit, ?batch⟩⟩
  case ends =>
    intro hd ht ho hw hq
    have he := copyTransfer_ends hr hd
    exact ⟨_, he, sameMemory_of_mem (State.completeCopy_mem ..), completeCopy_recorded (copyAt_ctx? hr) ht ho hw hq⟩
  case circuit => exact fun f ho hp => ⟨circuitEntryMove_fills hr ho hp, circuitEntryMove_empties hr ho hp⟩
  case batch => exact fun hg hb hw hq d hd ho hwf => gatherBatchEnd_records hr hg hb hw hq hd ho hwf

end Sys2Proof.Machine
end

section
/-! Acceptance of stream commands (R55, R219, R222, R224): a good block is not enough where the address of the command is not of
its space. -/

namespace Sys2Proof.Machine

/-- SFILL of one element in space 0, with its block at the base of tile memory and its address in the Hall. -/
def strayFill : Command :=
  { ctx := ⟨0, 0⟩, seq := 0, op := .sfill ⟨0, 0, 0, 0, 0, 0, 0, 0, 1, 0, 0⟩, f := ⟨0, 0, 0, 0, 0, 0, 0, 0, 1, 0, 0⟩,
    base := 0x1000000000000000, pblk := 0x2000000000000000, prom := none, rm := .rne, epoch := 0 }

/-- A block of one element: four counts of 1. -/
def oneElement : Line := BitVec.ofNat 512 (1 + 2 ^ 32 + 2 ^ 64 + 2 ^ 96)

/-- A context with that command in the queue of its tile, whose region of 4 KiB begins with that block. -/
def strayState : State :=
  { c := { live := true }, mem := [(0, 1), (4, 1), (8, 1), (12, 1)]
    tiles := [{ id := 0, treg := [(0, BitVec.ofNat 64 (2 ^ 31 + 12 * 2 ^ 22))], queue := [strayFill] }] }

/-- That context once the command has left its queue. -/
def strayTaken : State := { strayState with tiles := [{ strayState.tile 0 with queue := [] }] }

/-- The block passes the checks of its fields and of what the command would do. -/
theorem strayFill_checks : ({ cmd := strayFill, blk := oneElement } : Run).rsvd = false
    ∧ strayTaken.streamBadpb strayTaken.c { cmd := strayFill, blk := oneElement } = false
    ∧ strayTaken.streamStep4 strayTaken.c { cmd := strayFill, blk := oneElement } = none := by decide +kernel

/-- The address of the command is not of its space, so that the command is over at its acceptance (R55; model, log 14). -/
theorem strayFill_ends : formAddr ({ cmd := strayFill } : Run).sp ({ cmd := strayFill } : Run).base = none
    ∧ ((strayState.acceptAt 0 0).ctx? strayFill.ctx).map (·.runs) = some [] := by decide +kernel

/-- Refutes O30, at its clause on a good block: nothing in the statement keeps the address of the command from lying outside the
space that the command names; an SFILL in space 0 with an address in the Hall then ends with ACCESS, as R55 has it, and is not
among the accepted commands. -/
theorem not_streamsAdvance : ¬ Obligations.StreamsAdvance := by
  intro h
  obtain ⟨haccept, -⟩ := h strayState 0 0 0 strayState.c strayFill { cmd := strayFill }
  obtain ⟨-, -, hstream⟩ := haccept rfl rfl rfl rfl rfl (by simp)
  obtain ⟨-, hgood⟩ := hstream strayFill.f (by simp [strayFill])
  obtain ⟨hrsvd, hbadpb, hstep4⟩ := strayFill_checks
  obtain ⟨t, d, x, ht, -, hd, hruns, -⟩ := hgood oneElement rfl hrsvd hbadpb hstep4
  have hleft : exec (.commandQueueAccept 0 0) strayState = .next (strayState.acceptAt 0 0) := rfl
  have htaken : strayState.acceptAt 0 0 = t := Host.Outcome.next.inj (hleft.symm.trans ht)
  have hnone := strayFill_ends.2
  rw [htaken, hd, Option.map_some, hruns] at hnone
  simp at hnone

end Sys2Proof.Machine
end

section
/-! Systolic sections (R256, R257, R268, R269, R273, R276, R279): weight loads that end, rows that enter, entries of the output
doors, and the end of an operation. -/

namespace Sys2Proof.Machine

/-! ## Entries taken from doors (R171, R211) -/

theorem Ctx.sec?_setDoor (c : Ctx) (code : Nat) (l : List DoorItem) (h : Nat) : (c.setDoor code l).sec? h = c.sec? h := by
  unfold Ctx.setDoor
  split <;> rfl

/-- A change of the doors and of what stands behind their ordering tokens, and of nothing else. -/
def Ctx.SameButDoors (c d : Ctx) : Prop :=
  d = { c with doorsIn := d.doorsIn, doorsOut := d.doorsOut, afterTok := d.afterTok }

theorem Ctx.SameButDoors.fields {c d : Ctx} (h : c.SameButDoors d) :
    d.id = c.id ∧ d.secs = c.secs ∧ d.files = c.files ∧ d.pc = c.pc := by
  rw [Ctx.SameButDoors] at h
  rw [h]
  exact ⟨rfl, rfl, rfl, rfl⟩

theorem Ctx.SameButDoors.trans {c d e : Ctx} (hd : c.SameButDoors d) (he : d.SameButDoors e) : c.SameButDoors e := by
  unfold Ctx.SameButDoors at *
  rw [hd] at he
  exact he

theorem Ctx.popDoor_sameButDoors {c d : Ctx} {code : Nat} {e : DoorEntry} (h : c.popDoor code = some (e, d)) :
    c.SameButDoors d := by
  unfold Ctx.popDoor at h
  split at h
  · cases h
  · split at h
    · obtain ⟨-, rfl⟩ := Prod.mk.inj (Option.some.inj h)
      unfold Ctx.setDoor
      split <;> rfl
    · cases h

theorem Ctx.popDoors_sameButDoors {l : List Nat} : ∀ {c d : Ctx} {es : List DoorEntry}, c.popDoors l = some (es, d) →
    c.SameButDoors d := by
  induction l with
  | nil =>
    intro c d es h
    obtain ⟨-, rfl⟩ := Prod.mk.inj (Option.some.inj h)
    rfl
  | cons code l ih =>
    intro c d es h
    unfold Ctx.popDoors at h
    cases hp : c.popDoor code with
    | none => rw [hp] at h; cases h
    | some p =>
      rw [hp] at h
      obtain ⟨q, hq, he⟩ := Option.map_eq_some_iff.1 h
      obtain ⟨-, rfl⟩ := Prod.mk.inj he
      exact (popDoor_sameButDoors hp).trans (ih hq)

/-! ## Weight loads (R257) -/

theorem weightLoadComplete_ends {s : State} {tile slot : Nat} {c : Ctx} {r : Run} (hr : s.runAt tile slot = some (c, r))
    (hd : s.loadDone c r = true) : exec (.weightLoadComplete tile slot) s = .next (s.endLoad c r).pumpAll := by
  simp only [exec, execWeightLoadComplete, hr, hd, if_true]

/-! ## The operation and its section (R268, R269, R273) -/

/-- An operation behind a row that enters, with its flags and zero blocks, made of some entries. -/
def Smm.takeRow (m : Smm) (row : SysRow × FlagBits × Nat) (es : List DoorEntry) : Smm :=
  { m with
    next := m.next + 1, out := m.out ++ [row.1], flags := m.flags ||| row.2.1, zeros := (m.zeros + row.2.2) % 2 ^ 24
    poison := if m.poison = 0 then (if m.cancelled ≠ 0 then 0 else entriesPoison es) else m.poison }

/-- Whether an operation has admitted its last row. -/
def Smm.full (m : Smm) : Bool := !m.endless && decide (m.rows ≤ m.next)

/-- An operation that has a row to take is full behind it exactly when it was its last. -/
theorem Smm.full_takeRow {m : Smm} (hm : m.endless = true ∨ m.next < m.rows) (row : SysRow × FlagBits × Nat)
    (es : List DoorEntry) : (m.takeRow row es).full = true ↔ m.endless = false ∧ m.rows = m.next + 1 := by
  change (!m.endless && decide (m.rows ≤ m.next + 1)) = true ↔ _
  cases he : m.endless
  · have hlt : m.next < m.rows := by simpa [he] using hm
    simpa using (by omega : m.rows ≤ m.next + 1 ↔ m.rows = m.next + 1)
  · simp

/-- A section whose operation becomes what a row leaves: the last row closes it. -/
def Section.takeRow (x : Section) (y : Systolic) (n : Smm) : Section :=
  { x with
    credit := if n.cancelled = 0 then x.credit - x.sysGrant else x.credit, silence := 0
    st := if n.full then .ending else x.st, opened := x.opened && !n.full
    moving := if n.full then x.shut.moving else x.moving
    sys := some { y with rowCtr := (y.rowCtr + 1) % 2 ^ 32, smm := some n } }

/-- An operation behind an entry that its output door j has received. -/
def Section.pushOut (x : Section) (m : Smm) (j now : Nat) : Smm :=
  x.dropRows { m with pushed := NMap.set 0 m.pushed j (NMap.get 0 m.pushed j + 1), bytes := m.bytes + 64, lastPush := now }

/-- A section that has returned its grant (R435). -/
def Section.ungranted (x : Section) : Section := { x with grant := 0, wants := 0, credit := 0 }

/-- A section behind a row: it returns its grant behind the last. -/
def Section.afterRow (x : Section) (y : Systolic) (n : Smm) : Section :=
  if n.full then (x.takeRow y n).ungranted else x.takeRow y n

theorem Section.afterRow_sys (x : Section) (y : Systolic) (n : Smm) :
    (x.afterRow y n).sys = some { y with rowCtr := (y.rowCtr + 1) % 2 ^ 32, smm := some n } := by
  unfold Section.afterRow
  split <;> rfl

theorem Section.afterRow_last (x : Section) (y : Systolic) {n : Smm} (hn : n.full = true) :
    (x.afterRow y n).st = .ending ∧ (x.afterRow y n).opened = false ∧ (x.afterRow y n).grant = 0 := by
  simp [Section.afterRow, Section.takeRow, Section.ungranted, hn]

theorem Section.afterRow_notLast (x : Section) (y : Systolic) {n : Smm} (hn : ¬ n.full = true) :
    (x.afterRow y n).st = x.st ∧ (x.afterRow y n).opened = x.opened ∧ (x.afterRow y n).grant = x.grant := by
  simp [Section.afterRow, Section.takeRow, hn]

section
variable {s : State} {k : CtxId} {h : Nat} {c : Ctx} {x : Section}

theorem sec?_onCtx (hs : s.sec? k h = some (c, x)) {f : Ctx → Ctx} (hid : (f c).id = c.id) (hx : (f c).sec? h = some x) :
    (s.onCtx k f).sec? k h = some (f c, x) := by
  obtain ⟨hc, -⟩ := sec?_ctx hs
  exact sec?_of (ctx?_onCtx s k f c hc (hid.trans (ctx?_id hc))) hx

theorem sec?_dropGrant (hs : s.sec? k h = some (c, x)) :
    (s.dropGrant k h).sec? k h = some (c.onSec h Section.ungranted, x.ungranted) :=
  sec?_onSec s k h Section.ungranted c x hs fun _ => rfl

end

/-- The state in which a context has given up the entries of a row, and its section has the row. -/
def State.enterRow (s : State) (k : CtxId) (h : Nat) (c : Ctx) (y : Systolic) (n : Smm) : State :=
  (s.onCtx k fun _ => c).onSec k h fun x => x.takeRow y n

/-- The state behind a row: behind the last, the end of the section is traced and its grant is back. -/
def State.afterRow (s : State) (k : CtxId) (h : Nat) (c d : Ctx) (y : Systolic) (n : Smm) : State :=
  if n.full then ((s.enterRow k h d y n).trc 1 2 c [.word h, .word 1]).dropGrant k h else s.enterRow k h d y n

section
variable {s : State} {k : CtxId} {h : Nat} {c : Ctx} {x : Section} {y : Systolic} {m : Smm} (hs : s.sec? k h = some (c, x))
include hs

/-- Only sections of the context change besides what its doors give up. -/
theorem sec?_afterRow {d : Ctx} (hd : c.SameButDoors d) (y : Systolic) (n : Smm) :
    ∃ l, (s.afterRow k h c d y n).sec? k h = some ({ d with secs := l }, x.afterRow y n) := by
  obtain ⟨hid, hsecs, -, -⟩ := hd.fields
  have hx : d.sec? h = some x := by rw [Ctx.sec?, hsecs]; exact (sec?_ctx hs).2
  have hrow : (s.enterRow k h d y n).sec? k h = some (d.onSec h fun x => x.takeRow y n, x.takeRow y n) :=
    sec?_onSec _ k h _ d x (sec?_onCtx hs hid hx) fun _ => rfl
  unfold State.afterRow Section.afterRow
  split
  · exact ⟨_, sec?_dropGrant (c := d.onSec h fun x => x.takeRow y n) ((trc_sec? ..).trans hrow)⟩
  · exact ⟨_, hrow⟩

variable (hy : x.sys = some y) (hm : y.smm = some m)
include hy hm

/-! ## Rows (R256, R269, R273) -/

section
variable (hst : x.st = .running) (ho : x.opened = true) (hl : c.live = true) (hn : m.endless = true ∨ m.next < m.rows)
  (hclk : ∀ r ∈ m.out, r.clk ≠ s.clk)
include hst ho hl hn hclk

omit hs hy hm in
/-- Nothing but a lack of input, room or current keeps the next row of an operation from entering. -/
theorem rowAdmission_unbarred : ¬ (x.st ≠ .running ∨ (!x.opened) = true ∨ (!c.live) = true
    ∨ ((!m.endless) = true ∧ m.rows ≤ m.next) ∨ (m.out.any fun r => r.clk == s.clk) = true) := by
  have hmore : m.endless = false → m.next < m.rows := fun he => hn.resolve_left (by simp [he])
  simpa [hst, ho, hl] using ⟨hmore, hclk⟩

theorem rowAdmission_stalls {why : Nat} (hw : x.admitStall c m = some why) :
    exec (.rowAdmission k h) s = .next (s.trc 3 4 c [.word h, .word why]) := by
  change execRowAdmission k h s = _
  simp only [execRowAdmission, hs, hy, hm, Option.bind_some, Option.map_some]
  rw [if_neg (rowAdmission_unbarred hst ho hl hn hclk), hw]

section
variable {ae ce : List DoorEntry} {c1 c2 : Ctx} (hw : x.admitStall c m = none)
  (ha : c.popDoors (x.smmDoors m).1 = some (ae, c1)) (hc : c1.popDoors (x.smmDoors m).2 = some (ce, c2))
include hw ha hc

theorem exec_rowAdmission : exec (.rowAdmission k h) s
    = .next (s.afterRow k h c c2 y (m.takeRow (smmRow x y m ae ce s.clk) (ae ++ ce))) := by
  change execRowAdmission k h s = _
  simp only [execRowAdmission, hs, hy, hm, Option.bind_some, Option.map_some]
  rw [if_neg (rowAdmission_unbarred hst ho hl hn hclk), hw]
  simp only [ha, hc]
  rfl

/-- A row takes one entry of every input door; the last closes its section, which returns its grant. -/
theorem rowAdmission_admits : let last := m.endless = false ∧ m.rows = m.next + 1
    ∃ t d z w n, exec (.rowAdmission k h) s = .next t ∧ SameMemory s t ∧ t.sec? k h = some (d, z)
      ∧ d.doorsIn = c2.doorsIn ∧ d.doorsOut = c2.doorsOut ∧ d.files = c.files ∧ d.pc = c.pc
      ∧ z.sys = some w ∧ w.rowCtr = (y.rowCtr + 1) % 2 ^ 32
      ∧ w.smm = some n ∧ n.next = m.next + 1 ∧ n.out = m.out ++ [(smmRow x y m ae ce s.clk).1]
      ∧ n.flags = m.flags ||| (smmRow x y m ae ce s.clk).2.1
      ∧ (last → z.st = .ending ∧ z.opened = false ∧ z.grant = 0)
      ∧ (¬ last → z.st = .running ∧ z.opened = true ∧ z.grant = x.grant) := by
  intro last
  have he := exec_rowAdmission hs hy hm hst ho hl hn hclk hw ha hc
  have hd : c.SameButDoors c2 := (Ctx.popDoors_sameButDoors ha).trans (Ctx.popDoors_sameButDoors hc)
  obtain ⟨-, -, hfiles, hpc⟩ := hd.fields
  obtain ⟨l, hsec⟩ := sec?_afterRow hs hd y (m.takeRow (smmRow x y m ae ce s.clk) (ae ++ ce))
  have hlast := m.full_takeRow hn (smmRow x y m ae ce s.clk) (ae ++ ce)
  refine ⟨_, _, _, _, _, he, (execRowAdmission_memIs k h s).sameMemory he, hsec, rfl, rfl, hfiles, hpc,
    Section.afterRow_sys .., rfl, rfl, rfl, rfl, rfl, fun hf => Section.afterRow_last _ _ (hlast.2 hf), fun hf => ?_⟩
  rw [← hst, ← ho]
  exact Section.afterRow_notLast _ _ (mt hlast.1 hf)

end
end

/-! ## Entries of the output doors (R268, R271, R279) -/

section
variable {j : Nat} {e : DoorEntry} (he : x.nextOut m j s.clk = some e)
include he

theorem outputEntryPush_stopped (hst : x.st = .stopped) : exec (.outputEntryPush k h j) s = .next s := by
  simp [exec, execOutputEntryPush, hs, hy, hm, he, hst]

theorem exec_outputEntryPush (hst : x.st ≠ .stopped) (hl : c.live = true)
    (hr : c.doorRoom (32 + blkField m.blk 1 1 + j) = true) : exec (.outputEntryPush k h j) s = .next
      ((s.onCtx k fun c => c.pushDoor (32 + blkField m.blk 1 1 + j) e s.clk).onSec k h fun z =>
        { z with sys := some { y with smm := some (x.pushOut m j s.clk) }, silence := 0 }) := by
  have hgo : ¬ ((!c.doorRoom (32 + blkField m.blk 1 1 + j)) = true ∨ (!c.live) = true ∨ x.st = .stopped) := by
    simp [hr, hl, hst]
  change execOutputEntryPush k h j s = _
  simp only [execOutputEntryPush, hs, hy, hm, he, Option.bind_some, Option.map_some]
  rw [if_neg hgo]
  rfl

theorem outputEntryPush_pushes (hst : x.st ≠ .stopped) (hl : c.live = true)
    (hr : c.doorRoom (32 + blkField m.blk 1 1 + j) = true) (hin : NMap.wf [] c.doorsIn = true)
    (hout : NMap.wf [] c.doorsOut = true) :
    ∃ t d z w n, exec (.outputEntryPush k h j) s = .next t ∧ SameMemory s t ∧ t.sec? k h = some (d, z)
      ∧ d.door (32 + blkField m.blk 1 1 + j) = c.door (32 + blkField m.blk 1 1 + j) ++ [.entry e s.clk]
      ∧ z.sys = some w ∧ w.smm = some n ∧ n.bytes = m.bytes + 64 ∧ n.lastPush = s.clk
      ∧ n.next = m.next ∧ z.st = x.st := by
  have hex := exec_outputEntryPush hs hy hm he hst hl hr
  have hdoor := sec?_onCtx hs (f := fun c => c.pushDoor (32 + blkField m.blk 1 1 + j) e s.clk) (Ctx.setDoor_id ..)
    ((Ctx.sec?_setDoor ..).trans (sec?_ctx hs).2)
  exact ⟨_, _, _, _, _, hex, (execOutputEntryPush_memIs k h j s).sameMemory hex,
    sec?_onSec _ k h _ _ x hdoor fun _ => rfl, Ctx.door_setDoor hin hout .., rfl, rfl, rfl, rfl, rfl, rfl⟩

end

/-! ## The end of an operation (R276, R279) -/

/-- 16 clk after its last entry an operation is over, and after SRUN.BACK its section with it. -/
theorem exec_smmRetire (hst : x.st = .ending) (hp : x.smmPushed m = true) (hc : m.lastPush + 16 ≤ s.clk) :
    exec (.smmRetire k h) s = .next (if x.taken then (s.retireSmm c x m).endSection k h
      else (s.retireSmm c x m).onSec k h fun x => { x with st := .ready, count := none, taken := false }).pumpAll := by
  simp [exec, execSmmRetire, hs, hy, hm, hst, hp, Nat.not_lt.2 hc]

end

/-- Settles O37: each act of a systolic section by its own lemma; a row by whether it is the last. -/
theorem systolicProceeds : Obligations.SystolicProceeds := by
  intro s k h tile slot c x y m
  refine ⟨fun r => weightLoadComplete_ends, fun hs hy hm => ⟨fun hst ho hl hn hclk => ⟨?stalls, ?admits⟩,
    fun j e he => ⟨?stopped, ?pushes⟩, fun hst hp hc => ⟨?ready, ?taken⟩⟩⟩
  case stalls => exact fun why => rowAdmission_stalls hs hy hm hst ho hl hn hclk
  case admits => exact fun ae c1 ce c2 => rowAdmission_admits hs hy hm hst ho hl hn hclk
  case stopped => exact outputEntryPush_stopped hs hy hm he
  case pushes => exact outputEntryPush_pushes hs hy hm he
  case ready => exact fun ht => by rw [exec_smmRetire hs hy hm hst hp hc, ht]; rfl
  case taken => exact fun ht => by rw [exec_smmRetire hs hy hm hst hp hc, ht]; rfl

end Sys2Proof.Machine
end

section
/-! What the S slot sends to the banks (R298, R299), what the arithmetic unit of a bank makes of a word (Table 10.6), and the
memory that reset leaves (R286, R289). -/

namespace Sys2Proof.Machine

/-! ## The S slot sends an access or traps (R298, R299) -/

theorem loadsFrom_of_load {i : SI → Instr} {size : Nat} {signed sync : Bool} {eaOf : Word → Word}
    (h : ∀ f s, exec (i f) s = .next (s.load f size signed sync eaOf)) : LoadsFrom i size signed sync eaOf := by
  intro f s hu
  refine ⟨fun c hc => ?_, fun hc => ?_⟩
  all_goals exact next_of_syllable hu (h f s) (by simp only [imm9, hc, loadAccess])

theorem storesTo_of_store {i : SI → Instr} {size : Nat} {full : Bool}
    (h : ∀ f s, exec (i f) s = .next (s.store f size full)) : StoresTo i size full := by
  intro f s hu
  refine ⟨fun c hc => ?_, fun hc => ?_⟩
  all_goals exact next_of_syllable hu (h f s) (by simp only [imm9, hc])

section
variable {s : State} {ea : Word} {size : Nat}

/-- The checks of an atomic, in their order: the space first (R299). -/
theorem checkAtomic_of_space (h : space ea ≠ 1) : s.checkAtomic ea size = some .access := by
  simp [State.checkAtomic, Use.spaceOk, h]

theorem checkAtomic_of_unaligned (hs : space ea = 1) (h : ea.toNat % size ≠ 0) : s.checkAtomic ea size = some .align := by
  simp [State.checkAtomic, Use.spaceOk, hs, h]

/-- An aligned word of the Hall in a region that is not ONCE passes every check. -/
theorem checkAtomic_of_stored {key : Nat} {kind : RKind} (hs : space ea = 1) (ha : ea.toNat % size = 0)
    (hz : zeroBitsOk ea = true) (hp : s.placeOf s.c ea = some (.stored key kind)) (hk : kind ≠ .once) :
    s.checkAtomic ea size = none := by
  cases kind with
  | once => exact absurd rfl hk
  | plain | sync => simp [State.checkAtomic, State.checkS, State.regionCheck, Use.spaceOk, hs, ha, hz, hp]

end

theorem actsOnWord_of_atomic {i : Instr} {s : State} {g : BitVec 4} {d a : BitVec 6} {srcs : List Reg} {op : BankOp} {size : Nat}
    {b cmp : State → Word} {x y : Word} (hu : Unhindered s g (s.regS a :: srcs) [s.regS d])
    (h : exec i s = .next (s.atomic g d a srcs op size b cmp)) (hb : b s = x) (hc : cmp s = y) : ActsOnWord i s d a op size x y := by
  subst hb hc
  refine ⟨fun hs => ?_, fun hs ha => ?_, fun key kind hs ha hz hp hk => ?_⟩
  · exact next_of_syllable hu h (by simp only [checkAtomic_of_space hs])
  · exact next_of_syllable hu h (by simp only [checkAtomic_of_unaligned hs ha])
  · exact next_of_syllable hu h (by simp only [checkAtomic_of_stored hs ha hz hp hk])

theorem scalarLoads : Piece.ScalarLoads :=
  ⟨loadsFrom_of_load fun _ _ => rfl, loadsFrom_of_load fun _ _ => rfl, loadsFrom_of_load fun _ _ => rfl,
    loadsFrom_of_load fun _ _ => rfl, loadsFrom_of_load fun _ _ => rfl, loadsFrom_of_load fun _ _ => rfl,
    loadsFrom_of_load fun _ _ => rfl, loadsFrom_of_load fun _ _ => rfl, loadsFrom_of_load fun _ _ => rfl⟩

theorem scalarStores : Piece.ScalarStores := by
  refine ⟨storesTo_of_store fun _ _ => rfl, storesTo_of_store fun _ _ => rfl, storesTo_of_store fun _ _ => rfl,
    storesTo_of_store fun _ _ => rfl, storesTo_of_store fun _ _ => rfl, fun f s hu => ⟨fun c hc => ?_, fun hc => ?_⟩⟩
  all_goals exact next_of_syllable hu rfl (by simp only [imm9, hc])

theorem hallAtomics : Piece.HallAtomics := by
  refine ⟨fun f s hu => ⟨?_, ?_, ?_, ?_, ?_, ?_, ?_, ?_⟩, fun f s hu => ?_, fun f s hu => ?_⟩
  all_goals exact actsOnWord_of_atomic hu rfl rfl rfl

/-- Settles O5: each syllable by the check of its address, which answers the trap or lets the access be staged. -/
theorem scalarMemory : Obligations.ScalarMemory := ⟨scalarLoads, scalarStores, hallAtomics⟩

/-! ## The arithmetic unit of a bank (R299, Table 10.6) -/

theorem sintOf_toNat (w : Word) : sintOf 64 w.toNat = w.toInt := by
  have hw := w.isLt
  rw [sintOf, Nat.mod_eq_of_lt hw, BitVec.toInt_eq_toNat_cond]
  split <;> split <;> omega

/-- A choice between two words, made on their numbers, is the choice between the words. -/
theorem ofNat_ite_toNat (p : Prop) [Decidable p] (x y : Word) :
    BitVec.ofNat 64 (if p then x.toNat else y.toNat) = if p then x else y := by
  split <;> simp

/-- Settles O6: the operations on numbers are those on words. -/
theorem bankArithmetic : Obligations.BankArithmetic := by
  intro w b c
  simp only [BankOp.apply, Nat.reduceMul, BitVec.toNat_mod_cancel, sintOf_toNat]
  refine ⟨?add, ofNat_ite_toNat .., ofNat_ite_toNat .., ?and, ?or, ?xor, ?swap, rfl, ?cas⟩
  case add | and | or | xor => exact BitVec.eq_of_toNat_eq (by simp)
  case swap => simp
  case cas => exact (ofNat_ite_toNat ..).trans (if_congr BitVec.toNat_inj rfl rfl)

/-! ## Memory at reset (R286, R289) -/

/-- Settles O54: reset lists no byte, and the empty list is in canonical form. -/
theorem resetIsCanonical : Obligations.ResetIsCanonical := ⟨rfl, rfl⟩

end Sys2Proof.Machine
end

section
/-! Accesses of the control core at their banks (R293 to R299, R311). -/

namespace Sys2Proof.Machine

/-! ## Bytes that a store writes (R288, R311) -/

theorem writeMasked_succ (s : State) (key : Nat) (data mask : Line) (n : Nat) :
    s.writeMasked key data mask (n + 1) = if maskByte mask n
      then (s.writeMasked key data mask n).setByte (key + n) (BitVec.ofNat 8 (elem 8 data n)) else s.writeMasked key data mask n := by
  simp only [State.writeMasked, List.range_succ, List.foldl_append, List.foldl_cons, List.foldl_nil]

theorem sameOutside_writeMasked (s : State) (key : Nat) (data mask : Line) (n : Nat) :
    SameOutside s (s.writeMasked key data mask n) key n := by
  intro i hi
  induction n with
  | zero => rfl
  | succ n ih =>
    rw [writeMasked_succ]
    split
    · exact (byte_setByte_other _ _ _ _ (by omega)).trans (ih (by omega))
    · exact ih (by omega)

theorem byte_writeMasked {s : State} (w : s.Canonical) (key : Nat) (data mask : Line) {n j : Nat} (hj : j < n) :
    (s.writeMasked key data mask n).byte (key + j)
      = if maskByte mask j then BitVec.ofNat 8 (elem 8 data j) else s.byte (key + j) := by
  induction n with
  | zero => exact absurd hj (Nat.not_lt_zero j)
  | succ n ih =>
    rw [writeMasked_succ]
    obtain hlt | rfl := Nat.lt_succ_iff_lt_or_eq.1 hj
    · rw [← ih hlt]
      split
      · exact byte_setByte_other _ _ _ _ (by omega)
      · rfl
    · split
      · exact byte_setByte_same _ _ _ (State.writeMasked_canonical w ..)
      · exact sameOutside_writeMasked s key data mask j _ (by omega)

theorem State.writeMasked_full (s : State) (key : Nat) (data mask : Line) (n : Nat) :
    (s.writeMasked key data mask n).full = s.full := by
  refine foldl_keeps State.full _ (fun t i => ?_) _ s
  split <;> rfl

/-! ## Presence words (R293) -/

theorem isFull_setFull_same {s : State} (w : NMap.wf false s.full = true) (key : Nat) (b : Bool) :
    (s.setFull key b).isFull key = b := nmap_get_set_same _ _ 0 _ _ w

/-- Of the words of some keys, each that is set to a value, or had it before, has it. -/
theorem nmap_get_foldl_set {d v : Bool} {m : NMap Bool} (w : NMap.wf d m = true) (keys : List Nat) {k : Nat}
    (h : k ∈ keys ∨ NMap.get d m (k / 8) = v) :
    NMap.get d (keys.foldl (fun m k => NMap.set d m (k / 8) v) m) (k / 8) = v := by
  induction keys generalizing m with
  | nil => exact h.resolve_left List.not_mem_nil
  | cons x r ih =>
    refine ih (nmap_set_wf _ _ _ _ w) ?_
    by_cases hx : k / 8 = x / 8
    · exact .inr (by rw [hx]; exact nmap_get_set_same _ _ 0 _ _ w)
    · refine h.imp (fun hm => (List.mem_cons.1 hm).resolve_left fun e => hx (e ▸ rfl)) fun hv => ?_
      exact (nmap_get_set_other _ _ _ _ _ hx).trans hv

theorem State.setFullAll_full (s : State) (keys : List Nat) (b : Bool) :
    (s.setFullAll keys b).full = keys.foldl (fun m k => NMap.set false m (k / 8) b) s.full :=
  (List.foldl_hom State.full fun _ _ => rfl).symm

/-- Words that a write fills are FULL (R293, R294). -/
theorem isFull_fillWords {s : State} (w : NMap.wf false s.full = true) {keys : List Nat} {key : Nat} (h : key ∈ keys) :
    (s.fillWords keys).isFull key = true := by
  change NMap.get false (s.setFullAll keys true).full (key / 8) = true
  rw [State.setFullAll_full]
  exact nmap_get_foldl_set w keys (.inl h)

/-! ## Which act a bank performs (R311) -/

theorem acc?_ctx {s : State} {k : CtxId} {i : Nat} {c : Ctx} {a : CoreAcc} (h : s.acc? k i = some (c, a)) :
    s.ctx? k = some c := by
  unfold State.acc? at h
  split at h
  · cases h
  · rename_i d hd
    obtain ⟨b, -, e⟩ := Option.map_eq_some_iff.1 h
    exact (Prod.mk.inj e).1 ▸ hd

section
variable {s : State} {k : CtxId} {i : Nat} {c : Ctx} {a : CoreAcc}
variable (ha : s.acc? k i = some (c, a)) (hm : c.mayPresent a = true) (hn : s.notHeld c a = true)

/-! ## Stores (R288, R293, R311) -/

section
variable {data mask : Line} {full : Bool} {key : Nat} {kind : RKind}

include ha hm hn in
theorem exec_store (hk : a.kind = .store data mask full) :
    exec (.bankAccessPerformed k i) s = .next (s.performStore k c a data mask full) := by
  simp [exec, execBankAccessPerformed, ha, hm, hn, hk]

variable (hp : s.placeOf c a.addr = some (.stored key kind))
include hp

theorem performStore_denied (hd : (s.foreign c.sys.partid.toNat key || s.imageDenied c key) = true) :
    s.performStore k c a data mask full = s.onCtx k fun c => { c with accs := c.accs.filter fun b => b.seq != a.seq } := by
  simp only [State.performStore, hp, hd, if_true]

/-- A store that its bank takes writes its bytes, and then makes the words that it touches FULL where it sets them. -/
theorem performStore_writes (hd : (s.foreign c.sys.partid.toNat key || s.imageDenied c key) = false) :
    ∃ u : State, u.mem = (s.writeMasked key data mask a.size).mem ∧ u.full = s.full
      ∧ s.performStore k c a data mask full = if kind = .once ∨ kind = .sync ∧ full = true
        then u.fillWords ((s.touched c a).map (·.1)) else u := by
  refine ⟨_, ?_, ?_, by simp only [State.performStore, hp, hd, Bool.false_eq_true, if_false]; rfl⟩
  · exact State.onCtx_mem ..
  · exact (State.onCtx_full ..).trans (State.writeMasked_full ..)

end

end

theorem fillIf_mem (s : State) (p : Prop) [Decidable p] (keys : List Nat) :
    (if p then s.fillWords keys else s).mem = s.mem := by
  rw [State.mem_ite, State.fillWords_mem, ite_self]

theorem storesArePerformed : Piece.StoresArePerformed := by
  intro s k i c a data mask full key kind ha hk hm hn hp denied
  have hex := exec_store ha hm hn hk
  refine ⟨fun hd => ⟨_, hex, ?_⟩, fun hd w => ⟨_, hex, State.performStore_canonical w .., ?_⟩⟩
  · rw [performStore_denied hp hd]
    exact ⟨sameMemory_of_mem (State.onCtx_mem ..), State.onCtx_full ..⟩
  · obtain ⟨u, hmem, hfull, he⟩ := performStore_writes (data := data) (mask := mask) (full := full) hp hd
    have hbyte (n : Nat) : (s.performStore k c a data mask full).byte n = (s.writeMasked key data mask a.size).byte n := by
      rw [he, State.byte, fillIf_mem, hmem]
      rfl
    refine ⟨fun j hj => (hbyte _).trans (byte_writeMasked w key data mask hj),
      fun n hn => (hbyte n).trans (sameOutside_writeMasked s key data mask a.size n hn), fun hf => ?_, fun hf wf x hx => ?_⟩
    · rw [he, if_neg, hfull]
      rintro (rfl | ⟨rfl, hset⟩)
      · simp at hf
      · simp [hset] at hf
    · rw [he, if_pos hf]
      exact isFull_fillWords (hfull ▸ wf) (List.mem_map_of_mem hx)

/-! ## EMPTY (R293, R298) -/

section
variable {s : State} {k : CtxId} {c : Ctx} {a : CoreAcc} {key : Nat} {kind : RKind}
variable (hp : s.placeOf c a.addr = some (.stored key kind))
include hp

theorem performEmpty_empties (hk : kind = .sync ∨ kind = .once)
    (hd : (s.foreign c.sys.partid.toNat key || s.imageDenied c key) = false) :
    (s.performEmpty k c a).full = (s.setFull key false).full := by
  obtain rfl | rfl := hk <;> simp [State.performEmpty, hp, hd]

theorem performEmpty_leaves (h : kind = .plain ∨ (s.foreign c.sys.partid.toNat key || s.imageDenied c key) = true) :
    (s.performEmpty k c a).full = s.full := by
  cases kind with
  | plain => simp [State.performEmpty, hp]
  | sync | once => simp [State.performEmpty, hp, h.resolve_left nofun]

end

theorem emptyIsPerformed : Piece.EmptyIsPerformed := by
  intro s k i c a key kind ha hk hm hn hp w denied
  refine ⟨s.performEmpty k c a, by simp [exec, execBankAccessPerformed, ha, hm, hn, hk],
    sameMemory_of_mem (State.performEmpty_mem ..), fun ⟨hkind, hd⟩ => ?_, fun h => performEmpty_leaves hp h⟩
  rw [State.isFull, performEmpty_empties hp hkind hd]
  exact isFull_setFull_same w key false

/-! ## Reads (R294, R295, R298) -/

/-- A read has the words that are FULL now besides those that it had (R294). -/
def State.withNewWords (s : State) (c : Ctx) (a : CoreAcc) : CoreAcc := { a with got := a.got ++ s.newWords c a }

/-- No element of a list fails a test where all pass it. -/
theorem isEmpty_filter_not {α : Type} (p : α → Bool) (l : List α) : (l.filter (not ∘ p)).isEmpty = l.all p := by
  rw [Bool.eq_iff_iff]
  simp

/-- Whether a read of the control core takes the next entry of a bank's deferred-read store (R295). -/
def State.entryTurn (s : State) (k : CtxId) (a : CoreAcc) (bank : Nat) : Bool :=
  s.storeTurn bank (portOf k.tile 7) (a.fullSince.getD s.clk) a.seq

/-- A read that is deferred takes the entries whose turn it is; with all that it needs it is an acquiring read, else it
waits at its port (R294, R295). -/
def State.atEntry (s : State) (k : CtxId) (c : Ctx) (a : CoreAcc) : CoreAcc :=
  let every := (s.deferBanks c a).all (s.entryTurn k a)
  { s.withNewWords c a with
    entries := a.entries ++ (s.deferBanks c a).filter (s.entryTurn k a), deferred := every, acquire := a.acquire || every
    fullSince := if every then a.fullSince else some (a.fullSince.getD s.clk) }

/-- An access of a context becomes another. -/
def Ctx.replaceAcc (c : Ctx) (a b : CoreAcc) : Ctx := { c with accs := c.accs.map fun q => if q.seq = a.seq then b else q }

theorem takeEntryOf_ctx? (s : State) (c : Option Ctx) (bank port : Nat) (waited : Option Nat) (j : CtxId) :
    (s.takeEntryOf c bank port waited).ctx? j = s.ctx? j := by
  unfold State.takeEntryOf
  split
  · exact trc_ctx? ..
  · exact trcPkg_ctx? ..
  · rfl

section
variable {s : State} {k : CtxId} {i : Nat} {c : Ctx} {a : CoreAcc}
variable (ha : s.acc? k i = some (c, a)) (hn : s.notHeld c a = true)
include ha hn

theorem exec_read (hdest : a.kind.hasDest = true) (hat : a.kind.isAtomic = false) (hm : c.mayPresent a = true)
    (hp : s.presenceOk c a = true) : exec (.bankAccessPerformed k i) s = .next (s.serveRead k c a a) := by
  cases hk : a.kind with
  | load | vload | bstep => simp [exec, execBankAccessPerformed, ha, hm, hn, hk, hp]
  | store | empty => simp [hk, AccKind.hasDest] at hdest
  | atomic => simp [hk, AccKind.isAtomic] at hat

/-- The words that have become FULL answer a deferred read; with the last of them it is served (R294). -/
theorem exec_deferredReadAnswered (hd : a.deferred = true) :
    exec (.deferredReadAnswered k i) s = if s.presenceOk c (s.withNewWords c a)
      then .next (s.serveRead k c a (s.withNewWords c a)) else .next (s.onCtx k (·.replaceAcc a (s.withNewWords c a))) := by
  change execDeferredReadAnswered k i s = _
  rw [execDeferredReadAnswered, ha]
  exact if_neg (by simp [hd, hn])

/-- A read that an EMPTY word of a ONCE region defers takes the entries whose turn it is (R294, R295). -/
theorem exec_deferredReadEntry (hd : a.deferred = false) (hw : s.wouldDefer c a = true) (hm : c.mayPresent a = true) :
    ∃ u : State, u.mem = s.mem ∧ u.ctx? k = s.ctx? k
      ∧ exec (.deferredReadEntry k i) s = .next (u.onCtx k (·.replaceAcc a (s.atEntry k c a))) := by
  let now := (s.deferBanks c a).filter (s.entryTurn k a)
  refine ⟨now.foldl (fun s b => s.takeEntryOf (some c) b (portOf k.tile 7) a.fullSince) s,
    foldl_keeps State.mem _ (fun _ _ => State.takeEntryOf_mem ..) now s,
    foldl_keeps (·.ctx? k) _ (fun _ _ => takeEntryOf_ctx? ..) now s, ?_⟩
  change execDeferredReadEntry k i s = _
  rw [execDeferredReadEntry, ha]
  refine (if_neg (by simp [hd, hw, hm, hn])).trans ?_
  simp only [List.partition_eq_filter_filter, State.atEntry, ← isEmpty_filter_not]
  rfl

end

theorem readsArePerformed : Piece.ReadsArePerformed := by
  intro s k i c a ha hn hdest hat got turn every becomes
  have hc := acc?_ctx ha
  refine ⟨exec_read ha hn hdest hat, fun hd hp => ?_, fun hd hp => ?_, fun hd hw hm => ?_⟩
  · exact (exec_deferredReadAnswered ha hn hd).trans (if_pos hp)
  · obtain ⟨t, ht, hmem, hctx⟩ := next_onCtx hc (f := (·.replaceAcc a (s.withNewWords c a))) rfl rfl
    exact ⟨t, _, (exec_deferredReadAnswered ha hn hd).trans ((if_neg (Bool.not_eq_true _ ▸ hp)).trans ht), hmem, hctx, rfl⟩
  · obtain ⟨u, humem, huctx, hex⟩ := exec_deferredReadEntry ha hn hd hw hm
    obtain ⟨t, ht, hmem, hctx⟩ := next_onCtx (huctx.trans hc) (f := (·.replaceAcc a (s.atEntry k c a))) rfl rfl
    exact ⟨t, _, hex.trans ht, fun n => (hmem n).trans (sameMemory_of_mem humem n), hctx, rfl⟩

/-! ## Atomics (R299) -/

section
variable {s : State} {k : CtxId} {i : Nat} {c : Ctx} {a : CoreAcc} {op : BankOp} {size key : Nat} {d : Reg} {b x : Word}
  {kind : RKind} (ha : s.acc? k i = some (c, a)) (hk : a.kind = .atomic op size d b x) (hm : c.mayPresent a = true)
  (hn : s.notHeld c a = true) (hp : s.placeOf c a.addr = some (.stored key kind))
include ha hk hm hn hp

/-- An atomic whose word cannot be read lands a poisoned zero (R22, R298). -/
theorem exec_atomic_poisoned (hc : s.readCause c a.addr size ≠ 0) : exec (.atomicPerformed k i) s
    = .next ((s.noteErrors (codeKeys key size)).onCtx k fun e =>
        e.served a ([(d, 0, allBits)], coreOrigin (s.readCause c a.addr size) e.id.tile)) := by
  simp [exec, execAtomicPerformed, ha, hk, hm, hn, hp, hc]

/-- Any other writes the new value of its word, and the old value lands; in a SYNC region its word becomes FULL (R299). -/
theorem exec_atomic_writes (hc : s.readCause c a.addr size = 0) :
    ∃ w : State, w.mem = (s.writeValue key size (op.apply size (s.valueAt key size) b.toNat x.toNat)).mem
      ∧ w.ctx? k = some (c.served a ([(d, wordVal (BitVec.ofNat 64 (s.valueAt key size)), allBits)], 0))
      ∧ exec (.atomicPerformed k i) s = .next (if kind = .sync then w.fillWords [key] else w) := by
  let noted := s.noteErrors (codeKeys key size)
  let u := if 8 < noted.atomicsOn key then
    noted.trc 4 5 c [.word ((key - 2 ^ 30) / 2 ^ 19), .word ((key - 2 ^ 30) % 2 ^ 19)] else noted
  have hmem : u.mem = s.mem := by simp [u, noted]
  have hctx : u.ctx? k = some c := (State.ctx?_traceIf ..).trans ((noteErrors_ctx? ..).trans (acc?_ctx ha))
  let w := u.writeValue key size (op.apply size (s.valueAt key size) b.toNat x.toNat)
  have hw : w.ctx? k = some c := hctx
  refine ⟨w.onCtx k fun e => e.served a ([(d, wordVal (BitVec.ofNat 64 (s.valueAt key size)), allBits)], 0), ?_, ?_, ?_⟩
  · exact (State.onCtx_mem ..).trans (congrArg (memWrite · key _) hmem)
  · exact ctx?_onCtx w k _ c hw (ctx?_id hw :)
  · simp only [exec, execAtomicPerformed, ha, hk, hm, hn, hp, hc]
    rfl

end

/-- What memory gives of a value depends on the memory alone. -/
theorem valueAt_of_mem {s t : State} (h : t.mem = s.mem) (key n : Nat) : t.valueAt key n = s.valueAt key n := by
  have bytes (key : Nat) : t.bytesAt key n = s.bytesAt key n := by
    induction n generalizing key with
    | zero => rfl
    | succ n ih => rw [State.bytesAt, State.bytesAt, ih, sameMemory_of_mem h]
  rw [State.valueAt, bytes, State.valueAt]

/-- Words that become FULL leave what lands for a context. -/
theorem fillIf_landings {s : State} {k : CtxId} {c : Ctx} (h : s.ctx? k = some c) (p : Prop) [Decidable p] (keys : List Nat) :
    ∃ e, (if p then s.fillWords keys else s).ctx? k = some e ∧ e.landings = c.landings := by
  split
  · exact ctx?_fillWords_keeps Ctx.landings (fun _ _ _ _ => rfl) keys h
  · exact ⟨c, h, rfl⟩

theorem atomicsArePerformed : Piece.AtomicsArePerformed := by
  intro s k i c a op size d b x key kind ha hk hm hn hp hsize cause
  have hctx := acc?_ctx ha
  by_cases hc : cause = 0
  · obtain ⟨u, humem, huctx, hex⟩ := exec_atomic_writes ha hk hm hn hp hc
    refine ⟨_, hex, fun _ w => ?_, fun h => absurd hc h⟩
    have hmem := (fillIf_mem u (kind = .sync) [key]).trans humem
    obtain ⟨e, he, hl⟩ := fillIf_landings huctx (kind = .sync) [key]
    obtain ⟨hval, hout, -⟩ := writtenValuesReadBack s key size (op.apply size (s.valueAt key size) b.toNat x.toNat) w
    refine ⟨fun n hn => (sameMemory_of_mem hmem n).trans (hout n hn), (valueAt_of_mem hmem key size).trans hval, e, he, ?_⟩
    rw [hl]
    exact ⟨_, List.mem_append_right _ List.mem_cons_self, rfl⟩
  · obtain ⟨t, ht, hmem, hserved⟩ := next_onCtx ((noteErrors_ctx? s (codeKeys key size) k).trans hctx)
      (f := fun e => e.served a ([(d, 0, allBits)], coreOrigin cause e.id.tile)) rfl rfl
    refine ⟨t, (exec_atomic_poisoned ha hk hm hn hp hc).trans ht, fun h => absurd h hc, fun _ => ⟨fun n => ?_, _, hserved, _,
      List.mem_append_right _ List.mem_cons_self, rfl, rfl⟩⟩
    exact (hmem n).trans (sameMemory_of_mem (State.noteErrors_mem ..) n)

/-- Settles O28: each access by the act of its bank, which the order of its context and the presence words let come about. -/
theorem coreAccessesArePerformed : Obligations.CoreAccessesArePerformed :=
  ⟨storesArePerformed, emptyIsPerformed, readsArePerformed, atomicsArePerformed⟩

end Sys2Proof.Machine
end

section
/-! Banks that change owner (R292) and the patrol scrubber (R433, R434). -/

namespace Sys2Proof.Machine

/-! ## Banks change owner (R292) -/

/-- A map that a range was cut from reads the default in the range, and what it read outside. -/
theorem nmap_get_cut {α : Type} [DecidableEq α] (d : α) (m : NMap α) (lo hi n : Nat) :
    NMap.get d (NMap.cut m lo hi) n = if lo ≤ n ∧ n < hi then d else NMap.get d m n := by
  induction m with
  | nil => simp [NMap.cut, NMap.get]
  | cons p r ih =>
    obtain ⟨k, v⟩ := p
    unfold NMap.cut at ih ⊢
    by_cases hk : lo ≤ k ∧ k < hi
    · rw [List.filter_cons_of_neg (by simpa using hk), ih]
      by_cases hn : k = n
      · subst hn
        rw [if_pos hk, if_pos hk]
      · simp only [NMap.get, if_neg hn]
    · rw [List.filter_cons_of_pos (by simpa [-not_and, not_and_or] using hk)]
      by_cases hn : k = n
      · subst hn
        simp only [NMap.get, if_neg hk, if_true]
      · simp only [NMap.get, if_neg hn, ih]

/-- A change to the read of a reader leaves all but the contexts and the hub. -/
theorem State.onRead_keeps {γ : Type} (g : State → γ)
    (hg : ∀ (s : State) (c : Ctx) (os : List Ctx) (h : Hub), g { s with c := c, others := os, hub := h } = g s)
    (s : State) (w : Reader) (f : Deferral → Deferral) : g (s.onRead w f) = g s := by
  have onCtx (k : CtxId) (f : Ctx → Ctx) : g (s.onCtx k f) = g s := by
    unfold State.onCtx
    split
    · exact hg s _ s.others s.hub
    · exact hg s s.c _ s.hub
  cases w with
  | hub i => exact hg s s.c s.others _
  | _ => exact onCtx ..

/-- So does the answer to the deferred reads of a bank. -/
theorem State.releaseDeferred_leaves {γ : Type} (g : State → γ)
    (hg : ∀ (s : State) (c : Ctx) (os : List Ctx) (h : Hub), g { s with c := c, others := os, hub := h } = g s)
    (s : State) (bank : Nat) : g (s.releaseDeferred bank) = g s := by
  refine foldl_keeps g _ (fun u r => ?_) s.reads s
  split
  · exact State.onRead_keeps g hg ..
  · rfl

section
variable {s : State} {bank : Nat} {r : Remap} (h : (s.hub.remaps.find? fun r => r.bank == bank) = some r)
include h

/-- The shutter that opens leaves the bytes of its bank zero, and no other byte changed. -/
theorem byte_openShutter (n : Nat) : (s.openShutter bank).byte n
    = if hallKey bank 0 ≤ n ∧ n < hallKey bank 0 + 2 ^ 19 then 0 else s.byte n := by
  have hm : (s.openShutter bank).mem = NMap.cut s.mem (hallKey bank 0) (hallKey bank 0 + 2 ^ 19) := by
    simp only [State.openShutter, h, State.trcPkg_mem, State.emptyRange, State.zeroRange, State.releaseDeferred_mem]
  simp only [State.byte, hm, nmap_get_cut]
  rfl

/-- The words of the bank are EMPTY. -/
theorem isFull_openShutter {i : Nat} (hi : i < 2 ^ 19) : (s.openShutter bank).isFull (hallKey bank i) = false := by
  have hm : (s.openShutter bank).full = NMap.cut s.full (hallKey bank 0 / 8) ((hallKey bank 0 + 2 ^ 19) / 8) := by
    simp only [State.openShutter, h, State.trcPkg_full, State.emptyRange, State.zeroRange,
      State.releaseDeferred_leaves State.full fun _ _ _ _ => rfl]
  rw [State.isFull, hm, nmap_get_cut, if_pos]
  unfold hallKey
  omega

theorem bankOwner_openShutter (w : NMap.wf 0 s.bankOwner = true) :
    NMap.get 0 (s.openShutter bank).bankOwner bank = r.owner := by
  simp only [State.openShutter, h, State.trcPkg_bankOwner, State.emptyRange, State.zeroRange,
    State.releaseDeferred_leaves State.bankOwner fun _ _ _ _ => rfl]
  exact nmap_get_set_same _ _ 0 _ _ w

end

theorem banksChangeOwner : Piece.BanksChangeOwner := by
  intro s bank
  refine ⟨fun owner => ?_, fun r hr hw => ⟨s.openShutter bank, rfl,
    bankOwner_openShutter hr hw, fun q hq => ?_, fun i hi => ⟨?_, isFull_openShutter hr hi⟩, fun n hn => ?_⟩⟩
  · intro new hr ho hn
    cases owner with
    | none | some p =>
      exact ⟨_, if_neg (by simpa [hr, ho] using hn), congrArg (· ++ _) (State.trcPkg_remaps ..),
        sameMemory_of_mem (State.trcPkg_mem ..)⟩
  · rw [State.openShutter_remaps] at hq
    simpa using (List.mem_filter.1 hq).2
  · rw [byte_openShutter hr, if_pos]
    unfold hallKey
    omega
  · rw [byte_openShutter hr, if_neg]
    omega

/-! ## The patrol scrubber (R433, R434) -/

/-- What the hub reports of an error of a code (R434). -/
def errorReport (k : Nat) : HubFault := ⟨5, 0, 0, 0, [BitVec.ofNat 64 (unitOf k), BitVec.ofNat 64 (addressIn k)]⟩

/-- Whether a code has an uncorrectable error that was not reported before (R434). -/
def State.unreported (s : State) (k : Nat) : Prop :=
  NMap.get false s.bad (k / 8) = true ∧ NMap.get false s.reported (k / 8) = false

/-- An error is reported, and marked so. -/
def State.reportOne (s : State) (k : Nat) : State :=
  { s with reported := NMap.set false s.reported (k / 8) true, hub := { s.hub with faults := s.hub.faults ++ [errorReport k] } }

theorem reportErrors_cons_new {s : State} {k : Nat} (h : s.unreported k) (keys : List Nat) :
    s.reportErrors (k :: keys) = (s.reportOne k).reportErrors keys :=
  congrArg (State.reportErrors · keys) (if_pos (by simpa [State.unreported] using h))

theorem reportErrors_cons_other {s : State} {k : Nat} (h : ¬ s.unreported k) (keys : List Nat) :
    s.reportErrors (k :: keys) = s.reportErrors keys :=
  congrArg (State.reportErrors · keys) (if_neg (by simpa [State.unreported] using h))

/-- The report of one error leaves those of other words unreported. -/
theorem unreported_reportOne {s : State} {k x : Nat} (hx : k / 8 ≠ x / 8) (h : s.unreported k) : (s.reportOne x).unreported k :=
  ⟨h.1, (nmap_get_set_other _ _ _ _ _ hx).trans h.2⟩

/-- Correcting codes changes which codes are marked as correctable and what the hub counts, and nothing else. -/
theorem State.correctCodes_keeps {γ : Type} (g : State → γ)
    (hg : ∀ (s : State) soft n, g { s with soft := soft, hub := { s.hub with corrected := n } } = g s) (s : State) (keys : List Nat) :
    g (s.correctCodes keys) = g s := by
  unfold State.correctCodes
  exact foldl_keeps g _ (fun t k => hg t _ _) _ s

theorem reportErrors_soft (s : State) (keys : List Nat) : (s.reportErrors keys).soft = s.soft := by
  refine foldl_keeps State.soft _ (fun t k => ?_) keys s
  split <;> rfl

/-- The codes that are corrected keep no mark. -/
theorem correctCodes_soft {s : State} (w : NMap.wf false s.soft = true) (keys : List Nat) {k : Nat} (hk : k ∈ keys) :
    NMap.get false (s.correctCodes keys).soft (k / 8) = false := by
  have hsoft : (s.correctCodes keys).soft = (keys.filter fun k => NMap.get false s.soft (k / 8)).foldl
      (fun m k => NMap.set false m (k / 8) false) s.soft := (List.foldl_hom State.soft fun _ _ => rfl).symm
  rw [hsoft]
  refine nmap_get_foldl_set w _ ?_
  cases hs : NMap.get false s.soft (k / 8) with
  | false => exact .inr rfl
  | true => exact .inl (List.mem_filter.2 ⟨hk, hs⟩)

/-- Of some codes, each at a presence word, those with an error that was not reported before are reported; without an error
none is. -/
theorem reportErrors_faults (s : State) (keys : List Nat) (h8 : ∀ k ∈ keys, 8 ∣ k) :
    ∃ new, (s.reportErrors keys).hub.faults = s.hub.faults ++ new ∧ (∀ k ∈ keys, s.unreported k → errorReport k ∈ new)
      ∧ ((∀ k ∈ keys, NMap.get false s.bad (k / 8) = false) → new = []) := by
  induction keys generalizing s with
  | nil => exact ⟨[], (List.append_nil _).symm, fun k hk => absurd hk List.not_mem_nil, fun _ => rfl⟩
  | cons x r ih =>
    have h8r : ∀ k ∈ r, 8 ∣ k := fun k hk => h8 k (List.mem_cons_of_mem x hk)
    by_cases hx : s.unreported x
    · obtain ⟨new, hf, hin, -⟩ := ih (s.reportOne x) h8r
      refine ⟨errorReport x :: new, ?_, fun k hk hu => ?_, fun h => ?_⟩
      · rw [reportErrors_cons_new hx, hf]
        exact List.append_assoc ..
      · obtain rfl | hkr := List.mem_cons.1 hk
        · exact List.mem_cons_self
        by_cases he : k / 8 = x / 8
        · obtain rfl : k = x := (Nat.div_left_inj (h8 k hk) (h8 x List.mem_cons_self)).1 he
          exact List.mem_cons_self
        · exact List.mem_cons_of_mem _ (hin k hkr (unreported_reportOne he hu))
      · exact absurd hx.1 (by rw [h x List.mem_cons_self]; decide)
    · obtain ⟨new, hf, hin, hnone⟩ := ih s h8r
      rw [reportErrors_cons_other hx]
      refine ⟨new, hf, fun k hk hu => ?_, fun h => hnone fun k hk => h k (List.mem_cons_of_mem x hk)⟩
      obtain rfl | hkr := List.mem_cons.1 hk
      · exact absurd hu hx
      · exact hin k hkr hu

/-- A code begins at a presence word. -/
theorem dvd_of_mem_codeKeys {key n k : Nat} (h : k ∈ codeKeys key n) : 8 ∣ k := by
  obtain ⟨i, -, rfl⟩ := List.mem_map.1 h
  refine Nat.dvd_mul_left_of_dvd ?_ _
  unfold codeSpan
  split <;> decide

theorem patrolReports : Piece.PatrolReports := by
  intro s line w words
  obtain ⟨new, hf, hin, hnone⟩ := reportErrors_faults (s.correctCodes words) words fun k hk => dvd_of_mem_codeKeys hk
  rw [State.correctCodes_keeps State.bad fun _ _ _ => rfl] at hnone
  rw [State.correctCodes_keeps (fun s => s.hub.faults) fun _ _ _ => rfl] at hf
  refine ⟨s.noteErrors words, new, rfl, sameMemory_of_mem (State.noteErrors_mem ..), State.noteErrors_bad .., fun k hk => ?_,
    hf, fun k hk hb hr => hin k hk ⟨?_, ?_⟩, hnone⟩
  · rw [State.noteErrors, reportErrors_soft]
    exact correctCodes_soft w words hk
  · rwa [State.correctCodes_keeps State.bad fun _ _ _ => rfl]
  · rwa [State.correctCodes_keeps State.reported fun _ _ _ => rfl]

/-- Settles O29: a change of owner by the shutter of its bank, the scrubber by what it corrects and reports. -/
theorem banksAndPatrol : Obligations.BanksAndPatrol := ⟨banksChangeOwner, patrolReports⟩

end Sys2Proof.Machine
end

section
/-! Traps entered and resumed, the ends of halted tasks, the budget of a firing (R365, R366, R421): what each act leaves of its
context, whichever context it is. -/

namespace Sys2Proof.Machine

/-! ## A trap of any context -/

section
variable {s : State} {k : CtxId} {c : Ctx} (h : s.ctx? k = some c) (t : Trap)
include h

/-- A halt leaves its context halted with the cause. -/
theorem ctx?_haltCtx : (s.haltCtx k t).ctx? k = some (c.halts t.cause) := by
  unfold State.haltCtx
  rw [h]
  exact ctx?_onCtx _ k _ c ((trc_ctx? ..).trans h) (ctx?_id h :)

/-- A trap that is taken leaves its context as `Ctx.takesTrap` says. -/
theorem ctx?_takeTrap : (s.takeTrap k t).ctx? k = some (c.takesTrap s.clk t) := by
  have hput (d : Ctx) (hd : d.id = c.id) (cls code : Nat) (fs : List TField) :
      ((s.trc cls code c fs).onCtx k fun _ => d).ctx? k = some d :=
    ctx?_onCtx _ k _ c ((trc_ctx? ..).trans h) (hd.trans (ctx?_id h))
  unfold State.takeTrap Ctx.takesTrap
  rw [h]
  dsimp only
  split
  · exact ctx?_haltCtx h t
  split
  · exact ctx?_haltCtx h { t with cause := .replayx }
  split
  · exact ctx?_haltCtx h t
  unfold Ctx.entersTrap
  split
  · cases builtInOf c t with
    | some b => exact hput { c.savesTrap t with builtin := some b } rfl ..
    | none => exact ctx?_haltCtx (hput (c.savesTrap t) rfl ..) t
  · rw [State.trc_clk]
    exact hput { c.savesTrap t with pc := c.sys.tbase, notBefore := if c.trap.isSome then c.notBefore else s.clk + 4 } rfl ..

/-- A decided trap is taken, or waits for the writes in flight. -/
theorem ctx?_decideTrap : (s.decideTrap k t).ctx? k
    = some (if s.drained c then c.takesTrap s.clk t else { c with trap := some t, notBefore := s.clk + 4 }) := by
  unfold State.decideTrap
  rw [h]
  dsimp only
  split
  · exact ctx?_takeTrap h t
  · exact ctx?_onCtx _ k _ c h (ctx?_id h :)

end

/-! ## Trap entry and resumes (R365, R366) -/

theorem trapEntryAndResume : Piece.TrapEntryAndResume := by
  intro s k c hc
  refine ⟨fun t ht hd => ?_, fun n ht hb ho => ?_, fun ht hb hl => ?_, fun a b ht hb => ?_, fun cause a hh => ?_⟩
  · simp only [exec, execTrapEntry, hc, ht, hd, if_true]
  · have hopen : c.opens.any (fun o => o.seq == n) = false := by simpa using ho
    simp only [exec, execTrapEntry, hc, ht, hb, hopen, Bool.false_eq_true, if_false]
  · simp only [exec, execTrapEntry, hc, ht, hb, hl, if_true]
  · simp only [exec, execTrapEntry, hc, ht, hb]
  · have he : exec (.haltedContextResume k a) s = .next ((s.trc 8 1 c [.word k.num, .word cause.num, .word 1]).onCtx k fun c =>
        { c with halted := none, firing := false, resume := some (a &&& ~~~31#64), notBefore := s.clk
                 sys := { c.sys with hm := false } }) := by
      simp only [exec, execHaltedContextResume, hc, hh, State.trc_clk]
    exact ⟨_, he, (execHaltedContextResume_memIs k a s).sameMemory he,
      ctx?_onCtx _ k _ c ((trc_ctx? ..).trans hc) (ctx?_id hc :)⟩

/-! ## The end of a halted task (R366) -/

/-- A change of one context loses no context. -/
theorem State.onCtx_resident {s : State} {j k : CtxId} {f : Ctx → Ctx} (hf : ∀ d, (f d).id = d.id)
    (h : (s.ctx? j).isSome = true) : ((s.onCtx k f).ctx? j).isSome = true := by
  obtain ⟨c, hc⟩ := Option.isSome_iff_exists.1 h
  obtain ⟨d, hd, -⟩ := ctx?_onCtx_keeps (k := k) (fun _ => ()) hf (fun _ => rfl) hc
  rw [hd]
  rfl

theorem State.ctx?_onTile (s : State) (n : Nat) (f : Tile → Tile) (k : CtxId) : (s.onTile n f).ctx? k = s.ctx? k := rfl

/-- The grant of a section that falls loses no context. -/
theorem State.dropGrant_resident {s : State} {j k : CtxId} {n : Nat} (h : (s.ctx? j).isSome = true) :
    ((s.dropGrant k n).ctx? j).isSome = true := by
  change ((s.onSec k n _).ctx? j).isSome = true
  rw [State.onSec]
  exact State.onCtx_resident (fun _ => rfl) h

/-- The release of a section loses no context. -/
theorem State.releaseSection_resident {s : State} {j k : CtxId} {n : Nat} (h : (s.ctx? j).isSome = true) :
    ((s.releaseSection k n).ctx? j).isSome = true := by
  unfold State.releaseSection
  cases s.sec? k n with
  | none => exact h
  | some p =>
    obtain ⟨c, x⟩ := p
    have ht : ((s.traceReleased c x).ctx? j).isSome = true := by
      unfold State.traceReleased
      split
      · exact h
      · rwa [trc_ctx?]
    dsimp only
    rw [State.updateRow0, State.ctx?_onTile]
    refine State.onCtx_resident (fun _ => rfl) ?_
    rw [State.keepCached, State.ctx?_onTile]
    exact State.dropGrant_resident ht

theorem State.releaseSections_resident (l : List Section) {s : State} {j k : CtxId} (h : (s.ctx? j).isSome = true) :
    ((l.foldl (fun s x => s.releaseSection k x.handle) s).ctx? j).isSome = true := by
  induction l generalizing s with
  | nil => exact h
  | cons x r ih => exact ih (State.releaseSection_resident h)

theorem haltedTaskEnds : Piece.HaltedTaskEnds := by
  intro s k c cause hc hh
  have hs : (((c.secs.foldl (fun s x => s.releaseSection k x.handle)
      (s.trc 8 1 c [.word k.num, .word cause.num, .word 2])).ctx? k)).isSome = true :=
    State.releaseSections_resident c.secs (by rw [trc_ctx?, hc]; rfl)
  obtain ⟨e, he⟩ := Option.isSome_iff_exists.1 hs
  simp only [exec, execHaltedTaskEnd, hc, hh]
  exact ⟨_, _, rfl, ctx?_onCtx _ k _ e he (ctx?_id he :), rfl, rfl, rfl, rfl, rfl, rfl⟩

/-! ## The budget of a firing (R421) -/

/-- The trap of a firing that has reached its budget. -/
def Ctx.budgetTrap (c : Ctx) : Trap := ⟨.budget, false, BitVec.ofNat 64 c.budget, c.pc⟩

theorem exec_budget {s : State} {k : CtxId} {c : Ctx} (hc : s.ctx? k = some c) (hi : c.canIssue s.clk = true)
    (hm : c.sys.hm = false) (hb : c.budget ≤ c.budgetCount) : exec (.budget k) s = .next (s.takeBudget k) := by
  simp [exec, execBudget, hc, hi, hm, hb]

/-- The budget halts a handler's firing, and is the trap of an actor's. -/
theorem ctx?_takeBudget {s : State} {k : CtxId} {c : Ctx} (hc : s.ctx? k = some c) : (s.takeBudget k).ctx? k
    = some (if c.hfiring then c.halts .budget
        else if s.drained c then c.takesTrap s.clk c.budgetTrap else { c with trap := some c.budgetTrap, notBefore := s.clk + 4 }) := by
  let s1 := s.trc 10 4 c [.word k.num, .word c.task.actor, .long c.pc.toNat]
  have h1 : s1.ctx? k = some c := (trc_ctx? ..).trans hc
  have hclk : s1.clk = s.clk := State.trc_clk ..
  have hd : s1.drained c = s.drained c := by
    obtain ⟨_, _, e⟩ := trc_eq s 10 4 c [.word k.num, .word c.task.actor, .long c.pc.toNat]
    unfold s1
    rw [e]
    rfl
  unfold State.takeBudget
  rw [hc]
  dsimp only
  split
  · exact ctx?_haltCtx h1 c.budgetTrap
  · rw [← hd, ← hclk]
    exact ctx?_decideTrap h1 c.budgetTrap

theorem budgetIsTaken : Piece.BudgetIsTaken := by
  intro s k c hc _ hi hm hb
  have he := exec_budget hc hi hm hb
  refine ⟨_, _, he, ctx?_takeBudget hc, (execBudget_memIs k s).sameMemory he, fun hh => ?_, fun hh hd hr ht => ?_, fun hh hd => ?_⟩
  · rw [if_pos hh]
    rfl
  · rw [if_neg (by simp [hh]), if_pos hd, Ctx.takesTrap_task hm (.inl hr) (by simp [Ctx.budgetTrap])]
    have hsys := Ctx.entersTrap_sys (c := c) (now := s.clk) (t := c.budgetTrap)
    rw [hsys]
    exact ⟨(Ctx.entersTrap_handler ht).1, rfl, rfl, rfl, rfl⟩
  · rw [if_neg (by simp [hh]), if_neg (by simp [hd])]
    rfl

/-- Settles O26: trap entry and resumes case by case, the end of a halted task by the contexts that the release of its sections
leaves, the budget as a trap of its context. -/
theorem trapsHaltsAndBudgets : Obligations.TrapsHaltsAndBudgets := ⟨trapEntryAndResume, haltedTaskEnds, budgetIsTaken⟩

end Sys2Proof.Machine
end

section
/-! Edge accesses and silent regions (R364, R371, R374, R376 to R378): what an answer, a fault and a look at a region leave of
its section. -/

namespace Sys2Proof.Machine

/-! ## A section that is replaced -/

section
variable {s : State} {k : CtxId} {h : Nat} {c : Ctx} {x : Section}

theorem Ctx.sec?_handle (hx : c.sec? h = some x) : x.handle = h := by
  simpa using List.find?_some hx

/-- A section that takes the place of another, with its handle, is found there. -/
theorem Ctx.sec?_onSec (hx : c.sec? h = some x) {f : Section → Section} (hf : (f x).handle = h) :
    (c.onSec h f).sec? h = some (f x) := by
  unfold Ctx.sec? Ctx.onSec at *
  revert hx
  induction c.secs with
  | nil => nofun
  | cons y l ih =>
    by_cases hy : y.handle = h
    · simp only [List.map_cons, List.find?_cons, hy, if_true, beq_self_eq_true, Option.some.injEq]
      rintro rfl
      simp [hf]
    · have hb : (y.handle == h) = false := by simpa using hy
      simpa only [List.map_cons, List.find?_cons, hy, if_false, hb] using ih

theorem State.sec?_onSec_of_handle (hs : s.sec? k h = some (c, x)) {f : Section → Section} (hf : (f x).handle = h) :
    (s.onSec k h f).sec? k h = some (c.onSec h f, f x) := by
  obtain ⟨hc, hx⟩ := sec?_ctx hs
  exact sec?_of (ctx?_onCtx s k _ c hc (by exact (ctx?_id hc :))) (Ctx.sec?_onSec hx hf)

end

/-! ## Answers of memory to edge accesses (R201, R374) -/

/-- An access that memory has answered, out of a replay. -/
def EdgeAcc.answered (e : EdgeAcc) (out : List Token) : EdgeAcc :=
  { e with out := some out, frozen := false, fails := 0, walk := none, defer := none, seen := none, heldFor := none,
           unreported := false }

section
variable {s : State} {k : CtxId} {h i : Nat} {c : Ctx} {x : Section} {e : EdgeAcc} (hs : s.sec? k h = some (c, x))
  (he : x.edges[i]? = some e) (hb : x.edgeBehind i e = false)
include hs he hb

/-- The tokens of an answered access are delivered behind those of the earlier accesses of its element. -/
theorem edgeElementReply_gives (hf : e.frozen = false ∨ e.replay.isSome = true) (ho : e.out.isSome = true) :
    exec (.edgeElementReply k h i) s = .next (if x.tokensBehind i e then s else s.deliverEdge k h i 6) := by
  have hgo : (x.edgeBehind i e || (e.frozen && e.replay.isNone)) = false := by
    rcases hf with hf | hf <;> simp [hb, hf]
  simp only [exec, execEdgeElementReply, hs, he, hgo, ho, Bool.false_eq_true, if_false, if_true]

theorem edgeElementReply_answers {s1 : State} {out : List Token} (hf : e.frozen = false) (ho : e.out = none)
    (hr : e.replay = none) (ht : s.edgeTry c x e = .done s1 out) :
    let s2 := s1.onSec k h fun x => { x.setEdge i (e.answered out) with lastEvent := Nat.max x.lastEvent s1.clk }
    exec (.edgeElementReply k h i) s = .next (if x.tokensBehind i e then s2 else s2.deliverEdge k h i 6) := by
  have hreplay : ({ e.answered out with replay := none } : EdgeAcc) = e.answered out := by
    simp only [EdgeAcc.answered, ← hr]
  have hplain : s1.replayed k e false = s1 := by
    unfold State.replayed
    rw [hr]
  unfold EdgeAcc.answered at hreplay
  simp only [exec, execEdgeElementReply, hs, he, hb, hf, ho, hr, ht, hplain, Bool.false_and, Bool.or_self, Bool.false_eq_true,
    if_false, Option.isSome_none, hreplay, EdgeAcc.answered]

/-! ## Faults of edge accesses (R371, R374) -/

end

/-- An access that a fault has frozen, before its event. -/
def EdgeAcc.frozenBy (e : EdgeAcc) (code fails : Nat) : EdgeAcc :=
  { e with frozen := true, code := code, fails := fails, walk := none, defer := none, seen := none, heldFor := none,
           replay := none, unreported := true }

/-- The fault record of a frozen element (R371). -/
def Section.faultRecord (x : Section) (h : Nat) (e : EdgeAcc) (code fails : Nat) : Rec :=
  { status := .fault, kind := 3, sid := h + 0x30, fault := BitVec.ofNat 32 (code + 2 ^ 8 * e.row + 2 ^ 12 * e.col + 2 ^ 16 * e.desc),
    version := BitVec.ofNat 32 x.tiles, bytes := fails }

/-- The state in which the element of an access is frozen with its trace and its record, before its event. -/
def State.freezeEdge (s : State) (k : CtxId) (h i : Nat) (c : Ctx) (x : Section) (e : EdgeAcc) (code fails : Nat) : State :=
  (((((s.onSec k h fun x => x.setEdge i (e.frozenBy code fails)).trc 1 7 c [.word h, .word e.row, .word e.col, .word code]).traceOnce
    c 5 code (x.edgeAddr e)).trc 8 2 c [.word h, .word e.row, .word e.col, .word code, .word fails]).pushRec k x.queue
      (x.faultRecord h e code fails) none none)

theorem State.freezeEdge_mem (s : State) (k : CtxId) (h i : Nat) (c : Ctx) (x : Section) (e : EdgeAcc) (code fails : Nat) :
    (s.freezeEdge k h i c x e code fails).mem = s.mem := by simp [State.freezeEdge]

theorem State.ctx?_traceOnce (s : State) (c : Ctx) (engine code : Nat) (a : Word) (k : CtxId) :
    (s.traceOnce c engine code a).ctx? k = s.ctx? k := State.ctx?_traceIf ..

section
variable {s : State} {k : CtxId} {h i : Nat} {c : Ctx} {x : Section} {e : EdgeAcc} (hs : s.sec? k h = some (c, x))
include hs

/-- It changes its section, and its queue has one more record. -/
theorem sec?_freezeEdge (hq : x.queue < 8) (code fails : Nat) : ∃ w : WaitRec, w.record.status = .fault
    ∧ (s.freezeEdge k h i c x e code fails).sec? k h
      = some ({ c.onSec h fun x => x.setEdge i (e.frozenBy code fails) with
          cqs := NMap.set {} c.cqs x.queue { NMap.get {} c.cqs x.queue with waiting := (NMap.get {} c.cqs x.queue).waiting ++ [w] } },
        x.setEdge i (e.frozenBy code fails)) := by
  obtain ⟨hc, hx⟩ := sec?_ctx (sec?_onSec s k h (fun x => x.setEdge i (e.frozenBy code fails)) c x hs fun _ => rfl)
  obtain ⟨w, hw, ht⟩ := pushRec_ctx?_none ((((s.onSec k h fun x => x.setEdge i (e.frozenBy code fails)).trc 1 7 c
      [.word h, .word e.row, .word e.col, .word code]).traceOnce c 5 code (x.edgeAddr e)).trc 8 2 c
      [.word h, .word e.row, .word e.col, .word code, .word fails]) k x.queue (x.faultRecord h e code fails) none none _
    (by simpa only [trc_ctx?, State.ctx?_traceOnce] using hc) hq
  exact ⟨w, hw, sec?_of ht hx⟩

/-- An access that meets a fault, first or under a replay for the built-in handling, freezes its element; then its event is
raised or it escalates. -/
theorem exec_edgeFaultFreeze (he : x.edges[i]? = some e) (hb : x.edgeBehind i e = false) (ho : e.out = none) {code : Nat}
    (ht : s.edgeTry c x e = .fault code) (hf : e.frozen = false ∧ e.replay = none ∨ e.frozen = true ∧ e.replay = some none)
    {fails : Nat} (hn : (if e.frozen then e.fails + 1 else 0) = fails) {d : Ctx} {y : Section}
    (hd : (s.freezeEdge k h i c x e code fails).sec? k h = some (d, y)) : exec (.edgeFaultFreeze k h i) s
      = .next ((s.freezeEdge k h i c x e code fails).freezeEvent k h i d y (e.frozenBy code fails)) := by
  have hopen : (x.edgeBehind i e || e.out.isSome) = false := by rw [hb, ho]; rfl
  have hgo : (e.frozen && e.replay.isNone) = false := by
    rcases hf with ⟨hf, -⟩ | ⟨-, hr⟩
    · rw [hf, Bool.false_and]
    · rw [hr, Option.isNone_some, Bool.and_false]
  have hplain : s.replayed k e true = s := by
    unfold State.replayed
    rcases hf with ⟨-, hr⟩ | ⟨-, hr⟩ <;> rw [hr]
  unfold State.freezeEdge EdgeAcc.frozenBy Section.faultRecord at hd ⊢
  simp only [exec, execEdgeFaultFreeze, hs, he, hopen, hgo, hplain, ht, hn, hd, Bool.false_eq_true, if_false]

end

/-- The address of an access is the same whatever its section holds of accesses, and whatever became of it. -/
theorem Section.edgeAddr_setEdge_frozenBy (x : Section) (i : Nat) (f e : EdgeAcc) (code fails : Nat) :
    (x.setEdge i f).edgeAddr (e.frozenBy code fails) = x.edgeAddr e := rfl

section
variable {s : State} {k : CtxId} {h i : Nat} {c : Ctx} {x : Section} (hs : s.sec? k h = some (c, x)) {f : EdgeAcc}
include hs

theorem sec?_freezeEvent_raises (hn : f.fails < 3) (hr : c.events.length < 16) :
    (s.freezeEvent k h i c x f).sec? k h = some ({ c.onSec h fun x => x.setEdge i { f with unreported := false } with
      events := c.events ++ [edgeEvent f.code (x.edgeAddr f)] }, x.setEdge i { f with unreported := false }) := by
  have h1 := sec?_onSec s k h (fun x => x.setEdge i { f with unreported := false }) c x hs fun _ => rfl
  unfold State.freezeEvent
  rw [if_neg (Nat.not_le.2 hn), if_neg (Nat.not_le.2 hr)]
  exact sec?_onCtx h1 rfl (sec?_ctx h1).2

theorem ctx?_freezeEvent_escalates (hn : 3 ≤ f.fails) : (s.freezeEvent k h i c x f).ctx? k
    = some ((c.onSec h fun x => x.setEdge i { f with unreported := false }).halts .replayx) := by
  have h1 := sec?_onSec (s.trc 8 2 c [.word h, .word f.row, .word f.col, .word f.code, .word f.fails]) k h
    (fun x => x.setEdge i { f with unreported := false }) c x ((trc_sec? ..).trans hs) fun _ => rfl
  unfold State.freezeEvent
  rw [if_pos hn]
  exact ctx?_haltCtx (sec?_ctx h1).1 _

end

section
variable {s : State} {k : CtxId} {h i : Nat} {c : Ctx} {x : Section} {e : EdgeAcc} (hs : s.sec? k h = some (c, x))
  (he : x.edges[i]? = some e) (hb : x.edgeBehind i e = false) (ho : e.out = none) {code : Nat}
  (ht : s.edgeTry c x e = .fault code) (hq : x.queue < 8) (hw : NMap.wf {} c.cqs = true)
include hs he hb ho ht hq hw

theorem edgeFaultFreeze_freezes (hf : e.frozen = false) (hr : e.replay = none) (hn : c.events.length < 16) :
    ∃ t d y f, exec (.edgeFaultFreeze k h i) s = .next t ∧ SameMemory s t ∧ Recorded s t k x.queue .fault
      ∧ t.sec? k h = some (d, y) ∧ y.edges[i]? = some f ∧ f.frozen = true ∧ f.code = code ∧ f.fails = 0
      ∧ d.events = c.events ++ [edgeEvent code (x.edgeAddr e)] := by
  obtain ⟨w, hst, hz⟩ := sec?_freezeEdge (i := i) (e := e) hs hq code 0
  have hx := exec_edgeFaultFreeze hs he hb ho ht (.inl ⟨hf, hr⟩) (by rw [hf]; rfl) hz
  have hu := sec?_freezeEvent_raises (i := i) hz (f := e.frozenBy code 0) (by decide : 0 < 3) hn
  refine ⟨_, _, _, { e.frozenBy code 0 with unreported := false }, hx, sameMemory_of_mem ((State.freezeEvent_mem ..).trans (State.freezeEdge_mem ..)),
    recorded_of s _ k x.queue .fault c _ w (sec?_ctx hs).1 (sec?_ctx hu).1 hw hst rfl, hu, ?_, rfl, rfl, rfl, rfl⟩
  obtain ⟨hlt, -⟩ := List.getElem?_eq_some_iff.1 he
  simp [Section.setEdge, hlt]

theorem edgeFaultFreeze_escalates (hf : e.frozen = true) (hr : e.replay = some none) (hn : 2 ≤ e.fails) :
    ∃ t d, exec (.edgeFaultFreeze k h i) s = .next t ∧ SameMemory s t ∧ Recorded s t k x.queue .fault
      ∧ t.ctx? k = some d ∧ d.halted = some .replayx := by
  obtain ⟨w, hst, hz⟩ := sec?_freezeEdge (i := i) (e := e) hs hq code (e.fails + 1)
  have hx := exec_edgeFaultFreeze hs he hb ho ht (.inr ⟨hf, hr⟩) (if_pos hf) hz
  have hu := ctx?_freezeEvent_escalates (i := i) hz (f := e.frozenBy code (e.fails + 1)) (Nat.succ_le_succ hn)
  exact ⟨_, _, hx, sameMemory_of_mem ((State.freezeEvent_mem ..).trans (State.freezeEdge_mem ..)),
    recorded_of s _ k x.queue .fault c _ w (sec?_ctx hs).1 hu hw hst rfl, hu, rfl⟩

end

/-! ## Silent regions (R376 to R378) -/

/-- A section at which the detector has looked. -/
def Section.looked (x : Section) (mark : List Nat) (now : Nat) : Section := { x with mark := mark, counted := now }

/-- Whether the time of a section is not counted: an element of it is frozen, or it waits for a grant (R376, log 34). -/
def Section.uncounted (x : Section) : Bool := x.edges.any (·.frozen) || (x.wants != 0 && x.grant == 0)

/-- The state behind the release of the extensions that fit again (R377). -/
def State.released (s : State) (k : CtxId) (h : Nat) (c : Ctx) (x : Section) : State :=
  let y := x.shrink c (s.spillUsed k.tile)
  if y.extensions < x.extensions then (s.trc 8 3 c [.word h, .word 0, .word y.extensions]).onSec k h fun _ => y else s

/-- A link channel that takes the place of another is found there. -/
theorem Section.chan_setChan (x : Section) {q : Chan} {row col dir : Nat} (hr : q.row = row) (hc : q.col = col)
    (hd : q.dir = dir) : (x.setChan q).chan row col dir = q := by
  subst hr hc hd
  have hnone : (x.chans.filter fun p => !(p.row == q.row && p.col == q.col && p.dir == q.dir)).find?
      (fun p => p.row == q.row && p.col == q.col && p.dir == q.dir) = none :=
    List.find?_eq_none.2 fun p hp hq => absurd (List.mem_filter.1 hp).2 (by rw [hq]; decide)
  unfold Section.chan Section.setChan
  rw [List.find?_append, hnone]
  simp

theorem Section.chan_place (x : Section) (row col dir : Nat) :
    (x.chan row col dir).row = row ∧ (x.chan row col dir).col = col ∧ (x.chan row col dir).dir = dir := by
  unfold Section.chan
  cases hq : x.chans.find? fun q => q.row == row && q.col == col && q.dir == dir with
  | none => exact ⟨rfl, rfl, rfl⟩
  | some q => simpa [and_assoc] using List.find?_some hq

/-- The section that an extension of a buffer makes. -/
def Section.extended (x : Section) (now : Nat) (b : Buffer) : Section :=
  let x := { x with silence := 0, counted := now, spillReq := none }
  match b with
  | .chan row col dir => x.setChan { x.chan row col dir with ext := (x.chan row col dir).ext + 1 }
  | .door d => { x with extDoors := x.extDoors ++ [d] }
  | .spill => { x with extSpill := x.extSpill + 1 }

theorem Section.extended_handle (x : Section) (now : Nat) (b : Buffer) : (x.extended now b).handle = x.handle := by
  cases b <;> rfl

theorem Section.extended_silence (x : Section) (now : Nat) (b : Buffer) : (x.extended now b).silence = 0 := by
  cases b <;> rfl

/-- A section has one extension of a buffer more than another. -/
def Section.OneMore (y z : Section) : Buffer → Prop
  | .door d => z.extDoors = y.extDoors ++ [d]
  | .spill => z.extSpill = y.extSpill + 1
  | .chan row col dir => (z.chan row col dir).ext = (y.chan row col dir).ext + 1

theorem Section.extended_buffer (x : Section) (now : Nat) (b : Buffer) : x.OneMore (x.extended now b) b := by
  cases b with
  | chan row col dir =>
    obtain ⟨hr, hc, hd⟩ := x.chan_place row col dir
    exact congrArg Chan.ext (({ x with silence := 0, counted := now, spillReq := none } : Section).chan_setChan
      (q := { x.chan row col dir with ext := (x.chan row col dir).ext + 1 }) hr hc hd)
  | door d => rfl
  | spill => rfl

section
variable {s : State} {k : CtxId} {h : Nat} {c : Ctx} {x : Section} (hs : s.sec? k h = some (c, x))
include hs

/-- The release changes the section alone. -/
theorem sec?_released : ∃ d z, (s.released k h c x).sec? k h = some (d, z) ∧ d.id = k ∧ d.events = c.events
    ∧ (s.released k h c x).clk = s.clk ∧ (s.released k h c x).split = s.split
    ∧ (s.released k h c x).hub.nextReq = s.hub.nextReq := by
  obtain ⟨hc, hx⟩ := sec?_ctx hs
  unfold State.released
  dsimp only
  split
  · obtain ⟨_, _, ht⟩ := trc_eq s 8 3 c [.word h, .word 0, .word (x.shrink c (s.spillUsed k.tile)).extensions]
    refine ⟨_, _, State.sec?_onSec_of_handle ((trc_sec? ..).trans hs) (Ctx.sec?_handle hx :), (ctx?_id hc :), rfl, ?_⟩
    rw [ht]
    unfold State.onSec
    simp
  · exact ⟨c, x, hs, ctx?_id hc, rfl, rfl, rfl, rfl⟩

/-- Out of RUNNING, extensions are released and nothing else is done. -/
theorem regionSilent_notRunning (hst : x.st ≠ .running) : exec (.regionSilent k h) s = .next (s.released k h c x) := by
  have hgo : ((x.shrink c (s.spillUsed k.tile)).st ≠ .running ∨ (!c.live) = true) := .inl hst
  simp only [exec, execRegionSilent, hs]
  rw [if_pos hgo]
  rfl

end

section
variable {s : State} {k : CtxId} {h : Nat} {c : Ctx} {x : Section} (hs : s.sec? k h = some (c, x)) (hst : x.st = .running)
  (hl : c.live = true) {y : Section} (hy : x.shrink c (s.spillUsed k.tile) = y) {s0 : State} (h0 : s.released k h c x = s0)
include hs hst hl hy h0

/-- A look at a running region, from the state behind the release. -/
theorem exec_regionSilent : exec (.regionSilent k h) s =
    let mark := s0.regionMark c y
    let put (z : Section) : State := s0.onSec k h fun _ => z.looked mark s0.clk
    let n := y.silence + (s0.clk - y.counted)
    if y.uncounted then .next (put y)
    else if mark ≠ y.mark then .next (put { y with silence := 0, deadlocked := false, declined := false })
    else match s0.buffersInOrder c y with
      | [] => .next (put { y with silence := 0 })
      | b :: rest =>
        let s1 := put { y with silence := n }
        if n < c.quiet ∨ y.deadlocked ∨ y.spillReq.isSome then .next s1
        else
          let s2 := if y.silence < c.quiet then s1.trc 8 3 c [.word h, .word b.code, .word y.extensions] else s1
          if y.declined || !s0.mayExtend c y then .next (s2.deadlock c y)
          else if s0.splitBit c.part 2 then
            .next ((s2.hubRequest 3 c.part k.tile k.num (BitVec.ofNat 64 h :: (b :: rest).map fun b => BitVec.ofNat 64 b.code)).2.onSec
              k h fun x => { x with spillReq := some s2.hub.nextReq })
          else .next (s2.extend c y b) := by
  subst hy h0
  have hgo : ¬ ((x.shrink c (s.spillUsed k.tile)).st ≠ .running ∨ (!c.live) = true) := by
    rw [hl]
    exact fun h => h.elim (fun h => h hst) nofun
  simp only [exec, execRegionSilent, hs]
  rw [if_neg hgo]
  rfl

end

/-- A look at a region leaves its context and its section as P says. -/
def State.LooksAt (s : State) (k : CtxId) (h : Nat) (P : Ctx → Section → Prop) : Prop :=
  ∃ t d z, exec (.regionSilent k h) s = .next t ∧ SameMemory s t ∧ t.sec? k h = some (d, z) ∧ P d z

theorem State.looksAt_of {s t : State} {k : CtxId} {h : Nat} {P : Ctx → Section → Prop} {d : Ctx} {z : Section}
    (he : exec (.regionSilent k h) s = .next t) (ht : t.sec? k h = some (d, z)) (hp : P d z) : s.LooksAt k h P :=
  ⟨t, d, z, he, (execRegionSilent_memIs k h s).sameMemory he, ht, hp⟩

theorem State.sec?_traceIf (s : State) (b : Prop) [Decidable b] (cls code : Nat) (c : Ctx) (fs : List TField) (k : CtxId)
    (h : Nat) : (if b then s.trc cls code c fs else s).sec? k h = s.sec? k h := by
  unfold State.sec?
  rw [State.ctx?_traceIf]

theorem State.nextReq_traceIf (s : State) (b : Prop) [Decidable b] (cls code : Nat) (c : Ctx) (fs : List TField) :
    (if b then s.trc cls code c fs else s).hub.nextReq = s.hub.nextReq := by
  split
  · obtain ⟨_, _, ht⟩ := trc_eq s cls code c fs
    rw [ht]
  · rfl

/-- DEADLOCK joins the events of its context, and its section has raised it (R378). -/
theorem sec?_deadlock {s : State} {k : CtxId} {h : Nat} {c d : Ctx} {y z : Section} (hs : s.sec? k h = some (d, z))
    (hc : c.id = k) (hy : y.handle = h) (hn : d.events.length < 16) : ∃ e, (s.deadlock c y).sec? k h
      = some (e, { z with deadlocked := true, declined := false, spillReq := none })
      ∧ e.events = d.events ++ [⟨.deadlock, BitVec.ofNat 64 (y.handle + 2 ^ 8 * y.extensions)⟩] := by
  subst hc hy
  obtain ⟨hctx, hz⟩ := sec?_ctx hs
  have hraise : s.raiseEvent c.id .deadlock (BitVec.ofNat 64 (y.handle + 2 ^ 8 * y.extensions))
      = some (s.onCtx c.id fun c => { c with events := c.events ++
        [⟨.deadlock, BitVec.ofNat 64 (y.handle + 2 ^ 8 * y.extensions)⟩] }) := by
    simp only [State.raiseEvent, hctx, if_neg (Nat.not_le.2 hn)]
  unfold State.deadlock
  rw [hraise]
  refine ⟨_, sec?_onSec _ _ _ _ _ z ((trc_sec? ..).trans (sec?_onCtx hs ?_ ?_)) fun _ => rfl, ?_⟩
  · rfl
  · exact hz
  · rfl

/-- A buffer of the section has one extension more (R377). -/
theorem sec?_extend {s : State} {k : CtxId} {h : Nat} {c d : Ctx} {y z : Section} (hs : s.sec? k h = some (d, z))
    (hc : c.id = k) (hy : y.handle = h) (b : Buffer) :
    ∃ e, (s.extend c y b).sec? k h = some (e, z.extended s.clk b) := by
  subst hc hy
  have ht := sec?_onSec _ _ _ (fun z => z.extended s.clk b) d z
    ((trc_sec? s 8 3 c [.word y.handle, .word b.code, .word (y.extensions + 1)] c.id y.handle).trans hs)
    fun x => x.extended_handle s.clk b
  rw [← State.trc_clk s 8 3 c [.word y.handle, .word b.code, .word (y.extensions + 1)]] at ht ⊢
  exact ⟨_, ht⟩

section
variable {s : State} {k : CtxId} {h : Nat} {c : Ctx} {x : Section} (hs : s.sec? k h = some (c, x)) (hid : c.id = k)
  (hst : x.st = .running) (hl : c.live = true) {y : Section} (hy : x.shrink c (s.spillUsed k.tile) = y) {s0 : State}
  (h0 : s.released k h c x = s0)
include hs

theorem shrink_handle (hy : x.shrink c (s.spillUsed k.tile) = y) : y.handle = h := by
  rw [← hy]
  exact (Ctx.sec?_handle (sec?_ctx hs).2 :)

include h0

/-- The section that a look leaves where it neither extends a buffer nor raises DEADLOCK. -/
theorem regionSilent_puts {P : Ctx → Section → Prop} {z : Section} (hz : z.handle = h)
    (he : exec (.regionSilent k h) s = .next (s0.onSec k h fun _ => z.looked (s0.regionMark c y) s0.clk))
    (hp : ∀ d, P d (z.looked (s0.regionMark c y) s.clk)) : s.LooksAt k h P := by
  obtain ⟨d, z0, hs0, -, -, hclk, -⟩ := sec?_released hs
  rw [h0] at hs0 hclk
  rw [← hclk] at hp
  exact State.looksAt_of he (State.sec?_onSec_of_handle hs0 hz) (hp _)

include hst hl hy

theorem regionSilent_paused (hp : y.uncounted = true) :
    s.LooksAt k h fun _ z => z.silence = y.silence ∧ z.counted = s.clk := by
  have he := exec_regionSilent hs hst hl hy h0
  rw [if_pos hp] at he
  exact regionSilent_puts hs h0 (shrink_handle hs hy) he fun _ => ⟨rfl, rfl⟩

variable (hp : y.uncounted = false)
include hp

theorem regionSilent_progresses (hm : s0.regionMark c y ≠ y.mark) : s.LooksAt k h fun _ z =>
    z.silence = 0 ∧ z.deadlocked = false ∧ z.counted = s.clk ∧ z.mark = s0.regionMark c y := by
  have he := exec_regionSilent hs hst hl hy h0
  rw [if_neg (by simp [hp]), if_pos hm] at he
  exact regionSilent_puts (z := { y with silence := 0, deadlocked := false, declined := false }) hs h0
    (shrink_handle hs hy :) he fun _ => ⟨rfl, rfl, rfl, rfl⟩

variable (hm : s0.regionMark c y = y.mark)
include hm

theorem regionSilent_noFullBuffer (hb : s0.buffersInOrder c y = []) :
    s.LooksAt k h fun _ z => z.silence = 0 ∧ z.counted = s.clk := by
  have he := exec_regionSilent hs hst hl hy h0
  rw [if_neg (by simp [hp]), if_neg (not_not.2 hm), hb] at he
  exact regionSilent_puts (z := { y with silence := 0 }) hs h0
    (shrink_handle hs hy :) he fun _ => ⟨rfl, rfl⟩

variable {b : Buffer} {rest : List Buffer} (hb : s0.buffersInOrder c y = b :: rest)
include hb

theorem regionSilent_counts (hn : y.silence + (s.clk - y.counted) < c.quiet) :
    s.LooksAt k h fun _ z => z.silence = y.silence + (s.clk - y.counted) ∧ z.counted = s.clk := by
  obtain ⟨_, _, -, -, -, hclk, -⟩ := sec?_released hs
  rw [h0] at hclk
  have he := exec_regionSilent hs hst hl hy h0
  rw [if_neg (by simp [hp]), if_neg (not_not.2 hm), hb] at he
  simp only [hclk, hn, true_or, if_true] at he
  rw [← hclk] at he
  exact regionSilent_puts (z := { y with silence := y.silence + (s0.clk - y.counted) }) hs h0
    (shrink_handle hs hy :) he fun _ => ⟨by rw [← hclk]; rfl, rfl⟩

variable (hn : c.quiet ≤ y.silence + (s.clk - y.counted)) (hd : y.deadlocked = false) (hr : y.spillReq = none)
include hn hd hr

/-- A region that is silent for QUIET clk: what the look begins from, and the choice that it makes. -/
theorem regionSilent_silent : ∃ (d : Ctx) (s2 : State), s2.sec? k h
      = some (d, ({ y with silence := y.silence + (s.clk - y.counted) } : Section).looked (s0.regionMark c y) s.clk)
    ∧ d.events = c.events ∧ s2.clk = s.clk ∧ s2.hub.nextReq = s.hub.nextReq
    ∧ exec (.regionSilent k h) s = if y.declined || !s0.mayExtend c y then .next (s2.deadlock c y)
        else if s.splitBit c.part 2 then
          .next ((s2.hubRequest 3 c.part k.tile k.num (BitVec.ofNat 64 h :: (b :: rest).map fun b => BitVec.ofNat 64 b.code)).2.onSec
            k h fun x => { x with spillReq := some s2.hub.nextReq })
        else .next (s2.extend c y b) := by
  obtain ⟨d, z0, hs0, -, hev, hclk, hsplit, hreq⟩ := sec?_released hs
  rw [h0] at hs0 hclk hsplit hreq
  let z : Section := ({ y with silence := y.silence + (s.clk - y.counted) } : Section).looked (s0.regionMark c y) s.clk
  let s1 := s0.onSec k h fun _ => z
  have hz : s1.sec? k h = some (d.onSec h fun _ => z, z) :=
    State.sec?_onSec_of_handle hs0 (shrink_handle hs hy :)
  have he := exec_regionSilent hs hst hl hy h0
  rw [if_neg (by simp [hp]), if_neg (not_not.2 hm), hb] at he
  have hbit : s0.splitBit c.part 2 = s.splitBit c.part 2 := by rw [State.splitBit, hsplit]; rfl
  have hnot : ¬ (y.silence + (s.clk - y.counted) < c.quiet ∨ y.deadlocked = true ∨ y.spillReq.isSome = true) := by
    simp [hd, hr, hn]
  simp only [hclk, if_neg hnot, hbit] at he
  refine ⟨_, _, (State.sec?_traceIf s1 _ _ _ _ _ k h).trans hz, hev, ?_, ?_, he⟩
  · split
    · rw [State.trc_clk]
      exact (State.onCtx_clk ..).trans hclk
    · exact (State.onCtx_clk ..).trans hclk
  · rw [State.nextReq_traceIf]
    unfold s1 State.onSec
    rw [State.onCtx_hub, hreq]

section
variable (hx : y.declined = false) (hmay : s0.mayExtend c y = true)
include hx hmay

theorem regionSilent_asks (hbit : s.splitBit c.part 2 = true) : s.LooksAt k h fun _ z =>
    z.spillReq = some s.hub.nextReq ∧ z.silence = y.silence + (s.clk - y.counted) := by
  obtain ⟨d, s2, hs2, -, -, hreq, hexec⟩ := regionSilent_silent hs hst hl hy h0 hp hm hb hn hd hr
  rw [if_neg (by simp [hx, hmay]), if_pos hbit] at hexec
  refine State.looksAt_of hexec (sec?_onSec _ k h (fun x => { x with spillReq := some s2.hub.nextReq }) d _ hs2 fun _ => rfl)
    ⟨?_, rfl⟩
  rw [← hreq]

include hid

theorem regionSilent_extends (hbit : s.splitBit c.part 2 = false) : s.LooksAt k h fun _ z => z.silence = 0 ∧ y.OneMore z b := by
  obtain ⟨d, s2, hs2, -, -, -, hexec⟩ := regionSilent_silent hs hst hl hy h0 hp hm hb hn hd hr
  rw [if_neg (by simp [hx, hmay]), if_neg (by simp [hbit])] at hexec
  obtain ⟨e, ht⟩ := sec?_extend hs2 hid (shrink_handle hs hy) b
  refine State.looksAt_of hexec ht ⟨Section.extended_silence .., ?_⟩
  have hbuf := Section.extended_buffer
    (({ y with silence := y.silence + (s.clk - y.counted) } : Section).looked (s0.regionMark c y) s.clk) s2.clk b
  cases b <;> exact hbuf

end

include hid

theorem regionSilent_deadlocks (hx : y.declined = true ∨ s0.mayExtend c y = false) (he : c.events.length < 16) :
    s.LooksAt k h fun d z => z.deadlocked = true
      ∧ d.events = c.events ++ [⟨.deadlock, BitVec.ofNat 64 (x.handle + 2 ^ 8 * y.extensions)⟩] := by
  obtain ⟨d, s2, hs2, hev, -, -, hexec⟩ := regionSilent_silent hs hst hl hy h0 hp hm hb hn hd hr
  rw [if_pos (by rcases hx with hx | hx <;> simp [hx])] at hexec
  have hh : y.handle = h := shrink_handle hs hy
  obtain ⟨e, ht, hevents⟩ := sec?_deadlock hs2 hid hh (hev ▸ he)
  refine State.looksAt_of hexec ht ⟨rfl, ?_⟩
  rw [hevents, hev, hh, Ctx.sec?_handle (sec?_ctx hs).2]

end

/-- Settles O36: an access by what memory answers or how it fails, a look at a region by what it finds. -/
theorem edgeAccessesAndSilence : Obligations.EdgeAccessesAndSilence := by
  intro s k h i c x hs hid
  refine ⟨fun e he hb hf => ⟨edgeElementReply_gives hs he hb hf, fun s1 out ho hr ht => ?_, fun code ho ht hq hw =>
      ⟨edgeFaultFreeze_freezes hs he hb ho ht hq hw, edgeFaultFreeze_escalates hs he hb ho ht hq hw⟩⟩,
    regionSilent_notRunning hs, fun hst hl => ⟨regionSilent_paused hs hst hl rfl rfl, regionSilent_progresses hs hst hl rfl rfl,
      regionSilent_noFullBuffer hs hst hl rfl rfl, fun b rest hp hm hb => ⟨regionSilent_counts hs hst hl rfl rfl hp hm hb,
        fun hn hd hr => ⟨regionSilent_deadlocks hs hid hst hl rfl rfl hp hm hb hn hd hr,
          regionSilent_asks hs hst hl rfl rfl hp hm hb hn hd hr,
          regionSilent_extends hs hid hst hl rfl rfl hp hm hb hn hd hr⟩⟩⟩⟩
  have hfrozen : e.frozen = false := hf.resolve_right (by simp [hr])
  exact edgeElementReply_answers hs he hb hfrozen ho hr ht

end Sys2Proof.Machine
end

section
/-! Ports, global time, time slots, the collective engine and the reads of peers (R388 to R391, R397 to R407): what each act
answers. -/

namespace Sys2Proof.Machine

/-! ## Ports (R388, R391) -/

section
variable (s : State) (port : Nat)

/-- A port that is down reads clear, and with it its plane, for every die has a port of each plane. -/
theorem portDown_clears (hw : NMap.wf false s.hub.portDown = true) : ∃ t, exec (.portDown port) s = .next t ∧ SameMemory s t
    ∧ NMap.get false t.hub.portDown port = true ∧ (port < 32 → t.planeUp (port % 4) = false) := by
  have hdown (s1 : State) : NMap.get false ({ s1 with hub := { s1.hub with
      portDown := NMap.set false s.hub.portDown port true } } : State).hub.portDown port = true := nmap_get_set_same _ _ 0 _ _ hw
  obtain ⟨tr, dr, ht⟩ := trcPkg_eq s 9 1 0 [.word port, .word (port % 4)]
  refine ⟨_, rfl, (execPortDown_memIs port s).sameMemory rfl, ?_, fun hp => ?_⟩
  · rw [ht]
    exact hdown { s with hub := { s.hub with trace := tr, drops := dr } }
  · rw [ht]
    refine List.all_eq_false.2 ⟨port / 4, List.mem_range.2 (Nat.div_lt_of_lt_mul hp), ?_⟩
    rw [Nat.div_add_mod' port 4, hdown { s with hub := { s.hub with trace := tr, drops := dr } }]
    decide

end

/-! ## Global time (R397, R398) -/

section
variable (s : State)

/-- A message brings its offset; it decides the lock; unlocked, an offset beyond 2^20 steps GTIME. -/
theorem ptpSyncMessage_decides (o : BitVec 32) : ∃ t, exec (.ptpSyncMessage o) s = .next t ∧ SameMemory s t ∧ t.hub.offset = o
    ∧ t.hub.lastSync = s.clk ∧ (s.locked = true → (t.locked = true ↔ o.toInt.natAbs ≤ 56))
    ∧ (s.locked = false → (t.locked = true ↔ o.toInt.natAbs ≤ 40 ∧ 15 ≤ s.hub.good))
    ∧ (s.locked = false → 2 ^ 20 < o.toInt → t.hub.advance = 1 + o.toInt.toNat) := by
  have hclk (b : Prop) [Decidable b] (fs : List TField) : (if b then s.trcPkg 9 2 0 fs else s).clk = s.clk := by
    split
    · exact State.trcPkg_clk ..
    · rfl
  refine ⟨_, rfl, (execPtpSyncMessage_memIs o s).sameMemory rfl, rfl, hclk .., fun hl => ?_, fun hl => ?_, fun hl ho => ?_⟩
  · simp [hl]
  · simp only [hl, Bool.false_eq_true, if_false, decide_eq_true_eq]
    split <;> omega
  · have hstep : o.toInt.toNat ≠ 0 := by omega
    simp only [hl, ho, Bool.not_false, and_self, if_true, hstep, if_false]

theorem syncTimeout_unlocks (hl : s.locked = true) (hc : s.hub.lastSync + 8000000000 ≤ s.clk) :
    ∃ t, exec .syncTimeout s = .next t ∧ SameMemory s t ∧ t.locked = false ∧ t.hub.good = 0 := by
  have he : exec .syncTimeout s = .next
      { s.trcPkg 9 2 0 [.word s.hub.offset.toNat, .word 0] with locked := false, hub := { s.hub with good := 0 } } :=
    if_pos ⟨hl, hc⟩
  exact ⟨_, he, (execSyncTimeout_memIs s).sameMemory he, rfl, rfl⟩

theorem slewClk_sets {n : Nat} (hn : n = 0 ∧ s.hub.slew = 1 ∨ n = 2 ∧ s.hub.slew = 2)
    (hl : ∀ at_, s.hub.lastSlew = some at_ → at_ + 5000 ≤ s.clk) (ha : s.hub.advance = 1) :
    exec (.slewClk n) s = .next { s with hub := { s.hub with advance := n, lastSlew := some s.clk } } := by
  have hmay : s.maySlew n = true := by
    have hall : s.hub.lastSlew.all (fun t => decide (t + 5000 ≤ s.clk)) = true := by
      cases hs : s.hub.lastSlew with
      | none => rfl
      | some t => exact decide_eq_true (hl t hs)
    rcases hn with ⟨rfl, hs⟩ | ⟨rfl, hs⟩ <;> simp [State.maySlew, hs, ha, hall]
  exact if_pos hmay

end

/-! ## The collective engine (R404 to R407) -/

section
variable {s : State} {tile slot : Nat} {c : Ctx} {r : Run} {f : CF} (hr : s.runAt tile slot = some (c, r))
  (hop : r.cmd.op = .scoll f)
include hr hop

theorem collectiveStartTime_starts (hk : r.kStart ≤ s.gtime) :
    exec (.collectiveStartTime tile slot) s = .next (s.putRun { r with running := true }) := by
  simp only [exec, execCollectiveStartTime, hr, hop, hk, if_true]

section
variable (hp : r.phase = .active)
include hp

/-- A result is delivered to an input door, or else behind the earlier accesses of its lane; with SKIP, behind the last. -/
theorem collectiveChunk_delivers {x : Line × Bool × BitVec 32} (hx : r.results[r.outp]? = some x)
    (hs : r.kSkip = false ∨ r.kChunks ≤ r.results.length) (hd : r.f.door.toNat < 32 ∨ c.laneClear r.f.lane r.cmd.seq = true) :
    exec (.collectiveChunk tile slot) s = .next (s.deliverChunk c r x) := by
  have hready : (r.results[r.outp]?).filter (fun _ => !r.kSkip || decide (r.kChunks ≤ r.results.length)) = some x := by
    rw [hx]
    rcases hs with hs | hs <;> simp [hs]
  simp only [exec, execCollectiveChunk, hr, hop, hp, hready, ne_eq, not_true_eq_false, if_false, if_pos hd]

variable (hn : r.results[r.outp]? = none ∨ r.kSkip = true ∧ r.results.length < r.kChunks)
  (hc : c.laneClear r.f.lane r.cmd.seq = true)
include hn hc

/-- With no result to deliver, the engine steps while chunks are left, and then acquires the results of others. -/
theorem collectiveChunk_goesOn : exec (.collectiveChunk tile slot) s =
    if r.pos < r.kChunks then .next (s.chunkStep c r)
    else if r.kChunks ≤ r.results.length then .next s
    else match s.takeRbuf c r (r.kHalf + 64 * r.results.length) with
      | none => .next s
      | some (s1, x) =>
        let q := { r with results := r.results ++ [(x.data, x.nf, x.poison)] }
        .next (s1.putRun (if x.poison = 0 then q else q.poisonBy x.poison)) := by
  have hready : (r.results[r.outp]?).filter (fun _ => !r.kSkip || decide (r.kChunks ≤ r.results.length)) = none := by
    rcases hn with hn | ⟨hk, hl⟩
    · rw [hn]
      rfl
    · cases r.results[r.outp]? <;> simp [hk, Nat.not_le.2 hl]
  simp only [exec, execCollectiveChunk, hr, hop, hp, hready, hc, ne_eq, not_true_eq_false, Bool.not_true, Bool.false_eq_true,
    if_false, decide_eq_true_eq] <;> rfl

end
end

/-! ## Reads and atomics of peers (R388) -/

/-- A peer's access that it may wait for an answer to: a write comes as a packet only (R389). -/
def IsReadOrAtomic (a : HubAccess) : Prop := (∃ n, a = .read n) ∨ ∃ op n v, a = .atomic op n v

theorem exec_peerReadRequest (s : State) (p : Nat) (addr : Word) {a : HubAccess} (ha : IsReadOrAtomic a) :
    exec (.peerReadRequest p addr a) s = match s.hubAccess (s.hallPlace p (wordField addr 0 28)) a with
      | .done t bs => .next { t with hub := { t.hub with reply := bs } }
      | .defer key n => .next (s.deferHub key n true)
      | .wait => .next s
      | .fault => .next (s.noteHub (s.hallPlace p (wordField addr 0 28)) a) := by
  rcases ha with ⟨n, rfl⟩ | ⟨op, n, v, rfl⟩ <;> rfl

/-- Settles O43: each act by its own case, the chunks of an SCOLL by what is ready, the requests of peers by what the Hall
answers. -/
theorem linksTimeAndCollectives : Obligations.LinksTimeAndCollectives := by
  intro s
  refine ⟨fun port hw => ⟨portDown_clears s port hw, rfl⟩, ptpSyncMessage_decides s, syncTimeout_unlocks s,
    fun n => slewClk_sets s, fun p hp => if_neg hp, fun tile slot c r f hr hop => ⟨collectiveStartTime_starts hr hop, fun hp =>
      ⟨fun x hx hs hd => collectiveChunk_delivers hr hop hp hx hs hd, fun hn hc => ⟨fun hpos => ?_, fun hpos hlen => ⟨fun ht => ?_,
        fun s1 x ht => ?_⟩⟩⟩⟩, fun p addr a ha => ⟨fun t bs h => ?_, fun key n h => ?_, fun h => ?_, fun h => ?_⟩⟩
  · rw [collectiveChunk_goesOn hr hop hp hn hc, if_pos hpos]
  · rw [collectiveChunk_goesOn hr hop hp hn hc, if_neg (Nat.not_lt.2 hpos), if_neg (Nat.not_le.2 hlen), ht]
  · rw [collectiveChunk_goesOn hr hop hp hn hc, if_neg (Nat.not_lt.2 hpos), if_neg (Nat.not_le.2 hlen), ht]
  all_goals
    rw [exec_peerReadRequest s p addr ha, show s.hubAccess (s.hallPlace p (wordField addr 0 28)) a = _ from h]

end Sys2Proof.Machine
end

section
/-! Services of the hub (R425, R426, R431, R434, R437, R439, R443): what each of them answers. -/

namespace Sys2Proof.Machine

/-! ## Bring-up (R425, R426, R434) -/

section
variable {s : State} {r : BootRun} (hr : s.hub.booting = some r)
include hr

theorem bootStep_passes (hf : s.stageFails r s.hub.bootstat.toNat = false) :
    s.bootStep.hub.bootstat = s.hub.bootstat + 1 := by
  simp only [State.bootStep, hr, hf, Bool.false_eq_true, if_false]
  exact BitVec.eq_of_toNat_eq (by simp)

theorem bootStep_fails (hn : s.hub.bootstat.toNat < 7) (hf : s.stageFails r s.hub.bootstat.toNat = true) :
    s.bootStep.hub.bootstat = s.hub.bootstat + 0x80 ∧ s.bootStep.talkative = true ∧ s.bootStep.hub.powered = false := by
  have hb : s.bootStep.hub.bootstat = s.hub.bootstat + 0x80 := by
    simp only [State.bootStep, hr, hf, if_true]
    exact BitVec.eq_of_toNat_eq (by simp [Nat.add_comm])
  refine ⟨hb, ?_, by simp only [State.bootStep, hr, hf, if_true]⟩
  rw [State.talkative, hb]
  have h7 : s.hub.bootstat < 7 := hn
  generalize s.hub.bootstat = b at h7
  revert b
  decide

end

/-- A mesh link that has failed its retries makes the safe talkative state, whatever the stage was. -/
theorem linkRetryFailure_silences {s : State} (link : Nat) (ht : s.talkative = false) :
    ∃ t, exec (.linkRetryFailure link) s = .next t ∧ t.talkative = true ∧ t.hub.powered = false ∧ t.hub.failed = [link]
      ∧ t.mem = [] ∧ t.hub.faults = s.hub.faults ∧ t.clk = s.clk ∧ t.hub.launches = [] := by
  refine ⟨_, if_neg (by simp [ht]), ?_, rfl, rfl, rfl, rfl, rfl, rfl⟩
  simp [State.talkative]

/-! ## Attestation (R439) -/

theorem shaStep_length (v : List Word) (kw : Word × Word) : (shaStep v kw).length = 8 := rfl

/-- The working words stay eight. -/
theorem foldl_shaStep_length (l : List (Word × Word)) {v : List Word} (hv : v.length = 8) : (l.foldl shaStep v).length = 8 := by
  induction l generalizing v with
  | nil => exact hv
  | cons x r ih => exact ih (shaStep_length v x)

theorem shaBlock_length {h : List Word} (hh : h.length = 8) (block : List Byte) : (shaBlock h block).length = 8 := by
  simp [shaBlock, hh, foldl_shaStep_length]

theorem shaStart_length : shaStart.length = 8 := by
  rw [shaStart, List.length_map]
  decide

theorem foldl_shaBlock_length (blocks : Nat → List Byte) (l : List Nat) {h : List Word} (hh : h.length = 8) :
    (l.foldl (fun h i => shaBlock h (blocks i)) h).length = 8 := by
  induction l generalizing h with
  | nil => exact hh
  | cons x r ih => exact ih (shaBlock_length hh _)

/-- A digest has 48 bytes. -/
theorem sha384_length (m : List Byte) : (sha384 m).length = 48 := by
  unfold sha384
  dsimp only
  rw [List.length_flatMap]
  simp [foldl_shaBlock_length _ _ shaStart_length]

/-! ## Key slots (R437) -/

/-- Lines that are sealed anew change the memory alone. -/
theorem rekeyFrom_hub (old s : State) (g : Nat) : (old.rekeyFrom s g).hub = s.hub := by
  unfold State.rekeyFrom
  split
  · rfl
  · generalize List.range (2 ^ 24) = lines
    refine foldl_keeps State.hub _ (fun t i => ?_) lines s
    exact State.writeBytes_hub ..

theorem exec_keyLoad (s : State) (n : Nat) (blob : List Byte) :
    exec (.keyLoad n blob) s = .next (match unwrapBlob Config.wrappingKey blob with
      | none => s
      | some key => (s.granulesOf n).foldl s.rekeyFrom { s with hub := { s.hub with keys := NMap.set 0 s.hub.keys n key } }) := by
  change execKeyLoad n blob s = _
  unfold execKeyLoad
  cases unwrapBlob Config.wrappingKey blob <;> rfl

/-! ## The aperture (R431) -/

theorem exec_apertureAccess (s : State) {addr : Nat} (ha : addr < 0x2000000000) (a : HubAccess) :
    exec (.apertureAccess addr a) s = match s.hubAccess (s.aperturePlace addr) a with
      | .done t bs => .next (t.hartReply false bs)
      | .defer key n => .next (s.deferHub key n false)
      | .wait => .next s
      | .fault => .next ((s.noteHub (s.aperturePlace addr) a).hartReply true []) := if_neg (Nat.not_le.2 ha)

/-- Settles O45: each service by its own case, the report by the length of its digests. -/
theorem hubServices : Obligations.HubServices := by
  intro s
  refine ⟨fun r => ⟨rfl, fun image => ⟨fun ht => if_pos ht, fun ht => if_neg (by simp [ht])⟩,
      rfl, rfl, rfl, rfl, rfl, rfl, rfl, rfl, rfl, rfl⟩,
    fun r hr hn => ⟨bootStep_passes hr, bootStep_fails hr hn⟩,
    ⟨_, rfl, (execStatusQuery_memIs s).sameMemory rfl, rfl, rfl, fun ht => ?_, fun ht => ?_⟩,
    fun link => ⟨linkRetryFailure_silences link, fun ht => if_pos ht⟩,
    fun nonce => ⟨?_, rfl⟩, fun addr a ha => ⟨fun t bs h => ?_, fun key n h => ?_, fun h => ?_, fun h => ?_⟩,
    fun addr a ha => if_pos ha, fun n blob => ⟨exec_keyLoad s n blob, fun key => ?_⟩, fun n => rfl⟩
  · simp [ht]
  · simp [ht]
  · simp [sha384_length]
  any_goals rw [exec_apertureAccess s ha, show s.hubAccess (s.aperturePlace addr) a = _ from h]
  · exact foldl_keeps State.hub _ (fun t g => rekeyFrom_hub s t g) _ _

end Sys2Proof.Machine
end

section
/-! Translation (R348 to R359, R372, R373): what each walk, each diverted element, each episode, each shoot-down and each answer
of an application core comes to. -/

namespace Sys2Proof.Machine

/-! ## Walks (R348, R353) -/

section
variable {s : State} {tile i : Nat} {w : Walker} (hw : (s.walkers tile)[i]? = some w) (hr : w.ask.req = none)
include hw hr

/-- A walk in hardware mode, and every walk of a base die, ends with what the table gives. -/
theorem pageWalkComplete_walks (ha : ¬(w.ask.host = true ∧ w.ofBase = false)) : exec (.pageWalkComplete tile i) s
    = .next (((s.noteWalk w.ctx.part w.ask.va.toNat).traceWalk w false 0).endWalk w false
      (s.walkEnd (s.walkViewer w) w.ask.va.toNat w.ask.write)) := by
  have hno : (w.ask.host && !w.ofBase) = false := by simpa using ha
  simp only [exec, execPageWalkComplete, hw, hr, hno, Option.isSome_none, Bool.false_eq_true, if_false]

/-- One in host-assisted mode becomes one request. -/
theorem pageWalkComplete_asks (ha : w.ask.host = true ∧ w.ofBase = false) {p : Nat × State}
    (hp : (s.traceWalk w true 0).hubRequest 1 w.ctx.part ((s.traceWalk w true 0).homeSlice w.ctx.part w.ask.va.toNat) w.ctx.id.num
      [w.ask.va, if w.ask.write then 1 else 0] = p) :
    exec (.pageWalkComplete tile i) s
      = .next (p.2.setWalk w (some (.waiting w.ask.va w.ask.write (some p.1) true p.2.clk))) := by
  simp only [exec, execPageWalkComplete, hw, hr, ha.1, ha.2, Option.isSome_none, Bool.false_eq_true, if_false, Bool.not_false,
    Bool.and_self, if_true, hp]

end

/-! ## Diverted elements (R355, R357) -/

section
variable {s : State} {tile i : Nat} {c : Ctx} {r : Run} {d : Diverted} (hd : (s.divertedOf tile)[i]? = some (c, r, d))
include hd

section
variable (he : ∀ e ∈ s.hub.episodes, e.covers c.part d.va = false) (hk : d.walk.bind WalkState.ask = none)
include he hk

/-- An element whose page is there is served, waits, or stops its command. -/
theorem exec_divertedElementServed : exec (.divertedElementServed tile i) s = .next (match s.serve c r d with
    | .done s1 q => ((s1.trc 7 1 c [.word tile, .word (r.cmd.slot.getD 48), .long d.va.toNat, .word (s1.spillUsed tile)]).putRun
        { q with walk := r.walk, defers := r.defers, heldFor := r.heldFor, seen := r.seen }).closeEpisodes
    | .wait q =>
      let t := match d.heldFor, q.heldFor with
        | none, some set => s.trc 6 2 c [.word c.id.num, .word set]
        | _, _ => s
      t.onDiverted r d fun d =>
        { d with walk := q.walk, defers := q.defers, heldFor := q.heldFor, seen := (q.present (t.viewerNow c)).seen }
    | .fault code => (s.traceOnce c (engineCode r.cmd.op) code d.addr).stopDiverted c r d code) := by
  have hgo : ((d.walk.bind WalkState.ask).isSome || s.hub.episodes.any fun e => e.covers c.part d.va) = false := by
    rw [hk, Option.isSome_none, Bool.false_or]
    exact List.any_eq_false.2 fun e h => by simp [he e h]
  change execDivertedElementServed tile i s = _
  unfold execDivertedElementServed
  simp only [hd, hgo, Bool.false_eq_true, if_false]
  cases s.serve c r d <;> rfl

end

/-- An element that has stayed faulted for 2^24 clk stops its command (R357). -/
theorem unresolvable_stops {e : Episode} (he : (s.hub.episodes.find? fun e => e.covers c.part d.va && e.req.isNone) = some e)
    (hc : d.since + 2 ^ 24 ≤ s.clk) : exec (.unresolvable tile i) s = .next (s.stopDiverted c r d codePage) := by
  have hgo : d.since + 2 ^ 24 ≤ s.clk ∧ (s.hub.episodes.find? fun e => e.covers c.part d.va && e.req.isNone).isSome = true :=
    ⟨hc, by rw [he]; rfl⟩
  change execUnresolvable tile i s = _
  unfold execUnresolvable
  rw [hd]
  exact if_pos hgo

end

/-- A context under the service of such a page halts (R372). -/
theorem unresolvable_halts {s : State} {tile i : Nat} {c : Ctx} {a : Word} {e : Episode}
    (hp : (s.servedPages tile)[i]? = some (c, a))
    (he : (s.hub.episodes.find? fun e => e.covers c.part a && e.req.isNone) = some e) (hc : e.since + 2 ^ 24 ≤ s.clk) :
    exec (.unresolvable tile ((s.divertedOf tile).length + i)) s = .next (s.haltPage c).closeEpisodes := by
  have hnone : (s.divertedOf tile)[(s.divertedOf tile).length + i]? = none := List.getElem?_eq_none (Nat.le_add_right ..)
  change execUnresolvable tile _ s = _
  unfold execUnresolvable
  rw [hnone, Nat.add_sub_cancel_left, hp]
  refine if_pos ?_
  dsimp only
  rw [he, Option.any_some, decide_eq_true_eq]
  exact hc

/-- A page under an open episode is walked again after 65,536 clk (R357). -/
theorem periodicRewalk_walks {s : State} {tile i : Nat} {e : Episode}
    (he : (s.hub.episodes.filter fun e => e.tile == tile)[i]? = some e) (hr : e.req = none) (hc : e.lastWalk + 65536 ≤ s.clk) :
    exec (.periodicRewalk tile i) s = .next (s.rewalk e) := by
  simp [exec, execPeriodicRewalk, he, hr, Nat.not_lt.2 hc]

/-! ## Shoot-downs (R352, R359) -/

theorem shootdownComplete_drops {s : State} {tile i : Nat} {c : Ctx} {r : Run} (hr : (s.shootdowns tile)[i]? = some (c, r))
    (hw : c.writesPassed r.cmd.seq = true) {lo hi : Nat} (hl : r.shootRange = (lo, hi)) {p : State × Nat}
    (hp : s.dropEntries c.part lo hi = p) :
    let t := (p.1.hub.episodes.filter fun e =>
      e.part == c.part && e.req.isNone && decide (e.base < hi) && decide (lo < e.base + 2 ^ e.log2)).foldl (fun s e => s.rewalk e) p.1
    exec (.shootdownComplete tile i) s
      = .next ((t.trc 7 3 c [.word c.id.num, .long lo, .long hi, .word p.2, .long t.clk]).sysRec r .ok 0 0 (p.2 % 2 ^ 32)) := by
  simp only [exec, execShootdownComplete, hr, hw, hl, hp, Bool.not_true, Bool.false_eq_true, if_false]

/-! ## Answers of application cores (R353, R357) -/

section
variable {s s0 : State} {n : Nat} {q : HubReq} (hq : s.takeRequest n = (some q, s0))
include hq

/-- The answer to a WALK request is that of the walks that posted it. -/
theorem walkAnswer_answers (hk : q.kind = 1) (a : WalkAnswer) {s1 : State}
    (h1 : ({ s0 with hub := { s0.hub with walks := s0.hub.walks.map fun w =>
      if w.req = n then { w with answer := some a } else w } } : State) = s1) :
    exec (.walkAnswer n a) s = .next (((s1.everyCtx.flatMap s1.walkersOf).filter fun w => w.ask.req == some n).foldl (fun s w =>
      s.endWalk w true (s.endOf (s.walkViewer w) w.ask.write (s.answered q.part (pageOf (q.args.headD 0)) a))) s1) := by
  simp only [exec, execWalkAnswer, hq, hk, ne_eq, not_true_eq_false, if_false, h1]

section
variable (hk : q.kind = 2) {e : Episode} (he : (s0.hub.episodes.find? fun e => e.req == some n) = some e)
include hk he

theorem faultAnswer_gives_up : exec (.faultAnswer n false) s = .next (s0.unresolvedPage e) := by
  simp [exec, execFaultAnswer, hq, hk, he]

/-- RETRY ends the episode, so that its elements are tried again (log 31). -/
theorem faultAnswer_retries : exec (.faultAnswer n true) s
    = .next { s0 with hub := { s0.hub with episodes := s0.hub.episodes.filter fun x => x.req != some n } } := by
  simp [exec, execFaultAnswer, hq, hk, he]

end
end

/-- Settles O41: walks, diverted elements, episodes, shoot-downs and answers, each by its own case. -/
theorem translationIsServed : Obligations.TranslationIsServed := by
  intro s tile i
  refine ⟨fun w hw hr => ⟨pageWalkComplete_walks hw hr, fun ha => pageWalkComplete_asks hw hr ha rfl⟩,
    fun c r d hd => ⟨fun he hk => ⟨fun s1 q h => ?_, fun q h => ⟨fun hf => ?_, fun set hf hg => ?_⟩, fun code h => ?_⟩,
      fun e he hc => unresolvable_stops hd he hc⟩,
    fun c a e hp he hc => unresolvable_halts hp he hc, fun e he hr hc => periodicRewalk_walks he hr hc,
    fun c r hr hw => shootdownComplete_drops hr hw rfl rfl, fun n q hp => ?_⟩
  · rw [exec_divertedElementServed hd he hk, h]
  · rw [exec_divertedElementServed hd he hk, h]
    rcases hf with hf | hf
    · simp only [hf]
      cases d.heldFor <;> rfl
    · obtain ⟨set, hd⟩ := Option.ne_none_iff_exists'.1 hf
      simp only [hd]
  · rw [exec_divertedElementServed hd he hk, h]
    simp only [hf, hg]
  · rw [exec_divertedElementServed hd he hk, h]
  · have hq := State.takeRequest_posted hp
    refine ⟨fun hk a => walkAnswer_answers hq hk a rfl, fun hk e he => ⟨faultAnswer_gives_up hq hk he, ?_⟩⟩
    have hx := faultAnswer_retries hq hk he
    exact ⟨_, hx, (execFaultAnswer_memIs n true s).sameMemory hx, rfl⟩

end Sys2Proof.Machine
end

section
/-! Weight versions (R335, R338 to R341): what SPUB, the switch of a gang and the end of a slot leave. -/

namespace Sys2Proof.Machine

/-! ## What version operations leave of the hub -/

section
variable {γ : Type} (g : Hub → γ)

section
variable (hg : ∀ (b : Hub) tr dr sl sa co fa, g { b with
  trace := tr, drops := dr, wslot := sl, saved := sa, corrected := co, faults := fa } = g b)
include hg

theorem State.traceAt_hub (s : State) (a b t p n : Nat) (l : List TField) : g (s.traceAt a b t p n l).hub = g s.hub := by
  obtain ⟨_, _, h⟩ := s.traceAt_eq a b t p n l
  rw [h]
  exact hg s.hub _ _ s.hub.wslot s.hub.saved s.hub.corrected s.hub.faults

theorem State.setWslot_hub (s : State) (n i : Nat) (w : WSlot) : g (s.setWslot n i w).hub = g s.hub :=
  hg s.hub s.hub.trace s.hub.drops _ s.hub.saved s.hub.corrected s.hub.faults

theorem State.retireSlots_hub (s : State) (n : Nat) : g (s.retireSlots n).hub = g s.hub := by
  refine foldl_keeps (fun s => g s.hub) _ (fun t i => ?_) _ s
  dsimp only
  split
  · exact (State.setWslot_hub g hg ..).trans (State.traceAt_hub g hg ..)
  · rfl

theorem State.onOwner_hub (s : State) (k : CtxId) (n : Nat) (f : Ctx → Ctx) : g (s.onOwner k n f).hub = g s.hub :=
  hg s.hub s.hub.trace s.hub.drops s.hub.wslot _ s.hub.corrected s.hub.faults

theorem State.noteErrors_hub (s : State) (ks : List Nat) : g (s.noteErrors ks).hub = g s.hub := by
  refine (foldl_keeps (fun s => g s.hub) _ (fun t k => ?_) ks _).trans (State.correctCodes_keeps (fun s => g s.hub) ?_ s ks)
  · split
    · exact hg t.hub t.hub.trace t.hub.drops t.hub.wslot t.hub.saved t.hub.corrected _
    · rfl
  · exact fun t _ n => hg t.hub t.hub.trace t.hub.drops t.hub.wslot t.hub.saved n t.hub.faults

theorem State.pushRec_hub (s : State) (k : CtxId) (q : Nat) (r : Rec) (sl n : Option Nat) (e : Option EngEntry) :
    g (s.pushRec k q r sl n e).hub = g s.hub := by
  unfold State.pushRec
  split
  · cases n with
    | none => rw [State.onCtx_hub]
    | some n => exact State.onOwner_hub g hg ..
  · cases n with
    | none => rfl
    | some n => exact State.onOwner_hub g hg ..

theorem State.finishCmd_hub (s : State) (r : Run) (x : Rec) : g (s.finishCmd r x).hub = g s.hub :=
  (State.pushRec_hub g hg ..).trans ((State.onOwner_hub g hg ..).trans ((State.onOwner_hub g hg ..).trans
    (State.noteErrors_hub g hg ..)))

theorem State.versionRec_hub (s : State) (r : Run) (sid : Nat) (a : VAnswer) : g (s.versionRec r sid a).hub = g s.hub :=
  State.finishCmd_hub g hg ..

theorem State.slotbusyEvent_hub {s t : State} {r : Run} {a : VAnswer} (h : s.slotbusyEvent r a = some t) :
    g t.hub = g s.hub := by
  unfold State.slotbusyEvent State.raiseOwner at h
  split at h
  · split at h
    · cases h
      rfl
    · split at h <;> cases h
      exact State.onOwner_hub g hg ..
  · cases h
    rfl

theorem State.svstageNow_hub (s : State) (part n : Nat) : g (s.svstageNow part n).1.hub = g s.hub := by
  unfold State.svstageNow
  dsimp only
  split
  · rfl
  split
  · rfl
  split
  · rfl
  split
  · rfl
  · exact (State.setWslot_hub g hg ..).trans (State.traceAt_hub g hg ..)

variable (hv : ∀ (b : Hub) vo, g { b with vops := vo } = g b)
include hv

/-- The operations of a set that need not wait change slots, records and the operations that wait. -/
theorem State.pumpVersions_hub (s : State) (n fuel : Nat) : g (s.pumpVersions n fuel).hub = g s.hub := by
  have hdrop (t : State) (o : VOp) : g (t.dropVop o).hub = g t.hub := hv ..
  induction fuel generalizing s with
  | zero => rfl
  | succ fuel ih =>
    unfold State.pumpVersions
    split
    · rfl
    split
    · rfl
    dsimp only
    split
    · split
      · rename_i ht
        exact (ih _).trans ((State.versionRec_hub g hg ..).trans ((State.slotbusyEvent_hub g hg ht).trans
          ((State.svstageNow_hub g hg ..).trans (hdrop ..))))
      · rfl
    · split
      · exact (ih _).trans ((State.versionRec_hub g hg ..).trans (hdrop ..))
      · rfl

end
end

/-- The slots that retire change the hub alone. -/
theorem State.retireSlots_keeps {γ : Type} (g : State → γ) (hg : ∀ (s : State) h, g { s with hub := h } = g s) (s : State)
    (n : Nat) : g (s.retireSlots n) = g s := by
  refine foldl_keeps g _ (fun t i => ?_) _ s
  dsimp only
  split
  · obtain ⟨_, _, h⟩ := trcPkg_eq t 6 0 0 [.word n, .word i, .word (t.wslotOf n i).version.toNat]
    rw [h]
    exact (hg ..).trans (hg ..)
  · rfl

/-- What every step of a fold keeps of a state beside another value, the fold keeps. -/
theorem foldl_pair_keeps {β γ δ : Type} (g : State → δ) (f : State × γ → β → State × γ) (l : List β) (p : State × γ)
    (h : ∀ q x, g (f q x).1 = g q.1) : g (l.foldl f p).1 = g p.1 := by
  induction l generalizing p with
  | nil => rfl
  | cons x r ih => rw [List.foldl_cons, ih, h]

/-- The views that move change the hub alone, and of it what g does not see. -/
theorem State.switchViews_keeps {γ : Type} (g : State → γ) (hv : ∀ (s : State) vs, g { s with hub := { s.hub with views := vs } } = g s)
    (hr : ∀ (s : State) n, g (s.retireSlots n) = g s) (s : State) (p : Nat) (mask : Word) :
    g (s.switchViews p mask).1 = g s := by
  refine foldl_pair_keeps g _ _ _ fun q n => ?_
  dsimp only
  split
  · rfl
  · split
    · rfl
    · rw [hr, hv]

/-! ## SPUB (R338) -/

section
variable {s : State} {set : Nat} {o : VOp} {rest : List VOp} {c : Ctx} {f : CF} (ho : s.vopsOf set = o :: rest)
  (hc : s.owner o.run.cmd.ctx o.run.cmd.seq = some c) (hop : o.run.cmd.op = .spub f)
  (hl : c.lanePassed o.lane o.run.cmd.seq = true) (hb : s.switchBefore o.run.stamp set = false)
include ho hc hop hl hb

theorem exec_spubPublish : exec (.spubPublish set) s = .next (match s.spubCheck c.part set o.run.cmd.vslot with
    | some a => ((s.dropVop o).versionRec o.run set a).pumpVersions set 64
    | none =>
      let p := (s.dropVop o).publish c.part set o.run.cmd.vslot
      (p.1.versionRec o.run set p.2).pumpVersions set 64) := by
  have hgo : ¬((!c.lanePassed o.lane o.run.cmd.seq || s.switchBefore o.run.stamp set) = true) := by rw [hl, hb]; decide
  change execSpubPublish set s = _
  unfold execSpubPublish
  rw [ho]
  dsimp only
  rw [hc]
  dsimp only
  rw [hop]
  dsimp only
  rw [if_neg hgo]
  cases s.spubCheck c.part set o.run.cmd.vslot <;> rfl

end

/-- The version number that follows a number: 0 is passed over. -/
theorem nextVersion_eq {n : Nat} (h : n < 2 ^ 32) :
    (if (n + 1) % 2 ^ 32 = 0 then 1 else (n + 1) % 2 ^ 32) = if n = 2 ^ 32 - 1 then 1 else n + 1 := by
  split <;> split <;> omega

/-- A number in the low half of a register reads back. -/
theorem wordField_low (w : Word) {v : Nat} (hv : v < 2 ^ 32) :
    wordField (BitVec.ofNat 64 (w.toNat / 2 ^ 32 * 2 ^ 32 + v)) 0 32 = v := by
  have := w.isLt
  simp only [wordField, BitVec.toNat_ofNat]
  omega

/-- The version number of a set after a publication. -/
theorem publish_version {s : State} {n : Nat} (hw : NMap.wf 0 s.hub.wset = true) (part i : Nat) :
    wordField (NMap.get 0 (s.publish part n i).1.hub.wset n) 0 32
      = if wordField (NMap.get 0 s.hub.wset n) 0 32 = 2 ^ 32 - 1 then 1 else wordField (NMap.get 0 s.hub.wset n) 0 32 + 1 := by
  have hlow : wordField (NMap.get 0 s.hub.wset n) 0 32 < 2 ^ 32 := Nat.mod_lt _ (by decide)
  unfold State.publish
  dsimp only
  rw [State.retireSlots_hub Hub.wset fun _ _ _ _ _ _ _ => rfl, State.trcPkg, State.traceAt_hub Hub.wset fun _ _ _ _ _ _ _ => rfl,
    State.setWslot_hub Hub.wset fun _ _ _ _ _ _ _ => rfl, nmap_get_set_same _ _ 0 _ _ hw, nextVersion_eq hlow, wordField_low]
  split <;> omega

/-! ## Switches (R340, R341) -/

/-- The views that a switch moves change the hub alone, and of it what g does not see. -/
theorem State.switchViews_hub {γ : Type} (g : Hub → γ) (hg : ∀ (b : Hub) tr dr sl sa co fa, g { b with
    trace := tr, drops := dr, wslot := sl, saved := sa, corrected := co, faults := fa } = g b)
    (hv : ∀ (b : Hub) vs, g { b with views := vs } = g b) (s : State) (p : Nat) (mask : Word) :
    g (s.switchViews p mask).1.hub = g s.hub :=
  State.switchViews_keeps (fun s => g s.hub) (fun _ _ => hv ..) (fun _ _ => State.retireSlots_hub g hg ..) s p mask

theorem State.switchViews_ctx? (s : State) (p : Nat) (mask : Word) (k : CtxId) : (s.switchViews p mask).1.ctx? k = s.ctx? k :=
  State.switchViews_keeps (·.ctx? k) (fun _ _ => rfl) (fun _ _ => State.retireSlots_keeps (·.ctx? k) (fun _ _ => rfl) ..) s p mask

/-- The sets that a mask names. -/
def maskSets (mask : Word) : List Nat := (List.range 64).filter fun i => mask.getLsbD i

theorem mem_maskSets {mask : Word} {i : Nat} : i ∈ maskSets mask ↔ i < 64 ∧ mask.getLsbD i = true := by
  simp [maskSets]

/-- Whether a set has nothing published or is not a partition's. -/
def State.unfitSet (s : State) (p i : Nat) : Bool :=
  let w := NMap.get 0 s.hub.wset i
  wordField w 63 1 == 0 || wordField w (43 + p) 1 == 0 || (s.newest i).isNone

theorem State.unfitSet_eq_false {s : State} {p i : Nat} : s.unfitSet p i = false ↔ wordField (NMap.get 0 s.hub.wset i) 63 1 ≠ 0
    ∧ wordField (NMap.get 0 s.hub.wset i) (43 + p) 1 ≠ 0 ∧ (s.newest i).isSome = true := by
  simp [State.unfitSet, and_assoc]

/-- Whether a switch fails: its masks differ, or a set of it is not fit (R341). -/
def State.switchFails (s : State) (p : Nat) (mask : Word) (xs : List Arrival) : Bool :=
  xs.any (fun a => a.mask != mask) || (maskSets mask).any (s.unfitSet p)

/-- One participant of a switch hears of it: its VCUR and its record. -/
def State.recordSwitch (p n changed : Nat) (st : Status) (s : State) (a : Arrival) : State :=
  let set := ((List.range 64).find? fun i => a.mask.getLsbD i).getD 0
  let view : Nat := NMap.get 0 s.hub.views (p * 64 + set)
  let version : BitVec 32 := if view = 0 then 0 else (s.wslotOf set (view - 1)).version
  let views := s.viewOf p
  let s := s.traceAt 6 1 a.k.tile p a.k.num [.word p, .word a.k.num, .word a.mask.toNat, .word n, .word st.code]
  let s := s.onOwner a.k a.seq fun c => { c with task := { c.task with taken := c.task.taken ++ [(views, set, version)] }
                                                 sys := { c.sys with vcur := vcurOf n set view version } }
  s.pushRec a.k a.queue { status := st, kind := 8, sid := 0xFFFF, version := version, bytes := changed } none (some a.seq)

/-- What a switch does before the operations of its sets go on. -/
def State.takeSwitch (s : State) (p launch n : Nat) (xs : List Arrival) (mask : Word) : State :=
  let fails := s.switchFails p mask xs
  let q := if fails then (s, 0) else s.switchViews p mask
  let t := xs.foldl (State.recordSwitch p n q.2 (if fails then .state else .ok)) q.1
  { t with hub := { t.hub with arrivals := t.hub.arrivals.filter fun a => !(a.launch == launch && a.n == n) } }

/-- The switch of a gang of one partition, with no operation of its sets to wait for, takes effect. -/
theorem exec_versionSwitch {s : State} {p launch n stamp : Nat} {xs : List Arrival} (h : s.switchReady launch n = some (xs, stamp))
    (hp : ∀ a ∈ xs, a.part = p) {mask : Word} (hm : ((xs.head?).map (·.mask)).getD 0 = mask)
    (hs : ∀ i < 64, mask.getLsbD i = true → ∀ o ∈ s.vopsOf i, stamp ≤ o.run.stamp) :
    exec (.versionSwitch p launch n) s
      = .next ((maskSets mask).foldl (fun s i => s.pumpVersions i 64) (s.takeSwitch p launch n xs mask)) := by
  have hgo : ¬(xs.any (fun a => a.part != p)
      ∨ (maskSets mask).any (fun i => (s.vopsOf i).any fun o => decide (o.run.stamp < stamp))) := by
    rintro (hx | hx)
    · obtain ⟨a, ha, hne⟩ := List.any_eq_true.1 hx
      exact bne_iff_ne.1 hne (hp a ha)
    · obtain ⟨i, hi, hx⟩ := List.any_eq_true.1 hx
      obtain ⟨o, ho, hlt⟩ := List.any_eq_true.1 hx
      obtain ⟨hi, hbit⟩ := mem_maskSets.1 hi
      exact Nat.not_lt.2 (hs i hi hbit o ho) (of_decide_eq_true hlt)
  change execVersionSwitch p launch n s = _
  unfold execVersionSwitch
  rw [h]
  dsimp only
  rw [hm]
  exact if_neg hgo

/-- A set with no operation that waits stays as it is. -/
theorem pumpVersions_idle {s : State} {n fuel : Nat} (h : s.vopsOf n = []) : s.pumpVersions n fuel = s := by
  cases fuel with
  | zero => rfl
  | succ fuel => rw [State.pumpVersions, h]

theorem foldl_pumpVersions_idle {s : State} {l : List Nat} (h : ∀ i ∈ l, s.vopsOf i = []) :
    l.foldl (fun s i => s.pumpVersions i 64) s = s := by
  induction l with
  | nil => rfl
  | cons i r ih =>
    rw [List.foldl_cons, pumpVersions_idle (h i List.mem_cons_self)]
    exact ih fun j hj => h j (List.mem_cons_of_mem _ hj)

section
variable {γ : Type} (g : Hub → γ) (hg : ∀ (b : Hub) tr dr sl sa co fa, g { b with
  trace := tr, drops := dr, wslot := sl, saved := sa, corrected := co, faults := fa } = g b)
include hg

theorem State.recordSwitch_hub (s : State) (p n k : Nat) (st : Status) (a : Arrival) :
    g (State.recordSwitch p n k st s a).hub = g s.hub :=
  (State.pushRec_hub g hg ..).trans ((State.onOwner_hub g hg ..).trans (State.traceAt_hub g hg ..))

theorem State.recordSwitches_hub (s : State) (p n k : Nat) (st : Status) (xs : List Arrival) :
    g (xs.foldl (State.recordSwitch p n k st) s).hub = g s.hub :=
  foldl_keeps (fun s => g s.hub) _ (fun t a => State.recordSwitch_hub g hg t p n k st a) xs s

end

section
variable {s : State} {p launch n : Nat} {xs : List Arrival} {mask : Word}

/-- A switch changes of the hub the views, the slots, its arrivals and what records change. -/
theorem takeSwitch_hub {γ : Type} (g : Hub → γ) (hg : ∀ (b : Hub) tr dr sl sa co fa, g { b with
    trace := tr, drops := dr, wslot := sl, saved := sa, corrected := co, faults := fa } = g b)
    (hv : ∀ (b : Hub) vs, g { b with views := vs } = g b) (ha : ∀ (b : Hub) as, g { b with arrivals := as } = g b) :
    g (s.takeSwitch p launch n xs mask).hub = g s.hub := by
  refine (ha ..).trans ((State.recordSwitches_hub g hg ..).trans ?_)
  split
  · rfl
  · exact State.switchViews_hub g hg hv ..

/-- The arrivals at a switch that took effect are gone. -/
theorem takeSwitch_arrivals : (s.takeSwitch p launch n xs mask).hub.arrivals
    = s.hub.arrivals.filter fun a => !(a.launch == launch && a.n == n) := by
  refine congrArg (List.filter _) ((State.recordSwitches_hub Hub.arrivals (fun _ _ _ _ _ _ _ => rfl) ..).trans ?_)
  split
  · rfl
  · exact State.switchViews_hub Hub.arrivals (fun _ _ _ _ _ _ _ => rfl) (fun _ _ => rfl) ..

/-- A switch that fails moves no view. -/
theorem takeSwitch_views (hf : s.switchFails p mask xs = true) : (s.takeSwitch p launch n xs mask).hub.views = s.hub.views := by
  refine (State.recordSwitches_hub Hub.views (fun _ _ _ _ _ _ _ => rfl) ..).trans ?_
  rw [hf]
  rfl

theorem pumpSets_arrivals (s : State) (l : List Nat) :
    (l.foldl (fun s i => s.pumpVersions i 64) s).hub.arrivals = s.hub.arrivals :=
  foldl_keeps (fun s => s.hub.arrivals) _
    (fun t i => State.pumpVersions_hub Hub.arrivals (fun _ _ _ _ _ _ _ => rfl) (fun _ _ => rfl) t i 64) l s

/-- A change of the task that issued a command, which leaves its queues, and a record for it. -/
theorem onOwner_pushRec_recorded {s0 t : State} {k : CtxId} {seq q : Nat} {f : Ctx → Ctx} {c : Ctx} (h0 : s0.ctx? k = some c)
    (h : t.ctx? k = some c) (hid : ∀ d, (f d).id = d.id) (hseq : (f c).seq = c.seq) (hcq : (f c).cqs = c.cqs)
    (ho : c.owns k seq = true) (hq : q < 8) (hw : NMap.wf {} c.cqs = true) (r : Rec) :
    Recorded s0 ((t.onOwner k seq f).pushRec k q r none (some seq)) k q r.status := by
  have hown := ctx?_onOwner t k k seq f c h hid
  rw [if_pos ho] at hown
  have hof : (f c).owns k seq = true := by rw [Ctx.owns, hid, hseq]; exact ho
  obtain ⟨w, hst, hpush⟩ := pushRec_ctx? _ k q r none seq none _ hown hof hq
  exact recorded_of s0 _ _ _ _ c _ w h0 hpush hw hst (by rw [hcq])

/-- A participant of a switch has its record. -/
theorem recordSwitch_recorded {s0 t : State} {a : Arrival} {c : Ctx} (h0 : s0.ctx? a.k = some c) (h : t.ctx? a.k = some c)
    (ho : c.owns a.k a.seq = true) (hq : a.queue < 8) (hw : NMap.wf {} c.cqs = true) (k : Nat) (st : Status) :
    Recorded s0 (State.recordSwitch p n k st t a) a.k a.queue st := by
  refine onOwner_pushRec_recorded h0 ((State.ctx?_traceAt ..).trans h) ?_ ?_ ?_ ho hq hw _
  · exact fun _ => rfl
  · rfl
  · rfl

/-- So has the only one. -/
theorem takeSwitch_recorded {a : Arrival} {c : Ctx} (h : s.ctx? a.k = some c) (ho : c.owns a.k a.seq = true) (hq : a.queue < 8)
    (hw : NMap.wf {} c.cqs = true) :
    Recorded s (s.takeSwitch p launch n [a] mask) a.k a.queue (if s.switchFails p mask [a] then .state else .ok) := by
  have hq1 : (if s.switchFails p mask [a] then (s, 0) else s.switchViews p mask).1.ctx? a.k = some c := by
    split
    · exact h
    · exact (State.switchViews_ctx? ..).trans h
  exact recordSwitch_recorded (p := p) (n := n) h hq1 ho hq hw _ _

theorem switchFails_one {a : Arrival} (hm : a.mask = mask) :
    s.switchFails p mask [a] = true ↔ ∃ i < 64, mask.getLsbD i = true ∧ s.unfitSet p i = true := by
  simp [State.switchFails, hm, mem_maskSets, and_assoc]

end

/-- The switch of a gang with one participant, with no operation of its sets that waits. -/
theorem exec_versionSwitch_one {s : State} {p launch n stamp : Nat} {a : Arrival} (h : s.switchReady launch n = some ([a], stamp))
    (hp : a.part = p) (hs : ∀ i < 64, a.mask.getLsbD i = true → s.vopsOf i = []) :
    exec (.versionSwitch p launch n) s = .next (s.takeSwitch p launch n [a] a.mask) := by
  rw [exec_versionSwitch h (by simp [hp]) (mask := a.mask) rfl fun i hi hb o ho => by simp [hs i hi hb] at ho,
    foldl_pumpVersions_idle]
  intro i hi
  obtain ⟨hi, hb⟩ := mem_maskSets.1 hi
  have hv : (s.takeSwitch p launch n [a] a.mask).hub.vops = s.hub.vops :=
    takeSwitch_hub Hub.vops (fun _ _ _ _ _ _ _ => rfl) (fun _ _ => rfl) fun _ _ => rfl
  rw [State.vopsOf, hv]
  exact hs i hi hb

/-! ## Slots that end (R333) -/

/-- A RETIRING slot that no access may use is FREE. -/
theorem exec_slotFree {s : State} {set slot : Nat} (hst : (s.wslotOf set slot).st = 3)
    (hc : ∀ c ∈ s.ctxs, c.mayUse (s.tile c.id.tile).queue set slot = false)
    (hv : ∀ v ∈ s.hub.saved, v.ctx.mayUse v.queue set slot = false) :
    exec (.slotFree set slot) s = .next ((s.trcPkg 6 0 0 [.word set, .word slot, .word (s.wslotOf set slot).version.toNat]).setWslot
      set slot { s.wslotOf set slot with st := 0 }) := by
  have hused : (s.ctxs.any (fun c => c.mayUse (s.tile c.id.tile).queue set slot)
      || s.hub.saved.any fun v => v.ctx.mayUse v.queue set slot) = false := by
    rw [Bool.or_eq_false_iff, List.any_eq_false, List.any_eq_false]
    exact ⟨fun c h => by rw [hc c h]; decide, fun v h => by rw [hv v h]; decide⟩
  refine if_neg ?_
  rw [hused]
  exact fun h => h.elim (fun h => h hst) fun h => absurd h (by decide)

theorem wslotOf_setWslot {s : State} (h : NMap.wf {} s.hub.wslot = true) (n i : Nat) (w : WSlot) :
    (s.setWslot n i w).wslotOf n i = w := nmap_get_set_same _ _ 0 _ _ h

/-! ## All of it -/

/-- SPUB, the switch of a gang and the end of a slot. -/
theorem versionsChange : Piece.VersionsChange := by
  intro s
  refine ⟨fun set o rest c f ho hc hop hl hb => ?_, fun p launch n stamp xs h hp => ?_, fun set slot hst hc hv => ?_⟩
  · have hex := exec_spubPublish ho hc hop hl hb
    refine ⟨fun a ha => by rw [hex, ha], fun ha => ?_⟩
    rw [ha] at hex
    refine ⟨hex, rfl, fun hw => ?_⟩
    have hdrop : (s.dropVop o).hub.wset = s.hub.wset := rfl
    have hver := publish_version (s := s.dropVop o) (n := set) (hdrop ▸ hw) c.part o.run.cmd.vslot
    rw [hdrop] at hver
    exact hver
  · intro mask hs
    have hex := exec_versionSwitch h hp rfl hs
    refine ⟨⟨_, hex, (execVersionSwitch_memIs p launch n s).sameMemory hex, (pumpSets_arrivals ..).trans takeSwitch_arrivals⟩,
      fun a c hx hk ho hq hw hv => ?_⟩
    subst hx
    have hex := exec_versionSwitch_one h (hp a List.mem_cons_self) hv
    have hrec := takeSwitch_recorded (p := p) (launch := launch) (n := n) (mask := a.mask) hk ho hq hw
    refine ⟨fun hfit => ⟨_, hex, ?_⟩, fun ⟨i, hi, hb, hfit⟩ => ⟨_, hex, ?_⟩⟩
    · have hok : ¬s.switchFails p a.mask [a] = true := by
        rw [switchFails_one rfl]
        rintro ⟨i, hi, hb, hu⟩
        exact absurd (State.unfitSet_eq_false.2 (hfit i hi hb)) (by simp [hu])
      rwa [if_neg hok] at hrec
    · have hbad : s.switchFails p a.mask [a] = true := (switchFails_one rfl).2 ⟨i, hi, hb, by
        by_contra hu
        exact hfit (State.unfitSet_eq_false.1 (Bool.not_eq_true _ ▸ hu))⟩
      rw [if_pos hbad] at hrec
      exact ⟨hrec, takeSwitch_views hbad⟩
  · have hex := exec_slotFree hst hc hv
    refine ⟨_, hex, (execSlotFree_memIs set slot s).sameMemory hex, fun hw => wslotOf_setWslot ?_ ..⟩
    obtain ⟨_, _, htr⟩ := trcPkg_eq s 6 0 0 [.word set, .word slot, .word (s.wslotOf set slot).version.toNat]
    rw [htr]
    exact hw

end Sys2Proof.Machine
end

section
/-! Packets (R389, R393 to R396): the words of a packet are its fields again; what the ingress does with one that arrives. -/

namespace Sys2Proof.Machine

/-! ## The envelope (R393) -/

/-- The n low bytes of a value do not see what lies above them. -/
theorem toBytes_add_mul (n v c : Nat) : toBytes n (v + 256 ^ n * c) = toBytes n v := by
  induction n generalizing v with
  | zero => rfl
  | succ n ih =>
    have hdiv : (v + 256 ^ (n + 1) * c) / 256 = v / 256 + 256 ^ n * c := by
      rw [pow_succ', mul_assoc, Nat.add_mul_div_left _ _ (by decide)]
    have hlow : BitVec.ofNat 8 (v + 256 ^ (n + 1) * c) = BitVec.ofNat 8 v := by
      refine BitVec.eq_of_toNat_eq ?_
      rw [BitVec.toNat_ofNat, BitVec.toNat_ofNat, pow_succ', mul_assoc]
      exact Nat.add_mul_mod_self_left ..
    rw [toBytes, toBytes, hdiv, hlow, ih]

/-- The bits of an envelope below its CHECK. -/
def packetEnv (p : Packet) : Nat :=
  opCode p.op + 2 ^ 4 * p.first.toNat + 2 ^ 5 * p.last.toNat + 2 ^ 6 * p.nf.toNat + 2 ^ 7 * p.poison.toNat + 2 ^ 8 * p.sub
    + 2 ^ 16 * p.ty.toNat + 2 ^ 24 * p.len + 2 ^ 32 * p.src + 2 ^ 48 * p.gsid.toNat + 2 ^ 64 * p.seq.toNat + 2 ^ 128 * p.daddr.toNat

/-- CHECK of a packet that is sent. -/
def packetCheck (p : Packet) : BitVec 32 := wireCheck ⟨BitVec.ofNat 256 (packetEnv p), p.data⟩

theorem opCode_lt (op : PacketOp) : opCode op < 5 := by cases op <;> decide

theorem opOfCode_opCode (op : PacketOp) : opOfCode (opCode op) = op := by cases op <;> rfl

theorem ite_pow_eq (b : Bool) (i : Nat) : (if b then 2 ^ i else 0) = 2 ^ i * b.toNat := by cases b <;> simp

section
variable {p : Packet} (hs : p.sub < 2 ^ 8) (hl : p.len < 2 ^ 8) (hr : p.src < 2 ^ 10)
include hs hl hr

/-- A packet on the wire is its envelope with its CHECK above it. -/
theorem packetWire_eq : packetWire p = ⟨BitVec.ofNat 256 (packetEnv p + 2 ^ 224 * (packetCheck p).toNat), p.data⟩ := by
  simp only [packetWire, ite_pow_eq, Nat.mod_eq_of_lt hs, Nat.mod_eq_of_lt hl, Nat.mod_eq_of_lt hr]
  rfl

theorem packetEnv_lt : packetEnv p < 2 ^ 192 := by
  have := opCode_lt p.op
  have := p.first.toNat_le
  have := p.last.toNat_le
  have := p.nf.toNat_le
  have := p.poison.toNat_le
  have := p.ty.isLt
  have := p.gsid.isLt
  have := p.seq.isLt
  have := p.daddr.isLt
  unfold packetEnv
  omega

theorem packetWire_env : (packetWire p).env.toNat = packetEnv p + 2 ^ 224 * (packetCheck p).toNat := by
  rw [packetWire_eq hs hl hr, BitVec.toNat_ofNat, Nat.mod_eq_of_lt]
  have := packetEnv_lt hs hl hr
  have := (packetCheck p).isLt
  omega

/-- CHECK does not see itself. -/
theorem wireCheck_packetWire : wireCheck (packetWire p) = packetCheck p := by
  have hlow : toBytes 28 (packetWire p).env.toNat = toBytes 28 (BitVec.ofNat 256 (packetEnv p)).toNat := by
    rw [packetWire_env hs hl hr, BitVec.toNat_ofNat, Nat.mod_eq_of_lt (by have := packetEnv_lt hs hl hr; omega)]
    exact toBytes_add_mul 28 ..
  rw [wireCheck, hlow]
  rfl

/-- The fields of a packet on the wire are the packet's. -/
theorem packetWire_fields : wireField (packetWire p) 0 4 = opCode p.op ∧ wireField (packetWire p) 4 1 = p.first.toNat
    ∧ wireField (packetWire p) 5 1 = p.last.toNat ∧ wireField (packetWire p) 6 1 = p.nf.toNat
    ∧ wireField (packetWire p) 7 1 = p.poison.toNat ∧ wireField (packetWire p) 8 8 = p.sub
    ∧ wireField (packetWire p) 16 4 = p.ty.toNat ∧ wireField (packetWire p) 24 8 = p.len ∧ wireField (packetWire p) 32 10 = p.src
    ∧ wireField (packetWire p) 48 16 = p.gsid.toNat ∧ wireField (packetWire p) 64 32 = p.seq.toNat
    ∧ wireField (packetWire p) 128 64 = p.daddr.toNat ∧ wireField (packetWire p) 224 32 = (packetCheck p).toNat := by
  have := opCode_lt p.op
  have := p.first.toNat_le
  have := p.last.toNat_le
  have := p.nf.toNat_le
  have := p.poison.toNat_le
  have := p.ty.isLt
  have := p.gsid.isLt
  have := p.seq.isLt
  have := p.daddr.isLt
  have := (packetCheck p).isLt
  unfold wireField
  rw [packetWire_env hs hl hr]
  unfold packetEnv
  refine ⟨?_, ?_, ?_, ?_, ?_, ?_, ?_, ?_, ?_, ?_, ?_, ?_, ?_⟩ <;> omega

end

/-- A bit of an envelope is its field of one bit. -/
theorem getLsbD_eq_of_wireField {w : Wire} {i : Nat} {b : Bool} (h : wireField w i 1 = b.toNat) : w.env.getLsbD i = b := by
  rw [wireField, pow_one] at h
  rw [BitVec.getLsbD, Nat.testBit_eq_decide_div_mod_eq, h]
  cases b <;> rfl

/-- The words of a packet are its fields again. -/
theorem wirePacket_packetWire {p : Packet} (hs : p.sub < 2 ^ 8) (hl : p.len < 2 ^ 8) (hr : p.src < 2 ^ 10) :
    wirePacket (packetWire p) = { p with good := true } := by
  obtain ⟨hop, hfirst, hlast, hnf, hpoison, hsub, hty, hlen, hsrc, hgsid, hseq, hdaddr, hcheck⟩ := packetWire_fields hs hl hr
  simp only [wirePacket, hop, hsub, hty, hlen, hsrc, hgsid, hseq, hdaddr, hcheck, wireCheck_packetWire hs hl hr,
    getLsbD_eq_of_wireField hfirst, getLsbD_eq_of_wireField hlast, getLsbD_eq_of_wireField hnf, getLsbD_eq_of_wireField hpoison,
    opOfCode_opCode, BitVec.ofNat_toNat, BitVec.setWidth_eq, beq_self_eq_true, decide_eq_true (opCode_lt p.op), Bool.and_self]
  rfl

/-! ## The ingress (R394, R395) -/

/-- A state whose rings inside the package no longer hold a packet. -/
def State.unlocal (s : State) (p : Packet) : State := { s with hub := { s.hub with local_ := s.hub.local_.erase p } }

theorem exec_packetArrival {s : State} {w : Wire} (h : (wirePacket w).op ≠ .ack) :
    exec (.packetArrival w) s = s.arrive (wirePacket w) := if_neg h

section
variable {s : State} {p : Packet}

/-- A packet with a failed CHECK or a reserved OP, or for a partition that is not enabled, is refused. -/
theorem arrive_refused (h : p.good = false ∨ (s.unlocal p).enabled (p.gsid.toNat / 4096) = false) :
    s.arrive p = .next ((s.unlocal p).refuse p 0) :=
  if_pos (by simpa [State.unlocal] using h)

section
variable (hg : p.good = true) (he : (s.unlocal p).enabled (p.gsid.toNat / 4096) = true)
include hg he

/-- Another packet looks for its stream. -/
theorem not_refused_of_enabled : ¬((!p.good || !(s.unlocal p).enabled (p.gsid.toNat / 4096)) = true) := by rw [hg, he]; decide

section
variable (hf : (s.hub.ingress.find? fun e => e.src == p.src && e.gsid == p.gsid) = none)
include hf

/-- The first packet of a stream begins it. -/
theorem arrive_begins (h1 : p.first = true) (hn : s.hub.ingress.length < 16384) :
    s.arrive p = .next (({ s.unlocal p with hub := { (s.unlocal p).hub with ingress := s.hub.ingress
      ++ [{ src := p.src, gsid := p.gsid, next := p.seq, held := [p], ackedAt := s.clk }] } } : State).commitHeld p.src p.gsid 65537) := by
  refine (if_neg (not_refused_of_enabled hg he)).trans ?_
  dsimp only
  rw [hf]
  refine if_neg ?_
  rw [h1, Bool.not_true, Bool.false_or, decide_eq_true_eq]
  exact Nat.not_le.2 hn

/-- A later one, or one for which there is no entry, is refused. -/
theorem arrive_no_stream (h : p.first = false ∨ 16384 ≤ s.hub.ingress.length) : s.arrive p = .next ((s.unlocal p).refuse p 1) := by
  refine (if_neg (not_refused_of_enabled hg he)).trans ?_
  dsimp only
  rw [hf]
  refine if_pos ?_
  rw [Bool.or_eq_true, Bool.not_eq_true', decide_eq_true_eq]
  exact h

end

section
variable {e : Ingress} (hf : (s.hub.ingress.find? fun e => e.src == p.src && e.gsid == p.gsid) = some e)
include hf

/-- What a packet of a known stream meets, unless it begins the stream afresh. -/
theorem arrive_known (h : ¬(p.seq = 0 ∧ p.first = true ∧ 2 ^ 20 ≤ (p.seq - e.next).toNat)) :
    s.arrive p = if (p.seq - e.next).toNat = 0 then
        .next (((s.unlocal p).setIngress { e with held := e.held.filter (fun q => q.seq != p.seq) ++ [p] }).commitHeld p.src p.gsid 65537)
      else if (p.seq - e.next).toNat < 2 ^ 20 then
        if e.held.any fun q => q.seq == p.seq then .next (s.unlocal p)
        else if (s.unlocal p).heldPackets < 65536 then .next ((s.unlocal p).setIngress { e with held := e.held ++ [p] })
        else .next ((s.unlocal p).refuse p 2)
      else .next ((s.unlocal p).sendAck e (e.next - 1)) := by
  refine (if_neg (not_refused_of_enabled hg he)).trans ?_
  dsimp only
  rw [hf]
  exact if_neg h

/-- The next one of its stream is held and committed with those behind it. -/
theorem arrive_next (hd : (p.seq - e.next).toNat = 0) : s.arrive p = .next
    (((s.unlocal p).setIngress { e with held := e.held.filter (fun q => q.seq != p.seq) ++ [p] }).commitHeld p.src p.gsid 65537) := by
  refine (arrive_known hg he hf fun h => ?_).trans (if_pos hd)
  obtain ⟨-, -, h⟩ := h
  omega

/-- One that was committed is acknowledged again. -/
theorem arrive_committed (hd : 2 ^ 20 ≤ (p.seq - e.next).toNat) (h : p.seq ≠ 0 ∨ p.first = false) :
    s.arrive p = .next ((s.unlocal p).sendAck e (e.next - 1)) := by
  rw [arrive_known hg he hf fun ⟨h0, h1, _⟩ => h.elim (absurd h0) fun h => absurd h1 (by rw [h]; decide),
    if_neg (by omega), if_neg (by omega)]

section
variable (h0 : 0 < (p.seq - e.next).toNat) (h1 : (p.seq - e.next).toNat < 2 ^ 20)
include h0 h1

/-- What one beyond a gap meets. -/
theorem arrive_beyond : s.arrive p = if e.held.any fun q => q.seq == p.seq then .next (s.unlocal p)
    else if (s.unlocal p).heldPackets < 65536 then .next ((s.unlocal p).setIngress { e with held := e.held ++ [p] })
    else .next ((s.unlocal p).refuse p 2) := by
  rw [arrive_known hg he hf fun ⟨_, _, h⟩ => absurd h (Nat.not_le.2 h1), if_neg (Nat.ne_of_gt h0), if_pos h1]

theorem arrive_again (hq : ∃ q ∈ e.held, q.seq = p.seq) : s.arrive p = .next (s.unlocal p) := by
  rw [arrive_beyond hg he hf h0 h1, if_pos (by simpa using hq)]

section
variable (hq : ∀ q ∈ e.held, q.seq ≠ p.seq)
include hq

theorem arrive_held (hn : (s.unlocal p).heldPackets < 65536) :
    s.arrive p = .next ((s.unlocal p).setIngress { e with held := e.held ++ [p] }) := by
  rw [arrive_beyond hg he hf h0 h1, if_neg (by simpa using hq), if_pos hn]

theorem arrive_no_room (hn : 65536 ≤ (s.unlocal p).heldPackets) : s.arrive p = .next ((s.unlocal p).refuse p 2) := by
  rw [arrive_beyond hg he hf h0 h1, if_neg (by simpa using hq), if_neg (Nat.not_lt.2 hn)]

end
end
end
end
end

/-! ## Acknowledgements (R396) -/

section
variable {s : State} {w : Wire} (ha : (wirePacket w).op = .ack)
include ha

theorem exec_ackArrival (hg : (wirePacket w).good = true) (st : AckStatus) :
    exec (.ackArrival ⟨w, st⟩) s = .next (s.takeAck (packetAck (wirePacket w) st)) := if_pos ⟨ha, hg⟩

theorem exec_packetArrival_ack : exec (.packetArrival w) s = exec (.ackArrival ⟨w, .ok⟩) s := if_pos ha

end

/-- An ACK packet with a failed CHECK is no acknowledgement. -/
theorem exec_ackArrival_bad {s : State} {w : Wire} (hg : (wirePacket w).good = false) (st : AckStatus) :
    exec (.ackArrival ⟨w, st⟩) s = .next s :=
  if_neg fun ⟨_, h⟩ => absurd h (by rw [hg]; decide)

/-- An acknowledgement that reports nothing retires what it covers. -/
theorem takeAck_outbox (s : State) (p : Packet) :
    (s.takeAck (packetAck p .ok)).hub.outbox = s.hub.outbox.filter fun o => !Ack.covers (packetAck p .ok) o := rfl

/-- The words of a packet, what the ingress does with one, and acknowledgements. -/
theorem packetsArrive : Piece.PacketsArrive := by
  refine ⟨fun p => wirePacket_packetWire, fun s w => ?_⟩
  intro p
  refine ⟨fun hop => ?_, fun ha hg => ⟨?_, exec_ackArrival_bad hg⟩, fun ha hg => ⟨exec_packetArrival_ack ha,
    exec_ackArrival ha hg, _, exec_ackArrival ha hg .ok, (execAckArrival_memIs ⟨w, .ok⟩ s).sameMemory (exec_ackArrival ha hg .ok),
    takeAck_outbox s p⟩⟩
  · rw [exec_packetArrival hop]
    exact ⟨arrive_refused, fun hg he => ⟨fun hf => ⟨arrive_begins hg he hf, arrive_no_stream hg he hf⟩,
      fun e hf => ⟨arrive_next hg he hf, fun h0 h1 => ⟨arrive_again hg he hf h0 h1,
        fun hq => ⟨arrive_held hg he hf h0 h1 hq, arrive_no_room hg he hf h0 h1 hq⟩⟩, arrive_committed hg he hf⟩⟩⟩
  · exact (exec_packetArrival_ack ha).trans (exec_ackArrival_bad hg .ok)

end Sys2Proof.Machine
end

section
/-! Timers of the links (R394 to R396): those of the ingress acknowledge and reclaim streams, those of the source send again. -/

namespace Sys2Proof.Machine

/-! ## Timers of the ingress -/

section
variable {s : State} {i : Nat} {e e1 : Ingress} (he : s.hub.ingress[i]? = some e)
  (h1 : (s.commitHeld e.src e.gsid 65537).hub.ingress[i]? = some e1)
include he h1

/-- A stream whose first uncovered commit is 1,024 clk old is acknowledged. -/
theorem exec_ackTimer : exec (.ackTimer i) s
    = if e1.uncovered ≠ 0 ∧ e1.since + 1024 ≤ (s.commitHeld e.src e.gsid 65537).clk then
        .next ((s.commitHeld e.src e.gsid 65537).sendAck e1 (e1.next - 1))
      else .next (s.commitHeld e.src e.gsid 65537) := by
  change execAckTimer i s = _
  unfold execAckTimer
  rw [he]
  dsimp only
  rw [h1]

end

/-- Whether a stream of the ingress may be reclaimed (R394). -/
def State.idleStream (s : State) (e : Ingress) : Bool :=
  e.held.isEmpty && e.uncovered == 0 && decide (e.ackedAt + 2 ^ 24 ≤ s.clk)

theorem State.idleStream_iff {s : State} {e : Ingress} :
    s.idleStream e = true ↔ e.held = [] ∧ e.uncovered = 0 ∧ e.ackedAt + 2 ^ 24 ≤ s.clk := by
  rw [State.idleStream, Bool.and_eq_true, Bool.and_eq_true, List.isEmpty_iff, beq_iff_eq, decide_eq_true_eq, and_assoc]

/-- The least recently used of the idle streams is reclaimed. -/
theorem exec_streamEntryReclaim {s : State} {i : Nat} {e : Ingress} (he : s.hub.ingress[i]? = some e) (hi : s.idleStream e = true)
    (ho : ∀ x ∈ s.hub.ingress, s.idleStream x = true → e.ackedAt ≤ x.ackedAt) : exec (.streamEntryReclaim i) s
      = .next { s with hub := { s.hub with ingress := s.hub.ingress.eraseIdx i } } := by
  have hgo : ¬((!s.idleStream e || s.hub.ingress.any fun x => s.idleStream x && decide (x.ackedAt < e.ackedAt)) = true) := by
    rw [hi, Bool.not_true, Bool.false_or, List.any_eq_true]
    rintro ⟨x, hx, h⟩
    rw [Bool.and_eq_true, decide_eq_true_eq] at h
    obtain ⟨hidle, hlt⟩ := h
    exact absurd (ho x hx hidle) (Nat.not_le.2 hlt)
  change execStreamEntryReclaim i s = _
  unfold execStreamEntryReclaim
  rw [he]
  exact if_neg hgo

/-! ## Timers of the source -/

section
variable {s : State} {i : Nat} {o : OutPkt} (ho : s.hub.outbox[i]? = some o)
include ho

/-- A packet refused 4,096 clk ago goes again. -/
theorem exec_refusedPacketResend {n : Nat} (hr : o.refused = some n) (hn : n + 4096 ≤ s.clk) :
    exec (.refusedPacketResend i) s = .next (s.resend i o) := by
  change execRefusedPacketResend i s = _
  unfold execRefusedPacketResend
  rw [ho]
  dsimp only
  rw [hr]
  exact if_pos hn

/-- One that nothing covers after 65,536 clk goes again, on the next usable plane if it leaves the package. -/
theorem exec_unackedPacketResend (hr : o.refused = none) (hn : o.sent + 65536 ≤ s.clk) :
    exec (.unackedPacketResend i) s = .next (s.resend i { o with plane := if o.dpkg = s.hub.pkg then none
      else (o.plane.bind fun p => (s.planesOf o).find? fun q => decide (p < q)).or (s.planesOf o).head? }) := by
  have hgo : ¬(s.clk < o.sent + 65536 ∨ o.refused.isSome = true) := by
    rw [hr]
    exact fun h => h.elim (Nat.not_lt.2 hn) fun h => absurd h (by decide)
  have hplane : (match o.plane with
      | some p => match (s.planesOf o).find? fun q => decide (p < q) with
        | some q => some q
        | none => (s.planesOf o).head?
      | none => (s.planesOf o).head?)
      = (o.plane.bind fun p => (s.planesOf o).find? fun q => decide (p < q)).or (s.planesOf o).head? := by
    cases o.plane with
    | none => rfl
    | some p =>
      dsimp only [Option.bind]
      cases (s.planesOf o).find? fun q => decide (p < q) <;> rfl
  change execUnackedPacketResend i s = _
  unfold execUnackedPacketResend
  rw [ho]
  dsimp only
  rw [← hplane]
  exact if_neg hgo

/-- One that nothing covers after 2^26 clk raises ORDERWIN, once, and waits while the event queue is full. -/
theorem exec_orderwin (hl : o.late = false) (hn : o.first + 2 ^ 26 ≤ s.clk) : exec (.orderwin i) s
    = match s.raiseOwner o.k o.cmd .orderwin (BitVec.ofNat 64 (o.lane + o.pkt.seq.toNat * 2 ^ 32)) with
      | none => .next s
      | some s => .next (s.setOut i { o with late := true }) := by
  have hgo : ¬(o.late = true ∨ s.clk < o.first + 2 ^ 26) := by
    rw [hl]
    exact fun h => h.elim (fun h => absurd h (by decide)) (Nat.not_lt.2 hn)
  change execOrderwin i s = _
  unfold execOrderwin
  rw [ho]
  exact if_neg hgo

end

/-- The timers of the ingress and of the source. -/
theorem packetTimers : Piece.PacketTimers := by
  intro s i
  refine ⟨fun e e1 he => ?_, fun o ho => ⟨fun n hr hn => exec_refusedPacketResend ho hr hn, fun hr hn => ?_, fun hl hn => ?_⟩,
    fun e he hh hu hn hold => ?_⟩
  · intro s1 h1
    exact ⟨fun hu hn => (exec_ackTimer he h1).trans (if_pos ⟨hu, hn⟩),
      fun h => (exec_ackTimer he h1).trans (if_neg fun ⟨hu, hn⟩ => h.elim hu (Nat.not_lt.2 hn))⟩
  · have hex := exec_unackedPacketResend ho hr hn
    refine ⟨fun hd => ?_, fun hd => ?_⟩
    · rwa [if_pos hd] at hex
    · rwa [if_neg hd] at hex
  · have hex := exec_orderwin ho hl hn
    refine ⟨fun s1 hs => ?_, fun hs => ?_⟩
    · rw [hex, show s.raiseOwner _ _ _ _ = _ from hs]
    · rw [hex, show s.raiseOwner _ _ _ _ = _ from hs]
  · have hex := exec_streamEntryReclaim he (State.idleStream_iff.2 ⟨hh, hu, hn⟩) fun x hx h => by
      obtain ⟨hh, hu, hn⟩ := State.idleStream_iff.1 h
      exact hold x hx hh hu hn
    exact ⟨_, hex, (execStreamEntryReclaim_memIs i s).sameMemory hex, rfl⟩

/-- Settles O42: weight versions, packets and timers, each by its own part. -/
theorem versionsAndPackets : Obligations.VersionsAndPackets := ⟨versionsChange, packetsArrive, packetTimers⟩

end Sys2Proof.Machine
end
